-- ==== Sys2Proof/Word.lean ====
section
/-! DEFINITION. The word types and finite maps as plain data. -/

namespace Sys2Proof

/-- A 64-bit register or address word. -/
abbrev Word := BitVec 64

/-- One byte of memory. -/
abbrev Byte := BitVec 8

/-- A finite map: a list of keys and values; a key that is not listed has the value the reader names. -/
abbrev Map (κ α : Type) := List (κ × α)

/-- The value at a key, `d` where the key is not listed. -/
def Map.get {κ α : Type} [DecidableEq κ] (m : Map κ α) (d : α) (k : κ) : α :=
  match m with
  | [] => d
  | (j, v) :: r => if j = k then v else Map.get r d k

/-- The map with the value at one key replaced. -/
def Map.set {κ α : Type} [DecidableEq κ] (m : Map κ α) (k : κ) (v : α) : Map κ α :=
  match m with
  | [] => [(k, v)]
  | (j, u) :: r => if j = k then (k, v) :: r else (j, u) :: Map.set r k v

/-- The map without one key. -/
def Map.drop {κ α : Type} [DecidableEq κ] (m : Map κ α) (k : κ) : Map κ α :=
  m.filter fun e => !decide (e.1 = k)

/-- Whether a key is listed. -/
def Map.has {κ α : Type} [DecidableEq κ] (m : Map κ α) (k : κ) : Bool :=
  m.any fun e => decide (e.1 = k)

/-- The bits [hi : lo] of a natural number, as a natural number (R9). -/
def bits (x hi lo : Nat) : Nat := (x / 2 ^ lo) % 2 ^ (hi + 1 - lo)

/-- One bit of a natural number. -/
def bit (x n : Nat) : Bool := x.testBit n

end Sys2Proof
end

