-- ==== Sys2Proof/Syntax.lean ====
section
/-! DEFINITION. Abstract syntax: the one inductive `Instr`, a constructor for each row of spec/opcode_table.json.
The first 279 constructors are instruction words (03_encoding R70-R82), their operands the bit fields of the form;
the other 88 are steps that no instruction word starts (95_what_each_step_holds), their operands naming the agent,
the object or the message that the step is about. -/

namespace Sys2Proof

/-- A sequencer: C and the engines of a core (`sq` is 0 for C, else the engine code of R75), a pier stream
(pier, stream slot; R356) or a copy sequencer (R148). -/
inductive Agent where
  | seq (core sq : Nat)
  | pier (p k : Nat)
  | copy (n : Nat)
deriving DecidableEq, Repr, Inhabited

/-- The holder of a set of 64 tags: a core (R319) or a copy sequencer (R148). -/
inductive TagOwner where
  | core (c : Nat)
  | copy (n : Nat)
deriving DecidableEq, Repr, Inhabited

/-- One tag, and with it the asynchronous operation it stands for (R190, R319). -/
structure TagRef where
  owner : TagOwner
  tag : Nat
deriving DecidableEq, Repr, Inhabited

/-- What another module sends to this one (18_link R386-R395) or a buddy module mirrors to it (17_piers R373).
`tenant` is the sending job, `dev` the sending module, `fn` the form that sent it; the other fields are read as each rule gives. `rod`: it goes by reliable
ordered delivery, else unordered, under one of 256 entropy values (R385); `before`: the numbers of the sender's operations that are performed before this one
(R390, R392); `stop`: the operation is cancelled at the mark that it has reached (R395). -/
structure Packet where
  dev : Nat := 0
  tenant : Nat := 0
  addr : Nat := 0
  len : Nat := 0
  op : Nat := 0
  value : Nat := 0
  fn : Nat := 0
  seq : Nat := 0
  last : Bool := true
  rod : Bool := false
  entropy : Nat := 0
  before : List Nat := []
  stop : Bool := false
  bytes : List (BitVec 8) := []
deriving DecidableEq, Repr, Inhabited

/-- A flit of the Fenvar link as received (18_link R375-R377): its fields, and whether correction and check hold. -/
structure Flit where
  seqNo : Nat := 0
  ackNo : Nat := 0
  credits : Nat := 0
  good : Bool := true
  body : List (BitVec 8) := []
deriving DecidableEq, Repr, Inhabited

/-- A write of CTXCMD in the window of a slot: its ID field goes with every code (04_context R95). -/
structure Ctxcmd where
  slot : Nat
  id : Nat
deriving DecidableEq, Repr, Inhabited

/-- A management message on the side-band port: its payload after the command byte (18_link R383, 22_bringup R420). -/
structure Message where
  payload : List (BitVec 8) := []
deriving DecidableEq, Repr, Inhabited

/-- What a check reports (19_faults R404, R405, R410). -/
structure ErrorReport where
  unitClass : Nat := 0
  unitIndex : Nat := 0
  kind : Nat := 0
  locus : Nat := 0
  addr : Nat := 0
  ctx : Nat := 0
deriving DecidableEq, Repr, Inhabited

/-- One constructor per row of the opcode table. -/
inductive Instr where
  | nop (tok : BitVec 4)
  | lpat (kind : BitVec 5) (k : BitVec 5)
  | halt (tok : BitVec 4)
  | brk (tok : BitVec 4) (code : BitVec 12)
  | trap (tok : BitVec 4) (code : BitVec 12)
  | tok (tok : BitVec 4) (n : BitVec 4)
  | pause (tok : BitVec 4) (t : BitVec 12)
  | loop (tok : BitVec 4) (n : BitVec 2) (len : BitVec 6) (count : BitVec 6)
  | loopR (tok : BitVec 4) (n : BitVec 2) (len : BitVec 6)
  | loopp (tok : BitVec 4) (n : BitVec 2) (p : BitVec 2) (d : BitVec 1) (len : BitVec 6)
  | loopr (tok : BitVec 4) (n : BitVec 2) (sm1 : BitVec 3) (len : BitVec 6)
  | sj (tok : BitVec 4) (off : BitVec 12)
  | sjp (tok : BitVec 4) (off : BitVec 12)
  | pelse (tok : BitVec 4)
  | ptrue (tok : BitVec 4)
  | semset (tok : BitVec 4) (n : BitVec 5) (v : BitVec 12)
  | semadd (tok : BitVec 4) (n : BitVec 5) (d : BitVec 12)
  | semwait (tok : BitVec 4) (n : BitVec 5) (v : BitVec 12)
  | twany (tok : BitVec 4) (half : BitVec 5) (mask : BitVec 12)
  | twall (tok : BitVec 4) (half : BitVec 5) (mask : BitVec 12)
  | tffr (tok : BitVec 4) (half : BitVec 5) (mask : BitVec 12)
  | add (sd : BitVec 5) (sa : BitVec 5) (sb : BitVec 5)
  | sub (sd : BitVec 5) (sa : BitVec 5) (sb : BitVec 5)
  | and (sd : BitVec 5) (sa : BitVec 5) (sb : BitVec 5)
  | or (sd : BitVec 5) (sa : BitVec 5) (sb : BitVec 5)
  | xor (sd : BitVec 5) (sa : BitVec 5) (sb : BitVec 5)
  | min (sd : BitVec 5) (sa : BitVec 5) (sb : BitVec 5) (u : BitVec 1)
  | max (sd : BitVec 5) (sa : BitVec 5) (sb : BitVec 5) (u : BitVec 1)
  | slt (sd : BitVec 5) (sa : BitVec 5) (sb : BitVec 5) (u : BitVec 1)
  | sel (sd : BitVec 5) (sa : BitVec 5) (sb : BitVec 5)
  | addi (sd : BitVec 5) (sa : BitVec 5) (imm : BitVec 13)
  | andi (sd : BitVec 5) (sa : BitVec 5) (imm : BitVec 13)
  | ori (sd : BitVec 5) (sa : BitVec 5) (imm : BitVec 13)
  | xori (sd : BitVec 5) (sa : BitVec 5) (imm : BitVec 13)
  | slti (sd : BitVec 5) (sa : BitVec 5) (imm : BitVec 13)
  | sltiU (sd : BitVec 5) (sa : BitVec 5) (imm : BitVec 13)
  | sll (sd : BitVec 5) (sa : BitVec 5) (sb : BitVec 5)
  | sllImm (sd : BitVec 5) (sa : BitVec 5) (n : BitVec 6)
  | srl (sd : BitVec 5) (sa : BitVec 5) (sb : BitVec 5)
  | srlImm (sd : BitVec 5) (sa : BitVec 5) (n : BitVec 6)
  | sra (sd : BitVec 5) (sa : BitVec 5) (sb : BitVec 5)
  | sraImm (sd : BitVec 5) (sa : BitVec 5) (n : BitVec 6)
  | clz (sd : BitVec 5) (sa : BitVec 5) (w : BitVec 1)
  | ctz (sd : BitVec 5) (sa : BitVec 5) (w : BitVec 1)
  | popc (sd : BitVec 5) (sa : BitVec 5) (w : BitVec 1)
  | bext (sd : BitVec 5) (sa : BitVec 5) (sb : BitVec 5) (wm1 : BitVec 6)
  | bins (sd : BitVec 5) (sa : BitVec 5) (sb : BitVec 5) (wm1 : BitVec 6)
  | mul (sd : BitVec 5) (sa : BitVec 5) (sb : BitVec 5)
  | mulh (sd : BitVec 5) (sa : BitVec 5) (sb : BitVec 5) (u : BitVec 1)
  | div (sd : BitVec 5) (sa : BitVec 5) (sb : BitVec 5) (u : BitVec 1)
  | rem (sd : BitVec 5) (sa : BitVec 5) (sb : BitVec 5) (u : BitVec 1)
  | fadd (sd : BitVec 5) (sa : BitVec 5) (sb : BitVec 5) (rm : BitVec 3) (d : BitVec 1)
  | fsub (sd : BitVec 5) (sa : BitVec 5) (sb : BitVec 5) (rm : BitVec 3) (d : BitVec 1)
  | fmul (sd : BitVec 5) (sa : BitVec 5) (sb : BitVec 5) (rm : BitVec 3) (d : BitVec 1)
  | fdiv (sd : BitVec 5) (sa : BitVec 5) (sb : BitVec 5) (rm : BitVec 3) (d : BitVec 1)
  | fsqrt (sd : BitVec 5) (sa : BitVec 5) (rm : BitVec 3) (d : BitVec 1)
  | fma (sd : BitVec 5) (sa : BitVec 5) (sb : BitVec 5) (rm : BitVec 3) (d : BitVec 1)
  | fcvt (sd : BitVec 5) (sa : BitVec 5) (m : BitVec 2) (rm : BitVec 3) (d : BitVec 1)
  | peq (sa : BitVec 5) (sb : BitVec 5)
  | pne (sa : BitVec 5) (sb : BitVec 5)
  | plt (sa : BitVec 5) (sb : BitVec 5) (u : BitVec 1)
  | pge (sa : BitVec 5) (sb : BitVec 5) (u : BitVec 1)
  | pfeq (sa : BitVec 5) (sb : BitVec 5) (d : BitVec 1)
  | pflt (sa : BitVec 5) (sb : BitVec 5) (d : BitVec 1)
  | pfle (sa : BitVec 5) (sb : BitVec 5) (d : BitVec 1)
  | lis (sd : BitVec 5) (imm : BitVec 13)
  | lsh (sd : BitVec 5) (imm : BitVec 13)
  | mfcr (sd : BitVec 5) (cr : BitVec 11)
  | mtcr (sa : BitVec 5) (cr : BitVec 11)
  | mtcrs (sa : BitVec 5) (cr : BitVec 11)
  | mtcrc (sa : BitVec 5) (cr : BitVec 11)
  | ld (sd : BitVec 5) (sa : BitVec 5) (oc : BitVec 4) (sz : BitVec 2) (off : BitVec 9)
  | ldu (sd : BitVec 5) (sa : BitVec 5) (oc : BitVec 4) (sz : BitVec 2) (off : BitVec 9)
  | st (sd : BitVec 5) (sa : BitVec 5) (oc : BitVec 4) (sz : BitVec 2) (off : BitVec 9)
  | aadd (sd : BitVec 5) (sa : BitVec 5) (sb : BitVec 5) (cls : BitVec 2) (scope : BitVec 2) (d : BitVec 1)
  | aand (sd : BitVec 5) (sa : BitVec 5) (sb : BitVec 5) (cls : BitVec 2) (scope : BitVec 2) (d : BitVec 1)
  | aor (sd : BitVec 5) (sa : BitVec 5) (sb : BitVec 5) (cls : BitVec 2) (scope : BitVec 2) (d : BitVec 1)
  | axor (sd : BitVec 5) (sa : BitVec 5) (sb : BitVec 5) (cls : BitVec 2) (scope : BitVec 2) (d : BitVec 1)
  | amin (sd : BitVec 5) (sa : BitVec 5) (sb : BitVec 5) (cls : BitVec 2) (scope : BitVec 2) (u : BitVec 1) (d : BitVec 1)
  | amax (sd : BitVec 5) (sa : BitVec 5) (sb : BitVec 5) (cls : BitVec 2) (scope : BitVec 2) (u : BitVec 1) (d : BitVec 1)
  | aswp (sd : BitVec 5) (sa : BitVec 5) (sb : BitVec 5) (cls : BitVec 2) (scope : BitVec 2) (d : BitVec 1)
  | acas (sd : BitVec 5) (sa : BitVec 5) (sb : BitVec 5) (cls : BitVec 2) (scope : BitVec 2) (d : BitVec 1)
  | fence (mask : BitVec 16) (scope : BitVec 2)
  | lda (sd : BitVec 5) (sa : BitVec 5) (sb : BitVec 5) (sz : BitVec 2) (scope : BitVec 2)
  | stl (sd : BitVec 5) (sa : BitVec 5) (sb : BitVec 5) (sz : BitVec 2) (scope : BitVec 2)
  | syncw (mask : BitVec 16)
  | bzeq (sa : BitVec 5) (off : BitVec 16)
  | bzne (sa : BitVec 5) (off : BitVec 16)
  | bzlt (sa : BitVec 5) (off : BitVec 16)
  | bzge (sa : BitVec 5) (off : BitVec 16)
  | bzgt (sa : BitVec 5) (off : BitVec 16)
  | bzle (sa : BitVec 5) (off : BitVec 16)
  | bpt (off : BitVec 16)
  | bpf (off : BitVec 16)
  | jal (sd : BitVec 5) (off : BitVec 21)
  | jalr (sd : BitVec 5) (sa : BitVec 5)
  | jr (sa : BitVec 5)
  | tload (sd : BitVec 5) (sa : BitVec 5) (e : BitVec 3)
  | tstart (sa : BitVec 5) (e : BitVec 3)
  | tstop (e : BitVec 3)
  | tbase (sd : BitVec 5) (sa : BitVec 5) (e : BitVec 3)
  | tset (sa : BitVec 5) (n : BitVec 8) (e : BitVec 3)
  | tget (sd : BitVec 5) (n : BitVec 8) (e : BitVec 3)
  | twidle (e : BitVec 3)
  | qput (sd : BitVec 5) (sa : BitVec 5) (sb : BitVec 5)
  | qputNb (sd : BitVec 5) (sa : BitVec 5) (sb : BitVec 5)
  | qtake (sd : BitVec 5)
  | qsteal (sd : BitVec 5)
  | qstealRank (sd : BitVec 5) (sa : BitVec 5)
  | qcommit (sd : BitVec 5)
  | qdone (sd : BitVec 5) (sa : BitVec 5) (sb : BitVec 5)
  | barr (sd : BitVec 5)
  | barw (sa : BitVec 5)
  | fstop (sd : BitVec 5) (sa : BitVec 5)
  | txinit (sa : BitVec 5) (sb : BitVec 5)
  | txexp (sa : BitVec 5) (sb : BitVec 5)
  | txarr (sd : BitVec 5) (sa : BitVec 5) (sb : BitVec 5)
  | txwait (sa : BitVec 5) (sb : BitVec 5)
  | rft
  | scall (sd : BitVec 5) (sa : BitVec 5) (sb : BitVec 5)
  | wfe (sd : BitVec 5) (sa : BitVec 5)
  | sev (sa : BitVec 5)
  | rdcnt (sd : BitVec 5) (n : BitVec 6)
  | pinvCtx (sa : BitVec 5)
  | pinvRange (sa : BitVec 5) (sb : BitVec 5)
  | pinvAll
  | rminvCtx (sa : BitVec 5)
  | rminvRange (sa : BitVec 5) (sb : BitVec 5)
  | rminvAll
  | ctxsv (sd : BitVec 5) (sa : BitVec 5)
  | ctxld (sa : BitVec 5)
  | bsclaim (sa : BitVec 5) (n : BitVec 5)
  | bsrel
  | bsin (tag : BitVec 6) (sa : BitVec 5) (sb : BitVec 5) (lz : BitVec 3)
  | bsout (tag : BitVec 6) (sa : BitVec 5) (sb : BitVec 5) (sx : BitVec 1) (lz : BitVec 3)
  | bslog (sa : BitVec 5) (op : BitVec 5)
  | bsadd (sa : BitVec 5) (sb : BitVec 5) (s : BitVec 1) (sat : BitVec 1) (k : BitVec 1)
  | bssub (sa : BitVec 5) (sb : BitVec 5) (s : BitVec 1) (sat : BitVec 1) (k : BitVec 1)
  | bscmp (sa : BitVec 5) (sb : BitVec 5) (k : BitVec 1) (s : BitVec 1) (cond : BitVec 3)
  | bssel (sa : BitVec 5)
  | bsinc (sa : BitVec 5)
  | bsmin (sa : BitVec 5) (sb : BitVec 5) (s : BitVec 1) (k : BitVec 1)
  | bspop (sa : BitVec 5)
  | bsshf (sa : BitVec 5) (rot : BitVec 1) (dn : BitVec 1)
  | bswait
  | fork (tag : BitVec 6) (sa : BitVec 5) (sb : BitVec 5) (p : BitVec 3)
  | join (tag : BitVec 6) (sa : BitVec 5)
  | mbput (tag : BitVec 6) (sa : BitVec 5)
  | mbget (tag : BitVec 6) (sa : BitVec 5)
  | pbind (sa : BitVec 5) (u : BitVec 4)
  | pstrm (sa : BitVec 5) (sb : BitVec 5) (u : BitVec 4)
  | prun (sa : BitVec 5) (u : BitVec 4)
  | pchain (sa : BitVec 5) (u : BitVec 4)
  | prcpy (sa : BitVec 5) (sb : BitVec 5) (b : BitVec 1)
  | przero (sa : BitVec 5)
  | pflush (u : BitVec 4)
  | xbkt (tag : BitVec 6) (sa : BitVec 5)
  | xa2a (tag : BitVec 6) (sa : BitVec 5)
  | xput (tag : BitVec 6) (sa : BitVec 5)
  | xget (tag : BitVec 6) (sa : BitVec 5)
  | xamo (tag : BitVec 6) (sa : BitVec 5)
  | xsig (tag : BitVec 6) (sa : BitVec 5) (sb : BitVec 5)
  | xwait (tag : BitVec 6) (sa : BitVec 5)
  | gbag (tag : BitVec 6) (sa : BitVec 5)
  | grow (tag : BitVec 6) (sa : BitVec 5)
  | supd (tag : BitVec 6) (sa : BitVec 5)
  | scommit (tag : BitVec 6) (sa : BitVec 5) (sb : BitVec 5)
  | skq (tag : BitVec 6) (sa : BitVec 5)
  | vadd (tok : BitVec 4) (vd : BitVec 5) (va : BitVec 5) (vb : BitVec 5) (la : BitVec 1) (lb : BitVec 1)
  | vsub (tok : BitVec 4) (vd : BitVec 5) (va : BitVec 5) (vb : BitVec 5) (la : BitVec 1) (lb : BitVec 1)
  | vmul (tok : BitVec 4) (vd : BitVec 5) (va : BitVec 5) (vb : BitVec 5) (la : BitVec 1) (lb : BitVec 1)
  | vfma (tok : BitVec 4) (vd : BitVec 5) (va : BitVec 5) (vb : BitVec 5) (la : BitVec 1) (lb : BitVec 1)
  | vfms (tok : BitVec 4) (vd : BitVec 5) (va : BitVec 5) (vb : BitVec 5) (la : BitVec 1) (lb : BitVec 1)
  | vdiv (tok : BitVec 4) (vd : BitVec 5) (va : BitVec 5) (vb : BitVec 5) (la : BitVec 1) (lb : BitVec 1)
  | vsqrt (tok : BitVec 4) (vd : BitVec 5) (va : BitVec 5) (la : BitVec 1)
  | vmin (tok : BitVec 4) (vd : BitVec 5) (va : BitVec 5) (vb : BitVec 5) (la : BitVec 1) (lb : BitVec 1)
  | vmax (tok : BitVec 4) (vd : BitVec 5) (va : BitVec 5) (vb : BitVec 5) (la : BitVec 1) (lb : BitVec 1)
  | vabs (tok : BitVec 4) (vd : BitVec 5) (va : BitVec 5) (la : BitVec 1)
  | vneg (tok : BitVec 4) (vd : BitVec 5) (va : BitVec 5) (la : BitVec 1)
  | vfmaw (tok : BitVec 4) (vd : BitVec 5) (va : BitVec 5) (vb : BitVec 5) (la : BitVec 1) (lb : BitVec 1)
  | vmulw (tok : BitVec 4) (vd : BitVec 5) (va : BitVec 5) (vb : BitVec 5) (la : BitVec 1) (lb : BitVec 1)
  | vaddw (tok : BitVec 4) (vd : BitVec 5) (va : BitVec 5) (vb : BitVec 5) (la : BitVec 1) (lb : BitVec 1)
  | vadds (tok : BitVec 4) (vd : BitVec 5) (va : BitVec 5) (vb : BitVec 5) (la : BitVec 1) (lb : BitVec 1)
  | vsubs (tok : BitVec 4) (vd : BitVec 5) (va : BitVec 5) (vb : BitVec 5) (la : BitVec 1) (lb : BitVec 1)
  | vmulh (tok : BitVec 4) (vd : BitVec 5) (va : BitVec 5) (vb : BitVec 5) (la : BitVec 1) (lb : BitVec 1)
  | vdot4 (tok : BitVec 4) (vd : BitVec 5) (va : BitVec 5) (vb : BitVec 5) (la : BitVec 1) (lb : BitVec 1)
  | vand (tok : BitVec 4) (vd : BitVec 5) (va : BitVec 5) (vb : BitVec 5) (la : BitVec 1) (lb : BitVec 1)
  | vor (tok : BitVec 4) (vd : BitVec 5) (va : BitVec 5) (vb : BitVec 5) (la : BitVec 1) (lb : BitVec 1)
  | vxor (tok : BitVec 4) (vd : BitVec 5) (va : BitVec 5) (vb : BitVec 5) (la : BitVec 1) (lb : BitVec 1)
  | vnot (tok : BitVec 4) (vd : BitVec 5) (va : BitVec 5) (la : BitVec 1)
  | vsll (tok : BitVec 4) (vd : BitVec 5) (va : BitVec 5) (vb : BitVec 5) (la : BitVec 1) (lb : BitVec 1)
  | vsrl (tok : BitVec 4) (vd : BitVec 5) (va : BitVec 5) (vb : BitVec 5) (la : BitVec 1) (lb : BitVec 1)
  | vsra (tok : BitVec 4) (vd : BitVec 5) (va : BitVec 5) (vb : BitVec 5) (la : BitVec 1) (lb : BitVec 1)
  | vpopc (tok : BitVec 4) (vd : BitVec 5) (va : BitVec 5) (la : BitVec 1)
  | vpeq (tok : BitVec 4) (va : BitVec 5) (vb : BitVec 5) (la : BitVec 1) (lb : BitVec 1)
  | vpne (tok : BitVec 4) (va : BitVec 5) (vb : BitVec 5) (la : BitVec 1) (lb : BitVec 1)
  | vplt (tok : BitVec 4) (va : BitVec 5) (vb : BitVec 5) (la : BitVec 1) (lb : BitVec 1)
  | vple (tok : BitVec 4) (va : BitVec 5) (vb : BitVec 5) (la : BitVec 1) (lb : BitVec 1)
  | vpnan (tok : BitVec 4) (va : BitVec 5) (la : BitVec 1)
  | vpfin (tok : BitVec 4) (va : BitVec 5) (la : BitVec 1)
  | vpld (tok : BitVec 4) (va : BitVec 5) (la : BitVec 1)
  | vpst (tok : BitVec 4) (vd : BitVec 5)
  | vcvt (tok : BitVec 4) (vd : BitVec 5) (va : BitVec 5) (la : BitVec 1)
  | vcvtsr (tok : BitVec 4) (vd : BitVec 5) (va : BitVec 5) (k : BitVec 3) (la : BitVec 1)
  | vqblk (tok : BitVec 4) (vd : BitVec 5) (va : BitVec 5) (la : BitVec 1)
  | vdqblk (tok : BitVec 4) (vd : BitVec 5) (va : BitVec 5) (la : BitVec 1)
  | vwid (tok : BitVec 4) (vd : BitVec 5) (va : BitVec 5) (la : BitVec 1)
  | vnarr (tok : BitVec 4) (vd : BitVec 5) (va : BitVec 5) (la : BitVec 1)
  | vrcp (tok : BitVec 4) (vd : BitVec 5) (va : BitVec 5) (la : BitVec 1)
  | vrsqrt (tok : BitVec 4) (vd : BitVec 5) (va : BitVec 5) (la : BitVec 1)
  | vexp (tok : BitVec 4) (vd : BitVec 5) (va : BitVec 5) (la : BitVec 1)
  | vlog (tok : BitVec 4) (vd : BitVec 5) (va : BitVec 5) (la : BitVec 1)
  | vtanh (tok : BitVec 4) (vd : BitVec 5) (va : BitVec 5) (la : BitVec 1)
  | vsigm (tok : BitVec 4) (vd : BitVec 5) (va : BitVec 5) (la : BitVec 1)
  | vperm (tok : BitVec 4) (vd : BitVec 5) (va : BitVec 5) (vb : BitVec 5) (la : BitVec 1) (lb : BitVec 1)
  | vcomp (tok : BitVec 4) (vd : BitVec 5) (va : BitVec 5) (m : BitVec 1) (k : BitVec 3) (la : BitVec 1)
  | vexpd (tok : BitVec 4) (vd : BitVec 5) (va : BitVec 5) (la : BitVec 1)
  | vpart (tok : BitVec 4) (vd : BitVec 5) (va : BitVec 5) (k : BitVec 3) (la : BitVec 1)
  | vslide (tok : BitVec 4) (vd : BitVec 5) (va : BitVec 5) (k : BitVec 3) (la : BitVec 1)
  | vzip (tok : BitVec 4) (vd : BitVec 5) (va : BitVec 5) (vb : BitVec 5) (la : BitVec 1) (lb : BitVec 1)
  | vunzip (tok : BitVec 4) (vd : BitVec 5) (va : BitVec 5) (la : BitVec 1)
  | vbcast (tok : BitVec 4) (vd : BitVec 5) (va : BitVec 5) (k : BitVec 3) (la : BitVec 1)
  | vredsum (tok : BitVec 4) (vd : BitVec 5) (va : BitVec 5) (k : BitVec 3) (la : BitVec 1)
  | vredmax (tok : BitVec 4) (vd : BitVec 5) (va : BitVec 5) (k : BitVec 3) (la : BitVec 1)
  | vredmin (tok : BitVec 4) (vd : BitVec 5) (va : BitVec 5) (k : BitVec 3) (la : BitVec 1)
  | vscan (tok : BitVec 4) (vd : BitVec 5) (va : BitVec 5) (la : BitVec 1)
  | vsegsum (tok : BitVec 4) (vd : BitVec 5) (va : BitVec 5) (vb : BitVec 5) (la : BitVec 1) (lb : BitVec 1)
  | vmov (tok : BitVec 4) (vd : BitVec 5) (va : BitVec 5) (la : BitVec 1)
  | vsplat (tok : BitVec 4) (vd : BitVec 5) (k : BitVec 3)
  | vtype (tok : BitVec 4) (t0 : BitVec 4) (t1 : BitVec 4) (sat : BitVec 1) (rm : BitVec 3)
  | vwin (tok : BitVec 4) (base : BitVec 10)
  | vidx (tok : BitVec 4) (vd : BitVec 5)
  | vaccrd (tok : BitVec 4) (vd : BitVec 5) (acc : BitVec 4) (snap : BitVec 1) (k : BitVec 3)
  | vaccwr (tok : BitVec 4) (acc : BitVec 4) (va : BitVec 5) (k : BitVec 3) (la : BitVec 1)
  | vtos (tok : BitVec 4) (j : BitVec 3) (va : BitVec 5) (k : BitVec 3) (la : BitVec 1)
  | vdead (tok : BitVec 4) (vd : BitVec 5) (nm1 : BitVec 5)
  | vld (tok : BitVec 4) (vd : BitVec 5) (as : BitVec 3) (oc : BitVec 4) (inc : BitVec 3)
  | vlds (tok : BitVec 4) (vd : BitVec 5) (as : BitVec 3) (oc : BitVec 4) (inc : BitVec 3)
  | vldq (tok : BitVec 4) (vd : BitVec 5) (as : BitVec 3) (oc : BitVec 4) (inc : BitVec 3)
  | vst (tok : BitVec 4) (vd : BitVec 5) (as : BitVec 3) (oc : BitVec 4) (inc : BitVec 3) (lu : BitVec 1)
  | vsts (tok : BitVec 4) (vd : BitVec 5) (as : BitVec 3) (oc : BitVec 4) (inc : BitVec 3) (lu : BitVec 1)
  | vstq (tok : BitVec 4) (vd : BitVec 5) (as : BitVec 3) (oc : BitVec 4) (inc : BitVec 3) (lu : BitVec 1)
  | vgth (tok : BitVec 4) (vd : BitVec 5) (va : BitVec 5) (k : BitVec 3) (la : BitVec 1)
  | vsct (tok : BitVec 4) (vd : BitVec 5) (va : BitVec 5) (k : BitVec 3) (la : BitVec 1)
  | vsctadd (tok : BitVec 4) (vd : BitVec 5) (va : BitVec 5) (k : BitVec 3) (la : BitVec 1)
  | vaadd (tok : BitVec 4) (vd : BitVec 5) (va : BitVec 5) (k : BitVec 3) (la : BitVec 1)
  | vamax (tok : BitVec 4) (vd : BitVec 5) (va : BitVec 5) (k : BitVec 3) (la : BitVec 1)
  | mwld (tok : BitVec 4) (da : BitVec 4) (db : BitVec 4)
  | mwsp (tok : BitVec 4) (da : BitVec 4) (db : BitVec 4)
  | mmf (tok : BitVec 4) (acc : BitVec 4) (da : BitVec 4) (db : BitVec 4) (z : BitVec 1)
  | mmfg (tok : BitVec 4) (acc : BitVec 4) (da : BitVec 4) (db : BitVec 4) (z : BitVec 1)
  | mmb (tok : BitVec 4) (acc : BitVec 4) (da : BitVec 4) (db : BitVec 4) (z : BitVec 1) (ks : BitVec 2)
  | mmw (tok : BitVec 4) (acc : BitVec 4) (da : BitVec 4) (db : BitVec 4) (z : BitVec 1) (ks : BitVec 2)
  | mmfs (tok : BitVec 4) (acc : BitVec 4) (da : BitVec 4) (db : BitVec 4) (z : BitVec 1)
  | mmbs (tok : BitVec 4) (acc : BitVec 4) (da : BitVec 4) (db : BitVec 4) (z : BitVec 1) (ks : BitVec 2)
  | macz (tok : BitVec 4) (acc : BitVec 4)
  | macst (tok : BitVec 4) (acc : BitVec 4) (da : BitVec 4) (sat : BitVec 1) (rm : BitVec 3)
  | macld (tok : BitVec 4) (acc : BitVec 4) (da : BitVec 4)
  | mdset (tok : BitVec 4) (da : BitVec 4) (word : BitVec 2) (n : BitVec 2)
  | mdld (tok : BitVec 4) (da : BitVec 4) (cm1 : BitVec 4) (n : BitVec 2)
  | mrpg (tok : BitVec 4) (n : BitVec 2)
  | fcpy (tok : BitVec 4) (tag : BitVec 6) (fd : BitVec 4) (oc : BitVec 4)
  | fcpyz (tok : BitVec 4) (tag : BitVec 6) (fd : BitVec 4) (oc : BitVec 4)
  | fcpym (tok : BitVec 4) (tag : BitVec 6) (fd : BitVec 4) (oc : BitVec 4)
  | fprf (tok : BitVec 4) (fd : BitVec 4) (oc : BitVec 4)
  | fwait (tok : BitVec 4) (tag : BitVec 6) (sw : BitVec 1) (n : BitVec 2)
  | fwaitr (tok : BitVec 4) (tag : BitVec 6)
  | fcan (tok : BitVec 4) (tag : BitVec 6)
  | fres (tok : BitVec 4) (tag : BitVec 6)
  | fwm (tok : BitVec 4) (tag : BitVec 6) (n : BitVec 2)
  | fdld (tok : BitVec 4) (cm1 : BitVec 4) (fd : BitVec 4) (n : BitVec 2)
  | fdset (tok : BitVec 4) (word : BitVec 3) (fd : BitVec 4) (n : BitVec 2)
  | rclaim (tok : BitVec 4) (fd : BitVec 4) (oc : BitVec 4) (q : BitVec 2) (h : BitVec 2)
  | rpub (tok : BitVec 4) (oc : BitVec 4) (q : BitVec 2) (h : BitVec 2)
  | rwfill (tok : BitVec 4) (fd : BitVec 4) (oc : BitVec 4) (q : BitVec 2) (h : BitVec 2)
  | rwfree (tok : BitVec 4) (oc : BitVec 4) (q : BitVec 2) (h : BitVec 2)
  | rrel (tok : BitVec 4) (oc : BitVec 4) (q : BitVec 2) (h : BitVec 2)
  | ftxe (tok : BitVec 4) (fd : BitVec 4) (oc : BitVec 4) (h : BitVec 2)
  | ftxk (tok : BitVec 4) (oc : BitVec 4) (h : BitVec 2)
  | pauseExpiry (who : Agent)
  | wfeTimeout (core : Nat)
  | waySwitchEnd (slot : Nat)
  | commandStart (slot : Nat)
  | transferStep (t : TagRef)
  | waitEnd (who : Agent)
  | tokenRelief (core : Nat)
  | ringRelief (slot : Nat)
  | watchdogTimeout (core : Nat)
  | trapDelivery (core : Nat)
  | chunkIssue (t : TagRef)
  | chunkLanding (t : TagRef)
  | bagPublish (t : TagRef)
  | optimiserCommit (t : TagRef)
  | buddyAcknowledgement (t : TagRef)
  | crossingCompletion (t : TagRef)
  | tmoExpiry (t : TagRef)
  | xputArrival (p : Packet)
  | xgetArrival (p : Packet)
  | xamoArrival (p : Packet)
  | xsigArrival (p : Packet)
  | xa2aArrival (p : Packet)
  | dispatchDecision
  | levelRaise (slot : Nat) (q : Nat)
  | completion (n : Nat)
  | putArrival (n : Nat)
  | acknowledgement (n : Nat)
  | negativeAcknowledgement (n : Nat)
  | backoffExpiry (n : Nat)
  | quantumExpiry (slot : Nat)
  | quantumReturn (slot : Nat)
  | groupRestore (slot : Nat)
  | preemptionComplete (slot : Nat)
  | alloc (slot : Nat) (id : Nat)
  | ready (w : Ctxcmd)
  | suspend (w : Ctxcmd)
  | resume (w : Ctxcmd)
  | teardown (w : Ctxcmd)
  | release (w : Ctxcmd)
  | ctxcmdNoOperation (w : Ctxcmd) (code : Nat)
  | qctlHalt (slot : Nat) (q : Nat)
  | qctlResume (slot : Nat) (q : Nat)
  | flush (slot : Nat) (q : Nat)
  | qctlReset (slot : Nat) (q : Nat)
  | put (slot : Nat) (port : Nat) (value : Nat)
  | twgo (slot : Nat) (value : Nat)
  | dxctlGo (slot : Nat) (value : Nat)
  | chead (slot : Nat) (value : Nat)
  | hostSemaphoreAccess (slot : Nat) (n : Nat) (op : Nat) (value : Nat)
  | registerWrite (slot : Nat) (reg : Nat) (value : Nat)
  | payloadFlit (f : Flit)
  | acknowledgementFlit (f : Flit)
  | negativeAcknowledgementFlit (f : Flit)
  | trainingFlit (f : Flit)
  | laneFailure (lane : Nat)
  | portFailure (port : Nat)
  | mctpControl (m : Message)
  | mainon (m : Message)
  | bootEnd
  | mainoff (m : Message)
  | bootst (m : Message)
  | getcert (m : Message)
  | kekset (m : Message)
  | keyload (m : Message)
  | keyclr (m : Message)
  | hbmsplit (m : Message)
  | status (m : Message)
  | resetMsg (m : Message)
  | throttle (m : Message)
  | logread (m : Message)
  | fwstage (m : Message)
  | fwact (m : Message)
  | attest (m : Message)
  | setid (m : Message)
  | dbgMsg (m : Message)
  | memrd (m : Message)
  | memwr (m : Message)
  | powerOnReset
  | powerThrottle (level : Nat)
  | thermalShutdown
  | errorDetected (r : ErrorReport)
  | targetedSelfTest (n : Nat) (pass : Bool)
  | embeddingCommandEnd (t : TagRef)
  | repairEnd (n : Nat)
  | firmwareVerified
  | idleFlit (f : Flit)
  | mirrorArrival (p : Packet)
  | xa2aPosting (p : Packet)
deriving DecidableEq, Repr, Inhabited

end Sys2Proof
end

