-- ==== Sys2Proof/Config.lean ====
section
/-! DEFINITION. What the module fixes, and the values the spec leaves open: opaque constants, so that no proof sees a value. -/

namespace Sys2Proof

/-- Who moves next (INVENTORY.md, Agents): a sequencer issues its step, another agent's step happens, or time passes. -/
inductive Turn where
  | run (who : Agent)
  | event (i : Instr)
  | pass (clocks ns : Nat)
deriving DecidableEq, Repr, Inhabited

namespace Config

/-- Bases by which the four kinds of memory share one list of cells: device memory (HOME 0), LPDDR of the piers (HOME 1), host
memory (HOME 2) (11_page R220) and the vaults (08_memory R164). -/
def pierBase : Nat := 2 ^ 60
/-- Host memory (R220 HOME 2). -/
def hostBase : Nat := 2 ^ 61
/-- The 32 vaults, 2^25 bytes of key space each (R164). -/
def vaultBase : Nat := 2 ^ 62

/-- What a byte of memory reads as that nothing has written (08_memory R174; log 1). -/
def emptyByte : Byte := 0#8

/-- A free value, numbered by the counter `State.tick` (00_scope R2; log 2). -/
opaque free : Nat → Nat

/-- Who moves next when the agenda is empty: a free value, numbered by the same counter (INVENTORY.md, Agents; log 2). -/
opaque freeTurn : Nat → Turn

/-- The module key that slot 0 receives at a boot, its 64 bytes as a number (11_page R222; 22_bringup R421; log 6). -/
opaque moduleKey : Nat → Nat

/-- Whether the 256 bytes of a line encode with base-plus-delta coding into 128 bytes or fewer (08_memory R171; log 64). -/
opaque compresses : List Byte → Bool

/-- Whether an access of a clock uses the page-table entry that a cache holds where memory holds another: of the clock, the level and the virtual page
number (11_page R216; log 64). -/
opaque keepsEntry : Nat → Nat → Nat → Bool

/-- The transaction packet, in the payload of a flit, of an interrupt vector (0) or of a write to host memory (1) at an address (18_link R375; log 68). -/
opaque transaction : Nat → Nat → List Byte → List Byte

/-- The CRC-64 over the first 242 bytes of a flit, its parity bytes over all before them, and the credits that a flit returns, by how many have been sent
(18_link R375; log 68). -/
opaque linkCrc : List Byte → Nat
opaque linkParity : List Byte → Nat
opaque linkCredits : Nat → Nat

/-- The answer to an MCTP control message, the last of those that have come (18_link R383; log 74). -/
opaque mctpAnswer : List (List Byte) → List Byte

/-- How many bytes a pier sends for one row that the hot-row cache misses: whether it is pooled at the pier, and the row's bytes (17_piers R365; 08_memory
R173; log 9). -/
opaque pierBytes : Bool → Nat → Nat

/-- Which line a cache replaces: its order is not architectural (08_memory R170; log 64). -/
opaque victim : Nat → Nat

/-- The integer as which a group of products with weights loaded under a float type counts in an integer order, where the exact sum is no integer:
of the accumulator element, the operands and the weights (14_matrix R293; log 13). -/
opaque foreignWeight : Int → List (Int × Nat) → Int

/-- Whether a signature on a message holds under a key built into the part: number of the key, message, signature
(22_bringup R423, R428, R429; log 8). -/
opaque verifies : Nat → List Byte → List Byte → Bool

/-- The bytes of a signature that the part makes (22_bringup R427; log 8). -/
opaque signs : List Byte → List Byte

/-- The identity certificate chain of the part (22_bringup R425; log 8). -/
opaque certificate : List Byte

/-- The identity public key of the part (22_bringup R427; log 8). -/
opaque publicKey : List Byte

/-- The boot ROM of the part (22_bringup R426; log 8). -/
opaque bootRom : List Byte

/-- The fuse record of the part: SVN minimum, repair map (the manufacturer's and the locations repaired in the field), throttle limits (22_bringup R426;
log 8). -/
opaque fuseRecord : Nat → List (Nat × Nat × Nat) → List Byte

/-- The key-encryption key in a ciphertext under the identity key, none where it does not decrypt (22_bringup R428; log 8). -/
opaque decryptKek : List Byte → Option Nat

end Config

end Sys2Proof
end

