-- ==== Sys2Proof/Machine/Aes.lean ====
section
/-! DEFINITION. AES-256-XTS of a 128-byte sector (11_page R222), as FIPS 197 and IEEE 1619 define the cipher that the rule names: the bytes that a
sector written under one key reads as under another; and the AES key unwrap of RFC 3394 (22_bringup R428). -/

namespace Sys2Proof.Machine

/-- A byte times x in the field of AES. -/
def xtime (b : Byte) : Byte := (b <<< 1) ^^^ (if b.getLsbD 7 then 0x1B#8 else 0#8)

/-- The product of two bytes in that field, over the low `n` bits of the second. -/
def fieldMul (a b : Byte) : Nat → Byte
  | 0 => 0
  | n + 1 => (if b.getLsbD 0 then a else 0) ^^^ fieldMul (xtime a) (b >>> 1) n

/-- The inverse of a byte, its 254th power; 0 for 0. -/
def fieldInv (a : Byte) : Byte :=
  let sq := fun (x : Byte) => fieldMul x x 8
  let p2 := sq a
  let p4 := sq p2
  let p8 := sq p4
  let p16 := sq p8
  let p32 := sq p16
  let p64 := sq p32
  [p4, p8, p16, p32, p64, sq p64].foldl (fun x y => fieldMul x y 8) p2

/-- The substitution of a byte, and its inverse. -/
def subByte (a : Byte) : Byte :=
  let i := fieldInv a
  i ^^^ i.rotateLeft 1 ^^^ i.rotateLeft 2 ^^^ i.rotateLeft 3 ^^^ i.rotateLeft 4 ^^^ 0x63#8
def unsubByte (a : Byte) : Byte := fieldInv (a.rotateLeft 1 ^^^ a.rotateLeft 3 ^^^ a.rotateLeft 6 ^^^ 0x05#8)

/-- Two lists of bytes added byte by byte. -/
def xorBytes (a b : List Byte) : List Byte := List.zipWith (· ^^^ ·) a b

/-- The key schedule from its last eight words on, newest first: each step adds four bytes. -/
def expandKey : Nat → Nat → Byte → List (List Byte) → List (List Byte)
  | 0, _, _, ws => ws
  | n + 1, i, rcon, ws =>
    let last := ws.headD []
    let far := ws.getD 7 []
    let t := if i % 8 = 0 then xorBytes ((last.drop 1 ++ last.take 1).map subByte) [rcon, 0, 0, 0]
      else if i % 8 = 4 then last.map subByte else last
    expandKey n (i + 1) (if i % 8 = 0 then xtime rcon else rcon) (xorBytes far t :: ws)

/-- The fifteen round keys of a 32-byte key. -/
def roundKeys (k : List Byte) : List (List Byte) :=
  let ws := (expandKey 52 8 1 ((List.range 8).map fun i => (k.drop (4 * i)).take 4).reverse).reverse
  (List.range 15).map fun r => ((ws.drop (4 * r)).take 4).flatten

/-- The rows of a block shifted to the left, or back; byte r + 4c is row r of column c. -/
def shiftRows (b : List Byte) : List Byte := (List.range 16).map fun i => b.getD ((i + 4 * (i % 4)) % 16) 0
def unshiftRows (b : List Byte) : List Byte := (List.range 16).map fun i => b.getD ((i + 12 * (i % 4)) % 16) 0

/-- Each column times a circulant matrix. -/
def mixColumns (m : List Byte) (b : List Byte) : List Byte :=
  (List.range 16).map fun i =>
    (List.range 4).foldl (fun (x : Byte) j => x ^^^ fieldMul (b.getD (i / 4 * 4 + j) 0) (m.getD ((4 + j - i % 4) % 4) 0) 8) 0

/-- A block enciphered under round keys. -/
def cipher (ks : List (List Byte)) (b : List Byte) : List Byte :=
  let mid := ((ks.drop 1).take 13).foldl (fun x k => xorBytes (mixColumns [2, 3, 1, 1] (shiftRows (x.map subByte))) k) (xorBytes b (ks.headD []))
  xorBytes (shiftRows (mid.map subByte)) (ks.getD 14 [])

/-- A block deciphered. -/
def decipher (ks : List (List Byte)) (b : List Byte) : List Byte :=
  let mid := ((ks.drop 1).take 13).reverse.foldl (fun x k => mixColumns [14, 11, 13, 9] (xorBytes ((unshiftRows x).map unsubByte) k))
    (xorBytes b (ks.getD 14 []))
  xorBytes ((unshiftRows mid).map unsubByte) (ks.headD [])

/-- The low `n` bytes of a number, the lowest first. -/
def keyBytes (n v : Nat) : List Byte := (List.range n).map fun i => BitVec.ofNat 8 (v / 256 ^ i)

/-- A tweak, and the tweak of the block that follows it. -/
def nextTweak (t : Nat) : Nat := (t * 2 % 2 ^ 128) ^^^ (if 2 ^ 127 ≤ t then 0x87 else 0)

/-- The value of bytes, the lowest first. -/
def bytesNat (l : List Byte) : Nat := l.foldr (fun b t => b.toNat + 256 * t) 0

/-- Blocks of 16 bytes passed through one direction of the cipher between their tweaks. -/
def xtsBlocks (f : List Byte → List Byte) : Nat → Nat → List Byte → List Byte
  | 0, _, _ => []
  | n + 1, t, bs =>
    let w := keyBytes 16 t
    xorBytes (f (xorBytes (bs.take 16) w)) w ++ xtsBlocks f n (nextTweak t) (bs.drop 16)

/-- The 64 bytes of a key: the data key, then the tweak key. -/
def xtsTweak (key unit : Nat) : Nat := bytesNat (cipher (roundKeys ((keyBytes 64 key).drop 32)) (keyBytes 16 unit))

/-- A 128-byte sector enciphered under one key and deciphered under another, its data unit HOME : pa[47:7]. -/
@[irreducible] def recrypt (k' k unit : Nat) (bs : List Byte) : List Byte :=
  let c := xtsBlocks (cipher (roundKeys ((keyBytes 64 k').take 32))) 8 (xtsTweak k' unit) bs
  let p := xtsBlocks (decipher (roundKeys ((keyBytes 64 k).take 32))) 8 (xtsTweak k unit) c
  (List.range 128).map fun i => p.getD i 0

/-- The low `n` bytes of a number, the highest first. -/
def bigBytes (n v : Nat) : List Byte := (keyBytes n v).reverse

/-- A step of the unwrapping of eight 8-byte parts: the part of a step number is taken out of the register. -/
def unwrapStep (ks : List (List Byte)) (x : List Byte × List (List Byte)) (t : Nat) : List Byte × List (List Byte) :=
  let i := (t - 1) % 8
  let b := decipher ks (xorBytes x.1 (bigBytes 8 t) ++ x.2.getD i [])
  (b.take 8, x.2.set i (b.drop 8))

/-- The 64-byte key in 72 bytes wrapped under a 32-byte key; none where the integrity check fails. -/
@[irreducible] def unwrapKey (kek : Nat) (w : List Byte) : Option Nat :=
  let ks := roundKeys (keyBytes 32 kek)
  let parts := (List.range 8).map fun i => (w.drop (8 * i + 8)).take 8
  let r := ((List.range 48).map fun k => 48 - k).foldl (unwrapStep ks) (w.take 8, parts)
  if r.1 = List.replicate 8 0xA6#8 then some (bytesNat r.2.flatten) else none

end Sys2Proof.Machine
end

