-- ==== Sys2Proof/WellFormed.lean ====
section
/-! DEFINITION. Which instructions a word can stand for: every field within the limit that its form gives (R82, code 5),
the fields a form reserves for some values of another field (R345), and the choice between two forms of one function
code (R75). A step that no word starts is well formed when the numbers that name its agents lie in the device. -/

namespace Sys2Proof

/-- A tag form of major 0x03 names tags 2 * half + j for each set bit j of the mask; one above 63 is over the limit (R132). -/
def tagMaskOver (half : BitVec 5) (mask : BitVec 12) : Bool :=
  (List.range 12).any fun j => mask.getLsbD j && decide (63 < 2 * half.toNat + j)

/-- Control-register numbers that the X9 implements (R84, R94, R117, R141, R152, R165, R173, R199, R247, R248, R386, R396). -/
def crImplemented (n : Nat) : Bool :=
  n ≤ 0x001 || (0x020 ≤ n && n ≤ 0x023) || (0x030 ≤ n && n ≤ 0x035) || (0x040 ≤ n && n ≤ 0x049) ||
  (0x100 ≤ n && n ≤ 0x113) || (0x140 ≤ n && n ≤ 0x160) || (0x180 ≤ n && n ≤ 0x188) || n == 0x1F0 ||
  (0x200 ≤ n && n ≤ 0x23F) || (0x300 ≤ n && n ≤ 0x306)

/-- Engine codes 1 LF, 2 M, 3 VA, 4 VB, 5 SF (R75). -/
def engineOk (e : BitVec 3) : Bool := 1 ≤ e.toNat && e.toNat ≤ 5

/-- Engine codes of tstop and twidle: one engine, or 7 for all (R75). -/
def engineOrAllOk (e : BitVec 3) : Bool := engineOk e || e == 7#3

/-- Engine registers that tget reads (R135). -/
def engineRegR (e : BitVec 3) (n : Nat) : Bool :=
  engineOk e &&
  (n ≤ 0x08 ||
   ((e == 3#3 || e == 4#3) &&
     (n == 0x09 || n == 0x0A || n == 0x0B || (0x10 ≤ n && n ≤ 0x17) || (0x20 ≤ n && n ≤ 0x27) ||
      (0x40 ≤ n && n < 0x80 && n % 8 != 0))) ||
   (e == 2#3 && n == 0x80))

/-- Engine registers that tset writes: those of tget but the read-only ones (R135). -/
def engineRegW (e : BitVec 3) (n : Nat) : Bool :=
  engineRegR e n && !(n == 0x01 || n == 0x03 || n == 0x08 || n == 0x09)

/-- The limit checks of a form (R82 code 5): true when a field lies outside its limit. -/
def Instr.overLimit : Instr → Bool
  | .lpat kind _ => 4 ≤ kind.toNat
  | .tok _ n => n == 15#4
  | .loopp _ n p _ _ => p == n
  | .twany _ half mask => tagMaskOver half mask
  | .twall _ half mask => tagMaskOver half mask
  | .tffr _ half mask => tagMaskOver half mask
  | .fadd _ _ _ rm _ => 4 ≤ rm.toNat
  | .fsub _ _ _ rm _ => 4 ≤ rm.toNat
  | .fmul _ _ _ rm _ => 4 ≤ rm.toNat
  | .fdiv _ _ _ rm _ => 4 ≤ rm.toNat
  | .fsqrt _ _ rm _ => 4 ≤ rm.toNat
  | .fma _ _ _ rm _ => 4 ≤ rm.toNat
  | .fcvt _ _ m rm _ => 4 ≤ rm.toNat || m == 3#2
  | .mfcr _ cr => !crImplemented cr.toNat
  | .mtcr _ cr => !crImplemented cr.toNat
  | .mtcrs _ cr => !crImplemented cr.toNat
  | .mtcrc _ cr => !crImplemented cr.toNat
  | .tload _ _ e => !engineOk e
  | .tstart _ e => !engineOk e
  | .tstop e => !engineOrAllOk e
  | .tbase _ _ e => !engineOk e
  | .tset _ n e => !engineRegW e n.toNat
  | .tget _ n e => !engineRegR e n.toNat
  | .twidle e => !engineOrAllOk e
  | .rdcnt _ n => 5 ≤ n.toNat
  | .bsclaim _ n => n == 0#5 || 13 ≤ n.toNat
  | .bsin _ _ _ lz => lz == 7#3
  | .bsout _ _ _ _ lz => lz == 7#3
  | .bslog _ op => 5 ≤ op.toNat
  | .bscmp _ _ _ _ cond => 6 ≤ cond.toNat
  | .vadd _ vd _ _ _ _ => 28 ≤ vd.toNat
  | .vsub _ vd _ _ _ _ => 28 ≤ vd.toNat
  | .vmul _ vd _ _ _ _ => 28 ≤ vd.toNat
  | .vfma _ vd _ _ _ _ => 28 ≤ vd.toNat
  | .vfms _ vd _ _ _ _ => 28 ≤ vd.toNat
  | .vdiv _ vd _ _ _ _ => 28 ≤ vd.toNat
  | .vsqrt _ vd _ _ => 28 ≤ vd.toNat
  | .vmin _ vd _ _ _ _ => 28 ≤ vd.toNat
  | .vmax _ vd _ _ _ _ => 28 ≤ vd.toNat
  | .vabs _ vd _ _ => 28 ≤ vd.toNat
  | .vneg _ vd _ _ => 28 ≤ vd.toNat
  | .vfmaw _ vd _ _ _ _ => 28 ≤ vd.toNat
  | .vmulw _ vd _ _ _ _ => 28 ≤ vd.toNat
  | .vaddw _ vd _ _ _ _ => 28 ≤ vd.toNat
  | .vadds _ vd _ _ _ _ => 28 ≤ vd.toNat
  | .vsubs _ vd _ _ _ _ => 28 ≤ vd.toNat
  | .vmulh _ vd _ _ _ _ => 28 ≤ vd.toNat
  | .vdot4 _ vd _ _ _ _ => 28 ≤ vd.toNat
  | .vand _ vd _ _ _ _ => 28 ≤ vd.toNat
  | .vor _ vd _ _ _ _ => 28 ≤ vd.toNat
  | .vxor _ vd _ _ _ _ => 28 ≤ vd.toNat
  | .vnot _ vd _ _ => 28 ≤ vd.toNat
  | .vsll _ vd _ _ _ _ => 28 ≤ vd.toNat
  | .vsrl _ vd _ _ _ _ => 28 ≤ vd.toNat
  | .vsra _ vd _ _ _ _ => 28 ≤ vd.toNat
  | .vpopc _ vd _ _ => 28 ≤ vd.toNat
  | .vpst _ vd => 28 ≤ vd.toNat
  | .vcvt _ vd _ _ => 28 ≤ vd.toNat
  | .vcvtsr _ vd _ _ _ => 28 ≤ vd.toNat
  | .vqblk _ vd _ _ => 28 ≤ vd.toNat
  | .vdqblk _ vd _ _ => 28 ≤ vd.toNat
  | .vwid _ vd _ _ => 28 ≤ vd.toNat
  | .vnarr _ vd _ _ => 28 ≤ vd.toNat
  | .vrcp _ vd _ _ => 28 ≤ vd.toNat
  | .vrsqrt _ vd _ _ => 28 ≤ vd.toNat
  | .vexp _ vd _ _ => 28 ≤ vd.toNat
  | .vlog _ vd _ _ => 28 ≤ vd.toNat
  | .vtanh _ vd _ _ => 28 ≤ vd.toNat
  | .vsigm _ vd _ _ => 28 ≤ vd.toNat
  | .vperm _ vd _ _ _ _ => 28 ≤ vd.toNat
  | .vcomp _ vd _ _ _ _ => 28 ≤ vd.toNat
  | .vexpd _ vd _ _ => 28 ≤ vd.toNat
  | .vpart _ vd _ _ _ => 28 ≤ vd.toNat
  | .vslide _ vd _ _ _ => 28 ≤ vd.toNat
  | .vzip _ vd _ _ _ _ => 28 ≤ vd.toNat
  | .vunzip _ vd _ _ => 28 ≤ vd.toNat
  | .vbcast _ vd _ _ _ => 28 ≤ vd.toNat
  | .vredsum _ vd _ _ _ => 28 ≤ vd.toNat
  | .vredmax _ vd _ _ _ => 28 ≤ vd.toNat
  | .vredmin _ vd _ _ _ => 28 ≤ vd.toNat
  | .vscan _ vd _ _ => 28 ≤ vd.toNat
  | .vsegsum _ vd _ _ _ _ => 28 ≤ vd.toNat
  | .vmov _ vd _ _ => 28 ≤ vd.toNat
  | .vsplat _ vd _ => 28 ≤ vd.toNat
  | .vtype _ t0 t1 _ rm => 13 ≤ t0.toNat || 13 ≤ t1.toNat || 5 ≤ rm.toNat
  | .vwin _ base => base.toNat % 4 != 0 || 740 < base.toNat
  | .vidx _ vd => 28 ≤ vd.toNat
  | .vaccrd _ vd _ _ _ => 28 ≤ vd.toNat
  | .vdead _ vd nm1 => 27 < vd.toNat + nm1.toNat
  | .vld _ vd _ _ _ => 28 ≤ vd.toNat
  | .vlds _ vd _ _ _ => 28 ≤ vd.toNat
  | .vldq _ vd _ _ _ => 28 ≤ vd.toNat
  | .vgth _ vd _ _ _ => 28 ≤ vd.toNat
  | .vsct _ vd _ _ _ => 28 ≤ vd.toNat
  | .vsctadd _ vd _ _ _ => 28 ≤ vd.toNat
  | .vaadd _ vd _ _ _ => 28 ≤ vd.toNat
  | .vamax _ vd _ _ _ => 28 ≤ vd.toNat
  | .macst _ _ _ _ rm => 4 ≤ rm.toNat
  | .mdld _ da cm1 _ => 16 < da.toNat + cm1.toNat + 1
  | .fdld _ cm1 fd _ => 16 < fd.toNat + cm1.toNat + 1
  | .rclaim _ _ _ q h => q == h
  | .rpub _ _ q h => q == h
  | .rwfill _ _ _ q h => q == h
  | .rwfree _ _ q h => q == h
  | .rrel _ _ q h => q == h
  | _ => false

/-- Fields that a form reserves only for some values of its other fields (R345, R81): true when one is not zero. DESIGN CHOICE (log 103): a pinv
or rminv whose mod[1:0] is 3, a value with no form, counts sa and sb as no reserved field, so that the word is out of limit whatever they hold. -/
def Instr.reservedField : Instr → Bool
  | .bsadd _ sb _ _ k => k == 0#1 && sb != 0#5
  | .bssub _ sb _ _ k => k == 0#1 && sb != 0#5
  | .bscmp _ sb k _ _ => k == 0#1 && sb != 0#5
  | .bsmin _ sb _ k => k == 0#1 && sb != 0#5
  | _ => false

/-- Two forms share a function code and are told apart by a register field (R75, R161), and no form is ldu of 8 bytes (R75): true when a field
stands for the other form or for none. -/
def Instr.otherForm : Instr → Bool
  | .ldu _ _ _ sz _ => sz == 3#2
  | .sll _ _ sb => sb == 0#5
  | .srl _ _ sb => sb == 0#5
  | .sra _ _ sb => sb == 0#5
  | .qstealRank _ sa => sa == 0#5
  | _ => false

/-- A sequencer of the device (R15, R148, R355). -/
def Agent.exists : Agent → Bool
  | .seq c q => decide (c < 128) && decide (q < 6)
  | .pier p k => decide (p < 8) && decide (k < 16)
  | .copy n => decide (n < 4)

/-- An operation's name: a tag of the device (R148, R319), one of a saved core (04_context R100), whose number is its core's plus
128 for each context slot up to its own, or the name that an operation keeps when its tag has been released (R320). -/
def TagRef.exists (t : TagRef) : Bool :=
  match t.owner with
  | .core c => decide (c < 128 * 17)
  | .copy n => decide (n < 4)

/-- The units of an error's class (01_module R17; 19_faults R405): vaults, slices, cores, stacks, packages, piers, links, the mesh, the dispatcher,
hot-row controllers. The mesh has no numbering of its own: its index is any byte. -/
def unitCount (cls : Nat) : Nat :=
  match cls with
  | 1 => 32 | 2 => 32 | 3 => 128 | 4 => 8 | 5 => 32 | 6 => 8 | 7 => 17 | 8 => 256 | 9 => 1 | 10 => 8
  | _ => 0

/-- Whether an error's unit is a part of the module, and its kind one of the log's (19_faults R410). -/
def ErrorReport.exists (r : ErrorReport) : Bool := decide (r.unitIndex < unitCount r.unitClass) && decide (r.kind < 5)

/-- The numbers by which a step that no word starts names its objects lie within the device. -/
def Instr.eventOk : Instr → Bool
  | .pauseExpiry who => who.exists
  | .wfeTimeout core => decide (core < 128)
  | .waySwitchEnd slot => decide (slot < 16)
  | .commandStart slot => decide (slot < 16)
  | .transferStep t => t.exists
  | .waitEnd who => who.exists
  | .tokenRelief core => decide (core < 128)
  | .ringRelief slot => decide (slot < 16)
  | .watchdogTimeout core => decide (core < 128)
  | .trapDelivery core => decide (core < 132)
  | .chunkIssue t => t.exists
  | .chunkLanding t => t.exists
  | .bagPublish t => t.exists
  | .optimiserCommit t => t.exists
  | .buddyAcknowledgement t => t.exists
  | .crossingCompletion t => t.exists
  | .tmoExpiry t => t.exists
  | .levelRaise slot q => decide (slot < 16) && decide (q < 16)
  | .quantumExpiry slot => decide (slot < 16)
  | .quantumReturn slot => decide (slot < 16)
  | .groupRestore slot => decide (slot < 16)
  | .preemptionComplete slot => decide (slot < 16)
  | .alloc slot _ => decide (slot < 16)
  | .ready w => decide (w.slot < 16)
  | .suspend w => decide (w.slot < 16)
  | .resume w => decide (w.slot < 16)
  | .teardown w => decide (w.slot < 16)
  | .release w => decide (w.slot < 16)
  | .ctxcmdNoOperation w _ => decide (w.slot < 16)
  | .qctlHalt slot q => decide (slot < 16) && decide (q < 16)
  | .qctlResume slot q => decide (slot < 16) && decide (q < 16)
  | .flush slot q => decide (slot < 16) && decide (q < 16)
  | .qctlReset slot q => decide (slot < 16) && decide (q < 16)
  | .put slot port _ => decide (slot < 16) && decide (port < 32)
  | .twgo slot _ => decide (slot < 16)
  | .dxctlGo slot _ => decide (slot < 16)
  | .chead slot _ => decide (slot < 16)
  | .hostSemaphoreAccess slot _ _ _ => decide (slot < 16)
  | .registerWrite slot _ _ => decide (slot < 16)
  | .errorDetected r => r.exists
  | .laneFailure lane => decide (lane < 9)
  | .portFailure port => decide (port < 8)
  | .embeddingCommandEnd t => t.exists
  | _ => true

/-- A well-formed instruction: one that some word stands for, or a step of the device. -/
def WellFormed (i : Instr) : Bool :=
  !i.overLimit && !i.reservedField && !i.otherForm && i.eventOk

end Sys2Proof
end

