-- ==== Sys2Proof/Decode.lean ====
section
/-! DEFINITION. The decoder and the encoder (03_encoding R70-R82), written from the form tables of the spec. -/

namespace Sys2Proof

/-- Which sequencer a word is decoded for (R73, R74, R148). -/
inductive SeqKind where
  | c | lf | m | va | vb | sf | pier | copy
deriving DecidableEq, Repr, Inhabited

/-- Why a word is not an instruction: the sub-causes of R82, in its codes. -/
inductive SubCause where
  | erased | reservedMajor | notAccepted | unassigned | reservedField | overLimit
deriving DecidableEq, Repr, Inhabited

/-- The code of a sub-cause (R82). -/
def SubCause.code : SubCause → Nat
  | .erased => 6
  | .reservedMajor => 1
  | .notAccepted => 2
  | .unassigned => 3
  | .reservedField => 4
  | .overLimit => 5

/-- The bits [lo + len - 1 : lo] of a word (R7, R9). -/
abbrev fld (w : BitVec 32) (lo len : Nat) : BitVec len := w.extractLsb' lo len

/-- What a function code stands for: the instruction its fields give (none where a field selects no form, a value over its
limit) and the bits the form reserves. -/
structure Form where
  instr : Option Instr
  reserved : BitVec 32
deriving DecidableEq, Repr

/-- Major 0x00, format K. -/
def readMajor00 (w : BitVec 32) : Option Form :=
  match (fld w 17 5).toNat with
  | 0 => some ⟨some (.nop (fld w 22 4)), 0x1ffff#32⟩
  | 1 => some ⟨some (.lpat (fld w 12 5) (fld w 0 5)), 0x3c00fe0#32⟩
  | 2 => some ⟨some (.halt (fld w 22 4)), 0x1ffff#32⟩
  | 3 => some ⟨some (.brk (fld w 22 4) (fld w 0 12)), 0x1f000#32⟩
  | 4 => some ⟨some (.trap (fld w 22 4) (fld w 0 12)), 0x1f000#32⟩
  | 5 => some ⟨some (.tok (fld w 22 4) (fld w 0 4)), 0x1fff0#32⟩
  | 6 => some ⟨some (.pause (fld w 22 4) (fld w 0 12)), 0x1f000#32⟩
  | _ => none

/-- Major 0x01, format K. -/
def readMajor01 (w : BitVec 32) : Option Form :=
  match (fld w 17 5).toNat with
  | 0 => if fld w 14 1 = 0#1 then some ⟨some (.loop (fld w 22 4) (fld w 15 2) (fld w 6 6) (fld w 0 6)), 0x3000#32⟩ else some ⟨some (.loopR (fld w 22 4) (fld w 15 2) (fld w 6 6)), 0x303f#32⟩
  | 1 => some ⟨some (.loopp (fld w 22 4) (fld w 15 2) (fld w 13 2) (fld w 12 1) (fld w 6 6)), 0x3f#32⟩
  | 2 => some ⟨some (.loopr (fld w 22 4) (fld w 15 2) (fld w 12 3) (fld w 6 6)), 0x3f#32⟩
  | 3 => some ⟨some (.sj (fld w 22 4) (fld w 0 12)), 0x1f000#32⟩
  | 4 => some ⟨some (.sjp (fld w 22 4) (fld w 0 12)), 0x1f000#32⟩
  | _ => none

/-- Major 0x02, format K. -/
def readMajor02 (w : BitVec 32) : Option Form :=
  match (fld w 17 5).toNat with
  | 0 => some ⟨some (.pelse (fld w 22 4)), 0x1ffff#32⟩
  | 1 => some ⟨some (.ptrue (fld w 22 4)), 0x1ffff#32⟩
  | _ => none

/-- Major 0x03, format K. -/
def readMajor03 (w : BitVec 32) : Option Form :=
  match (fld w 17 5).toNat with
  | 0 => some ⟨some (.semset (fld w 22 4) (fld w 12 5) (fld w 0 12)), 0x0#32⟩
  | 1 => some ⟨some (.semadd (fld w 22 4) (fld w 12 5) (fld w 0 12)), 0x0#32⟩
  | 2 => some ⟨some (.semwait (fld w 22 4) (fld w 12 5) (fld w 0 12)), 0x0#32⟩
  | 3 => some ⟨some (.twany (fld w 22 4) (fld w 12 5) (fld w 0 12)), 0x0#32⟩
  | 4 => some ⟨some (.twall (fld w 22 4) (fld w 12 5) (fld w 0 12)), 0x0#32⟩
  | 5 => some ⟨some (.tffr (fld w 22 4) (fld w 12 5) (fld w 0 12)), 0x0#32⟩
  | _ => none

/-- Major 0x08, format S. -/
def readMajor08 (w : BitVec 32) : Option Form :=
  match (fld w 0 5).toNat with
  | 0 => some ⟨some (.add (fld w 21 5) (fld w 16 5) (fld w 11 5)), 0x7e0#32⟩
  | 1 => some ⟨some (.sub (fld w 21 5) (fld w 16 5) (fld w 11 5)), 0x7e0#32⟩
  | 2 => some ⟨some (.and (fld w 21 5) (fld w 16 5) (fld w 11 5)), 0x7e0#32⟩
  | 3 => some ⟨some (.or (fld w 21 5) (fld w 16 5) (fld w 11 5)), 0x7e0#32⟩
  | 4 => some ⟨some (.xor (fld w 21 5) (fld w 16 5) (fld w 11 5)), 0x7e0#32⟩
  | 5 => some ⟨some (.min (fld w 21 5) (fld w 16 5) (fld w 11 5) (fld w 5 1)), 0x7c0#32⟩
  | 6 => some ⟨some (.max (fld w 21 5) (fld w 16 5) (fld w 11 5) (fld w 5 1)), 0x7c0#32⟩
  | 7 => some ⟨some (.slt (fld w 21 5) (fld w 16 5) (fld w 11 5) (fld w 5 1)), 0x7c0#32⟩
  | 8 => some ⟨some (.sel (fld w 21 5) (fld w 16 5) (fld w 11 5)), 0x7e0#32⟩
  | _ => none

/-- Major 0x09, format I. -/
def readMajor09 (w : BitVec 32) : Option Form :=
  match (fld w 13 3).toNat with
  | 0 => some ⟨some (.addi (fld w 21 5) (fld w 16 5) (fld w 0 13)), 0x0#32⟩
  | 1 => some ⟨some (.andi (fld w 21 5) (fld w 16 5) (fld w 0 13)), 0x0#32⟩
  | 2 => some ⟨some (.ori (fld w 21 5) (fld w 16 5) (fld w 0 13)), 0x0#32⟩
  | 3 => some ⟨some (.xori (fld w 21 5) (fld w 16 5) (fld w 0 13)), 0x0#32⟩
  | 4 => some ⟨some (.slti (fld w 21 5) (fld w 16 5) (fld w 0 13)), 0x0#32⟩
  | 5 => some ⟨some (.sltiU (fld w 21 5) (fld w 16 5) (fld w 0 13)), 0x0#32⟩
  | _ => none

/-- Major 0x0A, format S. -/
def readMajor0A (w : BitVec 32) : Option Form :=
  match (fld w 0 5).toNat with
  | 0 => if fld w 11 5 = 0#5 then some ⟨some (.sllImm (fld w 21 5) (fld w 16 5) (fld w 5 6)), 0x0#32⟩ else some ⟨some (.sll (fld w 21 5) (fld w 16 5) (fld w 11 5)), 0x7e0#32⟩
  | 1 => if fld w 11 5 = 0#5 then some ⟨some (.srlImm (fld w 21 5) (fld w 16 5) (fld w 5 6)), 0x0#32⟩ else some ⟨some (.srl (fld w 21 5) (fld w 16 5) (fld w 11 5)), 0x7e0#32⟩
  | 2 => if fld w 11 5 = 0#5 then some ⟨some (.sraImm (fld w 21 5) (fld w 16 5) (fld w 5 6)), 0x0#32⟩ else some ⟨some (.sra (fld w 21 5) (fld w 16 5) (fld w 11 5)), 0x7e0#32⟩
  | 3 => some ⟨some (.clz (fld w 21 5) (fld w 16 5) (fld w 5 1)), 0xffc0#32⟩
  | 4 => some ⟨some (.ctz (fld w 21 5) (fld w 16 5) (fld w 5 1)), 0xffc0#32⟩
  | 5 => some ⟨some (.popc (fld w 21 5) (fld w 16 5) (fld w 5 1)), 0xffc0#32⟩
  | 6 => some ⟨some (.bext (fld w 21 5) (fld w 16 5) (fld w 11 5) (fld w 5 6)), 0x0#32⟩
  | 7 => some ⟨some (.bins (fld w 21 5) (fld w 16 5) (fld w 11 5) (fld w 5 6)), 0x0#32⟩
  | _ => none

/-- Major 0x0B, format S. -/
def readMajor0B (w : BitVec 32) : Option Form :=
  match (fld w 0 5).toNat with
  | 0 => some ⟨some (.mul (fld w 21 5) (fld w 16 5) (fld w 11 5)), 0x7e0#32⟩
  | 1 => some ⟨some (.mulh (fld w 21 5) (fld w 16 5) (fld w 11 5) (fld w 5 1)), 0x7c0#32⟩
  | 2 => some ⟨some (.div (fld w 21 5) (fld w 16 5) (fld w 11 5) (fld w 5 1)), 0x7c0#32⟩
  | 3 => some ⟨some (.rem (fld w 21 5) (fld w 16 5) (fld w 11 5) (fld w 5 1)), 0x7c0#32⟩
  | _ => none

/-- Major 0x0C, format S. -/
def readMajor0C (w : BitVec 32) : Option Form :=
  match (fld w 0 5).toNat with
  | 0 => some ⟨some (.fadd (fld w 21 5) (fld w 16 5) (fld w 11 5) (fld w 6 3) (fld w 5 1)), 0x600#32⟩
  | 1 => some ⟨some (.fsub (fld w 21 5) (fld w 16 5) (fld w 11 5) (fld w 6 3) (fld w 5 1)), 0x600#32⟩
  | 2 => some ⟨some (.fmul (fld w 21 5) (fld w 16 5) (fld w 11 5) (fld w 6 3) (fld w 5 1)), 0x600#32⟩
  | 3 => some ⟨some (.fdiv (fld w 21 5) (fld w 16 5) (fld w 11 5) (fld w 6 3) (fld w 5 1)), 0x600#32⟩
  | 4 => some ⟨some (.fsqrt (fld w 21 5) (fld w 16 5) (fld w 6 3) (fld w 5 1)), 0xfe00#32⟩
  | 5 => some ⟨some (.fma (fld w 21 5) (fld w 16 5) (fld w 11 5) (fld w 6 3) (fld w 5 1)), 0x600#32⟩
  | 6 => some ⟨some (.fcvt (fld w 21 5) (fld w 16 5) (fld w 9 2) (fld w 6 3) (fld w 5 1)), 0xf800#32⟩
  | _ => none

/-- Major 0x0D, format S. -/
def readMajor0D (w : BitVec 32) : Option Form :=
  match (fld w 0 5).toNat with
  | 0 => some ⟨some (.peq (fld w 16 5) (fld w 11 5)), 0x3e007e0#32⟩
  | 1 => some ⟨some (.pne (fld w 16 5) (fld w 11 5)), 0x3e007e0#32⟩
  | 2 => some ⟨some (.plt (fld w 16 5) (fld w 11 5) (fld w 5 1)), 0x3e007c0#32⟩
  | 3 => some ⟨some (.pge (fld w 16 5) (fld w 11 5) (fld w 5 1)), 0x3e007c0#32⟩
  | 4 => some ⟨some (.pfeq (fld w 16 5) (fld w 11 5) (fld w 5 1)), 0x3e007c0#32⟩
  | 5 => some ⟨some (.pflt (fld w 16 5) (fld w 11 5) (fld w 5 1)), 0x3e007c0#32⟩
  | 6 => some ⟨some (.pfle (fld w 16 5) (fld w 11 5) (fld w 5 1)), 0x3e007c0#32⟩
  | _ => none

/-- Major 0x0E, format I. -/
def readMajor0E (w : BitVec 32) : Option Form :=
  match (fld w 13 3).toNat with
  | 0 => some ⟨some (.lis (fld w 21 5) (fld w 0 13)), 0x1f0000#32⟩
  | 1 => some ⟨some (.lsh (fld w 21 5) (fld w 0 13)), 0x1f0000#32⟩
  | _ => none

/-- Major 0x0F, format S. -/
def readMajor0F (w : BitVec 32) : Option Form :=
  match (fld w 0 5).toNat with
  | 0 => some ⟨some (.mfcr (fld w 21 5) (fld w 5 11)), 0x1f0000#32⟩
  | 1 => some ⟨some (.mtcr (fld w 16 5) (fld w 5 11)), 0x3e00000#32⟩
  | 2 => some ⟨some (.mtcrs (fld w 16 5) (fld w 5 11)), 0x3e00000#32⟩
  | 3 => some ⟨some (.mtcrc (fld w 16 5) (fld w 5 11)), 0x3e00000#32⟩
  | _ => none

/-- Major 0x10, format M. -/
def readMajor10 (w : BitVec 32) : Option Form :=
  match (fld w 11 1).toNat with
  | 0 => some ⟨some (.ld (fld w 21 5) (fld w 16 5) (fld w 12 4) (fld w 9 2) (fld w 0 9)), 0x0#32⟩
  | _ => if fld w 9 2 = 3#2 then none else some ⟨some (.ldu (fld w 21 5) (fld w 16 5) (fld w 12 4) (fld w 9 2) (fld w 0 9)), 0x0#32⟩

/-- Major 0x11, format M. -/
def readMajor11 (w : BitVec 32) : Option Form :=
  match (fld w 11 1).toNat with
  | 0 => some ⟨some (.st (fld w 21 5) (fld w 16 5) (fld w 12 4) (fld w 9 2) (fld w 0 9)), 0x0#32⟩
  | _ => none

/-- Major 0x12, format S. -/
def readMajor12 (w : BitVec 32) : Option Form :=
  match (fld w 0 5).toNat with
  | 0 => some ⟨some (.aadd (fld w 21 5) (fld w 16 5) (fld w 11 5) (fld w 9 2) (fld w 7 2) (fld w 5 1)), 0x40#32⟩
  | 1 => some ⟨some (.aand (fld w 21 5) (fld w 16 5) (fld w 11 5) (fld w 9 2) (fld w 7 2) (fld w 5 1)), 0x40#32⟩
  | 2 => some ⟨some (.aor (fld w 21 5) (fld w 16 5) (fld w 11 5) (fld w 9 2) (fld w 7 2) (fld w 5 1)), 0x40#32⟩
  | 3 => some ⟨some (.axor (fld w 21 5) (fld w 16 5) (fld w 11 5) (fld w 9 2) (fld w 7 2) (fld w 5 1)), 0x40#32⟩
  | 4 => some ⟨some (.amin (fld w 21 5) (fld w 16 5) (fld w 11 5) (fld w 9 2) (fld w 7 2) (fld w 6 1) (fld w 5 1)), 0x0#32⟩
  | 5 => some ⟨some (.amax (fld w 21 5) (fld w 16 5) (fld w 11 5) (fld w 9 2) (fld w 7 2) (fld w 6 1) (fld w 5 1)), 0x0#32⟩
  | 6 => some ⟨some (.aswp (fld w 21 5) (fld w 16 5) (fld w 11 5) (fld w 9 2) (fld w 7 2) (fld w 5 1)), 0x40#32⟩
  | 7 => some ⟨some (.acas (fld w 21 5) (fld w 16 5) (fld w 11 5) (fld w 9 2) (fld w 7 2) (fld w 5 1)), 0x40#32⟩
  | _ => none

/-- Major 0x13, format S. -/
def readMajor13 (w : BitVec 32) : Option Form :=
  match (fld w 0 5).toNat with
  | 0 => some ⟨some (.fence (fld w 10 16) (fld w 5 2)), 0x380#32⟩
  | 1 => some ⟨some (.lda (fld w 21 5) (fld w 16 5) (fld w 11 5) (fld w 7 2) (fld w 5 2)), 0x600#32⟩
  | 2 => some ⟨some (.stl (fld w 21 5) (fld w 16 5) (fld w 11 5) (fld w 7 2) (fld w 5 2)), 0x600#32⟩
  | 3 => some ⟨some (.syncw (fld w 10 16)), 0x3e0#32⟩
  | _ => none

/-- Major 0x14, format B. -/
def readMajor14 (w : BitVec 32) : Option Form :=
  match (fld w 21 5).toNat with
  | 0 => some ⟨some (.bzeq (fld w 16 5) (fld w 0 16)), 0x0#32⟩
  | 1 => some ⟨some (.bzne (fld w 16 5) (fld w 0 16)), 0x0#32⟩
  | 2 => some ⟨some (.bzlt (fld w 16 5) (fld w 0 16)), 0x0#32⟩
  | 3 => some ⟨some (.bzge (fld w 16 5) (fld w 0 16)), 0x0#32⟩
  | 4 => some ⟨some (.bzgt (fld w 16 5) (fld w 0 16)), 0x0#32⟩
  | 5 => some ⟨some (.bzle (fld w 16 5) (fld w 0 16)), 0x0#32⟩
  | 16 => some ⟨some (.bpt (fld w 0 16)), 0x1f0000#32⟩
  | 17 => some ⟨some (.bpf (fld w 0 16)), 0x1f0000#32⟩
  | n => some ⟨none, if n < 16 then 0x0#32 else 0x1f0000#32⟩

/-- Major 0x15, format J. -/
def readMajor15 (w : BitVec 32) : Option Form :=
  some ⟨some (.jal (fld w 21 5) (fld w 0 21)), 0x0#32⟩

/-- Major 0x16, format S. -/
def readMajor16 (w : BitVec 32) : Option Form :=
  match (fld w 0 5).toNat with
  | 0 => some ⟨some (.jalr (fld w 21 5) (fld w 16 5)), 0xffe0#32⟩
  | 1 => some ⟨some (.jr (fld w 16 5)), 0x3e0ffe0#32⟩
  | _ => none

/-- Major 0x18, format S. -/
def readMajor18 (w : BitVec 32) : Option Form :=
  match (fld w 0 5).toNat with
  | 0 => some ⟨some (.tload (fld w 21 5) (fld w 16 5) (fld w 5 3)), 0xff00#32⟩
  | 1 => some ⟨some (.tstart (fld w 16 5) (fld w 5 3)), 0x3e0ff00#32⟩
  | 2 => some ⟨some (.tstop (fld w 5 3)), 0x3ffff00#32⟩
  | 3 => some ⟨some (.tbase (fld w 21 5) (fld w 16 5) (fld w 5 3)), 0xff00#32⟩
  | 4 => some ⟨some (.tset (fld w 16 5) (fld w 8 8) (fld w 5 3)), 0x3e00000#32⟩
  | 5 => some ⟨some (.tget (fld w 21 5) (fld w 8 8) (fld w 5 3)), 0x1f0000#32⟩
  | 6 => some ⟨some (.twidle (fld w 5 3)), 0x3ffff00#32⟩
  | _ => none

/-- Major 0x19, format S. -/
def readMajor19 (w : BitVec 32) : Option Form :=
  match (fld w 0 5).toNat with
  | 0 => if fld w 5 1 = 0#1 then some ⟨some (.qput (fld w 21 5) (fld w 16 5) (fld w 11 5)), 0x7c0#32⟩ else some ⟨some (.qputNb (fld w 21 5) (fld w 16 5) (fld w 11 5)), 0x7c0#32⟩
  | 1 => some ⟨some (.qtake (fld w 21 5)), 0x1fffe0#32⟩
  | 2 => if fld w 16 5 = 0#5 then some ⟨some (.qsteal (fld w 21 5)), 0xffe0#32⟩ else some ⟨some (.qstealRank (fld w 21 5) (fld w 16 5)), 0xffe0#32⟩
  | 3 => some ⟨some (.qcommit (fld w 21 5)), 0x1fffe0#32⟩
  | 4 => some ⟨some (.qdone (fld w 21 5) (fld w 16 5) (fld w 11 5)), 0x7e0#32⟩
  | _ => none

/-- Major 0x1A, format S. -/
def readMajor1A (w : BitVec 32) : Option Form :=
  match (fld w 0 5).toNat with
  | 0 => some ⟨some (.barr (fld w 21 5)), 0x1fffe0#32⟩
  | 1 => some ⟨some (.barw (fld w 16 5)), 0x3e0ffe0#32⟩
  | 2 => some ⟨some (.fstop (fld w 21 5) (fld w 16 5)), 0xffe0#32⟩
  | 3 => some ⟨some (.txinit (fld w 16 5) (fld w 11 5)), 0x3e007e0#32⟩
  | 4 => some ⟨some (.txexp (fld w 16 5) (fld w 11 5)), 0x3e007e0#32⟩
  | 5 => some ⟨some (.txarr (fld w 21 5) (fld w 16 5) (fld w 11 5)), 0x7e0#32⟩
  | 6 => some ⟨some (.txwait (fld w 16 5) (fld w 11 5)), 0x3e007e0#32⟩
  | _ => none

/-- Major 0x1B, format S. -/
def readMajor1B (w : BitVec 32) : Option Form :=
  match (fld w 0 5).toNat with
  | 0 => some ⟨some (.rft), 0x3ffffe0#32⟩
  | 1 => some ⟨some (.scall (fld w 21 5) (fld w 16 5) (fld w 11 5)), 0x7e0#32⟩
  | 2 => some ⟨some (.wfe (fld w 21 5) (fld w 16 5)), 0xffe0#32⟩
  | 3 => some ⟨some (.sev (fld w 16 5)), 0x3e0ffe0#32⟩
  | 4 => some ⟨some (.rdcnt (fld w 21 5) (fld w 5 6)), 0x1ff800#32⟩
  | 5 => match (fld w 5 2).toNat with
    | 0 => some ⟨some (.pinvCtx (fld w 16 5)), 0x3e0ff80#32⟩
    | 1 => some ⟨some (.pinvRange (fld w 16 5) (fld w 11 5)), 0x3e00780#32⟩
    | 2 => some ⟨some (.pinvAll), 0x3ffff80#32⟩
    | _ => some ⟨none, 0x3e00780#32⟩
  | 6 => match (fld w 5 2).toNat with
    | 0 => some ⟨some (.rminvCtx (fld w 16 5)), 0x3e0ff80#32⟩
    | 1 => some ⟨some (.rminvRange (fld w 16 5) (fld w 11 5)), 0x3e00780#32⟩
    | 2 => some ⟨some (.rminvAll), 0x3ffff80#32⟩
    | _ => some ⟨none, 0x3e00780#32⟩
  | 7 => some ⟨some (.ctxsv (fld w 21 5) (fld w 16 5)), 0xffe0#32⟩
  | 8 => some ⟨some (.ctxld (fld w 16 5)), 0x3e0ffe0#32⟩
  | _ => none

/-- Major 0x1C, format P. -/
def readMajor1C (w : BitVec 32) : Option Form :=
  match (fld w 21 5).toNat with
  | 0 => some ⟨some (.bsclaim (fld w 10 5) (fld w 0 5)), 0x1f83e0#32⟩
  | 1 => some ⟨some (.bsrel), 0x1fffff#32⟩
  | 2 => some ⟨some (.bsin (fld w 15 6) (fld w 10 5) (fld w 5 5) (fld w 0 3)), 0x18#32⟩
  | 3 => some ⟨some (.bsout (fld w 15 6) (fld w 10 5) (fld w 5 5) (fld w 3 1) (fld w 0 3)), 0x10#32⟩
  | 4 => some ⟨some (.bslog (fld w 10 5) (fld w 0 5)), 0x1f83e0#32⟩
  | 5 => some ⟨some (.bsadd (fld w 10 5) (fld w 5 5) (fld w 2 1) (fld w 1 1) (fld w 0 1)), 0x1f8018#32⟩
  | 6 => some ⟨some (.bssub (fld w 10 5) (fld w 5 5) (fld w 2 1) (fld w 1 1) (fld w 0 1)), 0x1f8018#32⟩
  | 7 => some ⟨some (.bscmp (fld w 10 5) (fld w 5 5) (fld w 4 1) (fld w 3 1) (fld w 0 3)), 0x1f8000#32⟩
  | 8 => some ⟨some (.bssel (fld w 10 5)), 0x1f83ff#32⟩
  | 9 => some ⟨some (.bsinc (fld w 10 5)), 0x1f83ff#32⟩
  | 10 => some ⟨some (.bsmin (fld w 10 5) (fld w 5 5) (fld w 2 1) (fld w 0 1)), 0x1f801a#32⟩
  | 11 => some ⟨some (.bspop (fld w 10 5)), 0x1f83ff#32⟩
  | 12 => some ⟨some (.bsshf (fld w 10 5) (fld w 1 1) (fld w 0 1)), 0x1f83fc#32⟩
  | 13 => some ⟨some (.bswait), 0x1fffff#32⟩
  | _ => none

/-- Major 0x1D, format P. -/
def readMajor1D (w : BitVec 32) : Option Form :=
  match (fld w 21 5).toNat with
  | 0 => some ⟨some (.fork (fld w 15 6) (fld w 10 5) (fld w 5 5) (fld w 0 3)), 0x18#32⟩
  | 1 => some ⟨some (.join (fld w 15 6) (fld w 10 5)), 0x3ff#32⟩
  | 2 => some ⟨some (.mbput (fld w 15 6) (fld w 10 5)), 0x3ff#32⟩
  | 3 => some ⟨some (.mbget (fld w 15 6) (fld w 10 5)), 0x3ff#32⟩
  | 4 => some ⟨some (.pbind (fld w 10 5) (fld w 0 4)), 0x1f83f0#32⟩
  | 5 => some ⟨some (.pstrm (fld w 10 5) (fld w 5 5) (fld w 0 4)), 0x1f8010#32⟩
  | 6 => some ⟨some (.prun (fld w 10 5) (fld w 0 4)), 0x1f83f0#32⟩
  | 7 => some ⟨some (.pchain (fld w 10 5) (fld w 0 4)), 0x1f83f0#32⟩
  | 8 => some ⟨some (.prcpy (fld w 10 5) (fld w 5 5) (fld w 0 1)), 0x1f801e#32⟩
  | 9 => some ⟨some (.przero (fld w 10 5)), 0x1f83ff#32⟩
  | 10 => some ⟨some (.pflush (fld w 0 4)), 0x1ffff0#32⟩
  | _ => none

/-- Major 0x1E, format P. -/
def readMajor1E (w : BitVec 32) : Option Form :=
  match (fld w 21 5).toNat with
  | 0 => some ⟨some (.xbkt (fld w 15 6) (fld w 10 5)), 0x3ff#32⟩
  | 1 => some ⟨some (.xa2a (fld w 15 6) (fld w 10 5)), 0x3ff#32⟩
  | 2 => some ⟨some (.xput (fld w 15 6) (fld w 10 5)), 0x3ff#32⟩
  | 3 => some ⟨some (.xget (fld w 15 6) (fld w 10 5)), 0x3ff#32⟩
  | 4 => some ⟨some (.xamo (fld w 15 6) (fld w 10 5)), 0x3ff#32⟩
  | 5 => some ⟨some (.xsig (fld w 15 6) (fld w 10 5) (fld w 5 5)), 0x1f#32⟩
  | 6 => some ⟨some (.xwait (fld w 15 6) (fld w 10 5)), 0x3ff#32⟩
  | _ => none

/-- Major 0x1F, format P. -/
def readMajor1F (w : BitVec 32) : Option Form :=
  match (fld w 21 5).toNat with
  | 0 => some ⟨some (.gbag (fld w 15 6) (fld w 10 5)), 0x3ff#32⟩
  | 1 => some ⟨some (.grow (fld w 15 6) (fld w 10 5)), 0x3ff#32⟩
  | 2 => some ⟨some (.supd (fld w 15 6) (fld w 10 5)), 0x3ff#32⟩
  | 3 => some ⟨some (.scommit (fld w 15 6) (fld w 10 5) (fld w 5 5)), 0x1f#32⟩
  | 4 => some ⟨some (.skq (fld w 15 6) (fld w 10 5)), 0x3ff#32⟩
  | _ => none

/-- Major 0x20, format V. -/
def readMajor20 (w : BitVec 32) : Option Form :=
  match (fld w 17 5).toNat with
  | 0 => some ⟨some (.vadd (fld w 22 4) (fld w 12 5) (fld w 7 5) (fld w 2 5) (fld w 1 1) (fld w 0 1)), 0x0#32⟩
  | 1 => some ⟨some (.vsub (fld w 22 4) (fld w 12 5) (fld w 7 5) (fld w 2 5) (fld w 1 1) (fld w 0 1)), 0x0#32⟩
  | 2 => some ⟨some (.vmul (fld w 22 4) (fld w 12 5) (fld w 7 5) (fld w 2 5) (fld w 1 1) (fld w 0 1)), 0x0#32⟩
  | 3 => some ⟨some (.vfma (fld w 22 4) (fld w 12 5) (fld w 7 5) (fld w 2 5) (fld w 1 1) (fld w 0 1)), 0x0#32⟩
  | 4 => some ⟨some (.vfms (fld w 22 4) (fld w 12 5) (fld w 7 5) (fld w 2 5) (fld w 1 1) (fld w 0 1)), 0x0#32⟩
  | 5 => some ⟨some (.vdiv (fld w 22 4) (fld w 12 5) (fld w 7 5) (fld w 2 5) (fld w 1 1) (fld w 0 1)), 0x0#32⟩
  | 6 => some ⟨some (.vsqrt (fld w 22 4) (fld w 12 5) (fld w 7 5) (fld w 1 1)), 0x7d#32⟩
  | 7 => some ⟨some (.vmin (fld w 22 4) (fld w 12 5) (fld w 7 5) (fld w 2 5) (fld w 1 1) (fld w 0 1)), 0x0#32⟩
  | 8 => some ⟨some (.vmax (fld w 22 4) (fld w 12 5) (fld w 7 5) (fld w 2 5) (fld w 1 1) (fld w 0 1)), 0x0#32⟩
  | 9 => some ⟨some (.vabs (fld w 22 4) (fld w 12 5) (fld w 7 5) (fld w 1 1)), 0x7d#32⟩
  | 10 => some ⟨some (.vneg (fld w 22 4) (fld w 12 5) (fld w 7 5) (fld w 1 1)), 0x7d#32⟩
  | _ => none

/-- Major 0x21, format V. -/
def readMajor21 (w : BitVec 32) : Option Form :=
  match (fld w 17 5).toNat with
  | 0 => some ⟨some (.vfmaw (fld w 22 4) (fld w 12 5) (fld w 7 5) (fld w 2 5) (fld w 1 1) (fld w 0 1)), 0x0#32⟩
  | 1 => some ⟨some (.vmulw (fld w 22 4) (fld w 12 5) (fld w 7 5) (fld w 2 5) (fld w 1 1) (fld w 0 1)), 0x0#32⟩
  | 2 => some ⟨some (.vaddw (fld w 22 4) (fld w 12 5) (fld w 7 5) (fld w 2 5) (fld w 1 1) (fld w 0 1)), 0x0#32⟩
  | _ => none

/-- Major 0x22, format V. -/
def readMajor22 (w : BitVec 32) : Option Form :=
  match (fld w 17 5).toNat with
  | 0 => some ⟨some (.vadds (fld w 22 4) (fld w 12 5) (fld w 7 5) (fld w 2 5) (fld w 1 1) (fld w 0 1)), 0x0#32⟩
  | 1 => some ⟨some (.vsubs (fld w 22 4) (fld w 12 5) (fld w 7 5) (fld w 2 5) (fld w 1 1) (fld w 0 1)), 0x0#32⟩
  | 2 => some ⟨some (.vmulh (fld w 22 4) (fld w 12 5) (fld w 7 5) (fld w 2 5) (fld w 1 1) (fld w 0 1)), 0x0#32⟩
  | 3 => some ⟨some (.vdot4 (fld w 22 4) (fld w 12 5) (fld w 7 5) (fld w 2 5) (fld w 1 1) (fld w 0 1)), 0x0#32⟩
  | _ => none

/-- Major 0x23, format V. -/
def readMajor23 (w : BitVec 32) : Option Form :=
  match (fld w 17 5).toNat with
  | 0 => some ⟨some (.vand (fld w 22 4) (fld w 12 5) (fld w 7 5) (fld w 2 5) (fld w 1 1) (fld w 0 1)), 0x0#32⟩
  | 1 => some ⟨some (.vor (fld w 22 4) (fld w 12 5) (fld w 7 5) (fld w 2 5) (fld w 1 1) (fld w 0 1)), 0x0#32⟩
  | 2 => some ⟨some (.vxor (fld w 22 4) (fld w 12 5) (fld w 7 5) (fld w 2 5) (fld w 1 1) (fld w 0 1)), 0x0#32⟩
  | 3 => some ⟨some (.vnot (fld w 22 4) (fld w 12 5) (fld w 7 5) (fld w 1 1)), 0x7d#32⟩
  | 4 => some ⟨some (.vsll (fld w 22 4) (fld w 12 5) (fld w 7 5) (fld w 2 5) (fld w 1 1) (fld w 0 1)), 0x0#32⟩
  | 5 => some ⟨some (.vsrl (fld w 22 4) (fld w 12 5) (fld w 7 5) (fld w 2 5) (fld w 1 1) (fld w 0 1)), 0x0#32⟩
  | 6 => some ⟨some (.vsra (fld w 22 4) (fld w 12 5) (fld w 7 5) (fld w 2 5) (fld w 1 1) (fld w 0 1)), 0x0#32⟩
  | 7 => some ⟨some (.vpopc (fld w 22 4) (fld w 12 5) (fld w 7 5) (fld w 1 1)), 0x7d#32⟩
  | _ => none

/-- Major 0x24, format V. -/
def readMajor24 (w : BitVec 32) : Option Form :=
  match (fld w 17 5).toNat with
  | 0 => some ⟨some (.vpeq (fld w 22 4) (fld w 7 5) (fld w 2 5) (fld w 1 1) (fld w 0 1)), 0x1f000#32⟩
  | 1 => some ⟨some (.vpne (fld w 22 4) (fld w 7 5) (fld w 2 5) (fld w 1 1) (fld w 0 1)), 0x1f000#32⟩
  | 2 => some ⟨some (.vplt (fld w 22 4) (fld w 7 5) (fld w 2 5) (fld w 1 1) (fld w 0 1)), 0x1f000#32⟩
  | 3 => some ⟨some (.vple (fld w 22 4) (fld w 7 5) (fld w 2 5) (fld w 1 1) (fld w 0 1)), 0x1f000#32⟩
  | 4 => some ⟨some (.vpnan (fld w 22 4) (fld w 7 5) (fld w 1 1)), 0x1f07d#32⟩
  | 5 => some ⟨some (.vpfin (fld w 22 4) (fld w 7 5) (fld w 1 1)), 0x1f07d#32⟩
  | 6 => some ⟨some (.vpld (fld w 22 4) (fld w 7 5) (fld w 1 1)), 0x1f07d#32⟩
  | 7 => some ⟨some (.vpst (fld w 22 4) (fld w 12 5)), 0xfff#32⟩
  | _ => none

/-- Major 0x25, format V. -/
def readMajor25 (w : BitVec 32) : Option Form :=
  match (fld w 17 5).toNat with
  | 0 => some ⟨some (.vcvt (fld w 22 4) (fld w 12 5) (fld w 7 5) (fld w 1 1)), 0x7d#32⟩
  | 1 => some ⟨some (.vcvtsr (fld w 22 4) (fld w 12 5) (fld w 7 5) (fld w 2 3) (fld w 1 1)), 0x61#32⟩
  | 2 => some ⟨some (.vqblk (fld w 22 4) (fld w 12 5) (fld w 7 5) (fld w 1 1)), 0x7d#32⟩
  | 3 => some ⟨some (.vdqblk (fld w 22 4) (fld w 12 5) (fld w 7 5) (fld w 1 1)), 0x7d#32⟩
  | 4 => some ⟨some (.vwid (fld w 22 4) (fld w 12 5) (fld w 7 5) (fld w 1 1)), 0x7d#32⟩
  | 5 => some ⟨some (.vnarr (fld w 22 4) (fld w 12 5) (fld w 7 5) (fld w 1 1)), 0x7d#32⟩
  | _ => none

/-- Major 0x26, format V. -/
def readMajor26 (w : BitVec 32) : Option Form :=
  match (fld w 17 5).toNat with
  | 0 => some ⟨some (.vrcp (fld w 22 4) (fld w 12 5) (fld w 7 5) (fld w 1 1)), 0x7d#32⟩
  | 1 => some ⟨some (.vrsqrt (fld w 22 4) (fld w 12 5) (fld w 7 5) (fld w 1 1)), 0x7d#32⟩
  | 2 => some ⟨some (.vexp (fld w 22 4) (fld w 12 5) (fld w 7 5) (fld w 1 1)), 0x7d#32⟩
  | 3 => some ⟨some (.vlog (fld w 22 4) (fld w 12 5) (fld w 7 5) (fld w 1 1)), 0x7d#32⟩
  | 4 => some ⟨some (.vtanh (fld w 22 4) (fld w 12 5) (fld w 7 5) (fld w 1 1)), 0x7d#32⟩
  | 5 => some ⟨some (.vsigm (fld w 22 4) (fld w 12 5) (fld w 7 5) (fld w 1 1)), 0x7d#32⟩
  | _ => none

/-- Major 0x27, format V. -/
def readMajor27 (w : BitVec 32) : Option Form :=
  match (fld w 17 5).toNat with
  | 0 => some ⟨some (.vperm (fld w 22 4) (fld w 12 5) (fld w 7 5) (fld w 2 5) (fld w 1 1) (fld w 0 1)), 0x0#32⟩
  | 1 => some ⟨some (.vcomp (fld w 22 4) (fld w 12 5) (fld w 7 5) (fld w 5 1) (fld w 2 3) (fld w 1 1)), 0x41#32⟩
  | 2 => some ⟨some (.vexpd (fld w 22 4) (fld w 12 5) (fld w 7 5) (fld w 1 1)), 0x7d#32⟩
  | 3 => some ⟨some (.vpart (fld w 22 4) (fld w 12 5) (fld w 7 5) (fld w 2 3) (fld w 1 1)), 0x61#32⟩
  | 4 => some ⟨some (.vslide (fld w 22 4) (fld w 12 5) (fld w 7 5) (fld w 2 3) (fld w 1 1)), 0x61#32⟩
  | 5 => some ⟨some (.vzip (fld w 22 4) (fld w 12 5) (fld w 7 5) (fld w 2 5) (fld w 1 1) (fld w 0 1)), 0x0#32⟩
  | 6 => some ⟨some (.vunzip (fld w 22 4) (fld w 12 5) (fld w 7 5) (fld w 1 1)), 0x7d#32⟩
  | 7 => some ⟨some (.vbcast (fld w 22 4) (fld w 12 5) (fld w 7 5) (fld w 2 3) (fld w 1 1)), 0x61#32⟩
  | _ => none

/-- Major 0x28, format V. -/
def readMajor28 (w : BitVec 32) : Option Form :=
  match (fld w 17 5).toNat with
  | 0 => some ⟨some (.vredsum (fld w 22 4) (fld w 12 5) (fld w 7 5) (fld w 2 3) (fld w 1 1)), 0x61#32⟩
  | 1 => some ⟨some (.vredmax (fld w 22 4) (fld w 12 5) (fld w 7 5) (fld w 2 3) (fld w 1 1)), 0x61#32⟩
  | 2 => some ⟨some (.vredmin (fld w 22 4) (fld w 12 5) (fld w 7 5) (fld w 2 3) (fld w 1 1)), 0x61#32⟩
  | 3 => some ⟨some (.vscan (fld w 22 4) (fld w 12 5) (fld w 7 5) (fld w 1 1)), 0x7d#32⟩
  | 4 => some ⟨some (.vsegsum (fld w 22 4) (fld w 12 5) (fld w 7 5) (fld w 2 5) (fld w 1 1) (fld w 0 1)), 0x0#32⟩
  | _ => none

/-- Major 0x29, format V. -/
def readMajor29 (w : BitVec 32) : Option Form :=
  match (fld w 17 5).toNat with
  | 0 => some ⟨some (.vmov (fld w 22 4) (fld w 12 5) (fld w 7 5) (fld w 1 1)), 0x7d#32⟩
  | 1 => some ⟨some (.vsplat (fld w 22 4) (fld w 12 5) (fld w 2 3)), 0xfe3#32⟩
  | 2 => some ⟨some (.vtype (fld w 22 4) (fld w 12 4) (fld w 7 4) (fld w 5 1) (fld w 2 3)), 0x10843#32⟩
  | 3 => some ⟨some (.vwin (fld w 22 4) (fld w 7 10)), 0x7f#32⟩
  | 4 => some ⟨some (.vidx (fld w 22 4) (fld w 12 5)), 0xfff#32⟩
  | 5 => some ⟨some (.vaccrd (fld w 22 4) (fld w 12 5) (fld w 7 4) (fld w 6 1) (fld w 2 3)), 0x823#32⟩
  | 6 => some ⟨some (.vaccwr (fld w 22 4) (fld w 12 4) (fld w 7 5) (fld w 2 3) (fld w 1 1)), 0x10061#32⟩
  | 7 => some ⟨some (.vtos (fld w 22 4) (fld w 12 3) (fld w 7 5) (fld w 2 3) (fld w 1 1)), 0x18061#32⟩
  | 8 => some ⟨some (.vdead (fld w 22 4) (fld w 12 5) (fld w 7 5)), 0x7f#32⟩
  | _ => none

/-- Major 0x2C, format W. -/
def readMajor2C (w : BitVec 32) : Option Form :=
  match (fld w 19 3).toNat with
  | 0 => some ⟨some (.vld (fld w 22 4) (fld w 14 5) (fld w 11 3) (fld w 7 4) (fld w 4 3)), 0xf#32⟩
  | 1 => some ⟨some (.vlds (fld w 22 4) (fld w 14 5) (fld w 11 3) (fld w 7 4) (fld w 4 3)), 0xf#32⟩
  | 2 => some ⟨some (.vldq (fld w 22 4) (fld w 14 5) (fld w 11 3) (fld w 7 4) (fld w 4 3)), 0xf#32⟩
  | _ => none

/-- Major 0x2D, format W. -/
def readMajor2D (w : BitVec 32) : Option Form :=
  match (fld w 19 3).toNat with
  | 0 => some ⟨some (.vst (fld w 22 4) (fld w 14 5) (fld w 11 3) (fld w 7 4) (fld w 4 3) (fld w 3 1)), 0x7#32⟩
  | 1 => some ⟨some (.vsts (fld w 22 4) (fld w 14 5) (fld w 11 3) (fld w 7 4) (fld w 4 3) (fld w 3 1)), 0x7#32⟩
  | 2 => some ⟨some (.vstq (fld w 22 4) (fld w 14 5) (fld w 11 3) (fld w 7 4) (fld w 4 3) (fld w 3 1)), 0x7#32⟩
  | _ => none

/-- Major 0x2E, format V. -/
noncomputable def readMajor2E (w : BitVec 32) : Option Form :=
  match (fld w 17 5).toNat with
  | 0 => some ⟨some (.vgth (fld w 22 4) (fld w 12 5) (fld w 7 5) (fld w 2 3) (fld w 1 1)), 0x61#32⟩
  | 1 => some ⟨some (.vsct (fld w 22 4) (fld w 12 5) (fld w 7 5) (fld w 2 3) (fld w 1 1)), 0x61#32⟩
  | 2 => some ⟨some (.vsctadd (fld w 22 4) (fld w 12 5) (fld w 7 5) (fld w 2 3) (fld w 1 1)), 0x61#32⟩
  | _ => none

/-- Major 0x2F, format V. -/
noncomputable def readMajor2F (w : BitVec 32) : Option Form :=
  match (fld w 17 5).toNat with
  | 0 => some ⟨some (.vaadd (fld w 22 4) (fld w 12 5) (fld w 7 5) (fld w 2 3) (fld w 1 1)), 0x61#32⟩
  | 1 => some ⟨some (.vamax (fld w 22 4) (fld w 12 5) (fld w 7 5) (fld w 2 3) (fld w 1 1)), 0x61#32⟩
  | _ => none

/-- Major 0x30, format X. -/
noncomputable def readMajor30 (w : BitVec 32) : Option Form :=
  match (fld w 17 5).toNat with
  | 0 => some ⟨some (.mwld (fld w 22 4) (fld w 9 4) (fld w 5 4)), 0x1e01f#32⟩
  | 1 => some ⟨some (.mwsp (fld w 22 4) (fld w 9 4) (fld w 5 4)), 0x1e01f#32⟩
  | _ => none

/-- Major 0x31, format X. -/
noncomputable def readMajor31 (w : BitVec 32) : Option Form :=
  match (fld w 17 5).toNat with
  | 0 => some ⟨some (.mmf (fld w 22 4) (fld w 13 4) (fld w 9 4) (fld w 5 4) (fld w 0 1)), 0x1e#32⟩
  | 1 => some ⟨some (.mmfg (fld w 22 4) (fld w 13 4) (fld w 9 4) (fld w 5 4) (fld w 0 1)), 0x1e#32⟩
  | _ => none

/-- Major 0x32, format X. -/
noncomputable def readMajor32 (w : BitVec 32) : Option Form :=
  match (fld w 17 5).toNat with
  | 0 => some ⟨some (.mmb (fld w 22 4) (fld w 13 4) (fld w 9 4) (fld w 5 4) (fld w 2 1) (fld w 0 2)), 0x18#32⟩
  | 1 => some ⟨some (.mmw (fld w 22 4) (fld w 13 4) (fld w 9 4) (fld w 5 4) (fld w 2 1) (fld w 0 2)), 0x18#32⟩
  | _ => none

/-- Major 0x33, format X. -/
noncomputable def readMajor33 (w : BitVec 32) : Option Form :=
  match (fld w 17 5).toNat with
  | 0 => some ⟨some (.mmfs (fld w 22 4) (fld w 13 4) (fld w 9 4) (fld w 5 4) (fld w 0 1)), 0x1e#32⟩
  | 1 => some ⟨some (.mmbs (fld w 22 4) (fld w 13 4) (fld w 9 4) (fld w 5 4) (fld w 2 1) (fld w 0 2)), 0x18#32⟩
  | _ => none

/-- Major 0x34, format X. -/
noncomputable def readMajor34 (w : BitVec 32) : Option Form :=
  match (fld w 17 5).toNat with
  | 0 => some ⟨some (.macz (fld w 22 4) (fld w 13 4)), 0x1fff#32⟩
  | 1 => some ⟨some (.macst (fld w 22 4) (fld w 13 4) (fld w 9 4) (fld w 3 1) (fld w 0 3)), 0x1f0#32⟩
  | 2 => some ⟨some (.macld (fld w 22 4) (fld w 13 4) (fld w 9 4)), 0x1ff#32⟩
  | _ => none

/-- Major 0x35, format X. -/
noncomputable def readMajor35 (w : BitVec 32) : Option Form :=
  match (fld w 17 5).toNat with
  | 0 => some ⟨some (.mdset (fld w 22 4) (fld w 9 4) (fld w 2 2) (fld w 0 2)), 0x1e1f0#32⟩
  | 1 => some ⟨some (.mdld (fld w 22 4) (fld w 9 4) (fld w 5 4) (fld w 0 2)), 0x1e01c#32⟩
  | 2 => some ⟨some (.mrpg (fld w 22 4) (fld w 0 2)), 0x1fffc#32⟩
  | _ => none

/-- Major 0x38, format F. -/
noncomputable def readMajor38 (w : BitVec 32) : Option Form :=
  match (fld w 18 4).toNat with
  | 0 => some ⟨some (.fcpy (fld w 22 4) (fld w 12 6) (fld w 8 4) (fld w 4 4)), 0xf#32⟩
  | 1 => some ⟨some (.fcpyz (fld w 22 4) (fld w 12 6) (fld w 8 4) (fld w 4 4)), 0xf#32⟩
  | 2 => some ⟨some (.fcpym (fld w 22 4) (fld w 12 6) (fld w 8 4) (fld w 4 4)), 0xf#32⟩
  | 3 => some ⟨some (.fprf (fld w 22 4) (fld w 8 4) (fld w 4 4)), 0x3f00f#32⟩
  | _ => none

/-- Major 0x39, format F. -/
noncomputable def readMajor39 (w : BitVec 32) : Option Form :=
  match (fld w 18 4).toNat with
  | 0 => some ⟨some (.fwait (fld w 22 4) (fld w 12 6) (fld w 2 1) (fld w 0 2)), 0xff8#32⟩
  | 1 => some ⟨some (.fwaitr (fld w 22 4) (fld w 12 6)), 0xfff#32⟩
  | 2 => some ⟨some (.fcan (fld w 22 4) (fld w 12 6)), 0xfff#32⟩
  | 3 => some ⟨some (.fres (fld w 22 4) (fld w 12 6)), 0xfff#32⟩
  | 4 => some ⟨some (.fwm (fld w 22 4) (fld w 12 6) (fld w 0 2)), 0xffc#32⟩
  | 5 => some ⟨some (.fdld (fld w 22 4) (fld w 12 4) (fld w 8 4) (fld w 0 2)), 0x300fc#32⟩
  | 6 => some ⟨some (.fdset (fld w 22 4) (fld w 12 3) (fld w 8 4) (fld w 0 2)), 0x380fc#32⟩
  | _ => none

/-- Major 0x3A, format F. -/
noncomputable def readMajor3A (w : BitVec 32) : Option Form :=
  match (fld w 18 4).toNat with
  | 0 => some ⟨some (.rclaim (fld w 22 4) (fld w 8 4) (fld w 4 4) (fld w 2 2) (fld w 0 2)), 0x3f000#32⟩
  | 1 => some ⟨some (.rpub (fld w 22 4) (fld w 4 4) (fld w 2 2) (fld w 0 2)), 0x3ff00#32⟩
  | 2 => some ⟨some (.rwfill (fld w 22 4) (fld w 8 4) (fld w 4 4) (fld w 2 2) (fld w 0 2)), 0x3f000#32⟩
  | 3 => some ⟨some (.rwfree (fld w 22 4) (fld w 4 4) (fld w 2 2) (fld w 0 2)), 0x3ff00#32⟩
  | 4 => some ⟨some (.rrel (fld w 22 4) (fld w 4 4) (fld w 2 2) (fld w 0 2)), 0x3ff00#32⟩
  | _ => none

/-- Major 0x3B, format F. -/
noncomputable def readMajor3B (w : BitVec 32) : Option Form :=
  match (fld w 18 4).toNat with
  | 0 => some ⟨some (.ftxe (fld w 22 4) (fld w 8 4) (fld w 4 4) (fld w 0 2)), 0x3f00c#32⟩
  | 1 => some ⟨some (.ftxk (fld w 22 4) (fld w 4 4) (fld w 0 2)), 0x3ff0c#32⟩
  | _ => none

/-- The form that a word's major and function code select (R73-R80); none when the function code is not assigned. -/
noncomputable def readForm (w : BitVec 32) : Option Form :=
  match (fld w 26 6).toNat with
  | 0x00 => readMajor00 w
  | 0x01 => readMajor01 w
  | 0x02 => readMajor02 w
  | 0x03 => readMajor03 w
  | 0x08 => readMajor08 w
  | 0x09 => readMajor09 w
  | 0x0A => readMajor0A w
  | 0x0B => readMajor0B w
  | 0x0C => readMajor0C w
  | 0x0D => readMajor0D w
  | 0x0E => readMajor0E w
  | 0x0F => readMajor0F w
  | 0x10 => readMajor10 w
  | 0x11 => readMajor11 w
  | 0x12 => readMajor12 w
  | 0x13 => readMajor13 w
  | 0x14 => readMajor14 w
  | 0x15 => readMajor15 w
  | 0x16 => readMajor16 w
  | 0x18 => readMajor18 w
  | 0x19 => readMajor19 w
  | 0x1A => readMajor1A w
  | 0x1B => readMajor1B w
  | 0x1C => readMajor1C w
  | 0x1D => readMajor1D w
  | 0x1E => readMajor1E w
  | 0x1F => readMajor1F w
  | 0x20 => readMajor20 w
  | 0x21 => readMajor21 w
  | 0x22 => readMajor22 w
  | 0x23 => readMajor23 w
  | 0x24 => readMajor24 w
  | 0x25 => readMajor25 w
  | 0x26 => readMajor26 w
  | 0x27 => readMajor27 w
  | 0x28 => readMajor28 w
  | 0x29 => readMajor29 w
  | 0x2C => readMajor2C w
  | 0x2D => readMajor2D w
  | 0x2E => readMajor2E w
  | 0x2F => readMajor2F w
  | 0x30 => readMajor30 w
  | 0x31 => readMajor31 w
  | 0x32 => readMajor32 w
  | 0x33 => readMajor33 w
  | 0x34 => readMajor34 w
  | 0x35 => readMajor35 w
  | 0x38 => readMajor38 w
  | 0x39 => readMajor39 w
  | 0x3A => readMajor3A w
  | 0x3B => readMajor3B w
  | _ => none

/-- Majors that no sequencer accepts (R73, R82 code 1). -/
def reservedMajor (n : Nat) : Bool :=
  (0x04 ≤ n && n ≤ 0x07) || n == 0x17 || n == 0x2A || n == 0x2B || n == 0x36 || n == 0x37 || 0x3C ≤ n

/-- Whether a sequencer accepts a major (the table of R73; R148 for copy sequencers). -/
def acceptsMajor (k : SeqKind) (n : Nat) : Bool :=
  match k with
  | .c => n ≤ 0x03 || (0x08 ≤ n && n ≤ 0x1F && n != 0x17)
  | .pier => n ≤ 0x02 || (0x08 ≤ n && n ≤ 0x16) || n == 0x1D
  | .lf | .sf => n ≤ 0x03 || (0x38 ≤ n && n ≤ 0x3B)
  | .m => n ≤ 0x03 || (0x30 ≤ n && n ≤ 0x35)
  | .va | .vb => n ≤ 0x03 || (0x20 ≤ n && n ≤ 0x29) || (0x2C ≤ n && n ≤ 0x2F)
  | .copy => n ≤ 0x03 || (0x38 ≤ n && n ≤ 0x3A)

/-- Formats K, V, W, X and F carry the token field tok[25:22] (R68, R70). -/
def hasTok (n : Nat) : Bool := n ≤ 0x03 || 0x20 ≤ n

/-- The token field of a word, 0 where its format has none. -/
def tokOf (w : BitVec 32) : BitVec 4 := if hasTok (fld w 26 6).toNat then fld w 22 4 else 0#4

/-- Functions within an accepted major that a sequencer does not accept (R74, R148). -/
def acceptsFn (k : SeqKind) (w : BitVec 32) : Bool :=
  let maj := (fld w 26 6).toNat
  let fnK := (fld w 17 5).toNat
  let fnP := (fld w 21 5).toNat
  let lpatOk := !(maj == 0x00 && fnK == 1)
  match k with
  | .va | .vb => true
  | .c => lpatOk && !(maj == 0x1D && 4 ≤ fnP && fnP ≤ 10)
  | .pier => lpatOk && !(maj == 0x00 && fnK == 5) && !(maj == 0x1D && (fnP == 0 || fnP == 1))
  | .copy => lpatOk && !(maj == 0x03 && fnK ≤ 2) && tokOf w == 0#4
  | _ => lpatOk

/-- Token bits that name a queue the core does not have (R118). -/
def missingQueue (k : SeqKind) (t : BitVec 4) : Bool :=
  match k with
  | .c => t.getLsbD 2 || t.getLsbD 1
  | .lf => t.getLsbD 1
  | .sf => t.getLsbD 2
  | _ => false

/-- Control registers of a pier sequencer: every other number is over the limit (R247). -/
def pierCrLimit (k : SeqKind) (w : BitVec 32) : Bool :=
  let n := (fld w 5 11).toNat
  k == .pier && fld w 26 6 == 0x0F#6 && !(n ≤ 1 || (0x020 ≤ n && n ≤ 0x023))

/-- The decoder: the tests of R82 in the order of its table. -/
noncomputable def decodeWord (k : SeqKind) (w : BitVec 32) : Except SubCause Instr :=
  if w = 0xFFFFFFFF#32 then .error .erased
  else if reservedMajor (fld w 26 6).toNat then .error .reservedMajor
  else if !(acceptsMajor k (fld w 26 6).toNat && acceptsFn k w) then .error .notAccepted
  else match readForm w with
    | none => .error .unassigned
    | some f =>
      let pierTok := k == .pier && hasTok (fld w 26 6).toNat && fld w 22 4 != 0#4
      let pierTag := k == .pier && fld w 26 6 == 0x1D#6 && (fld w 21 5 == 2#5 || fld w 21 5 == 3#5) && fld w 15 6 != 0#6
      if w &&& f.reserved ≠ 0#32 ∨ pierTok ∨ pierTag then .error .reservedField
      else match f.instr with
        | none => .error .overLimit
        | some i =>
          if i.reservedField then .error .reservedField
          else if i.overLimit || missingQueue k (tokOf w) || pierCrLimit k w then .error .overLimit
          else .ok i

/-- The kind of sequencer whose instruction a word is, by its major: the first in the order C, LF, M, VA, pier that accepts it.
Used where a word stands alone, with no sequencer. -/
def kindOfWord (w : BitVec 32) : SeqKind :=
  let maj := (fld w 26 6).toNat
  if maj == 0x00 && fld w 17 5 == 1#5 then .va
  else if maj == 0x1D && 4 ≤ (fld w 21 5).toNat && (fld w 21 5).toNat ≤ 10 then .pier
  else if acceptsMajor .c maj then .c
  else if acceptsMajor .lf maj then .lf
  else if acceptsMajor .m maj then .m
  else .va

/-- A kind of sequencer that accepts a word's token bits too: VA has both neighbours' queues (R118). -/
def kindForWord (w : BitVec 32) : SeqKind :=
  if missingQueue (kindOfWord w) (tokOf w) && (fld w 26 6).toNat ≤ 0x03 then .va
  else if missingQueue (kindOfWord w) (tokOf w) then .sf
  else kindOfWord w

/-- The instruction that the decoder reads from a word that stands alone. -/
noncomputable def decodeAny (w : BitVec 32) : Option Instr :=
  match decodeWord (kindForWord w) w with
  | .ok i => some i
  | .error _ => none

/-- A word from its little-endian bytes (R7). -/
def wordOfBytes (b0 b1 b2 b3 : BitVec 8) : BitVec 32 := b3 ++ b2 ++ b1 ++ b0

/-- The bytes of a word, lowest address first (R7). -/
def bytesOfWord (w : BitVec 32) : List (BitVec 8) := [fld w 0 8, fld w 8 8, fld w 16 8, fld w 24 8]

/-- Decoding any bytes: the first four are one word; fewer are none. -/
noncomputable def decodeBytes : List (BitVec 8) → Option (Instr × List (BitVec 8))
  | b0 :: b1 :: b2 :: b3 :: rest => (decodeAny (wordOfBytes b0 b1 b2 b3)).map fun i => (i, rest)
  | _ => none

/-- The instruction the decoder reads from a word whose bits are `w`, laid out as the hardware stores it. -/
noncomputable def decodeTableWord (_nbits w : Nat) : Option Instr :=
  (decodeBytes (bytesOfWord (BitVec.ofNat 32 w))).map Prod.fst

/-- The encoder: the word of an instruction, each segment as its form lists it from bit 31 down (R70, R75-R80 and the form
tables of the chapters); none for a step that no word starts. -/
def encode : Instr → Option (BitVec 32)
  | .nop tok => some (0x00#6 ++ tok ++ 0#5 ++ 0#5 ++ 0#12)
  | .lpat kind k => some (0x00#6 ++ 0#4 ++ 1#5 ++ kind ++ 0#7 ++ k)
  | .halt tok => some (0x00#6 ++ tok ++ 2#5 ++ 0#5 ++ 0#12)
  | .brk tok code => some (0x00#6 ++ tok ++ 3#5 ++ 0#5 ++ code)
  | .trap tok code => some (0x00#6 ++ tok ++ 4#5 ++ 0#5 ++ code)
  | .tok tok n => some (0x00#6 ++ tok ++ 5#5 ++ 0#5 ++ 0#8 ++ n)
  | .pause tok t => some (0x00#6 ++ tok ++ 6#5 ++ 0#5 ++ t)
  | .loop tok n len count => some (0x01#6 ++ tok ++ 0#5 ++ n ++ 0#1 ++ 0#2 ++ len ++ count)
  | .loopR tok n len => some (0x01#6 ++ tok ++ 0#5 ++ n ++ 1#1 ++ 0#2 ++ len ++ 0#6)
  | .loopp tok n p d len => some (0x01#6 ++ tok ++ 1#5 ++ n ++ p ++ d ++ len ++ 0#6)
  | .loopr tok n sm1 len => some (0x01#6 ++ tok ++ 2#5 ++ n ++ sm1 ++ len ++ 0#6)
  | .sj tok off => some (0x01#6 ++ tok ++ 3#5 ++ 0#5 ++ off)
  | .sjp tok off => some (0x01#6 ++ tok ++ 4#5 ++ 0#5 ++ off)
  | .pelse tok => some (0x02#6 ++ tok ++ 0#5 ++ 0#5 ++ 0#12)
  | .ptrue tok => some (0x02#6 ++ tok ++ 1#5 ++ 0#5 ++ 0#12)
  | .semset tok n v => some (0x03#6 ++ tok ++ 0#5 ++ n ++ v)
  | .semadd tok n d => some (0x03#6 ++ tok ++ 1#5 ++ n ++ d)
  | .semwait tok n v => some (0x03#6 ++ tok ++ 2#5 ++ n ++ v)
  | .twany tok half mask => some (0x03#6 ++ tok ++ 3#5 ++ half ++ mask)
  | .twall tok half mask => some (0x03#6 ++ tok ++ 4#5 ++ half ++ mask)
  | .tffr tok half mask => some (0x03#6 ++ tok ++ 5#5 ++ half ++ mask)
  | .add sd sa sb => some (0x08#6 ++ sd ++ sa ++ sb ++ 0#6 ++ 0#5)
  | .sub sd sa sb => some (0x08#6 ++ sd ++ sa ++ sb ++ 0#6 ++ 1#5)
  | .and sd sa sb => some (0x08#6 ++ sd ++ sa ++ sb ++ 0#6 ++ 2#5)
  | .or sd sa sb => some (0x08#6 ++ sd ++ sa ++ sb ++ 0#6 ++ 3#5)
  | .xor sd sa sb => some (0x08#6 ++ sd ++ sa ++ sb ++ 0#6 ++ 4#5)
  | .min sd sa sb u => some (0x08#6 ++ sd ++ sa ++ sb ++ 0#5 ++ u ++ 5#5)
  | .max sd sa sb u => some (0x08#6 ++ sd ++ sa ++ sb ++ 0#5 ++ u ++ 6#5)
  | .slt sd sa sb u => some (0x08#6 ++ sd ++ sa ++ sb ++ 0#5 ++ u ++ 7#5)
  | .sel sd sa sb => some (0x08#6 ++ sd ++ sa ++ sb ++ 0#6 ++ 8#5)
  | .addi sd sa imm => some (0x09#6 ++ sd ++ sa ++ 0#3 ++ imm)
  | .andi sd sa imm => some (0x09#6 ++ sd ++ sa ++ 1#3 ++ imm)
  | .ori sd sa imm => some (0x09#6 ++ sd ++ sa ++ 2#3 ++ imm)
  | .xori sd sa imm => some (0x09#6 ++ sd ++ sa ++ 3#3 ++ imm)
  | .slti sd sa imm => some (0x09#6 ++ sd ++ sa ++ 4#3 ++ imm)
  | .sltiU sd sa imm => some (0x09#6 ++ sd ++ sa ++ 5#3 ++ imm)
  | .sll sd sa sb => some (0x0A#6 ++ sd ++ sa ++ sb ++ 0#6 ++ 0#5)
  | .sllImm sd sa n => some (0x0A#6 ++ sd ++ sa ++ 0#5 ++ n ++ 0#5)
  | .srl sd sa sb => some (0x0A#6 ++ sd ++ sa ++ sb ++ 0#6 ++ 1#5)
  | .srlImm sd sa n => some (0x0A#6 ++ sd ++ sa ++ 0#5 ++ n ++ 1#5)
  | .sra sd sa sb => some (0x0A#6 ++ sd ++ sa ++ sb ++ 0#6 ++ 2#5)
  | .sraImm sd sa n => some (0x0A#6 ++ sd ++ sa ++ 0#5 ++ n ++ 2#5)
  | .clz sd sa w => some (0x0A#6 ++ sd ++ sa ++ 0#5 ++ 0#5 ++ w ++ 3#5)
  | .ctz sd sa w => some (0x0A#6 ++ sd ++ sa ++ 0#5 ++ 0#5 ++ w ++ 4#5)
  | .popc sd sa w => some (0x0A#6 ++ sd ++ sa ++ 0#5 ++ 0#5 ++ w ++ 5#5)
  | .bext sd sa sb wm1 => some (0x0A#6 ++ sd ++ sa ++ sb ++ wm1 ++ 6#5)
  | .bins sd sa sb wm1 => some (0x0A#6 ++ sd ++ sa ++ sb ++ wm1 ++ 7#5)
  | .mul sd sa sb => some (0x0B#6 ++ sd ++ sa ++ sb ++ 0#6 ++ 0#5)
  | .mulh sd sa sb u => some (0x0B#6 ++ sd ++ sa ++ sb ++ 0#5 ++ u ++ 1#5)
  | .div sd sa sb u => some (0x0B#6 ++ sd ++ sa ++ sb ++ 0#5 ++ u ++ 2#5)
  | .rem sd sa sb u => some (0x0B#6 ++ sd ++ sa ++ sb ++ 0#5 ++ u ++ 3#5)
  | .fadd sd sa sb rm d => some (0x0C#6 ++ sd ++ sa ++ sb ++ 0#2 ++ rm ++ d ++ 0#5)
  | .fsub sd sa sb rm d => some (0x0C#6 ++ sd ++ sa ++ sb ++ 0#2 ++ rm ++ d ++ 1#5)
  | .fmul sd sa sb rm d => some (0x0C#6 ++ sd ++ sa ++ sb ++ 0#2 ++ rm ++ d ++ 2#5)
  | .fdiv sd sa sb rm d => some (0x0C#6 ++ sd ++ sa ++ sb ++ 0#2 ++ rm ++ d ++ 3#5)
  | .fsqrt sd sa rm d => some (0x0C#6 ++ sd ++ sa ++ 0#5 ++ 0#2 ++ rm ++ d ++ 4#5)
  | .fma sd sa sb rm d => some (0x0C#6 ++ sd ++ sa ++ sb ++ 0#2 ++ rm ++ d ++ 5#5)
  | .fcvt sd sa m rm d => some (0x0C#6 ++ sd ++ sa ++ 0#5 ++ m ++ rm ++ d ++ 6#5)
  | .peq sa sb => some (0x0D#6 ++ 0#5 ++ sa ++ sb ++ 0#6 ++ 0#5)
  | .pne sa sb => some (0x0D#6 ++ 0#5 ++ sa ++ sb ++ 0#6 ++ 1#5)
  | .plt sa sb u => some (0x0D#6 ++ 0#5 ++ sa ++ sb ++ 0#5 ++ u ++ 2#5)
  | .pge sa sb u => some (0x0D#6 ++ 0#5 ++ sa ++ sb ++ 0#5 ++ u ++ 3#5)
  | .pfeq sa sb d => some (0x0D#6 ++ 0#5 ++ sa ++ sb ++ 0#5 ++ d ++ 4#5)
  | .pflt sa sb d => some (0x0D#6 ++ 0#5 ++ sa ++ sb ++ 0#5 ++ d ++ 5#5)
  | .pfle sa sb d => some (0x0D#6 ++ 0#5 ++ sa ++ sb ++ 0#5 ++ d ++ 6#5)
  | .lis sd imm => some (0x0E#6 ++ sd ++ 0#5 ++ 0#3 ++ imm)
  | .lsh sd imm => some (0x0E#6 ++ sd ++ 0#5 ++ 1#3 ++ imm)
  | .mfcr sd cr => some (0x0F#6 ++ sd ++ 0#5 ++ cr ++ 0#5)
  | .mtcr sa cr => some (0x0F#6 ++ 0#5 ++ sa ++ cr ++ 1#5)
  | .mtcrs sa cr => some (0x0F#6 ++ 0#5 ++ sa ++ cr ++ 2#5)
  | .mtcrc sa cr => some (0x0F#6 ++ 0#5 ++ sa ++ cr ++ 3#5)
  | .ld sd sa oc sz off => some (0x10#6 ++ sd ++ sa ++ oc ++ 0#1 ++ sz ++ off)
  | .ldu sd sa oc sz off => some (0x10#6 ++ sd ++ sa ++ oc ++ 1#1 ++ sz ++ off)
  | .st sd sa oc sz off => some (0x11#6 ++ sd ++ sa ++ oc ++ 0#1 ++ sz ++ off)
  | .aadd sd sa sb cls scope d => some (0x12#6 ++ sd ++ sa ++ sb ++ cls ++ scope ++ 0#1 ++ d ++ 0#5)
  | .aand sd sa sb cls scope d => some (0x12#6 ++ sd ++ sa ++ sb ++ cls ++ scope ++ 0#1 ++ d ++ 1#5)
  | .aor sd sa sb cls scope d => some (0x12#6 ++ sd ++ sa ++ sb ++ cls ++ scope ++ 0#1 ++ d ++ 2#5)
  | .axor sd sa sb cls scope d => some (0x12#6 ++ sd ++ sa ++ sb ++ cls ++ scope ++ 0#1 ++ d ++ 3#5)
  | .amin sd sa sb cls scope u d => some (0x12#6 ++ sd ++ sa ++ sb ++ cls ++ scope ++ u ++ d ++ 4#5)
  | .amax sd sa sb cls scope u d => some (0x12#6 ++ sd ++ sa ++ sb ++ cls ++ scope ++ u ++ d ++ 5#5)
  | .aswp sd sa sb cls scope d => some (0x12#6 ++ sd ++ sa ++ sb ++ cls ++ scope ++ 0#1 ++ d ++ 6#5)
  | .acas sd sa sb cls scope d => some (0x12#6 ++ sd ++ sa ++ sb ++ cls ++ scope ++ 0#1 ++ d ++ 7#5)
  | .fence mask scope => some (0x13#6 ++ mask ++ 0#3 ++ scope ++ 0#5)
  | .lda sd sa sb sz scope => some (0x13#6 ++ sd ++ sa ++ sb ++ 0#2 ++ sz ++ scope ++ 1#5)
  | .stl sd sa sb sz scope => some (0x13#6 ++ sd ++ sa ++ sb ++ 0#2 ++ sz ++ scope ++ 2#5)
  | .syncw mask => some (0x13#6 ++ mask ++ 0#5 ++ 3#5)
  | .bzeq sa off => some (0x14#6 ++ 0#5 ++ sa ++ off)
  | .bzne sa off => some (0x14#6 ++ 1#5 ++ sa ++ off)
  | .bzlt sa off => some (0x14#6 ++ 2#5 ++ sa ++ off)
  | .bzge sa off => some (0x14#6 ++ 3#5 ++ sa ++ off)
  | .bzgt sa off => some (0x14#6 ++ 4#5 ++ sa ++ off)
  | .bzle sa off => some (0x14#6 ++ 5#5 ++ sa ++ off)
  | .bpt off => some (0x14#6 ++ 16#5 ++ 0#5 ++ off)
  | .bpf off => some (0x14#6 ++ 17#5 ++ 0#5 ++ off)
  | .jal sd off => some (0x15#6 ++ sd ++ off)
  | .jalr sd sa => some (0x16#6 ++ sd ++ sa ++ 0#5 ++ 0#6 ++ 0#5)
  | .jr sa => some (0x16#6 ++ 0#5 ++ sa ++ 0#5 ++ 0#6 ++ 1#5)
  | .tload sd sa e => some (0x18#6 ++ sd ++ sa ++ 0#8 ++ e ++ 0#5)
  | .tstart sa e => some (0x18#6 ++ 0#5 ++ sa ++ 0#8 ++ e ++ 1#5)
  | .tstop e => some (0x18#6 ++ 0#5 ++ 0#5 ++ 0#8 ++ e ++ 2#5)
  | .tbase sd sa e => some (0x18#6 ++ sd ++ sa ++ 0#8 ++ e ++ 3#5)
  | .tset sa n e => some (0x18#6 ++ 0#5 ++ sa ++ n ++ e ++ 4#5)
  | .tget sd n e => some (0x18#6 ++ sd ++ 0#5 ++ n ++ e ++ 5#5)
  | .twidle e => some (0x18#6 ++ 0#5 ++ 0#5 ++ 0#8 ++ e ++ 6#5)
  | .qput sd sa sb => some (0x19#6 ++ sd ++ sa ++ sb ++ 0#5 ++ 0#1 ++ 0#5)
  | .qputNb sd sa sb => some (0x19#6 ++ sd ++ sa ++ sb ++ 0#5 ++ 1#1 ++ 0#5)
  | .qtake sd => some (0x19#6 ++ sd ++ 0#5 ++ 0#5 ++ 0#6 ++ 1#5)
  | .qsteal sd => some (0x19#6 ++ sd ++ 0#5 ++ 0#5 ++ 0#6 ++ 2#5)
  | .qstealRank sd sa => some (0x19#6 ++ sd ++ sa ++ 0#5 ++ 0#6 ++ 2#5)
  | .qcommit sd => some (0x19#6 ++ sd ++ 0#5 ++ 0#5 ++ 0#6 ++ 3#5)
  | .qdone sd sa sb => some (0x19#6 ++ sd ++ sa ++ sb ++ 0#6 ++ 4#5)
  | .barr sd => some (0x1A#6 ++ sd ++ 0#5 ++ 0#5 ++ 0#6 ++ 0#5)
  | .barw sa => some (0x1A#6 ++ 0#5 ++ sa ++ 0#5 ++ 0#6 ++ 1#5)
  | .fstop sd sa => some (0x1A#6 ++ sd ++ sa ++ 0#5 ++ 0#6 ++ 2#5)
  | .txinit sa sb => some (0x1A#6 ++ 0#5 ++ sa ++ sb ++ 0#6 ++ 3#5)
  | .txexp sa sb => some (0x1A#6 ++ 0#5 ++ sa ++ sb ++ 0#6 ++ 4#5)
  | .txarr sd sa sb => some (0x1A#6 ++ sd ++ sa ++ sb ++ 0#6 ++ 5#5)
  | .txwait sa sb => some (0x1A#6 ++ 0#5 ++ sa ++ sb ++ 0#6 ++ 6#5)
  | .rft => some (0x1B#6 ++ 0#5 ++ 0#5 ++ 0#5 ++ 0#6 ++ 0#5)
  | .scall sd sa sb => some (0x1B#6 ++ sd ++ sa ++ sb ++ 0#6 ++ 1#5)
  | .wfe sd sa => some (0x1B#6 ++ sd ++ sa ++ 0#5 ++ 0#6 ++ 2#5)
  | .sev sa => some (0x1B#6 ++ 0#5 ++ sa ++ 0#5 ++ 0#6 ++ 3#5)
  | .rdcnt sd n => some (0x1B#6 ++ sd ++ 0#5 ++ 0#5 ++ n ++ 4#5)
  | .pinvCtx sa => some (0x1B#6 ++ 0#5 ++ sa ++ 0#5 ++ 0#4 ++ 0#2 ++ 5#5)
  | .pinvRange sa sb => some (0x1B#6 ++ 0#5 ++ sa ++ sb ++ 0#4 ++ 1#2 ++ 5#5)
  | .pinvAll => some (0x1B#6 ++ 0#5 ++ 0#5 ++ 0#5 ++ 0#4 ++ 2#2 ++ 5#5)
  | .rminvCtx sa => some (0x1B#6 ++ 0#5 ++ sa ++ 0#5 ++ 0#4 ++ 0#2 ++ 6#5)
  | .rminvRange sa sb => some (0x1B#6 ++ 0#5 ++ sa ++ sb ++ 0#4 ++ 1#2 ++ 6#5)
  | .rminvAll => some (0x1B#6 ++ 0#5 ++ 0#5 ++ 0#5 ++ 0#4 ++ 2#2 ++ 6#5)
  | .ctxsv sd sa => some (0x1B#6 ++ sd ++ sa ++ 0#5 ++ 0#6 ++ 7#5)
  | .ctxld sa => some (0x1B#6 ++ 0#5 ++ sa ++ 0#5 ++ 0#6 ++ 8#5)
  | .bsclaim sa n => some (0x1C#6 ++ 0#5 ++ 0#6 ++ sa ++ 0#5 ++ n)
  | .bsrel => some (0x1C#6 ++ 1#5 ++ 0#6 ++ 0#5 ++ 0#5 ++ 0#5)
  | .bsin tag sa sb lz => some (0x1C#6 ++ 2#5 ++ tag ++ sa ++ sb ++ 0#2 ++ lz)
  | .bsout tag sa sb sx lz => some (0x1C#6 ++ 3#5 ++ tag ++ sa ++ sb ++ 0#1 ++ sx ++ lz)
  | .bslog sa op => some (0x1C#6 ++ 4#5 ++ 0#6 ++ sa ++ 0#5 ++ op)
  | .bsadd sa sb s sat k => some (0x1C#6 ++ 5#5 ++ 0#6 ++ sa ++ sb ++ 0#2 ++ s ++ sat ++ k)
  | .bssub sa sb s sat k => some (0x1C#6 ++ 6#5 ++ 0#6 ++ sa ++ sb ++ 0#2 ++ s ++ sat ++ k)
  | .bscmp sa sb k s cond => some (0x1C#6 ++ 7#5 ++ 0#6 ++ sa ++ sb ++ k ++ s ++ cond)
  | .bssel sa => some (0x1C#6 ++ 8#5 ++ 0#6 ++ sa ++ 0#5 ++ 0#5)
  | .bsinc sa => some (0x1C#6 ++ 9#5 ++ 0#6 ++ sa ++ 0#5 ++ 0#5)
  | .bsmin sa sb s k => some (0x1C#6 ++ 10#5 ++ 0#6 ++ sa ++ sb ++ 0#2 ++ s ++ 0#1 ++ k)
  | .bspop sa => some (0x1C#6 ++ 11#5 ++ 0#6 ++ sa ++ 0#5 ++ 0#5)
  | .bsshf sa rot dn => some (0x1C#6 ++ 12#5 ++ 0#6 ++ sa ++ 0#5 ++ 0#3 ++ rot ++ dn)
  | .bswait => some (0x1C#6 ++ 13#5 ++ 0#6 ++ 0#5 ++ 0#5 ++ 0#5)
  | .fork tag sa sb p => some (0x1D#6 ++ 0#5 ++ tag ++ sa ++ sb ++ 0#2 ++ p)
  | .join tag sa => some (0x1D#6 ++ 1#5 ++ tag ++ sa ++ 0#5 ++ 0#5)
  | .mbput tag sa => some (0x1D#6 ++ 2#5 ++ tag ++ sa ++ 0#5 ++ 0#5)
  | .mbget tag sa => some (0x1D#6 ++ 3#5 ++ tag ++ sa ++ 0#5 ++ 0#5)
  | .pbind sa u => some (0x1D#6 ++ 4#5 ++ 0#6 ++ sa ++ 0#5 ++ 0#1 ++ u)
  | .pstrm sa sb u => some (0x1D#6 ++ 5#5 ++ 0#6 ++ sa ++ sb ++ 0#1 ++ u)
  | .prun sa u => some (0x1D#6 ++ 6#5 ++ 0#6 ++ sa ++ 0#5 ++ 0#1 ++ u)
  | .pchain sa u => some (0x1D#6 ++ 7#5 ++ 0#6 ++ sa ++ 0#5 ++ 0#1 ++ u)
  | .prcpy sa sb b => some (0x1D#6 ++ 8#5 ++ 0#6 ++ sa ++ sb ++ 0#4 ++ b)
  | .przero sa => some (0x1D#6 ++ 9#5 ++ 0#6 ++ sa ++ 0#5 ++ 0#5)
  | .pflush u => some (0x1D#6 ++ 10#5 ++ 0#6 ++ 0#5 ++ 0#5 ++ 0#1 ++ u)
  | .xbkt tag sa => some (0x1E#6 ++ 0#5 ++ tag ++ sa ++ 0#5 ++ 0#5)
  | .xa2a tag sa => some (0x1E#6 ++ 1#5 ++ tag ++ sa ++ 0#5 ++ 0#5)
  | .xput tag sa => some (0x1E#6 ++ 2#5 ++ tag ++ sa ++ 0#5 ++ 0#5)
  | .xget tag sa => some (0x1E#6 ++ 3#5 ++ tag ++ sa ++ 0#5 ++ 0#5)
  | .xamo tag sa => some (0x1E#6 ++ 4#5 ++ tag ++ sa ++ 0#5 ++ 0#5)
  | .xsig tag sa sb => some (0x1E#6 ++ 5#5 ++ tag ++ sa ++ sb ++ 0#5)
  | .xwait tag sa => some (0x1E#6 ++ 6#5 ++ tag ++ sa ++ 0#5 ++ 0#5)
  | .gbag tag sa => some (0x1F#6 ++ 0#5 ++ tag ++ sa ++ 0#5 ++ 0#5)
  | .grow tag sa => some (0x1F#6 ++ 1#5 ++ tag ++ sa ++ 0#5 ++ 0#5)
  | .supd tag sa => some (0x1F#6 ++ 2#5 ++ tag ++ sa ++ 0#5 ++ 0#5)
  | .scommit tag sa sb => some (0x1F#6 ++ 3#5 ++ tag ++ sa ++ sb ++ 0#5)
  | .skq tag sa => some (0x1F#6 ++ 4#5 ++ tag ++ sa ++ 0#5 ++ 0#5)
  | .vadd tok vd va vb la lb => some (0x20#6 ++ tok ++ 0#5 ++ vd ++ va ++ vb ++ la ++ lb)
  | .vsub tok vd va vb la lb => some (0x20#6 ++ tok ++ 1#5 ++ vd ++ va ++ vb ++ la ++ lb)
  | .vmul tok vd va vb la lb => some (0x20#6 ++ tok ++ 2#5 ++ vd ++ va ++ vb ++ la ++ lb)
  | .vfma tok vd va vb la lb => some (0x20#6 ++ tok ++ 3#5 ++ vd ++ va ++ vb ++ la ++ lb)
  | .vfms tok vd va vb la lb => some (0x20#6 ++ tok ++ 4#5 ++ vd ++ va ++ vb ++ la ++ lb)
  | .vdiv tok vd va vb la lb => some (0x20#6 ++ tok ++ 5#5 ++ vd ++ va ++ vb ++ la ++ lb)
  | .vsqrt tok vd va la => some (0x20#6 ++ tok ++ 6#5 ++ vd ++ va ++ 0#5 ++ la ++ 0#1)
  | .vmin tok vd va vb la lb => some (0x20#6 ++ tok ++ 7#5 ++ vd ++ va ++ vb ++ la ++ lb)
  | .vmax tok vd va vb la lb => some (0x20#6 ++ tok ++ 8#5 ++ vd ++ va ++ vb ++ la ++ lb)
  | .vabs tok vd va la => some (0x20#6 ++ tok ++ 9#5 ++ vd ++ va ++ 0#5 ++ la ++ 0#1)
  | .vneg tok vd va la => some (0x20#6 ++ tok ++ 10#5 ++ vd ++ va ++ 0#5 ++ la ++ 0#1)
  | .vfmaw tok vd va vb la lb => some (0x21#6 ++ tok ++ 0#5 ++ vd ++ va ++ vb ++ la ++ lb)
  | .vmulw tok vd va vb la lb => some (0x21#6 ++ tok ++ 1#5 ++ vd ++ va ++ vb ++ la ++ lb)
  | .vaddw tok vd va vb la lb => some (0x21#6 ++ tok ++ 2#5 ++ vd ++ va ++ vb ++ la ++ lb)
  | .vadds tok vd va vb la lb => some (0x22#6 ++ tok ++ 0#5 ++ vd ++ va ++ vb ++ la ++ lb)
  | .vsubs tok vd va vb la lb => some (0x22#6 ++ tok ++ 1#5 ++ vd ++ va ++ vb ++ la ++ lb)
  | .vmulh tok vd va vb la lb => some (0x22#6 ++ tok ++ 2#5 ++ vd ++ va ++ vb ++ la ++ lb)
  | .vdot4 tok vd va vb la lb => some (0x22#6 ++ tok ++ 3#5 ++ vd ++ va ++ vb ++ la ++ lb)
  | .vand tok vd va vb la lb => some (0x23#6 ++ tok ++ 0#5 ++ vd ++ va ++ vb ++ la ++ lb)
  | .vor tok vd va vb la lb => some (0x23#6 ++ tok ++ 1#5 ++ vd ++ va ++ vb ++ la ++ lb)
  | .vxor tok vd va vb la lb => some (0x23#6 ++ tok ++ 2#5 ++ vd ++ va ++ vb ++ la ++ lb)
  | .vnot tok vd va la => some (0x23#6 ++ tok ++ 3#5 ++ vd ++ va ++ 0#5 ++ la ++ 0#1)
  | .vsll tok vd va vb la lb => some (0x23#6 ++ tok ++ 4#5 ++ vd ++ va ++ vb ++ la ++ lb)
  | .vsrl tok vd va vb la lb => some (0x23#6 ++ tok ++ 5#5 ++ vd ++ va ++ vb ++ la ++ lb)
  | .vsra tok vd va vb la lb => some (0x23#6 ++ tok ++ 6#5 ++ vd ++ va ++ vb ++ la ++ lb)
  | .vpopc tok vd va la => some (0x23#6 ++ tok ++ 7#5 ++ vd ++ va ++ 0#5 ++ la ++ 0#1)
  | .vpeq tok va vb la lb => some (0x24#6 ++ tok ++ 0#5 ++ 0#5 ++ va ++ vb ++ la ++ lb)
  | .vpne tok va vb la lb => some (0x24#6 ++ tok ++ 1#5 ++ 0#5 ++ va ++ vb ++ la ++ lb)
  | .vplt tok va vb la lb => some (0x24#6 ++ tok ++ 2#5 ++ 0#5 ++ va ++ vb ++ la ++ lb)
  | .vple tok va vb la lb => some (0x24#6 ++ tok ++ 3#5 ++ 0#5 ++ va ++ vb ++ la ++ lb)
  | .vpnan tok va la => some (0x24#6 ++ tok ++ 4#5 ++ 0#5 ++ va ++ 0#5 ++ la ++ 0#1)
  | .vpfin tok va la => some (0x24#6 ++ tok ++ 5#5 ++ 0#5 ++ va ++ 0#5 ++ la ++ 0#1)
  | .vpld tok va la => some (0x24#6 ++ tok ++ 6#5 ++ 0#5 ++ va ++ 0#5 ++ la ++ 0#1)
  | .vpst tok vd => some (0x24#6 ++ tok ++ 7#5 ++ vd ++ 0#5 ++ 0#5 ++ 0#1 ++ 0#1)
  | .vcvt tok vd va la => some (0x25#6 ++ tok ++ 0#5 ++ vd ++ va ++ 0#5 ++ la ++ 0#1)
  | .vcvtsr tok vd va k la => some (0x25#6 ++ tok ++ 1#5 ++ vd ++ va ++ 0#2 ++ k ++ la ++ 0#1)
  | .vqblk tok vd va la => some (0x25#6 ++ tok ++ 2#5 ++ vd ++ va ++ 0#5 ++ la ++ 0#1)
  | .vdqblk tok vd va la => some (0x25#6 ++ tok ++ 3#5 ++ vd ++ va ++ 0#5 ++ la ++ 0#1)
  | .vwid tok vd va la => some (0x25#6 ++ tok ++ 4#5 ++ vd ++ va ++ 0#5 ++ la ++ 0#1)
  | .vnarr tok vd va la => some (0x25#6 ++ tok ++ 5#5 ++ vd ++ va ++ 0#5 ++ la ++ 0#1)
  | .vrcp tok vd va la => some (0x26#6 ++ tok ++ 0#5 ++ vd ++ va ++ 0#5 ++ la ++ 0#1)
  | .vrsqrt tok vd va la => some (0x26#6 ++ tok ++ 1#5 ++ vd ++ va ++ 0#5 ++ la ++ 0#1)
  | .vexp tok vd va la => some (0x26#6 ++ tok ++ 2#5 ++ vd ++ va ++ 0#5 ++ la ++ 0#1)
  | .vlog tok vd va la => some (0x26#6 ++ tok ++ 3#5 ++ vd ++ va ++ 0#5 ++ la ++ 0#1)
  | .vtanh tok vd va la => some (0x26#6 ++ tok ++ 4#5 ++ vd ++ va ++ 0#5 ++ la ++ 0#1)
  | .vsigm tok vd va la => some (0x26#6 ++ tok ++ 5#5 ++ vd ++ va ++ 0#5 ++ la ++ 0#1)
  | .vperm tok vd va vb la lb => some (0x27#6 ++ tok ++ 0#5 ++ vd ++ va ++ vb ++ la ++ lb)
  | .vcomp tok vd va m k la => some (0x27#6 ++ tok ++ 1#5 ++ vd ++ va ++ 0#1 ++ m ++ k ++ la ++ 0#1)
  | .vexpd tok vd va la => some (0x27#6 ++ tok ++ 2#5 ++ vd ++ va ++ 0#5 ++ la ++ 0#1)
  | .vpart tok vd va k la => some (0x27#6 ++ tok ++ 3#5 ++ vd ++ va ++ 0#2 ++ k ++ la ++ 0#1)
  | .vslide tok vd va k la => some (0x27#6 ++ tok ++ 4#5 ++ vd ++ va ++ 0#2 ++ k ++ la ++ 0#1)
  | .vzip tok vd va vb la lb => some (0x27#6 ++ tok ++ 5#5 ++ vd ++ va ++ vb ++ la ++ lb)
  | .vunzip tok vd va la => some (0x27#6 ++ tok ++ 6#5 ++ vd ++ va ++ 0#5 ++ la ++ 0#1)
  | .vbcast tok vd va k la => some (0x27#6 ++ tok ++ 7#5 ++ vd ++ va ++ 0#2 ++ k ++ la ++ 0#1)
  | .vredsum tok vd va k la => some (0x28#6 ++ tok ++ 0#5 ++ vd ++ va ++ 0#2 ++ k ++ la ++ 0#1)
  | .vredmax tok vd va k la => some (0x28#6 ++ tok ++ 1#5 ++ vd ++ va ++ 0#2 ++ k ++ la ++ 0#1)
  | .vredmin tok vd va k la => some (0x28#6 ++ tok ++ 2#5 ++ vd ++ va ++ 0#2 ++ k ++ la ++ 0#1)
  | .vscan tok vd va la => some (0x28#6 ++ tok ++ 3#5 ++ vd ++ va ++ 0#5 ++ la ++ 0#1)
  | .vsegsum tok vd va vb la lb => some (0x28#6 ++ tok ++ 4#5 ++ vd ++ va ++ vb ++ la ++ lb)
  | .vmov tok vd va la => some (0x29#6 ++ tok ++ 0#5 ++ vd ++ va ++ 0#5 ++ la ++ 0#1)
  | .vsplat tok vd k => some (0x29#6 ++ tok ++ 1#5 ++ vd ++ 0#5 ++ 0#2 ++ k ++ 0#1 ++ 0#1)
  | .vtype tok t0 t1 sat rm => some (0x29#6 ++ tok ++ 2#5 ++ 0#1 ++ t0 ++ 0#1 ++ t1 ++ 0#1 ++ sat ++ rm ++ 0#2)
  | .vwin tok base => some (0x29#6 ++ tok ++ 3#5 ++ base ++ 0#5 ++ 0#1 ++ 0#1)
  | .vidx tok vd => some (0x29#6 ++ tok ++ 4#5 ++ vd ++ 0#5 ++ 0#5 ++ 0#1 ++ 0#1)
  | .vaccrd tok vd acc snap k => some (0x29#6 ++ tok ++ 5#5 ++ vd ++ 0#1 ++ acc ++ snap ++ 0#1 ++ k ++ 0#1 ++ 0#1)
  | .vaccwr tok acc va k la => some (0x29#6 ++ tok ++ 6#5 ++ 0#1 ++ acc ++ va ++ 0#2 ++ k ++ la ++ 0#1)
  | .vtos tok j va k la => some (0x29#6 ++ tok ++ 7#5 ++ 0#2 ++ j ++ va ++ 0#2 ++ k ++ la ++ 0#1)
  | .vdead tok vd nm1 => some (0x29#6 ++ tok ++ 8#5 ++ vd ++ nm1 ++ 0#5 ++ 0#1 ++ 0#1)
  | .vld tok vd as oc inc => some (0x2C#6 ++ tok ++ 0#3 ++ vd ++ as ++ oc ++ inc ++ 0#1 ++ 0#3)
  | .vlds tok vd as oc inc => some (0x2C#6 ++ tok ++ 1#3 ++ vd ++ as ++ oc ++ inc ++ 0#1 ++ 0#3)
  | .vldq tok vd as oc inc => some (0x2C#6 ++ tok ++ 2#3 ++ vd ++ as ++ oc ++ inc ++ 0#1 ++ 0#3)
  | .vst tok vd as oc inc lu => some (0x2D#6 ++ tok ++ 0#3 ++ vd ++ as ++ oc ++ inc ++ lu ++ 0#3)
  | .vsts tok vd as oc inc lu => some (0x2D#6 ++ tok ++ 1#3 ++ vd ++ as ++ oc ++ inc ++ lu ++ 0#3)
  | .vstq tok vd as oc inc lu => some (0x2D#6 ++ tok ++ 2#3 ++ vd ++ as ++ oc ++ inc ++ lu ++ 0#3)
  | .vgth tok vd va k la => some (0x2E#6 ++ tok ++ 0#5 ++ vd ++ va ++ 0#2 ++ k ++ la ++ 0#1)
  | .vsct tok vd va k la => some (0x2E#6 ++ tok ++ 1#5 ++ vd ++ va ++ 0#2 ++ k ++ la ++ 0#1)
  | .vsctadd tok vd va k la => some (0x2E#6 ++ tok ++ 2#5 ++ vd ++ va ++ 0#2 ++ k ++ la ++ 0#1)
  | .vaadd tok vd va k la => some (0x2F#6 ++ tok ++ 0#5 ++ vd ++ va ++ 0#2 ++ k ++ la ++ 0#1)
  | .vamax tok vd va k la => some (0x2F#6 ++ tok ++ 1#5 ++ vd ++ va ++ 0#2 ++ k ++ la ++ 0#1)
  | .mwld tok da db => some (0x30#6 ++ tok ++ 0#5 ++ 0#4 ++ da ++ db ++ 0#5)
  | .mwsp tok da db => some (0x30#6 ++ tok ++ 1#5 ++ 0#4 ++ da ++ db ++ 0#5)
  | .mmf tok acc da db z => some (0x31#6 ++ tok ++ 0#5 ++ acc ++ da ++ db ++ 0#4 ++ z)
  | .mmfg tok acc da db z => some (0x31#6 ++ tok ++ 1#5 ++ acc ++ da ++ db ++ 0#4 ++ z)
  | .mmb tok acc da db z ks => some (0x32#6 ++ tok ++ 0#5 ++ acc ++ da ++ db ++ 0#2 ++ z ++ ks)
  | .mmw tok acc da db z ks => some (0x32#6 ++ tok ++ 1#5 ++ acc ++ da ++ db ++ 0#2 ++ z ++ ks)
  | .mmfs tok acc da db z => some (0x33#6 ++ tok ++ 0#5 ++ acc ++ da ++ db ++ 0#4 ++ z)
  | .mmbs tok acc da db z ks => some (0x33#6 ++ tok ++ 1#5 ++ acc ++ da ++ db ++ 0#2 ++ z ++ ks)
  | .macz tok acc => some (0x34#6 ++ tok ++ 0#5 ++ acc ++ 0#4 ++ 0#4 ++ 0#5)
  | .macst tok acc da sat rm => some (0x34#6 ++ tok ++ 1#5 ++ acc ++ da ++ 0#4 ++ 0#1 ++ sat ++ rm)
  | .macld tok acc da => some (0x34#6 ++ tok ++ 2#5 ++ acc ++ da ++ 0#4 ++ 0#5)
  | .mdset tok da word n => some (0x35#6 ++ tok ++ 0#5 ++ 0#4 ++ da ++ 0#4 ++ 0#1 ++ word ++ n)
  | .mdld tok da cm1 n => some (0x35#6 ++ tok ++ 1#5 ++ 0#4 ++ da ++ cm1 ++ 0#3 ++ n)
  | .mrpg tok n => some (0x35#6 ++ tok ++ 2#5 ++ 0#4 ++ 0#4 ++ 0#4 ++ 0#3 ++ n)
  | .fcpy tok tag fd oc => some (0x38#6 ++ tok ++ 0#4 ++ tag ++ fd ++ oc ++ 0#4)
  | .fcpyz tok tag fd oc => some (0x38#6 ++ tok ++ 1#4 ++ tag ++ fd ++ oc ++ 0#4)
  | .fcpym tok tag fd oc => some (0x38#6 ++ tok ++ 2#4 ++ tag ++ fd ++ oc ++ 0#4)
  | .fprf tok fd oc => some (0x38#6 ++ tok ++ 3#4 ++ 0#6 ++ fd ++ oc ++ 0#4)
  | .fwait tok tag sw n => some (0x39#6 ++ tok ++ 0#4 ++ tag ++ 0#4 ++ 0#4 ++ 0#1 ++ sw ++ n)
  | .fwaitr tok tag => some (0x39#6 ++ tok ++ 1#4 ++ tag ++ 0#4 ++ 0#4 ++ 0#4)
  | .fcan tok tag => some (0x39#6 ++ tok ++ 2#4 ++ tag ++ 0#4 ++ 0#4 ++ 0#4)
  | .fres tok tag => some (0x39#6 ++ tok ++ 3#4 ++ tag ++ 0#4 ++ 0#4 ++ 0#4)
  | .fwm tok tag n => some (0x39#6 ++ tok ++ 4#4 ++ tag ++ 0#4 ++ 0#4 ++ 0#2 ++ n)
  | .fdld tok cm1 fd n => some (0x39#6 ++ tok ++ 5#4 ++ 0#2 ++ cm1 ++ fd ++ 0#4 ++ 0#2 ++ n)
  | .fdset tok word fd n => some (0x39#6 ++ tok ++ 6#4 ++ 0#3 ++ word ++ fd ++ 0#4 ++ 0#2 ++ n)
  | .rclaim tok fd oc q h => some (0x3A#6 ++ tok ++ 0#4 ++ 0#6 ++ fd ++ oc ++ q ++ h)
  | .rpub tok oc q h => some (0x3A#6 ++ tok ++ 1#4 ++ 0#6 ++ 0#4 ++ oc ++ q ++ h)
  | .rwfill tok fd oc q h => some (0x3A#6 ++ tok ++ 2#4 ++ 0#6 ++ fd ++ oc ++ q ++ h)
  | .rwfree tok oc q h => some (0x3A#6 ++ tok ++ 3#4 ++ 0#6 ++ 0#4 ++ oc ++ q ++ h)
  | .rrel tok oc q h => some (0x3A#6 ++ tok ++ 4#4 ++ 0#6 ++ 0#4 ++ oc ++ q ++ h)
  | .ftxe tok fd oc h => some (0x3B#6 ++ tok ++ 0#4 ++ 0#6 ++ fd ++ oc ++ 0#2 ++ h)
  | .ftxk tok oc h => some (0x3B#6 ++ tok ++ 1#4 ++ 0#6 ++ 0#4 ++ oc ++ 0#2 ++ h)
  | _ => none

end Sys2Proof
end

