-- ==== Sys2Proof/Machine/State.lean ====
section
/-! DEFINITION. The state of the module as plain data, the reasons a step can stop, and the state right after reset. -/

namespace Sys2Proof.Machine

/-- What stops the machine. -/
inductive Fault where
  /-- The agenda names a unit that the module does not have (core 128 or above, a ninth pier). Raised by `step` only.
  Safe: no such agent exists, so no run of the hardware is cut short. -/
  | noSuchUnit
deriving DecidableEq, Repr

/-- What the machine does not do. -/
inductive Refusal where
  /-- An arm of `exec` that has no meaning yet. Safe: the model stops where the hardware goes on. -/
  | notModelled (mnemonic : String)
deriving DecidableEq, Repr

/-- Trap causes (19_faults R397). -/
inductive Cause where
  | illegalOrder | deadRead | predOverflow | predUnderflow | deadlock | misalignment | notPresent | remoteHome
  | ownerMismatch | permission | opaquePage | nonMonotone | abortedLanding | nonFinite | divideByZero | semOverflow
  | claimViolation | softwareTrap | breakpoint | watchdog | uncorrectable
deriving DecidableEq, Repr, Inhabited

/-- A trap as raised: cause, TINFO and TADDR (R397), and the format and tile of a non-finite result (02_numbers R53). -/
structure Trap where
  cause : Cause
  info : Word := 0
  addr : Word := 0
  async : Bool := false
  tile : Word := 0
  fmt : Word := 0
deriving DecidableEq, Repr, Inhabited

/-- A trap that waits for a step boundary of a sequencer (R399; 09_ordering R194; 15_ferry R322): `step` and `slot` name the
earlier operation, `tag` the copy whose TRP bit it is, `origin` the stream that trapped (17_piers R356); `late`: it is delivered outside trap mode
only (15_ferry R322). -/
structure AsyncTrap where
  who : Agent
  trap : Trap
  step : Word
  slot : Nat
  tag : Option TagRef := none
  origin : Option Agent := none
  late : Bool := false
deriving DecidableEq, Repr, Inhabited

/-- The trap record of a core (R396). -/
structure TrapRec where
  cause : Word := 0
  info : Word := 0
  addr : Word := 0
  seq : Word := 0
  step : Word := 0
  slot : Word := 0
  tile : Word := 0
  fmt : Word := 0
  ret : Word := 0
deriving DecidableEq, Repr, Inhabited

/-- Run states of a sequencer (05_kernel R116). -/
inductive Run where
  | stopped | running | blocked | held
deriving DecidableEq, Repr, Inhabited

/-- A loop frame (R127, R129): `stages` and `trips` are S and n of loopr, `index` its iteration. -/
structure Frame where
  reg : Nat
  first : Word
  last : Word
  rotating : Bool := false
  stages : Nat := 0
  trips : Nat := 0
  index : Nat := 0
deriving DecidableEq, Repr, Inhabited

/-- Objects in memory that an order waits on: where a ring header or a barrier word lies, by its key in `State.mem`. -/
abbrev Key := Nat

/-- What a key slot holds: the module key of a boot, or the number of a loaded key (11_page R222; 22_bringup R421, R428). -/
inductive KeyVal where
  | module (boot : Nat)
  | loaded (k : Nat)
deriving DecidableEq, Repr, Inhabited

/-- What a blocked sequencer waits for (00_scope R14, R116): the condition of its WaitUntil. -/
inductive Cond where
  | tokens (core queue count : Nat)
  | sends
  | semAtLeast (core n value : Nat)
  | tagAny (tags : List TagRef)
  | tagAll (tags : List TagRef)
  | tagFresh (tags : List TagRef)
  | tagSettled (t : TagRef)
  | tagRead (t : TagRef)
  | copyReady (t : TagRef) (desc : BitVec 512)
  | chunksGone (slot lo hi before : Nat)
  | redirectsGone (slot : Nat) (units : List Nat) (before : Nat)
  | engineLoaded (core e : Nat)
  | ringRoom (hdr : Key)
  | ringFilled (hdr : Key)
  | ringTail (hdr : Key) (c : Nat) (who : Agent) (lo hi : Nat)
  | ringHead (hdr : Key) (c : Nat)
  | unstalled (slot lo hi : Nat) (before : Option Nat)
  | engineStopped (core e : Nat)
  | engineIdle (core e : Nat)
  | stepDone (a : Agent)
  | writesDone (who : Agent) (classes : BitVec 16)
  | opsDone (who : Agent)
  | windowRoom (core : Nat)
  | putAnswered (core putSeq : Nat)
  | queueCount (slot q target : Nat)
  | tilesTaken (core : Nat)
  | groupPhase (core phase : Nat)
  | coreWrites (core : Nat)
  | fullStopReady (core before : Nat)
  | fullStopPhase (slot phase : Nat)
  | barrierGen (word : Key) (gen : Nat)
  | event (core timeout : Nat)
  | claimSwitched (slot : Nat)
  | claimRoom (slot : Nat)
  | claimIdle (slot core : Nat)
  | claimDrained (slot no : Nat)
  | mailRoom (pier k : Nat) (down : Bool)
  | mailFull (pier k : Nat) (down : Bool)
  | streamFree (pier : Nat)
  | unitFree (pier unit k : Nat)
  | tablesRead (who : Agent)
  | again
  | never
deriving DecidableEq, Repr, Inhabited

/-- The wait record (R117): kind, object, the clock and wall time at which the wait began, the waiting step and the slot whose order waits. `met`: the
condition has come about and stays latched (R14, R116), of a tffr with the tag `tag`; `poisoned`: the first poisoned byte of a stalled read whose copy has been cancelled (15_ferry
R323); `seen`: NFTRAP, SRSEED and DEADCHK as the waiting step read them (12_scalar R249). -/
structure Wait where
  kind : Nat
  obj : Nat
  cond : Cond
  since : Nat
  sinceWall : Nat
  step : Word := 0
  slot : Nat := 0
  seen : BitVec 2 × Word × Bool := (0, 0, false)
  met : Bool := false
  tag : Option TagRef := none
  poisoned : Option Nat := none
deriving DecidableEq, Repr, Inhabited

/-- What an order keeps of a first phase that already acted, until the same order is issued again (a blocking qput that is sent,
an fstop that arrived, a bsclaim that switches, a wfe that waits): the slot it stands in, the phase, and two numbers of it. `second`: slot 0 of the step
has acted for good, and the step goes on at slot 1. -/
inductive Phase where
  | rows | event | put | fullStop | claim | release | commit | pool | retire | second
deriving DecidableEq, Repr, Inhabited

/-- Such a record: the step and slot of the order. -/
structure Resume where
  here : Word
  slot : Nat
  phase : Phase
  a : Nat := 0
  b : Nat := 0
deriving DecidableEq, Repr, Inhabited

/-- An entry of the transient operand ring (13_vector R266): the physical register of a result, none when EMPTY. -/
abbrev RingEntry := Option Nat

/-- A gather or scatter stopped by a fault (13_vector R291): its step and slot, the element it goes on from, and the old bytes of table rows
committed since, which it still reads (08_memory R176). -/
structure Partial where
  here : Word
  slot : Nat
  next : Nat
  snap : Map Key Byte := []
deriving DecidableEq, Repr, Inhabited

/-- A sequencer: C, an engine, a pier stream or a copy sequencer. One-bit predicate stacks keep all 1,024 bits of an entry
equal (R121). `kept`: the wait record of a step that was abandoned, with the clocks and the time for which it had waited (04_context R101; 19_faults R402).
`halting`: a halt has retired whose tokens have not all entered (R125). `heldTok` and `taken` list queues with token counts: sends that wait (R119), and the tokens that the step in
progress has consumed (R66). -/
structure Seq where
  pc : Word := 0
  run : Run := .stopped
  prior : Run := .stopped
  sreg : Map Nat Word := []
  lc : Map Nat Word := []
  frames : List Frame := []
  stack : List (BitVec 1024) := []
  fflags : BitVec 8 := 0
  wait : Option Wait := none
  kept : Option Wait := none
  heldTok : List (Nat × Nat) := []
  taken : Option (List (Nat × Nat)) := none
  halting : Bool := false
  resume : Option Resume := none
  idleUntil : Nat := 0
  base : Nat := 0
  vtype : Word := 0
  patreg : BitVec 24 := 0xFAC688
  es : Map Nat Word := []
  asb : Map Nat Word := []
  str : Map Nat Word := []
  ring : List RingEntry := [none, none, none, none]
  gath : Option Partial := none
  fd : Map Nat (BitVec 512) := []
  seen : Nat × Nat := (0, 0)
deriving DecidableEq, Repr, Inhabited

/-- A kernel image as the dispatcher reads its header (R111): address, entry step, and the control-stream section. -/
structure Image where
  base : Nat := 0
  entry : Nat := 0
  codeOff : Nat := 0
  codeCount : Nat := 0
  accs : Nat := 0
  ways : Nat := 0
  vregs : Nat := 0
  argSize : Nat := 0
deriving DecidableEq, Repr, Inhabited

/-- A verified image as the dispatcher's cache keeps it (R113, R114): its header's fields, its size, the offsets and step counts
of its five table sections, its data section and relocation table, and whether it has been relocated. -/
structure Verified where
  image : Image
  size : Nat
  tables : List (Nat × Nat)
  dataOff : Nat
  dataLen : Nat
  relocs : List Nat
  relocated : Bool
deriving DecidableEq, Repr, Inhabited

/-- The bank of C that a trap interrupts (04_context R106), the destination of the scall that entered (R108), and the image that ctxld has read
for the next rft (R110). -/
structure Bank where
  sreg : Map Nat Word := []
  lc : Map Nat Word := []
  frames : List Frame := []
  stack : List (BitVec 1024) := []
  resume : Option Resume := none
  kept : Option Wait := none
  pendingSd : Option Nat := none
  loaded : Option (List Byte × List Byte) := none
deriving DecidableEq, Repr, Inhabited

/-- A token queue (05_kernel R118, R120): tokens held and depth, and for each token, the first to go out first, how many notes of VA and of VB come
before it (13_vector R271). -/
structure TokQ where
  count : Nat := 0
  depth : Nat := 15
  stamps : List (Nat × Nat) := []
deriving DecidableEq, Repr, Inhabited

/-- A run of consecutive tiles (07_group R153). -/
structure TileRun where
  first : Nat
  count : Nat
deriving DecidableEq, Repr, Inhabited

/-- Where a put of a replay window stands (06_queue R146): sent, or waiting to be sent again. -/
inductive PutState where
  | sent | waiting
deriving DecidableEq, Repr, Inhabited

/-- An entry of a replay window (R146): the sender's number, context slot and queue, the card, whether it is blocking, where it stands, and the
wall time of its resend. -/
structure WinPut where
  num : Nat
  slot : Nat
  q : Nat
  card : List Byte
  blocking : Bool
  st : PutState
  resendAt : Nat := 0
deriving DecidableEq, Repr, Inhabited

/-- A deferred effect in the commit buffer of an open tile (07_group R157, R158). -/
inductive Deferred where
  | semAdd (i : Nat) (value : Word)
  | put (q : Nat) (card : List Byte)
  | xsig (tag : Nat) (desc value : Word)
  | supd (tag : Nat) (block opt : List Byte)
deriving DecidableEq, Repr, Inhabited

/-- A step of a table memory: two words and the attribute (03_encoding R64). -/
structure StepWords where
  w0 : BitVec 32 := 0xFFFFFFFF
  w1 : BitVec 32 := 0xFFFFFFFF
  attr : BitVec 8 := 0
deriving DecidableEq, Repr, Inhabited

/-- The load record of the weight register (14_matrix R303): its descriptors' words, its form, the rows that it has written, and the step and slot of
the order, by which MROWP names it while it is pending. -/
structure WLoad where
  a : BitVec 256
  b : BitVec 256
  sparse : Bool
  row : Nat
  step : Nat
  slot : Nat
deriving DecidableEq, Repr, Inhabited

/-- What an access of a context does in the caches of device memory (08_memory R168-R171; 11_page R225): the context's ID, the physical and the
virtual 64 KiB unit, the stack whose translation unit serves the line, the class of the page, and whether it writes. -/
structure Use where
  id : Nat
  unit : Nat
  vunit : Nat
  stack : Nat
  cls : Nat
  write : Bool
deriving DecidableEq, Repr, Inhabited

/-- A page-table entry as a translation or walk cache holds it (11_page R215): the context's ID, the level of the entry, the virtual page number at
that level, and the entry. -/
structure WalkEntry where
  id : Nat
  level : Nat
  no : Nat
  e : Nat
deriving DecidableEq, Repr, Inhabited

/-- Where a byte of an access lies: its key in `State.mem`, the key its sector is encrypted under, HOME (0-2, 3 for a vault),
whether it is opaque or in a table region, for device memory what the access does in the caches, and the valid page-table entries of its walk. -/
structure Loc where
  key : Key
  enc : Option KeyVal := none
  home : Nat := 3
  opq : Bool := false
  tbl : Bool := false
  use : Option Use := none
  walked : List WalkEntry := []
deriving DecidableEq, Repr, Inhabited

/-- An entry of a remap filter (11_page R225): the stack of its translation unit, the physical unit, the context's ID, the leader's virtual unit
and those of the followers that have been redirected. -/
structure Remap where
  stack : Nat
  unit : Nat
  id : Nat
  leader : Nat
  followers : List Nat := []
deriving DecidableEq, Repr, Inhabited

/-- A line that an L1 or an LLC slice holds (08_memory R170, R171): context ID and virtual line number, the key of its first byte, the 128-byte
sectors held and those dirty; of an L1 whether it owns the line, of a slice the way that it lies in, whether it takes half of it, and whether its page is
of class 3, whose lines leave first (R169). -/
structure Line where
  id : Nat
  no : Nat
  key : Key
  held : BitVec 2 := 0
  dirty : BitVec 2 := 0
  own : Bool := false
  way : Nat := 0
  half : Bool := false
  low : Bool := false
deriving DecidableEq, Repr, Inhabited

/-- The caches of device memory (R169-R171): the L1 of each core, the lines of each LLC slice, the counters of R173 by context ID, unit (0-31 a slice,
64 and above the L1 of a core) and number, what HBM holds of each sector that is dirty in a cache, the number of the next replacement, and the
page-table entries that the translation and walk caches hold (11_page R215). `hot`: of each hot-row controller the rows that it holds, the newest first, by
context ID, table, row and bytes (17_piers R365). -/
structure Caches where
  l1 : Map Nat (List Line) := []
  llc : Map Nat (List Line) := []
  count : Map (Nat × Nat × Nat) Nat := []
  below : Map Nat (List Byte × Option KeyVal) := []
  turn : Nat := 0
  walks : List WalkEntry := []
  hot : Map Nat (List (Nat × Nat × Nat × Nat)) := []
deriving DecidableEq, Repr, Inhabited

/-- A tload whose pages have translated and whose bytes have not all been read (05_kernel R136): the step and slot that issued it, its first
step and count, where its bytes lie, and its place in the order of issue. -/
structure TableLoad where
  step : Word
  wslot : Nat
  first : Nat
  count : Nat
  src : List (Loc × Nat × Nat)
  order : Nat
deriving DecidableEq, Repr, Inhabited

/-- A write of a vector register: the register, the width of its elements, the bits of the elements that it reached, and what the register held and
whether it was live before. -/
structure VPut where
  reg : Nat
  w : Nat
  mask : BitVec 4096
  old : BitVec 4096
  live : Bool
deriving DecidableEq, Repr, Inhabited

/-- A write, or a last-use mark, of VA or VB on the registers that they share, its number among those of its engine (13_vector R271). -/
structure VNote where
  eng : Nat
  no : Nat
  mark : Bool
  put : VPut
deriving DecidableEq, Repr, Inhabited

/-- A core (R15, and the rule of each field in INVENTORY.md). A weight is 64 bits: its code, the type code and microscaling flag it was
loaded under, and its scale (14_matrix R293). `failing`: a lasting fault that waits for the end of a qcommit (07_group R161) or for the restore of a core that is being saved (19_faults R408). -/
structure Core where
  slot : Option Nat := none
  group : Option Nat := none
  rank : Nat := 0
  kern : Option Image := none
  resident : Option (Nat × Nat) := none
  hand : Option Image := none
  trec : TrapRec := {}
  wdog : BitVec 32 := 0
  bank : Option Bank := none
  evt : BitVec 4 := 0
  cstep : Nat := 0
  cwait : Nat := 0
  ctrap : Nat := 0
  msel : BitVec 6 := 0
  tokQ : Map Nat TokQ := []
  pool : Nat := 64
  stuckAt : Option Nat := none
  sem : Map Nat (BitVec 32) := []
  vreg : Map Nat (BitVec 4096) := []
  live : Map Nat Bool := []
  vlog : List VNote := []
  vcount : Nat × Nat := (0, 0)
  semSeen : Map Nat (Nat × Nat) := []
  tbl : Map (Nat × Nat) StepWords := []
  tloads : Map Nat TableLoad := []
  acc : Map (Nat × Nat) (BitVec 2048) := []
  w : Map Nat (BitVec 4096) := []
  wbit : Map Nat (BitVec 64) := []
  wfmt : Nat := 1
  wmx : Nat := 0
  wload : Option WLoad := none
  wreload : Bool := false
  md : Map Nat (BitVec 256) := []
  mrowp : Word := 0
  opened : Bool := false
  nidem : Bool := false
  tile : Nat := 0
  cbuf : List Deferred := []
  committing : Bool := false
  failing : Option ErrorReport := none
  win : List WinPut := []
  putNum : Nat := 0
  perr : Bool := false
  nacks : Nat := 0
  answers : Map Nat Bool := []
deriving DecidableEq, Repr, Inhabited

/-- Landing progress of one receiver of a copy: the vault it lands in (for an fcpym), the next position to land. -/
structure Receiver where
  vault : Option Nat
  pos : Nat
deriving DecidableEq, Repr, Inhabited

/-- A chunk whose source has been read and that waits to land (15_ferry R317): first position and bytes; of a copy also where it lands at each
receiver, as it was translated at its issue (11_page R228), its number in the order of issue, and the units through which it was translated:
virtual and physical, and whether redirected. -/
structure Chunk where
  pos : Nat
  bytes : List Byte
  target : List Loc := []
  order : Nat := 0
  units : List (Nat × Nat × Bool) := []
deriving DecidableEq, Repr, Inhabited

/-- The rows that a grow copies (17_piers R370): its table, its index array, and the index it read last with its place. -/
structure RowSource where
  table : Nat
  idx : Nat
  i64 : Bool
  rowb : Nat
  cur : Option (Nat × Int) := none
deriving DecidableEq, Repr, Inhabited

/-- What a copy order does with its source (R328; 17_piers R370). -/
inductive CopyKind where
  | plain | zero | multicast
  | rows (r : RowSource)
deriving DecidableEq, Repr, Inhabited

/-- A ferry copy (15_ferry R314, R315): its descriptor as it stood at issue, who issued it, and how far it is. -/
structure Copy where
  kind : CopyKind
  desc : BitVec 512
  oc : Nat
  slot : Nat
  who : Agent
  step : Word
  wslot : Nat
  order : Nat
  rpos : Nat := 0
  chunks : List Chunk := []
  recv : List Receiver := []
  snap : Map Key Byte := []
deriving DecidableEq, Repr, Inhabited

/-- A bit-serial transfer (16_bitserial R350-R353): direction, address, container bits, the field and lanes of its transfer word, bytes;
the segment and plane it stands at, what it has read of them, and how many bytes have landed. -/
structure Transfer where
  out : Bool
  addr : Nat
  z : Nat
  sx : Bool
  field : Nat
  width : Nat
  first : Nat
  count : Nat
  len : Nat
  slot : Nat
  core : Nat
  step : Word
  wslot : Nat
  order : Nat
  seg : Nat := 0
  plane : Nat := 0
  landed : Nat := 0
  buf : Map Nat Nat := []
  snap : Map Key Byte := []
deriving DecidableEq, Repr, Inhabited

/-- A crossing operation (18_link R387-R395): its form, the bytes of its command block and where they lie (of xsig its two operands), the
wall time of its issue; how many bytes it has read or asked for, what has come and not landed, how many have landed; of an xa2a its peers, and
for each the bytes gone and to go, and the bytes come and to come; the status that it will end with, the value that a far atomic returns, and
the rows of tables as they stood before a commit. -/
structure Crossing where
  fn : Nat
  block : List Byte := []
  addr : Word := 0
  value : Word := 0
  slot : Nat
  core : Nat
  step : Word
  wslot : Nat
  order : Nat
  issued : Nat
  sent : Nat := 0
  chunks : List Chunk := []
  moved : Nat := 0
  peers : List Nat := []
  out : Map Nat (Nat × Nat) := []
  came : Map Nat (Nat × Nat) := []
  status : Option Nat := none
  result : Word := 0
  snap : Map Key Byte := []
deriving DecidableEq, Repr, Inhabited

/-- An embedding command (17_piers R367-R374): its form, the bytes of its command block and of its optimiser descriptor, of scommit its
table and step number, how many bags have been published, and whether the commit waits for the buddy module. -/
structure Embedding where
  fn : Nat
  block : List Byte := []
  opt : List Byte := []
  table : Nat := 0
  value : Nat := 0
  slot : Nat
  core : Nat
  step : Word
  wslot : Nat
  order : Nat
  pos : Nat := 0
  waitAck : Bool := false
  snap : Map Key Byte := []
deriving DecidableEq, Repr, Inhabited

/-- A pier stream as its tag keeps it (17_piers R356, R357): where it runs, and at its halt its s1 and what UP held. -/
structure Fork where
  pier : Nat
  k : Nat
  order : Nat
  ended : Bool := false
  s1 : Word := 0
  up : Option Word := none
deriving DecidableEq, Repr, Inhabited

/-- The operation a tag stands for (09_ordering R190). -/
inductive Op where
  | copy (c : Copy)
  | transfer (t : Transfer)
  | fork (f : Fork)
  | crossing (x : Crossing)
  | embedding (e : Embedding)
deriving DecidableEq, Repr, Inhabited

/-- States of a tag (15_ferry R319). -/
inductive TagState where
  | idle | landing | frozen | cancelled | landed
deriving DecidableEq, Repr, Inhabited

/-- A copy tag (R319, R320): the watermark register, the status of a crossing operation (18_link R389), the operation, the
ranges of a cancelled box that a later copy has landed (R323), and a tag lost from a loaded image (04_context R110). -/
structure Tag where
  addr : Nat := 0
  st : TagState := .idle
  rd : Bool := true
  rep : Bool := true
  qf : Bool := false
  trp : Bool := false
  xst : Nat := 0
  lost : Bool := false
  op : Option Op := none
  healed : List (Nat × Nat) := []
deriving DecidableEq, Repr, Inhabited

/-- A write held at its home behind a watermark (09_ordering R194), with the ordering classes that it carries (R181); `lines`: the lines that its core
asks to own, whose box bytes hold it back too (15_ferry R325); `owned`: its writer still stands, so that its trap can reach it. -/
structure HeldWrite where
  who : Agent
  slot : Nat
  addr : Nat
  bytes : List Byte
  step : Word
  wslot : Nat
  classes : BitVec 16
  order : Nat
  lines : List Nat := []
  owned : Bool := true
deriving DecidableEq, Repr, Inhabited

/-- States of a queue (06_queue R141, R142). -/
inductive QState where
  | idle | active | blocked | halted | drained
deriving DecidableEq, Repr, Inhabited

/-- A queue of a context (R141), the readiness and the level of its head card (R140, R143: `rdyAt` and `rdyClk` are the wall time and the clock at
which it became ready), and for each sender the number of the put it must see next after a drop (R146). -/
structure Queue where
  kind : Nat := 0
  lsize : Nat := 0
  addr : Nat := 0
  head : Nat := 0
  count : Nat := 0
  cmd : Nat := 0
  st : QState := .idle
  cerr : Bool := false
  sov : Bool := false
  err : Nat := 0
  done : BitVec 32 := 0
  rdy : Bool := false
  rdyAt : Nat := 0
  rdyClk : Nat := 0
  rdyNo : Nat := 0
  raised : Nat := 0
  await : List (Option Nat × Nat) := []
deriving DecidableEq, Repr, Inhabited

/-- States of a context (04_context R94, R96). -/
inductive CtxState where
  | free | allocated | ready | running | suspended | faulted | tornDown
deriving DecidableEq, Repr, Inhabited

/-- States of a group (07_group R150). -/
inductive GState where
  | forming | running | draining | retired
deriving DecidableEq, Repr, Inhabited

/-- A group (07_group R150-R159; 10_barrier R199): `members` are core numbers in rank order; `lost` the ranks whose core has failed and that
no core has taken (R159); `rdyNo` the number that its card's readiness took (06_queue R143). -/
structure Group where
  st : GState := .forming
  slot : Nat := 0
  q : Nat := 0
  card : List Byte := []
  size : Nat := 1
  tiles : Nat := 0
  members : List Nat := []
  untaken : Nat := 0
  committed : Nat := 0
  cardDone : Bool := false
  halted : List Nat := []
  phase : BitVec 32 := 0
  arrived : List Nat := []
  deques : Map Nat (List TileRun) := []
  vimg : Option Verified := none
  saved : Bool := false
  lost : List Nat := []
  rdyNo : Nat := 0
deriving DecidableEq, Repr, Inhabited

/-- A command of a claim as its step issued it (16_bitserial R346-R348): the form's number and low five bits, its operand word, the
constant, and the core. -/
structure BitCmd where
  fn : Nat
  imm : Nat
  opw : Word
  konst : Word
  core : Nat
deriving DecidableEq, Repr, Inhabited

/-- An entry of the command queue: a command, or a transfer that has not started (R343). -/
inductive ClaimEntry where
  | cmd (c : BitCmd)
  | transfer (t : TagRef)
deriving DecidableEq, Repr, Inhabited

/-- A claim of compute ways (R338, R343): slices and ways, its planes (plane p is a number whose bit l is lane l), the command queue, the
transfers that have started and still read or write planes, whether the switch to compute mode has ended, whether a bsrel has marked it, and
whether its ways have been spilled (04_context R105), and the ways that it has taken in each slice. `no` tells a claim from a later one (R354). -/
structure Claim where
  no : Nat := 0
  slices : BitVec 32
  ways : Nat
  planes : Map Nat Nat := []
  queue : List ClaimEntry := []
  pending : List TagRef := []
  ready : Bool := false
  releasing : Bool := false
  spilled : Bool := false
  place : Map Nat (List Nat) := []
deriving DecidableEq, Repr, Inhabited

/-- A completion record that waits for room in the completion area (06_queue R149; 18_link R382). -/
structure CompRec where
  bytes : List Byte
  vector : Nat
deriving DecidableEq, Repr, Inhabited

/-- A sketch of a hot-row controller (17_piers R366) is a count per (controller, table slot, row of the sketch, column). -/
abbrev Sketch := Map (Nat × Nat × Nat × Nat) Nat

/-- What supds have submitted to the current step of a table (17_piers R372): the descriptor and the exponent that its first supd fixed, and
the pairs of a row and its gradient's bytes. -/
structure Submitted where
  opt : List Byte
  e : Nat
  pairs : List (Nat × List Byte) := []
deriving DecidableEq, Repr, Inhabited

/-- A context window register without a meaning of its own to the machine is kept as written. -/
structure Ctx where
  st : CtxState := .free
  qs : Bool := false
  id : Nat := 0
  cmd : Nat := 0
  cmdId : Nat := 0
  err : Nat := 0
  done : Bool := true
  troot : Nat := 0
  handler : Nat := 0
  savebase : Nat := 0
  waysave : Word := 0
  grantv : BitVec 32 := 0
  granth : Word := 0
  grantw : Word := 0
  grantl : BitVec 16 := 0xFFFF
  sempart : Word := 0
  qmap : Nat := 0
  quantum : BitVec 32 := 0
  qbackoff : BitVec 16 := 10
  deadchk : Bool := false
  trv : Word := 0
  srseed : Word := 0
  nftrap : BitVec 2 := 0
  xjob : Word := 0
  vseg : Map Nat Word := []
  queues : Map Nat Queue := []
  fstopPhase : BitVec 32 := 0
  fstopArr : List Nat := []
  fstopN : Nat := 0
  tdir : Word := 0
  hrthr : BitVec 16 := 0
  dir : Map Nat (List Byte) := []
  sketch : Sketch := []
  steps : Map Nat Submitted := []
  claim : Option Claim := none
  cbase : Word := 0
  csize : Word := 0
  chead : Nat := 0
  ctail : Nat := 0
  cwaiting : List CompRec := []
  ports : Map Nat (List Byte) := []
  prefused : Bool := false
  pnacks : Nat := 0
  kept : List (Nat × List Byte) := []
  hwin : List WinPut := []
  hputNum : Nat := 0
  twsrc : Word := 0
  twdst : Word := 0
  twlen : Word := 0
  twst : Word := 0
  dxhost : Word := 0
  dxpa : Word := 0
  dxlen : Word := 0
  dxctl : Word := 0
  sliceStart : Nat := 0
  sliceWaiters : List Nat := []
  preempting : Option CtxState := none
  escalation : Option (List Word) := none
  teardownHeld : Bool := false
deriving DecidableEq, Repr, Inhabited

/-- A pooling unit (17_piers R359, R360): its parameter block, its address streams (base and element-size code of streams 0-3), the length
of the chain that it heads, and the stream slot that holds it. -/
structure PoolUnit where
  block : BitVec 512 := 0
  streams : Map Nat (Nat × Nat) := []
  chain : Nat := 1
  holder : Option Nat := none
deriving DecidableEq, Repr, Inhabited

/-- A stream slot of a pier (17_piers R355-R358): its forker, tag, context, the mailbox words, and the governing image. -/
structure Stream where
  used : Bool := false
  core : Nat := 0
  tag : Nat := 0
  slot : Nat := 0
  image : Image := {}
  down : Option Word := none
  up : Option Word := none
deriving DecidableEq, Repr, Inhabited

/-- The card of a copy sequencer (06_queue R148); `loaded`: its descriptors have been read from ARGS. -/
structure CopySeq where
  tbl : Map Nat StepWords := []
  busy : Bool := false
  loaded : Bool := false
  slot : Nat := 0
  q : Nat := 0
  card : List Byte := []
  halted : Bool := false
deriving DecidableEq, Repr, Inhabited

/-- A card that runs or waits to complete (06_queue R149): its group or copy sequencer, and its status byte. -/
structure Finishing where
  slot : Nat
  q : Nat
  card : List Byte
  status : Nat
  group : Option Nat := none
  cs : Option Nat := none
  cores : List Nat := []
  order : Nat := 0
deriving DecidableEq, Repr, Inhabited

/-- A put on its way to a queue, or its answer on its way back (R145, R146): `sender` none is the host adapter. -/
structure Flight where
  sender : Option Nat
  slot : Nat
  num : Nat
  q : Nat
  card : List Byte
  answer : Option Nat := none
deriving DecidableEq, Repr, Inhabited

/-- The dispatcher (05_kernel R114; 06_queue R143, R144). A new part has all eight of its spare cores left (DESIGN CHOICE, log 110). -/
structure Disp where
  images : List (Nat × Verified) := []
  rrCompute : Map Nat Nat := []
  rrCopy : Map Nat Nat := []
  readyNo : Nat := 0
  offered : List (Nat × Nat) := []
  forming : Option Nat := none
  reserved : Map Nat Nat := []
  unavailable : List Nat := []
  spares : Nat := 8
  groupNo : Nat := 0
  flights : List Flight := []
  finishing : List Finishing := []
deriving DecidableEq, Repr, Inhabited

/-- Main-side states (22_bringup R419). -/
inductive Main where
  | off | boot | ready | failed
deriving DecidableEq, Repr, Inhabited

/-- A key slot that holds a key. -/
structure KeySlot where
  owner : Nat
  val : KeyVal
deriving DecidableEq, Repr, Inhabited

/-- An error under test (`stage` 0) or repair (1), with the wall time of its detection (19_faults R406); `logged`: its record has been made; `also`: the
errors that the self-test itself met, each with its time and whether its record has been made; `done`: the part has its spare already. -/
structure ErrorCase where
  rep : ErrorReport
  since : Nat
  stage : Nat := 0
  logged : Bool := false
  also : List (ErrorReport × Nat × Bool) := []
  done : Bool := false
deriving DecidableEq, Repr, Inhabited

/-- The management side and the module's own state (01_module, 22_bringup, 19_faults). `activeB`: the running bank is B, `nextB`: the next boot
begins with B, `staged`: the bank that does not run has been verified, `nextFw` and `fwGap`: how far its bytes have come, and whether with a
gap; `m1` is empty until it is set. `throttleAt`: who set the throttle step last (true: the power controller), and at which clock. `irqs` are
the interrupt vectors raised, `replies` the answers on the side-band port, `waiting` the messages that wait behind an ATTEST (22_bringup R420, R427), `mctp`
the MCTP control messages that have come (18_link R383). `repairs`: the locations repaired in the field (R426), `unrepaired` those whose lasting fault no
spare was left for (19_faults R406). -/
structure Mgmt where
  main : Main := .off
  keys : Map Nat KeySlot := []
  kek : Option Nat := none
  hbmSplit : Nat := 128
  devid : Nat := 0
  devidSet : Bool := false
  bankA : List Byte := []
  bankB : List Byte := []
  activeB : Bool := false
  nextB : Bool := false
  staged : Bool := false
  nextFw : Nat := 0
  fwGap : Bool := false
  svnMin : Nat := 0
  bootSvn : Nat := 0
  bootVer : Nat := 0
  bootCount : Nat := 0
  m0 : List Byte := []
  m1 : List Byte := []
  m2 : List Byte := []
  m3 : List Byte := []
  dbg : Bool := false
  nonces : List (List Byte) := []
  waiting : List (Nat × List Byte) := []
  mctp : List (List Byte) := []
  replies : List (List Byte) := []
  throttle : Nat := 0
  throttleAt : Option (Bool × Nat) := none
  powerLimit : Nat := 2000
  degraded : Bool := false
  log : List (List Byte) := []
  cases : List ErrorCase := []
  history : List (ErrorReport × Nat) := []
  repairs : List (Nat × Nat × Nat) := []
  unrepaired : List (Nat × Nat × Nat) := []
  irqs : List Nat := []
deriving DecidableEq, Repr, Inhabited

/-- Bytes of another module's xput or xget under way here (18_link R390): the sending module and its number of the operation, whether it is
a get, the context slot it acts on, the first address and the bytes, how many have landed or been read, and the rows of tables as they stood
before a commit. -/
structure Inbound where
  dev : Nat
  seq : Nat
  get : Bool
  slot : Nat
  addr : Nat
  len : Nat
  pos : Nat
  order : Nat
  snap : Map Key Byte := []
deriving DecidableEq, Repr, Inhabited

/-- The Fenvar link and the Ethernet ports (18_link R375-R378, R385): `packets` are those sent and not acknowledged, with the port and the
destination module; `inbound` the operations of other modules under way here, `postings` the all-to-all postings that have come (key, module,
SEQ), `performed` the operations of other modules that have ended here (module, number); `out` are the flits sent; `txBuf` is the replay buffer, `txWait` the payloads that wait for room in it; `hostRead` is what the host's last read returned; `pierSpares`: the spare lanes that
each pier link has used, of two (01_module R19), none on a new part (DESIGN CHOICE, log 110). -/
structure Link where
  up : Bool := false
  err : Bool := false
  lanes : Nat := 8
  spare : Bool := true
  major : Nat := 0
  minor : Nat := 0
  feat : Word := 0
  rxSeq : Nat := 0
  txSeq : Nat := 0
  txBuf : List (Nat × List Byte) := []
  txWait : List (List Byte) := []
  credits : Nat := 0
  out : List (List Byte) := []
  hostRead : Nat := 0
  inbox : List (List Byte) := []
  ports : BitVec 8 := 0xFF
  pierSpares : Map Nat Nat := []
  packets : List (Nat × Nat × Packet) := []
  inbound : List Inbound := []
  postings : List (Nat × Nat × Nat) := []
  performed : List (Nat × Nat) := []
deriving DecidableEq, Repr, Inhabited

/-- How the exec of one slot ended. -/
inductive Out where
  | done | waiting | trapped
deriving DecidableEq, Repr, Inhabited

/-- A control transfer a slot takes (03_encoding R67). -/
inductive Xfer where
  | jump (target : Word)
  | skip (last : Word)
  | stop
  | leave
deriving DecidableEq, Repr, Inhabited

/-- The step being issued (03_encoding R66): who issues it, which slot acts, where it stands, its words; the sequencer, the registers of the vector
engines with their liveness, descriptors and accumulators as they stood before the step; how the slot ended, and what it takes with it. `startOp`:
the point of the order of issue at which the step began; `core`: the core whose L1 serves it; `nft`: NFTRAP as the step began (12_scalar R249);
`seed` and `deadchk`: SRSEED and DEADCHK then; `raised`: flags that its orders have raised (02_numbers R49); `retest`: a chip semaphore has changed
(06_queue R140); `oldCore`: of a step of M the core before it, which a trap of slot 1 brings back (19_faults R398); `stands`: the order of slot 0 acts
outside its sequencer, so that its effect stands when the step is abandoned at slot 1; `takes`: it is a qtake or a qsteal, and `tiles` the group
before and after it (07_group R161). -/
structure Issue where
  who : Agent := .seq 0 0
  slot : Nat := 0
  here : Word := 0
  words : StepWords := {}
  old : Seq := {}
  oldV : Map Nat (BitVec 4096) := []
  oldLive : Map Nat Bool := []
  oldMd : Map Nat (BitVec 256) := []
  oldAcc : Map (Nat × Nat) (BitVec 2048) := []
  out : Out := .done
  keep : Bool := false
  trap : Option Trap := none
  xfer : Option Xfer := none
  lpat : Option (Nat × Nat) := none
  marks : List Nat := []
  wrote : List VPut := []
  pop : Nat := 0
  startOp : Nat := 0
  core : Option Nat := none
  nft : BitVec 2 := 0
  seed : Word := 0
  deadchk : Bool := false
  raised : BitVec 8 := 0
  retest : Bool := false
  oldCore : Option Core := none
  stands : Bool := false
  takes : Bool := false
  tiles : Option (Group × Group) := none
  sends : List (Nat × Nat) := []
  rest : List (Nat × Instr) := []
deriving DecidableEq, Repr, Inhabited

/-- Space of a vault's relief pool that enlarges a ring (10_barrier R213): the context slot, the vault, offset and bytes, the ring's header, and its E,
SLOTS, LSZ and LCAP at the enlargement. -/
structure PoolArea where
  slot : Nat
  vault : Nat
  off : Nat
  size : Nat
  hdr : Key
  e : Nat
  slots : Nat
  cfg : Nat
deriving DecidableEq, Repr, Inhabited

/-- The module. `agenda`, `tick`, `iss`, `parked` and `nextOp` are the model's own (log 2, log 10); every other field is the spec's. -/
structure State where
  agenda : List Turn := []
  tick : Nat := 0
  nextOp : Nat := 0
  clk : Nat := 0
  wall : Nat := 0
  iss : Issue := {}
  parked : Map Agent Issue := []
  mem : List Host.Cell := []
  sect : Map Nat KeyVal := []
  stale : Map Key Byte := []
  heldw : List HeldWrite := []
  rpool : List PoolArea := []
  seqs : Map Agent Seq := []
  tags : Map TagRef Tag := []
  cores : Map Nat Core := []
  ctxs : Map Nat Ctx := []
  streams : Map (Nat × Nat) Stream := []
  units : Map (Nat × Nat) PoolUnit := []
  cseqs : Map Nat CopySeq := []
  groups : Map Nat Group := []
  disp : Disp := {}
  atraps : List AsyncTrap := []
  sems : Map Nat (BitVec 32) := []
  filter : List Remap := []
  caches : Caches := {}
  ringWait : Map Nat Nat := []
  mgmt : Mgmt := {}
  link : Link := {}
deriving DecidableEq, Repr

/-- The machine right after reset: every field as INVENTORY.md lists it. -/
def State.reset : State := {}

end Sys2Proof.Machine
end

