-- ==== Sys2Proof/Machine/Mem.lean ====
section
/-! DEFINITION. Memory as a list of cells in one canonical form (addresses strictly rising, no entry equal to what an unlisted
address reads as), bytes and little-endian values (00_scope R7), and the keys of encrypted sectors (11_page R222). -/

namespace Sys2Proof.Machine

/-- The byte at a key. -/
def Mem.get (m : List Host.Cell) (a : Nat) : Byte :=
  match m with
  | [] => Config.emptyByte
  | (k, b) :: r => if k = a then b else if a < k then Config.emptyByte else Mem.get r a

/-- Memory with the byte at one key replaced; keeps the canonical form. -/
def Mem.put (m : List Host.Cell) (a : Nat) (b : Byte) : List Host.Cell :=
  match m with
  | [] => if b = Config.emptyByte then [] else [(a, b)]
  | (k, c) :: r =>
    if k = a then (if b = Config.emptyByte then r else (a, b) :: r)
    else if a < k then (if b = Config.emptyByte then (k, c) :: r else (a, b) :: (k, c) :: r)
    else (k, c) :: Mem.put r a b

/-- Every key of a list of cells is above `a`. -/
def Mem.above (a : Nat) (m : List Host.Cell) : Bool := m.all fun c => decide (a < c.1)

/-- The canonical form: keys strictly rising, no entry equal to the unlisted byte. -/
def Mem.wf : List Host.Cell → Bool
  | [] => true
  | (k, b) :: r => !decide (b = Config.emptyByte) && Mem.above k r && Mem.wf r

/-- A value from its bytes, the lowest address first (R7). -/
def leNat : List Byte → Nat
  | [] => 0
  | b :: r => b.toNat + 256 * leNat r

/-- A little-endian field of `n` bytes at an offset. -/
def fieldAt (b : List Byte) (off n : Nat) : Nat := leNat ((b.drop off).take n)

/-- The low `n` bytes of a value, the lowest address first (R7). -/
def leBytes : Nat → Nat → List Byte
  | 0, _ => []
  | n + 1, v => BitVec.ofNat 8 v :: leBytes n (v / 256)

/-- The 64 bytes of a key as a number. -/
def KeyVal.num : KeyVal → Nat
  | .module n => Config.moduleKey n
  | .loaded k => k

/-- The key a sector was last written under; none when nothing has written it. -/
def State.sectorKey (s : State) (sec : Nat) : Option KeyVal :=
  match s.sect.find? (fun e => e.1 == sec) with
  | some e => some e.2
  | none => none

/-- The bytes of a sector. -/
def Mem.sector (m : List Host.Cell) (sec : Nat) : List Byte := (List.range 128).map fun i => Mem.get m (sec * 128 + i)

/-- HOME : pa[47:7] of a sector (R222). -/
def dataUnit (sec : Nat) : Nat := sec * 128 / Config.pierBase * 2 ^ 41 + sec % 2 ^ 41

/-- Bytes of a sector stored under one key, none where nothing has written it, as an access under another reads them. -/
def plainUnder (k' : Option KeyVal) (k : KeyVal) (sec : Nat) (bs : List Byte) : List Byte :=
  match k' with
  | none => bs
  | some kv => if kv = k then bs else recrypt kv.num k.num (dataUnit sec) bs

/-- The byte at a key of memory as an access under `k` reads it (R222): stored under the same key it reads plain. -/
def State.peek (s : State) (k : Option KeyVal) (a : Nat) : Byte :=
  match k with
  | none => Mem.get s.mem a
  | some kv =>
    match s.sectorKey (a / 128) with
    | none => Mem.get s.mem a
    | some kv' => if kv' = kv then Mem.get s.mem a else (recrypt kv'.num kv.num (dataUnit (a / 128)) (Mem.sector s.mem (a / 128))).getD (a % 128) 0

/-- Bytes put into memory from an address upwards. -/
def Mem.puts (m : List Host.Cell) (a : Nat) : List Byte → List Host.Cell
  | [] => m
  | b :: r => Mem.puts (Mem.put m a b) (a + 1) r

/-- The bytes of one sector rewritten as an access under the new key reads them. -/
def rekey (m : List Host.Cell) (k' k : KeyVal) (sec : Nat) : List Host.Cell :=
  Mem.puts m (sec * 128) (recrypt k'.num k.num (dataUnit sec) (Mem.sector m sec))

/-- Write one byte at a key of memory under `k`: the rest of its sector is kept as the new key reads it (R222). -/
def State.poke (s : State) (k : Option KeyVal) (a : Nat) (b : Byte) : State :=
  match k with
  | none => { s with mem := Mem.put s.mem a b }
  | some kv =>
    match s.sectorKey (a / 128) with
    | some kv' =>
      if kv' = kv then { s with mem := Mem.put s.mem a b }
      else { s with mem := Mem.put (rekey s.mem kv' kv (a / 128)) a b, sect := s.sect.set (a / 128) kv }
    | none => { s with mem := Mem.put s.mem a b, sect := s.sect.set (a / 128) kv }

/-- `n` bytes from a key of memory. -/
def State.peeks (s : State) (k : Option KeyVal) (a n : Nat) : List Byte := (List.range n).map fun i => s.peek k (a + i)

/-- Bytes written from a key of memory upwards. -/
def State.pokes (s : State) (k : Option KeyVal) (a : Nat) : List Byte → State
  | [] => s
  | b :: r => State.pokes (s.poke k a b) k (a + 1) r

/-- A little-endian value of `n` bytes. -/
def State.peekNat (s : State) (k : Option KeyVal) (a n : Nat) : Nat := leNat (s.peeks k a n)

/-- A little-endian value of `n` bytes written. -/
def State.pokeNat (s : State) (k : Option KeyVal) (a n v : Nat) : State := s.pokes k a (leBytes n v)

end Sys2Proof.Machine
end

