-- ==== Sys2Proof/Machine/Xlate.lean ====
section
/-! DEFINITION. Addresses (08_memory R162-R168) and translation (11_page R215-R228): the walk, the rights, owners and keys, and
the remap filter. -/

namespace Sys2Proof.Machine

/-- Codes of the trap causes (19_faults R397). -/
def Cause.code : Cause → Nat
  | .illegalOrder => 1 | .deadRead => 2 | .predOverflow => 3 | .predUnderflow => 4 | .deadlock => 5 | .misalignment => 6
  | .notPresent => 7 | .remoteHome => 8 | .ownerMismatch => 9 | .permission => 10 | .opaquePage => 11 | .nonMonotone => 12
  | .abortedLanding => 13 | .nonFinite => 14 | .divideByZero => 15 | .semOverflow => 16 | .claimViolation => 17
  | .softwareTrap => 18 | .breakpoint => 19 | .watchdog => 20 | .uncorrectable => 21

/-- A trap of a cause with TINFO and TADDR as numbers. -/
def mkTrap (c : Cause) (info : Nat := 0) (addr : Nat := 0) : Trap := { cause := c, info := .ofNat 64 info, addr := .ofNat 64 addr }

/-- The context in a slot. -/
def State.ctx (s : State) (c : Nat) : Ctx := s.ctxs.get {} c

/-- The core of a number. -/
def State.core (s : State) (c : Nat) : Core := s.cores.get {} c

/-- Regions of the virtual address space (R162). -/
inductive Region where
  | null | vault | sem | translated | outside
deriving DecidableEq, Repr

/-- First address of the vault window (R162). -/
def vaultWindow : Nat := 0x1000000000
/-- First address of the semaphore window (R162). -/
def semWindow : Nat := 0x1FFFFFFFFFF0000

/-- The region of an address (R162). -/
def regionOf (va : Nat) : Region :=
  if 2 ^ 57 ≤ va then .outside
  else if va < 0x10000 then .null
  else if vaultWindow ≤ va ∧ va < vaultWindow + 0x40000000 then .vault
  else if semWindow ≤ va then .sem
  else .translated

/-- What an access does, for the rights it needs (R221); a pier stream's store may write a table region of its own pier (17_piers
R355). -/
inductive Acc where
  | read | write | exec | atomic
  | pierWrite (p : Nat)
deriving DecidableEq, Repr

/-- The first byte above device memory (R174, R220). -/
def State.deviceTop (s : State) : Nat := s.mgmt.hbmSplit * 2 ^ 30

/-- The levels of a walk: low index bit, index width, size of the next table (R217). -/
def walkLevels : List (Nat × Nat × Nat) := [(44, 13, 2 ^ 17), (30, 14, 2 ^ 12), (21, 9, 2 ^ 8), (16, 5, 1)]

/-- A not-present fault at a level: 1 invalid, 2 malformed, 3 key slot empty (R224). -/
def absent (why level va : Nat) : Trap := mkTrap .notPresent (why + level * 256) va

/-- The key of slot 0 (R216). -/
def State.walkKey (s : State) : KeyVal :=
  match s.mgmt.keys.find? fun k => k.1 == 0 with
  | some e => e.2.val
  | none => .module 0

/-- A little-endian value that a page walk reads under key slot 0 (R216): it bypasses the caches, so of a sector that is dirty in one it reads what
HBM holds. -/
def State.walkNat (s : State) (a n : Nat) : Nat :=
  leNat ((List.range n).map fun i =>
    match s.caches.below.find? fun e => e.1 == (a + i) / 128 with
    | some (sec, bs, k) => (plainUnder k s.walkKey sec bs).getD ((a + i) % 128) 0
    | none => s.peek (some s.walkKey) (a + i))

/-- The entry of a level for a context: what memory holds, or what a translation or walk cache still holds of a valid entry that has changed since;
which of the two is free until a pinv, READY or RESUME has taken it out (R215, R216, R233; log 64). -/
def State.entryAt (s : State) (id level no a : Nat) : Nat :=
  let m := s.walkNat a 8
  match s.caches.walks.find? fun w => w.id == id && w.level == level && w.no == no with
  | some w => if w.e = m then m else if Config.keepsEntry s.clk level no then w.e else m
  | none => m

/-- The walk of a context from one table down (R216-R220): the valid entries that it meets, and the leaf entry with its level. -/
def walk (s : State) (id va : Nat) : List (Nat × Nat × Nat) → Nat → Nat → List WalkEntry × Except Trap (Nat × Nat)
  | [], level, _ => ([], .error (absent 2 level va))
  | (lo, width, nextSize) :: rest, level, base =>
    let no := va / 2 ^ lo
    let e := s.entryAt id level no (base + 8 * (no % 2 ^ width))
    let w : WalkEntry := { id := id, level := level, no := no, e := e }
    if !bit e 0 then ([], .error (absent 1 level va))
    else if bit e 1 then ([w], if level = 0 then .error (absent 2 level va) else .ok (e, level))
    else
      let next := bits e 47 8 * 256
      if rest.isEmpty || bits e 7 2 != 0 || bits e 63 48 != 0 || next % nextSize != 0 || s.deviceTop ≤ next then
        ([w], .error (absent 2 level va))
      else
        let r := walk s id va rest (level + 1) next
        (w :: r.1, r.2)

/-- The walk of an address of the context in a slot. -/
def State.walkOf (s : State) (c va : Nat) : List WalkEntry × Except Trap (Nat × Nat) := walk s (s.ctx c).id va walkLevels 0 (s.ctx c).troot

/-- Bytes of a page whose leaf stands at a level (R217). -/
def pageSize (level : Nat) : Nat := if level = 1 then 2 ^ 30 else if level = 2 then 2 ^ 21 else 2 ^ 16

/-- Whether a leaf entry is malformed (R220). -/
def leafMalformed (s : State) (va e level : Nat) : Bool :=
  let frame := bits e 63 32
  let home := bits e 11 10
  let pa := frame * 2 ^ 16
  pa % pageSize level != 0 ||
  (home == 0 && s.deviceTop ≤ pa) ||
  (home == 0 && level == 3 && frame % 8 != bits va 18 16) ||
  (home == 1 && bits pa 47 41 != 0) ||
  (bit e 6 != (home == 1)) ||
  (bits e 31 24 == 0 && home != 2)

/-- The right an access lacks on a leaf, as the TINFO of the permission fault (R221, R175). -/
def missingRight (acc : Acc) (e : Nat) : Option Nat :=
  match acc with
  | .read => if bit e 2 then none else some 18
  | .write => if bit e 6 then some 12 else if bit e 3 then none else some 19
  | .exec => if bit e 4 then none else some 20
  | .pierWrite p => if bit e 6 && bits e 56 54 != p then some 12 else if bit e 3 then none else some 19
  | .atomic => if bit e 6 then some 12 else if bit e 2 && bit e 3 && bit e 5 then none else some 21

/-- StackOf(va) (R168). -/
def stackOf (va : Nat) : Nat := bits va 10 8 ^^^ bits va 18 16

/-- The remap-filter entry of a physical unit at the translation unit of a stack (R225). -/
def State.leaderOf (s : State) (stack unit : Nat) : Option Remap := s.filter.find? fun f => f.stack == stack && f.unit == unit

/-- A right that lets an access write. -/
def Acc.writes : Acc → Bool
  | .write | .atomic | .pierWrite _ => true
  | _ => false

/-- Translate one byte of the translated space for a context: the faults of R224 in their order, that of a table's page before that of an opaque page
(log 117). -/
def translate (s : State) (c va : Nat) (acc : Acc) (opaqueOk : Bool) : Except Trap Loc := do
  let x := s.ctx c
  let r := s.walkOf c va
  let (e, level) ← r.2
  if leafMalformed s va e level then throw (absent 2 level va)
  let home := bits e 11 10
  let keyNo := bits e 23 12
  let pa := bits e 63 32 * 2 ^ 16 + va % pageSize level
  match s.mgmt.keys.find? (fun k => k.1 == keyNo) with
  | none => throw (absent 3 level va)
  | some (_, slot) =>
    if home == 3 then throw (mkTrap .remoteHome 0 va)
    match if home == 0 then s.leaderOf (stackOf va) (pa / 65536) else none with
    | some f => if f.id != x.id then throw (mkTrap .ownerMismatch f.id va)
    | none => pure ()
    let owner := bits e 31 24
    if owner != 0 && owner != x.id then throw (mkTrap .ownerMismatch owner va)
    if slot.owner != 0 && slot.owner != x.id then throw (mkTrap .ownerMismatch (slot.owner + 256) va)
    match missingRight acc e with
    | some t => throw (mkTrap .permission t va)
    | none => pure ()
    if bit e 7 && !opaqueOk then throw (mkTrap .opaquePage 1 va)
    return { key := (if home == 0 then 0 else if home == 1 then Config.pierBase else Config.hostBase) + pa,
             enc := if home == 2 then none else some slot.val, home := home, opq := bit e 7, tbl := bit e 6,
             use := if home == 0 then some { id := x.id, unit := pa / 65536, vunit := va / 65536, stack := stackOf va, cls := bits e 9 8,
                                             write := acc.writes } else none,
             walked := r.1 }

/-- Decode a vault-window address (R164): no segment reaches the relief pool and what lies above it. -/
def vaultDecode (s : State) (c va : Nat) : Except Trap Loc :=
  let off := va - vaultWindow
  let q := off / 0x2000000
  let o := off % 0x2000000
  let u := o / 0x10000
  let seg := ((s.ctx c).vseg.get 0 q).toNat
  if !(s.ctx c).grantv.getLsbD q || u < bits seg 8 0 || bits seg 8 0 + bits seg 24 16 ≤ u || 320 ≤ u then
    .error (mkTrap .permission 10 va)
  else .ok { key := Config.vaultBase + off }

/-- Locate one byte of an access (R162): the null page is not present, an address above the space or in the semaphore window is
no plain memory. -/
def locate (s : State) (c va : Nat) (acc : Acc) (opaqueOk : Bool) : Except Trap Loc :=
  match regionOf va with
  | .outside => .error (mkTrap .permission (if acc = .exec then 20 else 13) va)
  | .null => .error (mkTrap .notPresent 1 va)
  | .sem => .error (mkTrap .permission (if acc = .exec then 20 else 5) va)
  | .vault => if acc = .exec then .error (mkTrap .permission 20 va) else vaultDecode s c va
  | .translated => translate s c va acc opaqueOk

/-- The pieces of an access that lie in one 256-byte line each: address and length, in increasing address. Regions, pages, vault segments and the
lines of a stack all begin on lines. -/
def pieces : Nat → Nat → Nat → List (Nat × Nat)
  | 0, _, _ => []
  | fuel + 1, va, n =>
    if n = 0 then []
    else
      let here := min n (256 - va % 256)
      (va, here) :: pieces fuel (va + here) (n - here)

/-- Locate every piece of an access: the trap of the first faulting byte, or where each piece lies (R162, R224). -/
def locateAll (s : State) (c : Nat) (acc : Acc) (opaqueOk : Bool) : List (Nat × Nat) → Except Trap (List (Loc × Nat × Nat))
  | [] => .ok []
  | (va, n) :: r => do
    let l ← locate s c va acc opaqueOk
    let t ← locateAll s c acc opaqueOk r
    return (l, va, n) :: t

/-- The pieces of the bytes [va, va + n). -/
def spanPieces (va n : Nat) : List (Nat × Nat) := pieces (n / 256 + 2) va n

/-- A byte of a located piece as the keel reads it: in a table region, the version before a pier's write that no scommit has
published (08_memory R177). -/
def State.readLoc (s : State) (l : Loc) (i : Nat) : Byte :=
  if l.tbl then s.stale.get (s.peek l.enc (l.key + i)) (l.key + i) else s.peek l.enc (l.key + i)

/-- The bytes of located pieces as their homes hold them: what a pier sees (R177). -/
def State.readHome (s : State) : List (Loc × Nat × Nat) → List Byte
  | [] => []
  | (l, _, n) :: r => s.peeks l.enc l.key n ++ State.readHome s r

/-- The bytes of located pieces as the keel sees them. -/
def State.readPieces (s : State) : List (Loc × Nat × Nat) → List Byte
  | [] => []
  | (l, _, n) :: r => (List.range n).map (s.readLoc l) ++ State.readPieces s r

/-- The keel's view of `n` bytes from a key kept as it stands, before a pier writes them (R177). -/
def State.keepStale (s : State) (l : Loc) (n : Nat) : State :=
  if l.tbl then { s with stale := (List.range n).foldl (fun (m : Map Key Byte) i =>
      if m.has (l.key + i) then m else m.set (l.key + i) (s.peek l.enc (l.key + i))) s.stale }
  else s

/-- Bytes written to located pieces. -/
def State.writePieces (s : State) : List (Loc × Nat × Nat) → List Byte → State
  | [], _ => s
  | (l, _, n) :: r, bs => State.writePieces ((s.keepStale l n).pokes l.enc l.key (bs.take n)) r (bs.drop n)

end Sys2Proof.Machine
end

