-- ==== Sys2Proof/Machine/Cache.lean ====
section
/-! DEFINITION. The caches of device memory: the L1 of each core and the LLC slices (08_memory R168-R173; 01_module R26; 16_bitserial R339), as
the lines that they hold. Memory holds the newest value of every byte, so no class changes a value that a program reads (R169); beside it stands
what HBM holds of each sector that is dirty in a cache, which page walks read (11_page R216). What a slice holds every L1 line of is the model's
choice, as are the set of a line and the line replaced (log 64). -/

namespace Sys2Proof.Machine

/-- SliceOf(va) (R168). -/
def sliceOf (va : Nat) : Nat := bits va 12 8 ^^^ bits va 17 13 ^^^ bits va 22 18 ^^^ bits va 27 23

/-- How many of a line's two sectors a mask names. -/
def sectors (m : BitVec 2) : Nat := m.toNat % 2 + m.toNat / 2

/-- The sectors of its line that the bytes [va, va + n) of one line lie in. -/
def sectorMask (va n : Nat) : BitVec 2 := (if va % 256 < 128 then 1#2 else 0#2) ||| (if 128 < va % 256 + n then 2#2 else 0#2)

/-- The unit of a core's L1 among the counters. -/
def l1Unit (c : Nat) : Nat := 64 + c

/-- A counter of a context raised (R173). -/
def Caches.add (k : Caches) (id unit n v : Nat) : Caches :=
  if v = 0 then k else { k with count := k.count.set (id, unit, n) (min (k.count.get 0 (id, unit, n) + v) (2 ^ 64 - 1)) }

/-- A line by its tag in a list. -/
def lineOf (l : List Line) (id no : Nat) : Option Line := l.find? fun e => e.id == id && e.no == no

/-- The other lines of a list. -/
def withoutLine (l : List Line) (id no : Nat) : List Line := l.filter fun e => !(e.id == id && e.no == no)

/-- The slice of a line. -/
def sliceOfLine (no : Nat) : Nat := sliceOf (no * 256)

/-- A core's L1 without a line, its dirty sectors written back to the home slice (R170). -/
def Caches.writeBack (k : Caches) (c : Nat) (ln : Line) : Caches :=
  if ln.dirty = 0#2 then k
  else
    let j := sliceOfLine ln.no
    ({ k with llc := k.llc.set j ((k.llc.get [] j).map fun (e : Line) =>
        if e.id = ln.id ∧ e.no = ln.no then { e with held := e.held ||| ln.dirty, dirty := e.dirty ||| ln.dirty } else e) }).add
      ln.id (l1Unit c) 5 (sectors ln.dirty)

/-- A line called back by its home from every L1 but one: its dirty sectors are written back; it stays, no longer owned, where `stay` says so. -/
def Caches.recall (k : Caches) (id no : Nat) (but : Option Nat) (stay : Bool) : Caches :=
  k.l1.foldl (fun (t : Caches) (e : Nat × List Line) =>
    if some e.1 = but then t
    else match lineOf e.2 id no with
      | none => t
      | some ln =>
        let u := t.writeBack e.1 ln
        let rest := withoutLine (u.l1.get [] e.1) id no
        { u with l1 := u.l1.set e.1 (if stay then { ln with dirty := 0, own := false } :: rest else rest) }) k

/-- Sectors of a line no longer dirty in any cache: HBM holds what memory holds. -/
def Caches.settled (k : Caches) (ln : Line) (m : BitVec 2) : Caches :=
  { k with below := k.below.filter fun e => !((e.1 == ln.key / 128 && m.getLsbD 0) || (e.1 == ln.key / 128 + 1 && m.getLsbD 1)) }

/-- A line leaves its slice and every L1, its dirty sectors written back to HBM. -/
def Caches.evict (k : Caches) (id no : Nat) : Caches :=
  let j := sliceOfLine no
  let t := k.recall id no none false
  match lineOf (t.llc.get [] j) id no with
  | none => t
  | some ln => (({ t with llc := t.llc.set j (withoutLine (t.llc.get [] j) id no) }).add id j 5 (sectors ln.dirty)).settled ln ln.dirty

/-- Every line that a test names leaves the caches, written back. -/
def Caches.flush (k : Caches) (f : Line → Bool) : Caches :=
  (k.llc.flatMap fun e => e.2.filter f).foldl (fun (t : Caches) ln => t.evict ln.id ln.no) k

/-- The ways of a slice that claims hold (16_bitserial R337, R339). -/
def State.waysTaken (s : State) (j : Nat) : List Nat :=
  s.ctxs.flatMap fun (e : Nat × Ctx) => match e.2.claim with
    | some m => m.place.get [] j
    | none => []

/-- The ways of a slice in which a context's lines can be placed (R171). -/
def State.waysFor (s : State) (id j : Nat) : List Nat :=
  let mask := match s.ctxs.find? fun (e : Nat × Ctx) => e.2.id == id with
    | some e => e.2.grantl
    | none => 0
  (List.range 16).filter fun w => mask.getLsbD w && !(s.waysTaken j).contains w

/-- The set of a line in its slice, and in an L1. -/
def llcSet (no : Nat) : Nat := no / 32 % 2048
def l1Set (no : Nat) : Nat := no % 128

/-- How much of a way's line in one set is taken, in halves. -/
def occupied (l : List Line) (set way : Nat) : Nat :=
  (l.filter fun e => llcSet e.no == set && e.way == way).foldl (fun n e => n + if e.half then 1 else 2) 0

/-- A line put into a way of its slice, whose other lines in the set leave where they leave no room. -/
def Caches.place (k : Caches) (ln : Line) (way : Nat) : Caches :=
  let j := sliceOfLine ln.no
  let need := if ln.half then 1 else 2
  let t := if occupied (k.llc.get [] j) (llcSet ln.no) way + need ≤ 2 then k
    else ((k.llc.get [] j).filter fun e => llcSet e.no == llcSet ln.no && e.way == way).foldl (fun (u : Caches) e => u.evict e.id e.no) k
  { t with llc := t.llc.set j ({ ln with way := way } :: t.llc.get [] j) }

/-- Whether a line takes half a way: both its sectors are held, and its bytes compress (R171). -/
def State.isHalf (s : State) (held : BitVec 2) (key : Key) : Bool :=
  held == 3#2 && Config.compresses (s.peeks none key 256)

/-- Whether some L1 holds dirty sectors of a line. -/
def Caches.dirtyAbove (k : Caches) (id no : Nat) : Bool := k.l1.any fun e => e.2.any fun ln => ln.id == id && ln.no == no && ln.dirty != 0#2

/-- Lines judged by the bytes that their slices hold now (R171): one that has begun or ceased to compress takes half its way or the whole. -/
def State.regrade (s : State) : State :=
  (s.caches.llc.flatMap fun e => e.2.filter fun ln => ln.held == 3#2 && !s.caches.dirtyAbove ln.id ln.no).foldl (fun (t : State) ln =>
    let j := sliceOfLine ln.no
    let l := t.caches.llc.get [] j
    match lineOf l ln.id ln.no with
    | some o =>
      { t with caches := ({ t.caches with llc := t.caches.llc.set j (withoutLine l ln.id ln.no) }).place { o with half := t.isHalf o.held o.key } o.way }
    | none => t) s

/-- Whether the lines of a set in a way are all of class 3. -/
def lowWay (l : List Line) (set way : Nat) : Bool := (l.filter fun e => llcSet e.no == set && e.way == way).all fun e => e.low

/-- A line given sectors in its slice, allocated where it is not held; the second part is false where no way can hold it (R171). A way whose lines are
of class 3 is replaced first (R169). -/
def State.fillLlc (s : State) (id no : Nat) (key : Key) (m : BitVec 2) (low : Bool) : State × Bool :=
  let j := sliceOfLine no
  let l := s.caches.llc.get [] j
  match lineOf l id no with
  | some ln =>
    let held := ln.held ||| m
    if held = ln.held then (s, true)
    else
      let ln1 := { ln with held := held, half := s.isHalf held key }
      ({ s with caches := ({ s.caches with llc := s.caches.llc.set j (withoutLine l id no) }).place ln1 ln.way }, true)
  | none =>
    let ways := s.waysFor id j
    let ln : Line := { id := id, no := no, key := key, held := m, half := s.isHalf m key, low := low }
    match ways.find? fun w => decide (occupied l (llcSet no) w + (if ln.half then 1 else 2) ≤ 2) with
    | some w => ({ s with caches := s.caches.place ln w }, true)
    | none =>
      if ways.isEmpty then (s, false)
      else
        let first := ways.filter (lowWay l (llcSet no))
        let cands := if first.isEmpty then ways else first
        let w := cands.getD (Config.victim s.caches.turn % cands.length) 0
        ({ s with caches := { s.caches.place ln w with turn := s.caches.turn + 1 } }, true)

/-- What HBM holds of sectors that become dirty in a cache kept. -/
def State.keepBelow (s : State) (key : Key) (m : BitVec 2) : State :=
  [0, 1].foldl (fun (t : State) i =>
    let sec := key / 128 + i
    if m.getLsbD i && !t.caches.below.has sec then
      { t with caches := { t.caches with below := t.caches.below.set sec (Mem.sector t.mem sec, t.sectorKey sec) } }
    else t) s

/-- An access of sectors at the home slice (R169, R171): hits and misses are counted; false where the line is not held there afterwards. -/
def State.accessSlice (s : State) (u : Use) (no : Nat) (key : Key) (m : BitVec 2) (write : Bool) : State × Bool :=
  let j := sliceOfLine no
  let had := match lineOf (s.caches.llc.get [] j) u.id no with
    | some ln => ln.held &&& m
    | none => 0
  let c1 := (s.caches.add u.id j 0 (sectors had)).add u.id j 1 (sectors (m &&& ~~~had))
  let (t, ok) := ({ s with caches := c1 }).fillLlc u.id no key m (u.cls == 3)
  if ok && write then
    let t1 := t.keepBelow key m
    let k := t1.caches
    ({ t1 with caches := { k with llc := k.llc.set j ((k.llc.get [] j).map fun (e : Line) =>
        if e.id = u.id ∧ e.no = no then { e with dirty := e.dirty ||| m } else e) } }, true)
  else (t, ok)

/-- An L1 makes room in the set of a line: a line of a full set leaves. -/
def Caches.roomL1 (k : Caches) (c no : Nat) : Caches :=
  let l := k.l1.get [] c
  let set := l.filter fun e => l1Set e.no == l1Set no
  if set.length < 8 then k
  else
    match set[Config.victim k.turn % set.length]? with
    | none => k
    | some ln =>
      let t := k.writeBack c ln
      { t with l1 := t.l1.set c (withoutLine (t.l1.get [] c) ln.id ln.no), turn := k.turn + 1 }

/-- An access of sectors through an L1 (R169, R170): a store owns the line first, a miss fills only its sectors. -/
def State.accessL1 (s : State) (u : Use) (c no : Nat) (key : Key) (m : BitVec 2) : State :=
  let here := lineOf (s.caches.l1.get [] c) u.id no
  let had := match here with
    | some ln => ln.held &&& m
    | none => 0
  let miss := m &&& ~~~had
  let k0 := s.caches.recall u.id no (some c) (!u.write)
  let k1 := (k0.add u.id (l1Unit c) 0 (sectors had)).add u.id (l1Unit c) 1 (sectors miss)
  let s1 : State := { s with caches := k1 }
  let (s2, ok) := if miss = 0#2 then (s1, true) else s1.accessSlice u no key miss false
  if !ok then s2
  else
    let s3 := if u.write then s2.keepBelow key m else s2
    let k3 := if (lineOf (s3.caches.l1.get [] c) u.id no).isSome then s3.caches else s3.caches.roomL1 c no
    let ln := (lineOf (k3.l1.get [] c) u.id no).getD { id := u.id, no := no, key := key }
    let ln1 := { ln with held := ln.held ||| m, dirty := if u.write then ln.dirty ||| m else ln.dirty, own := ln.own || u.write }
    { s3 with caches := { k3 with l1 := k3.l1.set c (ln1 :: withoutLine (k3.l1.get [] c) u.id no) } }

/-- The line number at which an access of a line is performed, and whether a remap-filter entry redirects it (11_page R225). -/
def State.lineAt (s : State) (u : Use) (va : Nat) : Nat × Bool :=
  match s.leaderOf u.stack u.unit with
  | some f => if f.leader = u.vunit then (va / 256, false) else ((f.leader * 65536 + va % 65536) / 256, true)
  | none => (va / 256, false)

/-- A located piece of one line as the caches serve it for a core, or for an agent without an L1. A line held for another frame than the
translation gives, and one that a class-2 access reaches, leaves first. -/
def State.cached (s0 : State) (c : Option Nat) (l : Loc) (va n : Nat) : State :=
  match l.use with
  | none => s0
  | some u =>
    let s := s0.regrade
    let (no, moved) := s.lineAt u va
    let key := l.key - va % 256
    let m := sectorMask va n
    let old := lineOf (s.caches.llc.get [] (sliceOfLine no)) u.id no
    let away := match old with
      | some ln => u.cls == 2 || ln.key != key
      | none => false
    let s1 := if away then { s with caches := s.caches.evict u.id no } else s
    if u.cls = 2 then s1
    else
      match c, u.cls == 0 && !moved with
      | some c, true => s1.accessL1 u c no key m
      | _, _ => (({ s1 with caches := s1.caches.recall u.id no none (!u.write) }).accessSlice u no key m u.write).1

/-- The entries of a walk kept in the translation and walk caches, each in place of what stood for its page (11_page R215). -/
def Caches.keepWalks (k : Caches) (l : List WalkEntry) : Caches :=
  l.foldl (fun (t : Caches) w =>
    if t.walks.contains w then t
    else { t with walks := w :: t.walks.filter fun o => !(o.id == w.id && o.level == w.level && o.no == w.no) }) k

/-- A cached leaf of a context whose page holds a byte of [lo, hi), or, where `tables` says so, a cached next-table entry of the context (R230). -/
def WalkEntry.covered (w : WalkEntry) (id lo hi : Nat) (tables : Bool) : Bool :=
  w.id == id && (if bit w.e 1 then decide (w.no * pageSize w.level < hi) && decide (lo < (w.no + 1) * pageSize w.level) else tables)

/-- The covered entries of a context leave the translation caches, and for pinv.all its next-table entries the walk caches (R230, R231). -/
def State.dropWalks (s : State) (id lo hi : Nat) (tables : Bool) : State :=
  { s with caches := { s.caches with walks := s.caches.walks.filter fun w => !w.covered id lo hi tables } }

/-- Every entry of a context leaves the translation and walk caches (R233, R98). -/
def Caches.forgetWalks (k : Caches) (id : Nat) : Caches := { k with walks := k.walks.filter fun w => w.id != id }

/-- The valid entries that a faulting access of a context has met are kept too (R215). -/
def State.noteFault (s : State) (slot : Nat) (t : Trap) : State :=
  let met : Bool := match t.cause with
    | .notPresent | .remoteHome | .ownerMismatch | .permission | .opaquePage => regionOf t.addr.toNat == .translated
    | _ => false
  if met then { s with caches := s.caches.keepWalks (s.walkOf slot t.addr.toNat).1 } else s

/-- A translation notes the entries of its walk, its remap-filter entry, or its virtual unit as a follower of the entry that stands (R225); a stack's filter holds 16 Ki
entries, and before the oldest is reused the lines of its leader's unit leave the caches (R226; log 12). -/
def State.led (s0 : State) (l : Loc) : State :=
  let s : State := { s0 with caches := s0.caches.keepWalks l.walked }
  match l.use with
  | none => s
  | some u =>
    match s.leaderOf u.stack u.unit with
    | some f =>
      if f.leader = u.vunit ∨ f.followers.contains u.vunit then s
      else { s with filter := s.filter.map fun e => if e = f then { f with followers := u.vunit :: f.followers } else e }
    | none =>
      if u.cls = 2 then s
      else
        let mine := s.filter.filter fun f => f.stack == u.stack
        let new : Remap := { stack := u.stack, unit := u.unit, id := u.id, leader := u.vunit }
        match if 16384 ≤ mine.length then mine.getLast? else none with
        | some f => { s with filter := new :: s.filter.erase f, caches := s.caches.flush fun e => e.id == f.id && e.no / 256 == f.leader }
        | none => { s with filter := new :: s.filter }

/-- Located pieces reached: their remap-filter entries are made, and the caches serve them for the issuing core. -/
def State.ledAll (s : State) : List (Loc × Nat × Nat) → State
  | [] => s
  | (l, va, n) :: r => State.ledAll ((s.led l).cached s.iss.core l va n) r

/-! ### Ways of claims (16_bitserial R337-R339) -/

/-- The numbers of the slices of a claim. -/
def Claim.sliceList (m : Claim) : List Nat := (List.range 32).filter fun q => m.slices.getLsbD q

/-- A claim with the ways that its slices give it, of the eligible ones that no context holds (R337, R339); which ones is not visible (R338). -/
def State.placed (s : State) (m : Claim) : Claim :=
  { m with place := m.sliceList.map fun j => (j, (((List.range 12).map (15 - ·)).filter fun w => !(s.waysTaken j).contains w).take m.ways) }

/-- Whether every slice had ways enough. -/
def Claim.fits (m : Claim) : Bool := m.place.all fun e => e.2.length == m.ways

/-- Every line in the ways of a claim leaves the caches, written back (R339). -/
def State.clearWays (s : State) (m : Claim) : State :=
  { s with caches := s.caches.flush fun e => (m.place.get [] (sliceOfLine e.no)).contains e.way }

/-! ### What withdraws lines and entries -/

/-- The remap-filter entries of located pieces alone: fetches and the reads of the dispatcher, which no cache of data serves. -/
def State.noteAll (s : State) : List (Loc × Nat × Nat) → State
  | [] => s
  | (l, _, _) :: r => State.noteAll (s.led l) r

/-- The same for the bytes of a context from an address on, where they translate. -/
def State.noteSpan (s : State) (c va n : Nat) (acc : Acc) : State :=
  match locateAll s c acc false (spanPieces va n) with
  | .ok ps => s.noteAll ps
  | .error _ => s

/-- The lines of a context with a byte in [lo, hi) leave the caches, written back (11_page R231). -/
def State.flushLines (s : State) (id lo hi : Nat) : State :=
  { s with caches := s.caches.flush fun e => e.id == id && decide (e.no * 256 < hi) && decide (lo < (e.no + 1) * 256) }

/-- The L1 lines of a context with a byte of some ranges leave every L1, their dirty sectors written back first (09_ordering R193). -/
def State.dropL1 (s : State) (id : Nat) (f : Nat → Bool) : State :=
  { s with caches := (s.caches.l1.flatMap fun e => e.2.filter fun ln => ln.id == id && f ln.no).foldl (fun (t : Caches) ln => t.recall ln.id ln.no none false) s.caches }

/-- The lines of a context leave the caches without being written back (04_context R98): memory holds what HBM holds. -/
def State.discardLines (s : State) (id : Nat) : State :=
  let gone := (s.caches.llc.flatMap fun e => e.2.filter fun ln => ln.id == id) ++ (s.caches.l1.flatMap fun e => e.2.filter fun ln => ln.id == id)
  let secs := s.caches.below.filter fun e => gone.any fun ln => e.1 == ln.key / 128 || e.1 == ln.key / 128 + 1
  let t := secs.foldl (fun (u : State) (e : Nat × (List Byte × Option KeyVal)) =>
    { u with mem := Mem.puts u.mem (e.1 * 128) e.2.1,
             sect := match e.2.2 with
               | some k => u.sect.set e.1 k
               | none => u.sect.drop e.1 }) s
  { t with caches := { t.caches with
      l1 := t.caches.l1.map (fun (e : Nat × List Line) => (e.1, e.2.filter fun ln => ln.id != id)),
      llc := t.caches.llc.map (fun (e : Nat × List Line) => (e.1, e.2.filter fun ln => ln.id != id)),
      below := t.caches.below.filter fun e => !secs.any fun x => x.1 == e.1 } }

/-- The hot-row lines of a context invalidated (R178). -/
def Caches.forgetRows (k : Caches) (id : Nat) : Caches :=
  { k with hot := k.hot.map fun (e : Nat × List (Nat × Nat × Nat × Nat)) => (e.1, e.2.filter fun r => r.1 != id) }

/-- The counters of a context that begins (R173). -/
def Caches.forget (k : Caches) (id : Nat) : Caches := { k.forgetRows id with count := k.count.filter fun e => e.1.1 != id }

/-- The counters' unit of a hot-row controller (R173). -/
def hotUnit (h : Nat) : Nat := 32 + h

/-- The newest rows of a list whose bytes have room, and how many have none. -/
def fitRows (room : Nat) : List (Nat × Nat × Nat × Nat) → List (Nat × Nat × Nat × Nat) × Nat
  | [] => ([], 0)
  | e :: r => if e.2.2.2 ≤ room then ((e :: (fitRows (room - e.2.2.2) r).1), (fitRows (room - e.2.2.2) r).2) else ([], r.length + 1)

/-- A row promoted (17_piers R366): its controller holds it, and the context's oldest rows leave where its share of the stack's hot-row cache has no room
for them; which rows leave is the model's choice (log 9). -/
def Caches.promote (k : Caches) (id h t r bytes room : Nat) : Caches :=
  let l : List (Nat × Nat × Nat × Nat) := k.hot.get [] h
  let (mine, gone) := fitRows room ((id, t, r, bytes) :: l.filter fun e => e.1 == id)
  if mine.isEmpty then k
  else (({ k with hot := k.hot.set h (mine ++ l.filter fun (e : Nat × Nat × Nat × Nat) => e.1 != id) }).add id (hotUnit h) 2 1).add id (hotUnit h) 3 gone

/-- A counter of R173 of a slice, of a hot-row controller or of an L1 for a context. -/
def Caches.counter (k : Caches) (id unit n : Nat) : Nat :=
  if 32 ≤ unit ∧ unit < 40 then (if n = 5 then ((k.hot.get [] (unit - 32)).filter fun (e : Nat × Nat × Nat × Nat) => e.1 == id).length else k.count.get 0 (id, unit, n)) else
  let lines := (if unit < 32 then k.llc.get [] unit else k.l1.get [] (unit - 64)).filter fun e => e.id == id
  if n = 2 then lines.length
  else if n = 3 then (lines.filter fun e => e.half).length
  else if n = 4 then (lines.foldl (fun t e => t + sectors e.held) 0) / 8
  else k.count.get 0 (id, unit, n)

end Sys2Proof.Machine
end

