-- ==== Sys2Proof/Machine/Ops.lean ====
section
/-! DEFINITION. The named operations: sequencers and registers, boxes and watermarks, loads and stores, waits, taking a trap and
returning from one. Every meaning is written over them. -/

namespace Sys2Proof

/-- The kind of a sequencer, for decoding (R73). -/
def Agent.kind : Agent → SeqKind
  | .seq _ q => if q = 0 then .c else if q = 1 then .lf else if q = 2 then .m else if q = 3 then .va else if q = 4 then .vb else .sf
  | .pier _ _ => .pier
  | .copy _ => .copy

/-- A vector engine. -/
def Agent.isVector : Agent → Bool
  | .seq _ q => q == 3 || q == 4
  | _ => false

/-- A pier stream. -/
def Agent.isPier : Agent → Bool
  | .pier _ _ => true
  | _ => false

/-- A copy sequencer. -/
def Agent.isCopy : Agent → Bool
  | .copy _ => true
  | _ => false

/-- A control stream, addressed by virtual address: C and the pier streams (R64). -/
def Agent.isScalar : Agent → Bool
  | .seq _ q => q == 0
  | .pier _ _ => true
  | .copy _ => false

/-- The kind of a sequencer's stores: a stream's may reach table regions of its own pier (17_piers R355). -/
def Agent.writeAcc : Agent → Machine.Acc
  | .pier p _ => .pierWrite p
  | _ => .write

end Sys2Proof

namespace Sys2Proof.Machine

/-- Why an order does not end: it raises a trap, or it waits (00_scope R14). `keep` is the state that stands with it where the
order's own description lets a part of it stand (R12), none where the order leaves no effect. `rest`: a row order of M has ended a row and goes
on with the next in a later turn of M (14_matrix R302). -/
inductive Stop where
  | trap (t : Trap) (keep : Option State)
  | wait (kind obj : Nat) (c : Cond) (keep : Option State)
  | rest (s : State)

/-- Raise a trap that leaves no effect of the order (R12). -/
def raise {α : Type} (c : Cause) (info : Nat := 0) (addr : Nat := 0) : Except Stop α := .error (.trap (mkTrap c info addr) none)

/-- Wait; the order leaves no effect and is issued again (R101). -/
def waitFor {α : Type} (kind obj : Nat) (c : Cond) : Except Stop α := .error (.wait kind obj c none)

/-- A translation's trap as a stop of the order. -/
def liftTrap {α : Type} : Except Trap α → Except Stop α
  | .ok a => .ok a
  | .error t => .error (.trap t none)

/-! ### Records of the state -/

/-- A sequencer. -/
def State.seq (s : State) (a : Agent) : Seq := s.seqs.get {} a

/-- The state with a sequencer replaced. -/
def State.setSeq (s : State) (a : Agent) (q : Seq) : State := { s with seqs := s.seqs.set a q }

/-- The state with a core replaced. -/
def State.setCore (s : State) (c : Nat) (k : Core) : State := { s with cores := s.cores.set c k }

/-- The state with a context replaced. -/
def State.setCtx (s : State) (c : Nat) (x : Ctx) : State := { s with ctxs := s.ctxs.set c x }

/-- A tag. -/
def State.tag (s : State) (t : TagRef) : Tag := s.tags.get {} t

/-- The state with a tag replaced. -/
def State.setTag (s : State) (t : TagRef) (g : Tag) : State := { s with tags := s.tags.set t g }

/-- A stream slot of a pier. -/
def State.stream (s : State) (p k : Nat) : Stream := s.streams.get {} (p, k)

/-- The state with a stream slot replaced. -/
def State.setStream (s : State) (p k : Nat) (r : Stream) : State := { s with streams := s.streams.set (p, k) r }

/-- A pooling unit of a pier. -/
def State.unit (s : State) (p u : Nat) : PoolUnit := s.units.get {} (p, u)

/-- The state with a pooling unit replaced. -/
def State.setUnit (s : State) (p u : Nat) (r : PoolUnit) : State := { s with units := s.units.set (p, u) r }

/-- A copy sequencer. -/
def State.cseq (s : State) (n : Nat) : CopySeq := s.cseqs.get {} n

/-- The state with a copy sequencer replaced. -/
def State.setCseq (s : State) (n : Nat) (r : CopySeq) : State := { s with cseqs := s.cseqs.set n r }

/-- A group. -/
def State.group (s : State) (g : Nat) : Group := s.groups.get {} g

/-- The state with a group replaced. -/
def State.setGroup (s : State) (g : Nat) (r : Group) : State := { s with groups := s.groups.set g r }

/-- A queue of a context. -/
def Ctx.queue (x : Ctx) (q : Nat) : Queue := x.queues.get {} q

/-- A context with a queue replaced. -/
def Ctx.setQueue (x : Ctx) (q : Nat) (r : Queue) : Ctx := { x with queues := x.queues.set q r }

/-- A free value below `2 ^ w`, and the counter advanced (log 2). -/
def State.freeBits (s : State) (w : Nat) : Nat × State := (Config.free s.tick % 2 ^ w, { s with tick := s.tick + 1 })

/-- The trap of an illegal word (R82, R397). -/
def illegalWord (c : SubCause) (w : BitVec 32) : Trap := mkTrap .illegalOrder (c.code + w.toNat * 2 ^ 32)

/-- The word of the order that issues. -/
def State.word (s : State) : BitVec 32 := if s.iss.slot = 0 then s.iss.words.w0 else s.iss.words.w1

/-- The illegal-order trap of the issuing order with a field outside its limit (R82 code 5). -/
def limitTrap {α : Type} (s : State) : Except Stop α := .error (.trap (illegalWord .overLimit s.word) none)

/-- Codes of the engines of a core in ring order: C 0, LF 1, M 2, VA 3, VB 4, SF 5 (R16, R75). -/
def sqC : Nat := 0
def sqLF : Nat := 1
def sqM : Nat := 2
def sqVA : Nat := 3
def sqVB : Nat := 4
def sqSF : Nat := 5

/-- The core a sequencer belongs to: for a pier stream the core that forked it (17_piers R356); none for a copy sequencer. -/
def State.coreOf (s : State) : Agent → Option Nat
  | .seq c _ => some c
  | .pier p k => some (s.stream p k).core
  | .copy _ => none

/-- The context slot an agent acts for (04_context R93). -/
def State.slotOf (s : State) : Agent → Nat
  | .seq c _ => (s.core c).slot.getD 0
  | .pier p k => (s.stream p k).slot
  | .copy n => (s.cseq n).slot

/-- The owner of the tags a sequencer names (15_ferry R319, R333): its core, or the copy sequencer itself. -/
def State.tagOwner (s : State) : Agent → TagOwner
  | .seq c _ => .core c
  | .pier p k => .core (s.stream p k).core
  | .copy n => .copy n

/-! ### The step being issued -/

/-- The sequencer that issues. -/
def State.me (s : State) : Agent := s.iss.who
/-- Its record as it stands now. -/
def State.cur (s : State) : Seq := s.seq s.iss.who
/-- The state with the issuing sequencer's record replaced. -/
def State.setCur (s : State) (q : Seq) : State := s.setSeq s.iss.who q
/-- The number of the issuing sequencer's core (0 where it has none). -/
def State.myCoreNo (s : State) : Nat := (s.coreOf s.iss.who).getD 0
/-- The issuing sequencer's core. -/
def State.myCore (s : State) : Core := s.core s.myCoreNo
/-- The state with that core replaced. -/
def State.setMyCore (s : State) (k : Core) : State := s.setCore s.myCoreNo k
/-- The context slot the issuing sequencer acts for. -/
def State.mySlot (s : State) : Nat := s.slotOf s.iss.who
/-- Its context. -/
def State.myCtx (s : State) : Ctx := s.ctx s.mySlot
/-- The state with that context replaced. -/
def State.setMyCtx (s : State) (x : Ctx) : State := s.setCtx s.mySlot x
/-- A tag of the issuing sequencer. -/
def State.myTag (s : State) (n : Nat) : TagRef := { owner := s.tagOwner s.iss.who, tag := n }

/-- A scalar register as it stood before the step (R66); s0 reads as zero (R71). -/
def State.src (s : State) (n : BitVec 5) : Word := if n = 0#5 then 0 else s.iss.old.sreg.get 0 n.toNat

/-- Write a scalar register of the issuing sequencer; writes to s0 are discarded (R71). -/
def State.wr (s : State) (n : BitVec 5) (v : Word) : State :=
  if n = 0#5 then s else s.setCur { s.cur with sreg := s.cur.sreg.set n.toNat v }

/-- A loop register as it stood before the step (R66). -/
def State.lcSrc (s : State) (n : Nat) : Word := s.iss.old.lc.get 0 n

/-- Write a loop register of the issuing sequencer. -/
def State.wrLc (s : State) (n : Nat) (v : Word) : State := s.setCur { s.cur with lc := s.cur.lc.set n v }

/-- Set sticky flags of the issuing sequencer (02_numbers R49). -/
def State.flag (s : State) (f : BitVec 8) : State := 
  if f = 0#8 then s
  else
    let t := s.setCur { s.cur with fflags := s.cur.fflags ||| f }
    { t with iss := { t.iss with raised := t.iss.raised ||| f } }

/-- Whether a control transfer of R67 has been taken in the step; the skip of a loop body is none (log 19). -/
def Issue.transferred (i : Issue) : Bool :=
  match i.xfer with
  | some (.skip _) | none => false
  | some _ => true

/-- A control transfer of the slot; slot 0's stands over slot 1's (R67), and over a skip. -/
def State.transfer (s : State) (x : Xfer) : State :=
  if s.iss.transferred then s else { s with iss := { s.iss with xfer := some x } }

/-- The top predicate entry of a stack; an empty stack reads all-true (R121). -/
def topOf (st : List (BitVec 1024)) : BitVec 1024 := st.headD (BitVec.allOnes 1024)

/-- Width in bits of a type code (13_vector R263, R264); 0 for a reserved code. -/
def typeWidth (t : Nat) : Nat :=
  match t with
  | 0 => 32 | 1 => 16 | 2 => 16 | 3 => 8 | 4 => 8 | 5 => 4 | 6 => 32 | 7 => 16 | 8 => 8 | 9 => 4 | 10 => 8 | 11 => 4 | 12 => 8
  | _ => 0

/-- Lanes of a type in a 512-byte register (R37); a reserved code judges the whole entry (R262). -/
def lanesOf (t : Nat) : Nat := if typeWidth t = 0 then 1024 else 4096 / typeWidth t

/-- vtype.T0 of a sequencer record. -/
def Seq.t0 (q : Seq) : Nat := bits q.vtype.toNat 3 0
/-- vtype.T1. -/
def Seq.t1 (q : Seq) : Nat := bits q.vtype.toNat 7 4
/-- vtype.RM. -/
def Seq.rm (q : Seq) : Nat := bits q.vtype.toNat 10 8
/-- vtype.SAT. -/
def Seq.satOn (q : Seq) : Bool := bit q.vtype.toNat 11

/-- Whether a predicate entry lets an order act: its bit on a one-bit sequencer, any lane of Lanes(T0) on VA and VB (R122). -/
def entryActs (a : Agent) (q : Seq) (e : BitVec 1024) : Bool :=
  if a.isVector then e.toNat % 2 ^ lanesOf q.t0 != 0 else e.getLsbD 0

/-- Whether the slot's order acts: the top entry as it stood before the step (R66, R122). -/
def State.acts (s : State) : Bool := entryActs s.iss.who s.iss.old (topOf s.iss.old.stack)

/-- Push m and TopPred() (R121, R122): TopPred() is the entry that governs the slot, over the stack as slot 0 left it (R66). -/
def State.push (s : State) (m : BitVec 1024) : Except Stop State :=
  if 8 ≤ s.cur.stack.length then raise .predOverflow
  else .ok (s.setCur { s.cur with stack := (m &&& topOf s.iss.old.stack &&& topOf s.cur.stack) :: s.cur.stack })

/-- A one-bit predicate value as an entry (R121). -/
def predBit (b : Bool) : BitVec 1024 := if b then BitVec.allOnes 1024 else 0

/-- What an earlier issue of the same order has left (R101), for a phase. -/
def State.resumed (s : State) (p : Phase) : Option Resume :=
  match s.cur.resume with
  | some r => if r.phase = p ∧ r.slot = s.iss.slot ∧ r.here = s.iss.here then some r else none
  | none => none

/-- The state with such a record, or without one. -/
def State.setResume (s : State) (r : Option Resume) : State := s.setCur { s.cur with resume := r }

/-- A record of the issuing order. -/
def State.resumeRec (s : State) (p : Phase) (a : Nat := 0) (b : Nat := 0) : Resume :=
  { here := s.iss.here, slot := s.iss.slot, phase := p, a := a, b := b }

/-- A wait with which a part of the order stands (R12). -/
def waitKeeping {α : Type} (kind obj : Nat) (c : Cond) (keep : State) : Except Stop α := .error (.wait kind obj c (some keep))

/-! ### Tokens -/

/-- Tokens put back into the queues of a core, first to go out again: their consumer has seen what came before them. -/
def State.addTokens (s : State) (core : Nat) (l : List (Nat × Nat)) : State :=
  let k := s.core core
  if l.isEmpty then s
  else s.setCore core { k with tokQ := l.foldl (fun m e =>
    let q := m.get {} e.1
    m.set e.1 { q with count := q.count + e.2, stamps := List.replicate e.2 (0, 0) ++ q.stamps }) k.tokQ }

/-- Tokens consumed from queues of a core; depth lent by relief goes back to the pool by eights (05_kernel R120). -/
def State.takeTokens (s : State) (core : Nat) (l : List (Nat × Nat)) : State :=
  l.foldl (fun t e =>
    let k := t.core core
    let q := k.tokQ.get {} e.1
    let n := q.count - e.2
    let back := if q.depth ≤ 15 then 0 else min ((q.depth - 15) / 8) ((q.depth - n) / 8) * 8
    t.setCore core { k with tokQ := k.tokQ.set e.1 { count := n, depth := q.depth - back, stamps := q.stamps.drop e.2 }, pool := k.pool + back }) s

/-! ### What VA and VB have seen of each other (13_vector R271) -/

/-- Both of two lists of notes. -/
def joinSeen (a b : Nat × Nat) : Nat × Nat := (max a.1 b.1, max a.2 b.2)

/-- The notes of VA and of VB that come before what a sequencer does next: all its own, and those of the other engine that it has seen. -/
def State.stampOf (s : State) (a : Agent) : Nat × Nat :=
  let q := s.seq a
  match a with
  | .seq c sq => let k := s.core c; if sq = sqVA then (k.vcount.1, q.seen.2) else if sq = sqVB then (q.seen.1, k.vcount.2) else q.seen
  | _ => q.seen

/-- A sequencer has seen what comes before a stamp. -/
def State.see (s : State) (a : Agent) (x : Nat × Nat) : State := s.setSeq a { s.seq a with seen := joinSeen (s.seq a).seen x }

/-! ### Time -/

/-- The state at a later time. -/
def State.pass (s : State) (clocks ns : Nat) : State := { s with clk := s.clk + clocks, wall := s.wall + ns }

/-! ### Boxes, watermarks and poison -/

/-- The shape of a box: its first byte, run length and the counts and strides of three dimensions (15_ferry R314, R315). -/
structure Shape where
  base : Nat
  len : Nat
  c1 : Nat := 0
  c2 : Nat := 0
  c3 : Nat := 0
  d1 : Nat := 0
  d2 : Nat := 0
  d3 : Nat := 0
deriving DecidableEq, Repr

/-- A copy descriptor's field: bits [hi : lo] of word w (R314). -/
def descField (d : BitVec 512) (w hi lo : Nat) : Nat := bits (bits d.toNat (64 * w + 63) (64 * w)) hi lo

/-- A 32-bit stride read as signed (R315). -/
def signed32 (x : Nat) : Int := if x < 2 ^ 31 then (x : Int) else (x : Int) - 2 ^ 32

/-- The destination shape of a descriptor. -/
def destShape (d : BitVec 512) : Shape :=
  { base := descField d 1 56 0, len := descField d 2 31 0, c1 := descField d 2 47 32, c2 := descField d 2 63 48,
    c3 := descField d 7 15 0, d1 := descField d 3 63 32, d2 := descField d 4 63 32, d3 := descField d 5 63 32 }

/-- Landing positions of a shape (R315). -/
def Shape.count (b : Shape) : Nat := b.len * (b.c1 + 1) * (b.c2 + 1) * (b.c3 + 1)

/-- The four indices of a landing position (R315): i3, i2, i1, i0. -/
def Shape.indices (b : Shape) (p : Nat) : Nat × Nat × Nat × Nat :=
  let r := p / b.len
  (r / (b.c1 + 1) / (b.c2 + 1), r / (b.c1 + 1) % (b.c2 + 1), r % (b.c1 + 1), p % b.len)

/-- dst(p) of a landing position (R315). -/
def Shape.dst (b : Shape) (p : Nat) : Nat :=
  let (i3, i2, i1, i0) := b.indices p
  b.base + i3 * b.d3 + i2 * b.d2 + i1 * b.d1 + i0

/-- The index along one dimension that an offset falls in. -/
def dimIndex (off c d : Nat) : Nat := if c = 0 ∨ d = 0 then 0 else min (off / d) c

/-- LandingIndex(addr) (R315); none for an address outside the box. -/
def Shape.index (b : Shape) (a : Nat) : Option Nat :=
  if a < b.base then none
  else
    let o3 := a - b.base
    let i3 := dimIndex o3 b.c3 b.d3
    let o2 := o3 - i3 * b.d3
    let i2 := dimIndex o2 b.c2 b.d2
    let o1 := o2 - i2 * b.d2
    let i1 := dimIndex o1 b.c1 b.d1
    let i0 := o1 - i1 * b.d1
    if i0 < b.len then some (((i3 * (b.c2 + 1) + i2) * (b.c1 + 1) + i1) * b.len + i0) else none

/-- E of the monotonicity rule: the box lies in [base, base + E) (R316). -/
def Shape.extent (b : Shape) : Nat := b.c3 * b.d3 + b.c2 * b.d2 + b.c1 * b.d1 + b.len

/-- A box as its home's landing slot holds it (R318): context slot, shape, first position not landed, whether the bytes above
are poisoned (R323), the tag, and the order of its start (R195). -/
structure Box where
  slot : Nat
  shape : Shape
  pos : Nat
  poison : Bool
  tag : TagRef
  order : Nat
  healed : List (Nat × Nat) := []
deriving DecidableEq, Repr

/-- The box of receiver `r` of a copy (R330). -/
def receiverShape (d : BitVec 512) (v : Option Nat) : Shape :=
  let b := destShape d
  match v with
  | none => b
  | some q => { b with base := vaultWindow + q * 0x2000000 + (b.base - vaultWindow) % 0x2000000 }

/-- The boxes that a tag holds landing slots for (R318, R320): those of an active copy, of a cancelled one (poison), of a bsout
(16_bitserial R353), and of a crossing operation that lands here (18_link R390). -/
def boxesOf (t : TagRef) (g : Tag) : List Box :=
  match g.op with
  | some (.copy c) =>
    if g.st = .landing ∨ g.st = .frozen ∨ g.st = .cancelled then
      c.recv.map fun r => { slot := c.slot, shape := receiverShape c.desc r.vault, pos := r.pos, poison := g.st = .cancelled,
                            tag := t, order := c.order, healed := g.healed }
    else []
  | some (.transfer x) =>
    if x.out && (g.st = .landing ∨ g.st = .frozen ∨ g.st = .cancelled) then
      [{ slot := x.slot, shape := { base := x.addr, len := x.len }, pos := x.landed, poison := g.st = .cancelled, tag := t,
         order := x.order, healed := g.healed }]
    else []
  | some (.crossing x) =>
    if x.fn = 3 ∧ (g.st = .landing ∨ g.st = .frozen ∨ g.st = .cancelled) then
      [{ slot := x.slot, shape := { base := leNat ((x.block.drop 8).take 8), len := leNat ((x.block.drop 24).take 4) }, pos := x.moved,
         poison := g.st = .cancelled, tag := t, order := x.order, healed := g.healed }]
    else []
  | _ => []

/-- The box of another module's xput that lands here (18_link R390); no tag of this module holds it. -/
def Inbound.box (i : Inbound) : Box :=
  { slot := i.slot, shape := { base := i.addr, len := i.len }, pos := i.pos, poison := false,
    tag := { owner := .core (256 + i.dev), tag := 64 + i.order }, order := i.order }

/-- Every box of the module. -/
def State.boxes (s : State) : List Box :=
  (s.tags.flatMap fun e => boxesOf e.1 e.2) ++ (s.link.inbound.filter fun i => !i.get).map Inbound.box

/-- Whether a byte lies in a box at or above its watermark (R194, R316). -/
def Box.above (b : Box) (a : Nat) : Bool :=
  match b.shape.index a with
  | some p => decide (b.pos ≤ p)
  | none => false

/-- Whether a byte of a cancelled box is still poisoned (R323). -/
def Box.poisons (b : Box) (a : Nat) : Bool :=
  b.poison && b.above a && !b.healed.any fun h => decide (h.1 ≤ a) && decide (a < h.2)

/-- The first address in [lo, lo + n) at which a test holds. -/
def firstWhere (f : Nat → Bool) (lo : Nat) : Nat → Option Nat
  | 0 => none
  | n + 1 => if f lo then some lo else firstWhere f (lo + 1) n

/-- What an access of a context to the bytes [va, va + n) meets (R194, R323): the tag of an active box that stalls it, or the
first poisoned byte. Boxes of `own` are not compared (R327). -/
inductive Meets where
  | clear
  | stall (t : Option TagRef)
  | poison (a : Nat)
deriving DecidableEq, Repr

/-- The comparison of an access with the boxes of its context whose copies started before a point of the order of issue. Of several boxes that
stall it the first in the order of `State.boxes` is named (log 93: the spec does not define which, 05_kernel R117). -/
def State.meetsBoxes (s : State) (slot va n : Nat) (own : Option TagRef) (before : Option Nat) : Meets :=
  let bs := s.boxes.filter fun b => b.slot == slot && some b.tag != own && before.all (fun o => decide (b.order < o)) &&
    decide (va < b.shape.base + b.shape.extent) && decide (b.shape.base < va + n)
  if bs.isEmpty then .clear
  else match bs.find? (fun b => !b.poison && (firstWhere b.above va n).isSome) with
    | some b => .stall (some b.tag)
    | none => match firstWhere (fun a => bs.any fun b => b.poisons a) va n with
      | some a => .poison a
      | none => .clear

/-- The first write held for a context before a point of the order of issue, or of one sequencer at any point, that has a byte in common with
[va, va + n). -/
def State.heldOver (s : State) (slot va n : Nat) (before : Option Nat) (me : Option Agent := none) : Option HeldWrite :=
  s.heldw.find? fun h => h.slot == slot && (before.all (fun o => decide (h.order < o)) || some h.who == me) &&
    decide (va < h.addr + h.bytes.length) && decide (h.addr < va + n)

/-- The comparison of an access with the boxes and the held writes of its context that came before two points of the order of issue. A held
write holds its home (R194): no access that comes after it reaches a byte of it before it is performed, so that every order of R183 and R189 on
it holds (log 94); `me` is the reading sequencer, whose own held writes all come before it (R186). -/
def State.meetsBefore (s : State) (slot va n : Nat) (own : Option TagRef) (boxes writes : Option Nat) (me : Option Agent := none) : Meets :=
  match s.meetsBoxes slot va n own boxes with
  | .clear => match s.heldOver slot va n writes me with
    | some h => .stall (match s.meetsBoxes h.slot h.addr h.bytes.length none (some h.order) with
      | .stall t => t
      | _ => none)
    | none => .clear
  | m => m

/-- The comparison of an access with every box and held write of its context. -/
def State.meets (s : State) (slot va n : Nat) (own : Option TagRef) : Meets := s.meetsBefore slot va n own none none

/-- OBJ of a watermark stall (05_kernel R117): the tag when a copy or transfer of the waiting core stalls it, else 0xFF. -/
def State.stallObj (s : State) (t : Option TagRef) : Nat :=
  match t with
  | some r => match r.owner, (s.tag r).op with
    | .core _, some (.crossing _) => 0xFF
    | .core _, _ => if r.owner = s.tagOwner s.iss.who then r.tag else 0xFF
    | .copy _, _ => 0xFF
  | none => 0xFF

/-- The point of the order of issue at which an access to [va, va + n) of a step that has stalled at a watermark reached its home: copies that start
later do not stall it (R195). It is that of the stall for the access that stalled and for those of an earlier slot, none for any other. -/
def State.reached (s : State) (va n : Nat) : Option Nat :=
  match s.cur.wait with
  | some w => match w.cond with
    | .unstalled _ lo hi b => if s.iss.slot < w.slot ∨ (s.iss.slot = w.slot ∧ lo ≤ va ∧ va + n ≤ hi) then b else none
    | _ => none
  | none => none

/-- The byte at which a copy's cancellation has ended a stalled access (R323). -/
def State.ended? (s : State) (va n : Nat) : Option Nat :=
  match s.cur.wait with
  | some w => match w.cond, w.poisoned with
    | .unstalled _ lo hi _, some a => if lo = va ∧ hi = va + n then some a else none
    | _, _ => none
  | none => none

/-- What a read by the issuing order meets. -/
def State.meetsRead (s : State) (va n : Nat) : Meets :=
  match s.ended? va n with
  | some a => .poison a
  | none => s.meetsBefore s.mySlot va n none (s.reached va n) (s.reached va n) (some s.iss.who)

/-- The wait of a read on a watermark. -/
def State.stallRead {α : Type} (s : State) (va n : Nat) (t : Option TagRef) : Except Stop α :=
  waitFor 8 (s.stallObj t) (.unstalled s.mySlot va (va + n) ((s.reached va n).orElse fun _ => some s.nextOp))

/-- The order of accesses of one kind on the watermarks: a read waits or meets poison (R194, R323). -/
def State.checkRead (s : State) (va n : Nat) : Except Stop Unit :=
  match s.meetsRead va n with
  | .clear => .ok ()
  | .stall t => s.stallRead va n t
  | .poison a => raise .abortedLanding 1 a

/-! ### Loads and stores of programs -/

/-- A trap that the issuing sequencer takes at its next step boundary, naming this step (R194, R323, R399). -/
def State.defer (s : State) (t : Trap) : State :=
  { s with atraps := s.atraps ++ [{ who := s.iss.who, trap := { t with async := true }, step := s.iss.here, slot := s.iss.slot }] }

/-- Whether C of a core has no tload whose bytes have not all been read (05_kernel R136). -/
def State.tablesRead (s : State) (a : Agent) : Bool :=
  match a with
  | .seq k q => q != sqC || (s.core k).tloads.isEmpty
  | _ => true

/-- OBJ of a wait for C's pending tloads (05_kernel R117): that of the watermark that stalls the first. -/
def State.tableObj (s : State) : Nat :=
  match s.myCore.tloads with
  | (_, l) :: _ => match s.meetsBoxes s.mySlot ((l.src.map (·.2.1)).headD 0) (9 * l.count) none (some l.order) with
    | .stall t => s.stallObj t
    | _ => 0xFF
  | [] => 0xFF

/-- An access of C, or the start of an asynchronous operation of C, comes after the reads of C's earlier tloads, which have class 15 (09_ordering
R181, R183, R190). -/
def State.awaitTables (s : State) : Except Stop Unit :=
  if s.tablesRead s.iss.who then .ok () else waitFor 8 s.tableObj (.tablesRead s.iss.who)

/-- Whether a pinv that waits for what it has withdrawn covers bytes [va, va + n) of the translated space of a context: a new walk for them waits
(11_page R231). -/
def State.retiringSpan (s : State) (slot va n : Nat) : Bool :=
  regionOf va == .translated && s.seqs.any fun e => decide (e.2.run = .blocked) && (match e.2.wait with
    | some w => (match w.cond with
      | .chunksGone c lo hi _ => c == slot && decide (va < hi) && decide (lo < va + n)
      | _ => false)
    | none => false)

/-- Where the bytes of an access of the issuing context lie (11_page R224); its walks wait for a pinv of their pages (R231). -/
def State.reach (s : State) (acc : Acc) (va n : Nat) : Except Stop (List (Loc × Nat × Nat)) :=
  if s.retiringSpan s.mySlot va n then waitFor 0 0 .again else liftTrap (locateAll s s.mySlot acc false (spanPieces va n))

/-- Read `n` bytes at a virtual address of the issuing sequencer's context (R10): translation, then the watermark. -/
def State.loadBytes (s : State) (va n : Nat) (acc : Acc := .read) : Except Stop (List Byte × State) := do
  s.awaitTables
  let ps ← s.reach acc va n
  s.checkRead va n
  return (if s.iss.who.isPier then s.readHome ps else s.readPieces ps, s.ledAll ps)

/-- Read a little-endian value of `n` bytes (R10). -/
def State.loadNat (s : State) (va n : Nat) (acc : Acc := .read) : Except Stop (Nat × State) := do
  let (bs, t) ← s.loadBytes va n acc
  return (leNat bs, t)

/-- The mask of one ordering class (R181). -/
def classBit (oc : Nat) : BitVec 16 := .ofNat 16 (2 ^ oc)

/-- Whether a store to a line asks its home for ownership of it: a store through the L1 of the issuing core to a line that the L1 does not own
(08_memory R170). -/
def State.asksLine (s : State) (l : Loc) (va : Nat) : Bool :=
  match s.iss.core, l.use with
  | some c, some u =>
    let (no, moved) := s.lineAt u va
    u.cls == 0 && !moved && !((lineOf (s.caches.l1.get [] c) u.id no).any (·.own))
  | _, _ => false

/-- The lines that a store to located pieces asks to own. -/
def State.linesAsked (s : State) (ps : List (Loc × Nat × Nat)) : List Nat := (ps.filter fun p => s.asksLine p.1 p.2.1).map fun p => p.2.1 / 256

/-- The box that stalls a request for ownership of one of some lines of a context: one with a byte of it at or above its watermark (15_ferry R325). -/
def State.lineStall (s : State) (slot : Nat) (before : Option Nat) (lines : List Nat) : Option (Option TagRef) :=
  lines.findSome? fun no => match s.meetsBoxes slot (no * 256) 256 none before with
    | .stall t => some t
    | _ => none

/-- An atomic of class 0 asks to own its line, and waits for it as a read waits (08_memory R172; 15_ferry R325). -/
def State.checkOwned (s : State) (ps : List (Loc × Nat × Nat)) (va n : Nat) : Except Stop Unit :=
  match s.lineStall s.mySlot (s.reached va n) (s.linesAsked ps) with
  | some t => waitFor 8 (s.stallObj t) (.unstalled s.mySlot (va / 256 * 256) (va / 256 * 256 + 256) ((s.reached va n).orElse fun _ => some s.nextOp))
  | none => .ok ()

/-- What a store of a context to located pieces meets: what its bytes meet, or a box that stalls the ownership of a line. -/
def State.meetsWrite (s : State) (slot : Nat) (ps : List (Loc × Nat × Nat)) (va n : Nat) : Meets :=
  match s.meets slot va n none with
  | .clear => match s.lineStall slot none (s.linesAsked ps) with
    | some t => .stall t
    | none => .clear
  | m => m

/-- Whether a store of the issuing order, where it translates, meets nothing. -/
def State.storeClear (s : State) (va n : Nat) : Bool :=
  match s.reach s.iss.who.writeAcc va n with
  | .ok ps => (match s.meetsWrite s.mySlot ps va n with
    | .clear => true
    | _ => false)
  | .error _ => true

/-- A write of the issuing sequencer held at its home. -/
def State.holdWrite (s : State) (ps : List (Loc × Nat × Nat)) (va : Nat) (bs : List Byte) (classes : BitVec 16) : State :=
  { s with heldw := s.heldw ++ [{ who := s.iss.who, slot := s.mySlot, addr := va, bytes := bs, step := s.iss.here, wslot := s.iss.slot,
                                  classes := classes, order := s.nextOp, lines := s.linesAsked ps }],
           nextOp := s.nextOp + 1 }

/-- Write bytes at a virtual address of the issuing sequencer's context (R10, R194): behind a watermark the write is held at its
home; on a poisoned byte it is discarded and the trap waits for the step boundary (R323). -/
def State.storeBytes (s : State) (va : Nat) (bs : List Byte) (classes : BitVec 16) (acc : Acc := s.iss.who.writeAcc) : Except Stop State := do
  s.awaitTables
  let ps ← s.reach acc va bs.length
  match s.meetsWrite s.mySlot ps va bs.length with
  | .clear => return (s.ledAll ps).writePieces ps bs
  | .stall _ => return (s.noteAll ps).holdWrite ps va bs classes
  | .poison a => return (s.ledAll ps).defer (mkTrap .abortedLanding 2 a)

/-! ### Waits -/

/-- Landing positions of a copy that have a source byte read or not: whether every receiver has landed everything. -/
def Copy.landedAll (c : Copy) : Bool := c.recv.all fun r => decide ((destShape c.desc).count ≤ r.pos)

/-- The receivers of a copy: the vaults of MCAST, or none for a copy with one box (R314, R330). -/
def receiversOf (d : BitVec 512) : List (Option Nat) :=
  if descField d 7 63 32 = 0 then [none] else ((List.range 32).filter fun q => bit (descField d 7 63 32) q).map some

/-- The home slice of an address of a context: that of the leader's address where the remap filter redirects it (08_memory R168). -/
def State.homeSlice (s : State) (slot a : Nat) : Nat :=
  match locate s slot a .write true with
  | .ok l => match l.use with
    | some u => sliceOfLine (s.lineAt u a).1
    | none => sliceOf a
  | .error _ => sliceOf a

/-- Whether a box has a byte whose home is a slice: some 256-byte block of some run. -/
def State.inSlice (s : State) (slot : Nat) (b : Shape) (j : Nat) : Bool :=
  (List.range ((b.c1 + 1) * (b.c2 + 1) * (b.c3 + 1))).any fun r =>
    let a := b.dst (r * b.len)
    (List.range ((a % 256 + b.len + 255) / 256)).any fun k => s.homeSlice slot ((a / 256 + k) * 256) == j

/-- The homes of a box of a context (R318): its vault, or 32 and the numbers of its slices; an empty box has none. -/
def State.homes (s : State) (slot : Nat) (b : Shape) : List Nat :=
  if b.len = 0 then []
  else if regionOf b.base = .vault then [(b.base - vaultWindow) / 0x2000000]
  else ((List.range 32).filter (s.inSlice slot b)).map (32 + ·)

/-- One of the 64 landing slots is free at every home of every box of a list of a context (R318, R325); the slots of the tag's own former copy
count as free (R320). -/
def State.slotsFree (s : State) (own : TagRef) (slot : Nat) (l : List Shape) : Bool :=
  let others := s.boxes.filter fun b => b.tag != own
  decide (others.length < 64) ||
    l.all fun b => (s.homes slot b).all fun h => decide ((others.filter fun o => (s.homes o.slot o.shape).contains h).length < 64)

/-- A complete tag (05_kernel R133; 15_ferry R319). -/
def Tag.complete (g : Tag) : Bool := g.st = .idle || g.st = .landed || g.st = .cancelled

/-- A word of a ring header (10_barrier R208). -/
def State.hdr (s : State) (k : Key) (off n : Nat) : Nat := s.peekNat none (k + off) n

/-- Ceff of a ring: C, or 2C while enlarged (R208). -/
def State.ringCap (s : State) (k : Key) : Nat :=
  let cfg := s.hdr k 8 4
  2 ^ bits cfg 11 8 * (if bit cfg 16 then 2 else 1)

/-- A difference of two 32-bit sequence numbers (R208). -/
def sub32 (a b : Nat) : Nat := (a + 2 ^ 32 - b % 2 ^ 32) % 2 ^ 32

/-- Slots claimed and not released (R211). -/
def State.ringUsed (s : State) (k : Key) : Nat := sub32 (s.hdr k 0x10 4) (s.hdr k 0x1C 4)

/-- Whether a box of an unfinished copy, of one sequencer or of any, overlaps [lo, hi) (R211 rpub, R213). -/
def State.copyInto (s : State) (who : Option Agent) (lo hi : Nat) : Bool :=
  s.tags.any fun e => !e.2.complete &&
    (match e.2.op with
     | some (.copy c) => (who.isNone || who == some c.who) &&
         c.recv.any fun r =>
           let b := receiverShape c.desc r.vault
           decide (b.base < hi) && (firstWhere (fun a => (b.index a).isSome) lo (hi - lo)).isSome
     | _ => false)

/-- Whether a chunk of a copy of a context, issued before a point of the order of issue, is to land that was translated through a unit that a test
names: virtual and physical unit, and whether redirected (11_page R231). -/
def State.chunkVia (s : State) (slot before : Nat) (f : Nat × Nat × Bool → Bool) : Bool :=
  s.tags.any fun e =>
    (match e.2.op with
     | some (.copy c) => c.slot == slot && c.chunks.any fun k => decide (k.order < before) && k.units.any f
     | _ => false)

/-- The slot that the holder of a tag acts for. -/
def State.tagSlot (s : State) (t : TagRef) : Nat :=
  match t.owner with
  | .core c => s.slotOf (.seq c 0)
  | .copy n => s.slotOf (.copy n)

/-- Who issued an operation as an asynchronous one that syncw awaits (09_ordering R192; 12_scalar R256), and its class. -/
def Op.issuer : Op → Option Agent × Nat
  | .copy c => (some c.who, c.oc)
  | .transfer t => (some (.seq t.core 0), 15)
  | .fork _ => (none, 15)
  | .crossing x => (some (.seq x.core 0), 15)
  | .embedding e => (some (.seq e.core 0), 15)

/-- Whether an operation of the owner's C (P-format or fork) is still under way. -/
def State.pOpOpen (s : State) (o : TagOwner) : Bool :=
  s.tags.any fun e => decide (e.1.owner = o) && !e.2.complete &&
    (match e.2.op with
     | some (.copy c) => (match c.kind with
         | .rows _ => true
         | _ => false)
     | some _ => true
     | none => false)

/-- Where an operation stands in the order of issue. -/
def Op.order : Op → Nat
  | .copy c => c.order
  | .transfer t => t.order
  | .fork f => f.order
  | .crossing x => x.order
  | .embedding e => e.order

/-- Whether an operation of a core that was issued before a point is under way (10_barrier R203). -/
def State.opOpenBefore (s : State) (o : TagOwner) (n : Nat) : Bool :=
  s.tags.any fun e => decide (e.1.owner = o) && !e.2.complete && (match e.2.op with
    | some x => decide (x.order < n)
    | none => false)

/-- Whether any operation of a core is under way. -/
def State.anyOpOpen (s : State) (o : TagOwner) : Bool := s.tags.any fun e => decide (e.1.owner = o) && !e.2.complete

/-- Whether a transfer of a kind is under way. -/
def State.transferOpen (s : State) (f : TagRef → Transfer → Bool) : Bool :=
  s.tags.any fun e => !e.2.complete &&
    (match e.2.op with
     | some (.transfer x) => f e.1 x
     | _ => false)

/-- Whether a tload of a context translated before a point of the order of issue has yet to read a byte of [lo, hi) (11_page R231). -/
def State.tableVia (s : State) (slot before lo hi : Nat) : Bool :=
  s.cores.any fun (e : Nat × Core) => e.2.slot == some slot && e.2.tloads.any fun (x : Nat × TableLoad) =>
    decide (x.2.order < before) && x.2.src.any fun p => regionOf p.2.1 == .translated && decide (p.2.1 < hi) && decide (lo < p.2.1 + p.2.2)

/-- Whether a condition holds (R14). -/
def Cond.holds (c : Cond) (s : State) : Bool :=
  match c with
  | .tokens k q n => decide (n ≤ ((s.core k).tokQ.get {} q).count)
  | .sends => false
  | .semAtLeast k n v => decide (v ≤ ((s.core k).sem.get 0 n).toNat)
  | .tagAny ts => ts.any fun t => (s.tag t).complete
  | .tagAll ts => ts.all fun t => (s.tag t).complete
  | .tagFresh ts => ts.any fun t => (s.tag t).complete && !(s.tag t).rep
  | .tagSettled t => (s.tag t).complete || (s.tag t).st = .frozen
  | .tagRead t => (s.tag t).rd
  | .chunksGone slot lo hi b => !(s.chunkVia slot b fun u => decide (u.1 * 65536 < hi) && decide (lo < (u.1 + 1) * 65536)) && !s.tableVia slot b lo hi
  | .redirectsGone slot l b => !s.chunkVia slot b fun u => u.2.2 && l.contains u.2.1
  | .engineLoaded k e => decide ((s.seq (.seq k e)).run = .stopped) && !(s.core k).tloads.has e
  | .copyReady t d => (s.tag t).complete && s.slotsFree t (s.tagSlot t) ((receiversOf d).map (receiverShape d))
  | .ringRoom k => decide (s.ringUsed k < s.ringCap k)
  | .ringFilled k => s.hdr k 0x18 4 != s.hdr k 0x14 4
  | .ringTail k n a lo hi => s.hdr k 0x14 4 == n && !s.copyInto (some a) lo hi
  | .ringHead k n => s.hdr k 0x1C 4 == n
  | .unstalled slot lo hi b => match s.meetsBefore slot lo (hi - lo) none b b with | .stall _ => false | _ => true
  | .engineStopped k e =>
      if e = 7 then (List.range 5).all fun i => (s.seq (.seq k (i + 1))).run = .stopped
      else (s.seq (.seq k e)).run = .stopped
  | .stepDone a => !s.parked.has a
  | .engineIdle k e =>
      ((List.range 5).all fun i => (e != 7 && e != i + 1) || (s.seq (.seq k (i + 1))).run = .stopped) &&
      !s.heldw.any fun h => h.owned && match h.who with
        | .seq c q => c == k && q != 0 && (e == 7 || q == e)
        | _ => false
  | .writesDone a m => s.tablesRead a && !s.heldw.any fun h => h.owned && decide (h.who = a) && decide (h.classes &&& m ≠ 0#16)
  | .opsDone a => match a with
      | .seq k _ => !s.pOpOpen (.core k)
      | _ => true
  | .windowRoom k => decide ((s.core k).win.length < 8)
  | .putAnswered k n => !(s.core k).win.any fun w => w.num == n
  | .queueCount slot q n =>
      let u := (s.ctx slot).queue q
      decide (sub32 u.done.toNat n < 2 ^ 31) || u.st = .halted || u.st = .drained || u.st = .idle
  | .tilesTaken k => match (s.core k).group with
      | some g => (s.group g).untaken == 0 || (s.group g).deques.any fun d => !d.2.isEmpty
      | none => true
  | .groupPhase k p => match (s.core k).group with
      | some g => let d := sub32 (s.group g).phase.toNat p; decide (1 ≤ d) && decide (d < 2 ^ 31)
      | none => true
  | .coreWrites k => (s.core k).tloads.isEmpty && !s.heldw.any fun h => h.owned && s.coreOf h.who == some k
  | .fullStopReady k n => (s.core k).tloads.isEmpty && !s.opOpenBefore (.core k) n && !s.heldw.any fun h => h.owned && s.coreOf h.who == some k && decide (h.order < n)
  | .fullStopPhase slot p => (s.ctx slot).fstopPhase.toNat != p
  | .barrierGen w g =>
      let d := (s.peekNat none (w + 7) 1 + 256 - g % 256) % 256
      decide (1 ≤ d) && decide (d < 128)
  | .event k _ => (s.core k).evt != 0#4
  | .claimSwitched slot => match (s.ctx slot).claim with
      | some m => m.ready
      | none => true
  | .claimRoom slot => match (s.ctx slot).claim with
      | some m => decide (m.queue.length < 4)
      | none => true
  | .claimIdle slot k =>
      (match (s.ctx slot).claim with
       | some m => !m.queue.any fun e => match e with
            | .cmd b => b.core == k
            | .transfer _ => false
       | none => true) && !s.transferOpen fun t x => decide (t.owner = .core k) && x.slot == slot
  | .claimDrained slot no =>
      match (s.ctx slot).claim with
      | some m => m.no != no || (m.queue.isEmpty && !s.transferOpen fun _ x => x.slot == slot)
      | none => true
  | .mailRoom p k down => if down then (s.stream p k).down.isNone else (s.stream p k).up.isNone
  | .mailFull p k down =>
      if down then (s.stream p k).down.isSome else (s.stream p k).up.isSome || !(s.stream p k).used
  | .streamFree p => (List.range 16).any fun k => !(s.stream p k).used
  | .unitFree p u k => (s.unit p u).holder.isNone || (s.unit p u).holder == some k
  | .tablesRead a => s.tablesRead a
  | .again => true
  | .never => false

/-- Whether a wait is over: its condition holds, or has held since it began (R14, R116). -/
def Wait.over (w : Wait) (s : State) : Bool := w.met || w.cond.holds s

/-- Conditions that another agent can undo before the waiter's turn: values of core semaphores, states of tags (R132, R133; 15_ferry R332), states
of queues (06_queue R147), and the end of a stream that a mailbox order waits for (17_piers R357). -/
def Cond.undoable : Cond → Bool
  | .semAtLeast .. | .tagAny _ | .tagAll _ | .tagRead _ | .tagFresh _ | .tagSettled _ | .queueCount .. | .mailFull .. | .mailRoom .. => true
  | _ => false

/-- The tag that a tffr would report now (R133). -/
def Cond.fresh (c : Cond) (s : State) : Option TagRef :=
  match c with
  | .tagFresh ts => ts.find? fun t => (s.tag t).complete && !(s.tag t).rep
  | _ => none

/-- Conditions that hold now latched in the waits on them, before an order undoes them (R14, R116). -/
def State.latch (s : State) : State :=
  { s with seqs := s.seqs.map fun (e : Agent × Seq) => (e.1, { e.2 with wait := e.2.wait.map (fun w =>
      if !w.met && w.cond.undoable && w.cond.holds s then { w with met := true, tag := w.cond.fresh s } else w) }) }

/-- Whether the issuing order waited on a condition that has been latched. -/
def State.latched (s : State) (c : Cond) : Bool :=
  match s.cur.wait with
  | some w => w.met && decide (w.cond = c)
  | none => false

/-- The tag that a tffr which waited on a condition has latched. -/
def State.latchedTag (s : State) (c : Cond) : Option TagRef :=
  match s.cur.wait with
  | some w => if w.met && decide (w.cond = c) then w.tag else none
  | none => none

/-- WaitUntil of a condition that can be undone (R14). -/
def State.waitUntil (s : State) (kind obj : Nat) (c : Cond) : Except Stop Unit :=
  if c.holds s || s.latched c then .ok () else waitFor kind obj c

/-- A sequencer blocked on a condition at a step (R116, R117): a wait that goes on keeps its start. -/
def Seq.block (q : Seq) (s : State) (kind obj : Nat) (c : Cond) (at_ : Word := q.pc) : Seq :=
  let w0 : Wait := { kind := kind, obj := obj, cond := c, since := s.clk, sinceWall := s.wall, step := at_, slot := s.iss.slot,
                     seen := (s.iss.nft, s.iss.seed, s.iss.deadchk) }
  let w : Wait := match q.wait with
    | some o => if o.kind = kind ∧ o.obj = obj ∧ o.slot = s.iss.slot ∧ o.step = at_ then { o with cond := c, met := false, tag := none, poisoned := none } else w0
    | none => w0
  { q with run := .blocked, wait := some w }

/-- A wait of a step that is abandoned: its starts become the clocks and the time for which it has waited (19_faults R402). -/
def Wait.pause (w : Wait) (s : State) : Wait := { w with since := s.clk - w.since, sinceWall := s.wall - w.sinceWall, cond := .again }

/-- Such a wait taken up again: its condition is tested when the step is issued again (04_context R101). -/
def Wait.proceed (w : Wait) (s : State) : Wait := { w with since := s.clk - w.since, sinceWall := s.wall - w.sinceWall }

/-- A sequencer that goes on at its step: where that is the step that it waited in, or it still holds sends, it waits as it did. -/
def Seq.again (q : Seq) (s : State) : Seq :=
  let go : Run := if q.run = .blocked then .running else q.run
  match q.kept with
  | some w => if w.step = q.pc ∨ !q.heldTok.isEmpty then { q with run := .blocked, wait := some (w.proceed s), kept := none }
    else { q with run := go, kept := none }
  | none => { q with run := go }

end Sys2Proof.Machine
end

