-- ==== Sys2Proof/Machine/Image.lean ====
section
/-! DEFINITION. SHA-256 (the digest of kernel images, 05_kernel R111, and the measurements of 22_bringup R426), and the verification
of a kernel image (R113). -/

namespace Sys2Proof.Machine

/-- The round constants of SHA-256. -/
def shaK : List (BitVec 32) :=
  [0x428a2f98, 0x71374491, 0xb5c0fbcf, 0xe9b5dba5, 0x3956c25b, 0x59f111f1, 0x923f82a4, 0xab1c5ed5] ++
  [0xd807aa98, 0x12835b01, 0x243185be, 0x550c7dc3, 0x72be5d74, 0x80deb1fe, 0x9bdc06a7, 0xc19bf174] ++
  [0xe49b69c1, 0xefbe4786, 0x0fc19dc6, 0x240ca1cc, 0x2de92c6f, 0x4a7484aa, 0x5cb0a9dc, 0x76f988da] ++
  [0x983e5152, 0xa831c66d, 0xb00327c8, 0xbf597fc7, 0xc6e00bf3, 0xd5a79147, 0x06ca6351, 0x14292967] ++
  [0x27b70a85, 0x2e1b2138, 0x4d2c6dfc, 0x53380d13, 0x650a7354, 0x766a0abb, 0x81c2c92e, 0x92722c85] ++
  [0xa2bfe8a1, 0xa81a664b, 0xc24b8b70, 0xc76c51a3, 0xd192e819, 0xd6990624, 0xf40e3585, 0x106aa070] ++
  [0x19a4c116, 0x1e376c08, 0x2748774c, 0x34b0bcb5, 0x391c0cb3, 0x4ed8aa4a, 0x5b9cca4f, 0x682e6ff3] ++
  [0x748f82ee, 0x78a5636f, 0x84c87814, 0x8cc70208, 0x90befffa, 0xa4506ceb, 0xbef9a3f7, 0xc67178f2]

/-- The initial hash of SHA-256. -/
def shaInit : List (BitVec 32) := [0x6a09e667, 0xbb67ae85, 0x3c6ef372, 0xa54ff53a, 0x510e527f, 0x9b05688c, 0x1f83d9ab, 0x5be0cd19]

/-- One 32-bit big-endian word of four bytes. -/
def beWord : List Byte → BitVec 32
  | [a, b, c, d] => a ++ b ++ c ++ d
  | _ => 0

/-- The sixteen words of a 64-byte block, the last first. -/
def shaWords : Nat → List Byte → List (BitVec 32) → List (BitVec 32)
  | 0, _, acc => acc
  | n + 1, bs, acc => shaWords n (bs.drop 4) (beWord (bs.take 4) :: acc)

/-- One more word of the message schedule, kept with the last word first. -/
def shaExtend (ws : List (BitVec 32)) : List (BitVec 32) :=
  let x := ws.getD 14 0
  let y := ws.getD 1 0
  let s0 := x.rotateRight 7 ^^^ x.rotateRight 18 ^^^ (x >>> 3)
  let s1 := y.rotateRight 17 ^^^ y.rotateRight 19 ^^^ (y >>> 10)
  (ws.getD 15 0 + s0 + ws.getD 6 0 + s1) :: ws

/-- The message schedule of a block, first word first. -/
def shaSchedule (blk : List Byte) : List (BitVec 32) :=
  ((List.range 48).foldl (fun ws _ => shaExtend ws) (shaWords 16 blk [])).reverse

/-- One round on the eight working words. -/
def shaRound (v : List (BitVec 32)) (kw : BitVec 32 × BitVec 32) : List (BitVec 32) :=
  match v with
  | [a, b, c, d, e, f, g, h] =>
    let s1 := e.rotateRight 6 ^^^ e.rotateRight 11 ^^^ e.rotateRight 25
    let ch := (e &&& f) ^^^ (~~~e &&& g)
    let t1 := h + s1 + ch + kw.1 + kw.2
    let s0 := a.rotateRight 2 ^^^ a.rotateRight 13 ^^^ a.rotateRight 22
    let mj := (a &&& b) ^^^ (a &&& c) ^^^ (b &&& c)
    [t1 + (s0 + mj), a, b, c, d + t1, e, f, g]
  | _ => v

/-- The compression of one block. -/
def shaBlock (h : List (BitVec 32)) (blk : List Byte) : List (BitVec 32) :=
  List.zipWith (· + ·) h ((List.zip shaK (shaSchedule blk)).foldl shaRound h)

/-- The blocks of a padded message. -/
def shaBlocks : Nat → List Byte → List (BitVec 32) → List (BitVec 32)
  | 0, _, h => h
  | n + 1, bs, h => shaBlocks n (bs.drop 64) (shaBlock h (bs.take 64))

/-- The message padded to a multiple of 64 bytes. -/
def shaPad (m : List Byte) : List Byte :=
  m ++ [0x80#8] ++ List.replicate ((119 - m.length % 64) % 64) 0#8 ++ (leBytes 8 (8 * m.length)).reverse

/-- SHA-256: 32 bytes. -/
def sha256 (m : List Byte) : List Byte :=
  let p := shaPad m
  (shaBlocks (p.length / 64) p shaInit).flatMap fun w => (leBytes 4 w.toNat).reverse

/-! ### Kernel images (R111, R113) -/

/-- Bytes of a context's memory read with the execute right (R113, R221). -/
def State.execBytes (s : State) (c va n : Nat) : Except Trap (List Byte) := do
  let ps ← locateAll s c .exec false (spanPieces va n)
  return s.readPieces ps

/-- The byte offset, step count and section size of stream `i` (R111). -/
def sect (h : List Byte) (i : Nat) : Nat × Nat × Nat :=
  let n := fieldAt h (0x28 + 16 * i) 4
  (fieldAt h (0x20 + 16 * i) 8, n, (9 * n + 7) / 8 * 8)

/-- Whether two spans of bytes share none. -/
def apart (a b : Nat × Nat) : Bool := a.2 == 0 || b.2 == 0 || decide (a.1 + a.2 ≤ b.1) || decide (b.1 + b.2 ≤ a.1)

/-- Whether every pair of a list of spans is apart. -/
def allApart : List (Nat × Nat) → Bool
  | [] => true
  | a :: r => r.all (apart a) && allApart r

/-- The checks of R113 on the bytes of an image, for a context's GRANTW.WAYS; `handler` images have no engine tables. A relocated value lies
wholly in the data section, and the relocation table within SIZE (log 113). -/
def checkImage (base : Nat) (b : List Byte) (ways : Nat) (handler : Bool) : Option Verified :=
  let h := b.take 256
  let size := fieldAt h 0x10 8
  let ss := (List.range 6).map (sect h)
  let code := sect h 0
  let entry := fieldAt h 0x18 4
  let rOff := fieldAt h 0xA0 8
  let rN := fieldAt h 0xA8 4
  let dOff := fieldAt h 0xB0 8
  let dN := fieldAt h 0xB8 8
  let rel := (b.drop rOff).take (8 * rN)
  let entries := (List.range rN).map fun i => (rel.drop (8 * i)).take 8
  let body := ss.flatMap fun t => (b.drop t.1).take t.2.2
  let zero := fieldAt h 0x06 2 / 2 == 0 && fieldAt h 0x1C 4 == 0 && fieldAt h 0x86 2 == 0 && fieldAt h 0x90 16 == 0 &&
    fieldAt h 0xAC 4 == 0 && fieldAt h 0xC4 28 == 0 && (List.range 6).all fun i => fieldAt h (0x2C + 16 * i) 4 == 0
  let lim := fieldAt h 0x80 2 % 4 == 0 && decide (fieldAt h 0x80 2 ≤ 768) && decide (fieldAt h 0x82 1 ≤ 16) &&
    decide (fieldAt h 0x83 1 ≤ 64) && decide (fieldAt h 0x84 1 ≤ 32) && decide (fieldAt h 0x85 1 ≤ min 12 ways)
  let lay := ss.all (fun t => t.2.1 == 0 || (t.1 % 8 == 0 && decide (t.1 + t.2.2 ≤ size))) &&
    allApart ((ss.map fun t => (t.1, t.2.2)) ++ [(dOff, dN)]) && (rN == 0 || decide (rOff + 8 * rN ≤ size)) && (dN == 0 || decide (dOff + dN ≤ size))
  let tabs := (ss.drop 1).all fun t => decide (t.2.1 ≤ 2048)
  let relOk := entries.all fun e => fieldAt e 0 4 % 8 == 0 && decide (fieldAt e 0 4 + 8 ≤ dN) && fieldAt e 4 4 == 0
  if fieldAt h 0 4 == 0x4B4F4C45 && fieldAt h 5 1 == 1 && fieldAt h 8 8 / 256 == 0 && zero && lim && lay && tabs && relOk &&
     decide (1 ≤ code.2.1) && decide (entry < code.2.1) && base % 65536 == 0 &&
     (!handler || (ss.drop 1).all fun t => t.2.1 == 0) && decide (sha256 (body ++ rel) = (h.drop 0xE0).take 32) then
    some { image := { base := base, entry := entry, codeOff := code.1, codeCount := code.2.1, accs := fieldAt h 0x82 1,
                      ways := fieldAt h 0x85 1, vregs := fieldAt h 0x80 2, argSize := fieldAt h 0xC0 4 },
           size := size, tables := (ss.drop 1).map fun t => (t.1, t.2.1), dataOff := dOff, dataLen := dN,
           relocs := entries.map fun e => fieldAt e 0 4, relocated := bit (fieldAt h 6 2) 0 }
  else none

/-- Apply a relocation table in place and set RELOCATED (R113), for an image whose pages grant WR. -/
def State.relocate (s : State) (c : Nat) (v : Verified) : Option State :=
  match locateAll s c .write false (spanPieces v.image.base 256), locateAll s c .write false (spanPieces (v.image.base + v.dataOff) v.dataLen) with
  | .ok hs, .ok _ =>
    v.relocs.foldl (fun o r => o.bind fun t =>
      match locateAll t c .write false (spanPieces (v.image.base + v.dataOff + r) 8) with
      | .ok ps => some ((t.ledAll ps).writePieces ps (leBytes 8 (leNat (t.readPieces ps) + v.image.base)))
      | .error _ => none) (some ((s.ledAll hs).writePieces hs (((s.readPieces hs).take 6) ++
        [((s.readPieces hs).getD 6 0) ||| 1#8] ++ (s.readPieces hs).drop 7)))
  | _, _ => none

/-- Images of a context evicted, by ID and address: they are resident on no core any more (R114). -/
def State.unload (s : State) (gone : Nat × Nat → Bool) : State :=
  { s with cores := s.cores.map fun (e : Nat × Core) => match e.2.resident with
      | some r => if gone r then (e.1, { e.2 with resident := none }) else e
      | none => e }

/-- An entry made in the cache of 256 images: of a full one the oldest goes, an order that the rule leaves open (log 100). -/
def State.cacheImage (s : State) (id : Nat) (v : Verified) : State :=
  let l := (id, v) :: s.disp.images
  ({ s with disp := { s.disp with images := l.take 256 } }).unload fun r => (l.drop 256).any fun e => r == (e.1, e.2.image.base)

/-- Verify the image at an address for a context (R113, R114): the image and the state with its cache entry and its relocation,
or none. An image in the cache is not verified again. -/
def State.verify (s : State) (c base : Nat) (handler : Bool) : Option (Verified × State) :=
  match s.disp.images.find? fun e => e.1 == (s.ctx c).id && e.2.image.base == base with
  | some e => if handler && e.2.tables.any (fun t => t.2 != 0) then none else some (e.2, s)
  | none =>
    match s.execBytes c base 256 with
    | .error _ => none
    | .ok h =>
      match s.execBytes c base (max 256 (fieldAt h 0x10 8)) with
      | .error _ => none
      | .ok b =>
        match checkImage base b (bits (s.ctx c).grantw.toNat 3 0) handler with
        | none => none
        | some v =>
          let s' := (s.noteSpan c base (max 256 v.size) .exec).cacheImage (s.ctx c).id v
          if !v.relocated && !v.relocs.isEmpty then (s'.relocate c v).map fun t => (v, t) else some (v, s')

/-- Evict every cached image of a context with a byte in [lo, hi) (R114, 11_page R231). -/
def State.evictImages (s : State) (c lo hi : Nat) : State :=
  let gone := fun (e : Nat × Verified) => e.1 == (s.ctx c).id && decide (e.2.image.base < hi) && decide (lo < e.2.image.base + e.2.size)
  ({ s with disp := { s.disp with images := s.disp.images.filter fun e => !gone e } }).unload fun r =>
    s.disp.images.any fun e => gone e && r == (e.1, e.2.image.base)

end Sys2Proof.Machine
end

