-- ==== Sys2Proof/Machine/Held.lean ====
section
/-! DEFINITION. Writes held at their homes behind watermarks, performed when the watermarks have passed (09_ordering R194; 15_ferry
R323). -/

namespace Sys2Proof.Machine

/-- Whether a sequencer still acts for a context slot. -/
def State.stillActs (s : State) (a : Agent) (slot : Nat) : Bool :=
  match a with
  | .seq c _ => (s.core c).slot == some slot
  | .pier p k => s.streams.has (p, k) && (s.stream p k).slot == slot
  | .copy n => (s.cseq n).busy && (s.cseq n).slot == slot

/-- The held writes of sequencers that are no more: nothing of them is awaited but their bytes, and their traps reach nobody. -/
def State.disown (s : State) (gone : Agent → Bool) : State :=
  { s with heldw := s.heldw.map fun h => if gone h.who then { h with owned := false } else h }

/-- The trap of a held write at its writer's next step boundary, with ASYNC set (R194). -/
def State.heldTrap (s : State) (h : HeldWrite) (t : Trap) : State :=
  if h.owned && s.stillActs h.who h.slot then
    { s with atraps := s.atraps ++ [{ who := h.who, trap := { t with async := true }, step := h.step, slot := h.wslot }] }
  else s

/-- A held write performed: translated again, and discarded with its trap where that faults (R194). -/
def State.performHeld (s : State) (h : HeldWrite) : State :=
  match locateAll s h.slot h.who.writeAcc false (spanPieces h.addr h.bytes.length) with
  | .ok ps =>
    let iss := s.iss
    let home : State := { s with iss := { iss with core := match h.who with | .seq c _ => some c | _ => none } }
    { (home.ledAll ps).writePieces ps h.bytes with iss := iss }
  | .error t => s.heldTrap h t

/-- Two held writes of one context with a byte in common. -/
def HeldWrite.overlaps (a b : HeldWrite) : Bool :=
  a.slot == b.slot && decide (a.addr < b.addr + b.bytes.length) && decide (b.addr < a.addr + a.bytes.length)

/-- The held writes of a list settled in order, those that stay kept: a write waits for the boxes whose copies started before it, and
for an earlier held write of the same bytes, and one that asks to own a line for the boxes of that line (R325); on a byte that such a copy
poisoned it is discarded (R323). -/
def settleHeld : List HeldWrite → List HeldWrite → State → State
  | [], kept, s => { s with heldw := kept }
  | h :: r, kept, s =>
    if kept.any h.overlaps then settleHeld r (kept ++ [h]) s
    else
      match s.meetsBoxes h.slot h.addr h.bytes.length none (some h.order) with
      | .stall _ => settleHeld r (kept ++ [h]) s
      | .poison a => settleHeld r kept (s.heldTrap h (mkTrap .abortedLanding 2 a))
      | .clear =>
        if (s.lineStall h.slot (some h.order) h.lines).isSome then settleHeld r (kept ++ [h]) s else settleHeld r kept (s.performHeld h)

/-- The steps of one table as its engine's table memory takes them (R111, R114). -/
def tableSteps (e count : Nat) (b : List Byte) : List ((Nat × Nat) × StepWords) :=
  (List.range count).map fun i =>
    ((e, i), { w0 := .ofNat 32 (fieldAt b (8 * i) 4), w1 := .ofNat 32 (fieldAt b (8 * i + 4) 4),
               attr := .ofNat 8 (fieldAt b (8 * count + i) 1) })

/-- Entries of a map replaced one by one. -/
def setAll {κ α : Type} [DecidableEq κ] (m : Map κ α) (l : List (κ × α)) : Map κ α := l.foldl (fun (t : Map κ α) e => t.set e.1 e.2) m

/-- The bytes of a table taken into an engine's table memory from a step on (05_kernel R136). -/
def State.takeTable (s : State) (core e first count : Nat) (b : List Byte) : State :=
  let k := s.core core
  s.setCore core { k with tbl := setAll k.tbl ((tableSteps e count b).map fun (p : (Nat × Nat) × StepWords) => ((p.1.1, p.1.2 + first), p.2)),
                          tloads := k.tloads.drop e }

/-- One pending tload: it is read once no watermark and no write before it stands in the way; on a poisoned byte it ends with its trap. -/
def State.settleLoad (s : State) (core e : Nat) (l : TableLoad) : State :=
  let a := (l.src.map (·.2.1)).headD 0
  match s.meetsBefore (s.slotOf (.seq core 0)) a (9 * l.count) none (some l.order) (some l.order) with
  | .stall _ => s
  | .clear => s.takeTable core e l.first l.count (s.readPieces l.src)
  | .poison p =>
    { s.setCore core { s.core core with tloads := (s.core core).tloads.drop e } with
      atraps := s.atraps ++ [{ who := .seq core 0, trap := { mkTrap .abortedLanding 1 p with async := true }, step := l.step, slot := l.wslot }] }

/-- Every pending tload of a bound core that can be read is. -/
def State.settleLoads (s : State) : State :=
  (List.range 128).foldl (fun (t : State) c =>
    if (s.core c).slot.isNone ∨ (s.core c).tloads.isEmpty then t
    else (s.core c).tloads.foldl (fun (u : State) (e : Nat × TableLoad) => u.settleLoad c e.1 e.2) t) s

/-- Every held write whose watermarks have passed is performed, and every tload that waited for them. -/
def State.settleWrites (s : State) : State := (settleHeld s.heldw [] s).settleLoads

/-- An order waits for the writes of its sequencer that are held and carry a class of a mask (R183). -/
def State.awaitClasses (s : State) (m : BitVec 16) (kind obj : Nat) : Except Stop Unit :=
  let c := Cond.writesDone s.iss.who m
  if c.holds s then .ok () else waitFor kind obj c

/-- The same for the writes of every sequencer of the issuing sequencer's core, which a token or a core semaphore may have ordered before the
order (R189; log 94); a copy sequencer, which no core has, waits for its own. -/
def State.awaitCore (s : State) (kind obj : Nat) : Except Stop Unit :=
  let c := match s.coreOf s.iss.who with
    | some k => Cond.coreWrites k
    | none => Cond.writesDone s.iss.who 0xFFFF
  if c.holds s then .ok () else waitFor kind obj c

/-- An order that is performed after every earlier access of its sequencer waits for the writes of it that are held, as a
watermark-stalled access does (R183, R194). -/
def State.awaitHeld (s : State) (kind obj : Nat) : Except Stop Unit :=
  s.awaitClasses 0xFFFF kind obj

/-- The tag that the first held write of the issuing sequencer waits for, as OBJ names it (05_kernel R117). -/
def State.heldObj (s : State) : Nat :=
  match s.heldw.find? fun h => h.owned && h.who == s.iss.who with
  | some h => match s.meetsBoxes h.slot h.addr h.bytes.length none (some h.order) with
    | .stall t => s.stallObj t
    | _ => 0xFF
  | none => s.tableObj

/-- The mark of an operation on a tag: the first byte of its box that has not landed, of an fcpym the box of DST's own vault; BoxEnd where that
box has landed whole (R319, R324, R330). -/
def markOf (g : Tag) : Nat :=
  match g.op with
  | some (.copy c) =>
    match c.recv.find? fun r => r.vault.isNone || r.vault == some ((descField c.desc 1 56 0 - vaultWindow) / 0x2000000) with
    | some r => let b := destShape c.desc; if b.count ≤ r.pos then b.base + b.extent else b.dst r.pos
    | none => g.addr
  | some (.transfer x) => if x.out then x.addr + x.landed else x.addr
  | some (.crossing x) => if x.fn = 3 then leNat ((x.block.drop 8).take 8) + x.moved else g.addr
  | _ => g.addr

/-- Accesses that a box stalls at or above its mark end: their sequencers take the trap when they issue again (R323; 18_link R390). -/
def State.endStalled (s : State) (b : Box) : State :=
  { s with seqs := s.seqs.map fun (e : Agent × Seq) => (e.1, { e.2 with wait := e.2.wait.map (fun w =>
      match w.cond with
      | .unstalled slot lo hi bound =>
        if slot == b.slot && bound.all (fun o => decide (b.order < o)) then
          (match firstWhere b.above lo (hi - lo) with
           | some a => { w with met := true, poisoned := some a }
           | none => w)
        else w
      | _ => w) }) }

/-- fcan on a copy or a transfer that lands or is frozen (R324): chunks that have not landed are dropped, the rest of the box is
poisoned, and a trap of the copy that waits goes. -/
def State.cancelTag (s : State) (t : TagRef) : State :=
  let g := s.tag t
  if g.st = .landing ∨ g.st = .frozen then
    let op := match g.op with
      | some (.copy c) => some (Op.copy { c with chunks := [] })
      | o => o
    ({ ((boxesOf t g).foldl State.endStalled s).setTag t { g with st := .cancelled, addr := markOf g, rd := true, trp := false, op := op } with
      atraps := s.atraps.filter fun a => decide (a.tag ≠ some t) }).settleWrites
  else s

/-- An asynchronous operation that C of a core issued is complete: bit 3 of its event latch (12_scalar R260). -/
def State.opEnded (s : State) (o : TagOwner) : State :=
  match o with
  | .core c => if (s.core c).slot.isSome then s.setCore c { s.core c with evt := (s.core c).evt ||| 8#4 } else s
  | .copy _ => s

end Sys2Proof.Machine
end

