-- ==== Sys2Proof/Machine/Save.lean ====
section
/-! DEFINITION. The core image (04_context R103): what is written of a core, and how an image is loaded (R104, R110). The places of the
fields inside the areas that R103 names are the model's (log 20). -/

namespace Sys2Proof.Machine

/-- Codes of the states of a tag (R319). -/
def TagState.code : TagState → Nat
  | .idle => 0 | .landing => 1 | .frozen => 2 | .cancelled => 3 | .landed => 4

/-- The 64 bits of WMt (R319). -/
def Tag.word (g : Tag) : Word :=
  .ofNat 64 (g.addr % 2 ^ 57 + g.st.code * 2 ^ 57 + (if g.rd then 2 ^ 60 else 0) + (if g.rep then 2 ^ 61 else 0) +
    (if g.qf then 2 ^ 62 else 0) + (if g.trp then 2 ^ 63 else 0))

/-- A transfer taken out of its claim's order (16_bitserial R351, R354). -/
def State.forgetTransfer (s : State) (slot : Nat) (t : TagRef) : State :=
  match (s.ctx slot).claim with
  | some m =>
    s.setCtx slot { s.ctx slot with claim := some { m with
      queue := m.queue.filter fun e => decide (e ≠ .transfer t),
      pending := m.pending.filter fun p => decide (p ≠ t) } }
  | none => s

/-! ### Bytes of fields -/

/-- A list of bytes cut or filled with zeros to a length. -/
def pad (n : Nat) (l : List Byte) : List Byte := (l ++ List.replicate (n - l.length) 0).take n

/-- A field of an image. -/
def fld8 (b : List Byte) (off n : Nat) : Nat := leNat ((b.drop off).take n)

/-- `n` registers from `lo` on. -/
def regBytes (m : Map Nat Word) (lo n : Nat) : List Byte := (List.range n).flatMap fun i => leBytes 8 (m.get 0 (lo + i)).toNat

/-- The registers that such bytes hold. -/
def bytesRegs (b : List Byte) (off lo n : Nat) : Map Nat Word := (List.range n).map fun i => (lo + i, .ofNat 64 (fld8 b (off + 8 * i) 8))

/-- A bit as a byte. -/
def boolByte (b : Bool) : Byte := if b then 1 else 0

/-- The run state of a sequencer in its record: stopped 0, to go on 1, held 2. -/
def Run.saved : Run → Nat
  | .stopped => 0 | .held => 2 | _ => 1

/-- The run state that a record names. -/
def savedRun (n : Nat) : Run := if n = 1 then .running else if n = 2 then .held else .stopped

/-- A loop frame, 40 bytes. -/
def Frame.bytes (f : Frame) : List Byte :=
  leBytes 8 f.first.toNat ++ leBytes 8 f.last.toNat ++ leBytes 8 f.trips ++ leBytes 8 f.index ++
    leBytes 1 f.reg ++ [boolByte f.rotating] ++ leBytes 1 f.stages ++ List.replicate 5 0

/-- The frame in 40 bytes. -/
def frameAt (b : List Byte) (off : Nat) : Frame :=
  { first := .ofNat 64 (fld8 b off 8), last := .ofNat 64 (fld8 b (off + 8) 8), trips := fld8 b (off + 16) 8, index := fld8 b (off + 24) 8,
    reg := fld8 b (off + 32) 1 % 4, rotating := fld8 b (off + 33) 1 % 2 == 1, stages := fld8 b (off + 34) 1 % 16 }

/-- Frames in the bytes at an offset, at most four. -/
def framesIn (b : List Byte) (off n : Nat) : List Frame := (List.range (min n 4)).map fun i => frameAt b (off + 40 * i)

/-- One-bit predicate entries, a byte each. -/
def narrowStack (l : List (BitVec 1024)) : List Byte := pad 8 (l.map fun e => boolByte (e.getLsbD 0))

/-- The entries that such bytes hold. -/
def stackIn (b : List Byte) (off n : Nat) (wide : Bool) : List (BitVec 1024) :=
  (List.range (min n 8)).map fun i =>
    if wide then .ofNat 1024 (fld8 b (off + 128 * i) 128) else if fld8 b (off + i) 1 % 2 = 1 then BitVec.allOnes 1024 else 0

/-! ### The record of a sequencer (2,048 bytes) -/

/-- The wait record of an abandoned step, 32 bytes: its step, the clocks and the nanoseconds for which it has waited, kind, object and slot (R101). -/
def keptBytes : Option Wait → List Byte
  | some w => leBytes 8 w.step.toNat ++ leBytes 8 w.since ++ leBytes 8 w.sinceWall ++ leBytes 1 w.kind ++ leBytes 2 w.obj ++ leBytes 5 w.slot
  | none => List.replicate 32 0

/-- The record in the bytes at an offset; kind 0 is none. -/
def keptIn (b : List Byte) (off : Nat) : Option Wait :=
  if fld8 b (off + 24) 1 % 16 = 0 then none
  else some { kind := fld8 b (off + 24) 1 % 16, obj := fld8 b (off + 25) 2, cond := .again, since := fld8 b (off + 8) 8, sinceWall := fld8 b (off + 16) 8,
              step := .ofNat 64 (fld8 b off 8), slot := fld8 b (off + 27) 1 % 2 }

/-- The record: step counter, states, loop registers, frames, predicate stack (with what else C keeps there), held tokens, the wait, and the
sequencer's own registers. -/
def Seq.record (q : Seq) (wide pending : Bool) (second own : List Byte) : List Byte :=
  leBytes 8 q.pc.toNat ++
  [.ofNat 8 q.run.saved, .ofNat 8 q.prior.saved, boolByte q.halting, .ofNat 8 q.frames.length, .ofNat 8 q.stack.length, q.fflags,
   boolByte pending, 0] ++
  regBytes q.lc 0 4 ++ pad 160 (q.frames.flatMap Frame.bytes) ++
  pad 1024 (if wide then q.stack.flatMap (fun e => leBytes 128 e.toNat) else narrowStack q.stack ++ second) ++
  pad 40 (q.heldTok.flatMap fun e => leBytes 1 e.1 ++ leBytes 3 e.2) ++
  leBytes 8 ((q.kept.map (·.kind)).getD 0) ++ leBytes 8 ((q.kept.map (·.obj)).getD 0) ++ pad 728 own ++ keptBytes q.kept

/-- Held tokens in the bytes at an offset. -/
def tokensIn (b : List Byte) (off : Nat) : List (Nat × Nat) :=
  ((List.range 10).map fun i => (fld8 b (off + 4 * i) 1, fld8 b (off + 4 * i + 1) 3)).filter fun e => decide (e.1 < 10) && e.2 != 0

/-- A sequencer as a record gives it; what no record holds stays. -/
def Seq.load (q : Seq) (b : List Byte) (wide : Bool) : Seq :=
  { q with pc := .ofNat 64 (fld8 b 0 8), run := savedRun (fld8 b 8 1), prior := savedRun (fld8 b 9 1), halting := fld8 b 10 1 % 2 == 1, idleUntil := 0,
           fflags := .ofNat 8 (fld8 b 13 1), lc := bytesRegs b 16 0 4, frames := framesIn b 48 (fld8 b 11 1),
           stack := stackIn b 208 (fld8 b 12 1) wide, heldTok := tokensIn b 1232, wait := none, kept := keptIn b 2016, taken := none }

/-- A vector engine's own registers. -/
def Seq.vectorOwn (q : Seq) : List Byte :=
  leBytes 8 q.base ++ leBytes 8 q.vtype.toNat ++ leBytes 8 q.patreg.toNat ++ regBytes q.es 0 8 ++ regBytes q.asb 0 8 ++ regBytes q.str 0 64 ++
    q.ring.flatMap fun e => leBytes 2 (e.getD 0xFFFF)

/-- They loaded, reserved bits as zeros (00_scope R3). -/
def Seq.loadVector (q : Seq) (b : List Byte) : Seq :=
  { q with base := fld8 b 1288 2 % 1024, vtype := .ofNat 64 (fld8 b 1296 8) &&& 0xFFF, patreg := .ofNat 24 (fld8 b 1304 3), es := bytesRegs b 1312 0 8,
           asb := bytesRegs b 1376 0 8, str := bytesRegs b 1440 0 64,
           ring := (List.range 4).map fun i => if fld8 b (1952 + 2 * i) 2 < 768 then some (fld8 b (1952 + 2 * i) 2) else none }

/-- M's own registers: MROWP, and the load record (14_matrix R303) with WFMT and WMX. -/
def Core.matrixOwn (k : Core) : List Byte :=
  leBytes 8 k.mrowp.toNat ++ [boolByte k.wload.isSome] ++ [boolByte ((k.wload.map (·.sparse)).getD false)] ++
    leBytes 2 ((k.wload.map (·.row)).getD 0) ++ leBytes 2 k.wfmt ++ leBytes 2 k.wmx ++
    leBytes 32 ((k.wload.map WLoad.a).getD 0).toNat ++ leBytes 32 ((k.wload.map WLoad.b).getD 0).toNat ++
    leBytes 2 ((k.wload.map (·.step)).getD 0) ++ leBytes 1 ((k.wload.map (·.slot)).getD 0)

/-- The load record in M's record. -/
def wloadIn (b : List Byte) : Option WLoad :=
  if fld8 b 1296 1 % 2 = 1 then
    some { sparse := fld8 b 1297 1 % 2 == 1, row := fld8 b 1298 2, a := .ofNat 256 (fld8 b 1304 32), b := .ofNat 256 (fld8 b 1336 32),
           step := fld8 b 1368 2 % 2048, slot := fld8 b 1370 1 % 2 }
  else none

/-- The nine registers of the trap record. -/
def TrapRec.words (r : TrapRec) : List Word := [r.cause, r.info, r.addr, r.seq, r.step, r.slot, r.tile, r.fmt, r.ret]

/-- The fields of MROWP that a write reaches (14_matrix R301). -/
def mrowpMask : Word := 0x8FFFFFFF

/-- A trap record from the bytes at an offset, reserved bits as zeros (19_faults R396). -/
def trecIn (b : List Byte) (off : Nat) : TrapRec :=
  let w := fun i => BitVec.ofNat 64 (fld8 b (off + 8 * i) 8)
  { cause := w 0 &&& 0x3FF, info := w 1, addr := w 2, seq := w 3 &&& 0x7FF707, step := w 4, slot := w 5 &&& 1, tile := w 6 &&& 0xFFFFFFFF, fmt := w 7 &&& 0xFFF,
    ret := w 8 }

/-- C's own registers: s1-s31 of the interrupted bank, the trap record, the watchdog limit, the destination of a scall, the event latch, the
counter select and the counters of steps, waits and traps (12_scalar R260, R261; 08_memory R173). -/
def Core.controlOwn (k : Core) (sreg : Map Nat Word) : List Byte :=
  regBytes sreg 1 31 ++ k.trec.words.flatMap (fun w => leBytes 8 w.toNat) ++ leBytes 8 k.wdog.toNat ++
    leBytes 8 (match k.bank with
      | some b => (b.pendingSd.map (· + 1)).getD 0
      | none => 0) ++
    leBytes 8 k.evt.toNat ++ leBytes 8 k.msel.toNat ++ leBytes 8 k.cstep ++ leBytes 8 k.cwait ++ leBytes 8 k.ctrap

/-- The event latch of C's record. -/
def evtIn (r : List Byte) : BitVec 4 := .ofNat 4 (fld8 r 1624 1)

/-- The select and the counters of C's record loaded. -/
def Core.loadCounts (k : Core) (r : List Byte) : Core :=
  { k with msel := .ofNat 6 (fld8 r 1632 1), cstep := fld8 r 1640 8, cwait := fld8 r 1648 8, ctrap := fld8 r 1656 8 }

/-- The handler's bank, in trap mode (R106). -/
def Seq.handlerBank (q : Seq) : List Byte :=
  regBytes q.sreg 1 31 ++ regBytes q.lc 0 4 ++ pad 160 (q.frames.flatMap Frame.bytes) ++
    [.ofNat 8 q.frames.length, .ofNat 8 q.stack.length] ++ narrowStack q.stack ++ keptBytes q.kept

/-- C's record. In trap mode the fields of the record are the interrupted bank's, and the second bank is the handler's; ctxsv leaves the
handler's out and takes TRET for the step counter (R109). -/
def State.controlRecord (s : State) (c : Nat) (interrupted pending : Bool) : List Byte :=
  let k := s.core c
  let q := s.seq (.seq c sqC)
  match k.bank with
  | none => q.record false pending [] (k.controlOwn q.sreg)
  | some b =>
    let q1 := { q with lc := b.lc, frames := b.frames, stack := b.stack, kept := b.kept }
    if interrupted then { q1 with pc := k.trec.ret, run := .running }.record false pending [] (k.controlOwn b.sreg)
    else q1.record false pending q.handlerBank (k.controlOwn b.sreg)

/-! ### The image -/

/-- Registers of a core that its kernel declares and that are live (R103). -/
def Core.saveRegs (k : Core) : List Nat :=
  (List.range ((k.kern.map (·.vregs)).getD 0)).filter fun v => k.live.get false v

/-- The byte count of an image with a number of live registers. -/
def imageSize (l : Nat) : Nat := 0x46000 + 512 * l

/-- Ranks or core numbers as a mask of bits, 16 bytes. -/
def rankBits (l : List Nat) : List Byte := leBytes 16 (((List.range 128).filter l.contains).foldl (fun n i => n + 2 ^ i) 0)

/-- The numbers that such bytes name. -/
def ranksIn (b : List Byte) (off : Nat) : List Nat := (List.range 128).filter fun i => bit (fld8 b off 16) i

/-- The ranks that count as arrived in the current phase: those that have, and those whose C has halted (10_barrier R200). -/
def Group.atBarrier (r : Group) : Nat := ((List.range r.size).filter fun k => r.arrived.contains k || r.halted.contains k).length

/-- The registers of a core's group (07_group R152; 10_barrier R199): GINFO, GARGS, GTILES, GLEFT, GBAR, the arrival bits, the halted ranks
and COMMITTED. -/
def State.groupRegs (s : State) (k : Core) : List Byte :=
  match k.group with
  | none => List.replicate 80 0
  | some g =>
    let r := s.group g
    leBytes 8 (k.rank + r.size * 2 ^ 8 + r.q * 2 ^ 16) ++ leBytes 8 (fld8 r.card 0x18 8) ++ leBytes 8 (fld8 r.card 0x20 6) ++
      leBytes 8 r.untaken ++ leBytes 8 (r.phase.toNat + r.atBarrier * 2 ^ 32) ++ rankBits r.arrived ++ rankBits r.halted ++ leBytes 8 r.committed

/-- The 3,840 bytes at 0x100: core semaphores, token queues, the open tile, the group's registers and the deque. -/
def State.groupArea (s : State) (c : Nat) : List Byte :=
  let k := s.core c
  let d := match k.group with
    | some g => (s.group g).deques.get [] k.rank
    | none => []
  (List.range 32).flatMap (fun i => leBytes 4 (k.sem.get 0 i).toNat) ++
  (List.range 10).flatMap (fun i => leBytes 4 (k.tokQ.get {} i).count ++ leBytes 4 (k.tokQ.get {} i).depth) ++
  leBytes 8 k.pool ++ [boolByte k.opened, boolByte k.nidem, .ofNat 8 k.cbuf.length, 0, 0, 0, 0, 0] ++ leBytes 8 k.tile ++
  leBytes 8 d.length ++ pad 528 (s.groupRegs k) ++ pad 3072 (d.flatMap fun e => leBytes 6 e.first ++ leBytes 6 e.count)

/-- The 8 KiB at 0x4000: md0-md15, fd0-fd15 of LF and of SF, and the tags with their operations' marks. -/
def State.tagArea (s : State) (c : Nat) : List Byte :=
  let k := s.core c
  (List.range 16).flatMap (fun i => leBytes 32 (k.md.get 0 i).toNat) ++
  (List.range 16).flatMap (fun i => leBytes 64 ((s.seq (.seq c sqLF)).fd.get 0 i).toNat) ++
  (List.range 16).flatMap (fun i => leBytes 64 ((s.seq (.seq c sqSF)).fd.get 0 i).toNat) ++
  (List.range 64).flatMap fun i =>
    let g := s.tag { owner := .core c, tag := i }
    leBytes 8 g.word.toNat ++ [.ofNat 8 g.xst, boolByte g.lost, 0, 0, 0, 0, 0, 0]

/-- The rows of the accumulators that a kernel declares. -/
def Core.accArea (k : Core) : List Byte :=
  (List.range ((k.kern.map (·.accs)).getD 0)).flatMap fun a => (List.range 64).flatMap fun r => leBytes 256 (k.acc.get 0 (a, r)).toNat

/-- The image of a core in pieces, each an offset and its bytes: `number` is its core number, `trapped` the sequencer whose trap is pending,
`interrupted` says that only the interrupted state of C is wanted (R103, R109). -/
def State.coreImage (s : State) (c number : Nat) (trapped : Option Nat) (interrupted : Bool) : List (Nat × List Byte) :=
  let k := s.core c
  let regs := k.saveRegs
  let flags := 1 + (s.ctx (k.slot.getD 0)).id * 2 ^ 8 + number * 2 ^ 16 + (if k.bank.isSome && !interrupted then 2 ^ 24 else 0) +
    (if trapped.isSome then 2 ^ 25 else 0)
  let rec1 := fun q => decide (trapped = some q)
  let plain := fun e => (s.seq (.seq c e)).record false (rec1 e) [] []
  let vector := fun e => (s.seq (.seq c e)).record true (rec1 e) [] (s.seq (.seq c e)).vectorOwn
  [(0, leBytes 8 flags ++ leBytes 8 ((k.kern.map (·.base)).getD 0) ++ leBytes 8 (imageSize regs.length)),
   (0x40, leBytes 96 (regs.foldl (fun n v => n + 2 ^ v) 0)),
   (0x100, s.groupArea c),
   (0x1000, s.controlRecord c interrupted (rec1 sqC)), (0x1800, plain sqLF),
   (0x2000, (s.seq (.seq c sqM)).record false (rec1 sqM) [] k.matrixOwn),
   (0x2800, vector sqVA), (0x3000, vector sqVB), (0x3800, plain sqSF),
   (0x4000, s.tagArea c),
   (0x6000, k.accArea),
   (0x46000, regs.flatMap fun v => leBytes 512 (k.vreg.get 0 v).toNat)]

/-- Bytes cut into the pieces of their address range. -/
def cutBytes : List (Nat × Nat) → List Byte → List (Nat × List Byte)
  | [], _ => []
  | (a, n) :: r, b => (a, b.take n) :: cutBytes r (b.drop n)

/-- The writes of an image at an address, one for each unit of 64 KiB that it touches. -/
def imageWrites (base : Nat) (l : List (Nat × List Byte)) : List (Nat × List Byte) :=
  l.flatMap fun p => cutBytes (spanPieces (base + p.1) p.2.length) p.2

/-- Writes of the device for a context: one that faults is dropped (19_faults R400), one that meets a watermark is held at its home (09_ordering R194),
and one that meets poison is discarded (15_ferry R323). -/
def State.writeOut (s : State) (slot : Nat) (l : List (Nat × List Byte)) : State :=
  l.foldl (fun (t : State) p =>
    match locateAll t slot .write false (spanPieces p.1 p.2.length), t.meets slot p.1 p.2.length none with
    | .ok ps, .clear => (t.ledAll ps).writePieces ps p.2
    | .ok ps, .stall _ =>
      let u := t.noteAll ps
      { u with heldw := u.heldw ++ [{ who := .copy 255, slot := slot, addr := p.1, bytes := p.2, step := 0, wslot := 0, classes := 0x8000,
                                      order := u.nextOp, owned := false }], nextOp := u.nextOp + 1 }
    | _, _ => t) s

/-! ### Loading -/

/-- An image as it is read: the bytes below 0x4_6000 that its kernel's accumulators reach, and the live registers. -/
structure CoreImage where
  main : List Byte
  regs : List Byte

/-- The live registers that an image names. -/
def liveIn (b : List Byte) : List Nat := (List.range 768).filter fun v => bit (fld8 b 0x40 96) v

/-- The deque in an image. -/
def dequeIn (b : List Byte) : List TileRun :=
  ((List.range (min (fld8 b 0x1E8 8) 256)).map fun i => ({ first := fld8 b (0x400 + 12 * i) 6, count := fld8 b (0x406 + 12 * i) 6 } : TileRun)).filter
    fun e => e.count != 0

/-- A member's deque replaced; tiles that the image adds are again untaken (07_group R159). -/
def Group.setDeque (r : Group) (rank : Nat) (d : List TileRun) : Group :=
  let old := ((r.deques.get [] rank).map (·.count)).sum
  let new := (d.map (·.count)).sum
  let u := r.untaken + new - old
  { r with deques := r.deques.set rank d, untaken := u,
           st := if r.st = .draining ∧ 0 < u then .running else if r.st = .running ∧ u = 0 then .draining else r.st }

/-- What an image gives of the parts of a core outside its sequencers. -/
def Core.load (k : Core) (i : CoreImage) : Core :=
  let b := i.main
  let lv := liveIn b
  let wl := wloadIn (b.drop 0x2000)
  { k with
    sem := (List.range 32).map fun n => (n, .ofNat 32 (fld8 b (0x100 + 4 * n) 4)),
    tokQ := (List.range 10).map fun n => (n, { count := fld8 b (0x180 + 8 * n) 4, depth := fld8 b (0x184 + 8 * n) 4 }),
    pool := fld8 b 0x1D0 8,
    opened := fld8 b 0x1D8 1 % 2 == 1, nidem := fld8 b 0x1D9 1 % 2 == 1, cbuf := k.cbuf.take (fld8 b 0x1DA 1), tile := fld8 b 0x1E0 8,
    committing := k.committing && fld8 b 0x1D8 1 % 2 == 1,
    mrowp := .ofNat 64 (fld8 b 0x2508 8) &&& mrowpMask, wfmt := fld8 b 0x2514 2, wmx := fld8 b 0x2516 2, wload := wl,
    wreload := k.wreload || decide (wl ≠ k.wload),
    md := (List.range 16).map fun n => (n, .ofNat 256 (fld8 b (0x4000 + 32 * n) 32)),
    acc := (List.range ((k.kern.map (·.accs)).getD 0)).flatMap fun a => (List.range 64).map fun r =>
      ((a, r), .ofNat 2048 (fld8 b (0x6000 + 0x4000 * a + 256 * r) 256)),
    live := lv.map fun v => (v, true),
    vreg := lv.mapIdx fun n v => (v, .ofNat 4096 (fld8 i.regs (512 * n) 512)) }

/-- A tag's state code. -/
def tagStateOf (n : Nat) : TagState := if n = 1 then .landing else if n = 2 then .frozen else if n = 3 then .cancelled else if n = 4 then .landed else .idle

/-- The landing position of a box whose byte lies first at or above an address (15_ferry R315). -/
def Shape.atOrAbove (b : Shape) (a : Nat) : Nat :=
  if a ≤ b.base then 0
  else
    let o3 := a - b.base
    let i3 := dimIndex o3 b.c3 b.d3
    let o2 := o3 - i3 * b.d3
    let i2 := dimIndex o2 b.c2 b.d2
    let o1 := o2 - i2 * b.d2
    let i1 := dimIndex o1 b.c1 b.d1
    ((i3 * (b.c2 + 1) + i2) * (b.c1 + 1) + i1) * b.len + min (o1 - i1 * b.d1) b.len

/-- An operation set to a frozen mark that an image records (R110): the box of DST's own vault, or the bytes that a bsout has landed. -/
def Op.atMark (o : Op) (a : Nat) : Op :=
  match o with
  | .copy c =>
    let b := destShape c.desc
    let p := min (b.atOrAbove a) b.count
    let recv := c.recv.map fun r => if r.vault.isNone ∨ r.vault = some ((b.base - vaultWindow) / 0x2000000) then { r with pos := p } else r
    .copy { c with recv := recv, chunks := [], rpos := (recv.map (·.pos)).foldl min p }
  | .transfer x => if x.out then .transfer { x with landed := min (a - x.addr) x.len } else o
  | _ => o

/-- A tag that an image gives as complete while its operation goes on: the operation ends where it stands. -/
def State.dropOp (s : State) (t : TagRef) (g : Tag) : State :=
  let s1 := match (s.tag t).op with
    | some (.transfer x) => s.forgetTransfer x.slot t
    | _ => s
  ({ s1.setTag t g with atraps := s1.atraps.filter fun a => decide (a.tag ≠ some t) }).settleWrites

/-- A tag as an image gives it (R104, R110): an operation that goes on is the core's own, from the mark that the image records for a frozen one and, at
a restore (`whole`), for one that the pre-emption stopped; one that the image cancels or ends is cancelled or ended; one that is pending in the image
only is lost. -/
def State.loadTag (s : State) (t : TagRef) (b : List Byte) (whole : Bool) : State :=
  let w := fld8 b 0 8
  let g := s.tag t
  let a := bits w 56 0
  let st := tagStateOf (bits w 59 57)
  let plain : Tag := { g with addr := a, st := st, rd := bit w 60, rep := bit w 61, qf := bit w 62, trp := false, xst := fld8 b 8 1,
                              lost := fld8 b 9 1 % 2 == 1, op := none }
  if !g.complete then
    if st = .cancelled then
      let s1 := s.cancelTag t
      match g.op with
      | some (.transfer x) => s1.forgetTransfer x.slot t
      | _ => s1
    else if st = .landed ∨ st = .idle then (match g.op with
      | some (.fork _) => s.setTag t { g with rep := bit w 61 }
      | _ => s.dropOp t plain)
    else
      let g1 := { g with rep := bit w 61 }
      let g2 := if (whole ∨ st = .frozen) ∧ a ≠ g.addr then { g1 with addr := a, op := g1.op.map (Op.atMark · a) } else g1
      if whole ∧ st ≠ g.st then
        { s.setTag t { g2 with st := st, trp := bit w 63 } with atraps := s.atraps.filter fun e => decide (e.tag ≠ some t) }
      else s.setTag t g2
  else if st = .landing ∨ st = .frozen then
    if g.st = .idle then s.setTag t { addr := bits w 56 0, st := .idle, rd := true, rep := bit w 61, lost := true } else s
  else if g.op.isSome then s.setTag t { g with rep := bit w 61 }
  else s.setTag t plain

/-- The 64 tags of a core loaded. -/
def State.loadTags (s : State) (c : Nat) (b : List Byte) (whole : Bool) : State :=
  (List.range 64).foldl (fun (t : State) n => t.loadTag { owner := .core c, tag := n } ((b.drop (0x4A00 + 16 * n)).take 16) whole) s

/-- The engines of a core loaded. -/
def State.loadEngines (s : State) (c : Nat) (b : List Byte) : State :=
  let rec_ := fun e => (b.drop (0x1000 + 2048 * e)).take 2048
  let fds := fun (off : Nat) => (List.range 16).map fun n => (n, BitVec.ofNat 512 (fld8 b (off + 64 * n) 64))
  let put := fun (t : State) e (f : Seq → Seq) => t.setSeq (.seq c e) (f ((t.seq (.seq c e)).load (rec_ e) (e == sqVA || e == sqVB)))
  let s1 := put s sqLF fun q => { q with fd := fds 0x4200 }
  let s2 := put s1 sqM id
  let s3 := put s2 sqVA fun q => q.loadVector (rec_ sqVA)
  let s4 := put s3 sqVB fun q => q.loadVector (rec_ sqVB)
  put s4 sqSF fun q => { q with fd := fds 0x4600 }

/-- The parts of an image that are the same for a restore (`whole`) and a ctxld: memories of the core, deque, tags, engines. -/
def State.loadParts (s : State) (c : Nat) (i : CoreImage) (whole : Bool) : State :=
  let k := s.core c
  let s1 := match k.group with
    | some g => s.setGroup g ((s.group g).setDeque k.rank (dequeIn i.main))
    | none => s
  ((s1.setCore c (k.load i)).loadTags c i.main whole).loadEngines c i.main

/-- An image taken into the interrupted state of a core whose C is in trap mode (R110): C goes on at the image's step counter; engines stay
held until rft releases them. -/
def State.loadInterrupted (s : State) (c : Nat) (b : Bank) (i : CoreImage) : State :=
  let s1 := s.loadParts c i false
  let r := (i.main.drop 0x1000).take 2048
  let q := (s1.seq (.seq c sqC)).load r false
  let k := s1.core c
  let trapMode := bit (fld8 i.main 0 8) 24
  let bank : Bank := { b with sreg := bytesRegs r 1288 1 31, lc := q.lc, frames := q.frames, stack := q.stack, kept := q.kept,
                              pendingSd := if fld8 r 1616 8 = 0 then none else some ((fld8 r 1616 8 - 1) % 32) }
  let ret := if trapMode then (trecIn r 1536).ret else q.pc
  let s2 := s1.setCore c { k.loadCounts r with bank := some bank, trec := { k.trec with ret := ret } }
  let c0 := s2.seq (.seq c sqC)
  let s3 := s2.setSeq (.seq c sqC) { c0 with fflags := q.fflags, heldTok := q.heldTok, halting := q.halting }
  [1, 2, 3, 4, 5].foldl (fun (t : State) e =>
    let v := t.seq (.seq c e)
    t.setSeq (.seq c e) (if v.run = .running then { v with run := .held, prior := .running } else v)) s3

/-- The barrier of a restored core's group as its image gives it (10_barrier R199). -/
def State.loadBarrier (s : State) (c : Nat) (b : List Byte) : State :=
  match (s.core c).group with
  | some g => s.setGroup g { s.group g with phase := .ofNat 32 (fld8 b 0x210 4), arrived := ranksIn b 0x218 }
  | none => s

/-- The sequencers of a restored core that go on, each in the wait that it was abandoned in (R101). -/
def State.againAll (s : State) (c : Nat) : State :=
  (List.range 6).foldl (fun (t : State) e => if (t.seq (.seq c e)).run = .running then t.setSeq (.seq c e) ((t.seq (.seq c e)).again t) else t) s

/-- An image restored to a core (R104): the whole of C's state, both banks of it in trap mode. An event that came while the core was saved is latched
beside those of the image (R100). -/
def State.loadCore (s : State) (c : Nat) (i : CoreImage) : State :=
  let s1 := (s.loadParts c i true).loadBarrier c i.main
  let r := (i.main.drop 0x1000).take 2048
  let q := (s1.seq (.seq c sqC)).load r false
  let k := { (s1.core c).loadCounts r with evt := (s1.core c).evt ||| evtIn r, trec := trecIn r 1536, wdog := .ofNat 32 (fld8 r 1608 8), wreload := (s1.core c).wload.isSome }
  let sregs := bytesRegs r 1288 1 31
  if bit (fld8 i.main 0 8) 24 then
    let old := (k.bank.getD {}).resume
    let bank : Bank := { sreg := sregs, lc := q.lc, frames := q.frames, stack := q.stack, resume := old, kept := q.kept,
                         pendingSd := if fld8 r 1616 8 = 0 then none else some ((fld8 r 1616 8 - 1) % 32) }
    ((s1.setCore c { k with bank := some bank }).setSeq (.seq c sqC)
      { q with sreg := bytesRegs r 216 1 31, lc := bytesRegs r 464 0 4, frames := framesIn r 496 (fld8 r 656 1),
               stack := stackIn r 658 (fld8 r 657 1) false, kept := keptIn r 666 }).againAll c
  else ((s1.setCore c { k with bank := none }).setSeq (.seq c sqC) { q with sreg := sregs }).againAll c

end Sys2Proof.Machine
end

