-- ==== Sys2Proof/Machine/Transmit.lean ====
section
/-! DEFINITION. What the module sends to the host over the Fenvar link (18_link R375, R376): completion records and interrupts as payload flits,
kept for a replay until they are acknowledged. -/

namespace Sys2Proof.Machine

/-- How many flits the replay buffer holds: 512, or 128 without feature bit 0 (R376, R377). -/
def Link.replayRoom (l : Link) : Nat := if bit l.feat.toNat 0 then 512 else 128

/-- A flit of 256 bytes: the header with its type, its sequence number, the sequence number that it acknowledges or names, and the credits that it returns;
the payload, the CRC and the parity (R375). What the fields of a flit that needs none hold, and the codes, are the model's (log 68). -/
def Link.flit (l : Link) (kind no ack : Nat) (b : List Byte) : List Byte :=
  let head := leBytes 4 (kind % 16 + no % 1024 * 2 ^ 4 + ack % 1024 * 2 ^ 14 + Config.linkCredits l.out.length % 256 * 2 ^ 24) ++ pad 238 b
  let body := head ++ leBytes 8 (Config.linkCrc head)
  body ++ leBytes 6 (Config.linkParity body)

/-- The sequence number that a flit acknowledges: that of the last flit taken in. -/
def Link.lastIn (l : Link) : Nat := (l.rxSeq + 1023) % 1024

/-- A flit sent. -/
def Link.emit (l : Link) (kind no ack : Nat) (b : List Byte) : Link := { l with out := l.out ++ [l.flit kind no ack b] }

/-- A payload flit sent under the next sequence number and kept in the replay buffer. -/
def Link.transmit (l : Link) (b : List Byte) : Link :=
  { l.emit 1 l.txSeq l.lastIn b with txSeq := (l.txSeq + 1) % 1024, txBuf := l.txBuf ++ [(l.txSeq, b)] }

/-- Payloads sent in order as far as the replay buffer has room; the others wait. -/
def Link.sendWaiting (l : Link) : List (List Byte) → Link
  | [] => { l with txWait := [] }
  | b :: r => if l.txBuf.length < l.replayRoom then (l.transmit b).sendWaiting r else { l with txWait := b :: r }

/-- A transaction for the host: it waits behind those that wait. On a link that is down it is not sent. -/
def State.sendHost (s : State) (kind a : Nat) (b : List Byte) : State :=
  if s.mgmt.main = .ready ∧ s.link.up = true then { s with link := s.link.sendWaiting (s.link.txWait ++ [pad 238 (Config.transaction kind a b)]) } else s

/-- Raise an interrupt vector on the host (R382). -/
def State.irq (s : State) (v : Nat) : State := { s.sendHost 0 v [] with mgmt := { s.mgmt with irqs := s.mgmt.irqs ++ [v] } }

/-- The acknowledged sequence number and the credits of a flit taken: what is acknowledged leaves the replay buffer, and what waits for room goes. -/
def Link.ack (l : Link) (f : Flit) : Link :=
  Link.sendWaiting
    { l with txBuf := if l.txBuf.any fun e => e.1 == f.ackNo then (l.txBuf.dropWhile fun e => e.1 != f.ackNo).drop 1 else l.txBuf,
             credits := l.credits + f.credits } l.txWait

end Sys2Proof.Machine
end

