-- ==== Sys2Proof/Machine/Trap.lean ====
section
/-! DEFINITION. Taking a trap and returning from one (04_context R106-R108; 19_faults R396-R401), and how the exec of one slot ends. -/

namespace Sys2Proof.Machine

/-- How a slot ended, recorded for the step. -/
def State.ended (s : State) (o : Out) (keep : Bool := false) : State := { s with iss := { s.iss with out := o, keep := keep } }

/-- TSEQ (R396): sequencer code, unit, stream slot and the core that holds the record. -/
def tseqOf (a : Agent) (core : Nat) : Nat :=
  core * 2 ^ 16 + (match a with
    | .seq _ q => q
    | .pier p k => 6 + p * 2 ^ 8 + k * 2 ^ 12
    | .copy n => 7 + n * 2 ^ 8)

/-- The trap record of a trap (R396): TRET is the address of C's next step, or of C's trapping step, or what scall gives. -/
def recordOf (a : Agent) (core : Nat) (t : Trap) (step : Word) (slot : Nat) (ret : Word) (esc : Bool) : TrapRec :=
  { cause := .ofNat 64 (t.cause.code + (if t.async then 256 else 0) + (if esc then 512 else 0)), info := t.info, addr := t.addr,
    seq := .ofNat 64 (tseqOf a core), step := step, slot := .ofNat 64 slot, tile := t.tile, fmt := t.fmt, ret := ret }

/-- A qtake or a qsteal of slot 0 undone (07_group R161): the deques go back where nothing has moved since, else the tile goes back to the bottom of its
rank's deque. -/
def State.untake (s : State) (a : Agent) (before after : Group) : State :=
  match a with
  | .seq c _ =>
    let k := s.core c
    match k.group with
    | none => s
    | some g =>
      let r := s.group g
      let taken := before.untaken - after.untaken
      let d := if r.deques = after.deques then before.deques
        else if taken = 0 then r.deques
        else r.deques.set k.rank (r.deques.get [] k.rank ++ [{ first := k.tile, count := 1 }])
      (s.setGroup g { r with deques := d, untaken := r.untaken + taken, st := if r.st = .draining ∧ taken ≠ 0 then .running else r.st }).setCore c
        { k with opened := k.opened && taken == 0 }
  | _ => s

/-- What slot 0 of a step that is abandoned at slot 1 leaves (R101; log 107): nothing, where it has acted on registers of its sequencer or taken a tile;
an effect outside the sequencer stands, and the step will go on at slot 1. -/
def State.leaveFirst (s : State) (a : Agent) : State :=
  match s.parked.find? (fun e => decide (e.1 = a)) with
  | some (_, iss) =>
    let q := s.seq a
    if (iss.rest.head?.map (·.1)) ≠ some 1 ∨ q.resume.isSome then s
    else if iss.stands then s.setSeq a { q with resume := some { here := iss.here, slot := 1, phase := .second } }
    else
      let s1 := match iss.tiles with
        | some (x, y) => s.untake a x y
        | none => s
      let back := s1.setSeq a { iss.old with run := q.run, prior := q.prior, wait := q.wait, kept := q.kept, taken := q.taken, resume := q.resume, seen := q.seen }
      match a with
      | .seq c _ =>
        let k := back.core c
        back.setCore c (iss.wrote.foldl (fun (k : Core) v =>
          { k with vreg := k.vreg.set v.reg v.old, live := k.live.set v.reg v.live }) k)
      | _ => back
  | none => s

/-- A sequencer that leaves a step before it retires (R101): its tokens go back and its wait record is kept for the issue that follows; a row order of
M stops at its row, which MROWP records (14_matrix R302); what another first phase has done stands. -/
def State.abandon (s0 : State) (a : Agent) : State :=
  let s := s0.leaveFirst a
  let q := s.seq a
  let s1 := match q.resume, a with
    | some r, .seq c _ =>
      if r.phase = Phase.rows then
        s.setCore c { s.core c with mrowp := .ofNat 64 (r.a % 2 ^ 16 + q.pc.toNat % 2048 * 2 ^ 16 + r.slot * 2 ^ 27 + 2 ^ 31) }
      else s
    | _, _ => s
  let keep := match q.resume with
    | some r => if r.phase = Phase.rows then none else some r
    | none => none
  let s2 := match a with
    | .seq c _ => s1.addTokens c (q.taken.getD [])
    | _ => s1
  let waited := if q.run = Run.blocked then q.wait.map (·.pause s) else q.kept
  { s2 with parked := s2.parked.drop a }.setSeq a
    { q with wait := none, taken := none, resume := keep, kept := waited, run := if q.run = Run.blocked then .running else q.run }

/-- A wait that ends for good with its step: a trap of the step, tstop (19_faults R402, R403). -/
def State.endWait (s : State) (a : Agent) : State := s.setSeq a { s.seq a with wait := none, kept := none }

/-- Hold a sequencer at its step boundary, its state before it kept (05_kernel R116); a stopped one stays stopped. -/
def State.hold (s : State) (a : Agent) : State :=
  let q := s.seq a
  if q.run = .stopped ∨ q.run = .held then s
  else
    let s' := s.abandon a
    s'.setSeq a { s'.seq a with prior := q.run, run := .held }

/-- Hold the five engines of a core. -/
def State.holdEngines (s : State) (c : Nat) : State := [1, 2, 3, 4, 5].foldl (fun t e => t.hold (.seq c e)) s

/-- Let a held sequencer go on as it was (R116). -/
def State.unhold (s : State) (a : Agent) : State :=
  let q := s.seq a
  if q.run = .held then s.setSeq a (Seq.again { q with run := q.prior } s) else s

/-- Ask for the pre-emption of a context's cores, towards a state (R96, R100): its sequencers issue nothing more. A TEARDOWN that runs goes on. -/
def State.preempt (s : State) (c : Nat) (st : CtxState) : State :=
  s.setCtx c { s.ctx c with preempting := if (s.ctx c).preempting = some .tornDown then some .tornDown else some st }

/-- The escalation record (R400): a head word, the escalated trap's nine registers, and those of the trap being served. -/
def escalationWords (core : Nat) (nested copySeq : Bool) (r served : TrapRec) : List Word :=
  [.ofNat 64 (1 + core * 2 + (if nested then 256 else 0) + (if copySeq then 512 else 0))] ++ r.words ++
    (if nested then served.words else List.replicate 9 0) ++ [0]

/-- A trap that escalates to the host (R400): the record is kept for the save area, the core's own trap record is written unless
C was in trap mode, and the context becomes faulted once its cores are saved. -/
def State.escalate (s : State) (c : Nat) (core : Option Nat) (a : Agent) (t : Trap) (step : Word) (slot : Nat) : State :=
  let k := core.getD 0
  let nested := core.isSome && (s.core k).bank.isSome
  let r := recordOf a k t step slot (s.seq (.seq k 0)).pc true
  let s1 := match core with
    | some n => s.setCore n { s.core n with ctrap := (s.core n).ctrap + 1, trec := if nested then (s.core n).trec else r }
    | none => s
  (s1.setCtx c { s1.ctx c with escalation := some (escalationWords k nested core.isNone r (s.core k).trec) }).preempt c .faulted

/-- C enters trap mode on the second bank, all zero, at the handler's entry step (R106). -/
def State.enterHandler (s : State) (core : Nat) (img : Image) (sd : Option Nat) : State :=
  let q := s.seq (.seq core 0)
  let k := s.core core
  let b : Bank := { sreg := q.sreg, lc := q.lc, frames := q.frames, stack := q.stack, resume := q.resume, kept := q.kept, pendingSd := sd }
  (s.setSeq (.seq core 0) { q with pc := .ofNat 64 (img.base + img.codeOff + 8 * img.entry), run := .running, sreg := [], lc := [],
                                   frames := [], stack := [], resume := none, wait := none, kept := none, idleUntil := 0 }).setCore core
    { k with bank := some b, hand := some img, ctrap := k.ctrap + 1 }

/-- The lowest-numbered core bound to a context (06_queue R148). -/
def State.lowestCore (s : State) (c : Nat) : Option Nat := (List.range 128).find? fun n => (s.core n).slot == some c

/-- Deliver a trap to a core (R398): hold the other sequencers, write the record, enter the handler; or escalate it (R400). `ret` is
TRET where the rule gives one, else C's next step. -/
def State.deliverTo (s : State) (core : Option Nat) (a : Agent) (t : Trap) (step : Word) (slot : Nat) (ret : Option Word) (sd : Option Nat) : State :=
  let c := match core with
    | some n => s.slotOf (.seq n 0)
    | none => s.slotOf a
  let s0 := s.abandon a
  match core with
  | none => s0.escalate c none a t step slot
  | some n =>
    if (s.core n).bank.isSome || t.cause = .uncorrectable then s0.escalate c core a t step slot
    else
      match s0.verify c (s0.ctx c).handler true with
      | none => s0.escalate c core a t step slot
      | some (v, s1) =>
        let s2 := ((s1.holdEngines n).hold a).abandon (.seq n 0)
        let r := recordOf a n t step slot (ret.getD (s2.seq (.seq n 0)).pc) false
        (s2.setCore n { s2.core n with trec := r }).enterHandler n v.image sd

/-- TINFO of a fault of an asynchronous operation (15_ferry R322, R397): the tag in [29:24], 1 in [31]. -/
def tagInfo (t : Trap) (tag : Nat) (src : Bool) : Trap :=
  let i := t.info.toNat
  { t with info := .ofNat 64 (i - bits i 31 24 * 2 ^ 24 + tag % 64 * 2 ^ 24 + (if src then 2 ^ 30 else 0) + 2 ^ 31), async := true }

/-- A trap of a pier stream (17_piers R356): the stream stops, its tag is frozen with TRP = 1, and the trap waits for the forking C. -/
def State.stopStream (s : State) (p k : Nat) (t : Trap) (step : Word) (slot : Nat) : State :=
  let a := Agent.pier p k
  let r := s.stream p k
  let g : TagRef := { owner := .core r.core, tag := r.tag }
  let s1 := s.abandon a
  let s2 := (s1.setSeq a { s1.seq a with run := .stopped }).setTag g { s1.tag g with st := .frozen, trp := true }
  { s2 with atraps := s2.atraps ++ [{ who := .seq r.core 0, trap := tagInfo t r.tag false, step := step, slot := slot, tag := some g, origin := some a }] }

/-- Deliver a trap of a sequencer. -/
def State.deliver (s : State) (a : Agent) (t : Trap) (step : Word) (slot : Nat) (ret : Option Word) (sd : Option Nat) : State :=
  match a with
  | .pier p k => s.stopStream p k t step slot
  | .copy _ => s.deliverTo (s.lowestCore (s.slotOf a)) a t step slot ret sd
  | .seq c _ => s.deliverTo (some c) a t step slot ret sd

/-- Whether a trap of a sequencer is not delivered yet, so that its step is abandoned and issued again: while C of its core performs the buffer of a
qcommit, which retires first (07_group R161); of a copy sequencer also while C of the core that serves it is in trap mode (06_queue R148; 19_faults R399:
one trap at a time on a core; log 104). -/
def State.trapWaits (s : State) (a : Agent) : Bool :=
  match a with
  | .seq c q => q != sqC && (s.core c).committing
  | .pier _ _ => false
  | .copy _ => match s.lowestCore (s.slotOf a) with
    | some c => (s.core c).bank.isSome || (s.core c).committing
    | none => false

/-- The issuing sequencer's trap, at this step and slot; what its walk has met is cached (11_page R215). -/
def State.takeTrap (s : State) (t : Trap) : State :=
  let a := s.iss.who
  if s.trapWaits a then s.ended .waiting
  else
    let u := ((s.endWait a).deliver a t (if a.isScalar then s.iss.here else s.iss.here &&& 2047) s.iss.slot none none).ended .trapped
    { u with iss := { u.iss with trap := some t }, caches := (u.noteFault (s.slotOf a) t).caches }

/-- A frozen operation as it goes on after rft: a grow from its start (17_piers R369), every other from where it stands. -/
def Tag.goOn (g : Tag) : Tag :=
  match g.op with
  | some (.copy c) =>
    match c.kind with
    | .rows r => { g with st := .landing, trp := false, addr := (destShape c.desc).base, op := some (.copy { c with
        kind := .rows { r with cur := none }, rpos := 0, chunks := [], recv := c.recv.map fun v => { v with pos := 0 } }) }
    | _ => { g with st := .landing, trp := false }
  | _ => { g with st := .landing, trp := false }

/-- Frozen copies, transfers and streams of a core whose TRP is set go on (15_ferry R320, R322; 17_piers R356; 04_context R108), and on the
context's lowest core the copy sequencers (06_queue R148). -/
def State.resumeFrozen (s : State) (core : Nat) : State :=
  let slot := s.slotOf (.seq core 0)
  let copies := s.lowestCore slot == some core
  let mine := fun (t : TagRef) => match t.owner with
    | .core c => c == core
    | .copy n => copies && (s.cseq n).slot == slot
  let served := fun (t : TagRef) (g : Tag) => mine t && g.trp && decide (g.st = .frozen)
  { s with
    atraps := s.atraps.filter fun t => match t.tag with
      | some g => !served g (s.tag g)
      | none => true,
    seqs := s.seqs.map fun (e : Agent × Seq) => match e.1 with
      | .pier p k =>
        let r := s.stream p k
        let t : TagRef := { owner := .core r.core, tag := r.tag }
        if r.used && served t (s.tag t) && decide (e.2.run = Run.stopped) then (e.1, { e.2 with run := .running }) else e
      | .copy n => if copies && (s.cseq n).slot == slot && decide (e.2.run = Run.held) then (e.1, Seq.again { e.2 with run := e.2.prior } s) else e
      | _ => e,
    tags := s.tags.map fun (e : TagRef × Tag) => if served e.1 e.2 then (e.1, e.2.goOn) else e }

/-- An image that ctxld has read taken into the interrupted state (R110). -/
def State.loadPending (s : State) (core : Nat) : State :=
  match (s.core core).bank with
  | some b =>
    match b.loaded with
    | some (m, r) => s.loadInterrupted core { b with loaded := none } { main := m, regs := r }
    | none => s
  | none => s

/-- Leave trap mode with the interrupted bank as it stands. -/
def State.leaveBank (s : State) (core : Nat) (b : Bank) : State :=
  let k := s.core core
  let q := s.seq (.seq core 0)
  let regs := match b.pendingSd with
    | some n => if n = 0 then b.sreg else b.sreg.set n (s.ctx (k.slot.getD 0)).trv
    | none => b.sreg
  let s1 := s.setSeq (.seq core 0) { q with sreg := regs, lc := b.lc, frames := b.frames, stack := b.stack, resume := b.resume,
                                            kept := b.kept, pc := k.trec.ret, wait := none, run := .running }
  let s2 := (s1.setSeq (.seq core 0) ((s1.seq (.seq core 0)).again s)).setCore core { k with bank := none }
  let s3 := [1, 2, 3, 4, 5].foldl (fun t e => t.unhold (.seq core e)) s2
  s3.resumeFrozen core

/-- Return from trap mode (R108): what ctxld has read takes effect, the interrupted bank comes back, a scall's destination takes TRV, C stands
at TRET, the held sequencers go on, and frozen copies that trapped resume. -/
def State.leaveHandler (s : State) (core : Nat) : State :=
  let s1 := s.loadPending core
  match (s1.core core).bank with
  | none => s1
  | some b => s1.leaveBank core b

/-- The state after the exec of a slot: its effect, its trap taken, or its sequencer blocked. -/
def settle (s : State) : Except Stop State → State
  | .ok t => t.ended .done
  | .error (.trap t keep) => (keep.getD s).takeTrap t
  | .error (.wait kind obj c keep) =>
    let t := keep.getD s
    (t.setCur (t.cur.block t kind obj c)).ended .waiting keep.isSome
  | .error (.rest t) => (t.setCur { t.cur with run := .running, wait := none }).ended .waiting true

/-- An order that acts under the top predicate entry (R122): under a false one it has no effect. -/
def issue (s : State) (body : State → Except Stop State) : Host.Outcome State Fault Refusal :=
  .next (if s.acts then settle s (body s) else s.ended .done)

/-- An order that acts whatever the top entry holds (R122): majors 0x01 and 0x02, compares, lane-wise orders. -/
def issueAlways (s : State) (body : State → Except Stop State) : Host.Outcome State Fault Refusal :=
  .next (settle s (body s))

/-- A step that no instruction starts: it acts on the state as it stands. -/
def happen (s : State) : Host.Outcome State Fault Refusal := .next s

end Sys2Proof.Machine
end

