-- ==== Sys2Proof/Machine/Group.lean ====
section
/-! DEFINITION. Groups and the dispatcher's binding (07_group R150-R159; 06_queue R142-R144, R149; 05_kernel R114, R115). -/

namespace Sys2Proof.Machine

/-- Hop count between two quads (01_module R18). -/
def hops (a b : Nat) : Nat := (a % 8 - b % 8) + (b % 8 - a % 8) + (a / 8 - b / 8) + (b / 8 - a / 8)

/-- Whether a core waits for its self-test or its repair (19_faults R406). -/
def State.underRepair (s : State) (c : Nat) : Bool :=
  s.mgmt.cases.any fun k => k.rep.unitClass == 3 && k.rep.unitIndex == c && decide (k.stage ≤ 1)

/-- Whether a core can take a member: available, not under test or repair, not bound, not reserved (R151). -/
def State.coreFree (s : State) (c : Nat) : Bool :=
  !s.disp.unavailable.contains c && !s.underRepair c && (s.core c).slot.isNone && !s.disp.reserved.has c

/-- The cores of the device in the order of R151 for an affinity mask. -/
def placement (aff : Nat) : List Nat :=
  let quads := (List.range 32).filter fun q => bit aff q
  let low := quads.headD 0
  let pref := (List.range 128).filter fun c => aff == 0 || bit aff (c / 4)
  let rest := (List.range 128).filter fun c => !(aff == 0 || bit aff (c / 4))
  pref ++ (List.range 11).flatMap fun h => rest.filter fun c => hops low (c / 4) == h

/-- A field of a job card (R137). -/
def card (b : List Byte) (off n : Nat) : Nat := fieldAt b off n

/-- T of a card (R150). -/
def cardTiles (b : List Byte) : Nat := (card b 0x20 2 + 1) * (card b 0x22 2 + 1) * (card b 0x24 2 + 1)

/-- Coord(t) (R154). -/
def coord (b : List Byte) (t : Nat) : Nat :=
  let x := card b 0x20 2 + 1
  let y := card b 0x22 2 + 1
  t / (x * y) * 2 ^ 32 + t / x % y * 2 ^ 16 + t % x

/-! ### Leaving a core -/

/-- A tag whose operation goes on without it: a name above the 64 tags of its holder. -/
def orphanOf (t : TagRef) (o : Op) : TagRef := { t with tag := 64 + o.order }

/-- A tag released when its group retires (15_ferry R320): a copy, a transfer or an embedding command ends as by fcan; a crossing
operation and a scommit go on, their completion seen by nobody (04_context R98; 17_piers R369). -/
def State.releaseTag (s : State) (t : TagRef) : State :=
  let goesOn := match (s.tag t).op with
    | some (.crossing _) => !(s.tag t).complete
    | some (.embedding e) => !(s.tag t).complete && e.fn == 3
    | _ => false
  match (s.tag t).op with
  | some o =>
    if goesOn then { s with tags := (s.tags.drop t).set (orphanOf t o) (s.tag t) }
    else
      let s1 := s.cancelTag t
      let s2 := match o with
        | .transfer x => s1.forgetTransfer x.slot t
        | _ => s1
      { s2 with tags := s2.tags.drop t }
  | none => { s with tags := s.tags.drop t }

/-- Release every tag of a holder. -/
def State.releaseTags (s : State) (o : TagOwner) : State :=
  (s.tags.filter fun e => decide (e.1.owner = o) && decide (e.1.tag < 64)).foldl (fun (t : State) e => t.releaseTag e.1) s

/-- A core that no card is bound to: its table memories stay (R114), its replay window (06_queue R146) and its trap record (19_faults R396). -/
def emptyCore (k : Core) : Core := { tbl := k.tbl, resident := k.resident, trec := k.trec, win := k.win, putNum := k.putNum }

/-- A sequencer of a core whose group retires: stopped, with its registers as they stand until the next bind (R115). -/
def Seq.rest (q : Seq) : Seq :=
  { q with run := .stopped, prior := .stopped, wait := none, kept := none, heldTok := [], taken := none, halting := false, resume := none,
           idleUntil := 0, gath := none }

/-- Unbind a core: its sequencers stop, its tags and its waiting traps go. -/
def State.unbindCore (s : State) (c : Nat) : State :=
  let s0 := s.releaseTags (.core c)
  let s1 := s0.disown fun a => s0.coreOf a == some c
  { s1 with
    seqs := s1.seqs.map fun (e : Agent × Seq) => match e.1 with
      | .seq k _ => if k = c then (e.1, e.2.rest) else e
      | _ => e,
    cores := s1.cores.set c (emptyCore (s1.core c)),
    atraps := s1.atraps.filter fun a => s1.coreOf a.who != some c }

/-- A running context without a bound group, a saved group or a busy copy sequencer is ready again (04_context R96). -/
def State.restCtx (s : State) (c : Nat) : State :=
  let busy := s.groups.any (fun g => g.2.slot == c && g.2.st != .forming) || s.cseqs.any (fun q => q.2.busy && q.2.slot == c)
  if (s.ctx c).st = .running ∧ ¬ busy then s.setCtx c { s.ctx c with st := .ready } else s

/-- Whether the ways of a context's claim are in place: those that a suspension has spilled are refilled before any sequencer of it starts
(04_context R105). -/
def State.waysBack (s : State) (c : Nat) : Bool :=
  match (s.ctx c).claim with
  | some m => !m.spilled
  | none => true

/-- A running state for a context that a card was bound for (R96); its time slice begins. -/
def State.runCtx (s : State) (c : Nat) : State :=
  if (s.ctx c).st = .ready then s.setCtx c { s.ctx c with st := .running, sliceStart := s.wall } else s

/-! ### Binding a core -/

/-- The table memories that an image fills; steps that it does not fill, or that cannot be read, are erased (R114). -/
def State.imageTables (s : State) (c : Nat) (v : Verified) : Map (Nat × Nat) StepWords :=
  (List.range 5).flatMap fun i =>
    let (off, n) := v.tables.getD i (0, 0)
    match s.execBytes c (v.image.base + off) (9 * n) with
    | .ok b => tableSteps (i + 1) n b
    | .error _ => []

/-- The remap-filter entries that the reading of an image's tables makes (11_page R225). -/
def State.noteTables (s : State) (c : Nat) (v : Verified) : State :=
  v.tables.foldl (fun (t : State) p => t.noteSpan c (v.image.base + p.1) (9 * p.2) .exec) s

/-- Whether a kernel is bound to some core. -/
def State.kernelBound (s : State) (name : Nat × Nat) : Bool :=
  s.cores.any fun e => match e.2.slot, e.2.kern with
    | some c, some i => name == ((s.ctx c).id, i.base)
    | _, _ => false

/-- A kernel made resident on a core: one that was resident there, and is bound nowhere, is evicted, from the cache and from every core (R114). -/
def State.displace (s : State) (c : Nat) (name : Nat × Nat) : State :=
  match (s.core c).resident with
  | some r =>
    if r = name ∨ s.kernelBound r then s
    else ({ s with disp := { s.disp with images := s.disp.images.filter fun e => !(r == (e.1, e.2.image.base)) } }).unload (· == r)
  | none => s

/-- Bind a core to a rank of a group (R115, R152): tables copied unless they are resident, everything of R115 at its value, C at
ENTRY. -/
def State.bindCore (s0 : State) (c slot g rank : Nat) (v : Verified) : State :=
  let name := ((s0.ctx slot).id, v.image.base)
  let s := s0.displace c name
  let k := s.core c
  let tbl := if k.resident = some name then k.tbl else s.imageTables slot v
  let u := (if k.resident = some name then s else s.noteTables slot v).unbindCore c
  let s1 : State := { u with seqs := u.seqs.filter fun e => match e.1 with | .seq j _ => j != c | _ => true }
  let k1 : Core := { emptyCore k with tbl := tbl, resident := some name, slot := some slot, group := some g, rank := rank, kern := some v.image }
  (s1.setCore c k1).setSeq (.seq c sqC)
    { pc := .ofNat 64 (v.image.base + v.image.codeOff + 8 * v.image.entry), run := .running }

/-- The first deques (R153). -/
def firstDeques (t g : Nat) : Map Nat (List TileRun) :=
  (List.range g).map fun i =>
    let a := i * t / g
    let b := (i + 1) * t / g
    (i, if a < b then [{ first := a, count := b - a }] else [])

/-- Form a group on its cores (R150 GROUP_FORMATION). -/
def State.formGroup (s : State) (g : Nat) (cores : List Nat) : State :=
  let r := s.group g
  match r.vimg with
  | none => s
  | some v =>
    let t := cardTiles r.card
    let r1 : Group := { r with st := .running, size := cores.length, tiles := t, members := cores, untaken := t, committed := 0,
                               deques := firstDeques t cores.length }
    let s1 := { s with disp := { s.disp with forming := none, reserved := [] } }
    let s2 := (List.zip (List.range cores.length) cores).foldl (fun (u : State) (p : Nat × Nat) => u.bindCore p.2 r.slot g p.1 v) (s1.setGroup g r1)
    s2.runCtx r.slot

/-- Group size that a card's group can reach (R151 step 3). -/
def State.groupSize (s : State) (b : List Byte) : Nat := min (card b 4 1) (128 - s.disp.unavailable.length)

/-- The core that a lost rank can take now: its own number when a spare has taken it, else, when that is not to be waited for, the first
free core. The rule lets either come (R159; 19_faults R408); this order is the model's choice (log 78). -/
def State.coreForRank (s : State) (r : Group) (rank : Nat) : Option Nat :=
  let c := r.members.getD rank 0
  if s.coreFree c then some c else if s.underRepair c then none else (placement (card r.card 8 4)).find? s.coreFree

/-- A lost rank, with its deque, bound to a core (R159). -/
def State.rebindRank (s : State) (g rank : Nat) : State :=
  let r := s.group g
  match r.vimg, s.coreForRank r rank with
  | some v, some c =>
    (s.setGroup g { r with members := r.members.set rank c, lost := r.lost.filter fun k => k != rank }).bindCore c r.slot g rank v
  | _, _ => s

/-- The lost ranks of groups that run taken by free cores. -/
def State.rebindRanks (s : State) : State :=
  s.groups.foldl (fun (t : State) (e : Nat × Group) =>
    if e.2.saved ∨ t.waysBack e.2.slot = false ∨ ((t.ctx e.2.slot).st ≠ .ready ∧ (t.ctx e.2.slot).st ≠ .running) then t
    else e.2.lost.foldl (fun (u : State) k => u.rebindRank e.1 k) t) s

/-- Reserve the cores that are free for the forming group, and form it when it has enough (R144, R151); ranks that have lost their core come
first. -/
def State.reserve (s0 : State) : State :=
  let s := s0.rebindRanks
  match s.disp.forming with
  | none => s
  | some g =>
    let r := s.group g
    if s.waysBack r.slot = false ∨ ((s.ctx r.slot).st ≠ .ready ∧ (s.ctx r.slot).st ≠ .running) then s
    else
      let need := s.groupSize r.card
      let have_ := s.disp.reserved.length
      let more := ((placement (card r.card 8 4)).filter fun c => s.coreFree c).take (need - have_)
      let s1 := { s with disp := { s.disp with reserved := s.disp.reserved ++ more.map fun c => (c, g) } }
      let mine := (List.range 128).filter fun c => s1.disp.reserved.has c
      if need ≤ mine.length ∧ 0 < need then s1.formGroup g mine else s1

/-! ### Completion and retirement -/

/-- A card that is to complete (R149): the dispatcher's record of it. -/
def State.finish (s : State) (slot q : Nat) (b : List Byte) (status : Nat) (g : Option Nat) (cores : List Nat) : State :=
  { s with disp := { s.disp with finishing := s.disp.finishing ++
      [{ slot := slot, q := q, card := b, status := status, group := g, cores := cores, order := s.nextOp }] },
           nextOp := s.nextOp + 1 }

/-- Retire a group (R150): its members become free, and are reserved for a group that waits; what a failed core of it left poisoned is released
(15_ferry R323). -/
def State.retire (s : State) (g : Nat) : State :=
  let r := s.group g
  let s1 := (r.members.filter fun c => (s.core c).group == some g).foldl (fun (u : State) c => u.unbindCore c) s
  let s2 : State := { s1 with
    groups := s1.groups.drop g,
    tags := s1.tags.filter fun e => !(decide (64 ≤ e.1.tag) && decide (e.2.st = .cancelled) && (match e.1.owner with
      | .core c => r.members.contains c
      | .copy _ => false)) }
  (s2.restCtx r.slot).reserve

/-- Flip the group barrier when every rank has arrived or halted (10_barrier R200). -/
def Group.flip (r : Group) : Group :=
  if (List.range r.size).all fun k => r.arrived.contains k || r.halted.contains k then
    { r with phase := r.phase + 1, arrived := [] }
  else r

/-- An arrival at the group barrier (R200). -/
def Group.arrive (r : Group) (rank : Nat) : Group :=
  Group.flip { r with arrived := if r.arrived.contains rank then r.arrived else rank :: r.arrived }

/-- End a group whose members have all halted (R150). -/
def State.endGroup (s : State) (g : Nat) : State :=
  let r := s.group g
  if !(List.range r.size).all (fun k => r.halted.contains k) then s
  else if r.cardDone then s.retire g
  else if 0 < r.untaken then (s.finish r.slot r.q r.card 1 none r.members).retire g
  else s

/-- A member's C has halted (R150, R200). -/
def State.memberHalted (s : State) (c : Nat) : State :=
  let k := s.core c
  match k.group with
  | none => s
  | some g =>
    let r := s.group g
    (s.setGroup g (Group.flip { r with halted := k.rank :: r.halted })).endGroup g

/-! ### Deques -/

/-- Victims of a hardware steal in order (R156). -/
def victims (r : Group) (rank : Nat) : List Nat :=
  let quad := fun k => r.members.getD k 0 / 4
  let order := (List.range r.size).map fun i => (rank + 1 + i) % r.size
  let others := order.filter fun k => k != rank
  (List.range 11).flatMap fun h => others.filter fun k => hops (quad rank) (quad k) == h

/-- StealFrom(v) by a thief (R156): the tiles moved and the group. The bottom of a deque is its last entry. -/
def Group.stealFrom (r : Group) (v thief : Nat) : Nat × Group :=
  match r.deques.get [] v with
  | [] => (0, r)
  | e :: rest =>
    let k := if 2 ≤ e.count then e.count / 2 else 1
    let left := if 2 ≤ e.count then { e with count := e.count - k } :: rest else rest
    let run : TileRun := if 2 ≤ e.count then { first := e.first + e.count - k, count := k } else { first := e.first, count := 1 }
    let d := r.deques.set v left
    (k, { r with deques := d.set thief (d.get [] thief ++ [run]) })

/-- The first victim whose deque holds tiles, else the thief itself (R156, R161). -/
def Group.victim (r : Group) (rank : Nat) : Nat := ((victims r rank).find? fun k => !(r.deques.get [] k).isEmpty).getD rank

/-- Take the first tile of the bottom entry of a rank's deque (R161). -/
def Group.take (r : Group) (rank : Nat) : Option (Nat × Group) :=
  match (r.deques.get [] rank).reverse with
  | [] => none
  | e :: rest =>
    let rest' := if e.count ≤ 1 then rest else { first := e.first + 1, count := e.count - 1 } :: rest
    some (e.first, { r with deques := r.deques.set rank rest'.reverse, untaken := r.untaken - 1,
                            st := if r.untaken ≤ 1 then .draining else r.st })

end Sys2Proof.Machine
end

