-- ==== Sys2Proof/Machine/Chip.lean ====
section
/-! DEFINITION. The chip semaphore file (06_queue R139), job cards (R137, R138) and the head test of a queue (R140, R142). -/

namespace Sys2Proof.Machine

/-- Partition of a context: first semaphore, count (04_context R94 SEMPART). -/
def Ctx.semBase (x : Ctx) : Nat := bits x.sempart.toNat 15 0
def Ctx.semCount (x : Ctx) : Nat := bits x.sempart.toNat 31 16

/-- Chip semaphore `i` of a context's partition. -/
def State.chipSem (s : State) (slot i : Nat) : BitVec 32 := s.sems.get 0 ((s.ctx slot).semBase + i)

/-! ### Job cards -/

/-- NWAIT and NADD of a card (R137). -/
def cardNWait (b : List Byte) : Nat := bits (card b 5 1) 2 0
def cardNAdd (b : List Byte) : Nat := bits (card b 5 1) 6 4

/-- Wait `i` of a card: index and threshold. -/
def cardWait (b : List Byte) (i : Nat) : Nat × Nat := (card b (0x30 + 8 * i) 2, card b (0x34 + 8 * i) 4)

/-- Add `i` of a card: index and signed value. -/
def cardAdd (b : List Byte) (i : Nat) : Nat × Int := (card b (0x50 + 8 * i) 2, signed32 (card b (0x54 + 8 * i) 4))

/-- IRQ and PRIO of a card. -/
def cardIrq (b : List Byte) : Bool := bit (card b 2 2) 0
def cardPrio (b : List Byte) : Nat := bits (card b 2 2) 3 2

/-- Every reserved field of a card is zero (R137). -/
def cardReservedZero (b : List Byte) : Bool :=
  let fl := card b 2 2
  let cn := card b 5 1
  !bit fl 1 && bits fl 15 4 == 0 && !bit cn 3 && !bit cn 7 && card b 6 2 == 0 && card b 0xC 4 == 0 && card b 0x26 10 == 0 &&
  card b 0x78 8 == 0 &&
  (List.range 4).all fun i =>
    (if i < cardNWait b then card b (0x32 + 8 * i) 2 == 0 else card b (0x30 + 8 * i) 8 == 0) &&
    (if i < cardNAdd b then card b (0x52 + 8 * i) 2 == 0 else card b (0x50 + 8 * i) 8 == 0)

/-- A copy kernel: an LF table and no other tables (R148). -/
def Verified.isCopy (v : Verified) : Bool :=
  match v.tables with
  | lf :: rest => lf.2 != 0 && rest.all fun t => t.2 == 0
  | [] => false

/-- The validity of a card at the head of a queue of a kind (R138): the first code that fails, 0 for a valid card, and the state with
the kernel verified. -/
def State.cardCode (s : State) (slot kind : Nat) (b : List Byte) : Nat × State :=
  let x := s.ctx slot
  let g := card b 4 1
  if card b 1 1 ≠ 1 then (1, s)
  else if !cardReservedZero b then (2, s)
  else if g = 0 ∨ 128 < g ∨ 4 < cardNWait b ∨ 4 < cardNAdd b then (3, s)
  else if !((List.range (cardNWait b)).all (fun i => decide ((cardWait b i).1 < x.semCount)) &&
            (List.range (cardNAdd b)).all (fun i => decide ((cardAdd b i).1 < x.semCount))) then (4, s)
  else
    match s.verify slot (card b 0x10 8) false with
    | none => (5, s)
    | some (v, t) =>
      if kind = 1 ∧ v.isCopy = false then (5, t)
      else if kind = 1 ∧ (g ≠ 1 ∨ card b 0x20 6 ≠ 0) then (6, t)
      else (0, t)

/-- Every wait of a card holds (R140). -/
def State.waitsHold (s : State) (slot : Nat) (b : List Byte) : Bool :=
  (List.range (cardNWait b)).all fun i => decide ((cardWait b i).2 ≤ (s.chipSem slot (cardWait b i).1).toNat)

/-! ### Queues -/

/-- Bytes of a card in a queue's storage (R141): none when its page faults. -/
def State.cardAt (s : State) (slot q idx : Nat) : Option (List Byte) :=
  match locateAll s slot .read false (spanPieces (((s.ctx slot).queue q).addr + 128 * idx) 128) with
  | .ok ps => some (s.readPieces ps)
  | .error _ => none

/-- A queue of a context replaced. -/
def State.setQueue (s : State) (slot q : Nat) (u : Queue) : State := s.setCtx slot ((s.ctx slot).setQueue q u)

/-- A queue halts with a reason (R142). -/
def State.haltQueue (s : State) (slot q err : Nat) : State :=
  (s.setQueue slot q { (s.ctx slot).queue q with st := .halted, err := err }).irq 258

/-- The remap-filter entries that the dispatcher's read of a card makes (11_page R225). -/
def State.noteCard (s : State) (slot q idx : Nat) : State := s.noteSpan slot (((s.ctx slot).queue q).addr + 128 * idx) 128 .read

/-- The head test of a queue (R142); the head card's readiness latches (R140). -/
def State.headTest (s0 : State) (slot q : Nat) : State :=
  let u := (s0.ctx slot).queue q
  let s := if u.count = 0 then s0 else s0.noteCard slot q u.head
  if u.count = 0 then s.setQueue slot q { u with st := .idle, rdy := false }
  else
    match s.cardAt slot q u.head with
    | none => s.haltQueue slot q 7
    | some b =>
      let (code, t) := s.cardCode slot u.kind b
      if code ≠ 0 then t.haltQueue slot q code
      else if u.rdy then t.setQueue slot q { u with st := .active }
      else if t.waitsHold slot b then
        let t1 := t.setQueue slot q { u with st := .active, rdy := true, rdyAt := t.wall, rdyClk := t.clk, rdyNo := t.disp.readyNo, raised := 0 }
        { t1 with disp := { t1.disp with readyNo := t1.disp.readyNo + 1 } }
      else t.setQueue slot q { u with st := .blocked }

/-- The head card of a halted queue tested: its readiness latches there too (R140, R142). -/
def State.haltTest (s : State) (slot q : Nat) : State :=
  let u := (s.ctx slot).queue q
  if u.st ≠ .halted ∨ u.err ≠ 0 ∨ u.count = 0 ∨ u.rdy = true then s
  else
    match s.cardAt slot q u.head with
    | none => s
    | some b =>
      if cardNWait b ≤ 4 ∧ ((List.range (cardNWait b)).all fun i => decide ((cardWait b i).1 < (s.ctx slot).semCount)) ∧ s.waitsHold slot b then
        let t := s.setQueue slot q { u with rdy := true, rdyAt := s.wall, rdyClk := s.clk, rdyNo := s.disp.readyNo, raised := 0 }
        { t with disp := { t.disp with readyNo := t.disp.readyNo + 1 } }
      else s

/-- The head cards of a context's queues that are not ready tested again (R140). -/
def State.retest (s : State) (slot : Nat) : State :=
  (List.range 16).foldl (fun (t : State) q => if ((t.ctx slot).queue q).st = .blocked then t.headTest slot q else t.haltTest slot q) s

/-- Set bits of the event latch of every core bound to a context (12_scalar R260). -/
def State.wakeCores (s : State) (slot : Nat) (b : BitVec 4) : State :=
  { s with cores := s.cores.map fun (e : Nat × Core) => if e.2.slot = some slot ∧ e.1 < 128 then (e.1, { e.2 with evt := e.2.evt ||| b }) else e }

/-- Write a chip semaphore, a wakeup for the context's cores (R139). -/
def State.putSem (s : State) (slot i : Nat) (v : BitVec 32) : State :=
  ({ s with sems := s.sems.set ((s.ctx slot).semBase + i) v }).wakeCores slot 2#4

/-- The same, and the cards at the heads of the context's queues are tested (R140). -/
def State.setChipSem (s : State) (slot i : Nat) (v : BitVec 32) : State := (s.putSem slot i v).retest slot

/-- The same for an order of a step: the test is made at the end of the step, in whose clock both slots act (R140). -/
def State.setWindowSem (s : State) (i : Nat) (v : BitVec 32) : State :=
  let t := s.putSem s.mySlot i v
  { t with iss := { t.iss with retest := true } }

/-- A chip semaphore after an add of a signed value, none where it leaves 0 to 2^32 - 1 (R139). -/
def State.semSum (s : State) (slot i : Nat) (d : Int) : Option (BitVec 32) :=
  let t : Int := (s.chipSem slot i).toNat + d
  if t < 0 ∨ 2 ^ 32 ≤ t then none else some (.ofInt 32 t)

/-- TINFO of the overflow of a chip semaphore (19_faults R397). -/
def semInfo (i : Nat) : Nat := i % 4096 + 4096

/-- A card written to the tail of a queue (R145): none when its page faults. -/
def State.appendCard (s : State) (slot q : Nat) (b : List Byte) : Option State :=
  let u := (s.ctx slot).queue q
  let idx := (u.head + u.count) % 2 ^ u.lsize
  match locateAll s slot .write false (spanPieces (u.addr + 128 * idx) 128) with
  | .error _ => none
  | .ok ps =>
    let t := ((s.latch.ledAll ps).writePieces ps b).setQueue slot q { u with count := u.count + 1 }
    some (if u.count = 0 ∧ u.st = .idle then t.headTest slot q else t.haltTest slot q)

/-- A queue command as it is written to QCTL.CMD (R141, R142): 1 HALT, 2 RESUME, 3 FLUSH, 4 RESET. -/
def State.queueCommand (s0 : State) (slot q code : Nat) : State :=
  let s : State := s0.latch
  let u : Queue := { (s.ctx slot).queue q with cmd := code }
  let open_ := u.st = .idle ∨ u.st = .active ∨ u.st = .blocked
  let withdrawn : State := { s with disp := { s.disp with offered := s.disp.offered.erase (slot, q) } }
  let err := s.setQueue slot q { u with cerr := true }
  if code = 1 then (if open_ then withdrawn.setQueue slot q { u with st := .halted, err := 0 } else err)
  else if code = 2 then (if u.st = .halted then (s.setQueue slot q u).headTest slot q else err)
  else if code = 3 then
    (if open_ ∨ u.st = .halted then
      withdrawn.setQueue slot q { u with st := .drained, head := (u.head + u.count) % 2 ^ u.lsize, count := 0, rdy := false, raised := 0 }
     else err)
  else if code = 4 then (if u.st = .drained then s.setQueue slot q { u with st := .idle } else err)
  else s.setQueue slot q u

/-- QMAP.COUNT, the queues that exist (R141). -/
def Ctx.queueCount (x : Ctx) : Nat := min x.qmap 16

end Sys2Proof.Machine
end

