-- ==== Sys2Proof/Machine/ControlReg.lean ====
section
/-! DEFINITION. Control registers (12_scalar R247-R249) and the four forms that move them. -/

namespace Sys2Proof.Machine

/-! ### What each register reads as -/

/-- Codes of the states of a context (04_context R94) and of a queue (06_queue R141). -/
def CtxState.code : CtxState → Nat
  | .free => 0 | .allocated => 1 | .ready => 2 | .running => 3 | .suspended => 4 | .faulted => 5 | .tornDown => 6
def QState.code : QState → Nat
  | .idle => 0 | .active => 1 | .blocked => 2 | .halted => 3 | .drained => 4

/-- A bit as a number. -/
def bitNat (b : Bool) : Nat := if b then 1 else 0

/-- WAITST of a sequencer (05_kernel R117). -/
def State.waitst (s : State) (a : Agent) : Nat :=
  let q := s.seq a
  match q.run, q.wait with
  | .blocked, some w =>
    w.kind + w.obj % 256 * 2 ^ 8 + (if a.isScalar then 0 else w.step.toNat % 2048 * 2 ^ 16) + min ((s.clk - w.since) / 1024) (2 ^ 32 - 1) * 2 ^ 32
  | _, _ => 0

/-- What a read of WAITST shows. While an error case is open (19_faults R406), a running sequencer other than the reader that does not wait may be
stalled by masking, and shows KIND 10 with OBJ 0xED (R407); whether it is and for how long is free, since the stall is timing (log 80). -/
def State.readWaitst (s : State) (a : Agent) : Nat × State :=
  if s.mgmt.cases.isEmpty ∨ a = s.iss.who ∨ (s.seq a).run ≠ .running then (s.waitst a, s)
  else
    let (b, t) := s.freeBits 33
    (if b % 2 = 1 then 10 + 0xED * 2 ^ 8 + (s.seq a).pc.toNat % 2048 * 2 ^ 16 + b / 2 * 2 ^ 32 else 0, t)

/-- A context register, 0x100 to 0x111 (04_context R94); `trapm` is the reading C's. -/
def Ctx.reg (x : Ctx) (slot : Nat) (trapm : Bool) (n : Nat) : Nat :=
  match n with
  | 0x100 => x.id + slot * 2 ^ 8
  | 0x101 => x.st.code + bitNat trapm * 8 + bitNat x.qs * 16
  | 0x102 => x.troot | 0x103 => x.handler | 0x104 => x.savebase
  | 0x105 => x.waysave.toNat | 0x106 => x.grantv.toNat | 0x107 => x.granth.toNat | 0x108 => x.grantw.toNat
  | 0x109 => x.grantl.toNat | 0x10A => x.sempart.toNat | 0x10B => x.qmap | 0x10C => x.quantum.toNat
  | 0x10D => x.qbackoff.toNat | 0x10E => bitNat x.deadchk | 0x10F => x.trv.toNat | 0x110 => x.srseed.toNat
  | 0x111 => x.nftrap.toNat | 0x112 => x.xjob.toNat
  | _ => 0

/-- Register k of a queue (06_queue R141). -/
def Queue.reg (u : Queue) (k : Nat) : Nat :=
  match k with
  | 0 => u.kind + u.lsize * 2 ^ 4 + u.addr
  | 1 => u.head + u.count * 2 ^ 16
  | 2 => u.cmd + u.st.code * 2 ^ 8 + bitNat u.cerr * 2 ^ 11 + bitNat u.sov * 2 ^ 12 + u.err * 2 ^ 16
  | _ => u.done.toNat

/-- A group register of a member (07_group R152; 10_barrier R199): 0 on a core with no group bound. -/
def State.groupReg (s : State) (k : Core) (slot n : Nat) : Nat :=
  let x := s.ctx slot
  if n = 0x188 then x.fstopPhase.toNat + x.fstopArr.length * 2 ^ 32 + x.fstopN * 2 ^ 40
  else
    match k.group with
    | none => 0
    | some g =>
      let r := s.group g
      let d := r.deques.get [] k.rank
      match n with
      | 0x180 => k.rank + r.size * 2 ^ 8 + r.q * 2 ^ 16
      | 0x181 => card r.card 0x18 8
      | 0x182 => card r.card 0x20 6
      | 0x183 => bitNat k.opened + bitNat k.nidem * 2 + k.cbuf.length * 4
      | 0x184 => coord r.card k.tile
      | 0x185 => d.length + (d.map (·.count)).sum * 2 ^ 16
      | 0x186 => r.untaken
      | _ => r.phase.toNat + r.atBarrier * 2 ^ 32

/-- DEVID (18_link R386). -/
def State.devidReg (s : State) : Nat := if s.mgmt.devidSet then s.mgmt.devid + 2 ^ 31 else 0

/-- VBASE of a core (08_memory R165). -/
def State.vbase (s : State) (core slot : Nat) : Nat :=
  let q := core / 4
  if (s.ctx slot).grantv.getLsbD q then vaultWindow + q * 0x2000000 + bits ((s.ctx slot).vseg.get 0 q).toNat 8 0 * 0x10000 else 0

/-- Whether the selected unit defines a counter (08_memory R173). -/
def mcntDefined (unit i : Nat) : Bool := if unit = 40 then i ≤ 2 || i == 5 else unit < 40

/-- A counter of memory of the reading context (R173): of the slices, the hot-row controllers and this core's L1 as the caches hold them. -/
def State.mcnt (s : State) (core slot : Nat) (k : Core) (i : Nat) : Nat :=
  let unit := k.msel.toNat
  if !mcntDefined unit i then 0 else s.regrade.caches.counter (s.ctx slot).id (if unit = 40 then l1Unit core else unit) i

/-- Read a control register (R247, R248). -/
def State.readCr (s : State) (n : Nat) : Nat × State :=
  let k := s.myCore
  let slot := s.mySlot
  let x := s.ctx slot
  if n = 0x000 then (s.cur.fflags.toNat, s)
  else if n = 0x001 then (s.cur.stack.length, s)
  else if n ≤ 0x023 then ((s.lcSrc (n - 0x020)).toNat, s)
  else if n ≤ 0x035 then s.readWaitst (.seq s.myCoreNo (n - 0x030))
  else if n ≤ 0x048 then ((k.trec.words.getD (n - 0x040) 0).toNat, s)
  else if n = 0x049 then (k.wdog.toNat, s)
  else if n = 0x113 then (s.devidReg, s)
  else if n ≤ 0x112 then (x.reg slot k.bank.isSome n, s)
  else if n ≤ 0x15F then ((x.vseg.get 0 (n - 0x140)).toNat, s)
  else if n = 0x160 then (s.vbase s.myCoreNo slot, s)
  else if n ≤ 0x188 then (s.groupReg k slot n, s)
  else if n = 0x1F0 then (k.win.length + bitNat k.perr * 2 ^ 8 + k.nacks * 2 ^ 32, s)
  else if n ≤ 0x23F then (if (n - 0x200) / 4 < x.queueCount then (x.queue ((n - 0x200) / 4)).reg ((n - 0x200) % 4) else 0, s)
  else if n = 0x300 then (k.msel.toNat, s)
  else (s.mcnt s.myCoreNo slot k (n - 0x301), s)

/-! ### What a write does -/

/-- Write to a queue register (06_queue R141): QCTL.CMD acts; CERR and SOV are cleared by ones. -/
def State.writeQueueReg (s : State) (slot q k v : Nat) (clear : Bool) : State :=
  if k ≠ 2 ∨ (s.ctx slot).queueCount ≤ q then s
  else
    let u := (s.ctx slot).queue q
    let u1 := if clear then { u with cerr := u.cerr && !bit v 11, sov := u.sov && !bit v 12 } else u
    (s.setQueue slot q u1).queueCommand slot q (bits v 2 0)

/-- Write(CR[n], v) (R247): `clear` says that W1C fields see the value's bits. -/
def State.writeCr (s : State) (n : Nat) (v : Word) (clear : Bool) : Except Stop State :=
  let k := s.myCore
  let x := s.myCtx
  let low (w : Nat) : BitVec w := v.truncate w
  if n = 0x000 then .ok (s.setCur { s.cur with fflags := low 8 ||| s.iss.raised })
  else if n = 0x001 then .ok s
  else if n ≤ 0x023 then .ok (s.wrLc (n - 0x020) v)
  else if n ≤ 0x047 then .ok s
  else if n = 0x048 then .ok (s.setMyCore { k with trec := { k.trec with ret := v } })
  else if n = 0x049 then .ok (s.setMyCore { k with wdog := low 32 })
  else if n = 0x10D then .ok (s.setMyCtx { x with qbackoff := low 16 })
  else if n = 0x10E then .ok (s.setMyCtx { x with deadchk := v.getLsbD 0 })
  else if n = 0x10F then .ok (s.setMyCtx { x with trv := v })
  else if n = 0x110 then .ok (s.setMyCtx { x with srseed := v })
  else if n = 0x111 then .ok (s.setMyCtx { x with nftrap := low 2 })
  else if n ≤ 0x160 then .ok s
  else if n ≤ 0x188 then raise .permission 7
  else if n = 0x1F0 then .ok (s.setMyCore { k with perr := k.perr && !(clear && v.getLsbD 8) })
  else if n ≤ 0x23F then .ok (s.writeQueueReg s.mySlot ((n - 0x200) / 4) ((n - 0x200) % 4) v.toNat clear)
  else if n = 0x300 then .ok (s.setMyCore { k with msel := low 6 })
  else raise .permission 7

/-! ### The forms (R247) -/

/-- mfcr. -/
def execMfcr (sd : BitVec 5) (cr : BitVec 11) (s : State) : Host.Outcome State Fault Refusal :=
  issue s fun s => let (v, t) := s.readCr cr.toNat; .ok (t.wr sd (.ofNat 64 v))

/-- mtcr. -/
def execMtcr (sa : BitVec 5) (cr : BitVec 11) (s : State) : Host.Outcome State Fault Refusal :=
  issue s fun s => s.writeCr cr.toNat (s.src sa) true

/-- mtcrs: sets bits. -/
def execMtcrs (sa : BitVec 5) (cr : BitVec 11) (s : State) : Host.Outcome State Fault Refusal :=
  issue s fun s => let (v, t) := s.readCr cr.toNat; t.writeCr cr.toNat (.ofNat 64 v ||| s.src sa) false

/-- mtcrc: clears bits. -/
def execMtcrc (sa : BitVec 5) (cr : BitVec 11) (s : State) : Host.Outcome State Fault Refusal :=
  issue s fun s => let (v, t) := s.readCr cr.toNat; t.writeCr cr.toNat (.ofNat 64 v &&& ~~~(s.src sa)) false

end Sys2Proof.Machine
end

