-- ==== Sys2Proof/Machine/Numeric.lean ====
section
/-! DEFINITION. Number formats and rounding (02_numbers R34-R47): values are exact until the one rounding of a result. -/

namespace Sys2Proof.Machine

/-- Flag bits of FFLAGS (R49). -/
def fNV : BitVec 8 := 0x01
def fDZ : BitVec 8 := 0x02
def fOF : BitVec 8 := 0x04
def fUF : BitVec 8 := 0x08
def fNX : BitVec 8 := 0x10
def fSAT : BitVec 8 := 0x20
def fPOOLSAT : BitVec 8 := 0x40
def fNF : BitVec 8 := 0x80

/-- Which special values a format has (R34). -/
inductive Specials where
  | ieee | e5m2 | e4m3 | none
deriving DecidableEq, Repr

/-- A floating-point format (R34): exponent and fraction bits, bias, largest finite magnitude code, canonical NaN (R35). -/
structure Fp where
  eb : Nat
  fb : Nat
  bias : Nat
  maxCode : Nat
  nan : Nat
  sp : Specials
deriving DecidableEq, Repr

def fp64 : Fp := ⟨11, 52, 1023, 0x7FEFFFFFFFFFFFFF, 0x7FF8000000000000, .ieee⟩
def fp32 : Fp := ⟨8, 23, 127, 0x7F7FFFFF, 0x7FC00000, .ieee⟩
def fp16 : Fp := ⟨5, 10, 15, 0x7BFF, 0x7E00, .ieee⟩
def bf16 : Fp := ⟨8, 7, 127, 0x7F7F, 0x7FC0, .ieee⟩
def e5m2 : Fp := ⟨5, 2, 15, 0x7B, 0x7E, .e5m2⟩
def e4m3 : Fp := ⟨4, 3, 7, 0x7E, 0x7F, .e4m3⟩
def e2m1 : Fp := ⟨2, 1, 1, 7, 0, .none⟩

/-- The sign bit of a format as a number. -/
def Fp.signBit (f : Fp) : Nat := 2 ^ (f.eb + f.fb)
/-- The code of infinity. -/
def Fp.infCode (f : Fp) : Nat := (2 ^ f.eb - 1) * 2 ^ f.fb
/-- The exponent of the least significant bit of a subnormal. -/
def Fp.qMin (f : Fp) : Int := 1 - (f.bias : Int) - (f.fb : Int)

/-- An exact value, or a special one (R34, R35). A finite value is ± m × 2^e. -/
inductive Num where
  | nan (signalling : Bool)
  | inf (neg : Bool)
  | fin (neg : Bool) (m : Nat) (e : Int)
deriving DecidableEq, Repr, Inhabited

/-- Convert a bit pattern to the value it stands for (R14, R34, R35). -/
def Fp.num (f : Fp) (code : Nat) : Num :=
  let neg := bit code (f.eb + f.fb)
  let e := code / 2 ^ f.fb % 2 ^ f.eb
  let t := code % 2 ^ f.fb
  let special := (f.sp = .ieee ∨ f.sp = .e5m2) ∧ e = 2 ^ f.eb - 1
  if special then (if t = 0 then .inf neg else .nan (decide (f.sp = .ieee) && !bit t (f.fb - 1)))
  else if f.sp = .e4m3 ∧ e = 15 ∧ t = 7 then .nan false
  else if e = 0 then .fin neg t f.qMin
  else .fin neg (t + 2 ^ f.fb) (f.qMin + e - 1)

/-- The value of an E8M0 scale (R34). -/
def e8m0 (code : Nat) : Num := if code = 255 then .nan false else .fin false 1 ((code : Int) - 127)

/-- An exact positive magnitude as it is rounded: the floor of its base-2 logarithm, and for each k the floor of the magnitude
times 2^k with whether that product is an integer. -/
structure Mag where
  lg : Int
  scaled : Int → Nat × Bool

/-- The magnitude m × 2^e. -/
def magOf (m : Nat) (e : Int) : Mag :=
  { lg := (m.log2 : Int) + e,
    scaled := fun k =>
      match e + k with
      | .ofNat n => (m * 2 ^ n, true)
      | .negSucc n => (m / 2 ^ (n + 1), m % 2 ^ (n + 1) == 0) }

/-- The magnitude (a / b) × 2^e. -/
def magRatio (a b : Nat) (e : Int) : Mag :=
  let sc := fun (k : Int) =>
    match e + k with
    | .ofNat n => (a * 2 ^ n / b, a * 2 ^ n % b == 0)
    | .negSucc n => (a / (b * 2 ^ (n + 1)), a % (b * 2 ^ (n + 1)) == 0)
  let k0 : Int := (b.log2 : Int) - (a.log2 : Int) - e + 1
  { lg := ((sc k0).1.log2 : Int) - k0, scaled := sc }

/-- The bits of the integer square root of `n`, from bit `i - 1` down. -/
def isqrtFrom (n : Nat) : Nat → Nat → Nat
  | 0, r => r
  | i + 1, r => isqrtFrom n i (if (r + 2 ^ i) * (r + 2 ^ i) ≤ n then r + 2 ^ i else r)

/-- The integer square root. -/
def isqrt (n : Nat) : Nat := isqrtFrom n (n.log2 / 2 + 1) 0

/-- The magnitude √((a / b) × 2^e). -/
def magSqrt (a b : Nat) (e : Int) : Mag :=
  let sc := fun (k : Int) =>
    let (n, ex) := (magRatio a b e).scaled (2 * k)
    (isqrt n, ex && isqrt n * isqrt n == n)
  let l := (magRatio a b e).lg
  { lg := l / 2, scaled := sc }

/-- A value about to be rounded (R44). -/
inductive Exact where
  | num (n : Num)
  | mag (neg : Bool) (m : Mag)

/-- How an order rounds: mode code (R43), saturation (R45), and the three inputs of a stochastic draw (R47). -/
structure Rounding where
  mode : Nat := 0
  sat : Bool := false
  seed : Nat := 0
  idx : Nat := 0
  nonce : Nat := 0

/-- SRHash (R47). -/
def srHash (seed idx nonce : Nat) : Nat :=
  let h0 : BitVec 64 := BitVec.ofNat 64 seed ^^^ (BitVec.ofNat 64 (nonce % 2 ^ 32) <<< 32) ^^^ BitVec.ofNat 64 (idx % 2 ^ 32)
  let h1 := (h0 ^^^ (h0 >>> 33)) * 0xE7A34C195B2D86F1
  let h2 := (h1 ^^^ (h1 >>> 29)) * 0x8F1BC3D56A297E4B
  (h2 ^^^ (h2 >>> 32)).toNat % 2 ^ 32

/-- Whether an inexact magnitude goes to the neighbour farther from zero (R43, R47): `q` is the exponent of the grid. -/
def awayFromZero (r : Rounding) (neg : Bool) (m : Mag) (q : Int) : Bool :=
  let (h, ex) := m.scaled (1 - q)
  match r.mode with
  | 0 => h % 2 == 1 && (!ex || h / 2 % 2 == 1)
  | 1 => false
  | 2 => !neg
  | 3 => neg
  | _ =>
    let (f, exact) := m.scaled (32 - q)
    let frac := f % 2 ^ 32
    if neg then !decide (srHash r.seed r.idx r.nonce < 2 ^ 32 - (frac + (if exact then 0 else 1)))
    else decide (srHash r.seed r.idx r.nonce < frac)

/-- A magnitude on a grid: the multiple of 2^q it rounds to, and whether it was inexact. -/
def onGrid (r : Rounding) (neg : Bool) (m : Mag) (q : Int) : Nat × Bool :=
  let (n, ex) := m.scaled (-q)
  if ex then (n, false) else (if awayFromZero r neg m q then n + 1 else n, true)

/-- The result of an overflow (R45). -/
def overflow (f : Fp) (r : Rounding) (neg : Bool) : Nat × BitVec 8 :=
  let away := r.mode = 0 ∨ 4 ≤ r.mode ∨ (r.mode = 2 ∧ neg = false) ∨ (r.mode = 3 ∧ neg = true)
  let clamped := f.sp = .none ∨ ¬ away ∨ (f.sp ≠ .ieee ∧ r.sat = true)
  let sb := if neg then f.signBit else 0
  if clamped then (sb + f.maxCode, fOF ||| fNX ||| (if r.sat then fSAT else 0))
  else if f.sp = .e4m3 then (f.nan, fOF ||| fNX)
  else (sb + f.infCode, fOF ||| fNX)

/-- Round a magnitude into a format (R44). -/
def roundMag (f : Fp) (r : Rounding) (neg : Bool) (m : Mag) : Nat × BitVec 8 :=
  let q := max (m.lg - f.fb) f.qMin
  let (n, inexact) := onGrid r neg m q
  let code := (q - f.qMin).toNat * 2 ^ f.fb + n
  if f.maxCode < code then overflow f r neg
  else ((if neg then f.signBit else 0) + code,
    if inexact then (if code < 2 ^ f.fb then fNX ||| fUF else fNX) else 0)

/-- Round(x, mode) into a floating-point format (R44-R46): the code and the flags. -/
def roundTo (f : Fp) (r : Rounding) : Exact → Nat × BitVec 8
  | .num (.nan sig) => (f.nan, if sig || decide (f.sp = .none) then fNV else 0)
  | .num (.inf neg) =>
    let sb := if neg then f.signBit else 0
    match f.sp with
    | .ieee | .e5m2 => (sb + f.infCode, 0)
    | .e4m3 => if r.sat then (sb + f.maxCode, fSAT) else (f.nan, fSAT)
    | .none => (sb + f.maxCode, fSAT)
  | .num (.fin neg m e) => if m = 0 then (if neg then f.signBit else 0, 0) else roundMag f r neg (magOf m e)
  | .mag neg m => roundMag f r neg m

/-- An integer format: width and signedness (R36). -/
structure IntFmt where
  w : Nat
  signed : Bool
deriving DecidableEq, Repr

/-- The least value of an integer format. -/
def IntFmt.lo (t : IntFmt) : Int := if t.signed then -(2 ^ (t.w - 1) : Nat) else 0
/-- The greatest value of an integer format. -/
def IntFmt.hi (t : IntFmt) : Int := if t.signed then (2 ^ (t.w - 1) : Nat) - 1 else (2 ^ t.w : Nat) - 1
/-- The value of a bit pattern. -/
def IntFmt.int (t : IntFmt) (code : Nat) : Int := if t.signed && bit code (t.w - 1) then (code : Int) - (2 ^ t.w : Nat) else code
/-- The bit pattern of a value modulo 2^w. -/
def IntFmt.wrap (t : IntFmt) (x : Int) : Nat := (x % (2 ^ t.w : Nat)).toNat
/-- Sat(x, T): clamp, and whether it clamped (R36). -/
def IntFmt.sat (t : IntFmt) (x : Int) : Int × Bool :=
  if x < t.lo then (t.lo, true) else if t.hi < x then (t.hi, true) else (x, false)

/-- An integer as an exact value. -/
def ofInt (x : Int) : Num := .fin (decide (x < 0)) x.natAbs 0

/-- An exact value rounded to an integer, with the flag of inexactness; none for NaN and infinity. -/
def roundInteger (r : Rounding) : Exact → Option (Int × Bool)
  | .num (.fin neg m e) => let (n, ix) := onGrid r neg (magOf m e) 0; some (if neg then -(n : Int) else n, ix)
  | .mag neg m => let (n, ix) := onGrid r neg m 0; some (if neg then -(n : Int) else n, ix)
  | .num _ => none

/-- Conversion to an integer format (R46): the code and the flags. `fromInt` conversions set no flag but SAT. -/
def roundToInt (t : IntFmt) (r : Rounding) (fromInt : Bool) (x : Exact) : Nat × BitVec 8 :=
  match x, roundInteger r x with
  | .num (.inf neg), _ => (t.wrap (if neg then t.lo else t.hi), fSAT)
  | _, some (n, ix) =>
    let (y, clamped) := t.sat n
    (t.wrap y, (if clamped then fSAT else 0) ||| (if !fromInt && (ix || clamped) then fNX else 0))
  | _, none => (0, fNV)

/-! ### Exact operations -/

/-- A NaN among the operands: the result is NaN, and NV when one is signalling (R35). -/
def nanIn (xs : List Num) : Option (Num × BitVec 8) :=
  let sig := xs.any fun x => match x with | .nan true => true | _ => false
  let any := xs.any fun x => match x with | .nan _ => true | _ => false
  if any then some (.nan false, if sig then fNV else 0) else none

/-- The sign of a value. -/
def Num.neg : Num → Bool
  | .nan _ => false
  | .inf n => n
  | .fin n _ _ => n

/-- A value with its sign changed. -/
def Num.flip : Num → Num
  | .nan s => .nan s
  | .inf n => .inf !n
  | .fin n m e => .fin (!n) m e

/-- Whether a value is a zero. -/
def Num.isZero : Num → Bool
  | .fin _ m _ => m == 0
  | _ => false

/-- A signed multiple of a power of two. -/
def signedAt (neg : Bool) (m : Nat) (e q : Int) : Int := (if neg then -1 else 1) * ((m * 2 ^ (e - q).toNat : Nat) : Int)

/-- The exact sum of finite values; an exact zero is +0 but under RDN, and keeps the sign that all terms share (R44). -/
def sumFin (mode : Nat) (xs : List (Bool × Nat × Int)) : Num :=
  let nz := xs.filter fun x => x.2.1 != 0
  let q := nz.foldl (fun (q : Int) x => min q x.2.2) (match nz with | [] => 0 | x :: _ => x.2.2)
  let t := nz.foldl (fun (t : Int) x => t + signedAt x.1 x.2.1 x.2.2 q) 0
  if t = 0 then
    if nz.isEmpty && xs.all (fun x => x.1) && !xs.isEmpty then .fin true 0 0
    else if nz.isEmpty && xs.all (fun x => !x.1) then .fin false 0 0
    else .fin (mode == 3) 0 0
  else .fin (decide (t < 0)) t.natAbs q

/-- The exact sum of values: NaN for a NaN term or for infinities of both signs, with NV as R35, R44 and R54 give. -/
def sumNum (mode : Nat) (xs : List Num) : Num × BitVec 8 :=
  let pos := xs.any fun x => x = .inf false
  let neg := xs.any fun x => x = .inf true
  match nanIn xs with
  | some (r, f) => (r, if pos && neg then f ||| fNV else f)
  | none =>
    if pos && neg then (.nan false, fNV)
    else if pos then (.inf false, 0)
    else if neg then (.inf true, 0)
    else (sumFin mode (xs.filterMap fun x => match x with | .fin n m e => some (n, m, e) | _ => none), 0)

/-- The exact sum of two values. -/
def addNum (mode : Nat) (a b : Num) : Num × BitVec 8 := sumNum mode [a, b]

/-- The exact product of two values: 0 × ∞ is NaN with NV (R244). -/
def mulNum (a b : Num) : Num × BitVec 8 :=
  match nanIn [a, b] with
  | some r => r
  | none =>
    let s := a.neg != b.neg
    match a, b with
    | .fin _ m e, .fin _ n f => (.fin s (m * n) (e + f), 0)
    | x, y => if x.isZero || y.isZero then (.nan false, fNV) else (.inf s, 0)

/-- d + a × b (R244 fma). 0 × ∞ sets NV whatever d is. -/
def fmaNum (mode : Nat) (d a b : Num) : Num × BitVec 8 :=
  let (p, f) := mulNum a b
  let (r, g) := addNum mode d p
  (r, f ||| g)

/-- The exact quotient (R244 fdiv). -/
def divNum (a b : Num) : Exact × BitVec 8 :=
  match nanIn [a, b] with
  | some (n, f) => (.num n, f)
  | none =>
    let s := a.neg != b.neg
    match a, b with
    | .inf _, .inf _ => (.num (.nan false), fNV)
    | .inf _, _ => (.num (.inf s), 0)
    | .fin _ m e, .fin _ n f =>
      if n = 0 then (if m = 0 then (.num (.nan false), fNV) else (.num (.inf s), fDZ))
      else if m = 0 then (.num (.fin s 0 0), 0)
      else (.mag s (magRatio m n (e - f)), 0)
    | _, _ => (.num (.fin s 0 0), 0)

/-- The exact square root (R244 fsqrt). -/
def sqrtNum (a : Num) : Exact × BitVec 8 :=
  match a with
  | .nan s => (.num (.nan false), if s then fNV else 0)
  | .inf neg => if neg then (.num (.nan false), fNV) else (.num (.inf false), 0)
  | .fin neg m e =>
    if m = 0 then (.num (.fin neg 0 0), 0)
    else if neg then (.num (.nan false), fNV)
    else (.mag false (magSqrt m 1 e), 0)

/-- Numeric order of two values that are no NaN: −0 equals +0. -/
def ltNum : Num → Num → Bool
  | .inf a, .inf b => a && !b
  | .inf a, _ => a
  | _, .inf b => !b
  | .fin s m e, .fin t n f =>
    let q := min e f
    decide (signedAt s m e q < signedAt t n f q)
  | _, _ => false

/-- Numeric equality of two values that are no NaN. -/
def eqNum (a b : Num) : Bool := !ltNum a b && !ltNum b a

/-- The order of vmin and vmax: −0 below +0 (R274). -/
def belowNum (a b : Num) : Bool := ltNum a b || (eqNum a b && a.isZero && a.neg && !b.neg)

/-- A NaN. -/
def Num.isNaN : Num → Bool
  | .nan _ => true
  | _ => false

/-- A signalling NaN. -/
def Num.isSig : Num → Bool
  | .nan s => s
  | _ => false

/-- An infinity. -/
def Num.isInf : Num → Bool
  | .inf _ => true
  | _ => false

/-! ### Special functions (13_vector R282): enclosures by integers scaled by 2^P -/

/-- A magnitude known to lie strictly between two integers over 2^p, times 2^n, for each precision p that is asked for. -/
structure Enclosure where
  bounds : Nat → Nat × Nat
  shift : Int

/-- The floor of an enclosed irrational magnitude times 2^k: at the first precision whose two bounds have the same floor. -/
def Enclosure.floorAt (x : Enclosure) (k : Int) : List Nat → Nat
  | [] => 0
  | p :: r =>
    let (lo, hi) := x.bounds p
    let a := ((magOf lo (x.shift - p)).scaled k).1
    let b := ((magOf hi (x.shift - p)).scaled k).1
    if a = b || r.isEmpty then a else x.floorAt k r

/-- The precisions tried. -/
def precisions : List Nat := [640, 2048]

/-- The magnitude of an enclosure. -/
def Enclosure.mag (x : Enclosure) : Mag :=
  { lg := ((x.bounds 640).1.log2 : Int) - 640 + x.shift, scaled := fun k => (x.floorAt k precisions, false) }

/-- Bound on the error of the sums below, in units of 2^-P. -/
def slack : Nat := 2 ^ 20

/-- atanh(1/3) and every atanh(z / 2^P), z < 2^P: the sum of z^(2k+1) / (2k+1), scaled by 2^P. -/
def atanhSum (p z z2 : Nat) : Nat → Nat → Nat → Nat → Nat
  | 0, _, _, acc => acc
  | n + 1, zk, d, acc => atanhSum p z z2 n (zk * z2 / 2 ^ p) (d + 2) (acc + zk / d)

/-- atanh of a scaled argument below 1/2. -/
def atanhFix (p z : Nat) : Nat := atanhSum p z (z * z / 2 ^ p) (p / 2 + 8) z 1 0

/-- ln 2 scaled by 2^P. -/
def ln2Fix (p : Nat) : Nat := 2 * atanhFix p (2 ^ p / 3)

/-- The sum of r^k / k! scaled by 2^P, for r below 1. -/
def expSum (p r : Nat) : Nat → Nat → Nat → Nat → Nat
  | 0, _, _, acc => acc
  | n + 1, t, k, acc => expSum p r n (t * r / 2 ^ p / (k + 1)) (k + 1) (acc + t)

/-- e^x for x scaled by 2^P: a mantissa scaled by 2^P in [1, 2) and the power of two. -/
def expFix (p : Nat) (x : Int) : Nat × Int :=
  let l : Int := ln2Fix p
  let n := x / l
  (expSum p (x - n * l).toNat (p / 3 + 24) (2 ^ p) 0 0, n)

/-- A value times 2^P, rounded down; a magnitude above 2,048 counts as 2,048, where every function here has left every format. -/
def fixOf (p : Nat) (neg : Bool) (m : Nat) (e : Int) : Int :=
  let v := min ((magOf m e).scaled p).1 (2048 * 2 ^ p)
  if neg then -(v : Int) else v

/-- e^x scaled by 2^P as one integer. -/
def expScaled (p : Nat) (x : Int) : Nat := let (m, n) := expFix p x; ((magOf m n).scaled 0).1

/-- Enclosure of e^x: the scale is the power of two of the first precision. -/
def encExp (neg : Bool) (m : Nat) (e : Int) : Enclosure :=
  let n := (expFix 640 (fixOf 640 neg m e)).2
  { bounds := fun p =>
      let (t, k) := expFix p (fixOf p neg m e)
      let u := ((magOf t (k - n)).scaled 0).1
      (u - slack, u + slack),
    shift := n }

/-- Enclosure of |ln(m × 2^e)|, and whether it is negative. -/
def lnFix (p m : Nat) (e : Int) : Int :=
  let l := m.log2
  let f := ((magOf m (-(l : Int))).scaled p).1
  let z := (f - 2 ^ p) * 2 ^ p / (f + 2 ^ p)
  ((l : Int) + e) * ln2Fix p + 2 * atanhFix p z

def encLn (m : Nat) (e : Int) : Bool × Enclosure :=
  (decide (lnFix 640 m e < 0), { bounds := fun p => let v := (lnFix p m e).natAbs; (v - slack, v + slack), shift := 0 })

/-- Enclosure of tanh x for x > 0: 1 − 2 / (e^2x + 1), below 1. -/
def encTanh (m : Nat) (e : Int) : Enclosure :=
  { bounds := fun p =>
      let y := expScaled p (fixOf p false m (e + 1))
      let v := 2 ^ p - 2 * 2 ^ p * 2 ^ p / (y + 2 ^ p)
      (v - slack, min (v + slack) (2 ^ p - 1)),
    shift := 0 }

/-- Enclosure of 1 / (1 + e^-x), below 1. -/
def encSigm (neg : Bool) (m : Nat) (e : Int) : Enclosure :=
  { bounds := fun p =>
      let y := expScaled p (fixOf p true m e)
      let v := (if neg then y else 2 ^ p) * 2 ^ p / (2 ^ p + y)
      (v - slack, min (v + slack) (2 ^ p - 1)),
    shift := 0 }

/-- The special functions in the order of their function codes (R282). -/
def specialFn (fn : Nat) (a : Num) : Exact × BitVec 8 :=
  match a with
  | .nan s => (.num (.nan false), if s then fNV else 0)
  | .inf neg =>
    (match fn with
     | 0 => (.num (.fin neg 0 0), 0)
     | 1 => if neg then (.num (.nan false), fNV) else (.num (.fin false 0 0), 0)
     | 2 => if neg then (.num (.fin false 0 0), 0) else (.num (.inf false), 0)
     | 3 => if neg then (.num (.nan false), fNV) else (.num (.inf false), 0)
     | 4 => (.num (.fin neg 1 0), 0)
     | _ => if neg then (.num (.fin false 0 0), 0) else (.num (.fin false 1 0), 0))
  | .fin neg m e =>
    if m = 0 then
      (match fn with
       | 0 => (.num (.inf neg), fDZ)
       | 1 => (.num (.inf neg), fDZ)
       | 2 => (.num (.fin false 1 0), 0)
       | 3 => (.num (.inf true), fDZ)
       | 4 => (.num (.fin neg 0 0), 0)
       | _ => (.num (.fin false 1 (-1)), 0))
    else
      (match fn with
       | 0 => (.mag neg (magRatio 1 m (-e)), 0)
       | 1 => if neg then (.num (.nan false), fNV) else (.mag false (magSqrt 1 m (-e)), 0)
       | 2 => (.mag false (encExp neg m e).mag, 0)
       | 3 =>
         if neg then (.num (.nan false), fNV)
         else if eqNum a (.fin false 1 0) then (.num (.fin false 0 0), 0)
         else let (s, x) := encLn m e; (.mag s x.mag, 0)
       | 4 => (.mag neg (encTanh m e).mag, 0)
       | _ => (.mag false (encSigm neg m e).mag, 0))

end Sys2Proof.Machine
end

