-- ==== Sys2Proof/Machine/Loss.lean ====
section
/-! DEFINITION. The loss of a core (19_faults R408; 07_group R159; 01_module R21). -/

namespace Sys2Proof.Machine

/-- The trap of an error that was not masked: unit class and index, and the affected address. -/
def errorTrap (r : ErrorReport) (tile : Nat) : Trap :=
  { mkTrap .uncorrectable (r.unitClass % 256 + r.unitIndex % 256 * 256) r.addr with tile := .ofNat 64 tile }

/-- The tags of a failed core: its copies and transfers are cancelled at their marks, which stay poisoned until its group retires. -/
def State.loseTag (s : State) (t : TagRef) : State :=
  match (s.tag t).op with
  | some (.copy c) => let u := s.cancelTag t; { u with tags := (u.tags.drop t).set (orphanOf t (.copy c)) (u.tag t) }
  | some (.transfer x) =>
    let u := (s.cancelTag t).forgetTransfer x.slot t
    { u with tags := (u.tags.drop t).set (orphanOf t (.transfer x)) (u.tag t) }
  | _ => s.releaseTag t

/-- Every tag of a failed core, and the streams that it forked. -/
def State.loseWork (s : State) (c : Nat) : State :=
  let mine := (s.tags.filter fun e => decide (e.1.owner = .core c) && decide (e.1.tag < 64)).map (·.1)
  let s1 := mine.foldl (fun (t : State) g => t.loseTag g) s
  { s1 with
    seqs := s1.seqs.filter fun e => match e.1 with
      | .pier p k => (s1.stream p k).core != c
      | _ => true,
    streams := s1.streams.filter fun e => e.2.core != c,
    units := s1.units.filter fun e => match e.2.holder with
      | some k => (s1.stream e.1.1 k).core != c
      | none => true,
    parked := s1.parked.filter fun e => s1.coreOf e.1 != some c }

/-- The group after the loss of a member's core: an open tile goes back to the bottom of its deque (R159), where it can be a 257th entry, and a rank
whose C has halted takes no other core; a draining group that gets a tile back runs again; the rules settle none of these (log 96). -/
def Group.loseMember (r : Group) (k : Core) : Group :=
  let r1 := if k.opened then
      { r with deques := r.deques.set k.rank (r.deques.get [] k.rank ++ [{ first := k.tile, count := 1 }]), untaken := r.untaken + 1,
               st := if r.st = .draining then .running else r.st }
    else r
  if r.halted.contains k.rank then r1 else { r1 with lost := k.rank :: r1.lost.filter fun i => i != k.rank }

/-- The copies and transfers of a core cancelled at their marks (R408; 15_ferry R324). -/
def State.cancelWork (s : State) (c : Nat) : State :=
  (s.tags.filter fun e => decide (e.1.owner = .core c) && decide (e.1.tag < 64)).foldl (fun (t : State) e => match e.2.op with
    | some (.copy _) => t.cancelTag e.1
    | some (.transfer x) => (t.cancelTag e.1).forgetTransfer x.slot e.1
    | _ => t) s

/-- What a bound core holds lost with it (R408): its tile is replayed, or cause 21 where it cannot be. A qcommit that performs its buffer retires
first (07_group R161; log 77), and a core that is being saved has its fault marked, for the same choice at its restore. -/
def State.loseBound (s : State) (c : Nat) (r : ErrorReport) : State :=
  let k := s.core c
  match k.slot, k.group with
  | some slot, some g =>
    if k.committing ∨ (s.ctx slot).preempting.isSome then s.setCore c { k with failing := some r }
    else
      let t := s.setCore c { k with failing := none }
      if k.bank.isSome ∨ (k.opened ∧ k.nidem) then
        (t.cancelWork c).escalate slot (some c) (.seq c sqC) (errorTrap r (if k.opened then k.tile else 0)) (s.seq (.seq c sqC)).pc 0
      else ((t.loseWork c).setGroup g ((t.loseWork c).group g |>.loseMember k)).unbindCore c
  | _, _ => s

/-- A core retired at once (R408). Its number is unavailable only where no spare is left (01_module R21). -/
def State.loseCore (s : State) (c : Nat) (r : ErrorReport) : State :=
  let gone := s.disp.spares == 0 && !s.disp.unavailable.contains c
  let s1 : State := { s with disp := { s.disp with unavailable := if gone then c :: s.disp.unavailable else s.disp.unavailable,
                                                   reserved := s.disp.reserved.filter fun e => e.1 != c } }
  s1.loseBound c r

/-- A core whose fault was marked is lost, where it is bound again. -/
def State.loseMarked (s : State) (c : Nat) : State :=
  match (s.core c).failing with
  | some r => s.loseBound c r
  | none => s

/-- A core whose failure waited for its qcommit, lost at the end of that step. -/
def State.loseFailing (s : State) (a : Agent) : State :=
  match a with
  | .seq c q => if q = sqC ∧ (s.core c).committing = false then s.loseMarked c else s
  | _ => s

end Sys2Proof.Machine
end

