-- ==== Sys2Proof/Machine/Issue.lean ====
section
/-! DEFINITION. How a sequencer issues a step around the meanings of its two orders (03_encoding R64-R68; 05_kernel R115-R131):
fetch, decoding, tokens, predicate depth, and at the end POP, control transfer, loop close, last-use marks and sends. -/

namespace Sys2Proof.Machine

/-! ### Fetch (R64) -/

/-- The image that governs the attributes of a control stream (R64). -/
def State.governing (s : State) : Agent → Option Image
  | .seq c _ => if (s.core c).bank.isSome then (s.core c).hand else (s.core c).kern
  | .pier p k => some (s.stream p k).image
  | .copy _ => none

/-- Where the attribute of the step at an address lies: nowhere outside the governing image's control-stream section (R64). -/
def State.attrPlace (s : State) (a : Agent) (va : Nat) : Option Nat :=
  (s.governing a).bind fun g =>
    let base := g.base + g.codeOff
    if base ≤ va ∧ va < base + 8 * g.codeCount then some (base + 8 * g.codeCount + (va - base) / 8) else none

/-- The attribute byte of the step at an address (R64). -/
def State.attrAt (s : State) (a : Agent) (va : Nat) : Except Trap (BitVec 8) :=
  match s.attrPlace a va with
  | none => .ok 0
  | some p =>
    match s.execBytes (s.slotOf a) p 1 with
    | .ok b => .ok (b.headD 0)
    | .error t => .error t

/-- The remap-filter entries that the fetch of a control stream makes (11_page R225). -/
def State.noteFetch (s : State) (a : Agent) : State :=
  if a.isScalar then
    let pc := (s.seq a).pc.toNat
    let t := s.noteSpan (s.slotOf a) pc 8 .exec
    match s.attrPlace a pc with
    | some p => t.noteSpan (s.slotOf a) p 1 .exec
    | none => t
  else s

/-- The two words and the attribute of a sequencer's next step (R64, R258, R148). A step counter that is no multiple of 8, such as rft can leave,
traps here, at the step that it names; the spec does not say at which step a misaligned return traps (log 97). -/
def State.fetch (s : State) (a : Agent) : Except Trap StepWords :=
  let pc := (s.seq a).pc.toNat
  match a with
  | .seq c q =>
    if q ≠ sqC then .ok ((s.core c).tbl.get {} (q, pc % 2048))
    else if pc % 8 ≠ 0 then .error (mkTrap .misalignment 0 pc)
    else
      match s.execBytes (s.slotOf a) pc 8, s.attrAt a pc with
      | .error t, _ => .error t
      | .ok _, .error t => .error t
      | .ok b, .ok at_ => .ok { w0 := .ofNat 32 (fieldAt b 0 4), w1 := .ofNat 32 (fieldAt b 4 4), attr := at_ }
  | .pier _ _ =>
    if pc % 8 ≠ 0 then .error (mkTrap .misalignment 0 pc)
    else
      match s.execBytes (s.slotOf a) pc 8, s.attrAt a pc with
      | .error t, _ => .error t
      | .ok _, .error t => .error t
      | .ok b, .ok at_ => .ok { w0 := .ofNat 32 (fieldAt b 0 4), w1 := .ofNat 32 (fieldAt b 4 4), attr := at_ }
  | .copy n => .ok ((s.cseq n).tbl.get {} (pc % 2048))

/-! ### Tokens (R68, R118, R119) -/

/-- The queue that each token bit of a word names on a sequencer, waits first (R68, R118): wait left, wait right, send left, send
right. -/
def tokenQueue (sq : Nat) (b : Nat) : Option Nat :=
  match b, sq with
  | 3, 0 => some 9 | 3, 1 => some 0 | 3, 2 => some 1 | 3, 3 => some 3 | 3, 4 => some 5 | 3, 5 => some 7
  | 2, 1 => some 2 | 2, 2 => some 4 | 2, 3 => some 6 | 2, 4 => some 8
  | 1, 2 => some 2 | 1, 3 => some 4 | 1, 4 => some 6 | 1, 5 => some 8
  | 0, 0 => some 0 | 0, 1 => some 1 | 0, 2 => some 3 | 0, 3 => some 5 | 0, 4 => some 7 | 0, 5 => some 9
  | _, _ => none

/-- How many tokens a token bit of a word stands for: n in tok n, else 1 (R125). -/
def tokenCount (w : BitVec 32) : Nat := if fld w 26 6 = 0#6 ∧ fld w 17 5 = 5#5 then (fld w 0 4).toNat + 1 else 1

/-- The tokens of one word in a direction: bits 3, 2 wait, bits 1, 0 send. -/
def wordTokens (sq : Nat) (w : BitVec 32) (b : Nat) : List (Nat × Nat) :=
  if (tokOf w).getLsbD b then
    match tokenQueue sq b with
    | some q => [(q, tokenCount w)]
    | none => []
  else []

/-- Entries of a token list with one queue added up. -/
def sumTokens (l : List (Nat × Nat)) : List (Nat × Nat) :=
  l.foldl (fun (m : Map Nat Nat) (e : Nat × Nat) => m.set e.1 (m.get 0 e.1 + e.2)) []

/-- What the two words of a step wait for, and what they send. -/
def stepWaits (sq : Nat) (w : StepWords) : List (Nat × Nat) :=
  sumTokens (wordTokens sq w.w0 3 ++ wordTokens sq w.w0 2 ++ wordTokens sq w.w1 3 ++ wordTokens sq w.w1 2)
def stepSends (sq : Nat) (w : StepWords) : List (Nat × Nat) :=
  sumTokens (wordTokens sq w.w0 1 ++ wordTokens sq w.w0 0 ++ wordTokens sq w.w1 1 ++ wordTokens sq w.w1 0)

/-- Whether a queue lies on the left of a sequencer (R117 KIND 1 and 3). -/
def leftQueue (sq q : Nat) : Bool := tokenQueue sq 3 == some q || tokenQueue sq 1 == some q

/-- Tokens entered into one queue up to its depth: those that found no room (R119). -/
def State.sendTokens (s : State) (core q n : Nat) (stamp : Nat × Nat) : Nat × State :=
  let k := s.core core
  let t := k.tokQ.get {} q
  let room := t.depth - t.count
  (n - room, s.setCore core { k with tokQ := k.tokQ.set q { t with count := t.count + min n room, stamps := t.stamps ++ List.replicate (min n room) stamp } })

/-- Send the tokens of a step; those without room are held, and the sequencer blocks (R119). -/
def State.sendAll (s : State) (a : Agent) (at_ : Word) (l : List (Nat × Nat)) : State :=
  match a with
  | .seq c sq =>
    let r := l.foldl (fun (p : List (Nat × Nat) × State) e =>
      let (left, t) := p.2.sendTokens c e.1 e.2 (s.stampOf a)
      (if left = 0 then p.1 else p.1 ++ [(e.1, left)], t)) (([] : List (Nat × Nat)), s)
    let q := r.2.seq a
    match r.1 with
    | [] => r.2.setSeq a { q with heldTok := [] }
    | (k, _) :: _ =>
      r.2.setSeq a ({ q with heldTok := r.1 }.block r.2 (if leftQueue sq k then 3 else 4) k .sends at_)
  | _ => s

/-- A sequencer of a core whose halt has retired and whose tokens have all entered (R125): an engine stops, and C's member has
halted (07_group R150). -/
def State.stopCore (s : State) (c sq : Nat) : State :=
  let a := Agent.seq c sq
  let s1 := s.setSeq a { s.seq a with run := .stopped, halting := false, wait := none, kept := none }
  if sq = sqC then s1.memberHalted c else s1

/-- Held tokens enter as room appears; when none is left the sequencer goes on, or stops where it had halted (R119, R125). -/
def State.flushTokens (s : State) (a : Agent) : State :=
  let s1 := s.sendAll a (((s.seq a).wait.map (·.step)).getD (s.seq a).pc) (s.seq a).heldTok
  let q := s1.seq a
  match a with
  | .seq c sq =>
    if !q.heldTok.isEmpty then s1
    else if q.halting then s1.stopCore c sq
    else s1.setSeq a { q with run := .running, wait := none, kept := none }
  | _ => s1

/-! ### The predicate stack at issue (R121) -/

/-- What an order does to the depth of the predicate stack. -/
inductive PredUse where
  | none | push | flip
deriving DecidableEq, Repr

/-- The orders that change the predicate stack (R66, R121, R131, R246, R278, R279); prcpy pushes when it acts (17_piers R362). -/
def predUse (i : Instr) (acts : Bool) : PredUse :=
  match i with
  | .ptrue _ | .peq _ _ | .pne _ _ | .plt _ _ _ | .pge _ _ _ | .pfeq _ _ _ | .pflt _ _ _ | .pfle _ _ _ => .push
  | .vpeq .. | .vpne .. | .vplt .. | .vple .. | .vpnan .. | .vpfin .. | .vpld .. => .push
  | .prcpy _ _ b => if acts && b == 0#1 then .push else .none
  | .pelse _ => .flip
  | _ => .none

/-- The depth after one order, or the trap that it raises at issue (R121). -/
def depthAfter (u : PredUse) (d : Nat) : Except Cause Nat :=
  match u with
  | .none => .ok d
  | .push => if 8 ≤ d then .error .predOverflow else .ok (d + 1)
  | .flip => if d = 0 then .error .predUnderflow else .ok d

/-- The predicate check of a step: the trap and its slot. -/
def predCheck (i0 i1 : Instr) (acts : Bool) (d pop : Nat) : Option (Cause × Nat) :=
  match depthAfter (predUse i0 acts) d with
  | .error c => some (c, 0)
  | .ok d0 =>
    match depthAfter (predUse i1 acts) d0 with
    | .error c => some (c, 1)
    | .ok d1 => if d1 < pop then some (.predUnderflow, 0) else none

/-! ### Starting a step -/

/-- Whether a sequencer's context lets it issue: the core is bound, the slot or sequencer in use, the context running and not being
pre-empted (04_context R96, R100; 17_piers R356). -/
def State.inUse (s : State) : Agent → Bool
  | .seq c _ => (s.core c).slot.isSome && decide (c < 128)
  | .pier p k => (s.stream p k).used
  | .copy n => (s.cseq n).busy

/-- Whether C of a core is in a qcommit, a bsclaim or a bsrel that has begun, which retires before the core stops (07_group R161;
16_bitserial R354). -/
def State.mustRetire (s : State) (a : Agent) : Bool :=
  match a with
  | .seq c q => q == sqC && ((s.core c).committing || (match (s.seq a).resume with
      | some r => r.phase == .claim || r.phase == .release
      | none => false))
  | _ => false

/-- Whether a sequencer may issue a step. -/
def State.mayIssue (s : State) (a : Agent) : Bool :=
  s.inUse a && decide ((s.ctx (s.slotOf a)).st = .running) && ((s.ctx (s.slotOf a)).preempting.isNone || s.mustRetire a)

/-- A trap that waits for this sequencer's step boundary and can be delivered now (19_faults R399; 15_ferry R322). -/
def State.waitingTrap (s : State) (a : Agent) : Option AsyncTrap :=
  let core := match a with
    | .copy n => s.lowestCore (s.cseq n).slot
    | _ => s.coreOf a
  s.atraps.find? fun t => decide (t.who = a) && ((t.tag.isNone && !t.late && !a.isCopy) || (match core with
    | some c => (s.core c).bank.isNone
    | none => true)) && !s.trapWaits a

/-- Deliver such a trap. -/
def State.deliverAsync (s : State) (t : AsyncTrap) : State :=
  let u : State := { s with atraps := s.atraps.erase t }
  match t.origin with
  | some a => u.deliverTo (s.coreOf t.who) a { t.trap with async := true } t.step t.slot none none
  | none => u.deliver t.who { t.trap with async := true } t.step t.slot none none

/-- NFTRAP, SRSEED and DEADCHK as a step whose orders have stalled at a watermark has read them (12_scalar R249). -/
def Seq.stalledWith (q : Seq) : Option (BitVec 2 × Word × Bool) :=
  match q.wait with
  | some w => match w.cond with
    | .unstalled .. => some w.seen
    | _ => none
  | none => none

/-- The issue record of a step that starts. -/
def State.openIssue (s : State) (a : Agent) (w : StepWords) : Issue :=
  let q := s.seq a
  let k := s.core ((s.coreOf a).getD 0)
  let x := s.ctx (s.slotOf a)
  let seen := (q.stalledWith).getD (x.nftrap, x.srseed, x.deadchk)
  let sq := match a with | .seq _ n => n | _ => 9
  { who := a, slot := 0, here := q.pc, words := w, old := q,
    oldV := if a.isVector then k.vreg else [], oldLive := if a.isVector then k.live else [],
    oldMd := if sq = sqM then k.md else [], oldAcc := if a.isVector then k.acc else [],
    pop := (fld (w.attr.zeroExtend 32) 3 2).toNat, startOp := s.nextOp,
    core := (match a with | .seq c _ => some c | _ => none), nft := seen.1, seed := seen.2.1, deadchk := seen.2.2,
    oldCore := if sq = sqM then some k else none, sends := stepSends sq w }

/-- A trap of the step itself, before any order acts. -/
def State.stepTrap (s : State) (iss : Issue) (t : Trap) (slot : Nat) : State :=
  { State.takeTrap { s with iss := { iss with slot := slot } } t with iss := {} }

/-- The trap of an attribute byte (R65, R129, R397). -/
def illegalAttr (c : SubCause) (a : BitVec 8) : Trap := mkTrap .illegalOrder (c.code + a.toNat * 2 ^ 32)

/-- The rotating frame whose body holds a step (R129). -/
def Seq.rotating (q : Seq) (here : Nat) : Option Frame :=
  q.frames.find? fun f => f.rotating && decide (f.first.toNat ≤ here) && decide (here ≤ f.last.toNat)

/-- The token waits of a step: the state with its tokens taken, or the sequencer blocked (R66, R119). -/
def State.startTokens (s : State) (a : Agent) (w : StepWords) : Bool × State :=
  let q := s.seq a
  match a with
  | .seq c sq =>
    if q.taken.isSome then (true, s)
    else
      let need := stepWaits sq w
      match need.find? (fun e => decide (((s.core c).tokQ.get {} e.1).count < e.2)) with
      | some e => (false, s.setSeq a (q.block s (if leftQueue sq e.1 then 1 else 2) e.1 (.tokens c e.1 e.2)))
      | none =>
        let x := need.foldl (fun z e => ((((s.core c).tokQ.get {} e.1).stamps).take e.2).foldl joinSeen z) (0, 0)
        let s1 := (s.takeTokens c need).see a x
        (true, s1.setSeq a { s1.seq a with taken := some need })
  | _ => (true, s)

/-! ### Ending a step -/

/-- The address of the step after one (R115): engine counters wrap after 2,047. -/
def nextStep (a : Agent) (here : Word) : Word := if a.isScalar then here + 8 else .ofNat 64 ((here.toNat + 1) % 2048)

/-- Close the frames whose last step has retired (R127, R129): the frames that stay, the loop registers, and where the stream goes
on. -/
def closeLoops (here : Word) (next : Word) : List Frame → Map Nat Word → List Frame × Map Nat Word × Word
  | [], lc => ([], lc, next)
  | f :: r, lc =>
    if f.last ≠ here then (f :: r, lc, next)
    else
      let n := lc.get 0 f.reg - 1
      let lc' := lc.set f.reg n
      if n ≠ 0 then ({ f with index := f.index + 1 } :: r, lc', f.first) else closeLoops here next r lc'

/-- The frames that hold the target of a taken transfer (R127). -/
def framesAt (t : Word) (l : List Frame) : List Frame := l.filter fun f => decide (f.first.toNat ≤ t.toNat) && decide (t.toNat ≤ f.last.toNat)

/-- POP and the step counter of a step that retires (R65, R67, R127): a halt, like every transfer, closes no loop, and neither does the skip of a body,
which only sets the step counter (log 19). -/
def Seq.advance (q : Seq) (a : Agent) (here : Word) (pop : Nat) (x : Option Xfer) : Seq :=
  let q1 := { q with stack := q.stack.drop pop }
  match x with
  | some (.jump t) => { q1 with pc := t, frames := framesAt t q1.frames }
  | some (.skip last) => { q1 with pc := nextStep a last }
  | some .stop => { q1 with pc := nextStep a here }
  | some .leave => q
  | none =>
    let (fs, lc, pc) := closeLoops here (nextStep a here) q1.frames q1.lc
    { q1 with frames := fs, lc := lc, pc := pc }

/-- The registers that last-use bits of the step marked and no order of it wrote. -/
def Issue.dead (iss : Issue) : List Nat := iss.marks.filter fun v => !iss.wrote.any fun p => p.reg == v

/-! ### Registers that VA and VB share, unordered (13_vector R271; log 109) -/

/-- The notes of the other engine that a sequencer has not seen, the newest first. -/
def Core.unseen (k : Core) (q : Seq) (sq : Nat) : List VNote :=
  k.vlog.filter fun e => decide (e.eng ≠ sq) && decide ((if e.eng = sqVA then q.seen.1 else q.seen.2) ≤ e.no)

/-- A free choice for each element of `w` bits. -/
def State.pickElems (s : State) (w : Nat) : BitVec 4096 × State :=
  let (c, t) := s.freeBits (4096 / w)
  (.ofNat 4096 ((List.range (4096 / w)).foldl (fun m j => if c.testBit j then m + (2 ^ w - 1) * 2 ^ (w * j) else m) 0), t)

/-- The bits of `a` that `m` names, and those of `b` elsewhere. -/
def blend (m a b : BitVec 4096) : BitVec 4096 := (a &&& m) ||| (b &&& ~~~m)

/-- What the step of a vector engine finds in the registers: where the other engine has written without an order between them, the old or the new
value element by element, and either liveness. No element of the write or of the types of the step is torn. -/
def State.viewShared (s : State) : State :=
  match s.iss.who with
  | .seq c sq =>
    if s.iss.who.isVector then
      ((s.core c).unseen (s.seq s.iss.who) sq).foldl (fun (t : State) e =>
        let r := e.put.reg
        let (m, t1) := t.pickElems (max e.put.w (max (typeWidth s.iss.old.t0) (typeWidth s.iss.old.t1)))
        let (b, t2) := t1.freeBits 1
        let i := t2.iss
        { t2 with iss := { i with
          oldV := i.oldV.set r (blend (m &&& e.put.mask) e.put.old (i.oldV.get 0 r)),
          oldLive := i.oldLive.set r (if b = 0 then i.oldLive.get false r else e.put.live) } }) s
    else s
  | _ => s

/-- One write of a step against one unseen note of the other engine: an element that both write ends up holding one of the two values, and a register
that one writes and the other marks is live or dead. -/
def State.settleShared (s : State) (c : Nat) (base : BitVec 4096) (p : VPut) (e : VNote) : State :=
  if e.put.reg ≠ p.reg then s
  else if e.mark then
    let (b, t) := s.freeBits 1
    t.setCore c { t.core c with live := (t.core c).live.set p.reg (b != 0) }
  else
    let (m, t) := s.pickElems (max p.w e.put.w)
    t.setCore c { t.core c with vreg := (t.core c).vreg.set p.reg (blend (m &&& p.mask &&& e.put.mask) base ((t.core c).vreg.get 0 p.reg)) }

/-- The writes and last-use marks of a step of a vector engine, settled against those of the other that it has not seen, and noted for the other. -/
def State.noteShared (s : State) : State :=
  match s.iss.who with
  | .seq c sq =>
    if s.iss.who.isVector && !(s.iss.wrote.isEmpty && s.iss.dead.isEmpty) then
      let q := s.seq s.iss.who
      let u := (s.core c).unseen q sq
      let base := fun r => (((s.iss.wrote.filter fun p => p.reg == r).getLast?).map (·.old)).getD 0
      let s1 := s.iss.wrote.foldl (fun (t : State) p => u.foldl (fun (v : State) e => v.settleShared c (base p.reg) p e) t) s
      let s2 := s.iss.dead.foldl (fun (t : State) r =>
        if u.any fun e => e.put.reg == r && !e.mark then
          let (b, v) := t.freeBits 1
          v.setCore c { v.core c with live := (v.core c).live.set r (b != 0) }
        else t) s1
      let k := s2.core c
      let no := if sq = sqVA then k.vcount.1 else k.vcount.2
      let other := s2.seq (.seq c (if sq = sqVA then sqVB else sqVA))
      let news := (s.iss.dead.map fun r => ({ eng := sq, no := no, mark := true, put := { reg := r, w := 32, mask := 0, old := 0, live := true } } : VNote)) ++
        s.iss.wrote.map fun p => { eng := sq, no := no, mark := false, put := p }
      let olds := k.vlog.map fun e => if e.eng = sq then e
        else { e with put := { e.put with mask := s.iss.wrote.foldl (fun m p => if p.reg = e.put.reg then m &&& ~~~p.mask else m) e.put.mask } }
      let keeps := fun (e : VNote) => let z := if e.eng = sq then other.seen else q.seen
        decide ((if e.eng = sqVA then z.1 else z.2) ≤ e.no)
      s2.setCore c { k with
        vlog := (news ++ olds).filter keeps,
        vcount := if sq = sqVA then (no + 1, k.vcount.2) else (k.vcount.1, no + 1) }
    else s
  | _ => s

/-- Registers that last-use bits marked and no order of the step wrote become dead (R123). -/
def State.markDead (s : State) : State :=
  let dead := s.iss.dead
  if dead.isEmpty then s
  else
    let k := s.myCore
    s.setMyCore { k with live := dead.foldl (fun m v => m.set v false) k.live }

/-- The units of a stream flushed (17_piers R360, R361). -/
def State.flushUnits (s : State) (p k : Nat) : State :=
  { s with units := s.units.map fun (e : (Nat × Nat) × PoolUnit) => if e.1.1 = p ∧ e.2.holder = some k then (e.1, {}) else e }

/-- The halt of a stream (17_piers R356, R357): its tag keeps s1 and UP and becomes landed, and C's event latch is set. -/
def State.endStream (s : State) (p k : Nat) : State :=
  let r := s.stream p k
  let t : TagRef := { owner := .core r.core, tag := r.tag }
  let g := s.tag t
  let q := s.seq (.pier p k)
  let g' := match g.op with
    | some (.fork f) => { g with st := .landed, rd := true, op := some (.fork { f with ended := true, s1 := q.sreg.get 0 1, up := r.up }) }
    | _ => g
  let s1 := (s.setTag t g').flushUnits p k
  let c := s1.core r.core
  { (s1.setCore r.core { c with evt := c.evt ||| 8#4 }) with streams := s1.streams.drop (p, k), seqs := s1.seqs.drop (.pier p k) }

/-- A sequencer that has retired a halt (R125): an engine stops, C's member has halted, a stream ends, a copy sequencer's card is to
complete (06_queue R148). -/
def State.stopped (s : State) (a : Agent) : State :=
  let q := s.seq a
  match a with
  | .seq c sq => if q.heldTok.isEmpty then s.stopCore c sq else s.setSeq a { q with halting := true }
  | .pier p k => s.endStream p k
  | .copy n =>
    let r := s.cseq n
    let s1 : State := { s with
      disp := { s.disp with finishing := s.disp.finishing ++ [{ slot := r.slot, q := r.q, card := r.card, status := 0, cs := some n, order := s.nextOp }] },
      nextOp := s.nextOp + 1 }
    (s1.setSeq a { q with run := .stopped }).setCseq n { r with halted := true }

/-- Steps retired by C (12_scalar R261). -/
def State.countStep (s : State) (a : Agent) : State :=
  match a with
  | .seq c q => if q = sqC then s.setCore c { s.core c with cstep := (s.core c).cstep + 1 } else s
  | _ => s

/-- A sequencer of a bound core that has gone on: the conditions of relief (R120; 10_barrier R212) begin afresh for its core and context. -/
def State.unstick (s : State) (a : Agent) : State :=
  match a with
  | .seq c _ => { s.setCore c { s.core c with stuckAt := none } with ringWait := s.ringWait.drop (s.slotOf a) }
  | _ => s

/-- The head tests that a step's changes of chip semaphores ask for, made after both slots (06_queue R140). -/
def State.retestStep (s : State) : State := if s.iss.retest then s.retest s.mySlot else s

/-- The end of a step whose slots have finished. -/
def endStep (s : State) : State :=
  let a := s.iss.who
  let q := s.seq a
  let s1 := s.markDead.noteShared
  let s2 := s1.setSeq a { q.advance a s.iss.here s.iss.pop s.iss.xfer with
    run := .running, wait := none, kept := none, taken := none, gath := none, resume := if s.iss.xfer = some .leave then q.resume else none }
  let s3 := (s2.countStep a).sendAll a s.iss.here s.iss.sends
  let s4 := { s3.retestStep.unstick a with parked := s3.parked.drop a, iss := {} }
  (if s.iss.xfer = some .stop then s4.stopped a else s4).loseFailing a

/-- The group of the issuing core. -/
def State.myGroupRec (s : State) : Group := s.group (s.myCore.group.getD 0)

/-- The end of a step one of whose slots waits or has trapped: `start` is the state after the step's tokens were taken, `rest` the
orders from that slot on (R12, R101). At slot 1 the step goes on there later, with what slot 0 has done; a step that waits at slot 0 is issued again.
The order of issue and the free values used do not go back. -/
def stopStep (start s : State) (rest : List (Nat × Instr)) : State :=
  let a := s.iss.who
  match s.iss.out with
  | .waiting =>
    if s.iss.keep ∨ s.iss.slot = 1 then
      let u := s.retestStep
      let tiles := if s.iss.takes ∧ s.iss.tiles = none then some (start.myGroupRec, u.myGroupRec) else s.iss.tiles
      { u with parked := u.parked.set a { s.iss with out := .done, keep := false, retest := false, tiles := tiles, rest := rest }, iss := {} }
    else { (start.setSeq a { start.seq a with run := (s.seq a).run, wait := (s.seq a).wait }) with iss := {}, nextOp := s.nextOp, tick := s.tick }
  | _ => { s.retestStep with iss := {}, parked := s.retestStep.parked.drop a }

/-- A step of M without the rows that the order of slot 0 has ended in earlier turns (19_faults R398); rows that a macst has stored stand. -/
def State.undoRows (start : State) (iss : Issue) : State :=
  match iss.oldCore, iss.who with
  | some k, .seq c _ =>
    let q := start.seq iss.who
    let j := start.core c
    (start.setSeq iss.who { q with fflags := iss.old.fflags, stack := iss.old.stack, resume := none }).setCore c
      { j with acc := k.acc, w := k.w, wbit := k.wbit, wfmt := k.wfmt, wmx := k.wmx, wload := k.wload, md := k.md, mrowp := k.mrowp }
  | _, _ => start

/-- The state in which the order of slot 1 of a step traps: that before slot 0 has acted, since a trapping step leaves no effect (19_faults R398). Of a
step that waited at slot 1 the abandonment says what slot 0 leaves. -/
def State.beforeFirst (start : State) : State :=
  let t := if start.parked.any fun e => decide (e.1 = start.iss.who) && (e.2.rest.head?.map (·.1)) == some 1 then start else start.undoRows start.iss
  { t with iss := { start.iss with slot := 1 } }

/-- A trap of slot 1 taken with nothing of slot 0 done (19_faults R398), with what survives of the order in slot 1 by its own rule (00_scope R12): `o` is
what that order comes to in the state before slot 0 has acted. -/
def secondTrap (start u : State) (o : Host.Outcome State Fault Refusal) : State :=
  let plain := match u.iss.trap with
    | some t => start.beforeFirst.takeTrap t
    | none => u
  match o with
  | .next v => if v.iss.out = .trapped ∧ v.iss.trap = u.iss.trap then v else plain
  | _ => plain

/-- The accumulator that an instruction names (14_matrix R293; 13_vector R287). -/
def accOf : Instr → Option (BitVec 4)
  | .mmf _ acc .. | .mmfg _ acc .. | .mmb _ acc .. | .mmw _ acc .. | .mmfs _ acc .. | .mmbs _ acc .. | .macz _ acc .. | .macst _ acc ..
  | .macld _ acc .. | .vaccrd _ _ acc .. | .vaccwr _ acc .. => some acc
  | _ => none

/-- A word decoded: one that names an accumulator past those that the kernel declares is out of limit (14_matrix R293). -/
noncomputable def decodeIn (k : SeqKind) (accs : Nat) (w : BitVec 32) : Except SubCause Instr :=
  match decodeWord k w with
  | .ok i => if (accOf i).any fun n => decide (accs ≤ n.toNat) then .error .overLimit else .ok i
  | .error c => .error c

/-- Decode both words of a step (R66, R82): the first illegal slot with its trap. -/
noncomputable def decodeStep (k : SeqKind) (accs : Nat) (w : StepWords) : Except (Trap × Nat) (Instr × Instr) :=
  match decodeIn k accs w.w0, decodeIn k accs w.w1 with
  | .error c, _ => .error (illegalWord c w.w0, 0)
  | .ok _, .error c => .error (illegalWord c w.w1, 1)
  | .ok i, .ok j => .ok (i, j)

end Sys2Proof.Machine

namespace Sys2Proof

/-- The orders that act outside their sequencer, on memory, tags, tables, tiles, claims, streams and other units. -/
def Instr.reaches (i : Instr) : Bool :=
  match i with
  | .semset .. | .semadd .. | .tffr .. | .mtcr .. | .mtcrs .. | .mtcrc .. | .st .. | .stl .. => true
  | .aadd .. | .aand .. | .aor .. | .axor .. | .amin .. | .amax .. | .aswp .. | .acas .. => true
  | .tload .. | .tstart .. | .tstop .. | .tbase .. | .tset .. => true
  | .qput .. | .qputNb .. | .qcommit .. | .barr .. | .fstop .. | .txinit .. | .txexp .. | .txarr .. => true
  | .wfe .. | .sev .. | .pinvCtx .. | .pinvRange .. | .pinvAll | .rminvCtx .. | .rminvRange .. | .rminvAll | .ctxsv .. | .ctxld .. => true
  | .bsclaim .. | .bsrel | .bsin .. | .bsout .. | .bslog .. | .bsadd .. | .bssub .. | .bscmp .. | .bssel .. | .bsinc .. | .bsmin .. | .bspop ..
  | .bsshf .. => true
  | .fork .. | .mbput .. | .mbget .. | .pbind .. | .pstrm .. | .prun .. | .pchain .. | .prcpy .. | .przero .. | .pflush .. => true
  | .xbkt .. | .xa2a .. | .xput .. | .xget .. | .xamo .. | .xsig .. | .gbag .. | .grow .. | .supd .. | .scommit .. | .skq .. => true
  | .vaccwr .. | .vdead .. | .vst .. | .vsts .. | .vstq .. | .vsct .. | .vsctadd .. | .vaadd .. | .vamax .. => true
  | .mwld .. | .mwsp .. | .mmf .. | .mmfg .. | .mmb .. | .mmw .. | .mmfs .. | .mmbs .. | .macz .. | .macst .. | .macld .. | .mdset .. | .mdld ..
  | .mrpg .. => true
  | .fcpy .. | .fcpyz .. | .fcpym .. | .fwait .. | .fcan .. | .fres .. | .rclaim .. | .rpub .. | .rrel .. | .ftxe .. | .ftxk .. => true
  | _ => false

/-- A qtake or a qsteal. -/
def Instr.takesTiles (i : Instr) : Bool :=
  match i with
  | .qtake _ | .qsteal _ | .qstealRank _ _ => true
  | _ => false

end Sys2Proof

namespace Sys2Proof.Machine

/-- Whether the order of slot 0 takes no effect: the step of M that issues is pending at a row order of slot 1 (14_matrix R302), or slot 1 has
acted in part, or slot 0 for good, before the step was abandoned. -/
def State.skipsFirst (s : State) (a : Agent) : Bool :=
  (match (s.seq a).resume with
   | some r => r.slot == 1 && r.here == (s.seq a).pc
   | none => false) ||
  (match a with
   | .seq c q => q == sqM && (s.core c).mrowp.getLsbD 31 && (s.core c).mrowp.getLsbD 27 &&
       bits (s.core c).mrowp.toNat 26 16 == (s.seq a).pc.toNat % 2048
   | _ => false)

/-- Whether the order of slot 1 has trapped so that slot 0 is undone with it; that of a row order of M stands with slot 0 (14_matrix R302). -/
def State.trapsAlone (u : State) (a : Agent) (k : Nat) : Bool := k == 1 && decide (u.iss.out = .trapped) && u.iss.trap.isSome && !u.skipsFirst a

/-- The record of a gather stopped by a fault goes when another step of its sequencer issues first (13_vector R291). -/
def State.dropGather (s : State) (a : Agent) : State :=
  match (s.seq a).gath with
  | some g => if g.here = (s.seq a).pc then s else s.setSeq a { s.seq a with gath := none }
  | none => s

/-- The accumulators that the kernel of a sequencer's core declares. -/
def State.accsOf (s : State) (a : Agent) : Nat := ((s.core ((s.coreOf a).getD 0)).kern.map (·.accs)).getD 0

/-- What issuing a step comes to before its orders act: the state, and the orders that act in it with their slots. -/
noncomputable def openStep (s0 : State) (a : Agent) (w : StepWords) : State × List (Nat × Instr) :=
  let s := s0.dropGather a
  let iss := s.openIssue a w
  let q := s.seq a
  match decodeStep a.kind (s.accsOf a) w with
  | .error (t, slot) => (s.stepTrap iss t slot, [])
  | .ok (j0, i1) =>
    let i0 := if s.skipsFirst a then .nop 0 else j0
    if bits w.attr.toNat 7 5 ≠ 0 then (s.stepTrap iss (illegalAttr .reservedField w.attr) 0, [])
    else
      let stage := bits w.attr.toNat 2 0
      let rot := q.rotating q.pc.toNat
      let tooHigh := match rot with | some f => decide (f.stages ≤ stage) | none => false
      let active := match rot with | some f => decide (stage ≤ f.index) && decide (f.index - stage < f.trips) | none => true
      if tooHigh then (s.stepTrap iss (illegalAttr .overLimit w.attr) 0, [])
      else if !active then (endStep { s with iss := { iss with pop := 0, sends := [] } }, [])
      else
        let (go, s1) := s.startTokens a w
        if !go then (s1, [])
        else
          match predCheck i0 i1 (entryActs a q (topOf q.stack)) q.stack.length iss.pop with
          | some (c, slot) => (s1.stepTrap iss (mkTrap c) slot, [])
          | none => (State.viewShared { s1 with iss := { iss with stands := i0.reaches, takes := i0.takesTiles } }, [(0, i0), (1, i1)])

/-- The state in which a slot's order acts. -/
def State.inSlot (s : State) (k : Nat) : State := { s with iss := { s.iss with slot := k } }

/-- Begin a sequencer's turn: a trap that waits is delivered, held tokens enter, an order that waited goes on, or the next step is
fetched and opened. No orders: the turn is over. -/
noncomputable def beginStep (s : State) (a : Agent) : State × List (Nat × Instr) :=
  let q := s.seq a
  if !s.mayIssue a then (s, [])
  else if q.run = .stopped ∨ q.run = .held then (s, [])
  else
    match s.waitingTrap a with
    | some t => (s.deliverAsync t, [])
    | none =>
      if !q.heldTok.isEmpty then (s.flushTokens a, [])
      else if q.run = .blocked ∧ (match q.wait with | some w => w.over s | none => true) = false then (s, [])
      else if s.clk < q.idleUntil ∧ (s.ctx (s.slotOf a)).preempting.isNone then (s, [])
      else
        match s.parked.find? (fun e => decide (e.1 = a)) with
        | some (_, iss) => ({ s with iss := iss }, iss.rest)
        | none =>
          if a.isScalar ∧ s.retiringSpan (s.slotOf a) q.pc.toNat 8 then (s, [])
          else match s.fetch a with
          | .error t => (s.stepTrap { who := a, here := q.pc, old := q } t 0, [])
          | .ok w => openStep (s.noteFetch a) a w

/-! ### A word where the next step fetches it -/

/-- The virtual address of that word, for a control stream. -/
def fetchBase : Nat := 0x40000000

/-- The sequencer that a word is placed for: of core 0, stream slot 0 of pier 0, or copy sequencer 0. -/
def agentOfKind : SeqKind → Agent
  | .c => .seq 0 0
  | .lf => .seq 0 1
  | .m => .seq 0 2
  | .va => .seq 0 3
  | .vb => .seq 0 4
  | .sf => .seq 0 5
  | .pier => .pier 0 0
  | .copy => .copy 0

/-- A word placed as slot 0 of the next step, a nop in slot 1: context 0 runs under ID 1 with a page of 1 GiB at `fetchBase`, core 0
is bound to it, and the sequencer that accepts the word stands at it with its turn next (log 11). -/
def State.placeWord (s : State) (w : BitVec 32) : State :=
  let a := agentOfKind (kindForWord w)
  let s1 := { s with
    agenda := [.run a], iss := {}, parked := [], atraps := [],
    mgmt := { s.mgmt with main := .ready, keys := [(0, { owner := 0, val := .module 0 })], hbmSplit := 128 },
    ctxs := [(0, { (s.ctx 0) with st := .running, id := 1, troot := 0x20000, preempting := none })],
    seqs := [(a, { pc := if a.isScalar then .ofNat 64 fetchBase else 0, run := .running })],
    cores := [(0, { (s.core 0) with slot := some 0, bank := none, kern := none, hand := none })] }
  match a with
  | .seq _ 0 | .pier _ _ =>
    let s2 := (s1.pokes (some (.module 0)) 0x20000 (leBytes 8 0x40001)).pokes (some (.module 0)) 0x40008 (leBytes 8 0x40000100003F)
    let s3 := s2.pokes (some (.module 0)) fetchBase (bytesOfWord w ++ bytesOfWord 0)
    { s3 with streams := [((0, 0), { used := true })] }
  | .seq _ q => s1.setCore 0 { s1.core 0 with kern := some { accs := 16 }, tbl := [((q, 0), { w0 := w, w1 := 0 })] }
  | .copy _ => { s1 with cseqs := [(0, { tbl := [(0, { w0 := w, w1 := 0 })], busy := true, loaded := true })] }

end Sys2Proof.Machine
end

