-- ==== Sys2Proof/Machine/ScalarInt.lean ====
section
/-! DEFINITION. Integer arithmetic, shifts, bit fields and immediates of C and the pier sequencers (12_scalar R234-R241). -/

namespace Sys2Proof.Machine

/-- An order whose whole effect is one scalar register's new value. -/
def setReg (sd : BitVec 5) (f : State → Word) (s : State) : Host.Outcome State Fault Refusal := issue s fun s => .ok (s.wr sd (f s))

/-- Less than, signed or unsigned (.u). -/
def lessThan (u : BitVec 1) (a b : Word) : Bool := if u = 1#1 then a.ult b else a.slt b

/-- 1 for true, 0 for false. -/
def boolWord (b : Bool) : Word := if b then 1 else 0

/-! ### Major 0x08 (R236) -/

def execAdd (sd sa sb : BitVec 5) (s : State) : Host.Outcome State Fault Refusal := setReg sd (fun s => s.src sa + s.src sb) s
def execSub (sd sa sb : BitVec 5) (s : State) : Host.Outcome State Fault Refusal := setReg sd (fun s => s.src sa - s.src sb) s
def execAnd (sd sa sb : BitVec 5) (s : State) : Host.Outcome State Fault Refusal := setReg sd (fun s => s.src sa &&& s.src sb) s
def execOr (sd sa sb : BitVec 5) (s : State) : Host.Outcome State Fault Refusal := setReg sd (fun s => s.src sa ||| s.src sb) s
def execXor (sd sa sb : BitVec 5) (s : State) : Host.Outcome State Fault Refusal := setReg sd (fun s => s.src sa ^^^ s.src sb) s

/-- min: the smaller operand. -/
def execMin (sd sa sb : BitVec 5) (u : BitVec 1) (s : State) : Host.Outcome State Fault Refusal :=
  setReg sd (fun s => if lessThan u (s.src sb) (s.src sa) then s.src sb else s.src sa) s

/-- max: the larger operand. -/
def execMax (sd sa sb : BitVec 5) (u : BitVec 1) (s : State) : Host.Outcome State Fault Refusal :=
  setReg sd (fun s => if lessThan u (s.src sa) (s.src sb) then s.src sb else s.src sa) s

/-- slt: 1 if less. -/
def execSlt (sd sa sb : BitVec 5) (u : BitVec 1) (s : State) : Host.Outcome State Fault Refusal :=
  setReg sd (fun s => boolWord (lessThan u (s.src sa) (s.src sb))) s

/-- sel: the old destination is its condition. -/
def execSel (sd sa sb : BitVec 5) (s : State) : Host.Outcome State Fault Refusal :=
  setReg sd (fun s => if s.src sd ≠ 0 then s.src sa else s.src sb) s

/-! ### Major 0x09 (R237) -/

def execAddi (sd sa : BitVec 5) (imm : BitVec 13) (s : State) : Host.Outcome State Fault Refusal := setReg sd (fun s => s.src sa + imm.signExtend 64) s
def execAndi (sd sa : BitVec 5) (imm : BitVec 13) (s : State) : Host.Outcome State Fault Refusal := setReg sd (fun s => s.src sa &&& imm.signExtend 64) s
def execOri (sd sa : BitVec 5) (imm : BitVec 13) (s : State) : Host.Outcome State Fault Refusal := setReg sd (fun s => s.src sa ||| imm.signExtend 64) s
def execXori (sd sa : BitVec 5) (imm : BitVec 13) (s : State) : Host.Outcome State Fault Refusal := setReg sd (fun s => s.src sa ^^^ imm.signExtend 64) s

/-- slti: signed. -/
def execSlti (sd sa : BitVec 5) (imm : BitVec 13) (s : State) : Host.Outcome State Fault Refusal :=
  setReg sd (fun s => boolWord ((s.src sa).slt (imm.signExtend 64))) s

/-- slti.u: both read as unsigned. -/
def execSltiU (sd sa : BitVec 5) (imm : BitVec 13) (s : State) : Host.Outcome State Fault Refusal :=
  setReg sd (fun s => boolWord ((s.src sa).ult (imm.signExtend 64))) s

/-! ### Major 0x0A (R240, R241) -/

/-- A shift amount or a field position: bits [5:0] of its register. -/
def amount (w : Word) : Nat := w.toNat % 64

def execSll (sd sa sb : BitVec 5) (s : State) : Host.Outcome State Fault Refusal := setReg sd (fun s => s.src sa <<< amount (s.src sb)) s
def execSllImm (sd sa : BitVec 5) (n : BitVec 6) (s : State) : Host.Outcome State Fault Refusal := setReg sd (fun s => s.src sa <<< n.toNat) s
def execSrl (sd sa sb : BitVec 5) (s : State) : Host.Outcome State Fault Refusal := setReg sd (fun s => s.src sa >>> amount (s.src sb)) s
def execSrlImm (sd sa : BitVec 5) (n : BitVec 6) (s : State) : Host.Outcome State Fault Refusal := setReg sd (fun s => s.src sa >>> n.toNat) s
def execSra (sd sa sb : BitVec 5) (s : State) : Host.Outcome State Fault Refusal := setReg sd (fun s => (s.src sa).sshiftRight (amount (s.src sb))) s
def execSraImm (sd sa : BitVec 5) (n : BitVec 6) (s : State) : Host.Outcome State Fault Refusal := setReg sd (fun s => (s.src sa).sshiftRight n.toNat) s

/-- How many bits a count looks at: 64, or 32 with .w. -/
def countWidth (w : BitVec 1) : Nat := if w = 1#1 then 32 else 64

/-- Zero bits above the highest 1 bit of `n` bits. -/
def leadingZeros (x : Nat) : Nat → Nat
  | 0 => 0
  | n + 1 => if bit x n then 0 else leadingZeros x n + 1

/-- Zero bits below the lowest 1 bit of the `n` bits from `i` up. -/
def trailingZeros (x i : Nat) : Nat → Nat
  | 0 => 0
  | n + 1 => if bit x i then 0 else trailingZeros x (i + 1) n + 1

/-- One bits of `n` bits. -/
def onesIn (x : Nat) : Nat → Nat
  | 0 => 0
  | n + 1 => (if bit x n then 1 else 0) + onesIn x n

def execClz (sd sa : BitVec 5) (w : BitVec 1) (s : State) : Host.Outcome State Fault Refusal :=
  setReg sd (fun s => .ofNat 64 (leadingZeros (s.src sa).toNat (countWidth w))) s
def execCtz (sd sa : BitVec 5) (w : BitVec 1) (s : State) : Host.Outcome State Fault Refusal :=
  setReg sd (fun s => .ofNat 64 (trailingZeros (s.src sa).toNat 0 (countWidth w))) s
def execPopc (sd sa : BitVec 5) (w : BitVec 1) (s : State) : Host.Outcome State Fault Refusal :=
  setReg sd (fun s => .ofNat 64 (onesIn (s.src sa).toNat (countWidth w))) s

/-- A field of ones of the width that wm1 codes. -/
def fieldMask (wm1 : BitVec 6) : Word := .ofNat 64 (2 ^ (wm1.toNat + 1) - 1)

/-- bext: a field, zero-extended. -/
def execBext (sd sa sb : BitVec 5) (wm1 : BitVec 6) (s : State) : Host.Outcome State Fault Refusal :=
  setReg sd (fun s => (s.src sa >>> amount (s.src sb)) &&& fieldMask wm1) s

/-- bins: a field inserted into the old destination. -/
def execBins (sd sa sb : BitVec 5) (wm1 : BitVec 6) (s : State) : Host.Outcome State Fault Refusal :=
  setReg sd (fun s =>
    let p := amount (s.src sb)
    let m := fieldMask wm1 <<< p
    (s.src sd &&& ~~~m) ||| ((s.src sa <<< p) &&& m)) s

/-! ### Major 0x0B (R239) -/

def execMul (sd sa sb : BitVec 5) (s : State) : Host.Outcome State Fault Refusal := setReg sd (fun s => s.src sa * s.src sb) s

/-- A register's value as an integer, signed or unsigned (.u). -/
def intOf (u : BitVec 1) (w : Word) : Int := if u = 1#1 then w.toNat else w.toInt

/-- mulh: the high half of the exact product. -/
def execMulh (sd sa sb : BitVec 5) (u : BitVec 1) (s : State) : Host.Outcome State Fault Refusal :=
  setReg sd (fun s => .ofInt 64 (intOf u (s.src sa) * intOf u (s.src sb) / 2 ^ 64)) s

/-- A division: a zero divisor is the integer divide-by-zero trap. -/
def divide (f : Int → Int → Int) (sd sa sb : BitVec 5) (u : BitVec 1) (s : State) : Host.Outcome State Fault Refusal :=
  issue s fun s =>
    if s.src sb = 0 then raise .divideByZero else .ok (s.wr sd (.ofInt 64 (f (intOf u (s.src sa)) (intOf u (s.src sb)))))

/-- div: truncated toward zero. -/
def execDiv (sd sa sb : BitVec 5) (u : BitVec 1) (s : State) : Host.Outcome State Fault Refusal := divide Int.tdiv sd sa sb u s
/-- rem: the sign of the dividend. -/
def execRem (sd sa sb : BitVec 5) (u : BitVec 1) (s : State) : Host.Outcome State Fault Refusal := divide Int.tmod sd sa sb u s

/-! ### Major 0x0E (R238) -/

def execLis (sd : BitVec 5) (imm : BitVec 13) (s : State) : Host.Outcome State Fault Refusal := setReg sd (fun _ => imm.signExtend 64) s
def execLsh (sd : BitVec 5) (imm : BitVec 13) (s : State) : Host.Outcome State Fault Refusal :=
  setReg sd (fun s => (s.src sd <<< 13) ||| imm.zeroExtend 64) s

end Sys2Proof.Machine
end

