-- ==== Sys2Proof/Machine/ScalarMem.lean ====
section
/-! DEFINITION. Loads, stores, atomics, fences, acquire, release and syncw (12_scalar R250-R256; 06_queue R139; 07_group R157). -/

namespace Sys2Proof.Machine

/-- The region check of an access (08_memory R162). -/
def regionOk (a n : Nat) : Except Stop Unit :=
  if regionOf a = .outside ∨ regionOf (a + n - 1) = .outside then raise .permission 13 (if regionOf a = .outside then a else 2 ^ 57)
  else if regionOf a = .null then raise .notPresent 1 a
  else .ok ()

/-- The checks of an access before translation (R250): the region of every byte, then alignment (08_memory R162, R163). -/
def accessOk (a n : Nat) : Except Stop Unit := do
  regionOk a n
  if a % n ≠ 0 then raise .misalignment 0 a

/-- The chip semaphore at an address of the semaphore window, for a form that the window accepts (06_queue R139). -/
def State.windowSem (s : State) (a : Nat) (ok : Bool) : Except Stop Nat :=
  let i := (a - semWindow) / 4
  if !ok || decide (s.myCtx.semCount ≤ i) then raise .permission 5 else .ok i

/-- A scalar read of `n` bytes: memory, or a chip semaphore with size .w. -/
def State.scalarRead (s : State) (a n : Nat) : Except Stop (Nat × State) := do
  accessOk a n
  if regionOf a = .sem then
    let i ← s.windowSem a (n == 4)
    s.awaitTables
    return ((s.chipSem s.mySlot i).toNat, s)
  s.loadNat a n

/-- A scalar write of `n` bytes; on the semaphore window it comes after every earlier write of its sequencer (09_ordering R183). -/
def State.scalarWrite (s : State) (a n : Nat) (v : Word) (classes : BitVec 16) : Except Stop State := do
  accessOk a n
  if regionOf a = .sem then
    let i ← s.windowSem a (n == 4)
    s.awaitHeld 8 s.heldObj
    return s.setWindowSem i (v.truncate 32)
  s.storeBytes a (leBytes n v.toNat) classes

/-! ### Majors 0x10 and 0x11 (R250) -/

/-- Access size in bytes of a size code. -/
def sizeOf2 (sz : BitVec 2) : Nat := 2 ^ sz.toNat

/-- The address of an M-format access. -/
def State.memAddr (s : State) (sa : BitVec 5) (sz : BitVec 2) (off : BitVec 9) : Nat :=
  (s.src sa + (off.signExtend 64 <<< sz.toNat)).toNat

/-- A value of `n` bytes sign-extended to 64 bits. -/
def signExtendBytes (n v : Nat) : Word := .ofInt 64 (if v < 2 ^ (8 * n - 1) then (v : Int) else (v : Int) - (2 ^ (8 * n) : Nat))

/-- ld: sign-extended. -/
def execLd (sd sa : BitVec 5) (_oc : BitVec 4) (sz : BitVec 2) (off : BitVec 9) (s : State) : Host.Outcome State Fault Refusal :=
  issue s fun s => do
    let (v, t) ← s.scalarRead (s.memAddr sa sz off) (sizeOf2 sz)
    return t.wr sd (signExtendBytes (sizeOf2 sz) v)

/-- ldu: zero-extended. -/
def execLdu (sd sa : BitVec 5) (_oc : BitVec 4) (sz : BitVec 2) (off : BitVec 9) (s : State) : Host.Outcome State Fault Refusal :=
  issue s fun s => do
    let (v, t) ← s.scalarRead (s.memAddr sa sz off) (sizeOf2 sz)
    return t.wr sd (.ofNat 64 v)

/-- st. -/
def execSt (sd sa : BitVec 5) (oc : BitVec 4) (sz : BitVec 2) (off : BitVec 9) (s : State) : Host.Outcome State Fault Refusal :=
  issue s fun s => s.scalarWrite (s.memAddr sa sz off) (sizeOf2 sz) (s.src sd) (classBit oc.toNat)

/-! ### Atomics (R251-R253) -/

/-- What an atomic is: its name for the places that accept some only, and its effect on width `w` bytes from the old value and the
operand. -/
inductive AtomicFn where
  | add | and | or | xor | min (u : Bool) | max (u : Bool) | swp | cas (expect : Nat)
deriving DecidableEq, Repr

/-- A value of `n` bytes as an integer. -/
def atomicInt (u : Bool) (n v : Nat) : Int := if u then v else (IntFmt.mk (8 * n) true).int v

/-- The new value of an atomic (R252). -/
def AtomicFn.apply (f : AtomicFn) (n old b : Nat) : Nat :=
  match f with
  | .add => (old + b) % 2 ^ (8 * n)
  | .and => old &&& b
  | .or => old ||| b
  | .xor => old ^^^ b
  | .min u => if atomicInt u n b < atomicInt u n old then b else old
  | .max u => if atomicInt u n old < atomicInt u n b then b else old
  | .swp => b
  | .cas e => if old = e then b else old

/-- Forms that the semaphore window accepts with width .w (06_queue R139, R253). -/
def AtomicFn.inWindow : AtomicFn → Bool
  | .add | .min true | .max true | .cas _ => true
  | _ => false

/-- Forms that host memory accepts (08_memory R172). -/
def AtomicFn.atHost : AtomicFn → Bool
  | .add | .swp | .cas _ => true
  | _ => false

/-- Forms that set NIDEM while a tile is open (07_group R157). -/
def AtomicFn.unrepeatable : AtomicFn → Bool
  | .add | .xor | .cas _ => true
  | _ => false

/-- Whether the issuing sequencer is C with an open tile. -/
def State.tileOpen (s : State) : Bool :=
  match s.iss.who with
  | .seq c q => q == sqC && (s.core c).opened
  | _ => false

/-- A deferred effect entered in the commit buffer (07_group R157): a 65th is a permission trap. -/
def State.deferEffect (s : State) (d : Deferred) : Except Stop State :=
  if 64 ≤ s.myCore.cbuf.length then raise .permission 6 else .ok (s.setMyCore { s.myCore with cbuf := s.myCore.cbuf ++ [d] })

/-- An unrepeatable update while a tile is open. -/
def State.noteUnrepeatable (s : State) : State :=
  match s.iss.who with
  | .seq c _ => if (s.core c).opened then s.setCore c { s.core c with nidem := true } else s
  | _ => s

/-- An atomic on the semaphore window (06_queue R139). -/
def State.windowAtomic (s : State) (f : AtomicFn) (a n b : Nat) : Except Stop (Nat × State) := do
  let i ← s.windowSem a (n == 4 && f.inWindow)
  s.awaitHeld 8 s.heldObj
  let old := (s.chipSem s.mySlot i).toNat
  match f with
  | .add =>
    if s.tileOpen then
      let t ← s.deferEffect (.semAdd i (.ofInt 64 (signed32 b)))
      return (0, t)
    match s.semSum s.mySlot i (signed32 b) with
    | none => raise .semOverflow (semInfo i)
    | some v => return (old, s.setWindowSem i v)
  | _ => return (old, s.setWindowSem i (.ofNat 32 (f.apply 4 old b)))

/-- An atomic on memory: one indivisible read and write (R252). On host memory it needs the link's AtomicOps (18_link R377). -/
def State.memAtomic (s : State) (f : AtomicFn) (a n b : Nat) : Except Stop (Nat × State) := do
  s.awaitTables
  let ps ← s.reach .atomic a n
  if ps.any (fun p => p.1.home == 2) && !(f.atHost && s.link.feat.getLsbD 1) then raise .permission 11
  s.checkRead a n
  s.checkOwned ps a n
  let old := leNat (s.readPieces ps)
  let t := (s.ledAll ps).writePieces ps (leBytes n (f.apply n old b))
  return (old, if f.unrepeatable then t.noteUnrepeatable else t)

/-- An atomic order: the old value goes to sd. -/
def atomic (sd sa sb : BitVec 5) (d : BitVec 1) (f : State → Nat → AtomicFn) (s : State) : Host.Outcome State Fault Refusal :=
  issue s fun s => do
    let n := if d = 0#1 then 4 else 8
    let a := (s.src sa).toNat
    let b := (s.src sb).toNat % 2 ^ (8 * n)
    accessOk a n
    let (old, t) ← if regionOf a = .sem then s.windowAtomic (f s n) a n b else s.memAtomic (f s n) a n b
    return t.wr sd (.ofNat 64 old)

def execAadd (sd sa sb : BitVec 5) (_cls _scope : BitVec 2) (d : BitVec 1) (s : State) : Host.Outcome State Fault Refusal := atomic sd sa sb d (fun _ _ => .add) s
def execAand (sd sa sb : BitVec 5) (_cls _scope : BitVec 2) (d : BitVec 1) (s : State) : Host.Outcome State Fault Refusal := atomic sd sa sb d (fun _ _ => .and) s
def execAor (sd sa sb : BitVec 5) (_cls _scope : BitVec 2) (d : BitVec 1) (s : State) : Host.Outcome State Fault Refusal := atomic sd sa sb d (fun _ _ => .or) s
def execAxor (sd sa sb : BitVec 5) (_cls _scope : BitVec 2) (d : BitVec 1) (s : State) : Host.Outcome State Fault Refusal := atomic sd sa sb d (fun _ _ => .xor) s
def execAmin (sd sa sb : BitVec 5) (_cls _scope : BitVec 2) (u d : BitVec 1) (s : State) : Host.Outcome State Fault Refusal := atomic sd sa sb d (fun _ _ => .min (u == 1#1)) s
def execAmax (sd sa sb : BitVec 5) (_cls _scope : BitVec 2) (u d : BitVec 1) (s : State) : Host.Outcome State Fault Refusal := atomic sd sa sb d (fun _ _ => .max (u == 1#1)) s
def execAswp (sd sa sb : BitVec 5) (_cls _scope : BitVec 2) (d : BitVec 1) (s : State) : Host.Outcome State Fault Refusal := atomic sd sa sb d (fun _ _ => .swp) s

/-- acas: the old destination is the value compared. -/
def execAcas (sd sa sb : BitVec 5) (_cls _scope : BitVec 2) (d : BitVec 1) (s : State) : Host.Outcome State Fault Refusal :=
  atomic sd sa sb d (fun s n => .cas ((s.src sd).toNat % 2 ^ (8 * n))) s

/-! ### Fences, acquire, release, syncw (R254-R256) -/

/-- fence: the accesses of the model are performed at their issue (log 7), but a write held behind a watermark waits. -/
def execFence (mask : BitVec 16) (_scope : BitVec 2) (s : State) : Host.Outcome State Fault Refusal :=
  issue s fun s =>
    let c := Cond.writesDone s.iss.who mask
    if c.holds s then .ok s else waitFor 10 0xF5 c

/-- The class mask of an lda or stl: s[k][15:0] of the mask register, every class where the field, or the mask in the register, is 0 (R78, R255). -/
def State.classMask (s : State) (r : BitVec 5) : BitVec 16 := if (s.src r).truncate 16 = 0#16 then 0xFFFF#16 else (s.src r).truncate 16

/-- lda: an acquire load, zero-extended, after the earlier writes of its classes (R183). -/
def execLda (sd sa sb : BitVec 5) (sz _scope : BitVec 2) (s : State) : Host.Outcome State Fault Refusal :=
  issue s fun s => do
    s.awaitClasses (s.classMask sb) 8 s.heldObj
    let (v, t) ← s.scalarRead (s.src sa).toNat (sizeOf2 sz)
    return t.wr sd (.ofNat 64 v)

/-- stl: a release store, after the earlier writes of its classes (R183); a held one carries every class of its mask (R181). -/
def execStl (sd sa sb : BitVec 5) (sz _scope : BitVec 2) (s : State) : Host.Outcome State Fault Refusal :=
  issue s fun s => do
    s.awaitClasses (s.classMask sd) 8 s.heldObj
    s.scalarWrite (s.src sa).toNat (sizeOf2 sz) (s.src sb) (s.classMask sd)

/-- syncw: the operations that the sequencer issued are of class 15 (R192); mask 0 awaits none. -/
def execSyncw (mask : BitVec 16) (s : State) : Host.Outcome State Fault Refusal :=
  issue s fun s =>
    let c := Cond.opsDone s.iss.who
    if mask = 0#16 || c.holds s then .ok s else waitFor 10 0xF6 c

end Sys2Proof.Machine
end

