-- ==== Sys2Proof/Machine/Queue.lean ====
section
/-! DEFINITION. qput and qdone (06_queue R146, R147; 07_group R158), qtake and qsteal (07_group R155, R156, R161). -/

namespace Sys2Proof.Machine

/-! ### Puts -/

/-- Enter a card in a core's replay window and send it (R146, R147). -/
def State.sendPut (s : State) (core slot q : Nat) (b : List Byte) (blocking : Bool) : State :=
  let k := s.core core
  let s1 := s.setCore core { k with win := k.win ++ [{ num := k.putNum, slot := slot, q := q, card := b, blocking := blocking, st := .sent }],
                                    putNum := k.putNum + 1 }
  { s1 with disp := { s1.disp with flights := s1.disp.flights ++ [{ sender := some core, slot := slot, num := k.putNum, q := q, card := b }] } }

/-- The card of a put, read after every earlier access of C (R147). -/
def State.readCard (s : State) (sa : BitVec 5) : Except Stop (List Byte × State) := do
  s.awaitHeld 8 s.heldObj
  s.loadBytes (s.src sa).toNat 128

/-- The checks of a put and its card (R147): status 4 for a queue that does not exist, else the card and the state. -/
def State.putCard (s : State) (sa sb : BitVec 5) : Except Stop (Option (List Byte × State)) := do
  if s.myCtx.queueCount ≤ (s.src sb).toNat then return none
  if (s.src sa).toNat % 128 ≠ 0 then raise .misalignment 0 (s.src sa).toNat
  let r ← s.readCard sa
  return some r

/-- A put inside an open tile is deferred to qcommit (07_group R158). -/
def State.deferPut (s : State) (sd sa sb : BitVec 5) : Except Stop State := do
  match ← s.putCard sa sb with
  | none => return s.wr sd 4
  | some (b, t) => return (← t.deferEffect (.put (s.src sb).toNat b)).wr sd 0

/-- qput, blocking: the put is sent once, and the step waits until it is answered. -/
def execQput (sd sa sb : BitVec 5) (s : State) : Host.Outcome State Fault Refusal :=
  issue s fun s => do
    let q := (s.src sb).toNat
    if s.tileOpen then return ← s.deferPut sd sa sb
    match s.resumed .put with
    | some r =>
      match s.myCore.answers.find? fun e => e.1 == r.a with
      | some (_, ok) =>
        return ((s.setMyCore { s.myCore with answers := s.myCore.answers.drop r.a }).setResume none).wr sd (if ok then 0 else 3)
      | none => waitFor 10 q (.putAnswered s.myCoreNo r.a)
    | none =>
      if s.myCtx.queueCount ≤ q then return s.wr sd 4
      if (s.src sa).toNat % 128 ≠ 0 then raise .misalignment 0 (s.src sa).toNat
      if !(Cond.windowRoom s.myCoreNo).holds s then waitFor 10 q (.windowRoom s.myCoreNo)
      let (b, t) ← s.readCard sa
      let n := t.myCore.putNum
      let u := (t.sendPut t.myCoreNo t.mySlot q b true).setResume (some (s.resumeRec .put n))
      waitKeeping 10 q (.putAnswered s.myCoreNo n) u

/-- qput.nb: status 2 when the window is full. -/
def execQputNb (sd sa sb : BitVec 5) (s : State) : Host.Outcome State Fault Refusal :=
  issue s fun s => do
    let q := (s.src sb).toNat
    if s.tileOpen then return ← s.deferPut sd sa sb
    if s.myCtx.queueCount ≤ q then return s.wr sd 4
    if (s.src sa).toNat % 128 ≠ 0 then raise .misalignment 0 (s.src sa).toNat
    if !(Cond.windowRoom s.myCoreNo).holds s then return s.wr sd 2
    let (b, t) ← s.readCard sa
    return (t.sendPut t.myCoreNo t.mySlot q b false).wr sd 0

/-- qdone: waits until a count is reached or the queue no longer runs. -/
def execQdone (sd sa sb : BitVec 5) (s : State) : Host.Outcome State Fault Refusal :=
  issue s fun s =>
    let q := (s.src sa).toNat
    if s.myCtx.queueCount ≤ q then .ok (s.wr sd (BitVec.allOnes 64))
    else
      let c := Cond.queueCount s.mySlot q ((s.src sb).toNat % 2 ^ 32)
      if c.holds s || s.latched c then
        let u := s.myCtx.queue q
        .ok (s.wr sd (.ofNat 64 (u.done.toNat + u.st.code * 2 ^ 32)))
      else waitFor 10 q c

/-! ### Tiles (R161) -/

/-- The group and rank of C, or the permission trap of a form that needs them (TINFO 7). -/
def State.myGroup (s : State) : Except Stop (Nat × Group) :=
  match s.myCore.bank, s.myCore.group with
  | none, some g => .ok (g, s.group g)
  | _, _ => raise .permission 7

/-- qtake: a tile of the own deque, after a hardware steal when it is empty. -/
def execQtake (sd : BitVec 5) (s : State) : Host.Outcome State Fault Refusal :=
  issue s fun s => do
    let (g, r) ← s.myGroup
    let k := s.myCore
    if k.opened then raise .permission 8
    let r1 := if (r.deques.get [] k.rank).isEmpty ∧ 0 < r.untaken then (r.stealFrom (r.victim k.rank) k.rank).2 else r
    match r1.take k.rank with
    | some (t, r2) =>
      return ((s.setGroup g r2).setMyCore { k with opened := true, nidem := false, tile := t, cbuf := [] }).wr sd (.ofNat 64 (coord r.card t))
    | none =>
      if 0 < r.untaken then waitFor 10 0xFE (.tilesTaken s.myCoreNo)
      return s.wr sd (BitVec.allOnes 64)

/-- A steal from a victim rank (R161). -/
def State.steal (s : State) (sd : BitVec 5) (g : Nat) (r : Group) (v : Nat) : State :=
  let k := s.myCore
  if r.size ≤ v ∨ v = k.rank ∨ 256 ≤ (r.deques.get [] k.rank).length then s.wr sd 0
  else
    let (n, r1) := r.stealFrom v k.rank
    (s.setGroup g r1).wr sd (.ofNat 64 n)

/-- qsteal with a victim that the hardware chooses. -/
def execQsteal (sd : BitVec 5) (s : State) : Host.Outcome State Fault Refusal :=
  issue s fun s => do
    let (g, r) ← s.myGroup
    return s.steal sd g r (r.victim s.myCore.rank)

/-- qsteal from a named rank. -/
def execQstealRank (sd sa : BitVec 5) (s : State) : Host.Outcome State Fault Refusal :=
  issue s fun s => do
    let (g, r) ← s.myGroup
    return s.steal sd g r (s.src sa).toNat

end Sys2Proof.Machine
end

