-- ==== Sys2Proof/Machine/Barrier.lean ====
section
/-! DEFINITION. Group and full-stop barriers, and transaction barriers (10_barrier R199-R206). -/

namespace Sys2Proof.Machine

/-! ### Group barrier and full stop (R202, R203) -/

/-- barr: the arrival of this rank. -/
def execBarr (sd : BitVec 5) (s : State) : Host.Outcome State Fault Refusal :=
  issue s fun s => do
    let (g, r) ← s.myGroup
    let c := Cond.writesDone s.iss.who 0xFFFF
    if !c.holds s then waitFor 10 0xFB c
    return (s.setGroup g (r.arrive s.myCore.rank)).wr sd (r.phase.zeroExtend 64)

/-- barw: waits until a phase has flipped. -/
def execBarw (sa : BitVec 5) (s : State) : Host.Outcome State Fault Refusal :=
  issue s fun s => do
    let _ ← s.myGroup
    let c := Cond.groupPhase s.myCoreNo ((s.src sa).toNat % 2 ^ 32)
    if !c.holds s then waitFor 10 0xFB c
    return s

/-- The point in the order of issue before which fstop waits for operations and writes: the start of its step, at its first issue. -/
def State.fullStopPoint (s : State) : Nat :=
  match s.cur.wait with
  | some w => match w.cond with
    | .fullStopReady _ n => n
    | _ => s.iss.startOp
  | none => s.iss.startOp

/-- An arrival at a context's full stop (R203): the flip when the set is complete. -/
def Ctx.arrive (x : Ctx) (core n : Nat) : Ctx :=
  let a := if x.fstopArr.contains core then x.fstopArr else core :: x.fstopArr
  if n ≤ a.length then { x with fstopPhase := x.fstopPhase + 1, fstopArr := [], fstopN := 0 } else { x with fstopArr := a, fstopN := n }

/-- fstop: the arrival and the wait together. -/
def execFstop (sd sa : BitVec 5) (s : State) : Host.Outcome State Fault Refusal :=
  issue s fun s => do
    let _ ← s.myGroup
    match s.resumed .fullStop with
    | some r =>
      let c := Cond.fullStopPhase s.mySlot r.a
      if !c.holds s then waitFor 10 0xFA c
      return s.setResume none
    | none =>
      let n := (s.src sa).toNat
      if n = 0 ∨ 128 < n then raise .permission 17
      let c := Cond.fullStopReady s.myCoreNo s.fullStopPoint
      if !c.holds s then waitFor 10 0xFA c
      let x := s.myCtx
      if !x.fstopArr.isEmpty ∧ x.fstopN ≠ n then raise .permission 17
      let x1 := x.arrive s.myCoreNo n
      let t := (s.setMyCtx x1).wr sd (x.fstopPhase.zeroExtend 64)
      if x1.fstopPhase ≠ x.fstopPhase then return t
      let p := x.fstopPhase.toNat
      waitKeeping 10 0xFA (.fullStopPhase s.mySlot p) (t.setResume (some (s.resumeRec .fullStop p)))

/-! ### Transaction barriers (R204-R206) -/

/-- A transaction barrier's word (R204). -/
structure TxWord where
  done : Nat
  due : Nat
  arrived : Nat
  parties : Nat
  gen : Nat
deriving DecidableEq, Repr

/-- The fields of a word. -/
def TxWord.ofNat (w : Nat) : TxWord := ⟨bits w 17 0, bits w 35 18, bits w 45 36, bits w 55 46, bits w 63 56⟩

/-- The word of the fields. -/
def TxWord.toNat (t : TxWord) : Nat := t.done + t.due * 2 ^ 18 + t.arrived * 2 ^ 36 + t.parties * 2 ^ 46 + t.gen * 2 ^ 56

/-- The balance D: units owed. -/
def TxWord.balance (t : TxWord) : Int :=
  let d : Nat := (t.due + 2 ^ 18 - t.done) % 2 ^ 18
  if d < 2 ^ 17 then (d : Int) else (d : Int) - 2 ^ 18

/-- Close the round when every party has arrived and nothing is owed. -/
def TxWord.close (t : TxWord) : TxWord :=
  if t.arrived = t.parties ∧ t.balance = 0 then { t with gen := (t.gen + 1) % 256, arrived := 0, due := 0, done := 0 } else t

/-- One atomic update: arrivals, expected units, credited units; none where it leaves the limits (R205). -/
def TxWord.update (t : TxWord) (arrivals : Nat) (expect : Int) (credits : Nat) : Option TxWord :=
  let d := t.balance + expect - credits
  if t.parties < t.arrived + arrivals ∨ d < -(2 ^ 17) ∨ 2 ^ 17 ≤ d then none
  else some (TxWord.close { t with arrived := t.arrived + arrivals, due := (((t.due : Int) + expect) % 2 ^ 18).toNat,
                                   done := (t.done + credits) % 2 ^ 18 })

/-- The bytes of an object in a context's vault segment: its key, or the permission trap with a code (R205, R211). -/
def State.vaultObject (s : State) (slot a n info : Nat) : Except Stop Key := do
  if regionOf a ≠ .vault ∨ regionOf (a + n - 1) ≠ .vault then raise .permission info
  let ps ← liftTrap (locateAll s slot .atomic false (spanPieces a n))
  match ps with
  | p :: _ => return p.1.key
  | [] => raise .permission info

/-- The key of a barrier word, with the checks of R205. -/
def State.txKey (s : State) (slot a : Nat) : Except Stop Key := do
  if a % 8 ≠ 0 then raise .misalignment 0 a
  s.vaultObject slot a 8 15

/-- The word at a key. -/
def State.txWord (s : State) (k : Key) : TxWord := .ofNat (s.peekNat none k 8)

/-- The state with the word replaced. -/
def State.setTxWord (s : State) (k : Key) (t : TxWord) : State := s.pokeNat none k 8 t.toNat

/-- An update of the word at an address by an order: the word before it and the state, or the semaphore-overflow trap (R205). -/
def State.txUpdate (s : State) (slot a arrivals : Nat) (expect : Int) (credits : Nat) : Except Stop (TxWord × State) := do
  let k ← s.txKey slot a
  s.checkRead a 8
  match (s.txWord k).update arrivals expect credits with
  | some t => return (s.txWord k, s.setTxWord k t)
  | none => raise .semOverflow 0 a

/-- A byte delta of txexp and txarr. -/
def txDelta (w : Word) : Except Stop Int :=
  if w.toInt < -(2 ^ 17) ∨ 2 ^ 17 ≤ w.toInt then raise .permission 15 else .ok w.toInt

/-- txinit: the whole word in one write, after every earlier write of C (R202, R206). -/
def execTxinit (sa sb : BitVec 5) (s : State) : Host.Outcome State Fault Refusal :=
  issue s fun s => do
    let a := (s.src sa).toNat
    let v := (s.src sb).toNat
    let k ← s.txKey s.mySlot a
    if 2 ^ 18 ≤ v ∨ bits v 9 0 = 0 then raise .permission 15
    s.awaitHeld 8 s.heldObj
    s.checkRead a 8
    return s.setTxWord k { done := 0, due := 0, arrived := 0, parties := bits v 9 0, gen := bits v 17 10 }

/-- txexp: expected units. -/
def execTxexp (sa sb : BitVec 5) (s : State) : Host.Outcome State Fault Refusal :=
  issue s fun s => do
    let _ ← s.txKey s.mySlot (s.src sa).toNat
    let e ← txDelta (s.src sb)
    s.awaitHeld 8 s.heldObj
    let (_, t) ← s.txUpdate s.mySlot (s.src sa).toNat 0 e 0
    return t

/-- txarr: an arrival with its expected units; sd takes the generation. -/
def execTxarr (sd sa sb : BitVec 5) (s : State) : Host.Outcome State Fault Refusal :=
  issue s fun s => do
    let _ ← s.txKey s.mySlot (s.src sa).toNat
    let e ← txDelta (s.src sb)
    s.awaitHeld 8 s.heldObj
    let (w, t) ← s.txUpdate s.mySlot (s.src sa).toNat 1 e 0
    return t.wr sd (.ofNat 64 w.gen)

/-- txwait: waits until a round has closed. -/
def execTxwait (sa sb : BitVec 5) (s : State) : Host.Outcome State Fault Refusal :=
  issue s fun s => do
    let k ← s.txKey s.mySlot (s.src sa).toNat
    s.checkRead (s.src sa).toNat 8
    let c := Cond.barrierGen k ((s.src sb).toNat % 256)
    if !c.holds s then waitFor 10 0xFC c
    return s

end Sys2Proof.Machine
end

