-- ==== Sys2Proof/Machine/Copy.lean ====
section
/-! DEFINITION. Copies (15_ferry R314-R330): the checks of a descriptor, the reading and the landing of chunks, freezing, and the
credits to transaction barriers. Bit-serial and crossing landings use the same operations (16_bitserial R353; 18_link R390). -/

namespace Sys2Proof.Machine

/-- The L1 lines of a box of a context invalidated in every core, their dirty sectors written back first (09_ordering R193; 08_memory R170). -/
def State.dropBox (s : State) (slot : Nat) (b : Shape) : State :=
  s.dropL1 (s.ctx slot).id fun no => (firstWhere (fun a => (b.index a).isSome) (no * 256) 256).isSome

/-! ### Descriptors -/

/-- src(p) of a landing position (R315). -/
def srcOf (d : BitVec 512) (p : Nat) : Int :=
  let (i3, i2, i1, i0) := (destShape d).indices p
  (descField d 0 56 0 : Int) + i3 * signed32 (descField d 5 31 0) + i2 * signed32 (descField d 4 31 0) +
    i1 * signed32 (descField d 3 31 0) + i0

/-- The lowest and the highest source address of a descriptor. -/
def srcSpan (d : BitVec 512) : Int × Int :=
  let b := destShape d
  let ext := [(b.c3, signed32 (descField d 5 31 0)), (b.c2, signed32 (descField d 4 31 0)), (b.c1, signed32 (descField d 3 31 0))]
  let low := ext.foldl (fun (t : Int) (e : Nat × Int) => t + min 0 (e.1 * e.2)) (descField d 0 56 0 : Int)
  let high := ext.foldl (fun (t : Int) (e : Nat × Int) => t + max 0 (e.1 * e.2)) (descField d 0 56 0 : Int)
  (low, high + b.len - 1)

/-- The reserved fields of a descriptor are zero (R314). -/
def descReservedZero (d : BitVec 512) : Bool :=
  descField d 0 63 57 == 0 && descField d 1 63 57 == 0 && descField d 6 63 57 == 0 && descField d 7 31 18 == 0

/-- Whether the addresses from `lo` to `hi` leave one region of R162 or pass 2^57; in the vault window, one vault where `one` says so. -/
def leavesRegion (lo hi : Int) (one : Bool) : Bool :=
  let a := lo.toNat
  let z := hi.toNat
  decide (lo < 0) || decide ((2 ^ 57 : Int) ≤ hi) || decide (regionOf a ≠ regionOf z) ||
  (decide (regionOf a = .translated) && decide (a < vaultWindow) && decide (vaultWindow ≤ z)) ||
  (one && decide (regionOf a = .vault) && decide ((a - vaultWindow) / 0x2000000 ≠ (z - vaultWindow) / 0x2000000))

/-- The dimension at which destination addresses do not increase (R316). -/
def nonMonotone (d : BitVec 512) : Option Nat :=
  let b := destShape d
  let e1 := b.c1 * b.d1 + b.len
  let e2 := b.c2 * b.d2 + e1
  if 0 < b.c1 ∧ b.d1 < b.len then some 1
  else if 0 < b.c2 ∧ b.d2 < e1 then some 2
  else if 0 < b.c3 ∧ b.d3 < e2 then some 3
  else none

/-- The aligned 128-byte blocks that a run enters. -/
def runBlocks (b : Shape) (r : Nat) : List Nat :=
  let a := b.dst (r * b.len)
  (List.range ((a % 128 + b.len + 127) / 128)).map fun i => a / 128 + i

/-- ChunksOf(box) (R317): the aligned 128-byte blocks that hold a byte of it. Where destinations increase, a run shares at most its first
block with the run before it. -/
def chunksOf (d : BitVec 512) : Nat :=
  let b := destShape d
  let runs := List.range ((b.c1 + 1) * (b.c2 + 1) * (b.c3 + 1))
  if b.len = 0 then 0
  else if (nonMonotone d).isSome then ((runs.flatMap (runBlocks b)).eraseDups).length
  else (runs.foldl (fun (t : Nat × Option Nat) r =>
    let a := b.dst (r * b.len)
    let z := (a + b.len - 1) / 128
    (t.1 + (z + 1 - a / 128) - (if t.2 = some (a / 128) then 1 else 0), some z)) (0, none)).1

/-- The trap of a vault-window box outside the context's segment (R164, R326). -/
def State.boxInSegment (s : State) (slot : Nat) (b : Shape) : Except Stop Unit := do
  if regionOf b.base ≠ .vault then return ()
  let _ ← liftTrap (vaultDecode s slot b.base)
  let seg := ((s.ctx slot).vseg.get 0 ((b.base - vaultWindow) / 0x2000000)).toNat
  let stop := vaultWindow + (b.base - vaultWindow) / 0x2000000 * 0x2000000 + (bits seg 8 0 + bits seg 24 16) * 0x10000
  let p := b.atOrAbove stop
  if p < b.count then
    let _ ← liftTrap (vaultDecode s slot (b.dst p))
    return ()
  return ()

/-- A permission trap of a descriptor check: TINFO 24, a code and the descriptor's number (R326). -/
def descTrap {α : Type} (code k : Nat) : Except Stop α := raise .permission (24 + code * 256 + k * 65536)

/-- The checks of a copy order on its descriptor, in the order of R326, then the monotonicity rule (R316). -/
def State.checkCopy (s : State) (kind : CopyKind) (d : BitVec 512) (k : Nat) : Except Stop Unit := do
  let b := destShape d
  let txb := descField d 6 56 0
  let mcast := descField d 7 63 32
  if !descReservedZero d then descTrap 1 k
  if b.len ≠ 0 then
    if leavesRegion b.base (b.base + b.extent - 1) true then descTrap 2 k
    if kind ≠ .zero ∧ leavesRegion (srcSpan d).1 (srcSpan d).2 false then descTrap 2 k
  if kind = .multicast ∧ (mcast = 0 ∨ regionOf b.base ≠ .vault ∨ bit mcast ((b.base - vaultWindow) / 0x2000000) = false) then descTrap 3 k
  if kind ≠ .multicast ∧ mcast ≠ 0 then descTrap 1 k
  if b.len ≠ 0 then
    (receiversOf d).forM fun v => s.boxInSegment s.mySlot (receiverShape d v)
  if txb ≠ 0 ∧ txb % 8 ≠ 0 then raise .misalignment 0 txb
  if (txb ≠ 0 ∧ regionOf txb ≠ .vault) ∨ (kind = .multicast ∧ txb = 0) then raise .permission 15
  if b.len ≠ 0 ∧ kind ≠ .zero ∧ regionOf (srcSpan d).1.toNat = .sem then raise .permission 5
  match nonMonotone d with
  | some j => raise .nonMonotone j
  | none => return ()

/-! ### Landing (R317, R195) -/

/-- Whether a landing of an operation waits: for the landing of an earlier copy on one of its bytes (R195), or for a held write
that reached the home before its start. -/
def State.landingBehind (s : State) (slot order va n : Nat) : Bool :=
  match s.meetsBefore slot va n none (some order) (some order) with
  | .stall _ => true
  | _ => false

/-- The same of a landing that is translated as it lands: its walk waits for a pinv of its page too (11_page R231). -/
def State.landingWaits (s : State) (slot order va n : Nat) : Bool := s.landingBehind slot order va n || s.retiringSpan slot va n

/-- Bytes that a later copy has landed are no longer poisoned by an earlier, cancelled one (R323). -/
def State.heal (s : State) (slot order va n : Nat) : State :=
  { s with tags := s.tags.map fun (e : TagRef × Tag) =>
      if (boxesOf e.1 e.2).any fun b => b.poison && b.slot == slot && decide (b.order < order) && decide (va < b.shape.base + b.shape.extent) &&
          decide (b.shape.base < va + n) then (e.1, { e.2 with healed := (va, va + n) :: e.2.healed }) else e }

/-- Bytes landed at a virtual address of a context, translated as they land (R228). -/
def State.landBytes (s : State) (slot order va : Nat) (bs : List Byte) (opaqueOk : Bool) : Except Trap State := do
  let ps ← locateAll s slot .write opaqueOk (spanPieces va bs.length)
  return ((s.ledAll ps).writePieces ps bs).heal slot order va bs.length

/-- Bytes from a landing position upwards, cut into the runs of a box. -/
def runsFrom (b : Shape) : Nat → Nat → List Byte → List (Nat × List Byte)
  | 0, _, _ => []
  | fuel + 1, p, bs =>
    if bs.isEmpty then []
    else
      let n := min bs.length (b.len - p % b.len)
      (b.dst p, bs.take n) :: runsFrom b fuel (p + n) (bs.drop n)

/-- How many landing positions from `p` on lie in the chunk of `p` (R317). -/
def Shape.chunkFrom (b : Shape) (p : Nat) : Nat :=
  ((List.range 128).takeWhile fun i => decide (p + i < b.count) && b.dst (p + i) / 128 == b.dst p / 128).length

/-- Whether the landing position ends a chunk: the next one lies in another block, or there is none. -/
def Shape.endsChunk (b : Shape) (next : Nat) : Bool :=
  decide (b.count ≤ next) || b.dst next / 128 != b.dst (next - 1) / 128

/-! ### Faults (R321, R322) -/

/-- A trap that the issuing sequencer of a copy takes at its next step boundary, marked as a copy's (R322). -/
def State.copyTrap (s : State) (t : TagRef) (who : Agent) (step : Word) (slot : Nat) (tr : Trap) (src : Bool) (frozen : Bool) : State :=
  { s with atraps := s.atraps ++ [{ who := who, trap := tagInfo { tr with info := .ofNat 64 (tr.info.toNat % 1024) } t.tag src, step := step,
                                    slot := slot, tag := if frozen then some t else none }] }

/-- A copy frozen at its mark by a fault on the source or the destination side. -/
def State.freeze (s : State) (t : TagRef) (c : Copy) (tr : Trap) (src : Bool) : State :=
  let g := s.tag t
  let low := (c.recv.map (·.pos)).foldl min c.rpos
  let g1 := { g with st := .frozen, trp := !g.qf, op := some (.copy { c with chunks := [], rpos := low }) }
  let s1 := s.setTag t { g1 with addr := markOf g1 }
  if g.qf then s1 else s1.copyTrap t c.who c.step c.wslot tr src true

/-! ### Reading a chunk (R327) -/

/-- What the reading of a source ends in: every byte read, a watermark in the way, or a fault with its side. -/
inductive Read where
  | all
  | stalled
  | fault (t : Trap) (src : Bool)
deriving DecidableEq, Repr

/-- Whether an address lies in a box of the copy itself (R327). -/
def Copy.ownByte (c : Copy) (a : Nat) : Bool := c.recv.any fun r => ((receiverShape c.desc r.vault).index a).isSome

/-- Bytes of a context's memory read by an asynchronous operation: none for a stall, else its trap, else the bytes as they stood for it
before a commit (08_memory R176). A write held since before its start comes first (09_ordering R190). -/
def State.readFor (s : State) (slot order : Nat) (snap : Map Key Byte) (own : Option TagRef) (a n : Nat) : Except (Option Trap) (List Byte × State) :=
  if s.retiringSpan slot a n then .error none
  else match locateAll s slot .read false (spanPieces a n) with
  | .error e => .error (some e)
  | .ok ps =>
    match s.meetsBefore slot a n own none (some order) with
    | .stall _ => .error none
    | .poison p => .error (some (mkTrap .abortedLanding 4 p))
    | .clear => .ok (ps.flatMap fun p => (List.range p.2.2).map fun i => snap.get (s.readLoc p.1 i) (p.1.key + i), s.ledAll ps)

/-- An index of an index array: INT64 or INT32 (17_piers R368). -/
def State.readIndex (s : State) (slot order : Nat) (own : TagRef) (base : Nat) (i64 : Bool) (i : Nat) : Except (Option Trap) (Int × State) := do
  let z := if i64 then 8 else 4
  let (b, t) ← s.readFor slot order [] (some own) (base + z * i) z
  return ((IntFmt.mk (8 * z) true).int (leNat b), t)

/-- The entry of a table in a context's copy of its directory (17_piers R364). -/
def Ctx.table (x : Ctx) (t : Nat) : List Byte := x.dir.get [] t
def tblBase (e : List Byte) : Nat := bits (fieldAt e 0 8) 56 0
def tblRows (e : List Byte) : Nat := fieldAt e 8 4
def tblRowB (e : List Byte) : Nat := fieldAt e 12 2

/-- The four constants of a sketch (17_piers R366). -/
def sketchKeys : List Nat := [0xA3D51F276B49C80D, 0xE1C72A953F68B4D1, 0x8B5EC92371F40A67, 0xD24F6B813E95A7C3]

/-- The counters of row `r` of table `t` in sketches (R365, R366). -/
def sketchCells (e : List Byte) (t r : Nat) : List (Nat × Nat × Nat × Nat) :=
  sketchKeys.mapIdx fun i k => ((r + t) % 8, bits (fieldAt e 16 8) 13 8, i, r * k % 2 ^ 64 / 2 ^ 48)

/-- An occurrence of an index in range counted, on a table that keeps sketches (R366). -/
def State.sketched (s : State) (slot t r : Nat) : State :=
  let x := s.ctx slot
  let e := x.table t
  if bit (fieldAt e 16 8) 14 then
    s.setCtx slot { x with sketch := (sketchCells e t r).foldl (fun (m : Sketch) c => m.set c (min (m.get 0 c + 1) 65535)) x.sketch }
  else s

/-- The estimate of a row (R366). -/
def Ctx.rowEstimate (x : Ctx) (t r : Nat) : Nat := ((sketchCells (x.table t) t r).map fun c => x.sketch.get 0 c).foldl min 65535

/-- A row read by a lookup (R365, R366): its controller counts a hit or a miss and its sketch the occurrence, and promotes it where HRTHR.T says so. -/
def State.rowRead (s : State) (slot t r : Nat) (pooled : Bool) : State :=
  let x := s.ctx slot
  let e := x.table t
  let h := (r + t) % 8
  let held := (s.caches.hot.get [] h).any fun l => l.1 == x.id && l.2.1 == t && l.2.2.1 == r
  let k := if held then s.caches.add x.id (hotUnit h) 0 1
    else (s.caches.add x.id (hotUnit h) 1 1).add x.id (hotUnit h) 4 (Config.pierBytes pooled (tblRowB e))
  let u := State.sketched { s with caches := k } slot t r
  if bit (fieldAt e 16 8) 14 && x.hrthr != 0#16 && decide (x.hrthr.toNat ≤ (u.ctx slot).rowEstimate t r) && !held then
    { u with caches := u.caches.promote x.id h t r (tblRowB e) (bits x.granth.toNat 24 16 * 2 ^ 27) }
  else u

/-- A grow with the index of row `i`, read once (R370). -/
def State.rowIndex (s : State) (c : Copy) (t : TagRef) (r : RowSource) (i : Nat) : Except (Option Trap) (Int × State) :=
  match r.cur with
  | some (j, v) => if j = i then .ok (v, s) else s.readIndex c.slot c.order t r.idx r.i64 i
  | none => s.readIndex c.slot c.order t r.idx r.i64 i

/-- What one position of a copy's source is: a byte, and whether it lies on an opaque page; for a grow the record of the index read. -/
structure SourceByte where
  val : Byte
  opq : Bool
  kind : CopyKind

/-- The source byte at an address: a byte of the copy's own box is a free value (R327); a table region reads as one version (08_memory R176). `opens`: the
byte is the first that the chunk reads of its sector, which is an access at the home slice (08_memory R169). -/
def State.sourceAt (s : State) (c : Copy) (t : TagRef) (a : Nat) (opaqueOk opens : Bool) : Except (Option Trap) (Byte × Bool × State) :=
  match locate s c.slot a .read opaqueOk with
  | .error e => .error (some e)
  | .ok l =>
    match s.meetsBefore c.slot a 1 (some t) none (some c.order) with
    | .stall _ => .error none
    | .poison x => .error (some (mkTrap .abortedLanding 4 x))
    | .clear =>
      if c.ownByte a then
        let (v, s1) := s.freeBits 8
        .ok (.ofNat 8 v, l.opq, s1)
      else .ok (c.snap.get (s.readLoc l 0) l.key, l.opq, if opens then (s.led l).cached none l a 1 else s.led l)

/-- The source byte of a landing position (R327, R328; 17_piers R370): zero for an fcpyz, which
counts as a source that is not opaque (log 115), the byte of a row for a grow. -/
def State.sourceByte (s : State) (c : Copy) (t : TagRef) (p : Nat) : Except (Option Trap) (SourceByte × State) :=
  match c.kind with
  | .zero => .ok ({ val := 0, opq := false, kind := .zero }, s)
  | .rows r => do
    let i := p / r.rowb
    let (v, s1) ← s.rowIndex c t r i
    let e := (s.ctx c.slot).table r.table
    let k := CopyKind.rows { r with cur := some (i, v) }
    if v < 0 ∨ (tblRows e : Int) ≤ v then return ({ val := 0, opq := false, kind := k }, s1)
    let (b, o, s2) ← s1.sourceAt c t (tblBase e + v.toNat * r.rowb + p % r.rowb) false false
    return ({ val := b, opq := o, kind := k }, if p % r.rowb = 0 then s2.rowRead c.slot r.table v.toNat false else s2)
  | k => do
    let a := (srcOf c.desc p).toNat
    let (b, o, s1) ← s.sourceAt c t a true (a % 128 == 0 || p == c.rpos || p % (destShape c.desc).len == 0)
    return ({ val := b, opq := o, kind := k }, s1)

/-- The source bytes of `n` landing positions from `p` on, up to the first that stalls or faults: the copy as it goes on, the bytes, and what
the reading ends in. A source and a destination of which one is opaque do not go together (11_page R223). -/
def readSource (t : TagRef) (dopq : Bool) : Copy → Nat → Nat → State → List Byte → Copy × List Byte × State × Read
  | c, 0, _, s, acc => (c, acc.reverse, s, .all)
  | c, n + 1, p, s, acc =>
    match s.sourceByte c t p with
    | .error none => (c, acc.reverse, s, .stalled)
    | .error (some e) => (c, acc.reverse, s, .fault e true)
    | .ok (b, s1) =>
      if b.opq ≠ dopq then (c, acc.reverse, s, .fault (mkTrap .opaquePage 2 ((destShape c.desc).dst p)) false)
      else readSource t dopq { c with kind := b.kind } n (p + 1) s1 (b.val :: acc)

/-- The destinations of a chunk translated at its issue (R228), for each receiver, or the fault; a row copy reaches no opaque page (R223). -/
def State.chunkTarget (s : State) (c : Copy) : List Receiver → Except Trap (List Loc)
  | [] => .ok []
  | r :: rest => do
    let l ← locate s c.slot ((receiverShape c.desc r.vault).dst c.rpos) .write (match c.kind with | .rows _ => false | _ => true)
    return l :: (← s.chunkTarget c rest)

/-- The units through which addresses of a context are translated: virtual, physical, and whether the remap filter redirects (R225); a host page or a
table region, which the filter does not cover, stands above every physical unit. -/
def State.unitsOf (s : State) (slot : Nat) (acc : Acc) (l : List Nat) : List (Nat × Nat × Bool) :=
  ((l.map (· / 65536)).eraseDups).filterMap fun v =>
    match l.find? fun a => a / 65536 == v with
    | none => none
    | some a =>
      if regionOf a ≠ .translated then none
      else match locate s slot a acc true with
        | .error _ => none
        | .ok k => some (match k.use with
          | some u => (v, u.unit, (s.lineAt u a).2)
          | none => (v, 2 ^ 60, false))

/-- The addresses that the source of `n` positions of a copy is read from; rows lie in table regions. -/
def Copy.sources (c : Copy) (p n : Nat) : List Nat :=
  match c.kind with
  | .plain | .multicast => (List.range n).map fun i => (srcOf c.desc (p + i)).toNat
  | _ => []

/-- Whether a tag is of a core or copy sequencer that is saved (04_context R100). -/
def tagSaved (t : TagRef) : Bool :=
  match t.owner with
  | .core c => decide (128 ≤ c)
  | .copy n => decide (4 ≤ n)

/-- Whether a grow stands inside a bag, which for a grow is one row (04_context R100). -/
def Copy.midBag (c : Copy) : Bool :=
  match c.kind with
  | .rows r => r.rowb != 0 && c.rpos % r.rowb != 0
  | _ => false

/-- Whether the copy or transfer on a tag makes progress: its context runs, it is not saved, and its context is not being pre-empted but for a
card that is to complete, or a bsrel or a qcommit that is to retire first (R320; 04_context R99, R100; 07_group R161; log 105). -/
def State.copiesRun (s : State) (slot : Nat) (t : TagRef) : Bool :=
  decide ((s.ctx slot).st = .running) && !tagSaved t && ((s.ctx slot).preempting.isNone || (s.disp.finishing.any fun f => f.slot == slot) ||
    (s.cores.any fun e => e.2.slot == some slot && e.2.committing) ||
    (match (s.ctx slot).claim with
     | some m => m.releasing
     | none => false))

/-- The next chunk of a copy is translated and its source is read. A fault is taken when every chunk below it has landed; the part of a
chunk below a fault is a chunk of its own. A chunk is issued once its landing waits for no earlier copy (R232; log 99), and its walks wait for a
pinv of their pages. -/
def State.issueChunk (s : State) (t : TagRef) (c : Copy) : State :=
  let b := destShape c.desc
  let g := s.tag t
  let landed := c.chunks.isEmpty && c.recv.all fun r => r.pos == c.rpos
  let fail := fun (u : State) (tr : Trap) (src : Bool) => if landed then u.freeze t c tr src else s
  let n := b.chunkFrom c.rpos
  let src := c.sources c.rpos n
  let dsts := c.recv.map fun r => (receiverShape c.desc r.vault).dst c.rpos
  let units := s.unitsOf c.slot .read src ++ s.unitsOf c.slot .write dsts
  let waits := c.recv.any fun r => (List.range n).any fun i => s.landingWaits c.slot c.order ((receiverShape c.desc r.vault).dst (c.rpos + i)) 1
  if waits || src.any fun a => s.retiringSpan c.slot a 1 then s
  else
  match s.chunkTarget c c.recv with
  | .error e =>
    (match readSource t false c 1 c.rpos s [] with
     | (_, _, _, .fault e' true) => fail s e' true
     | _ => fail s e false)
  | .ok target =>
    let dopq := ((target.getLast?).map (·.opq)).getD false
    match readSource t dopq c n c.rpos s [] with
    | (_, _, _, .stalled) => s
    | (d, bs, s1, r) =>
      match r, bs.isEmpty with
      | .fault e src, true => fail s e src
      | _, _ =>
        let next := c.rpos + bs.length
        let s2 := target.foldl (fun u l => u.led l) s1
        let k : Chunk := { pos := c.rpos, bytes := bs, target := target, order := s2.nextOp, units := units }
        let c1 := { d with rpos := next, chunks := c.chunks ++ [k] }
        let sf := (match c.who with | .seq _ q => q == sqSF | _ => false) || (match c.kind with | .rows _ => true | _ => false)
        State.setTag { s2 with nextOp := s2.nextOp + 1 } t { g with op := some (.copy c1), rd := g.rd || (sf && decide (b.count ≤ next)) }

/-! ### Landing a chunk -/

/-- What the update of the barrier at TXB of a copy meets (09_ordering R194). -/
def State.creditMeets (s : State) (t : TagRef) (c : Copy) : Meets :=
  if descField c.desc 6 56 0 = 0 then .clear else s.meets c.slot (descField c.desc 6 56 0) 8 (some t)

/-- One unit credited to DONE of the barrier at TXB of a copy, where it names one (R314; 10_barrier R204); an overflow is a trap of the issuing
sequencer (R205), and so is a poisoned word, which is not updated (R323). -/
def State.credit (s : State) (t : TagRef) (c : Copy) : State :=
  let a := descField c.desc 6 56 0
  if a = 0 then s
  else
    match s.vaultObject c.slot a 8 15 with
    | .error (.trap e _) => s.copyTrap t c.who c.step c.wslot e false false
    | .error _ => s
    | .ok k =>
      match s.creditMeets t c, (s.txWord k).update 0 0 1 with
      | .poison p, _ => s.copyTrap t c.who c.step c.wslot (mkTrap .abortedLanding 2 p) false false
      | _, some w => s.setTxWord k w
      | _, none => s.copyTrap t c.who c.step c.wslot (mkTrap .semOverflow 0 a) false false

/-- The chunk that holds the next landing position of a receiver. -/
def Copy.nextChunk (c : Copy) (r : Receiver) : Option Chunk :=
  c.chunks.find? fun k => decide (k.pos ≤ r.pos) && decide (r.pos < k.pos + k.bytes.length)

/-- The runs of a chunk that a receiver has not landed. -/
def Copy.runsLeft (c : Copy) (r : Receiver) (k : Chunk) : List (Nat × List Byte) :=
  let bs := k.bytes.drop (r.pos - k.pos)
  runsFrom (receiverShape c.desc r.vault) (bs.length + 1) r.pos bs

/-- Whether the landing of a chunk at a receiver credits the barrier (R314, R330). -/
def Copy.credits (c : Copy) (k : Chunk) : Bool :=
  let b := destShape c.desc
  let next := k.pos + k.bytes.length
  (bit (descField c.desc 7 17 17) 0 && b.endsChunk next) || (decide (c.kind = .multicast) && decide (b.count ≤ next))

/-- Whether a landing waits for a copy that is to land the barrier word that it credits (09_ordering R194). -/
def State.creditStalls (s : State) (t : TagRef) (c : Copy) (k : Chunk) : Bool :=
  c.credits k && (match s.creditMeets t c with
    | .stall _ => true
    | _ => false)

/-- Runs of a chunk landed where its issue has translated them, with the entries that it made then (R225, R232): `base` is the address that the location
is of. -/
def State.landRuns (s : State) (slot order : Nat) (l : Loc) (base : Nat) : List (Nat × List Byte) → State
  | [] => s
  | (a, bs) :: r =>
    let here := { l with key := l.key + (a - base) }
    State.landRuns (((s.cached none here a bs.length).writePieces [(here, a, bs.length)] bs).heal slot order a bs.length) slot order l base r

/-- A receiver with its next chunk landed: the tag's watermark moves, the chunk and then the receiver credit the barrier a unit each, and with the last
chunk of the last receiver the tag is landed (R317, R320, R330). -/
def State.landed (s : State) (t : TagRef) (c : Copy) (i n : Nat) : State :=
  let b := destShape c.desc
  let recv := c.recv.mapIdx fun j r => if j = i then { r with pos := r.pos + n } else r
  let next := (recv.getD i { vault := none, pos := 0 }).pos
  let low := (recv.map (·.pos)).foldl min c.rpos
  let c1 := { c with recv := recv, chunks := c.chunks.filter fun k => decide (low < k.pos + k.bytes.length) }
  let g := { s.tag t with op := some (.copy c1) }
  let done := c1.landedAll
  let g1 := if done then { g with st := .landed, addr := b.base + b.extent, rd := true, op := none } else { g with addr := markOf g }
  let s0 := s.setTag t g1
  let sc := if bit (descField c.desc 7 17 17) 0 && b.endsChunk next then s0.credit t c else s0
  let s1 := (if c.kind = .multicast ∧ b.count ≤ next then sc.credit t c else sc).settleWrites
  match c.kind with
  | .rows _ => if done then s1.opEnded t.owner else s1
  | _ => s1

/-- One receiver that can land its next chunk does, a free one when several can. -/
def State.landChunk (s : State) (t : TagRef) (c : Copy) : State :=
  let open_ := (List.range c.recv.length).filter fun i =>
    match c.recv[i]? with
    | some r =>
      (match c.nextChunk r with
       | some k => !s.creditStalls t c k && (c.runsLeft r k).all fun e => !s.landingBehind c.slot c.order e.1 e.2.length
       | none => false)
    | none => false
  if open_.isEmpty then s
  else
    let i := open_.getD (Config.free s.tick % open_.length) 0
    let s1 := if open_.length = 1 then s else { s with tick := s.tick + 1 }
    match c.recv[i]? with
    | none => s
    | some r =>
      let k := (c.nextChunk r).getD { pos := r.pos, bytes := [] }
      (s1.landRuns c.slot c.order (k.target.getD i default) ((receiverShape c.desc r.vault).dst k.pos) (c.runsLeft r k)).landed t c i
        (k.pos + k.bytes.length - r.pos)

end Sys2Proof.Machine
end

