-- ==== Sys2Proof/Machine/BitSerial.lean ====
section
/-! DEFINITION. Compute ways (16_bitserial): claims, commands, transfers, and the steps of the claim order. -/

namespace Sys2Proof.Machine

/-! ### Planes and lanes (R337, R338) -/

/-- The number of slices in a mask. -/
def sliceCount (m : BitVec 32) : Nat := ((List.range 32).filter fun i => m.getLsbD i).length

/-- L, the lanes of a claim. -/
def Claim.lanes (m : Claim) : Nat := sliceCount m.slices * m.ways * 16384

/-- A bit of a plane. -/
def Claim.laneBit (m : Claim) (p l : Nat) : Bool := (m.planes.get 0 p).testBit l

/-- F(p, n)[l]. -/
def Claim.field (m : Claim) (p n l : Nat) : Nat := (List.range n).foldl (fun t i => t + (if m.laneBit (p + i) l then 2 ^ i else 0)) 0

/-- A number from its low `n` bits. -/
def natOfBits (n : Nat) (f : Nat → Bool) : Nat := (List.range n).foldl (fun t i => t + (if f i then 2 ^ i else 0)) 0

/-- The context's claim that accepts orders: one that no bsrel has marked (R354). -/
def State.claimOf (s : State) (slot : Nat) : Option Claim :=
  match (s.ctx slot).claim with
  | some m => if m.releasing then none else some m
  | none => none

/-- The state with the claim of a context replaced. -/
def State.setClaim (s : State) (slot : Nat) (m : Option Claim) : State := s.setCtx slot { s.ctx slot with claim := m }

/-! ### bsclaim, bsrel, bswait (R354) -/

/-- bsclaim: the claim is recorded, and C waits until its ways have switched. -/
def execBsclaim (sa n : BitVec 5) (s : State) : Host.Outcome State Fault Refusal :=
  issue s fun s => do
    let c := Cond.claimSwitched s.mySlot
    match s.resumed .claim with
    | some _ =>
      if !c.holds s then waitFor 10 0xF2 c
      return s.setResume none
    | none =>
      let m := (s.src sa).toNat
      let x := s.myCtx
      if m = 0 ∨ 2 ^ 32 ≤ m then limitTrap s
      if x.claim.isSome then raise .claimViolation 2
      let declared := (s.myCore.kern.map (·.ways)).getD 0
      if m &&& bits x.grantw.toNat 47 16 ≠ m ∨ bits x.grantw.toNat 3 0 < n.toNat ∨ declared < n.toNat then raise .claimViolation 1
      let claim := s.placed { slices := .ofNat 32 m, ways := n.toNat, no := s.nextOp }
      let t := (({ s with nextOp := s.nextOp + 1 }.clearWays claim).setClaim s.mySlot (some claim)).setResume (some (s.resumeRec .claim))
      waitKeeping 10 0xF2 c t

/-- WAY_SWITCH_END: the ways of a claim are in compute mode, every plane 0 (R339). -/
def execWaySwitchEnd (slot : Nat) (s : State) : Host.Outcome State Fault Refusal :=
  happen (match (s.ctx slot).claim with
    | some m => s.setClaim slot (some { m with ready := true })
    | none => s)

/-- Every frozen transfer of a context's claim cancelled (R354). -/
def State.cancelFrozen (s : State) (slot : Nat) : State :=
  (s.tags.filter fun e => e.2.st = .frozen && (match e.2.op with
    | some (.transfer x) => x.slot == slot
    | _ => false)).foldl (fun (t : State) (e : TagRef × Tag) => (t.cancelTag e.1).forgetTransfer slot e.1) s

/-- bsrel: the claim is marked and its frozen transfers are cancelled; when its orders have completed the ways go back. Of two that wait for one claim
the first returns its ways, and the second ends. -/
def execBsrel (s : State) : Host.Outcome State Fault Refusal :=
  issue s fun s => do
    match s.myCtx.claim with
    | none => return s.setResume none
    | some m =>
      let c := Cond.claimDrained s.mySlot m.no
      if (s.resumed .release).any fun r => r.a != m.no then return s.setResume none
      let s1 := if (s.resumed .release).isSome then s else
        (((s.setClaim s.mySlot (some { m with releasing := true })).cancelFrozen s.mySlot).setResume (some (s.resumeRec .release m.no)))
      if c.holds s1 then return (s1.setClaim s1.mySlot none).setResume none
      waitKeeping 10 0xF2 c s1

/-- bswait: every command of this C has completed, and every tag of its transfers is complete. -/
def execBswait (s : State) : Host.Outcome State Fault Refusal :=
  issue s fun s =>
    let c := Cond.claimIdle s.mySlot s.myCoreNo
    if c.holds s then .ok s else waitFor 10 0xF4 c

/-! ### Commands (R346, R347) -/

/-- Fields of an operand word. -/
def opwD (o : Nat) : Nat := bits o 7 0
def opwA (o : Nat) : Nat := bits o 15 8
def opwB (o : Nat) : Nat := bits o 23 16
def opwN (o : Nat) : Nat := bits o 29 24
def opwM (o : Nat) : Nat := bits o 39 32
def opwME (o : Nat) : Bool := bit o 40
def opwDW (o : Nat) : Nat := bits o 50 48

/-- Whether a command's word sets a reserved bit or names a field that passes plane 255: the fields it uses are given with their
widths. -/
def opwBad (o : Nat) (fields : List (Nat × Nat)) (sel pop : Bool) : Bool :=
  bits o 31 30 != 0 || bits o 47 41 != 0 || bits o 63 51 != 0 || (sel && opwME o) || (!pop && opwDW o != 0) ||
  fields.any fun f => decide (256 < f.1 + f.2)

/-- A transfer or a command waits for room in the command queue (R343). -/
def State.awaitRoom (s : State) : Except Stop Unit :=
  let c := Cond.claimRoom s.mySlot
  if c.holds s then .ok () else waitFor 10 0xF3 c

/-- A command enters the queue (R343, R347). -/
def State.enterCommand (s : State) (fn imm : Nat) (sa : BitVec 5) (k : Word) (fields : Nat → List (Nat × Nat)) : Except Stop State := do
  let o := (s.src sa).toNat
  if opwBad o (fields o) (fn == 8) (fn == 11) then limitTrap s
  match s.claimOf s.mySlot with
  | none => raise .claimViolation 3
  | some _ =>
    s.awaitRoom
    match s.myCtx.claim with
    | some m =>
      return s.setClaim s.mySlot (some { m with queue := m.queue ++ [.cmd { fn := fn, imm := imm, opw := s.src sa, konst := k, core := s.myCoreNo }] })
    | none => return s

/-- The fields of a form with sources a and b and a destination. -/
def fieldsAB (k : Bool) (o : Nat) : List (Nat × Nat) :=
  let w := opwN o + 1
  [(opwA o, w), (opwD o, w)] ++ if k then [] else [(opwB o, w)]

/-- bslog: and, or, xor, not, and-not by op. -/
def execBslog (sa op : BitVec 5) (s : State) : Host.Outcome State Fault Refusal :=
  issue s fun s => s.enterCommand 4 op.toNat sa 0 (fieldsAB (op == 3#5))

/-- The low bits of bsadd and bssub. -/
def addBits (s sat k : BitVec 1) : Nat := k.toNat + 2 * sat.toNat + 4 * s.toNat

/-- bsadd. -/
def execBsadd (sa sb : BitVec 5) (sg sat k : BitVec 1) (s : State) : Host.Outcome State Fault Refusal :=
  issue s fun s => s.enterCommand 5 (addBits sg sat k) sa (s.src sb) (fieldsAB (k == 1#1))

/-- bssub. -/
def execBssub (sa sb : BitVec 5) (sg sat k : BitVec 1) (s : State) : Host.Outcome State Fault Refusal :=
  issue s fun s => s.enterCommand 6 (addBits sg sat k) sa (s.src sb) (fieldsAB (k == 1#1))

/-- bscmp: the destination is one plane. -/
def execBscmp (sa sb : BitVec 5) (k sg : BitVec 1) (cond : BitVec 3) (s : State) : Host.Outcome State Fault Refusal :=
  issue s fun s => s.enterCommand 7 (cond.toNat + 8 * sg.toNat + 16 * k.toNat) sa (s.src sb) fun o =>
    [(opwA o, opwN o + 1)] ++ if k = 1#1 then [] else [(opwB o, opwN o + 1)]

/-- bssel: plane M selects. -/
def execBssel (sa : BitVec 5) (s : State) : Host.Outcome State Fault Refusal := issue s fun s => s.enterCommand 8 0 sa 0 (fieldsAB false)

/-- bsinc. -/
def execBsinc (sa : BitVec 5) (s : State) : Host.Outcome State Fault Refusal :=
  issue s fun s => s.enterCommand 9 0 sa 0 fun o => [(opwD o, opwN o + 1)]

/-- bsmin. -/
def execBsmin (sa sb : BitVec 5) (sg k : BitVec 1) (s : State) : Host.Outcome State Fault Refusal :=
  issue s fun s => s.enterCommand 10 (addBits sg 0 k) sa (s.src sb) (fieldsAB (k == 1#1))

/-- bspop: the destination is DW + 1 planes wide. -/
def execBspop (sa : BitVec 5) (s : State) : Host.Outcome State Fault Refusal :=
  issue s fun s => s.enterCommand 11 0 sa 0 fun o => [(opwA o, opwN o + 1), (opwD o, opwDW o + 1)]

/-- bsshf: a moves by one lane. -/
def execBsshf (sa : BitVec 5) (rot dn : BitVec 1) (s : State) : Host.Outcome State Fault Refusal :=
  issue s fun s => s.enterCommand 12 (dn.toNat + 2 * rot.toNat) sa 0 (fieldsAB true)

/-! ### What a command does (R348) -/

/-- A `w`-bit value read as signed or unsigned. -/
def laneInt (signed : Bool) (w v : Nat) : Int := if signed && decide (2 ^ (w - 1) ≤ v % 2 ^ w) then (v % 2 ^ w : Nat) - (2 ^ w : Nat) else (v % 2 ^ w : Nat)

/-- Sat to the `w`-bit range, signed or unsigned; without SAT the wrapped value. -/
def laneSat (signed sat : Bool) (w : Nat) (r : Int) : Nat :=
  if sat then
    let lo : Int := if signed then -(2 ^ (w - 1) : Nat) else 0
    let hi : Int := if signed then (2 ^ (w - 1) : Nat) - 1 else (2 ^ w : Nat) - 1
    (((max lo (min hi r)) % (2 ^ w : Nat))).toNat
  else (r % (2 ^ w : Nat)).toNat

/-- A comparison of bscmp by its code. -/
def laneCmp (cond : Nat) (a b : Int) : Bool :=
  match cond with
  | 0 => a == b | 1 => a != b | 2 => decide (a < b) | 3 => decide (a ≤ b) | 4 => decide (b < a) | _ => decide (b ≤ a)

/-- The result of a command in a lane. -/
def Claim.result (m : Claim) (c : BitCmd) (l : Nat) : Nat :=
  let o := c.opw.toNat
  let w := opwN o + 1
  let a := m.field (opwA o) w l
  let kon := if c.fn = 7 then bit c.imm 4 else bit c.imm 0
  let useK := kon && (c.fn == 5 || c.fn == 6 || c.fn == 7 || c.fn == 10)
  let b := if useK then c.konst.toNat % 2 ^ w else m.field (opwB o) w l
  let sg := if c.fn = 7 then bit c.imm 3 else bit c.imm 2
  let ai := laneInt sg w a
  let bi := laneInt sg w b
  match c.fn with
  | 4 => (match c.imm with
      | 0 => a &&& b | 1 => a ||| b | 2 => a ^^^ b | 3 => 2 ^ w - 1 - a | _ => a &&& (2 ^ w - 1 - b))
  | 5 => laneSat sg (bit c.imm 1) w (ai + bi)
  | 6 => laneSat sg (bit c.imm 1) w (ai - bi)
  | 7 => if laneCmp (c.imm % 8) ai bi then 1 else 0
  | 8 => if m.laneBit (opwM o) l then a else b
  | 9 => min (m.field (opwD o) w l + 1) (2 ^ w - 1)
  | 10 => if bi < ai then b else a
  | 11 => min ((List.range w).filter fun i => a.testBit i).length (2 ^ (opwDW o + 1) - 1)
  | _ =>
    let n := m.lanes
    let at_ := fun (j : Nat) => m.field (opwA o) w j
    if bit c.imm 0 then (if l + 1 < n then at_ (l + 1) else if bit c.imm 1 then at_ 0 else 0)
    else (if 0 < l then at_ (l - 1) else if bit c.imm 1 then at_ (n - 1) else 0)

/-- Destination width of a command. -/
def BitCmd.width (c : BitCmd) : Nat := if c.fn = 7 then 1 else if c.fn = 11 then opwDW c.opw.toNat + 1 else opwN c.opw.toNat + 1

/-- Whether a lane's destination is written. -/
def Claim.writes (m : Claim) (c : BitCmd) (l : Nat) : Bool := c.fn == 8 || !opwME c.opw.toNat || m.laneBit (opwM c.opw.toNat) l

/-- A command on every lane, all lanes reading before any writes. -/
def Claim.perform (m : Claim) (c : BitCmd) : Claim :=
  let d := opwD c.opw.toNat
  { m with planes := (List.range c.width).foldl (fun (t : Map Nat Nat) i =>
      t.set (d + i) (natOfBits m.lanes fun l => if m.writes c l then (m.result c l).testBit i else m.laneBit (d + i) l)) m.planes }

/-! ### The claim order (R343, R344) -/

/-- The core of a transfer's C. -/
def State.transferCore (s : State) (t : TagRef) : Option Nat :=
  match (s.tag t).op with
  | some (.transfer x) => some x.core
  | _ => none

/-- The core of an entry. -/
def State.entryCore (s : State) : ClaimEntry → Option Nat
  | .cmd c => some c.core
  | .transfer t => s.transferCore t

/-- Whether a core has a frozen transfer in a claim: its later orders wait, and those of other cores pass (R351). -/
def State.coreFrozen (s : State) (m : Claim) (c : Option Nat) : Bool :=
  (m.pending ++ m.queue.filterMap fun e => match e with
    | .transfer t => some t
    | .cmd _ => none).any fun t => (s.tag t).st = .frozen && s.transferCore t == c

/-- The entry that can start next: the first whose core holds no frozen transfer, when no earlier transfer of its core still acts on the
planes. -/
def State.nextEntry (s : State) (m : Claim) : Option ClaimEntry :=
  match m.queue.find? fun e => !s.coreFrozen m (s.entryCore e) with
  | some e => if m.pending.any fun t => s.transferCore t == s.entryCore e then none else some e
  | none => none

/-- The next command while the context is being pre-empted, where no transfer begins (R343): the first before which its core has no transfer. -/
def State.nextCommand (s : State) (m : Claim) : Option BitCmd :=
  (m.queue.mapIdx fun i e => (i, e)).findSome? fun p => match p.2 with
    | .cmd c =>
      if (m.pending ++ (m.queue.take p.1).filterMap fun e => match e with
          | .transfer t => some t
          | .cmd _ => none).any fun t => s.transferCore t == some c.core
      then none else some c
    | .transfer _ => none

/-- The command that starts next: none of ways that are spilled (04_context R105). A context that is being pre-empted waits for every one of them, but
for those behind a transfer of their own core, which comes first (R344) and stops at its plane boundary (log 108). -/
def State.commandNext (s : State) (slot : Nat) (m : Claim) : Option BitCmd :=
  let x := s.ctx slot
  if !m.ready || m.spilled || !(x.st == .running || x.st == .ready) then none
  else if x.preempting.isSome then s.nextCommand m
  else match s.nextEntry m with
    | some (.cmd c) => some c
    | _ => none

/-- COMMAND_START: the next command of the queue acts whole. -/
def execCommandStart (slot : Nat) (s : State) : Host.Outcome State Fault Refusal :=
  happen (match (s.ctx slot).claim with
    | some m =>
        match s.commandNext slot m with
        | some c => s.setClaim slot (some { m.perform c with queue := m.queue.erase (.cmd c) })
        | _ => s
    | none => s)

/-! ### Transfers (R350-R353) -/

/-- The order of a transfer at its issue (R347, R350, R351): its checks, the wait for its tag, for a bsout its landing slots, and for room
in the queue; then the tag takes the landing state. -/
def State.transferOrder (s : State) (out : Bool) (tag : BitVec 6) (sa sb : BitVec 5) (sx : Bool) (lz : Nat) : Except Stop State := do
  let w := (s.src sb).toNat
  let a := (s.src sa).toNat
  let z := 2 ^ lz
  let width := bits w 13 8 + 1
  let count := bits w 62 40 + 1
  let first := bits w 38 16
  if bits w 15 14 ≠ 0 ∨ bit w 39 ∨ bit w 63 ∨ 256 < bits w 7 0 + width ∨ z < width ∨ (out ∧ count * z % 8 ≠ 0) then limitTrap s
  let len := (count * z + 7) / 8
  match s.claimOf s.mySlot with
  | none => raise .claimViolation 3
  | some m =>
    if m.lanes < first + count then raise .claimViolation 3
    if a % max (z / 8) 1 ≠ 0 then raise .misalignment 0 a
    if leavesRegion a (a + len - 1) out then raise .permission (24 + 2 * 256)
    s.awaitTables
    let t := s.myTag tag.toNat
    let box : BitVec 512 := .ofNat 512 (a * 2 ^ 64 + len * 2 ^ 128)
    let ready := if out then Cond.copyReady t box else Cond.tagAll [t]
    if !ready.holds s then waitFor 6 tag.toNat ready
    s.awaitRoom
    let x : Transfer := { out := out, addr := a, z := z, sx := sx, field := bits w 7 0, width := width, first := first, count := count,
                          len := len, slot := s.mySlot, core := s.myCoreNo, step := s.iss.here, wslot := s.iss.slot, order := s.nextOp }
    let g : Tag := { addr := a, st := .landing, rd := false, rep := false, op := some (.transfer x) }
    let s0 : State := State.setTag { s.latch with nextOp := s.nextOp + 1 } t g
    let s1 := (if out then s0.dropBox s.mySlot (destShape box) else s0).settleWrites
    return s1.setClaim s.mySlot (some { m with queue := m.queue ++ [.transfer t] })

/-- bsin: memory to planes. -/
def execBsin (tag : BitVec 6) (sa sb : BitVec 5) (lz : BitVec 3) (s : State) : Host.Outcome State Fault Refusal :=
  issue s fun s => s.transferOrder false tag sa sb false lz.toNat

/-- bsout: planes to memory. -/
def execBsout (tag : BitVec 6) (sa sb : BitVec 5) (sx : BitVec 1) (lz : BitVec 3) (s : State) : Host.Outcome State Fault Refusal :=
  issue s fun s => s.transferOrder true tag sa sb (sx == 1#1) lz.toNat

/-- The lanes [lo, hi) of segment `k` of a transfer: an aligned block of 1,024 lanes intersected with its lanes. -/
def Transfer.segment (x : Transfer) (k : Nat) : Nat × Nat :=
  let b := (x.first / 1024 + k) * 1024
  (max x.first b, min (x.first + x.count) (b + 1024))

/-- The segments of a transfer. -/
def Transfer.segments (x : Transfer) : Nat := (x.first + x.count - 1) / 1024 - x.first / 1024 + 1

/-- The claim with a transfer's step begun: out of the queue, among those that act on the planes. -/
def Claim.begin (m : Claim) (t : TagRef) : Claim :=
  if m.pending.contains t then m else { m with queue := m.queue.erase (.transfer t), pending := m.pending ++ [t] }

/-- A transfer frozen by a fault (R351), its trap for C; it holds no entry of the queue. -/
def State.freezeTransfer (s : State) (t : TagRef) (x : Transfer) (tr : Trap) (src : Bool) : State :=
  let g := s.tag t
  let g1 := { g with st := .frozen, trp := true, op := some (.transfer { x with buf := if x.out then x.buf else [], plane := if x.out then x.plane else 0 }) }
  let s1 := match (s.ctx x.slot).claim with
    | some m => s.setClaim x.slot (some (m.begin t))
    | none => s
  (s1.setTag t { g1 with addr := markOf g1 }).copyTrap t (.seq x.core 0) x.step x.wslot tr src true

/-- The elements of a bsin's segment, by lane of the segment, from the bytes that hold them (R350). -/
def segmentElements (x : Transfer) (k base : Nat) (bs : List Byte) : Map Nat Nat :=
  let (lo, hi) := x.segment k
  let v := leNat bs
  (List.range (hi - lo)).map fun i => (lo + i, bits v ((lo + i - x.first + 1) * x.z - 1 - base * 8) ((lo + i - x.first) * x.z - base * 8))

/-- The claim with a transfer's effect on the planes ended. -/
def Claim.ended (m : Claim) (t : TagRef) : Claim := { m with pending := m.pending.erase t }

/-- A step of a bsin: the elements of its segment are read, then one plane of the segment is written. -/
def State.stepIn (s : State) (t : TagRef) (x : Transfer) (m : Claim) : State :=
  let (lo, hi) := x.segment x.seg
  let base := (lo - x.first) * x.z / 8
  let stop := ((hi - x.first) * x.z + 7) / 8
  let got : Except (Option Trap) (Map Nat Nat × State) :=
    if x.buf.isEmpty then
      match s.readFor x.slot x.order x.snap (some t) (x.addr + base) (stop - base) with
      | .ok (bs, s1) => .ok (segmentElements x x.seg base bs, s1)
      | .error e => .error e
    else .ok (x.buf, s)
  match got with
  | .error none => s
  | .error (some e) => s.freezeTransfer t x e true
  | .ok (buf, s1) =>
    let p := x.field + x.plane
    let old := m.planes.get 0 p
    let new := natOfBits m.lanes fun l => if lo ≤ l ∧ l < hi then (buf.get 0 l).testBit x.plane else old.testBit l
    let lastPlane := x.plane + 1 == x.width
    let lastSeg := lastPlane && x.seg + 1 == x.segments
    let x1 := if lastPlane then { x with seg := x.seg + 1, plane := 0, buf := [] } else { x with plane := x.plane + 1, buf := buf }
    let g := s1.tag t
    let g1 : Tag := if lastSeg then { g with st := .landed, addr := x.addr + x.count * x.z / 8, rd := true, op := none }
      else { g with op := some (.transfer x1), rd := g.rd || x.seg + 1 == x.segments }
    let m1 := { m.begin t with planes := m.planes.set p new }
    let s2 := (s1.setTag t g1).setClaim x.slot (some (if lastSeg then m1.ended t else m1))
    if lastSeg then s2.opEnded t.owner else s2

/-- How many bytes of a bsout's destination the segments read so far give whole. -/
def Transfer.available (x : Transfer) : Nat :=
  if x.seg = x.segments then x.len else if x.seg = 0 then 0 else ((x.segment (x.seg - 1)).2 - x.first) * x.z / 8

/-- A step of a bsout: one plane of its segment is read, once what is read before has landed. -/
def State.stepOut (s : State) (t : TagRef) (x : Transfer) (m : Claim) : State :=
  if x.landed < x.available ∨ x.seg = x.segments then s
  else
    let (lo, hi) := x.segment x.seg
    let plane := m.planes.get 0 (x.field + x.plane)
    let read := bits plane (hi - 1) lo * 2 ^ (lo - x.first)
    let lastPlane := x.plane + 1 == x.width
    let lastSeg := lastPlane && x.seg + 1 == x.segments
    let x1 := { x with buf := x.buf.set x.plane (x.buf.get 0 x.plane + read), plane := if lastPlane then 0 else x.plane + 1,
                       seg := if lastPlane then x.seg + 1 else x.seg }
    let g := s.tag t
    let m1 := m.begin t
    (s.setTag t { g with op := some (.transfer x1), rd := g.rd || lastSeg }).setClaim x.slot (some (if lastSeg then m1.ended t else m1))

/-- TRANSFER_STEP: a transfer that has begun, or that is the next entry of the queue, acts on one plane. -/
def execTransferStep (t : TagRef) (s : State) : Host.Outcome State Fault Refusal :=
  happen (match (s.tag t).st, (s.tag t).op with
    | .landing, some (.transfer x) =>
      match (s.ctx x.slot).claim with
      | some m =>
        if m.ready && !m.spilled && s.copiesRun x.slot t && (m.pending.contains t || s.nextEntry m == some (.transfer t)) then
          (if x.out then s.stepOut t x m else s.stepIn t x m)
        else s
      | none => s
    | _, _ => s)

/-- The container of element `i` of a bsout (R353). -/
def Transfer.container (x : Transfer) (i : Nat) : Nat :=
  let v := natOfBits x.width fun j => (x.buf.get 0 j).testBit i
  if x.sx && v.testBit (x.width - 1) then v + (2 ^ x.z - 2 ^ x.width) else v

/-- Byte `j` of a bsout's destination. -/
def Transfer.byteAt (x : Transfer) (j : Nat) : Byte :=
  if 8 ≤ x.z then .ofNat 8 (x.container (j * 8 / x.z) / 2 ^ (j * 8 % x.z))
  else .ofNat 8 (natOfBits 8 fun b => (x.container ((j * 8 + b) / x.z)).testBit ((j * 8 + b) % x.z))

/-- The next chunk of a bsout lands (R353). -/
def State.landTransfer (s : State) (t : TagRef) (x : Transfer) : State :=
  let a := x.addr + x.landed
  let n := min (128 - a % 128) (x.available - x.landed)
  if n = 0 ∨ s.landingWaits x.slot x.order a n then s
  else
    match s.landBytes x.slot x.order a ((List.range n).map fun i => x.byteAt (x.landed + i)) false with
    | .error e => s.freezeTransfer t x e false
    | .ok s1 =>
      let x1 := { x with landed := x.landed + n }
      let g := { s1.tag t with addr := a + n, op := some (Op.transfer x1) }
      if x1.landed = x.len then (((s1.setTag t { g with st := .landed, rd := true, op := none }).opEnded t.owner)).settleWrites
      else (s1.setTag t g).settleWrites

end Sys2Proof.Machine
end

