-- ==== Sys2Proof/Machine/Operands.lean ====
section
/-! DEFINITION. The operand forms of the vector engines (13_vector R262-R273; 03_encoding R72, R80; 05_kernel R123): types, elements,
window names, taps, groups, last-use marks, the merge of a result under its mask, and engine scalar registers. -/

namespace Sys2Proof.Machine

/-! ### Types (R263, R264) -/

/-- What the elements of a type are. -/
inductive Ty where
  | fp (f : Fp)
  | int (t : IntFmt)
deriving DecidableEq, Repr

/-- The elements of a type code; Q and the reserved codes are read as their integers. -/
def tyOf (t : Nat) : Ty :=
  match t with
  | 0 => .fp fp32 | 1 => .fp bf16 | 2 => .fp fp16 | 3 => .fp e4m3 | 4 => .fp e5m2 | 5 => .fp e2m1
  | 6 => .int ⟨32, true⟩ | 7 => .int ⟨16, true⟩ | 8 => .int ⟨8, true⟩ | 9 => .int ⟨4, true⟩
  | 10 => .int ⟨8, false⟩ | 11 => .int ⟨4, false⟩ | _ => .int ⟨8, true⟩

/-- Groups of types: F, the float types, the integer types, signed ones, all but Q, all with Q, and all of 8 bits or more. -/
def grpF (t : Nat) : Bool := decide (t ≤ 2)
def grpFloat (t : Nat) : Bool := decide (t ≤ 5)
def grpInt (t : Nat) : Bool := decide (6 ≤ t) && decide (t ≤ 11)
def grpSigned (t : Nat) : Bool := decide (6 ≤ t) && decide (t ≤ 9)
def grpAll (t : Nat) : Bool := decide (t ≤ 11)
def grpAllQ (t : Nat) : Bool := decide (t ≤ 12)
def grpWide (t : Nat) : Bool := grpAllQ t && decide (8 ≤ typeWidth t)

/-- Whether every value of type `t0` is exactly representable in `t1` (R275): an integer below 2^(fb + 1) has as many significant bits as
the format holds. -/
def exactIn (t0 t1 : Nat) : Bool :=
  match tyOf t0, tyOf t1 with
  | .fp _, .fp _ => true
  | .int a, .int b => decide (b.lo ≤ a.lo) && decide (a.hi ≤ b.hi)
  | .int a, .fp f => decide (a.hi < 2 ^ (f.fb + 1))
  | .fp _, .int _ => false

/-- A widening pair (R275). -/
def wideningPair (t0 t1 : Nat) : Bool :=
  grpAll t0 && grpAll t1 && exactIn t0 t1 && (lanesOf t0 == 2 * lanesOf t1 || lanesOf t0 == 4 * lanesOf t1)

/-! ### Elements (R37) -/

/-- The first elements of `w` bits of a value, the lowest first. -/
def elems (w : Nat) : Nat → Nat → List Nat
  | 0, _ => []
  | n + 1, v => v % 2 ^ w :: elems w n (v / 2 ^ w)

/-- A value with its lowest elements replaced where there is a new one. -/
def mergeElems (w : Nat) : List (Option Nat) → Nat → Nat
  | [], v => v
  | c :: r, v => c.getD (v % 2 ^ w) + 2 ^ w * mergeElems w r (v / 2 ^ w)

/-- A value from its elements. -/
def packElems (w : Nat) (l : List Nat) : Nat := mergeElems w (l.map some) 0

/-! ### What governs an order -/

/-- vtype as the step found it. -/
def State.t0 (s : State) : Nat := s.iss.old.t0
def State.t1 (s : State) : Nat := s.iss.old.t1

/-- Whether an order that rounds under vtype.RM finds a reserved mode there (R262). -/
def State.badMode (s : State) : Bool := decide (5 ≤ s.iss.old.rm)

/-- The top predicate entry as the step found it (03_encoding R66). -/
def State.topNat (s : State) : Nat := (topOf s.iss.old.stack).toNat

/-- The elements below `e` that are active (R267). -/
def State.mask (s : State) (e : Nat) : List Bool := (elems 1 e s.topNat).map fun b => b == 1

/-- The rounding of element `j` under vtype (R269), with a nonce. -/
def State.vround (s : State) (j : Nat) (nonce : Nat := 0) : Rounding :=
  { mode := s.iss.old.rm, sat := s.iss.old.satOn, seed := s.iss.seed.toNat, idx := j, nonce := nonce }

/-! ### Names (03_encoding R71, R72; R265, R266) -/

/-- Phys(n) of a window name (03_encoding R72). -/
def Seq.phys (q : Seq) (here n : Nat) : Nat :=
  match q.rotating here with
  | some f => if n ≤ 15 then q.base + (n + 16 - f.index % 16) % 16 else q.base + n
  | none => q.base + n

/-- The physical register of a name of the step; of a tap, its entry. -/
def State.vname (s : State) (n : Nat) : Option Nat :=
  if 28 ≤ n then s.iss.old.ring.getD (n - 28) none else some (s.iss.old.phys (s.iss.here.toNat % 2048) n)

/-- A group of `g` names that passes v27, or begins with a tap (R265). -/
def groupOver (n g : Nat) : Bool := decide (1 < g) && decide (28 < n + g)

/-- TINFO of a dead read (R266). -/
def deadInfo (n : Nat) (p : Option Nat) : Nat := p.getD 0x3FF + (if 28 ≤ n then 2 ^ 18 + (n - 28) * 2 ^ 16 else 0)

/-- Read the register of a name as the step found it (03_encoding R66). A dead one is the trap when an element that acts needs it and
DEADCHK is on, else an undefined value (05_kernel R123; log 2). -/
def State.readV (s : State) (n : Nat) (need : Bool) : Except Stop (Nat × State) :=
  let p := s.vname n
  if (match p with | some r => s.iss.oldLive.get false r | none => false) then .ok ((s.iss.oldV.get 0 (p.getD 0)).toNat, s)
  else if need && s.iss.deadchk then raise .deadRead (deadInfo n p)
  else .ok (s.freeBits 4096)

/-- A group read, the first register lowest; `need` holds for each register whether an element that acts lies in it. -/
def State.readGroup (s : State) (n : Nat) : List Bool → Except Stop (Nat × State)
  | [] => .ok (0, s)
  | b :: r => do
    let (v, t) ← s.readV n b
    let (u, t') ← t.readGroup (n + 1) r
    return (v + 2 ^ 4096 * u, t')

/-- Which of `g` registers of `l` lanes hold an element that acts. -/
def needs (l : Nat) (m : List Bool) : Nat → List Bool
  | 0 => []
  | g + 1 => (m.take l).any id :: needs l (m.drop l) g

/-- A last-use mark on a group; taps take none (05_kernel R123). -/
def State.lastUse (s : State) (n g : Nat) (lu : BitVec 1) : State :=
  if lu = 0#1 ∨ 28 ≤ n then s
  else { s with iss := { s.iss with marks := s.iss.marks ++ (List.range g).filterMap fun k => s.vname (n + k) } }

/-! ### lpat (R270) -/

/-- s(i) of a pattern. -/
def patternLane (kind k : Nat) (perm : BitVec 24) (i : Nat) : Nat :=
  match kind with
  | 0 => (i + k) % 32
  | 1 => 31 - i
  | 2 => 8 * (i / 8) + bits perm.toNat (3 * (i % 8) + 2) (3 * (i % 8))
  | _ => k

/-- One block of 32 lanes rearranged. -/
def patternBlock (kind k : Nat) (perm : BitVec 24) (b : List Nat) : List Nat :=
  (List.range 32).map fun i => b.getD (patternLane kind k perm i) 0

/-- The blocks of a list of lanes rearranged. -/
def patternAll (kind k : Nat) (perm : BitVec 24) : Nat → List Nat → List Nat
  | 0, _ => []
  | n + 1, l => patternBlock kind k perm (l.take 32) ++ patternAll kind k perm n (l.drop 32)

/-- The va operand of `g` registers as the pattern of slot 0 gives it to slot 1 (03_encoding R80). -/
def State.patterned (s : State) (g v : Nat) : Nat :=
  match s.iss.slot, s.iss.lpat with
  | 1, some (kind, k) =>
    let w := typeWidth s.t0
    packElems w (patternAll kind k s.iss.old.patreg (g * lanesOf s.t0 / 32) (elems w (g * lanesOf s.t0) v))
  | _, _ => v

/-- Whether a pattern applies under a reserved T0. -/
def State.badPattern (s : State) : Bool := s.iss.slot == 1 && s.iss.lpat.isSome && !grpAllQ s.t0

/-- The va operand: a group of `need.length` registers, its pattern applied, its last use marked. -/
def State.readA (s : State) (n : Nat) (need : List Bool) (la : BitVec 1) : Except Stop (Nat × State) := do
  let (v, t) ← s.readGroup n need
  return (t.patterned need.length v, t.lastUse n need.length la)

/-- Another source operand. -/
def State.readB (s : State) (n : Nat) (need : List Bool) (lu : BitVec 1) : Except Stop (Nat × State) := do
  let (v, t) ← s.readGroup n need
  return (v, t.lastUse n need.length lu)

/-! ### Results -/

/-- Write a physical register of the core's vector registers: elements of `w` bits, those of `m` reached. -/
def State.writeV (s : State) (p v w : Nat) (m : BitVec 4096 := BitVec.allOnes 4096) : State :=
  let k := s.myCore
  let t := s.setMyCore { k with vreg := k.vreg.set p (.ofNat 4096 v), live := k.live.set p true }
  { t with iss := { t.iss with wrote := { reg := p, w := w, mask := m, old := k.vreg.get 0 p, live := k.live.get false p } :: t.iss.wrote } }

/-- What a physical register holds for a merge: undefined when it is dead (05_kernel R123; log 2). -/
def State.priorV (s : State) (p : Nat) : Nat × State :=
  if s.myCore.live.get false p then ((s.myCore.vreg.get 0 p).toNat, s) else s.freeBits 4096

/-- The bits of the elements that a result reaches. -/
def reachedBits (w : Nat) (res : List (Option Nat)) : BitVec 4096 := .ofNat 4096 (mergeElems w (res.map fun e => e.map fun _ => 2 ^ w - 1) 0)

/-- The elements of one register merged into it. -/
def State.mergeV (s : State) (p w : Nat) (res : List (Option Nat)) : State :=
  if (res.all Option.isSome) && decide (res.length = 4096 / w) then s.writeV p (mergeElems w res 0) w
  else let (v, t) := s.priorV p; t.writeV p (mergeElems w res v) w (reachedBits w res)

/-- A result enters the transient operand ring (R266). -/
def State.enterRing (s : State) (p : Nat) : State := s.setCur { s.cur with ring := some p :: s.cur.ring.take 3 }

/-- The elements of a group from name `n` on merged into its registers, `l` to each. -/
def State.mergeGroup (s : State) (n w l : Nat) : Nat → List (Option Nat) → State
  | 0, _ => s
  | g + 1, res => (s.mergeV (s.iss.old.phys (s.iss.here.toNat % 2048) n) w (res.take l)).mergeGroup (n + 1) w l g (res.drop l)

/-- The result of an order: the elements of a type in the group of `g` registers from vd, and its entry in the ring. -/
def State.result (s : State) (vd g w : Nat) (res : List (Option Nat)) : State :=
  (s.mergeGroup vd w (4096 / w) g res).enterRing (s.iss.old.phys (s.iss.here.toNat % 2048) vd)

/-- An engine scalar register as the step found it. -/
def State.es (s : State) (k : BitVec 3) : Word := s.iss.old.es.get 0 k.toNat

/-- Write an engine scalar register. -/
def State.wrEs (s : State) (k : BitVec 3) (v : Word) : State := s.setCur { s.cur with es := s.cur.es.set k.toNat v }

/-- Whether an accumulator is out of the limit that the kernel declares (R287; 14_matrix R293). -/
def State.noAcc (s : State) (acc : BitVec 4) : Bool :=
  match s.myCore.kern with
  | some g => decide (g.accs ≤ acc.toNat)
  | none => true

end Sys2Proof.Machine
end

