-- ==== Sys2Proof/Machine/Flags.lean ====
section
/-! DEFINITION. Results of elements with their flags (02_numbers R35, R36, R44-R50), the non-finite trap (R52, R53), and the shapes of
lane-wise vector orders. -/

namespace Sys2Proof.Machine

/-! ### Elements with flags -/

/-- An element: its bits and the flags it sets. -/
abbrev Elem := Nat × BitVec 8

/-- Round an exact result into a float format, with the flags of the operation. -/
def elemOf (f : Fp) (r : Rounding) (x : Exact × BitVec 8) : Elem := let (c, g) := roundTo f r x.1; (c, x.2 ||| g)

/-- A value as an exact result. -/
def exactNum (r : Num × BitVec 8) : Exact × BitVec 8 := (.num r.1, r.2)

/-- The element operations of float types: from the mode and the values d, a, b. -/
abbrev FpFn := Nat → Num → Num → Num → Exact × BitVec 8

/-- The element operations of integer types: the exact integer from d, a, b. -/
abbrev IntFn := Int → Int → Int → Int

/-- An element of an order from the type of a and b, the type of d and the result, the rounding, and the bits of d, a and b: float results
round once, integer results wrap (R274, R275). -/
def arith (ff : FpFn) (fi : IntFn) (t0 t1 : Ty) (r : Rounding) (d a b : Nat) : Elem :=
  match t0, t1 with
  | .fp f, .fp g => elemOf g r (ff r.mode (g.num d) (f.num a) (f.num b))
  | .int i, .int j => (j.wrap (fi (j.int d) (i.int a) (i.int b)), 0)
  | _, _ => (0, 0)

/-- The larger or smaller of two float elements (R274): −0 below +0, a NaN yields to a number. -/
def fpPick (mx : Bool) (f : Fp) (a b : Nat) : Elem :=
  let x := f.num a
  let y := f.num b
  let g := if x.isSig || y.isSig then fNV else 0
  if x.isNaN && y.isNaN then (f.nan, g)
  else if x.isNaN then (b, g)
  else if y.isNaN then (a, g)
  else if mx then (if belowNum x y then b else a, g) else (if belowNum y x then b else a, g)

/-- The same in a reduction (R284): any NaN wins. -/
def fpPickNaN (mx : Bool) (f : Fp) (a b : Nat) : Elem :=
  let x := f.num a
  let y := f.num b
  if x.isNaN || y.isNaN then (f.nan, if x.isSig || y.isSig then fNV else 0) else fpPick mx f a b

/-- vmin and vmax on a type (R274). -/
def pick (mx : Bool) (t : Ty) (a b : Nat) : Elem :=
  match t with
  | .fp f => fpPick mx f a b
  | .int i => (if mx then (if i.int a < i.int b then b else a) else (if i.int b < i.int a then b else a), 0)

/-- A change of sign only, or its removal (R274 vneg, vabs). -/
def resign (neg : Bool) (t : Ty) (a : Nat) : Elem :=
  match t with
  | .fp f =>
    if (f.num a).isNaN then (f.nan, if (f.num a).isSig then fNV else 0)
    else (if neg then (if a < f.signBit then a + f.signBit else a - f.signBit) else a % f.signBit, 0)
  | .int i => (i.wrap (if neg then -(i.int a) else if i.int a < 0 then -(i.int a) else i.int a), 0)

/-- Conversion of an element between types (R46, R280). -/
def convert (t0 t1 : Ty) (r : Rounding) (a : Nat) : Elem :=
  match t0, t1 with
  | .fp f, .fp g => roundTo g r (.num (f.num a))
  | .fp f, .int j => roundToInt j r false (.num (f.num a))
  | .int i, .fp g => roundTo g r (.num (ofInt (i.int a)))
  | .int i, .int j => roundToInt j r true (.num (ofInt (i.int a)))

/-- An element of an LQ8 block (02_numbers R40, R41): a scale of +0 gives +0. -/
def lqValue (scale q : Nat) : Num × BitVec 8 :=
  if scale = 0 then (.fin false 0 0, 0) else mulNum (fp32.num scale) (ofInt ((IntFmt.mk 8 true).int q))

/-- An element of a microscaling block (02_numbers R38). -/
def mxValue (f : Fp) (scale code : Nat) : Num × BitVec 8 := mulNum (e8m0 scale) (f.num code)

/-! ### The non-finite trap (R50-R53) -/

/-- Whether an element of a type is non-finite, and if so whether it is NaN. -/
def nonFinite (t : Ty) (c : Nat) : Option Bool :=
  match t with
  | .fp f => match f.num c with
    | .nan _ => some true
    | .inf _ => some false
    | .fin .. => none
  | .int _ => none

/-- The first lane whose element the non-finite trap takes: `nanOnly` leaves infinities out. -/
def firstBad (nanOnly : Bool) (l : List (Option Bool)) : Option Nat :=
  match l with
  | [] => none
  | some true :: _ => some 0
  | some false :: r => if nanOnly then (firstBad nanOnly r).map (· + 1) else some 0
  | none :: r => (firstBad nanOnly r).map (· + 1)

/-- TFMT of type codes (R53). -/
def fmtOf (fa fb fd : Nat) : Word := .ofNat 64 (fa + fb * 16 + fd * 256)

/-- The trap of a lane. -/
def nonFiniteTrap (col : Nat) (fmt : Word) : Trap := { cause := .nonFinite, tile := .ofNat 64 (col * 2 ^ 16), fmt := fmt }

/-- NFTRAP.EN and NFTRAP.NANONLY (R51), as the order found them at its issue (12_scalar R249). -/
def State.nfOn (s : State) : Bool := s.iss.nft.getLsbD 0
def State.nfNaNOnly (s : State) : Bool := s.iss.nft.getLsbD 1

/-- The flags of the elements an order writes. -/
def flagsOf (res : List (Option Elem)) : BitVec 8 := res.foldl (fun g e => match e with
  | some x => g ||| x.2
  | none => g) 0

/-- The non-finite test of an order on the lanes it would write: its trap, or NF. -/
def State.testFinite (s : State) (bad : List (Option Bool)) (fmt : Word) : Except Stop State :=
  if s.nfOn && (firstBad s.nfNaNOnly bad).isSome then .error (.trap (nonFiniteTrap ((firstBad s.nfNaNOnly bad).getD 0) fmt) none)
  else .ok (s.flag (if bad.any Option.isSome then fNF else 0))

/-- The result of an arithmetic, conversion or special-function order: the test, the flags, the registers and the ring. -/
def State.finishV (s : State) (vd g : Nat) (td : Nat) (fmt : Word) (res : List (Option Elem)) : Except Stop State := do
  let t ← s.testFinite (res.map fun e => e.bind fun x => nonFinite (tyOf td) x.1) fmt
  return ((t.flag (flagsOf res)).result vd g (typeWidth td) (res.map fun e => e.map (·.1)))

/-! ### Lane-wise orders (R267-R269, R272) -/

/-- The elements of an order, by position, mask, and the elements of three operands. -/
def mapLanes (f : Nat → Nat → Nat → Nat → Elem) : Nat → List Bool → List Nat → List Nat → List Nat → List (Option Elem)
  | j, m :: ms, d :: ds, a :: as_, b :: bs => (if m then some (f j d a b) else none) :: mapLanes f (j + 1) ms ds as_ bs
  | _, _, _, _, _ => []

/-- Whether an order may not run: its T0 is not accepted, or it rounds floats under a reserved mode (R262, R268). -/
def State.badType (s : State) (ok : Nat → Bool) (rounds : Bool) : Bool :=
  !ok s.t0 || (rounds && grpFloat s.t0 && s.badMode)

/-- Pattern A with the old vd as a third operand where `acc` says so: one register of T0 each. -/
def laneOrder (ok : Nat → Bool) (rounds acc : Bool) (f : Ty → Rounding → Nat → Nat → Nat → Elem)
    (vd va vb : BitVec 5) (la lb : BitVec 1) (s : State) : Host.Outcome State Fault Refusal :=
  issueAlways s fun s => do
    if s.badType ok rounds then limitTrap s
    let w := typeWidth s.t0
    let n := lanesOf s.t0
    let m := s.mask n
    let (a, s1) ← s.readA va.toNat [m.any id] la
    let (b, s2) ← s1.readB vb.toNat [m.any id] lb
    let (d, s3) ← if acc then s2.readB vd.toNat [m.any id] 0 else .ok (0, s2)
    s3.finishV vd.toNat 1 s.t0 (fmtOf s.t0 s.t0 s.t0)
      (mapLanes (fun j => f (tyOf s.t0) (s.vround j)) 0 m (elems w n d) (elems w n a) (elems w n b))

/-- Pattern B: one source. -/
def laneOrder1 (ok : Nat → Bool) (rounds : Bool) (f : Ty → Rounding → Nat → Elem) (vd va : BitVec 5) (la : BitVec 1) (s : State) :
    Host.Outcome State Fault Refusal :=
  issueAlways s fun s => do
    if s.badType ok rounds then limitTrap s
    let w := typeWidth s.t0
    let n := lanesOf s.t0
    let m := s.mask n
    let (a, s1) ← s.readA va.toNat [m.any id] la
    let l := elems w n a
    s1.finishV vd.toNat 1 s.t0 (fmtOf s.t0 0xF s.t0) (mapLanes (fun j _ x _ => f (tyOf s.t0) (s.vround j) x) 0 m l l l)

/-- The same for bit patterns, which set no flag and do not meet the non-finite trap (02_numbers R50, R52). -/
def bitOrder (ok : Nat → Bool) (f : Nat → Nat → Nat → Nat) (vd va vb : BitVec 5) (la lb : BitVec 1) (s : State) :
    Host.Outcome State Fault Refusal :=
  issueAlways s fun s => do
    if s.badType ok false then limitTrap s
    let w := typeWidth s.t0
    let n := lanesOf s.t0
    let m := s.mask n
    let (a, s1) ← s.readA va.toNat [m.any id] la
    let (b, s2) ← s1.readB vb.toNat [m.any id] lb
    let l := elems w n a
    return s2.result vd.toNat 1 w ((mapLanes (fun _ _ x y => (f w x y, 0)) 0 m l l (elems w n b)).map fun e => e.map (·.1))

/-- Pattern B for bit patterns. -/
def bitOrder1 (ok : Nat → Bool) (f : Nat → Nat → Nat) (vd va : BitVec 5) (la : BitVec 1) (s : State) : Host.Outcome State Fault Refusal :=
  issueAlways s fun s => do
    if s.badType ok false then limitTrap s
    let w := typeWidth s.t0
    let n := lanesOf s.t0
    let m := s.mask n
    let (a, s1) ← s.readA va.toNat [m.any id] la
    let l := elems w n a
    return s1.result vd.toNat 1 w ((mapLanes (fun _ _ x _ => (f w x, 0)) 0 m l l l).map fun e => e.map (·.1))

end Sys2Proof.Machine
end

