-- ==== Sys2Proof/Machine/VectorCvt.lean ====
section
/-! DEFINITION. Conversions and block formats, major 0x25 (13_vector R280, R281; 02_numbers R38-R41, R46). -/

namespace Sys2Proof.Machine

/-! ### Element conversions (R280) -/

/-- Whether a conversion rounds under vtype.RM: it has a float end. -/
def State.cvtMode (s : State) : Bool := (grpFloat s.t0 || grpFloat s.t1) && s.badMode

/-- A conversion of `e` elements from a group of `ga` registers to a group of `gd`. -/
def State.cvtElements (s : State) (e ga gd : Nat) (vd va : BitVec 5) (la : BitVec 1) (r : Nat → Rounding) : Except Stop State := do
  let m := s.mask e
  let (a, s1) ← s.readA va.toNat (needs (lanesOf s.t0) m ga) la
  let l := elems (typeWidth s.t0) e a
  s1.finishV vd.toNat gd s.t1 (fmtOf s.t0 0xF s.t1) (mapLanes (fun j _ x _ => convert (tyOf s.t0) (tyOf s.t1) (r j) x) 0 m l l l)

/-- vcvt: one register to one register. -/
def execVcvt (vd va : BitVec 5) (la : BitVec 1) (s : State) : Host.Outcome State Fault Refusal :=
  issueAlways s fun s =>
    if !grpAll s.t0 || !grpAll s.t1 || s.cvtMode then limitTrap s
    else s.cvtElements (min (lanesOf s.t0) (lanesOf s.t1)) 1 1 vd va la fun j => s.vround j

/-- vcvtsr: always stochastic, its nonce from an engine scalar register. -/
def execVcvtsr (vd va : BitVec 5) (k : BitVec 3) (la : BitVec 1) (s : State) : Host.Outcome State Fault Refusal :=
  issueAlways s fun s =>
    if !grpF s.t0 || !grpFloat s.t1 then limitTrap s
    else s.cvtElements (min (lanesOf s.t0) (lanesOf s.t1)) 1 1 vd va la fun j =>
      { s.vround j ((s.es k).toNat % 2 ^ 32) with mode := 4 }

/-- vwid: exact, to a group. -/
def execVwid (vd va : BitVec 5) (la : BitVec 1) (s : State) : Host.Outcome State Fault Refusal :=
  issueAlways s fun s =>
    let g := lanesOf s.t0 / lanesOf s.t1
    if !wideningPair s.t0 s.t1 || groupOver vd.toNat g then limitTrap s
    else s.cvtElements (lanesOf s.t0) 1 g vd va la fun _ => {}

/-- vnarr: a group rounded into one register. -/
def execVnarr (vd va : BitVec 5) (la : BitVec 1) (s : State) : Host.Outcome State Fault Refusal :=
  issueAlways s fun s =>
    let g := lanesOf s.t1 / lanesOf s.t0
    if !grpAll s.t0 || !grpAll s.t1 || (lanesOf s.t1 != 2 * lanesOf s.t0 && lanesOf s.t1 != 4 * lanesOf s.t0) || s.cvtMode ||
       groupOver va.toNat g then limitTrap s
    else s.cvtElements (lanesOf s.t1) g 1 vd va la fun j => s.vround j

/-! ### Quantisation (02_numbers R39, R41) -/

/-- A quantised block: the code of its scale, whether that scale is NaN, its elements with their flags, and the flags of the scale. -/
structure QBlock where
  scale : Nat
  bad : Bool
  elems : List Elem
  fl : BitVec 8

/-- emax of a microscaling format. -/
def emaxOf (t : Nat) : Int := if t = 3 then 8 else if t = 4 then 15 else 2

/-- floor(log2) of the largest finite magnitude of a list, none when it is zero. -/
def maxLog : List Num → Option Int
  | [] => none
  | .fin _ m e :: r =>
    if m = 0 then maxLog r
    else match maxLog r with
      | some l => some (max l ((m.log2 : Int) + e))
      | none => some ((m.log2 : Int) + e)
  | _ :: r => maxLog r

/-- Quantise the unmasked elements of a microscaling block (R39): `xs` are the elements by position, none where masked. -/
def quantMx (t : Nat) (f : Fp) (rnd : Nat → Rounding) (j0 : Nat) (xs : List (Option Num)) : QBlock :=
  let live := xs.filterMap id
  let at_ := (List.range xs.length).map fun i => (j0 + i, xs.getD i none)
  if live.isEmpty then { scale := 127, bad := false, elems := xs.map fun _ => (0, 0), fl := 0 }
  else if live.any Num.isNaN then
    { scale := 0xFF, bad := true, elems := xs.map (fun x => if x.isSome then (f.nan, 0) else (0, 0)), fl := fNV }
  else
    let s : Int := match maxLog live with
      | none => 0
      | some l => max (-127) (min 127 (l - emaxOf t))
    let zero := (maxLog live).isNone
    { scale := (s + 127).toNat, bad := false, fl := 0,
      elems := at_.map fun p => match p.2 with
        | none => (0, 0)
        | some (.fin n m e) => if zero then (0, 0) else roundTo f (rnd p.1) (.num (.fin n m (e - s)))
        | some x => roundTo f (rnd p.1) (.num x) }

/-- The magnitude of a value. -/
def Num.abs : Num → Num
  | .fin _ m e => .fin false m e
  | .inf _ => .inf false
  | x => x

/-- The larger of two values that are no NaN. -/
def maxNum (a b : Num) : Num := if ltNum a b then b else a

/-- Quantise an LQ8 block (R41), always with RNE. -/
def quantLq (xs : List (Option Num)) : QBlock :=
  let live := xs.filterMap id
  let zeros := xs.map fun _ => ((0, 0) : Elem)
  if live.any fun x => x.isNaN || x.isInf then { scale := fp32.nan, bad := true, elems := zeros, fl := fNV }
  else
    match (live.map Num.abs).foldl maxNum (.fin false 0 0) with
    | .fin _ m e =>
      if m = 0 then { scale := 0, bad := false, elems := zeros, fl := 0 }
      else
        let (sc, g) := roundTo fp32 {} (.mag false (magRatio m 127 e))
        if sc = 0 then { scale := 0, bad := false, elems := zeros, fl := g }
        else
          { scale := sc, bad := false, fl := g,
            elems := xs.map fun x => match x with
              | none => (0, 0)
              | some v =>
                match roundInteger {} (divNum v (fp32.num sc)).1 with
                | some (n, ix) =>
                  let y := max (-127) (min 127 n)
                  ((IntFmt.mk 8 true).wrap y, (if y ≠ n then fSAT else 0) ||| (if ix || y ≠ n then fNX else 0))
                | none => (0, 0) }
    | _ => { scale := 0, bad := false, elems := zeros, fl := 0 }

/-- Consecutive sublists of `b` elements with their first positions. -/
def blocks {α : Type} (b : Nat) : Nat → Nat → List α → List (Nat × List α)
  | _, 0, _ => []
  | j, n + 1, l => (j, l.take b) :: blocks b (j + b) n (l.drop b)

/-- vqblk (R281): masked elements are written as zero; the scales go to the second register of the group. -/
def execVqblk (vd va : BitVec 5) (la : BitVec 1) (s : State) : Host.Outcome State Fault Refusal :=
  issueAlways s fun s => do
    let t := s.t1
    let n := lanesOf t
    let g := n / lanesOf s.t0
    if !grpF s.t0 || !(decide (3 ≤ t) && decide (t ≤ 5) || t == 12) || (t != 12 && s.badMode) || groupOver va.toNat g ||
       groupOver vd.toNat 2 then limitTrap s
    let m := s.mask n
    let (a, s1) ← s.readA va.toNat (needs (lanesOf s.t0) m g) la
    match tyOf s.t0 with
    | .int _ => limitTrap s
    | .fp f0 =>
      let xs := List.zipWith (fun (b : Bool) x => if b then some (f0.num x) else none) m (elems (typeWidth s.t0) n a)
      let b := if t = 12 then 64 else 32
      let qs := (blocks b 0 (n / b) xs).map fun p => match tyOf t with
        | .fp f1 => quantMx t f1 (fun j => s.vround j) p.1 p.2
        | .int _ => quantLq p.2
      let bad := qs.flatMap fun q => if q.bad then some true :: List.replicate (b - 1) none
        else q.elems.map fun e => if t = 12 then none else nonFinite (tyOf t) e.1
      let s2 ← s1.testFinite bad (fmtOf s.t0 0xF t)
      let s3 := s2.flag (qs.foldl (fun (h : BitVec 8) q => q.elems.foldl (fun (k : BitVec 8) e => k ||| e.2) (h ||| q.fl)) 0)
      let here := s.iss.here.toNat % 2048
      let p0 := s.iss.old.phys here vd.toNat
      let s4 := s3.writeV p0 (packElems (typeWidth t) (qs.flatMap fun q => q.elems.map (·.1))) (typeWidth t)
      let s5 := s4.writeV (s.iss.old.phys here (vd.toNat + 1)) (packElems (if t = 12 then 32 else 8) (qs.map (·.scale))) (if t = 12 then 32 else 8)
      return s5.enterRing p0

/-- vdqblk (R281): an element under a NaN scale is NaN, a masked one is kept. -/
def execVdqblk (vd va : BitVec 5) (la : BitVec 1) (s : State) : Host.Outcome State Fault Refusal :=
  issueAlways s fun s => do
    let t := s.t0
    let n := lanesOf t
    let g := n / lanesOf s.t1
    if !(decide (3 ≤ t) && decide (t ≤ 5) || t == 12) || !grpF s.t1 || s.badMode || groupOver va.toNat 2 || groupOver vd.toNat g then
      limitTrap s
    let m := s.mask n
    let (a, s1) ← s.readA va.toNat [m.any id, m.any id] la
    let b := if t = 12 then 64 else 32
    let scales := elems (if t = 12 then 32 else 8) (n / b) (a / 2 ^ 4096)
    let scaled := fun (sc x : Nat) => match tyOf t with
      | .fp f => mxValue f sc x
      | .int _ => lqValue sc x
    let l := elems (typeWidth t) n a
    let sl := scales.flatMap fun sc => List.replicate b sc
    match tyOf s.t1 with
    | .int _ => limitTrap s
    | .fp f1 =>
      s1.finishV vd.toNat g s.t1 (fmtOf t 0xF s.t1) (mapLanes (fun j _ x sc => elemOf f1 (s.vround j) (exactNum (scaled sc x))) 0 m l l sl)

end Sys2Proof.Machine
end

