-- ==== Sys2Proof/Machine/Pool.lean ====
section
/-! DEFINITION. Rows of tables and the order-free sums of pooling (02_numbers R38-R42, R59-R61). -/

namespace Sys2Proof.Machine

/-- How the rows of a table are laid out (17_piers R359, R364): type code, layout (0 plain, 1 LQ8, 2 packed microscaling), elements. -/
structure RowFmt where
  fmt : Nat
  lay : Nat
  elems : Nat
deriving DecidableEq, Repr

/-- Elements in a block of a layout; 1 for the plain layout. -/
def RowFmt.block (r : RowFmt) : Nat := if r.lay = 1 then 64 else if r.lay = 2 then 32 else 1

/-- Bytes of the elements of a block, and of its scale. -/
def RowFmt.data (r : RowFmt) : Nat := r.block * typeWidth r.fmt / 8
def RowFmt.scale (r : RowFmt) : Nat := if r.lay = 1 then 4 else if r.lay = 2 then 1 else 0

/-- Bytes of a row (R38, R40). -/
def RowFmt.bytes (r : RowFmt) : Nat :=
  if r.lay = 0 then r.elems * typeWidth r.fmt / 8 else (r.elems + r.block - 1) / r.block * (r.data + r.scale)

/-- A type goes with its layout. -/
def RowFmt.ok (r : RowFmt) : Bool :=
  decide (1 ≤ r.elems) && decide (r.elems ≤ 4096) &&
  ((r.lay == 0 && [0, 1, 2, 8].contains r.fmt) || (r.lay == 1 && r.fmt == 12) || (r.lay == 2 && [3, 4, 5].contains r.fmt))

/-- Bits [w(i + 1) - 1 : wi] of bytes. -/
def elementAt (b : List Byte) (off w i : Nat) : Nat := bits (leNat ((b.drop (off + w * i / 8)).take (w / 8 + 1))) (w * i % 8 + w - 1) (w * i % 8)

/-- The value of element `j` of a row; with `one` the scales read as 1.0. -/
def RowFmt.value (r : RowFmt) (b : List Byte) (one : Bool) (j : Nat) : Num :=
  let w := typeWidth r.fmt
  let off := j / r.block * (r.data + r.scale)
  let code := if r.lay = 0 then elementAt b 0 w j else elementAt b off w (j % r.block)
  let sc := fieldAt b (off + r.data) r.scale
  match tyOf r.fmt with
  | .fp f => if r.lay = 2 ∧ one = false then (mxValue f sc code).1 else f.num code
  | .int t => if r.lay = 1 ∧ one = false then (lqValue sc code).1 else ofInt (t.int code)

/-- A row from the values of its elements, with RNE and NSAT; and the flags (17_piers R373). -/
def RowFmt.encode (r : RowFmt) (xs : List Num) : List Byte × BitVec 8 :=
  let w := typeWidth r.fmt
  match tyOf r.fmt with
  | .fp f =>
    if r.lay = 0 then
      let es := xs.map fun x => roundTo f {} (.num x)
      (leBytes (es.length * w / 8) (packElems w (es.map (·.1))), es.foldl (fun (g : BitVec 8) e => g ||| e.2) 0)
    else
      let qs := (blocks 32 0 (xs.length / 32) (xs.map some)).map fun p => quantMx r.fmt f (fun _ => {}) 0 p.2
      (qs.flatMap fun q => leBytes r.data (packElems w (q.elems.map (·.1))) ++ leBytes 1 q.scale,
       qs.foldl (fun (g : BitVec 8) q => q.elems.foldl (fun (h : BitVec 8) e => h ||| e.2) (g ||| q.fl)) 0)
  | .int t =>
    if r.lay = 0 then
      let es := xs.map fun x => roundToInt t {} false (.num x)
      (leBytes (es.length * w / 8) (packElems w (es.map (·.1))), es.foldl (fun (g : BitVec 8) e => g ||| e.2) 0)
    else
      let qs := (blocks 64 0 (xs.length / 64) (xs.map some)).map fun p => quantLq p.2
      (qs.flatMap fun q => leBytes r.data (packElems 8 (q.elems.map (·.1))) ++ leBytes 4 q.scale,
       qs.foldl (fun (g : BitVec 8) q => q.elems.foldl (fun (h : BitVec 8) e => h ||| e.2) (g ||| q.fl)) 0)

/-! ### Pooling (R59, R60) -/

/-- An 8-bit exponent field read as signed. -/
def signed8 (x : Nat) : Int := (IntFmt.mk 8 true).int x

/-- A PF64 exponent in its range (02_numbers R42). -/
def pfOk (e : Int) : Bool := decide (-96 ≤ e) && decide (e ≤ 31)

/-- INT64. -/
def int64 : IntFmt := ⟨64, true⟩

/-- One term rounded to PF64 with exponent `e` (02_numbers R59): none for NaN; and whether it was clamped. The rounding sets no NX (log 111). -/
def pfTerm (e : Int) (t : Num) : Option Int × Bool :=
  match t with
  | .nan _ => (none, false)
  | .inf neg => (some (if neg then int64.lo else int64.hi), true)
  | .fin neg m x =>
    match roundInteger {} (.num (.fin neg m (x - e))) with
    | some (n, _) => if 2 ^ 63 - 1 < n.natAbs then (some (int64.sat n).1, true) else (some n, false)
    | none => (none, false)

/-- The sum or mean of a bag's terms (R59): mode 0 or 1. -/
def pfSum (mode : Nat) (e : Int) (ts : List Num) : Nat × BitVec 8 :=
  let qs := ts.map (pfTerm e)
  let acc := qs.foldl (fun (t : Int) q => t + q.1.getD 0) 0
  let (s, clamped) := int64.sat acc
  let fl := (if clamped || qs.any (·.2) then fPOOLSAT else 0) ||| (if qs.any (·.1.isNone) then fNV else 0)
  if qs.any (·.1.isNone) then (fp32.nan, fl)
  else if ts.isEmpty ∨ s = 0 then (0, fl)
  else
    let r := roundTo fp32 {} (if mode = 0 then .num (.fin (decide (s < 0)) s.natAbs e) else .mag (decide (s < 0)) (magRatio s.natAbs ts.length e))
    (r.1, fl ||| r.2)

/-- The maximum of a bag's terms (R60). -/
def pfMax (ts : List Num) : Nat × BitVec 8 :=
  if ts.any Num.isNaN then (fp32.nan, fNV)
  else
    match ts with
    | [] => (0, 0)
    | t :: r => roundTo fp32 {} (.num (r.foldl (fun a b => if belowNum a b then b else a) t))

/-- One pooled element, FP32: mode 0 sum, 1 mean, 2 max. -/
def poolElement (mode : Nat) (e : Int) (ts : List Num) : Nat × BitVec 8 := if mode = 2 then pfMax ts else pfSum mode e ts

/-- A contributing row: its weight, and its bytes, none for an index outside the table, whose elements are +0. -/
abbrev PoolRow := Num × Option (List Byte)

/-- The weighted terms of element `j` over rows. -/
def poolTerms (r : RowFmt) (one : Bool) (j : Nat) (rows : List PoolRow) : List Num :=
  rows.map fun p => match p.2 with
    | some b => (mulNum p.1 (r.value b one j)).1
    | none => .fin false 0 0

/-- The pooled elements of a bag. -/
def poolBag (r : RowFmt) (one : Bool) (mode : Nat) (e : Int) (rows : List PoolRow) : List (Nat × BitVec 8) :=
  (List.range r.elems).map fun j => poolElement mode e (poolTerms r one j rows)

/-- The number one, the weight where there is none. -/
def oneNum : Num := .fin false 1 0

end Sys2Proof.Machine
end

