-- ==== Sys2Proof/Machine/Matrix.lean ====
section
/-! DEFINITION. Matrix descriptors, the reading of operands, and the row orders of M (14_matrix R293-R303, R309, R312, R313). -/

namespace Sys2Proof.Machine

/-! ### Descriptors (R294) -/

/-- A matrix descriptor's fields. -/
structure Mat where
  base : Nat
  rs : Int
  rows : Nat
  cols : Nat
  kind : Nat
  fmt : Nat
  tr : Bool
  mx : Bool
  oc : Nat
deriving DecidableEq, Repr

/-- Bits [hi : lo] of word `w` of a descriptor. -/
def mdField (d : BitVec 256) (w hi lo : Nat) : Nat := bits (bits d.toNat (64 * w + 63) (64 * w)) hi lo

/-- The fields of a descriptor's words. -/
def matOf (d : BitVec 256) : Mat :=
  { base := mdField d 0 56 0, rs := signed32 (mdField d 1 31 0), rows := mdField d 1 47 32, cols := mdField d 1 63 48,
    kind := mdField d 2 1 0, fmt := mdField d 2 7 4, tr := bit (mdField d 2 8 8) 0, mx := bit (mdField d 2 9 9) 0,
    oc := mdField d 2 15 12 }

/-- A reserved field is not zero. -/
def matReserved (d : BitVec 256) : Bool :=
  mdField d 0 63 57 != 0 || mdField d 2 3 2 != 0 || mdField d 2 11 10 != 0 || mdField d 2 63 16 != 0 || mdField d 3 63 0 != 0

/-- Roles of descriptors (R297). -/
inductive Role where
  | dense | gathered | gradient | sparse | store | load | scales | bitmap | index
deriving DecidableEq, Repr

/-- KIND of a role. -/
def Role.kind : Role → Nat
  | .scales => 1 | .bitmap => 2 | .index => 3 | _ => 0

/-- Whether a role accepts FMT and MX. -/
def Role.fmtOk (r : Role) (f : Nat) (mx : Bool) : Bool :=
  let operand := (decide (1 ≤ f) && decide (f ≤ 5)) || (decide (8 ≤ f) && decide (f ≤ 12))
  match r with
  | .dense => operand && (!mx || (decide (3 ≤ f) && decide (f ≤ 5)))
  | .gathered | .gradient => operand && !mx
  | .sparse => [1, 2, 3, 4, 8, 10].contains f && !mx
  | .store => [0, 1, 2, 3, 4, 6].contains f && !mx
  | .load => [0, 6].contains f && !mx
  | .scales | .bitmap => true
  | .index => f == 6 || f == 7

/-- Whether a role accepts TR = 1 for a format (R295). -/
def Role.trOk (r : Role) (f : Nat) : Bool :=
  match r with
  | .dense | .gradient => f != 12 && decide (8 ≤ typeWidth f)
  | .store | .load | .scales | .bitmap | .index => true
  | .gathered | .sparse => false

/-- A span of bytes in the vault window. -/
def inVaults (lo hi : Int) : Bool := decide ((vaultWindow : Int) ≤ lo) && decide (hi ≤ (vaultWindow + 0x40000000 : Nat))

/-- The gathered operand's elements and the index array lie in the vault window (R297). -/
def Mat.inWindow (d : Mat) (r : Role) : Bool :=
  match r with
  | .index => inVaults d.base (d.base + d.rows * (typeWidth d.fmt / 8) : Nat)
  | _ =>
    if d.rows = 0 ∨ d.cols = 0 then true
    else
      let ext := ((d.rows : Int) - 1) * d.rs
      let row := if d.fmt = 12 then 68 * ((d.cols + 63) / 64) else (d.cols * typeWidth d.fmt + 7) / 8
      inVaults (d.base + min 0 ext) (d.base + max 0 ext + row)

/-- The code with which a descriptor breaks its role, 0 when it does not (R298): 6, 1, 2, 4 and 5 in that order. -/
def roleCode (d : BitVec 256) (r : Role) : Nat :=
  let m := matOf d
  if matReserved d then 6
  else if m.kind ≠ r.kind then 1
  else if !r.fmtOk m.fmt m.mx then 2
  else if m.tr && !r.trOk m.fmt then 4
  else if (r = .gathered ∨ r = .index) ∧ m.inWindow r = false then 5
  else 0

/-- A descriptor as an order checks it (R298). -/
def State.useMd (s : State) (n : Nat) (r : Role) : Except Stop Mat :=
  let d := s.iss.oldMd.get 0 n
  let c := roleCode d r
  if c = 0 then .ok (matOf d) else raise .permission (23 + c * 256 + n * 65536)

/-- The float class (R297). -/
def floatClass (f : Nat) : Bool := (decide (1 ≤ f) && decide (f ≤ 5)) || f == 12

/-- Formats of different classes (R298 code 3). -/
def sameClass (f g n : Nat) : Except Stop Unit :=
  if floatClass f == floatClass g then .ok () else raise .permission (23 + 3 * 256 + n * 65536)

/-- The alignment of an operand (R295); sparse values do not use RSTRIDE (R296). -/
def Mat.aligned (d : Mat) (sparse : Bool) : Except Stop Unit :=
  let a := if d.fmt = 12 then 4 else max (typeWidth d.fmt / 8) 1
  if d.base % a ≠ 0 then raise .misalignment 0 d.base
  else if !sparse && decide (d.rs % (a : Int) ≠ 0) then raise .misalignment 0 (((d.base : Int) + d.rs) % (2 ^ 64 : Nat)).toNat
  else .ok ()

/-! ### Elements of an operand (R295, R296) -/

/-- Address of a byte of a memory row. -/
def Mat.at_ (d : Mat) (row : Nat) (off : Nat) : Nat := (((d.base : Int) + row * d.rs + off) % (2 ^ 64 : Nat)).toNat

/-- Values of `n` bytes at distinct addresses. -/
def State.loadEach (s : State) (n : Nat) : List Nat → Except Stop (Map Nat Nat × State)
  | [] => .ok ([], s)
  | a :: r => do
    let (v, t) ← s.loadNat a n
    let (m, u) ← t.loadEach n r
    return ((a, v) :: m, u)

/-- Codes of the in-bounds elements (r, c0) to (r, c0 + m - 1) of a plain operand. -/
def State.plainCodes (s : State) (d : Mat) (r c0 m : Nat) : Except Stop (List Nat × State) :=
  let w := typeWidth d.fmt
  if m = 0 then .ok ([], s)
  else if d.tr then do
    let as_ := (List.range m).map fun i => d.at_ (c0 + i) (r * (w / 8))
    let (l, t) ← s.loadEach (w / 8) as_
    return (l.map (·.2), t)
  else do
    let (v, t) ← s.loadNat (d.at_ r (c0 * w / 8)) ((m * w + 7) / 8)
    return (elems w m v, t)

/-- Codes and scales of the in-bounds elements of a row of LQ8 blocks, block by block. -/
def State.blockCodes (s : State) (d : Mat) (r : Nat) : Nat → Nat → Nat → Except Stop (List (Nat × Nat) × State)
  | 0, _, _ => .ok ([], s)
  | fuel + 1, b, m =>
    if m = 0 then .ok ([], s)
    else do
      let k := min m 64
      let (v, t) ← s.loadNat (d.at_ r (68 * b)) k
      let (sc, t1) ← t.loadNat (d.at_ r (68 * b + 64)) 4
      let (l, t2) ← t1.blockCodes d r fuel (b + 1) (m - k)
      return ((elems 8 k v).map (fun q => (q, sc)) ++ l, t2)

/-- The address of the scale of an element (R296); `along`: the contraction runs along the operand's columns. -/
def scaleAt (b : Mat) (tr along : Bool) (r c : Nat) : Nat :=
  let row := if tr then c else r
  let col := if tr then r else c
  if along != tr then b.at_ row (col / 32) else b.at_ (row / 32) col

/-- Elements (r, c0) to (r, c0 + nc - 1) with their scales, none out of bounds (R295). -/
def State.rowCodes (s : State) (d : Mat) (b : Option Mat) (along : Bool) (r c0 nc : Nat) : Except Stop (List (Option (Nat × Nat)) × State) := do
  let m := if d.rows ≤ r then 0 else min nc (d.cols - c0)
  let pad := List.replicate (nc - m) (none : Option (Nat × Nat))
  if d.fmt = 12 then
    let (l, t) ← s.blockCodes d r (m / 64 + 1) (c0 / 64) m
    return (l.map some ++ pad, t)
  let (l, t) ← s.plainCodes d r c0 m
  match b with
  | none => return (l.map (fun x => some (x, 127)) ++ pad, t)
  | some e =>
    let as_ := (List.range m).map fun i => scaleAt e d.tr along r (c0 + i)
    let (sc, u) ← t.loadEach 1 as_.eraseDups
    return (List.zipWith (fun x a => some (x, sc.get 127 a)) l as_ ++ pad, u)

/-- The exact value of an element from its type, microscaling flag, code and scale. -/
def elementValue (fmt : Nat) (mx : Bool) (code scale : Nat) : Num :=
  if fmt = 12 then (lqValue scale code).1
  else match tyOf fmt with
    | .fp f => if mx then (mxValue f scale code).1 else f.num code
    | .int i => ofInt (i.int code)

/-- The values of a row; +0 out of bounds (02_numbers R63). -/
def rowValues (d : Mat) (l : List (Option (Nat × Nat))) : List Num :=
  l.map fun e => match e with
    | some (c, sc) => elementValue d.fmt d.mx c sc
    | none => .fin false 0 0

/-! ### Packed values under a bitmap (R296) -/

/-- Bits of the in-bounds columns of a bitmap line. -/
def State.bitLine (s : State) (d b : Mat) (r : Nat) : Except Stop (Nat × State) :=
  if d.rows ≤ r ∨ d.cols = 0 then .ok (0, s)
  else do
    let (v, t) ← s.loadNat (b.at_ r 0) ((d.cols + 7) / 8)
    return (v % 2 ^ d.cols, t)

/-- Lines 0 to n - 1. -/
def State.bitLines (s : State) (d b : Mat) : Nat → Except Stop (List Nat × State)
  | 0 => .ok ([], s)
  | n + 1 => do
    let (l, t) ← s.bitLines d b n
    let (v, u) ← t.bitLine d b n
    return (l ++ [v], u)

/-- How many ones a number below 2^n has. -/
def countOnes (n v : Nat) : Nat := (elems 1 n v).foldl (· + ·) 0

/-- p of element (r, c): the present elements before it. -/
def packedIndex (d : Mat) (lines : List Nat) (r c : Nat) : Nat :=
  ((lines.take r).map (countOnes d.cols)).sum + countOnes c (lines.getD r 0)

/-- The value code of a present element. -/
def State.packedCode (s : State) (d : Mat) (lines : List Nat) (r c : Nat) : Except Stop (Nat × State) :=
  s.loadNat ((d.base + packedIndex d lines r c * (typeWidth d.fmt / 8)) % 2 ^ 64) (typeWidth d.fmt / 8)

/-- The present elements of line r among columns below `n`, with their codes. -/
def State.packedRow (s : State) (d : Mat) (lines : List Nat) (r : Nat) : Nat → Except Stop (List (Nat × Nat) × State)
  | 0 => .ok ([], s)
  | n + 1 => do
    let (l, t) ← s.packedRow d lines r n
    if bit (lines.getD r 0) n then
      let (v, u) ← t.packedCode d lines r n
      return (l ++ [(n, v)], u)
    return (l, t)

/-! ### The weight register (R293) -/

/-- A weight as the register keeps it. -/
def weightOf (fmt : Nat) (mx : Bool) (code scale : Nat) : Nat := code + fmt * 2 ^ 16 + (if mx then 2 ^ 20 else 0) + scale * 2 ^ 32

/-- The value of a weight. -/
def weightValue (x : Nat) : Num := elementValue (bits x 19 16) (bit x 20) (bits x 15 0) (bits x 63 32)


/-- KW of a format (R297). -/
def kwOf (fmt : Nat) : Nat := if typeWidth fmt = 16 then 64 else if typeWidth fmt = 8 then 128 else 256

/-- K and g of two formats (R297; 02_numbers R54). -/
def contraction (f g : Nat) : Nat := if typeWidth f = 16 ∨ typeWidth g = 16 then 64 else if typeWidth f = 8 ∨ typeWidth g = 8 then 128 else 256
def groupOf (f g : Nat) : Nat := if typeWidth f = 16 ∨ typeWidth g = 16 then 1 else if typeWidth f = 8 ∨ typeWidth g = 8 then 2 else 4

/-- Row k of W as an order with contraction length `len` reads it: zero at or above KW (R297). -/
def State.weightRow (s : State) (len k : Nat) : List Nat :=
  if k < min len (kwOf s.myCore.wfmt) then elems 64 64 (s.myCore.w.get 0 k).toNat else List.replicate 64 0

/-- Bitmap row k. -/
def State.weightBits (s : State) (len k : Nat) : Nat := if k < min len (kwOf s.myCore.wfmt) then (s.myCore.wbit.get 0 k).toNat else 0

/-- Write row k of W. -/
def State.setWeightRow (s : State) (k : Nat) (l : List Nat) (present : List Bool) : State :=
  let c := s.myCore
  s.setMyCore { c with w := c.w.set k (.ofNat 4096 (packElems 64 l)),
                       wbit := c.wbit.set k (.ofNat 64 (packElems 1 (present.map fun b => if b then 1 else 0))),
                       wload := c.wload.map fun x => { x with row := k + 1 } }

/-- Row k of a dense weight load (R304): the contraction runs along memory rows for TR 0, along the operand's rows. -/
def State.loadWeightRow (s : State) (d : Mat) (b : Option Mat) (k : Nat) : Except Stop State := do
  let (l, t) ← s.rowCodes d b false k 0 64
  let ws := l.map fun e => match e with
    | some (c, sc) => weightOf d.fmt d.mx c sc
    | none => 0
  return t.setWeightRow k ws ((rowValues d l).map fun x => !x.isZero)

/-- The elements of row k of a sparse weight load, line by line. -/
def State.sparseWeights (s : State) (d : Mat) (lines : List Nat) (k : Nat) : Nat → Except Stop (List (Option Nat) × State)
  | 0 => .ok ([], s)
  | n + 1 => do
    let (l, t) ← s.sparseWeights d lines k n
    if bit (lines.getD n 0) k then
      let (v, u) ← t.packedCode d lines n k
      return (l ++ [some v], u)
    return (l ++ [none], t)

/-- Row k of a sparse weight load (R304): 64 lines, one for each column. -/
def State.loadSparseRow (s : State) (d b : Mat) (k : Nat) : Except Stop State := do
  let (lines, t) ← s.bitLines d b 64
  let (l, u) ← t.sparseWeights d lines k 64
  return u.setWeightRow k (l.map fun e => match e with
    | some c => weightOf d.fmt false c 127
    | none => 0) (l.map Option.isSome)

/-! ### Row progress (R301, R302) -/

/-- MROWP of a row order of this step. -/
def State.rowMark (s : State) (r : Nat) (pend : Bool) : State :=
  s.setMyCore { s.myCore with mrowp := .ofNat 64 (r % 2 ^ 16 + s.iss.here.toNat % 2048 * 2 ^ 16 + s.iss.slot % 2 * 2 ^ 27 +
    (if pend then 2 ^ 31 else 0)) }

/-- RowStart(): the row to go on from, and MROWP with PEND 0; an order that waited goes on where it was. -/
def State.rowStart (s : State) : Nat × State :=
  match s.resumed .rows with
  | some r => (r.a, s)
  | none =>
    let p := s.myCore.mrowp.toNat
    let mine := bit p 31 && bits p 26 16 == s.iss.here.toNat % 2048 && bits p 27 27 == s.iss.slot
    (if mine then bits p 15 0 else 0, s.setMyCore { s.myCore with mrowp := .ofNat 64 (p % 2 ^ 31) })

/-- Row r, or the group of rows at it, one in each turn of M, so that other agents act between rows and a hold or a pre-emption finds the order
at a row boundary (R101, R302): a trap stops the order through Stop(r), a wait leaves it there (R313). -/
def runRow (f : State → Nat → Except Stop State) (stride n r : Nat) (s : State) : Except Stop State :=
  if n ≤ r then .ok s
  else match f s r with
    | .ok t => if n ≤ r + stride then .ok t else .error (.rest (t.setResume (some (t.resumeRec .rows (r + stride)))))
    | .error (.trap t _) => .error (.trap t (some ((s.rowMark r true).setResume none)))
    | .error (.wait k o c _) => .error (.wait k o c (some (s.setResume (some (s.resumeRec .rows r)))))
    | .error (.rest t) => .error (.rest t)

/-- Done(n). -/
def State.rowsDone (s : State) (n : Nat) : State := (s.rowMark n false).setResume none

/-- A turn of a row order, from RowStart to its row, and to Done after the last. -/
def State.rowOrder (s : State) (stride n : Nat) (f : State → Nat → Except Stop State) : Except Stop State := do
  let (r0, t) := s.rowStart
  let u ← runRow f stride n (r0 / stride * stride) t
  return u.rowsDone n

/-- The descriptors as the order found them at its issue (R294, R312); one that goes on keeps them. -/
def State.holdMd (s : State) : State :=
  if (s.resumed .rows).isSome then s else { s with iss := { s.iss with oldMd := s.myCore.md } }

/-! ### Sums (R54-R56, R299) -/

/-- Sublists of `g` elements. -/
def chunks {α : Type} (g : Nat) : Nat → List α → List (List α)
  | 0, _ => []
  | n + 1, l => if l.isEmpty then [] else l.take g :: chunks g n (l.drop g)

/-- An exact product of float elements as a real number: a zero has no sign (R54; 14_matrix R308). A NaN one sets NV where it enters a sum. -/
def product (a b : Num) : Num := let p := (mulNum a b).1; if p.isNaN then .nan true else if p.isZero then .fin false 0 0 else p

/-- Acc over groups of products of a float order, from the bits of an accumulator element. -/
def accFloat (t : Nat) (ps : List (List Num)) : Elem :=
  ps.foldl (fun (e : Elem) g =>
    let (x, f) := sumNum 0 (fp32.num e.1 :: g)
    let (c, h) := roundTo fp32 {} (.num x)
    (c, e.2 ||| f ||| h)) (t, 0)

/-- The same of an integer order: every addition clamps (R55). -/
def accInt (t : Nat) (ps : List (List Int)) : Elem :=
  let i : IntFmt := ⟨32, true⟩
  let (v, f) := ps.foldl (fun (e : Int × BitVec 8) g =>
    let (y, c) := i.sat (e.1 + g.sum)
    (y, if c then e.2 ||| fSAT else e.2)) (i.int t, 0)
  (i.wrap v, f)

/-- An integer element's value. -/
def numInt : Num → Int
  | .fin n m _ => if n then -(m : Int) else m
  | _ => 0

/-- The integer that a real number is. -/
def Num.integer : Num → Option Int
  | .fin n m e =>
    if 0 ≤ e then some (signedAt n m e 0)
    else if m % 2 ^ (-e).toNat = 0 then some ((if n then -1 else 1) * ((m / 2 ^ (-e).toNat : Nat) : Int)) else none
  | _ => none

/-- The limit of INT32 that an integer and a real number that is none pass together; none where they stay between the limits, and for a NaN. -/
def passedLimit (t : Int) : Num → Option Int
  | .nan _ => none
  | .inf n => some (if n then -(2 ^ 31) else 2 ^ 31 - 1)
  | .fin n m e =>
    let u : Int := 2 ^ (-e).toNat
    let v := t * u + (if n then -(m : Int) else m)
    if (2 ^ 31 - 1) * u < v then some (2 ^ 31 - 1) else if v < -(2 ^ 31) * u then some (-(2 ^ 31)) else none

/-- Acc of an integer order with the sum of a group, of exact reals (R55, R299). Weights of a float type may give a sum that is no integer: past a limit
it clamps all the same, and between the limits the spec states no result (log 13). -/
def addGroup (t : Int) (ps : List (Num × Nat)) : Int × Bool :=
  let x := (sumNum 0 (ps.map fun p => product p.1 (weightValue p.2))).1
  let i : IntFmt := ⟨32, true⟩
  match x.integer, passedLimit t x with
  | some n, _ => i.sat (t + n)
  | none, some l => (l, true)
  | none, none => i.sat (Config.foreignWeight t (ps.map fun p => (numInt p.1, p.2)))

/-- Acc over the groups of an integer order. -/
def accGroups (t : Nat) (gs : List (List (Num × Nat))) : Elem :=
  let i : IntFmt := ⟨32, true⟩
  let (v, f) := gs.foldl (fun (e : Int × BitVec 8) g =>
    let (y, c) := addGroup e.1 g
    (y, if c then e.2 ||| fSAT else e.2)) (i.int t, 0)
  (i.wrap v, f)

/-- An accumulator element after the products of pairs of an operand value and a weight, in groups of g. -/
def accElement (isF : Bool) (g t : Nat) (ps : List (Num × Nat)) : Elem :=
  if isF then accFloat t (chunks g ps.length (ps.map fun p => product p.1 (weightValue p.2)))
  else accGroups t (chunks g ps.length ps)

/-! ### Accumulators (R293, R309) -/

/-- A row of an accumulator tile. -/
def State.accRow (s : State) (acc r : Nat) : List Nat := elems 32 64 (s.myCore.acc.get 0 (acc, r)).toNat

/-- Write a row. -/
def State.setAccRow (s : State) (acc r : Nat) (l : List Nat) : State :=
  s.setMyCore { s.myCore with acc := s.myCore.acc.set (acc, r) (.ofNat 2048 (packElems 32 l)) }

/-- Write rows from r on. -/
def State.setAccRows (s : State) (acc r : Nat) : List (List Nat) → State
  | [] => s
  | l :: rest => (s.setAccRow acc r l).setAccRows acc (r + 1) rest

/-- RowCheck on rows of 64 elements of a type (R309): the non-finite trap with its coordinates, or their flags set. -/
def State.rowCheck (s : State) (ty : Nat) (r : Nat) (rows : List (List Elem)) (fmt : Word) : Except Stop State :=
  let bad := rows.flatten.map fun e => nonFinite (tyOf ty) e.1
  if s.nfOn && (firstBad s.nfNaNOnly bad).isSome then
    let k := (firstBad s.nfNaNOnly bad).getD 0
    .error (.trap { cause := .nonFinite, tile := .ofNat 64 (r + k / 64 + k % 64 * 2 ^ 16), fmt := fmt } none)
  else .ok (s.flag ((rows.flatten.foldl (fun (f : BitVec 8) e => f ||| e.2) 0) ||| (if bad.any Option.isSome then fNF else 0)))

/-- RowCheck and the write of a row of an accumulating order. -/
def State.putRow (s : State) (isF : Bool) (acc r : Nat) (out : List Elem) (fmt : Word) : Except Stop State := do
  let t ← s.rowCheck (if isF then 0 else 6) r [out] fmt
  return t.setAccRow acc r (out.map (·.1))

end Sys2Proof.Machine
end

