-- ==== Sys2Proof/Machine/MatrixOrders.lean ====
section
/-! DEFINITION. The orders of M, majors 0x30 to 0x35 (14_matrix R304-R311). -/

namespace Sys2Proof.Machine

/-- The scale descriptor of an MX operand; db is ignored otherwise (R297). -/
def State.scaleMd (s : State) (d : Mat) (db : BitVec 4) : Except Stop (Option Mat) :=
  if d.mx then (s.useMd db.toNat .scales).map some else .ok none

/-! ### Weight loads (R303, R304) -/

/-- A weight load issues: WFMT, WMX and the load record change before row 0 is read. -/
def State.beginLoad (s : State) (d : Mat) (mx : Bool) (da db : BitVec 4) (sparse : Bool) : State :=
  if (s.resumed .rows).isSome then s
  else s.setMyCore { s.myCore with wfmt := d.fmt, wmx := if mx then 1 else 0,
                                   wload := some { a := s.iss.oldMd.get 0 da.toNat, b := s.iss.oldMd.get 0 db.toNat, sparse := sparse,
                                                   row := s.rowStart.1, step := s.iss.here.toNat % 2048, slot := s.iss.slot % 2 } }

def execMwld (da db : BitVec 4) (s : State) : Host.Outcome State Fault Refusal :=
  issue s fun s0 => do
    let s := s0.holdMd
    let d ← s.useMd da.toNat .dense
    let b ← s.scaleMd d db
    d.aligned false
    (s.beginLoad d d.mx da db false).rowOrder 1 (kwOf d.fmt) fun t k => t.loadWeightRow d b k

def execMwsp (da db : BitVec 4) (s : State) : Host.Outcome State Fault Refusal :=
  issue s fun s0 => do
    let s := s0.holdMd
    let d ← s.useMd da.toNat .sparse
    let b ← s.useMd db.toNat .bitmap
    d.aligned true
    (s.beginLoad d false da db true).rowOrder 1 (kwOf d.fmt) fun t k => t.loadSparseRow d b k

/-- The rows of the weight register at and above a count hold undefined values (R303). -/
def State.freeWeights (s : State) (row : Nat) : State :=
  (List.range (256 - row)).foldl (fun (t : State) i =>
    let (v, u) := t.freeBits 4096
    let (b, x) := u.freeBits 64
    let k := x.myCore
    x.setMyCore { k with w := k.w.set (row + i) (.ofNat 4096 v), wbit := k.wbit.set (row + i) (.ofNat 64 b) }) s

/-- The row count of a load record (R303): KW of a completed load, MROWP.ROW of a pending one. A load that was left neither complete nor pending
keeps the rows that it wrote. -/
def Core.loadCount (k : Core) (l : WLoad) : Nat :=
  let kw := kwOf (matOf l.a).fmt
  let p := k.mrowp.toNat
  if kw ≤ l.row then kw
  else if bit p 31 ∧ bits p 26 16 = l.step ∧ bits p 27 27 = l.slot then min kw (bits p 15 0)
  else l.row

/-- The weight rows of the load record read again before M's first step after a restore (R303); a fault leaves the record for another try. -/
def State.reloadWeights (s : State) : Except Stop State := do
  match s.myCore.wload with
  | none => return s.setMyCore { s.myCore with wreload := false }
  | some l =>
    let d := matOf l.a
    let row := fun (t : State) (k : Nat) =>
      if l.sparse then t.loadSparseRow d (matOf l.b) k else t.loadWeightRow d (if d.mx then some (matOf l.b) else none) k
    let n := s.myCore.loadCount l
    let u ← (List.range n).foldlM row (s.setMyCore { s.myCore with w := [], wbit := [] })
    let v := u.freeWeights n
    return v.setMyCore { v.myCore with wload := some { l with row := n }, wreload := false }

/-! ### Streaming orders (R305-R308) -/

/-- TFMT of a streaming order (R309). -/
def streamFmt (fa fb : Nat) : Word := fmtOf fa fb (if floatClass fa then 0 else 6)

/-- The accumulator bits that a row starts from: +0 under Z. -/
def State.startRow (s : State) (z : Bool) (acc r : Nat) : List Nat := if z then List.replicate 64 0 else s.accRow acc r

/-- The columns of rows of equal length. -/
def columns (rows : List (List Nat)) : List (List Nat) := (List.range 64).map fun n => rows.map fun r => r.getD n 0

/-- A dense row: each output element sums the operand row against its own list of weights. -/
def State.denseRow (s : State) (acc m g : Nat) (z : Bool) (d : Mat) (a : List Num) (ws : List (List Nat)) : Except Stop State :=
  s.putRow (floatClass d.fmt) acc m
    (List.zipWith (fun t w => accElement (floatClass d.fmt) g t (List.zip a w)) (s.startRow z acc m) ws) (streamFmt d.fmt s.myCore.wfmt)

def execMmf (acc da db : BitVec 4) (z : BitVec 1) (s : State) : Host.Outcome State Fault Refusal :=
  issue s fun s0 => do
    let s := s0.holdMd
    if s.noAcc acc then limitTrap s
    let d ← s.useMd da.toNat .dense
    let b ← s.scaleMd d db
    let wf := s.myCore.wfmt
    sameClass d.fmt wf da.toNat
    d.aligned false
    let len := contraction d.fmt wf
    let ws := columns ((List.range len).map fun k => s.weightRow len k)
    s.rowOrder 1 (min 64 d.rows) fun t m => do
      let (l, u) ← t.rowCodes d b true m 0 len
      u.denseRow acc.toNat m (groupOf d.fmt wf) (z == 1#1) d (rowValues d l) ws

/-- The operand row that an index names: a zero row where the index lies outside the operand (R305). -/
def State.gatheredRow (s : State) (d x : Mat) (len m : Nat) : Except Stop (List Num × State) := do
  let n := typeWidth x.fmt / 8
  let (v, t) ← s.loadNat ((x.base + m * n) % 2 ^ 64) n
  let i := (IntFmt.mk (8 * n) true).int v
  if i < 0 ∨ (d.rows : Int) ≤ i then return (List.replicate len (.fin false 0 0), t)
  let (l, u) ← t.rowCodes d none true i.toNat 0 len
  return (rowValues d l, u)

def execMmfg (acc da db : BitVec 4) (z : BitVec 1) (s : State) : Host.Outcome State Fault Refusal :=
  issue s fun s0 => do
    let s := s0.holdMd
    if s.noAcc acc then limitTrap s
    let d ← s.useMd da.toNat .gathered
    let x ← s.useMd db.toNat .index
    let wf := s.myCore.wfmt
    sameClass d.fmt wf da.toNat
    d.aligned false
    let len := contraction d.fmt wf
    let ws := columns ((List.range len).map fun k => s.weightRow len k)
    s.rowOrder 1 (min 64 x.rows) fun t m => do
      let (a, u) ← t.gatheredRow d x len m
      u.denseRow acc.toNat m (groupOf d.fmt wf) (z == 1#1) d a ws

def execMmb (acc da db : BitVec 4) (z : BitVec 1) (ks : BitVec 2) (s : State) : Host.Outcome State Fault Refusal :=
  issue s fun s0 => do
    let s := s0.holdMd
    if s.noAcc acc then limitTrap s
    let d ← s.useMd da.toNat .dense
    let b ← s.scaleMd d db
    let wf := s.myCore.wfmt
    sameClass d.fmt wf da.toNat
    d.aligned false
    let len := contraction d.fmt wf
    let ws := (List.range 64).map fun c => s.weightRow len (64 * ks.toNat + c)
    s.rowOrder 1 (min 64 d.rows) fun t m => do
      let (l, u) ← t.rowCodes d b true m 0 64
      u.denseRow acc.toNat m (groupOf d.fmt wf) (z == 1#1) d (rowValues d l) ws

/-- A sparse row: the products of the present elements whose weight is present, one at a time (R308). -/
def State.sparseRow (s : State) (acc m : Nat) (z : Bool) (d : Mat) (vals : List (Nat × Nat)) (w : Nat → Nat → Nat × Bool) : Except Stop State :=
  let out := List.zipWith (fun t n =>
    accElement (floatClass d.fmt) 1 t (vals.filterMap fun v =>
      let (x, p) := w v.1 n
      if p then some (elementValue d.fmt false v.2 127, x) else none)) (s.startRow z acc m) (List.range 64)
  s.putRow (floatClass d.fmt) acc m out (streamFmt d.fmt s.myCore.wfmt)

/-- The present operand elements of line m below column n. -/
def State.presentRow (s : State) (d b : Mat) (m n : Nat) : Except Stop (List (Nat × Nat) × State) := do
  let (lines, t) ← s.bitLines d b (m + 1)
  t.packedRow d lines m n

def execMmfs (acc da db : BitVec 4) (z : BitVec 1) (s : State) : Host.Outcome State Fault Refusal :=
  issue s fun s0 => do
    let s := s0.holdMd
    if s.noAcc acc then limitTrap s
    let d ← s.useMd da.toNat .sparse
    let b ← s.useMd db.toNat .bitmap
    let wf := s.myCore.wfmt
    sameClass d.fmt wf da.toNat
    d.aligned true
    let len := contraction d.fmt wf
    s.rowOrder 1 (min 64 d.rows) fun t m => do
      let (vals, u) ← t.presentRow d b m len
      u.sparseRow acc.toNat m (z == 1#1) d vals fun k n => ((u.weightRow len k).getD n 0, bit (u.weightBits len k) n)

def execMmbs (acc da db : BitVec 4) (z : BitVec 1) (ks : BitVec 2) (s : State) : Host.Outcome State Fault Refusal :=
  issue s fun s0 => do
    let s := s0.holdMd
    if s.noAcc acc then limitTrap s
    let d ← s.useMd da.toNat .sparse
    let b ← s.useMd db.toNat .bitmap
    let wf := s.myCore.wfmt
    sameClass d.fmt wf da.toNat
    d.aligned true
    let len := contraction d.fmt wf
    s.rowOrder 1 (min 64 d.rows) fun t m => do
      let (vals, u) ← t.presentRow d b m 64
      u.sparseRow acc.toNat m (z == 1#1) d vals fun n c =>
        ((u.weightRow len (64 * ks.toNat + c)).getD n 0, bit (u.weightBits len (64 * ks.toNat + c)) n)

/-- Rows m to m + k - 1 of an operand's columns [c0, c0 + 64). -/
def State.gradientRows (s : State) (d : Mat) (c0 : Nat) : Nat → Nat → Except Stop (List (List Num) × State)
  | 0, _ => .ok ([], s)
  | k + 1, m => do
    let (l, t) ← s.rowCodes d none true m c0 64
    let (r, u) ← t.gradientRows d c0 k (m + 1)
    return (rowValues d l :: r, u)

/-- The product of two operand elements, as a term of a float or of an integer sum. -/
def gradientElement (isF : Bool) (t : Nat) (ps : List (Num × Num)) : Elem :=
  if isF then accFloat t [ps.map fun p => product p.1 p.2] else accInt t [ps.map fun p => numInt p.1 * numInt p.2]

/-- mmw (R307): each group of rows is summed into the whole tile. -/
def execMmw (acc da db : BitVec 4) (z : BitVec 1) (ks : BitVec 2) (s : State) : Host.Outcome State Fault Refusal :=
  issue s fun s0 => do
    let s := s0.holdMd
    if s.noAcc acc then limitTrap s
    let d ← s.useMd da.toNat .gradient
    let e ← s.useMd db.toNat .gradient
    sameClass d.fmt e.fmt db.toNat
    d.aligned false
    e.aligned false
    let g := groupOf d.fmt e.fmt
    let isF := floatClass d.fmt
    let (r0, t0) := s.rowStart
    let fresh := (s.resumed .rows).isNone && decide (r0 / g = 0) && z == 1#1
    let t := if fresh then t0.setAccRows acc.toNat 0 (List.replicate 64 (List.replicate 64 0)) else t0
    let u ← runRow (fun t m => do
      let k := min g (d.rows - m)
      let (as_, t1) ← t.gradientRows d (64 * ks.toNat) k m
      let (gs, t2) ← t1.gradientRows e 0 k m
      let out := (List.range 64).map fun c => List.zipWith (fun x n =>
        gradientElement isF x (List.zipWith (fun a b => (a.getD c (.fin false 0 0), b.getD n (.fin false 0 0))) as_ gs))
        (t2.accRow acc.toNat c) (List.range 64)
      let t3 ← t2.rowCheck (if isF then 0 else 6) 0 out (streamFmt d.fmt e.fmt)
      return t3.setAccRows acc.toNat 0 (out.map fun l => l.map (·.1))) g d.rows (r0 / g * g) t
    return u.rowsDone d.rows

/-! ### Accumulator moves (R310) -/

/-- macz: not a row order. -/
def execMacz (acc : BitVec 4) (s : State) : Host.Outcome State Fault Refusal :=
  issue s fun s =>
    if s.noAcc acc then limitTrap s
    else .ok (s.setMyCore { s.myCore with acc := s.myCore.acc.filter fun (e : (Nat × Nat) × BitVec 2048) => e.1.1 != acc.toNat })

/-- The places of a row's elements in memory: address and bytes. -/
def rowPlaces (d : Mat) (r : Nat) (l : List Nat) : List (Nat × List Byte) :=
  let n := typeWidth d.fmt / 8
  if d.tr then List.zipWith (fun c x => (d.at_ c (r * n), leBytes n x)) (List.range l.length) l
  else if l.isEmpty then [] else [(d.at_ r 0, l.flatMap fun x => leBytes n x)]

/-- Every byte of a row's places can be written. -/
def State.checkPlaces (s : State) (l : List (Nat × List Byte)) : Except Stop Unit :=
  l.forM fun p => (s.reach .write p.1 p.2.length).map fun _ => ()

/-- Write a row's places. -/
def State.storePlaces (s : State) (oc : Nat) : List (Nat × List Byte) → Except Stop State
  | [] => .ok s
  | (a, b) :: r => do
    let t ← s.storeBytes a b (classBit oc)
    t.storePlaces oc r

/-- A row of macst. -/
def State.storeRow (s : State) (acc : Nat) (d : Mat) (sat : Bool) (rm : Nat) (r : Nat) : Except Stop State := do
  let row := (s.accRow acc r).take (min 64 d.cols)
  let out : List Elem := row.map fun e => match tyOf d.fmt with
    | .fp f => if d.fmt = 0 then (e, 0) else roundTo f { mode := rm, sat := sat } (.num (fp32.num e))
    | .int _ => (e, 0)
  let ps := rowPlaces d r (out.map (·.1))
  let t ← if 1 ≤ d.fmt ∧ d.fmt ≤ 4 then s.rowCheck d.fmt r [out] (fmtOf 0 0xF d.fmt) else .ok s
  t.checkPlaces ps
  t.storePlaces d.oc ps

/-- A write of this sequencer that is held behind a watermark, as the wait of the order that is to finish (R312, R313). -/
def State.awaitStores (s : State) (n : Nat) : Except Stop State :=
  let c := Cond.writesDone s.iss.who 0xFFFF
  if c.holds s then .ok s else .error (.wait 8 s.heldObj c (some (s.setResume (some (s.resumeRec .rows n)))))

/-- macst: it finishes when its writes are performed. -/
def execMacst (acc da : BitVec 4) (sat : BitVec 1) (rm : BitVec 3) (s : State) : Host.Outcome State Fault Refusal :=
  issue s fun s0 => do
    let s := s0.holdMd
    if s.noAcc acc then limitTrap s
    let d ← s.useMd da.toNat .store
    d.aligned false
    let n := min 64 d.rows
    let (r0, t) := s.rowStart
    let u ← runRow (fun t r => t.storeRow acc.toNat d (sat == 1#1) rm.toNat r) 1 n r0 t
    let v ← u.awaitStores n
    return v.rowsDone n

def execMacld (acc da : BitVec 4) (s : State) : Host.Outcome State Fault Refusal :=
  issue s fun s0 => do
    let s := s0.holdMd
    if s.noAcc acc then limitTrap s
    let d ← s.useMd da.toNat .load
    d.aligned false
    s.rowOrder 1 64 fun t r => do
      let (l, u) ← t.rowCodes d none true r 0 64
      return u.setAccRow acc.toNat r (l.map fun e => match e with
        | some (c, _) => c
        | none => 0)

/-! ### Descriptor orders (R311) -/

/-- A word of a descriptor replaced. -/
def setMdWord (d : BitVec 256) (w : Nat) (v : Word) : BitVec 256 :=
  .ofNat 256 (d.toNat - bits d.toNat (64 * w + 63) (64 * w) * 2 ^ (64 * w) + v.toNat * 2 ^ (64 * w))

def execMdset (da : BitVec 4) (word n : BitVec 2) (s : State) : Host.Outcome State Fault Refusal :=
  issue s fun s =>
    let k := s.myCore
    .ok (s.setMyCore { k with md := k.md.set da.toNat (setMdWord (k.md.get 0 da.toNat) word.toNat (s.lcSrc n.toNat)) })

/-- Descriptors from the bytes of memory. -/
def mdFrom (first : Nat) : Nat → List Byte → List (Nat × BitVec 256)
  | 0, _ => []
  | n + 1, b => (first, BitVec.ofNat 256 (leNat (b.take 32))) :: mdFrom (first + 1) n (b.drop 32)

def execMdld (da cm1 : BitVec 4) (n : BitVec 2) (s : State) : Host.Outcome State Fault Refusal :=
  issue s fun s => do
    let a := (s.lcSrc n.toNat).toNat
    if a % 32 ≠ 0 then raise .misalignment 0 a
    let (b, t) ← s.loadBytes a (32 * (cm1.toNat + 1))
    let k := t.myCore
    return t.setMyCore { k with md := (mdFrom da.toNat (cm1.toNat + 1) b).foldl (fun (m : Map Nat (BitVec 256)) e => m.set e.1 e.2) k.md }

def execMrpg (n : BitVec 2) (s : State) : Host.Outcome State Fault Refusal :=
  issue s fun s => .ok (s.wrLc n.toNat s.myCore.mrowp)

end Sys2Proof.Machine
end

