-- ==== Sys2Proof/Machine/Ferry.lean ====
section
/-! DEFINITION. The copy orders and the control orders of the ferries (15_ferry R325-R334). -/

namespace Sys2Proof.Machine

/-- A descriptor of the issuing sequencer as it stood before the step (R314; 03_encoding R66). -/
def State.fd (s : State) (k : BitVec 4) : BitVec 512 := s.iss.old.fd.get 0 k.toNat

/-- The same as the step has left it so far: an order that writes a part of a descriptor leaves the rest of it so. -/
def State.fdNow (s : State) (k : BitVec 4) : BitVec 512 := s.cur.fd.get 0 k.toNat

/-- The state with a descriptor replaced. -/
def State.setFd (s : State) (k : Nat) (d : BitVec 512) : State := s.setCur { s.cur with fd := s.cur.fd.set k d }

/-- The tag of a copy that starts (R320): its watermark on the first byte of its box. -/
def startTag (kind : CopyKind) (d : BitVec 512) (c : Copy) : Tag :=
  { addr := descField d 1 56 0, st := .landing, rd := kind = .zero, rep := false, qf := bit (descField d 7 16 16) 0, op := some (.copy c) }

/-- The tag of an empty copy (R325). -/
def emptyTag (d : BitVec 512) : Tag :=
  { addr := descField d 1 56 0, st := .landed, rd := true, rep := false, qf := bit (descField d 7 16 16) 0 }

/-- A copy order (R325): the checks of its descriptor, the wait for its tag and its landing slots, and its start; an fcpym adds its
receivers to DUE of its barrier (R330). -/
def State.copyOrder (s : State) (kind : CopyKind) (tag : BitVec 6) (fd oc : BitVec 4) : Except Stop State := do
  let d := s.fd fd
  let t := s.myTag tag.toNat
  s.checkCopy kind d fd.toNat
  let ready := Cond.copyReady t d
  if !ready.holds s then waitFor 6 tag.toNat ready
  if (destShape d).len = 0 then return (s.latch.setTag t (emptyTag d)).settleWrites
  let s1 ← if kind = .multicast then (do
      let (_, u) ← s.txUpdate s.mySlot (descField d 6 56 0) 0 (receiversOf d).length 0
      return u)
    else pure s
  let c : Copy := { kind := kind, desc := d, oc := oc.toNat, slot := s.mySlot, who := s.iss.who, step := s.iss.here, wslot := s.iss.slot,
                    order := s.nextOp, recv := (receiversOf d).map fun v => { vault := v, pos := 0 } }
  let s2 := { s1.latch with nextOp := s1.nextOp + 1 }.setTag t (startTag kind d c)
  return ((receiversOf d).foldl (fun (u : State) v => u.dropBox s.mySlot (receiverShape d v)) s2).settleWrites

/-- fcpy. -/
def execFcpy (tag : BitVec 6) (fd oc : BitVec 4) (s : State) : Host.Outcome State Fault Refusal := issue s fun s => s.copyOrder .plain tag fd oc

/-- fcpyz: every position lands +0. -/
def execFcpyz (tag : BitVec 6) (fd oc : BitVec 4) (s : State) : Host.Outcome State Fault Refusal := issue s fun s => s.copyOrder .zero tag fd oc

/-- fcpym: one source into the boxes of several vaults (R330). -/
def execFcpym (tag : BitVec 6) (fd oc : BitVec 4) (s : State) : Host.Outcome State Fault Refusal := issue s fun s => s.copyOrder .multicast tag fd oc

/-- fprf: a hint; it checks the reserved fields (R329). -/
def execFprf (fd _oc : BitVec 4) (s : State) : Host.Outcome State Fault Refusal :=
  issue s fun s => if descReservedZero (s.fd fd) then .ok s else descTrap 1 fd.toNat

/-- Whether an fwait returns (R332). -/
def fwaitCond (status : Bool) (t : TagRef) : Cond := if status then .tagSettled t else .tagAll [t]

/-- fwait: a cancelled copy traps, and the first fwait on a tag lost from a loaded image (04_context R110); status 1 for a frozen copy. -/
def execFwait (tag : BitVec 6) (sw : BitVec 1) (n : BitVec 2) (s : State) : Host.Outcome State Fault Refusal :=
  issue s fun s => do
    let t := s.myTag tag.toNat
    let c := fwaitCond (sw == 1#1) t
    s.waitUntil 6 tag.toNat c
    let g := s.tag t
    if g.lost then .error (.trap (mkTrap .abortedLanding 5) (some (s.setTag t { g with lost := false })))
    if g.st = .cancelled then raise .abortedLanding 3
    return if sw = 1#1 then s.wrLc n.toNat (if g.st = .frozen then 1 else 0) else s

/-- fwaitr: the read-done join. -/
def execFwaitr (tag : BitVec 6) (s : State) : Host.Outcome State Fault Refusal :=
  issue s fun s => do
    s.waitUntil 6 tag.toNat (.tagRead (s.myTag tag.toNat))
    return s

/-- A frozen copy or transfer goes on from its mark (R320). -/
def State.resumeTag (s : State) (t : TagRef) : State :=
  let g := s.tag t
  if g.st = .frozen ∧ g.trp = false then s.latch.setTag t { g with st := .landing } else s

/-- fres. -/
def execFres (tag : BitVec 6) (s : State) : Host.Outcome State Fault Refusal := issue s fun s => .ok (s.resumeTag (s.myTag tag.toNat))

/-- fwm: WMt as it stands, in slot 1 as slot 0 has left it (log 112). -/
def execFwm (tag : BitVec 6) (n : BitVec 2) (s : State) : Host.Outcome State Fault Refusal :=
  issue s fun s => .ok (s.wrLc n.toNat (s.tag (s.myTag tag.toNat)).word)

/-- Descriptors from the bytes of fdld. -/
def State.loadFds (s : State) (k : Nat) : Nat → List Byte → State
  | 0, _ => s
  | n + 1, b => State.loadFds (s.setFd k (.ofNat 512 (leNat (b.take 64)))) (k + 1) n (b.drop 64)

/-- fdld: consecutive descriptors from memory. -/
def execFdld (cm1 fd : BitVec 4) (n : BitVec 2) (s : State) : Host.Outcome State Fault Refusal :=
  issue s fun s => do
    let a := (s.lcSrc n.toNat).toNat
    if a % 64 ≠ 0 then raise .misalignment 0 a
    let (b, t) ← s.loadBytes a (64 * (cm1.toNat + 1))
    return t.loadFds fd.toNat (cm1.toNat + 1) b

/-- The descriptors of a copy card, read from ARGS before its first step opens (06_queue R148): the step's orders read them. -/
def State.loadArgs (s : State) (n : Nat) : Except Stop State := do
  let r := s.cseq n
  let a := card r.card 0x18 8
  if r.loaded then return s
  if a % 64 ≠ 0 then raise .misalignment 0 a
  let (b, t) ← s.loadBytes a 1024
  let u := (t.loadFds 0 16 b).setCseq n { r with loaded := true }
  return { u with iss := { u.iss with old := { u.iss.old with fd := u.cur.fd } } }

/-- A descriptor with one word replaced. -/
def putWord (d : BitVec 512) (w : Nat) (v : Word) : BitVec 512 :=
  .ofNat 512 (d.toNat - bits d.toNat (64 * w + 63) (64 * w) * 2 ^ (64 * w) + v.toNat * 2 ^ (64 * w))

/-- fdset: one word of a descriptor from a loop register. -/
def execFdset (word : BitVec 3) (fd : BitVec 4) (n : BitVec 2) (s : State) : Host.Outcome State Fault Refusal :=
  issue s fun s => .ok (s.setFd fd.toNat (putWord (s.fdNow fd) word.toNat (s.lcSrc n.toNat)))

/-- What a sequencer reads before its first step: M of a restored core its weights (14_matrix R303), a copy sequencer its descriptors
(06_queue R148). -/
def State.firstLoads (s : State) : Except Stop State :=
  match s.iss.who with
  | .seq c q => if q = sqM ∧ (s.core c).wreload then s.reloadWeights else .ok s
  | .copy n => s.loadArgs n
  | .pier _ _ => .ok s

end Sys2Proof.Machine
end

