-- ==== Sys2Proof/Machine/Relief.lean ====
section
/-! DEFINITION. The passage of time, and the start of the conditions that relief waits for (05_kernel R120; 10_barrier R212;
12_scalar R261). -/

namespace Sys2Proof.Machine

/-- Whether a token queue of a core holds as many tokens as its depth (05_kernel R119). -/
def State.queueFull (s : State) (c n : Nat) : Bool :=
  let t := (s.core c).tokQ.get {} n
  decide (t.depth ≤ t.count)

/-- The kind of a sequencer's wait, 0 when it does not wait (05_kernel R117), or waits for what has come about; held sends wait for a full queue. -/
def State.waitKind (s : State) (a : Agent) : Nat :=
  match a, (s.seq a).run, (s.seq a).wait with
  | .seq c _, .blocked, some w =>
    if w.over s then 0
    else if (s.seq a).heldTok.isEmpty || (s.seq a).heldTok.any fun e => s.queueFull c e.1 then w.kind else 0
  | _, _, _ => 0

/-- Whether every sequencer of a core is stopped or blocked with a kind of a list. -/
def State.allWaiting (s : State) (c : Nat) (kinds : List Nat) : Bool :=
  (List.range 6).all fun q => decide ((s.seq (.seq c q)).run = .stopped) || kinds.contains (s.waitKind (.seq c q))

/-- The condition of token relief (R120): every sequencer stopped or blocked on tokens, one of them holding a send. -/
def State.tokenStuck (s : State) (c : Nat) : Bool :=
  s.allWaiting c [1, 2, 3, 4] && (List.range 6).any fun q => [3, 4].contains (s.waitKind (.seq c q))

/-- The full rings on which sequencers of a context wait in rclaim or rwfree (R212). -/
def State.fullRings (s : State) (slot : Nat) : List Key :=
  (s.seqs.filterMap fun (e : Agent × Seq) =>
    if s.slotOf e.1 = slot ∧ e.2.run = Run.blocked then
      match e.2.wait with
      | some w => match w.cond with
        | .ringRoom k => if s.ringUsed k = s.ringCap k then some k else none
        | _ => none
      | none => none
    else none).eraseDups

/-- The condition of ring relief (R212). -/
def State.ringStuck (s : State) (slot : Nat) : Bool :=
  (s.cores.all fun e => e.2.slot != some slot || s.allWaiting e.1 [1, 2, 3, 4, 7]) && !(s.fullRings slot).isEmpty

/-- Time passes: C's wait counter (12_scalar R261), and the clock at which a condition of relief began to hold. -/
def State.passTime (s : State) (clocks ns : Nat) : State :=
  { s.pass clocks ns with
    cores := s.cores.map fun (e : Nat × Core) =>
      (e.1, { e.2 with cwait := if (s.seq (.seq e.1 sqC)).run = Run.blocked then e.2.cwait + clocks else e.2.cwait,
                       stuckAt := if s.tokenStuck e.1 then some (e.2.stuckAt.getD s.clk) else none }),
    ringWait := (List.range 16).filterMap fun c => if s.ringStuck c then some (c, s.ringWait.get s.clk c) else none }

/-- The turn at the head of the agenda, or a free one (log 2), and the state without it, one clock later: each turn has a clock of its own (log
98). -/
def State.nextTurn (s : State) : Turn × State :=
  match s.agenda with
  | t :: r => (t, ({ s with agenda := r }).passTime 1 0)
  | [] => (Config.freeTurn s.tick, ({ s with tick := s.tick + 1 }).passTime 1 0)

end Sys2Proof.Machine
end

