-- ==== Sys2Proof/Machine/Ring.lean ====
section
/-! DEFINITION. Rings and their relief (10_barrier R208-R214), and the barrier orders of the ferries (R207). -/

namespace Sys2Proof.Machine

/-! ### ftxe and ftxk (R207) -/

/-- ftxe: the chunks that a copy by the descriptor will credit are added to DUE. -/
def execFtxe (fd _oc : BitVec 4) (h : BitVec 2) (s : State) : Host.Outcome State Fault Refusal :=
  issue s fun s => do
    let n := chunksOf (s.fd fd) * (if descField (s.fd fd) 7 63 32 = 0 then 1 else (receiversOf (s.fd fd)).length)
    let (_, t) ← s.txUpdate s.mySlot (s.lcSrc h.toNat).toNat 0 n 0
    return t

/-- ftxk: one unit is credited to DONE, after every earlier access. -/
def execFtxk (_oc : BitVec 4) (h : BitVec 2) (s : State) : Host.Outcome State Fault Refusal :=
  issue s fun s => do
    s.awaitCore 8 s.heldObj
    let (_, t) ← s.txUpdate s.mySlot (s.lcSrc h.toNat).toNat 0 0 1
    return t

/-! ### Headers (R208) -/

/-- The bytes of a slot, 2^(7 + LSZ). -/
def State.slotBytes (s : State) (k : Key) : Nat := 2 ^ (7 + bits (s.hdr k 8 4) 3 0)
/-- The capacity C of a ring. -/
def State.ringC (s : State) (k : Key) : Nat := 2 ^ bits (s.hdr k 8 4) 11 8
/-- ENL. -/
def State.enlarged (s : State) (k : Key) : Bool := bit (s.hdr k 8 4) 16
/-- SLOTS. -/
def State.ringSlots (s : State) (k : Key) : Nat := s.hdr k 0 8
/-- CLAIM, TAIL, TAKE and HEAD. -/
def State.ringClaim (s : State) (k : Key) : Nat := s.hdr k 0x10 4
def State.ringTail (s : State) (k : Key) : Nat := s.hdr k 0x14 4
def State.ringTake (s : State) (k : Key) : Nat := s.hdr k 0x18 4
def State.ringHead (s : State) (k : Key) : Nat := s.hdr k 0x1C 4

/-- The state with a 4-byte field of a header replaced. -/
def State.setHdr (s : State) (k : Key) (off v : Nat) : State := s.pokeNat none (k + off) 4 v

/-- Whether a header keeps the rules of R208: reserved bits zero, SLOTS aligned, ENL with E and POOLOFF as the device has written them and with the
slot area that it has enlarged, and the counts in order. -/
def State.headerOk (s : State) (k : Key) : Bool :=
  let cfg := s.hdr k 8 4
  let d := fun n => sub32 n (s.ringHead k)
  bits cfg 7 4 == 0 && bits cfg 15 12 == 0 && bits cfg 31 17 == 0 && s.hdr k 0xC 4 == 0 && s.hdr k 0x28 24 == 0 &&
  s.ringSlots k % s.slotBytes k == 0 &&
  (!s.enlarged k || s.rpool.any fun e => e.hdr == k && e.e == s.hdr k 0x20 4 && e.off == s.hdr k 0x24 4 &&
    e.slots == s.ringSlots k && e.cfg == cfg % 2 ^ 16) &&
  decide (d (s.ringTake k) ≤ d (s.ringTail k)) && decide (d (s.ringTail k) ≤ d (s.ringClaim k)) && decide (d (s.ringClaim k) ≤ s.ringCap k)

/-- Whether the slot area, 2C slots from SLOTS, lies in the context's segment of one vault (R208). -/
def State.slotAreaOk (s : State) (slot : Nat) (k : Key) : Bool :=
  let a := s.ringSlots k
  let n := 2 * s.ringC k * s.slotBytes k
  regionOf a = .vault && (a - vaultWindow) / 0x2000000 == (a + n - 1 - vaultWindow) / 0x2000000 &&
  (match vaultDecode s slot a, vaultDecode s slot (a + n - 1) with
   | .ok _, .ok _ => true
   | _, _ => false)

/-- The header that a ring order names, with the checks of R211. -/
def State.ringHeader (s : State) (h : BitVec 2) : Except Stop Key := do
  let a := (s.lcSrc h.toNat).toNat
  if a % 64 ≠ 0 then raise .misalignment 0 a
  let k ← s.vaultObject s.mySlot a 64 14
  s.checkRead a 64
  let cfg := s.hdr k 8 4
  if 9 < bits cfg 3 0 ∨ bits cfg 11 8 = 0 ∨ 11 < bits cfg 11 8 ∨ s.slotAreaOk s.mySlot k = false then raise .permission 14
  return k

/-- Pos(c) (R209). -/
def State.slotPos (s : State) (k : Key) (c : Nat) : Nat :=
  let cap := s.ringC k
  let e := s.hdr k 0x20 4
  if !s.enlarged k || decide (2 ^ 31 ≤ sub32 c e) then c % cap
  else
    let q := sub32 c e % (2 * cap)
    if q < cap then cap + q else c % cap

/-- SlotAddr(c) (R209). -/
def State.slotAddr (s : State) (k : Key) (c : Nat) : Nat := s.ringSlots k + s.slotBytes k * s.slotPos k c

/-- A broken header (R208): the header, and the registers that the order writes, become free values. -/
def State.breakRing (s : State) (k : Key) (lc : Option Nat) (fd : Option Nat) : State :=
  let (v, s1) := s.freeBits 512
  let s2 := s1.pokeNat none k 64 v
  let s3 := match lc with
    | some q => let (w, t) := s2.freeBits 64; t.wrLc q (.ofNat 64 w)
    | none => s2
  match fd with
  | some n => let (w, t) := s3.freeBits 512; t.setFd n (.ofNat 512 w)
  | none => s3

/-! ### The ring orders (R211) -/

/-- A descriptor with its address field of a word replaced. -/
def putAddress (d : BitVec 512) (w a : Nat) : BitVec 512 :=
  .ofNat 512 (d.toNat - descField d w 56 0 * 2 ^ (64 * w) + a % 2 ^ 57 * 2 ^ (64 * w))

/-- rclaim: the next free slot, its number and its address as a destination. -/
def execRclaim (fd _oc : BitVec 4) (q h : BitVec 2) (s : State) : Host.Outcome State Fault Refusal :=
  issue s fun s => do
    let k ← s.ringHeader h
    if !s.headerOk k then return s.breakRing k (some q.toNat) (some fd.toNat)
    let c := Cond.ringRoom k
    if !c.holds s then waitFor 7 h.toNat c
    let n := s.ringClaim k
    let a := s.slotAddr k n
    return ((s.setHdr k 0x10 (n + 1)).wrLc q.toNat (.ofNat 64 n)).setFd fd.toNat (putAddress (s.fdNow fd) 1 a)

/-- rpub: publishes a slot in sequence order, after the copies into it. -/
def execRpub (_oc : BitVec 4) (q h : BitVec 2) (s : State) : Host.Outcome State Fault Refusal :=
  issue s fun s => do
    let k ← s.ringHeader h
    if !s.headerOk k then return s.breakRing k none none
    let n := (s.lcSrc q.toNat).toNat % 2 ^ 32
    let a := s.slotAddr k n
    let c := Cond.ringTail k n s.iss.who a (a + s.slotBytes k)
    if !c.holds s then waitFor 7 h.toNat c
    s.awaitCore 7 h.toNat
    return s.setHdr k 0x14 (n + 1)

/-- rwfill: the next published slot, its number and its address as a source. -/
def execRwfill (fd _oc : BitVec 4) (q h : BitVec 2) (s : State) : Host.Outcome State Fault Refusal :=
  issue s fun s => do
    let k ← s.ringHeader h
    if !s.headerOk k then return s.breakRing k (some q.toNat) (some fd.toNat)
    let c := Cond.ringFilled k
    if !c.holds s then waitFor 7 h.toNat c
    let n := s.ringTake k
    let a := s.slotAddr k n
    return ((s.setHdr k 0x18 (n + 1)).wrLc q.toNat (.ofNat 64 n)).setFd fd.toNat (putAddress (s.fdNow fd) 0 a)

/-- rwfree: the number of free slots. -/
def execRwfree (_oc : BitVec 4) (q h : BitVec 2) (s : State) : Host.Outcome State Fault Refusal :=
  issue s fun s => do
    let k ← s.ringHeader h
    if !s.headerOk k then return s.breakRing k (some q.toNat) none
    let c := Cond.ringRoom k
    if !c.holds s then waitFor 7 h.toNat c
    return s.wrLc q.toNat (.ofNat 64 (s.ringCap k - s.ringUsed k))

/-- Offset of the relief pool in a vault, and its bytes (08_memory R164). -/
def poolBase : Nat := 0x1400000
def poolBytes : Nat := 0x400000

/-- The vault of a key of a vault. -/
def vaultOf (k : Key) : Nat := (k - Config.vaultBase) / 0x2000000

/-- The key of the reserve of a ring: position C of its slot area (R208). -/
def State.reserveKey (s : State) (k : Key) : Key := Config.vaultBase + (s.ringSlots k + s.slotBytes k * s.ringC k - vaultWindow)

/-- Bytes copied from one key to another. -/
def State.moveBytes (s : State) (src dst n : Nat) : State := s.pokes none dst (s.peeks none src n)

/-- The ring shrinks (R214): the pool area goes back into the reserve, and its units into the pool. -/
def State.shrinkRing (s : State) (k : Key) : State :=
  let n := s.ringC k * s.slotBytes k
  let v := vaultOf (s.reserveKey k)
  let off := s.hdr k 0x24 4
  let s1 := s.moveBytes (Config.vaultBase + v * 0x2000000 + poolBase + off) (s.reserveKey k) n
  { (s1.setHdr k 8 (s1.hdr k 8 4 % 2 ^ 16)) with rpool := s1.rpool.filter fun e => !(e.vault == v && e.off == off) }

/-- rrel: releases a slot in sequence order; an enlarged ring that is empty shrinks. -/
def execRrel (_oc : BitVec 4) (q h : BitVec 2) (s : State) : Host.Outcome State Fault Refusal :=
  issue s fun s => do
    let k ← s.ringHeader h
    if !s.headerOk k then return s.breakRing k none none
    let n := (s.lcSrc q.toNat).toNat % 2 ^ 32
    let c := Cond.ringHead k n
    if !c.holds s then waitFor 7 h.toNat c
    s.awaitCore 7 h.toNat
    let t := s.setHdr k 0x1C (n + 1)
    return if t.enlarged k && t.ringHead k == t.ringClaim k then t.shrinkRing k else t

/-! ### Relief (R212, R213) -/

/-- The lowest free offset of a vault's relief pool for a number of bytes, in units of 64 KiB. -/
def State.poolSpace (s : State) (v n : Nat) : Option Nat :=
  let size := (n + 65535) / 65536 * 65536
  (((List.range 64).map (65536 * ·)).filter fun o => decide (o + size ≤ poolBytes)).find? fun o =>
    !s.rpool.any fun e => e.vault == v && decide (o < e.off + e.size) && decide (e.off < o + size)

/-- A ring enlarged (R213). -/
def State.enlargeRing (s : State) (slot : Nat) (k : Key) (off : Nat) : State :=
  let n := s.ringC k * s.slotBytes k
  let v := vaultOf (s.reserveKey k)
  let s1 := s.moveBytes (s.reserveKey k) (Config.vaultBase + v * 0x2000000 + poolBase + off) n
  let s2 := ((s1.setHdr k 0x20 (s1.ringClaim k)).setHdr k 0x24 off).setHdr k 8 (s1.hdr k 8 4 + 2 ^ 16)
  { s2 with rpool := { slot := slot, vault := v, off := off, size := (n + 65535) / 65536 * 65536, hdr := k, e := s1.ringClaim k,
                       slots := s1.ringSlots k, cfg := s1.hdr k 8 4 % 2 ^ 16 } :: s2.rpool, ringWait := s2.ringWait.drop slot }

/-- A trap raised at the step that a sequencer waits in, which for a held send is the step that sends (05_kernel R119). -/
def State.raiseWaiting (s : State) (a : Agent) (t : Trap) : State :=
  let q := s.seq a
  let at_ := (q.wait.map (·.step)).getD q.pc
  if s.trapWaits a then s
  else (s.endWait a).deliver a t (if a.isScalar then at_ else at_ &&& 2047) ((q.wait.map (·.slot)).getD 0) none none

/-- The full ring on which a sequencer of a context waits for room. -/
def State.fullRingOf (s : State) (slot : Nat) (a : Agent) : Option Key :=
  let q := s.seq a
  if s.slotOf a = slot ∧ q.run = Run.blocked then
    match q.wait with
    | some w => match w.cond with
      | .ringRoom k => if s.ringUsed k = s.ringCap k then some k else none
      | _ => none
    | none => none
  else none

/-- The sequencer that takes the deadlock trap (R213): of the lowest core, the first in ring order; a copy sequencer after them. -/
def State.deadlocked (s : State) (slot : Nat) : Option (Agent × Key) :=
  let agents := ((List.range 128).flatMap fun c => (List.range 6).map fun q => Agent.seq c q) ++ (List.range 4).map Agent.copy
  (agents.filterMap fun a => (s.fullRingOf slot a).map fun k => (a, k)).head?

/-- The deadlock trap of ring relief. -/
def State.ringDeadlock (s : State) (slot : Nat) : State :=
  match s.deadlocked slot with
  | some (a, k) => s.raiseWaiting a (mkTrap .deadlock 16 (vaultWindow + (k - Config.vaultBase)))
  | none => s

/-- The ring that relief enlarges: the smallest by bytes, then the lowest header. -/
def State.reliefRing (s : State) (slot : Nat) : Option Key :=
  ((s.fullRings slot).filter fun k => !s.enlarged k).foldl (fun (b : Option Key) k =>
    match b with
    | none => some k
    | some j =>
      let m := s.ringC k * s.slotBytes k
      let n := s.ringC j * s.slotBytes j
      if m < n ∨ (m = n ∧ k < j) then some k else b) none

/-- RING_RELIEF: when the condition of R212 has held for 1,024 clocks and token relief does not act first. -/
def execRingRelief (slot : Nat) (s : State) : Host.Outcome State Fault Refusal :=
  happen (
    let due := match s.ringWait.find? fun e => e.1 == slot with
      | some e => decide (e.2 + 1024 ≤ s.clk)
      | none => false
    let tokens := s.cores.any fun e => e.2.slot == some slot && s.tokenStuck e.1
    if !due || !s.ringStuck slot || tokens then s
    else
      match s.reliefRing slot with
      | none => s.ringDeadlock slot
      | some k =>
        let a := s.reserveKey k - Config.vaultBase + vaultWindow
        match s.poolSpace (vaultOf (s.reserveKey k)) (s.ringC k * s.slotBytes k) with
        | some off => if s.copyInto none a (a + s.ringC k * s.slotBytes k) then s else s.enlargeRing slot k off
        | none => s.ringDeadlock slot)

/-- TOKEN_RELIEF (05_kernel R120): the queue of smallest depth among those that hold sends grows by 8 from the pool of the core; an empty
pool is the deadlock trap of the sequencer that holds the send. -/
def State.relieveTokens (s : State) (c : Nat) : State :=
  let k := s.core c
  let holders := (List.range 6).flatMap fun q => ((s.seq (.seq c q)).heldTok.filter fun e => s.queueFull c e.1).map fun e => (e.1, q)
  let depth := fun n => (k.tokQ.get {} n).depth
  let pick := holders.foldl (fun (b : Option (Nat × Nat)) (e : Nat × Nat) =>
    match b with
    | none => some e
    | some j => if depth e.1 < depth j.1 ∨ (depth e.1 = depth j.1 ∧ e.1 < j.1) then some e else b) none
  match pick with
  | none => s
  | some (n, q) =>
    if 8 ≤ k.pool then
      let t := k.tokQ.get {} n
      (s.setCore c { k with tokQ := k.tokQ.set n { t with depth := t.depth + 8 }, pool := k.pool - 8, stuckAt := none }).flushTokens (.seq c q)
    else s.raiseWaiting (.seq c q) (mkTrap .deadlock n)

/-- TOKEN_RELIEF of a core. -/
def execTokenRelief (core : Nat) (s : State) : Host.Outcome State Fault Refusal :=
  happen (match (s.core core).stuckAt with
    | some n => if n + 1024 ≤ s.clk ∧ s.tokenStuck core then s.relieveTokens core else s
    | none => s)

end Sys2Proof.Machine
end

