-- ==== Sys2Proof/Machine/Embed.lean ====
section
/-! DEFINITION. Embedding commands (17_piers R363-R374): the orders of major 0x1F, and the steps of the commands. -/

namespace Sys2Proof.Machine

/-! ### Directory entries (R364) -/

/-- ELEMS, SLOT, SKV, STEP and SHARD of an entry, and the format of its rows. -/
def tblElems (e : List Byte) : Nat := fieldAt e 14 2
def tblSkv (e : List Byte) : Bool := bit (fieldAt e 16 8) 14
def tblStep (e : List Byte) : Nat := fieldAt e 24 4
def tblShard (e : List Byte) : Nat := bits (fieldAt e 32 8) 56 0
def tblFmt (e : List Byte) : RowFmt := { fmt := bits (fieldAt e 16 8) 3 0, lay := bits (fieldAt e 16 8) 5 4, elems := tblElems e }

/-- A valid entry. -/
def entryValid (e : List Byte) : Bool :=
  bit (fieldAt e 0 8) 63 && (tblFmt e).ok && tblElems e % (tblFmt e).block == 0 && decide ((tblFmt e).bytes ≤ tblRowB e)

/-- Whether `t` is below TDIR.COUNT and names a valid entry. -/
def Ctx.tableOk (x : Ctx) (t : Nat) : Bool := decide (t < bits x.tdir.toNat 10 0) && entryValid (x.table t)

/-- Address of a row. -/
def rowAddr (e : List Byte) (r : Nat) : Nat := tblBase e + r * tblRowB e

/-! ### Command blocks (R368) -/

/-- Word `i` of a block of 8-byte words. -/
def blkWord (b : List Byte) (i : Nat) : Nat := fieldAt b (8 * i) 8

/-- Fields of word 0. -/
def blkTable (b : List Byte) : Nat := bits (blkWord b 0) 9 0
def blkI64 (b : List Byte) : Bool := bit (blkWord b 0) 12
def blkMode (b : List Byte) : Nat := bits (blkWord b 0) 14 13
def blkW (b : List Byte) : Bool := bit (blkWord b 0) 15
def blkCtrl (b : List Byte) : Nat := bits (blkWord b 0) 18 16
def blkE (b : List Byte) : Int := signed8 (bits (blkWord b 0) 31 24)
def blkN (b : List Byte) : Nat := bits (blkWord b 0) 63 32

/-- The bits of word 0 that a form does not reserve, and its other words that it uses: 0 gbag, 1 grow, 2 supd, 4 skq. -/
def blkMask (fn : Nat) : Nat :=
  match fn with
  | 0 => 0xFFFFFFFFFF00F3FF
  | 1 => 0xFFFFFFFF000013FF
  | 2 => 0xFFFFFFFFFF0013FF
  | _ => 0xFFFFFFFF000773FF
def blkWords (fn : Nat) : List Nat :=
  match fn with
  | 0 => [1, 2, 3, 4] | 1 => [1, 4] | 2 => [1, 2, 3] | _ => [1, 2]

/-- No reserved bit of a block is set, and MODE is not 3. -/
def blkReservedZero (fn : Nat) (b : List Byte) : Bool :=
  let w := blkWord b 0
  w &&& blkMask fn == w && ((fn != 0 && fn != 4) || blkMode b != 3) &&
  (List.range 8).all fun i => i == 0 || (blkWords fn).contains i || blkWord b i == 0

/-- A permission trap of a check (R369). -/
def embTrap {α : Type} (code : Nat) : Except Stop α := raise .permission (25 + code * 256)

/-- The fields that lie in the vault window (R368, R369 code 4): IDX, also of a dump or a load of skq, which do not read it; of a gbag also OFF, and
WGT where weights are present. -/
def blkVault (fn : Nat) (b : List Byte) : Bool :=
  let v := fun i => regionOf (blkWord b i) = .vault
  v 1 && (fn != 0 || (v 2 && (!blkW b || v 3)))

/-- The checks of R211 on a gbag's ring, and that its slot holds the bag (R369 code 5). -/
def State.ringFits (s : State) (slot a n : Nat) : Bool :=
  match s.vaultObject slot a 64 14 with
  | .error _ => false
  | .ok k =>
    let cfg := s.hdr k 8 4
    a % 64 == 0 && decide (bits cfg 3 0 ≤ 9) && bits cfg 11 8 != 0 && decide (bits cfg 11 8 ≤ 11) && s.slotAreaOk slot k && decide (n ≤ s.slotBytes k)

/-- A valid optimiser descriptor for a table (R371). -/
def optValid (x : Ctx) (t : Nat) (o : List Byte) : Bool :=
  let w := blkWord o 0
  let kind := bits w 1 0
  let e := x.table t
  let named := fun (i fmt lay n : Nat) =>
    let u := x.table i
    x.tableOk i && tblRows u == tblRows e && (tblFmt u).fmt == fmt && (tblFmt u).lay == lay && tblElems u == n
  kind != 3 && bits w 5 2 == 0 && bits w 41 37 == 0 && (List.range 3).all (fun i => blkWord o (5 + i) == 0) &&
  named (bits w 15 6) 0 0 (tblElems e) &&
  (if kind = 0 then bits w 35 16 == 0 && bits (blkWord o 1) 63 32 == 0 else true) &&
  (if kind = 1 then bits w 35 26 == 0 && named (bits w 25 16) 0 0 1 else true) &&
  (if kind = 2 then named (bits w 25 16) 12 1 (tblElems e) && named (bits w 35 26) 12 1 (tblElems e)
   else (List.range 3).all fun i => blkWord o (2 + i) == 0)

/-! ### The orders (R367, R369) -/

/-- A tag as an embedding command takes it (R320, R369). -/
def embTag (e : Embedding) : Tag := { addr := 0, st := .landing, rd := false, rep := false, op := some (.embedding e) }

/-- A command that starts on a tag. -/
def State.startCommand (s : State) (t : TagRef) (e : Embedding) : State :=
  ({ s.latch with nextOp := s.nextOp + 1 }.setTag t (embTag { e with order := s.nextOp })).settleWrites

/-- The record of a command of the issuing C. -/
def State.embeddingOf (s : State) (fn : Nat) : Embedding :=
  { fn := fn, slot := s.mySlot, core := s.myCoreNo, step := s.iss.here, wslot := s.iss.slot, order := s.nextOp }

/-- The block of a command read and checked (R369): the block, an optimiser descriptor, and the state. -/
def State.readBlock (s : State) (fn : Nat) (sa : BitVec 5) : Except Stop (List Byte × List Byte × State) := do
  let a := (s.src sa).toNat
  if a % 64 ≠ 0 then raise .misalignment 0 a
  let (b, s1) ← s.loadBytes a 64
  let x := s.myCtx
  if !blkReservedZero fn b then embTrap 1
  let t := blkTable b
  if x.tableOk t = false ∨ (fn = 4 ∧ tblSkv (x.table t) = false) then embTrap 2
  if (fn = 0 ∨ fn = 2) ∧ pfOk (blkE b) = false then embTrap 3
  if !blkVault fn b then embTrap 4
  if fn = 0 then
    if regionOf (blkWord b 4) = .vault then s1.checkRead (blkWord b 4) 64
    if !s1.ringFits s.mySlot (blkWord b 4) (4 * tblElems (x.table t)) then embTrap 5
  if fn ≠ 2 then return (b, [], s1)
  let p := blkWord b 3
  if p % 64 ≠ 0 then raise .misalignment 0 p
  let (o, s2) ← s1.loadBytes p 64
  if !optValid x t o then embTrap 7
  return (b, o, s2)

/-- The wait of a command for its tag. -/
def State.awaitTag (s : State) (tag : BitVec 6) : Except Stop Unit :=
  let c := Cond.tagAll [s.myTag tag.toNat]
  if c.holds s then .ok () else waitFor 6 tag.toNat c

/-- gbag. -/
def execGbag (tag : BitVec 6) (sa : BitVec 5) (s : State) : Host.Outcome State Fault Refusal :=
  issue s fun s => do
    let (b, _, s1) ← s.readBlock 0 sa
    s.awaitTag tag
    return s1.startCommand (s.myTag tag.toNat) { s.embeddingOf 0 with block := b }

/-- grow: a copy of one dimension whose source is the named rows (R370). -/
def execGrow (tag : BitVec 6) (sa : BitVec 5) (s : State) : Host.Outcome State Fault Refusal :=
  issue s fun s => do
    let (b, _, s1) ← s.readBlock 1 sa
    let rowb := tblRowB (s.myCtx.table (blkTable b))
    let len := blkN b * rowb % 2 ^ 32
    let dst := blkWord b 4
    let d : BitVec 512 := .ofNat 512 (dst * 2 ^ 64 + len * 2 ^ 128)
    if len ≠ 0 then
      if leavesRegion dst (dst + len - 1) true then raise .permission (24 + 2 * 256)
      s1.boxInSegment s.mySlot (destShape d)
    let t := s.myTag tag.toNat
    let ready := Cond.copyReady t d
    if !ready.holds s then waitFor 6 tag.toNat ready
    if len = 0 then return ((s1.latch.setTag t (emptyTag d)).opEnded t.owner).settleWrites
    let k : CopyKind := .rows { table := blkTable b, idx := blkWord b 1, i64 := blkI64 b, rowb := rowb }
    let c : Copy := { kind := k, desc := d, oc := 15, slot := s.mySlot, who := s.iss.who, step := s.iss.here, wslot := s.iss.slot,
                      order := s.nextOp, recv := [{ vault := none, pos := 0 }] }
    return ((State.setTag { s1.latch with nextOp := s.nextOp + 1 } t (startTag k d c)).dropBox s.mySlot (destShape d)).settleWrites

/-- supd: inside an open tile it is deferred to qcommit, its tag taken there (07_group R157, R158). -/
def execSupd (tag : BitVec 6) (sa : BitVec 5) (s : State) : Host.Outcome State Fault Refusal :=
  issue s fun s => do
    let (b, o, s1) ← s.readBlock 2 sa
    if s.tileOpen then return ← s1.deferEffect (.supd tag.toNat b o)
    s.awaitTag tag
    return s1.startCommand (s.myTag tag.toNat) { s.embeddingOf 2 with block := b, opt := o, table := blkTable b }

/-- scommit (R373). -/
def execScommit (tag : BitVec 6) (sa sb : BitVec 5) (s : State) : Host.Outcome State Fault Refusal :=
  issue s fun s => do
    let t := (s.src sa).toNat
    if 1024 ≤ t then embTrap 1
    if !s.myCtx.tableOk t then embTrap 2
    s.awaitTables
    s.awaitTag tag
    return s.startCommand (s.myTag tag.toNat) { s.embeddingOf 3 with table := t, value := (s.src sb).toNat % 2 ^ 32 }

/-- skq. -/
def execSkq (tag : BitVec 6) (sa : BitVec 5) (s : State) : Host.Outcome State Fault Refusal :=
  issue s fun s => do
    let (b, _, s1) ← s.readBlock 4 sa
    s.awaitTag tag
    return s1.startCommand (s.myTag tag.toNat) { s.embeddingOf 4 with block := b, table := blkTable b }

/-! ### How a command ends or stops -/

/-- A trap of a command for C, one at a time (R322, R369, R372, R373). -/
def State.commandTrap (s : State) (t : TagRef) (e : Embedding) (tr : Trap) (src frozen : Bool) : State :=
  let a : AsyncTrap := { who := .seq e.core 0, trap := tagInfo tr t.tag src, step := e.step, slot := e.wslot, tag := if frozen then some t else none,
                          late := true }
  if t.tag < 64 then { s with atraps := s.atraps ++ [a] } else s

/-- A fault of a command after issue freezes its tag. -/
def State.freezeCommand (s : State) (t : TagRef) (e : Embedding) (tr : Trap) (src : Bool) : State :=
  if t.tag < 64 then (s.setTag t { s.tag t with st := .frozen, trp := true }).commandTrap t e tr src true
  else { s with tags := s.tags.drop t }

/-- The end of a command: its tag is landed and its completion sets EVT[3]; nobody sees that of a command whose tag was released. -/
def State.endCommand (s : State) (t : TagRef) : State :=
  if t.tag < 64 then (s.setTag t { s.tag t with st := .landed, rd := true, op := none }).opEnded t.owner
  else { s with tags := s.tags.drop t }

/-- Flags of a command in the FFLAGS of the C that issued it (R370, R373). -/
def State.commandFlags (s : State) (t : TagRef) (e : Embedding) (f : BitVec 8) : State :=
  let a := Agent.seq e.core 0
  if t.tag < 64 then s.setSeq a { s.seq a with fflags := (s.seq a).fflags ||| f } else s

/-- What a command's reading or writing ends in: it waits at a watermark, it faults on a side, or it goes on. -/
abbrev Cmd (α : Type) := Except (Option (Trap × Bool)) α

/-- A reading as a part of a command. -/
def onSource {α : Type} : Except (Option Trap) α → Cmd α
  | .ok a => .ok a
  | .error none => .error none
  | .error (some t) => .error (some (t, true))

/-- Bytes written by an operation of a context, which started at a point of the order of issue: behind a watermark it waits. -/
def State.writeFor (s : State) (slot order a : Nat) (b : List Byte) : Cmd State :=
  if s.landingWaits slot order a b.length then .error none
  else
    match s.landBytes slot order a b false with
    | .ok u => .ok u
    | .error t => .error (some (t, false))

/-- Bytes written by a command. -/
def State.cmdWrite (s : State) (e : Embedding) (a : Nat) (b : List Byte) : Cmd State := s.writeFor e.slot e.order a b

/-- A command's step: it waits, freezes, or goes on. -/
def State.commandStep (s : State) (t : TagRef) (e : Embedding) : Cmd State → State
  | .ok u => u
  | .error none => s
  | .error (some (tr, src)) => s.freezeCommand t e tr src

/-- The command on a tag that lands, where it goes on (04_context R100): a gbag stops between bags while its context is being pre-empted, the
others end first; a commit whose tag was released ends. -/
def State.runningCommand (s : State) (t : TagRef) : Option Embedding :=
  match (s.tag t).st, (s.tag t).op with
  | .landing, some (.embedding e) =>
    let st := (s.ctx e.slot).st
    if (if e.fn = 0 then s.copiesRun e.slot t else decide (st = .running) || (decide (64 ≤ t.tag) && decide (st = .ready))) then some e else none
  | _, _ => none

/-! ### BAG_PUBLISH (R370) -/

/-- The indices and weights of the positions [lo, hi). -/
def State.bagIndices (s : State) (t : TagRef) (e : Embedding) : List Nat → Except (Option Trap) (List (Int × Num) × State)
  | [] => .ok ([], s)
  | i :: r => do
    let (v, s1) ← s.readIndex e.slot e.order t (blkWord e.block 1) (blkI64 e.block) i
    let (w, s2) ← if blkW e.block then (do
        let (b, u) ← s1.readFor e.slot e.order [] (some t) (blkWord e.block 3 + 4 * i) 4
        pure (fp32.num (leNat b), u))
      else pure (oneNum, s1)
    let (l, s3) ← s2.bagIndices t e r
    return ((v, w) :: l, s3)

/-- The rows of a bag, each occurrence of an index in range counted in the sketches. -/
def State.bagRows (s : State) (t : TagRef) (e : Embedding) : List (Int × Num) → Except (Option Trap) (List PoolRow × State)
  | [] => .ok ([], s)
  | (v, w) :: r => do
    let d := (s.ctx e.slot).table (blkTable e.block)
    let (p, s1) ← if v < 0 ∨ (tblRows d : Int) ≤ v then pure (((w, none) : PoolRow), s) else (do
        let (b, u) ← s.readFor e.slot e.order e.snap (some t) (rowAddr d v.toNat) (tblFmt d).bytes
        pure ((w, some b), u.rowRead e.slot (blkTable e.block) v.toNat true))
    let (l, s2) ← s1.bagRows t e r
    return (p :: l, s2)

/-- A bag pooled: its elements with their flags. -/
def State.pooledBag (s : State) (t : TagRef) (e : Embedding) : Cmd (List (Nat × BitVec 8) × State) := do
  let (b, s1) ← onSource (s.readFor e.slot e.order [] (some t) (blkWord e.block 2 + 4 * e.pos) 8)
  let lo := fieldAt b 0 4
  let hi := fieldAt b 4 4
  let (is, s2) ← onSource (s1.bagIndices t e ((List.range (hi - lo)).map (lo + ·)))
  let (rows, s3) ← onSource (s2.bagRows t e is)
  return (poolBag (tblFmt ((s.ctx e.slot).table (blkTable e.block))) false (blkMode e.block) (blkE e.block) rows, s3)

/-- A bag written to the next slot of the ring and published, where there is room and every claimed slot before it is published. A broken
header becomes free values (10_barrier R208). -/
def State.publish (s : State) (e : Embedding) (b : List Byte) : Cmd State :=
  let a := blkWord e.block 4
  match s.vaultObject e.slot a 64 14 with
  | .error (.trap tr _) => .error (some (tr, false))
  | .error _ => .error none
  | .ok k =>
    if s.landingWaits e.slot e.order a 64 then .error none
    else if !s.headerOk k then .ok (s.breakRing k none none)
    else if (Cond.ringRoom k).holds s = false ∨ s.ringTail k ≠ s.ringClaim k then .error none
    else
      let n := s.ringClaim k
      (s.cmdWrite e (s.slotAddr k n) b).map fun u => (u.setHdr k 0x10 (n + 1)).setHdr k 0x14 (n + 1)

/-- The next bag of a gbag. -/
def State.bagStep (s : State) (t : TagRef) (e : Embedding) : Cmd State := do
  let (es, s1) ← s.pooledBag t e
  let s2 ← s1.publish e (es.flatMap fun x => leBytes 4 x.1)
  let s3 := s2.commandFlags t e (es.foldl (fun (g : BitVec 8) x => g ||| x.2) 0)
  let g := s3.tag t
  let s4 := s3.setTag t { g with addr := e.pos + 1, op := some (.embedding { e with pos := e.pos + 1 }) }
  return if e.pos + 1 = blkN e.block then s4.endCommand t else s4

/-- BAG_PUBLISH: a gbag of no bags ends. -/
def execBagPublish (t : TagRef) (s : State) : Host.Outcome State Fault Refusal :=
  happen (match s.runningCommand t with
    | some e =>
      if e.fn ≠ 0 then s
      else if blkN e.block ≤ e.pos then s.endCommand t
      else s.commandStep t e (s.bagStep t e)
    | none => s)

/-! ### supd and skq (R372, R374) -/

/-- The indices of a command, in order. -/
def State.allIndices (s : State) (t : TagRef) (e : Embedding) : List Nat → Except (Option Trap) (List Int × State)
  | [] => .ok ([], s)
  | i :: r => do
    let (v, s1) ← s.readIndex e.slot e.order t (blkWord e.block 1) (blkI64 e.block) i
    let (l, s2) ← s1.allIndices t e r
    return (v :: l, s2)

/-- A trap of a supd that submits nothing: the command has ended. -/
def State.refuseSupd (s : State) (t : TagRef) (e : Embedding) (code : Nat) : State :=
  (s.commandTrap t e (mkTrap .permission code) false false).endCommand t

/-- A supd submits its pairs to the step that is current when it ends. -/
def State.supdStep (s : State) (t : TagRef) (e : Embedding) : Cmd State := do
  let x := s.ctx e.slot
  let d := x.table e.table
  let n := blkN e.block
  let z := 4 * tblElems d
  let (is, s1) ← onSource (s.allIndices t e (List.range n))
  let (g, s2) ← onSource (s1.readFor e.slot e.order [] (some t) (blkWord e.block 2) (n * z))
  let exp := bits (blkWord e.block 0) 31 24
  let old := (x.steps.find? fun m => m.1 == e.table).map (·.2)
  let cur : Submitted := old.getD { opt := e.opt, e := exp }
  let pairs := cur.pairs ++ (is.mapIdx fun i v => (v.toNat, (g.drop (i * z)).take z))
  if is.any (fun v => decide (v < 0) || decide ((tblRows d : Int) ≤ v)) then return s2.refuseSupd t e (25 + 8 * 256)
  if cur.opt ≠ e.opt ∨ cur.e ≠ exp then return s2.refuseSupd t e 27
  if 4194304 < (pairs.map (·.1)).eraseDups.length then return s2.refuseSupd t e (25 + 6 * 256)
  let y := s2.ctx e.slot
  return (s2.setCtx e.slot { y with steps := y.steps.set e.table { cur with pairs := pairs } }).endCommand t

/-- The estimate of a row in the sketches of its controller (R366). -/
def Ctx.estimate (x : Ctx) (t : Nat) (v : Int) : Nat :=
  let d := x.table t
  if v < 0 ∨ (tblRows d : Int) ≤ v then 0 else ((sketchCells d t v.toNat).map fun c => x.sketch.get 0 c).foldl min 65535

/-- The keys of a controller's sketch in the order of a dump. -/
def sketchOrder (ctl slot : Nat) : List (Nat × Nat × Nat × Nat) :=
  (List.range 4).flatMap fun i => (List.range 65536).map fun c => (ctl, slot, i, c)

/-- What skq does: an estimate of each index, a dump, or a load. -/
def State.skqStep (s : State) (t : TagRef) (e : Embedding) : Cmd State := do
  let x := s.ctx e.slot
  let data := blkWord e.block 2
  let ks := sketchOrder (blkCtrl e.block) (bits (fieldAt (x.table e.table) 16 8) 13 8)
  if blkMode e.block = 0 then
    let (is, s1) ← onSource (s.allIndices t e (List.range (blkN e.block)))
    let s2 ← s1.cmdWrite e data (is.flatMap fun v => leBytes 2 (x.estimate e.table v))
    return s2.endCommand t
  else if blkMode e.block = 1 then
    let s1 ← s.cmdWrite e data (ks.flatMap fun k => leBytes 2 (x.sketch.get 0 k))
    return s1.endCommand t
  else
    let (b, s1) ← onSource (s.readFor e.slot e.order [] (some t) data 0x80000)
    let y := s1.ctx e.slot
    let m := (ks.mapIdx fun i k => (k, i)).foldl (fun (m : Sketch) p => m.set p.1 (fieldAt b (2 * p.2) 2)) y.sketch
    return (s1.setCtx e.slot { y with sketch := m }).endCommand t

/-- EMBEDDING_COMMAND_END: a supd or skq acts and ends. -/
def execEmbeddingCommandEnd (t : TagRef) (s : State) : Host.Outcome State Fault Refusal :=
  happen (match s.runningCommand t with
    | some e =>
      if e.fn = 2 then s.commandStep t e (s.supdStep t e)
      else if e.fn = 4 then s.commandStep t e (s.skqStep t e)
      else s
    | none => s)

/-! ### scommit (R373) -/

/-- A value with the flags that it took to compute. -/
abbrev Calc := Num × BitVec 8

/-- FP32 with RNE. -/
def round32 (x : Exact × BitVec 8) : Calc := let (c, f) := elemOf fp32 {} x; (fp32.num c, f)

/-- The rounded operations of the optimisers. -/
def calcAdd (a b : Calc) : Calc := let r := round32 (exactNum (addNum 0 a.1 b.1)); (r.1, a.2 ||| b.2 ||| r.2)
def calcSub (a b : Calc) : Calc := calcAdd a (b.1.flip, b.2)
def calcMul (a b : Calc) : Calc := let r := round32 (exactNum (mulNum a.1 b.1)); (r.1, a.2 ||| b.2 ||| r.2)
def calcDiv (a b : Calc) : Calc := let r := round32 (divNum a.1 b.1); (r.1, a.2 ||| b.2 ||| r.2)
def calcSqrt (a : Calc) : Calc := let r := round32 (sqrtNum a.1); (r.1, a.2 ||| r.2)

/-- FP32 field `i` of words 1 to 4 of a descriptor: 0 LR, 1 EPS, 2 B1, 3 OMB1, 4 B2, 5 OMB2, 6 BC1, 7 BC2. -/
def optField (o : List Byte) (i : Nat) : Calc := (fp32.num (fieldAt o (8 + 4 * i) 4), 0)

/-- The coalesced gradient of a row: the order-free sums of the elements of every pair of it (R59, R372). -/
def coalesced (u : Submitted) (elems r : Nat) : List Calc :=
  let rows := (u.pairs.filter fun p => p.1 == r).map fun p => ((oneNum, some p.2) : PoolRow)
  (poolBag { fmt := 0, lay := 0, elems := elems } false 0 (signed8 u.e) rows).map fun p => (fp32.num p.1, p.2)

/-- The new weight w − LR × x. -/
def stepWeight (o : List Byte) (w x : Calc) : Calc := calcSub w (calcMul (optField o 0) x)

/-- The mean square of a gradient row added to an accumulator (Adagrad). -/
def adagradAcc (elems : Nat) (a : Calc) (g : List Calc) : Calc :=
  let q := g.foldl (fun (t : Calc) x => calcAdd t (calcMul x x)) (.fin false 0 0, 0)
  calcAdd a (calcDiv q (ofInt elems, 0))

/-- The moments and the weight of one element (Adam). -/
def adamElement (o : List Byte) (w m v g : Calc) : Calc × Calc × Calc :=
  let m1 := calcAdd (calcMul (optField o 2) m) (calcMul (optField o 3) g)
  let v1 := calcAdd (calcMul (optField o 4) v) (calcMul (calcMul (optField o 5) g) g)
  let d := calcAdd (calcSqrt (calcMul v1 (optField o 7))) (optField o 1)
  (m1, v1, stepWeight o w (calcDiv (calcMul m1 (optField o 6)) d))

/-- A row that a commit writes: table, row, values. -/
structure RowWrite where
  table : Nat
  row : Nat
  vals : List Calc

/-- The pieces of a row. -/
def State.rowPieces (s : State) (slot : Nat) (d : List Byte) (r : Nat) : Except Trap (List (Loc × Nat × Nat)) :=
  locateAll s slot .read false (spanPieces (rowAddr d r) (tblFmt d).bytes)

/-- The elements of a row at its home. -/
def State.rowCalcs (s : State) (slot t r : Nat) : Except Trap (List Calc) := do
  let d := (s.ctx slot).table t
  let ps ← s.rowPieces slot d r
  let b := s.readHome ps
  return (List.range (tblElems d)).map fun j => ((tblFmt d).value b false j, 0)

/-- The optimiser on one row: what it writes, in order. -/
def State.optimise (s : State) (slot t : Nat) (u : Submitted) (r : Nat) : Except Trap (List RowWrite) := do
  let o := u.opt
  let w0 := blkWord o 0
  let elems := tblElems ((s.ctx slot).table t)
  let master := bits w0 15 6
  let g := coalesced u elems r
  let w ← s.rowCalcs slot master r
  let (ws, more) ← if bits w0 1 0 = 0 then pure (List.zipWith (stepWeight o) w g, ([] : List RowWrite))
    else if bits w0 1 0 = 1 then (do
      let a ← s.rowCalcs slot (bits w0 25 16) r
      let a1 := adagradAcc elems (a.headD (.fin false 0 0, 0)) g
      let den := calcAdd (calcSqrt a1) (optField o 1)
      pure (List.zipWith (fun x y => stepWeight o x (calcDiv y den)) w g, [{ table := bits w0 25 16, row := r, vals := [a1] }]))
    else (do
      let m ← s.rowCalcs slot (bits w0 25 16) r
      let v ← s.rowCalcs slot (bits w0 35 26) r
      let es := List.zipWith (fun (p q : Calc × Calc) => adamElement o p.1 q.1 q.2 p.2) (w.zip g) (m.zip v)
      pure (es.map (·.2.2), [{ table := bits w0 25 16, row := r, vals := es.map (·.1) }, { table := bits w0 35 26, row := r, vals := es.map (·.2.1) }]))
  return more ++ [{ table := master, row := r, vals := ws }] ++ (if t = master then [] else [{ table := t, row := r, vals := ws }])

/-- The keys of located pieces with the bytes that the keel reads there. -/
def State.keelBytes (s : State) (ps : List (Loc × Nat × Nat)) : List (Key × Byte) :=
  ps.flatMap fun p => (List.range p.2.2).map fun i => (p.1.key + i, s.readLoc p.1 i)

/-- Old bytes kept for the operations that have begun to read (08_memory R176): each goes on with one version. -/
def keepOld (old : List (Key × Byte)) (m : Map Key Byte) : Map Key Byte := m ++ old.filter fun e => !m.has e.1

/-- The operations and the stopped gathers in flight with the old bytes of rows that change: a gbag issued before a commit reads the version
before it. -/
def State.snapshot (s : State) (old : List (Key × Byte)) : State :=
  { s with
    seqs := s.seqs.map fun (e : Agent × Seq) => match e.2.gath with
      | some g => (e.1, { e.2 with gath := some { g with snap := keepOld old g.snap } })
      | none => e,
    tags := s.tags.map fun (e : TagRef × Tag) => match e.2.op with
      | some (.copy c) => if e.2.complete then e else (e.1, { e.2 with op := some (.copy { c with snap := keepOld old c.snap }) })
      | some (.transfer x) => if e.2.complete then e else (e.1, { e.2 with op := some (.transfer { x with snap := keepOld old x.snap }) })
      | some (.crossing x) => if e.2.complete then e else (e.1, { e.2 with op := some (.crossing { x with snap := keepOld old x.snap }) })
      | some (.embedding x) => if e.2.complete then e else (e.1, { e.2 with op := some (.embedding { x with snap := keepOld old x.snap }) })
      | _ => e,
    link := { s.link with inbound := s.link.inbound.map fun i => if i.get then { i with snap := keepOld old i.snap } else i } }

/-- Bytes as they stand at a home become what the keel reads. -/
def State.freshen (s : State) (ps : List (Loc × Nat × Nat)) : State :=
  { s with stale := s.stale.filter fun e => !ps.any fun p => decide (p.1.key ≤ e.1) && decide (e.1 < p.1.key + p.2.2) }

/-- Bytes written to the home of a row, seen by the keel. -/
def State.writeRow (s : State) (ps : List (Loc × Nat × Nat)) (b : List Byte) : State :=
  let u := (s.snapshot (s.keelBytes ps)).freshen ps
  (ps.foldl (fun (t : State × List Byte) p => (t.1.pokes p.1.enc p.1.key (t.2.take p.2.2), t.2.drop p.2.2)) (u, b)).1

/-- Every pier write to a table that its commit publishes (08_memory R177): for the 64 KiB units of its rows that can be translated. -/
def State.publishTable (s : State) (slot : Nat) (d : List Byte) : State :=
  if s.stale.isEmpty then s
  else
    (spanPieces (tblBase d) (tblRows d * tblRowB d)).foldl (fun (u : State) p =>
      match locate u slot p.1 .read false with
      | .ok l => (u.snapshot ((u.stale.filter fun e => decide (l.key ≤ e.1) && decide (e.1 < l.key + p.2)))).freshen [(l, p)]
      | .error _ => u) s

/-- The pieces and bytes of the rows that a commit writes, with the flags. -/
def State.encodeRows (s : State) (slot : Nat) : List RowWrite → Except Trap (List (RowWrite × List (Loc × Nat × Nat) × List Byte) × BitVec 8)
  | [] => .ok ([], 0)
  | w :: r => do
    let d := (s.ctx slot).table w.table
    let ps ← s.rowPieces slot d w.row
    let (b, f) := (tblFmt d).encode (w.vals.map (·.1))
    let (l, g) ← s.encodeRows slot r
    return ((w, ps, b) :: l, w.vals.foldl (fun (h : BitVec 8) x => h ||| x.2) (f ||| g))

/-- A packet to another module, sprayed over the ports that are up and the entropy values by free choices (18_link R385); with no port up it stays at none
(8). A module without an assigned ID sends none (18_link R386). No packet carries more than 128 bytes. -/
def State.sendPacket (s : State) (dest : Nat) (p : Packet) : State :=
  if !s.mgmt.devidSet then s else
  let up := (List.range 8).filter fun i => s.link.ports.getLsbD i
  let port := up.getD (Config.free s.tick % up.length) 8
  let q := { p with dev := s.mgmt.devid, entropy := Config.free (s.tick + 1) % 256 }
  { s with tick := s.tick + 2, link := { s.link with packets := s.link.packets ++ [(port, dest, q)] } }

/-- The rows of a commit sent to the buddy module (R373, R409). -/
def State.mirrorRows (s : State) (slot buddy order : Nat) (l : List (RowWrite × List (Loc × Nat × Nat) × List Byte)) : State :=
  let n := l.length
  (l.mapIdx fun i w => (i, w)).foldl (fun (u : State) (p : Nat × (RowWrite × List (Loc × Nat × Nat) × List Byte)) =>
    u.sendPacket buddy { fn := 8, tenant := bits (s.ctx slot).xjob.toNat 15 0, addr := p.2.1.row, len := p.2.2.2.length, op := p.2.1.table, seq := order,
                         last := p.1 + 1 == n, bytes := p.2.2.2 }) s

/-- STEP(t) as the device's copy holds it, and its bytes in the directory (R364); a fault there loses the bytes. -/
def State.setStep (s : State) (slot t n : Nat) : State :=
  let x := s.ctx slot
  let d := x.table t
  let s1 := s.setCtx slot { x with dir := x.dir.set t (d.take 24 ++ leBytes 4 n ++ d.drop 28), steps := x.steps.drop t }
  match locateAll s1 slot .write false (spanPieces (bits x.tdir.toNat 56 16 * 65536 + 64 * t + 24) 4) with
  | .ok ps => (s1.ledAll ps).writePieces ps (leBytes 4 n)
  | .error _ => s1

/-- An insertion into a list in rising order. -/
def insertRow (r : Nat) : List Nat → List Nat
  | [] => [r]
  | x :: l => if r ≤ x then r :: x :: l else x :: insertRow r l

/-- A commit that finds its step: the optimiser on every unique row in rising order, then STEP n + 1, in one event. -/
def State.commitStep (s : State) (t : TagRef) (e : Embedding) : Cmd State :=
  let x := s.ctx e.slot
  let u := (x.steps.find? fun m => m.1 == e.table).map (·.2)
  let rows := ((u.map fun m => (m.pairs.map (·.1)).eraseDups).getD []).foldr insertRow []
  let work : Except Trap (List (RowWrite × List (Loc × Nat × Nat) × List Byte) × BitVec 8) := do
    let ws ← rows.mapM fun r => s.optimise e.slot e.table (u.getD { opt := [], e := 0 }) r
    s.encodeRows e.slot ws.flatten
  match work with
  | .error tr => .error (some (tr, true))
  | .ok (l, f) =>
    let s1 := l.foldl (fun (v : State) w => v.writeRow w.2.1 w.2.2) s
    let s2 := (s1.publishTable e.slot (x.table e.table)).setStep e.slot e.table ((tblStep (x.table e.table) + 1) % 2 ^ 32)
    let s3 := s2.commandFlags t e f
    let w0 := (u.map fun m => blkWord m.opt 0).getD 0
    if bit w0 36 && !l.isEmpty then
      let g := s3.tag t
      .ok ((s3.setTag t { g with rd := true, op := some (.embedding { e with waitAck := true }) }).mirrorRows e.slot (bits w0 63 42) e.order l)
    else .ok (s3.endCommand t)

/-- Whether a supd of a table that was issued earlier is under way. -/
def State.supdBefore (s : State) (slot table order : Nat) : Bool :=
  s.tags.any fun e => !e.2.complete &&
    (match e.2.op with
     | some (.embedding m) => m.fn == 2 && m.slot == slot && m.table == table && decide (m.order < order)
     | _ => false)

/-- OPTIMISER_COMMIT: a commit that does not find its step applies nothing. -/
def execOptimiserCommit (t : TagRef) (s : State) : Host.Outcome State Fault Refusal :=
  happen (match s.runningCommand t with
    | some e =>
      if e.fn ≠ 3 ∨ e.waitAck ∨ s.supdBefore e.slot e.table e.order then s
      else if tblStep ((s.ctx e.slot).table e.table) ≠ e.value then (s.commandTrap t e (mkTrap .permission 26) false false).endCommand t
      else s.commandStep t e (s.commitStep t e)
    | none => s)

/-- BUDDY_ACKNOWLEDGEMENT: every mirrored row of a commit is written on the buddy module. -/
def execBuddyAcknowledgement (t : TagRef) (s : State) : Host.Outcome State Fault Refusal :=
  happen (match (s.tag t).st, (s.tag t).op with
    | .landing, some (.embedding e) =>
      if e.waitAck then
        { s with link := { s.link with packets := s.link.packets.filter fun p => p.2.2.fn != 8 || p.2.2.seq != e.order } }.endCommand t
      else s
    | _, _ => s)

/-- The context that traffic with a job key reaches here (18_link R386). -/
def State.jobContext (s : State) (key : Nat) : Option Nat :=
  (List.range 16).find? fun c =>
    let x := s.ctx c
    x.st ≠ .free && x.st ≠ .tornDown && bit x.xjob.toNat 16 && bits x.xjob.toNat 15 0 == key

/-- This module, as a destination (18_link R386; 22_bringup R421). -/
def State.isSelf (s : State) (dev : Nat) : Bool := s.mgmt.devidSet && dev == s.mgmt.devid

/-- A packet that this module may receive now: from another module, or its own that is under way; the state without it. -/
def State.receive (s : State) (fn : Nat) (p : Packet) : Option State :=
  if !s.mgmt.devidSet || p.fn != fn then none
  else if !s.isSelf p.dev then some s
  else
    match s.link.packets.find? fun e => e.2.1 == s.mgmt.devid && decide (e.2.2 = p) with
    | some e => some { s with link := { s.link with packets := s.link.packets.erase e } }
    | none => none

/-- MIRROR_ARRIVAL: a row of a buddy module's commit is written to the table; with the last, the rows are acknowledged. -/
def execMirrorArrival (p : Packet) (s : State) : Host.Outcome State Fault Refusal :=
  happen (match s.receive 8 p, s.jobContext p.tenant with
    | some u, some c =>
      let d := (s.ctx c).table p.op
      let s1 := if (s.ctx c).tableOk p.op ∧ p.addr < tblRows d ∧ p.bytes.length = (tblFmt d).bytes then
          (match u.rowPieces c d p.addr with
           | .ok ps => u.writeRow ps p.bytes
           | .error _ => u)
        else u
      if p.last ∧ s.isSelf p.dev = false then s1.sendPacket p.dev { fn := 9, tenant := p.tenant, seq := p.seq } else s1
    | _, _ => s)

end Sys2Proof.Machine
end

