-- ==== Sys2Proof/Machine/Crossing.lean ====
section
/-! DEFINITION. The crossing engine (18_link R386-R395): the orders of major 0x1E, the steps of their operations, and what other modules
send. What happens at another module is a free value; an operation on this module's own device ID acts here. -/

namespace Sys2Proof.Machine

/-! ### Blocks and checks (R388, R389) -/

/-- A permission trap of a check (R389). -/
def crossTrap {α : Type} (code : Nat) : Except Stop α := raise .permission (30 + code * 256)

/-- Fields of a block: LOCAL or IDX, REMOTE, LEN, TMO, ORD. -/
def Crossing.word (x : Crossing) (i : Nat) : Nat := blkWord x.block i
def Crossing.len (x : Crossing) : Nat := bits (x.word 3) 31 0
def Crossing.ord (x : Crossing) : Bool := (x.fn == 2 || x.fn == 3 || x.fn == 4) && bit (x.word 0) 32
def Crossing.timeout (x : Crossing) : Nat := if x.fn = 0 ∨ x.fn = 5 then 0 else bits (x.word 7) 31 0
/-- The destination of an xput, xget, xamo or xsig. -/
def Crossing.dev (x : Crossing) : Nat := if x.fn = 5 then bits x.addr.toNat 21 0 else bits (x.word 0) 21 0

/-- The bits that a form does not reserve in each word of its block: 0 xbkt, 1 xa2a, 2 xput, 3 xget, 4 xamo. -/
def crossMasks (fn : Nat) : List Nat :=
  let all := 2 ^ 64 - 1
  let low := 0xFFFFFFFF
  match fn with
  | 0 => [0xFFFFFFFF1FFF17FF, all, all, all, all, all, low, 0]
  | 1 => [0xFFFFFFFF1FFFFFFF, all, all, all, all, all, all, low]
  | 4 => [0x3F003FFFFF, 0, all, 0, all, all, all, low]
  | _ => [0x1003FFFFF, all, all, low, 0, 0, 0, low]

/-- No reserved bit of a block is set. -/
def crossReservedZero (fn : Nat) (b : List Byte) : Bool :=
  ((crossMasks fn).mapIdx fun i m => blkWord b i &&& m == blkWord b i).all id

/-- The words that lie in the vault window. -/
def crossVault (fn : Nat) : List Nat :=
  match fn with
  | 0 => [1, 3, 4, 5] | 1 => [1, 3, 5] | _ => []

/-- An address in the vault window and in the context's segment. -/
def State.inSegment (s : State) (slot a : Nat) : Bool :=
  regionOf a = .vault && (match vaultDecode s slot a with
    | .ok _ => true
    | .error _ => false)

/-- Whether a context has an xa2a of a SEQ outstanding. -/
def State.seqOpen (s : State) (slot n : Nat) : Bool :=
  s.tags.any fun e => !e.2.complete && (match e.2.op with
    | some (.crossing x) => x.fn == 1 && x.slot == slot && bits (x.word 0) 15 0 == n
    | _ => false)

/-- Counts and sizes in their limits (R389 code 4). -/
def State.crossLimits (s : State) (fn : Nat) (b : List Byte) : Bool :=
  let w := blkWord b 0
  let peers := bits w 28 16
  let esz := bits w 63 32
  if fn = 0 then decide (1 ≤ peers) && decide (peers ≤ 4096)
  else if fn = 1 then decide (1 ≤ peers) && decide (peers ≤ 4096) && decide (4 ≤ esz) && decide (esz ≤ 65536) && esz % 4 == 0 && !s.seqOpen s.mySlot (bits w 15 0)
  else true

/-- Whether XJOB.EN of the issuing context is set. -/
def State.jobOn (s : State) : Bool := bit s.myCtx.xjob.toNat 16

/-- The block of a form read and checked. -/
def State.crossBlock (s : State) (fn : Nat) (sa : BitVec 5) : Except Stop (List Byte × State) := do
  let a := (s.src sa).toNat
  if a % 64 ≠ 0 then raise .misalignment 0 a
  let (b, t) ← s.loadBytes a 64
  if !crossReservedZero fn b then crossTrap 1
  if fn = 0 ∧ bit (blkWord b 0) 10 ∧ s.myCtx.tableOk (bits (blkWord b 0) 9 0) = false then crossTrap 2
  if !(crossVault fn).all fun i => s.inSegment s.mySlot (blkWord b i) then crossTrap 3
  if !s.crossLimits fn b then crossTrap 4
  if !s.jobOn then crossTrap 5
  return (b, t)

/-- The record of an operation of the issuing C. -/
def State.crossingOf (s : State) (fn : Nat) : Crossing :=
  { fn := fn, slot := s.mySlot, core := s.myCoreNo, step := s.iss.here, wslot := s.iss.slot, order := s.nextOp, issued := s.wall }

/-- An operation that starts on a tag (R389, R320). -/
def State.startCrossing (s : State) (t : TagRef) (x : Crossing) : State :=
  let y := { x with order := s.nextOp }
  ({ s.latch with nextOp := s.nextOp + 1 }.setTag t
    { addr := if x.fn = 3 then x.word 1 else 0, st := .landing, rd := false, rep := false, op := some (.crossing y) }).settleWrites

/-- The job key of a context. -/
def State.keyOf (s : State) (slot : Nat) : Nat := bits (s.ctx slot).xjob.toNat 15 0

/-- An operation's packets are acknowledged, or withdrawn. -/
def State.dropPackets (s : State) (x : Crossing) : State :=
  { s with link := { s.link with packets := s.link.packets.filter fun p => !(p.2.2.fn == x.fn && p.2.2.dev == s.mgmt.devid &&
      (if x.fn = 1 then p.2.2.tenant == s.keyOf x.slot && p.2.2.seq == bits (x.word 0) 15 0 else p.2.2.seq == x.order)) } }

/-- The end of an operation: its status stays in the tag. The completion of one whose tag was released is seen by nobody. -/
def State.endCrossing (s : State) (t : TagRef) (x : Crossing) (status : Nat) : State :=
  let s1 := s.dropPackets x
  if t.tag < 64 then (((s1.setTag t { s1.tag t with st := .landed, rd := true, xst := status, op := none }).opEnded t.owner)).settleWrites
  else { s1 with tags := s1.tags.drop t }

/-- An operation of no bytes completes at once (R390). -/
def State.emptyCrossing (s : State) (t : TagRef) (x : Crossing) : State :=
  (s.startCrossing t x).endCrossing t { x with order := s.nextOp } (if s.mgmt.devidSet then 0 else 5)

/-! ### The orders (R387) -/

/-- A form with a command block: its checks, the wait for its tag, its start. -/
def State.crossOrder (s : State) (fn : Nat) (tag : BitVec 6) (sa : BitVec 5) : Except Stop State := do
  let (b, s1) ← s.crossBlock fn sa
  let t := s.myTag tag.toNat
  let x : Crossing := { s.crossingOf fn with block := b, addr := s.src sa }
  let d : BitVec 512 := .ofNat 512 (x.word 1 * 2 ^ 64 + x.len * 2 ^ 128)
  let ready := if fn = 3 ∧ x.len ≠ 0 then Cond.copyReady t d else Cond.tagAll [t]
  if !ready.holds s then waitFor 6 tag.toNat ready
  if (fn = 2 ∨ fn = 3) ∧ x.len = 0 then return s1.emptyCrossing t x
  return s1.startCrossing t x

/-- xbkt. -/
def execXbkt (tag : BitVec 6) (sa : BitVec 5) (s : State) : Host.Outcome State Fault Refusal := issue s fun s => s.crossOrder 0 tag sa

/-- xa2a. -/
def execXa2a (tag : BitVec 6) (sa : BitVec 5) (s : State) : Host.Outcome State Fault Refusal := issue s fun s => s.crossOrder 1 tag sa

/-- xput. -/
def execXput (tag : BitVec 6) (sa : BitVec 5) (s : State) : Host.Outcome State Fault Refusal := issue s fun s => s.crossOrder 2 tag sa

/-- xget. -/
def execXget (tag : BitVec 6) (sa : BitVec 5) (s : State) : Host.Outcome State Fault Refusal := issue s fun s => s.crossOrder 3 tag sa

/-- The operations that are performed before one at its module: the earlier open ones of its core to the module, for an xsig all and for an operation with
ORD those with ORD (R390, R392). -/
def State.orderBefore (s : State) (x : Crossing) : List Nat :=
  if x.fn != 5 && !x.ord then []
  else s.tags.filterMap fun (e : TagRef × Tag) => match e.2.op with
    | some (.crossing y) =>
      if (e.2.st = .landing ∨ e.2.st = .frozen) ∧ [2, 3, 4, 5].contains y.fn ∧ y.core = x.core ∧ y.order < x.order ∧ y.dev = x.dev ∧ (x.fn = 5 ∨ y.ord) ∧
          y.status.isNone ∧ ¬ (y.fn = 3 ∧ y.moved = y.len) then some y.order else none
    | _ => none

/-- A packet of an operation with a remote address, its order among those of its core. -/
def State.packetOf (s : State) (x : Crossing) (p : Packet) : Packet :=
  { p with fn := x.fn, tenant := s.keyOf x.slot, seq := x.order, rod := x.ord, before := s.orderBefore x }

/-- The packet of an xamo or an xsig. -/
def State.callPacket (s : State) (x : Crossing) : Packet :=
  if x.fn = 5 then s.packetOf x { addr := bits x.addr.toNat 43 32, value := x.value.toNat % 2 ^ 32 }
  else s.packetOf x { addr := x.word 2, op := bits (x.word 0) 37 33, value := x.word 4, len := x.word 5 }

/-- An xamo or an xsig that starts: its packet leaves. -/
def State.startCall (s : State) (t : TagRef) (x : Crossing) : State :=
  let y := { x with order := s.nextOp }
  (s.startCrossing t x).sendPacket x.dev (s.callPacket y)

/-- xamo: an unrepeatable update of an open tile (R391). -/
def execXamo (tag : BitVec 6) (sa : BitVec 5) (s : State) : Host.Outcome State Fault Refusal :=
  issue s fun s => do
    let (b, s1) ← s.crossBlock 4 sa
    s.awaitTag tag
    return (s1.startCall (s.myTag tag.toNat) { s.crossingOf 4 with block := b, addr := s.src sa }).noteUnrepeatable

/-- xsig: inside an open tile it is deferred to qcommit, its tag taken there (R392). -/
def execXsig (tag : BitVec 6) (sa sb : BitVec 5) (s : State) : Host.Outcome State Fault Refusal :=
  issue s fun s => do
    let a := (s.src sa).toNat
    if bits a 31 22 ≠ 0 ∨ bits a 63 44 ≠ 0 then crossTrap 1
    if !s.jobOn then crossTrap 5
    s.awaitTables
    if s.tileOpen then return ← s.deferEffect (.xsig tag.toNat (s.src sa) (s.src sb))
    s.awaitTag tag
    return s.startCall (s.myTag tag.toNat) { s.crossingOf 5 with addr := s.src sa, value := s.src sb }

/-- xwait: the crossing status of a tag (R395). -/
def execXwait (tag : BitVec 6) (sa : BitVec 5) (s : State) : Host.Outcome State Fault Refusal :=
  issue s fun s => do
    s.waitUntil 6 tag.toNat (.tagAll [s.myTag tag.toNat])
    return s.wr sa (.ofNat 64 (s.tag (s.myTag tag.toNat)).xst)

/-! ### Local faults and steps -/

/-- A local fault freezes the tag; an xget goes on from what has landed (R389). -/
def State.freezeCrossing (s : State) (t : TagRef) (x : Crossing) (tr : Trap) (src : Bool) : State :=
  if t.tag < 64 then
    let y := if x.fn = 3 then { x with sent := x.moved, chunks := [] } else x
    let a : AsyncTrap := { who := .seq x.core 0, trap := tagInfo tr t.tag src, step := x.step, slot := x.wslot, tag := some t }
    { (s.setTag t { s.tag t with st := .frozen, trp := true, op := some (.crossing y) }) with atraps := s.atraps ++ [a] }
  else { s with tags := s.tags.drop t }

/-- A step of an operation: it waits, freezes, or goes on. -/
def State.crossStep (s : State) (t : TagRef) (x : Crossing) : Cmd State → State
  | .ok u => u
  | .error none => s
  | .error (some (tr, src)) => s.freezeCrossing t x tr src

/-- The state with an operation's record replaced. -/
def State.setCrossing (s : State) (t : TagRef) (x : Crossing) : State := s.setTag t { s.tag t with op := some (.crossing x) }

/-- Bytes read for an operation, opaque ones too, with whether each is. -/
def State.readOpen (s : State) (slot order : Nat) (snap : Map Key Byte) (own : Option TagRef) (a n : Nat) :
    Except (Option Trap) (List Byte × List Bool × State) :=
  if s.retiringSpan slot a n then .error none
  else match locateAll s slot .read true (spanPieces a n) with
  | .error e => .error (some e)
  | .ok ps =>
    match s.meetsBefore slot a n own none (some order) with
    | .stall _ => .error none
    | .poison p => .error (some (mkTrap .abortedLanding 4 p))
    | .clear => .ok (ps.flatMap fun p => (List.range p.2.2).map fun i => snap.get (s.readLoc p.1 i) (p.1.key + i),
                 ps.flatMap fun p => (List.range p.2.2).map fun _ => p.1.opq, s.ledAll ps)

/-- Bytes to the end of a 128-byte block, at most `n`. -/
def toBlockEnd (a n : Nat) : Nat := min (128 - a % 128) n

/-- The next bytes of an xput are read and sent (R390). -/
def State.putStep (s : State) (t : TagRef) (x : Crossing) : Cmd State := do
  let a := x.word 1 + x.sent
  let n := toBlockEnd a (x.len - x.sent)
  if n = 0 then return s
  let (b, o, s1) ← onSource (s.readOpen x.slot x.order x.snap (some t) a n)
  let last := x.sent + n == x.len
  let s2 := s1.sendPacket x.dev (s.packetOf x { addr := x.word 2, len := x.len, op := if o.any id then 1 else 0, value := x.sent, last := last, bytes := b })
  let s3 := s2.setCrossing t { x with sent := x.sent + n }
  return if last then s3.setTag t { s3.tag t with rd := true } else s3

/-- Free bytes: what another module holds. -/
def State.freeBytes (s : State) : Nat → List Byte × State
  | 0 => ([], s)
  | n + 1 => let (v, s1) := s.freeBits 8; let (l, s2) := State.freeBytes s1 n; (.ofNat 8 v :: l, s2)

/-- The next bytes of an xget are asked for; another module's come as free values. -/
def State.getStep (s : State) (t : TagRef) (x : Crossing) : State :=
  let n := toBlockEnd (x.word 1 + x.sent) (x.len - x.sent)
  let p := s.packetOf x { addr := x.word 2, len := x.len, op := n, value := x.sent, last := x.sent + n == x.len }
  if n = 0 then s
  else if s.isSelf x.dev then (s.setCrossing t { x with sent := x.sent + n }).sendPacket x.dev p
  else
    let (b, s1) := (s.sendPacket x.dev p).freeBytes n
    s1.setCrossing t { x with sent := x.sent + n, chunks := x.chunks ++ [{ pos := x.sent, bytes := b }] }

/-- The peers of an xa2a are read, and its posting goes to them (R394); a broken list ends with status 5. -/
def State.postAll (s : State) (t : TagRef) (x : Crossing) : Cmd State := do
  let n := bits (x.word 0) 28 16
  let q := bits (x.word 0) 15 0
  let (b, s1) ← onSource (s.readFor x.slot x.order x.snap (some t) (x.word 1) (4 * n))
  let peers := (List.range n).map fun i => fieldAt b (4 * i) 4
  let bad := peers.any fun p => decide (2 ^ 22 ≤ p)
  let post : Packet := { fn := 7, tenant := s.keyOf x.slot, seq := q }
  let s2 := (peers.filter fun p => !s.isSelf p && decide (p < 2 ^ 22)).foldl (fun (u : State) p => u.sendPacket p post) s1
  let mine := (s.keyOf x.slot, s.mgmt.devid, q)
  let s3 : State := { s2 with link := { s2.link with postings := if s.mgmt.devidSet then mine :: s2.link.postings else s2.link.postings } }
  return s3.setCrossing t { x with peers := peers, status := if bad then some 5 else x.status }

/-- Whether a peer has posted the SEQ of an operation. -/
def State.hasPosted (s : State) (x : Crossing) (dev : Nat) : Bool := s.link.postings.contains (s.keyOf x.slot, dev, bits (x.word 0) 15 0)

/-- The next bytes of an xa2a for the first peer that has posted and has not been sent everything. -/
def State.a2aStep (s : State) (t : TagRef) (x : Crossing) : Cmd State := do
  if x.peers.isEmpty then return ← s.postAll t x
  let open_ := (List.range x.peers.length).find? fun p =>
    s.hasPosted x (x.peers.getD p 0) && (match x.out.find? fun e => e.1 == p with
      | some (_, sent, total) => decide (sent < total)
      | none => true)
  match open_ with
  | none => return s
  | some p =>
    let (b, s1) ← onSource (s.readFor x.slot x.order x.snap (some t) (x.word 3 + 4 * p) 4)
    let esz := bits (x.word 0) 63 32
    let (sent, total) := x.out.get (0, leNat b * esz) p
    let a := x.word 2 + p * bits (x.word 6) 31 0 + sent
    let n := toBlockEnd a (total - sent)
    let (d, s2) ← if n = 0 then pure ([], s1) else onSource (s1.readFor x.slot x.order x.snap (some t) a n)
    let s3 := s2.sendPacket (x.peers.getD p 0) { fn := 1, tenant := s.keyOf x.slot, len := total, op := total / esz, value := sent,
                                                 seq := bits (x.word 0) 15 0, last := sent + n == total, bytes := d }
    return s3.setCrossing t { x with out := x.out.set p (sent + n, total) }

/-- CHUNK_ISSUE of a crossing operation. -/
def State.issueCrossing (s : State) (t : TagRef) (x : Crossing) : State :=
  if !s.mgmt.devidSet then s
  else if x.fn = 2 then s.crossStep t x (s.putStep t x)
  else if x.fn = 3 then s.getStep t x
  else if x.fn = 1 then s.crossStep t x (s.a2aStep t x)
  else s

/-- Bytes landed piece by piece, up to the first page that faults or, where `opq` says what the far end is, on which one end is opaque and the other not
(11_page R223): the bytes below it stay (R390). How many have landed, and the fault. -/
def State.landParts (s : State) (slot order : Nat) (opq : Option Bool) : List (Nat × Nat) → List Byte → State × Nat × Option Trap
  | [], _ => (s, 0, none)
  | (a, n) :: r, b =>
    match locate s slot a .write true with
    | .error t => (s, 0, some t)
    | .ok l =>
      if opq.any (· != l.opq) then (s, 0, some (mkTrap .opaquePage 2 a))
      else
        match s.landBytes slot order a (b.take n) true with
        | .error t => (s, 0, some t)
        | .ok u =>
          let v := u.landParts slot order opq r (b.drop n)
          (v.1, v.2.1 + n, v.2.2)

/-- CHUNK_LANDING of an xget: what came lands behind its watermark. -/
def State.landCrossing (s : State) (t : TagRef) (x : Crossing) : State :=
  match x.chunks with
  | [] => s
  | k :: r =>
    let a := x.word 1 + x.moved
    if x.fn ≠ 3 ∨ s.landingWaits x.slot x.order a k.bytes.length then s
    else
      match s.landParts x.slot x.order none (spanPieces a k.bytes.length) k.bytes with
      | (v, n, some e) => v.freezeCrossing t { x with moved := x.moved + n } e false
      | (u, _, none) =>
        let y := { x with moved := x.moved + k.bytes.length, chunks := r }
        ((u.setCrossing t y).setTag t { u.tag t with addr := a + k.bytes.length, op := some (.crossing y) }).settleWrites

/-! ### The far end (R390-R392) -/

/-- The tag of this module's operation of a number. -/
def State.crossingNo (s : State) (n : Nat) : Option (TagRef × Crossing) :=
  (s.tags.filterMap fun (e : TagRef × Tag) => match e.2.op with
    | some (.crossing x) => if x.order = n ∧ (e.2.st = .landing ∨ e.2.st = .frozen) then some (e.1, x) else none
    | _ => none).head?

/-- The answer of the far end, with a status and a value. -/
def State.answer (s : State) (p : Packet) (status result : Nat) : State :=
  if s.isSelf p.dev then
    match s.crossingNo p.seq with
    | some (t, x) => s.setCrossing t { x with status := some status, result := .ofNat 64 result }
    | none => s
  else { s with link := { s.link with performed := (p.dev, p.seq) :: s.link.performed } }.sendPacket p.dev
    { fn := 9, tenant := p.tenant, seq := p.seq, op := p.fn, value := status, len := result }

/-- Whether an operation that comes before a packet's has not been performed here (R390, R392). -/
def State.earlierOpen (s : State) (p : Packet) : Bool :=
  if s.isSelf p.dev then
    match s.crossingNo p.seq with
    | none => false
    | some (_, x) => !(s.orderBefore x).isEmpty
  else p.before.any fun n => !s.link.performed.contains (p.dev, n)

/-- An inbound landing that ends before its last byte: what stalled at it ends, and its landing slot is free. -/
def State.dropInbound (s : State) (i : Inbound) : State :=
  ({ s with link := { s.link with inbound := s.link.inbound.erase i } }.endStalled i.box).settleWrites

/-- The inbound operation that a packet belongs to. -/
def State.inboundOf (s : State) (get : Bool) (p : Packet) : Option Inbound :=
  s.link.inbound.find? fun i => i.get == get && i.dev == p.dev && i.seq == p.seq

/-- An operation of another module that it has cancelled ends here at the mark that it has reached (R395). -/
def State.stopInbound (s : State) (get : Bool) (p : Packet) : State :=
  let t := match s.inboundOf get p with
    | some i => if get then { s with link := { s.link with inbound := s.link.inbound.erase i } } else s.dropInbound i
    | none => s
  { t with link := { t.link with performed := (p.dev, p.seq) :: t.link.performed } }

/-- An operation under way here with its progress replaced. -/
def State.setInbound (s : State) (i j : Inbound) : State := { s with link := { s.link with inbound := s.link.inbound.map fun k => if k = i then j else k } }

/-- XPUT_ARRIVAL: bytes of an xput land behind its watermark; the first takes a landing slot. -/
def execXputArrival (p : Packet) (s : State) : Host.Outcome State Fault Refusal :=
  happen (match s.receive 2 p with
    | none => s
    | some u =>
      if p.stop then u.stopInbound false p
      else if s.earlierOpen p then s
      else
        match s.inboundOf false p, s.jobContext p.tenant with
        | none, none => if p.value = 0 then u.answer p 5 0 else u
        | found, ctx =>
          if found.isNone ∧ p.value ≠ 0 then u
          else
            let i : Inbound := found.getD { dev := p.dev, seq := p.seq, get := false, slot := ctx.getD 0, addr := p.addr, len := p.len, pos := 0, order := s.nextOp }
            let a := i.addr + i.pos
            if i.pos ≠ p.value ∨ (found.isNone ∧ s.slotsFree { owner := .core 255, tag := 64 } i.slot [i.box.shape] = false) ∨
                s.landingWaits i.slot i.order a p.bytes.length then s
            else
              match u.landParts i.slot i.order (some (p.op == 1)) (spanPieces a p.bytes.length) p.bytes with
              | (v, n, some _) =>
                let j := { i with pos := i.pos + n }
                ((v.setInbound i j).dropInbound j).answer p 1 0
              | (v, _, none) =>
                let j := { i with pos := i.pos + p.bytes.length }
                let rest := v.link.inbound.filter fun k => decide (k ≠ i)
                let w : State := { v with nextOp := if found.isNone then v.nextOp + 1 else v.nextOp,
                                          link := { v.link with inbound := if p.last then rest else j :: rest } }
                if p.last then w.settleWrites.answer p 0 0 else w.settleWrites)

/-- XGET_ARRIVAL: bytes are read for an xget, with one version of a table. -/
def execXgetArrival (p : Packet) (s : State) : Host.Outcome State Fault Refusal :=
  happen (match s.receive 3 p with
    | none => s
    | some u =>
      if p.stop then u.stopInbound true p
      else if s.earlierOpen p then s
      else
        match s.inboundOf true p, s.jobContext p.tenant with
        | none, none => u.answer p 5 0
        | found, ctx =>
          let i : Inbound := found.getD { dev := p.dev, seq := p.seq, get := true, slot := ctx.getD 0, addr := p.addr, len := p.len, pos := 0, order := s.nextOp }
          let rest := u.link.inbound.filter fun k => decide (k ≠ i)
          match u.readOpen i.slot i.order i.snap none (i.addr + p.value) p.op with
          | .error none => s
          | .error (some _) => { u with link := { u.link with inbound := rest } }.answer p 1 0
          | .ok (b, o, v) =>
            let w : State := { v with nextOp := if found.isNone then v.nextOp + 1 else v.nextOp,
                                      link := { v.link with inbound := if p.last then rest else i :: rest } }
            if s.isSelf p.dev then
              match w.crossingNo p.seq with
              | some (t, x) =>
                (match locate w x.slot (x.word 1 + p.value) .write true with
                 | .ok l =>
                   (match (List.range o.length).find? fun k => o[k]? ≠ some l.opq with
                    | some k => w.freezeCrossing t x (mkTrap .opaquePage 2 (x.word 1 + p.value + k)) false
                    | none => w.setCrossing t { x with chunks := x.chunks ++ [{ pos := p.value, bytes := b }] })
                 | .error e => w.freezeCrossing t x e false)
              | none => w
            else
              let z : State := if p.last then { w with link := { w.link with performed := (p.dev, p.seq) :: w.link.performed } } else w
              z.sendPacket p.dev { fn := 9, op := 3, tenant := p.tenant, seq := p.seq, value := p.value, last := p.last, bytes := b })

/-- The function of an xamo (R391). -/
def amoFn (p : Packet) (n : Nat) : AtomicFn :=
  let u := bit p.op 4
  match bits p.op 2 0 with
  | 0 => .add | 1 => .and | 2 => .or | 3 => .xor | 4 => .min u | 5 => .max u | 6 => .swp | _ => .cas (p.len % 2 ^ (8 * n))

/-- An xamo on a chip semaphore: status, old value, state. -/
def State.amoSem (s : State) (c : Nat) (p : Packet) (n b : Nat) : Nat × Nat × State :=
  let i := (p.addr - semWindow) / 4
  let f := amoFn p n
  let old := (s.chipSem c i).toNat
  if n ≠ 4 ∨ f.inWindow = false ∨ (s.ctx c).semCount ≤ i then (1, 0, s)
  else
    match f with
    | .add => (match s.semSum c i (signed32 b) with
        | none => (3, old, s)
        | some v => (0, old, s.setChipSem c i v))
    | _ => (0, old, s.setChipSem c i (.ofNat 32 (f.apply 4 old b)))

/-- An xamo on memory: none while it waits. -/
def State.amoMem (s : State) (c : Nat) (p : Packet) (n b : Nat) : Option (Nat × Nat × State) :=
  let f := amoFn p n
  match locateAll s c .atomic false (spanPieces p.addr n) with
  | .error _ => some (1, 0, s)
  | .ok ps =>
    if ps.any (fun e => e.1.home == 2) && !(f.atHost && s.link.feat.getLsbD 1) then some (1, 0, s)
    else
      match s.meets c p.addr n none with
      | .stall _ => none
      | .poison _ => some (1, 0, s)
      | .clear =>
        let old := leNat (s.readPieces ps)
        some (0, old, (s.ledAll ps).writePieces ps (leBytes n (f.apply n old b)))

/-- XAMO_ARRIVAL: one atomic of another module, or of this one on itself. -/
def execXamoArrival (p : Packet) (s : State) : Host.Outcome State Fault Refusal :=
  happen (match s.receive 4 p with
    | none => s
    | some u =>
      if s.earlierOpen p then s
      else
        match s.jobContext p.tenant with
        | none => u.answer p 5 0
        | some c =>
          let n := if bit p.op 3 then 8 else 4
          let b := p.value % 2 ^ (8 * n)
          if p.addr % n ≠ 0 then u.answer p 1 0
          else if regionOf p.addr = .sem then
            let (st, old, v) := u.amoSem c p n b
            v.answer p st old
          else
            match u.amoMem c p n b with
            | none => s
            | some (st, old, v) => v.answer p st old)

/-- XSIG_ARRIVAL: an add to a chip semaphore, after every earlier operation of its core to this module (R392). -/
def execXsigArrival (p : Packet) (s : State) : Host.Outcome State Fault Refusal :=
  happen (match s.receive 5 p with
    | none => s
    | some u =>
      if s.earlierOpen p then s
      else
        match s.jobContext p.tenant with
        | none => u.answer p 5 0
        | some c =>
          if (s.ctx c).semCount ≤ p.addr then u.answer p 3 0
          else
            match u.semSum c p.addr (signed32 (p.value % 2 ^ 32)) with
            | none => u.answer p 3 0
            | some v => (u.setChipSem c p.addr v).answer p 0 0)

/-! ### All-to-all (R394) -/

/-- XA2A_POSTING: a peer has posted a SEQ for a job. -/
def execXa2aPosting (p : Packet) (s : State) : Host.Outcome State Fault Refusal :=
  happen (
    let e := (p.tenant, p.dev, p.seq)
    if !s.mgmt.devidSet || p.fn != 7 || s.link.postings.contains e then s else { s with link := { s.link with postings := e :: s.link.postings } })

/-- The xa2a of a job's context with a SEQ that is outstanding. -/
def State.collective (s : State) (p : Packet) : Option (TagRef × Crossing) :=
  (s.tags.filterMap fun (e : TagRef × Tag) => match e.2.op with
    | some (.crossing x) => if x.fn = 1 ∧ s.keyOf x.slot = p.tenant ∧ bits (x.word 0) 15 0 = p.seq ∧ e.2.st = .landing ∧ ¬ x.peers.isEmpty then some (e.1, x)
        else none
    | _ => none).head?

/-- The worse of two statuses of an xa2a: a broken list over a full segment. -/
def worse (a : Option Nat) (b : Nat) : Option Nat := some (max (a.getD 0) b)

/-- Bytes of a peer's segment land, as far as the segment goes; with the last, RCNT. -/
def State.a2aLand (s : State) (x : Crossing) (q : Nat) (p : Packet) : Cmd State := do
  let room := bits (x.word 6) 63 32
  let b := p.bytes.take (room - p.value)
  let s1 ← if b.isEmpty then pure s else s.writeFor x.slot x.order (x.word 4 + q * room + p.value) b
  if p.last then s1.writeFor x.slot x.order (x.word 5 + 4 * q) (leBytes 4 p.op) else return s1

/-- XA2A_ARRIVAL: a peer's bytes land at its place in the receive buffer. -/
def execXa2aArrival (p : Packet) (s : State) : Host.Outcome State Fault Refusal :=
  happen (match s.receive 1 p with
    | none => s
    | some u =>
      match s.collective p with
      | none => s
      | some (t, x) =>
        match (List.range x.peers.length).filter fun i => x.peers.getD i 0 == p.dev with
        | [q] =>
          let (got, _) := x.came.get (0, p.len) q
          if got ≠ p.value then s
          else
            match u.a2aLand x q p with
            | .error none => s
            | .error (some (tr, src)) => s.freezeCrossing t x tr src
            | .ok v =>
              let tooMany := bits (x.word 6) 63 32 < p.value + p.bytes.length
              let y := { x with came := x.came.set q (got + p.bytes.length, p.len), status := if tooMany then worse x.status 2 else x.status }
              let w := v.setCrossing t y
              if p.last ∧ s.isSelf p.dev = false then w.sendPacket p.dev { fn := 9, op := 1, tenant := p.tenant, seq := p.seq, value := y.status.getD 0 } else w
        | _ =>
          let w := u.setCrossing t { x with status := worse x.status 5 }
          if s.isSelf p.dev then w else w.sendPacket p.dev { fn := 9, op := 1, tenant := p.tenant, seq := p.seq, value := 5 })

/-! ### xbkt (R393) -/

/-- The peer of an index under a shard map, none where no entry gives one. -/
def State.shardPeer (s : State) (t : TagRef) (x : Crossing) (map header : Nat) (entries : List Byte) (r : Nat) : Except (Option Trap) (Option Nat × State) :=
  match bits header 1 0 with
  | 0 =>
    let es := (List.range (bits header 63 32)).map fun i => (fieldAt entries (8 * i) 6, bits (fieldAt entries (8 * i) 8) 59 48)
    .ok (((es.takeWhile fun e => decide (e.1 ≤ r)).getLast?).map (·.2), s)
  | 1 =>
    let ln := bits header 12 8
    let k := if ln = 0 then 0 else r * 0x9E6D3B51A7C248F5 % 2 ^ 64 / 2 ^ (64 - ln)
    (s.readFor x.slot x.order x.snap (some t) (map + 8 + 2 * k) 2).map fun e => (some (leNat e.1), e.2)
  | _ => .ok (none, s)

/-- What xbkt has done so far. -/
structure Buckets where
  cnt : Map Nat Nat := []
  writes : List (Nat × List Byte) := []
  pos : List Nat := []
  status : Nat := 0

/-- The indices from `i` on put into their buckets. -/
def State.bucketAll (s : State) (t : TagRef) (x : Crossing) (map header : Nat) (entries : List Byte) :
    List Nat → Buckets → Except (Option Trap) (Buckets × State)
  | [], b => .ok (b, s)
  | i :: rest, b => do
    let i64 := bit (x.word 0) 12
    let z := if i64 then 8 else 4
    let cap := bits (x.word 6) 31 0
    let (v, s1) ← s.readIndex x.slot x.order t (x.word 1) i64 i
    let (p, s2) ← if v < 0 then pure ((none : Option Nat), s1) else s1.shardPeer t x map header entries v.toNat
    let fail := fun (c : Buckets) (st : Nat) => { c with pos := c.pos ++ [0xFFFFFFFF], status := if c.status = 0 then st else c.status }
    let b1 := match p with
      | none => fail b 6
      | some q =>
        if bits (x.word 0) 28 16 ≤ q then fail b 6
        else
          let n := b.cnt.get 0 q
          let c := { b with cnt := b.cnt.set q (n + 1) }
          if n < cap then { c with pos := c.pos ++ [q * cap + n], writes := c.writes ++ [(x.word 3 + z * (q * cap + n), leBytes z v.toNat)] }
          else fail c 2
    s2.bucketAll t x map header entries rest b1

/-- Writes made in order. -/
def State.writeList (s : State) (slot order : Nat) : List (Nat × List Byte) → Cmd State
  | [] => .ok s
  | (a, b) :: r => if b.isEmpty then s.writeList slot order r else do let u ← s.writeFor slot order a b; u.writeList slot order r

/-- An xbkt whole: buckets, counts, positions, and its status. -/
def State.bucketStep (s : State) (t : TagRef) (x : Crossing) : Cmd State := do
  let w0 := x.word 0
  let map := if bit w0 10 then tblShard ((s.ctx x.slot).table (bits w0 9 0)) else x.word 2
  let (h, s1) ← onSource (s.readFor x.slot x.order x.snap (some t) map 8)
  let header := leNat h
  let (es, s2) ← if bits header 1 0 = 0 ∧ bits header 63 32 ≠ 0 then onSource (s1.readFor x.slot x.order x.snap (some t) (map + 8) (8 * bits header 63 32)) else pure ([], s1)
  let (b, s3) ← onSource (s2.bucketAll t x map header es (List.range (bits w0 63 32)) {})
  let cnt := (List.range (bits w0 28 16)).flatMap fun p => leBytes 4 (b.cnt.get 0 p)
  let s4 ← s3.writeList x.slot x.order (b.writes ++ [(x.word 4, cnt), (x.word 5, b.pos.flatMap fun p => leBytes 4 p)])
  return s4.endCrossing t x b.status

/-! ### Completion, timeout, cancelling (R389, R395) -/

/-- A free choice from a list. -/
def State.choose (s : State) (l : List Nat) : Nat × State := (l.getD (Config.free s.tick % l.length) 0, { s with tick := s.tick + 1 })

/-- An xamo ends: the old value goes to RES, where the atomic gave one. -/
def State.endAmo (s : State) (t : TagRef) (x : Crossing) (status : Nat) (old : Word) : Cmd State := do
  let s1 ← if status = 0 ∨ status = 3 then s.writeFor x.slot x.order (x.addr.toNat + 48) (leBytes 8 old.toNat) else pure s
  return s1.endCrossing t x status

/-- Whether everything of an xa2a has gone and come. -/
def Crossing.allMoved (x : Crossing) : Bool :=
  let whole := fun (m : Map Nat (Nat × Nat)) => (List.range x.peers.length).all fun p => match m.find? fun e => e.1 == p with
    | some (_, n, total) => n == total
    | none => false
  !x.peers.isEmpty && whole x.out && whole x.came

/-- The operation of an xa2a whose postings are used up. -/
def State.endCollective (s : State) (t : TagRef) (x : Crossing) (status : Nat) : State :=
  { s with link := { s.link with postings := s.link.postings.filter fun e => !(e.1 == s.keyOf x.slot && e.2.2 == bits (x.word 0) 15 0) } }.endCrossing t x status

/-- The statuses that an xamo to another module can end with (R391): a REMOTE that is not aligned and a form that the semaphore window does not accept
give 1, and only an add to a semaphore gives 3. -/
def Crossing.amoStatuses (x : Crossing) (p : Packet) : List Nat :=
  let n := if bit p.op 3 then 8 else 4
  let f := amoFn p n
  let sem := regionOf p.addr = .sem
  if p.addr % n ≠ 0 ∨ (sem ∧ (n ≠ 4 ∨ f.inWindow = false)) then [1, 5]
  else if sem ∧ f = .add then [0, 1, 3, 5]
  else [0, 1, 5]

/-- How an xput, xget, xamo or xsig to another module ends: a free choice among the statuses that fit how far it is. One that comes after others waits for
them, or does not reach its module (R390, R392). -/
def State.endFar (s : State) (t : TagRef) (x : Crossing) : Cmd State :=
  if !(s.orderBefore x).isEmpty then
    let (st, s1) := s.choose [0, 5]
    .ok (if st = 5 then s1.endCrossing t x 5 else s1)
  else if x.fn = 4 then
    let (st, s1) := s.choose (x.amoStatuses (s.callPacket x))
    let (v, s2) := s1.freeBits (if bit (x.word 0) 36 then 64 else 32)
    s2.endAmo t x st (.ofNat 64 v)
  else if x.fn = 5 then
    let (st, s1) := s.choose [0, 3, 5]
    .ok (s1.endCrossing t x st)
  else if x.fn = 3 ∧ x.moved = x.len then .ok (s.endCrossing t x 0)
  else
    let (st, s1) := s.choose (if x.fn = 2 ∧ x.sent = x.len then [0, 1, 5] else [1, 5])
    .ok (s1.endCrossing t x st)

/-- CROSSING_COMPLETION: the operation on a tag ends where it can. Of an xa2a it stands for the acknowledgements of the other modules too, with the status
that each gives of its end (R394). -/
def execCrossingCompletion (t : TagRef) (s : State) : Host.Outcome State Fault Refusal :=
  happen (match (s.tag t).st, (s.tag t).op with
    | .landing, some (.crossing x) =>
      if !s.mgmt.devidSet then s.endCrossing t x 5
      else if x.fn = 0 then s.crossStep t x (s.bucketStep t x)
      else if x.fn = 1 then
        if x.status = some 5 ∨ x.allMoved then
          let (far, s1) := if x.peers.any fun p => !s.isSelf p then s.choose [0, 2, 5] else (0, s)
          s1.endCollective t x (max (x.status.getD 0) far)
        else if x.peers.any fun p => !s.isSelf p && !s.hasPosted x p then s.endCollective t x 5
        else s
      else if s.isSelf x.dev then
        match x.status with
        | some st => if x.fn = 4 then s.crossStep t x (s.endAmo t x st x.result) else s.endCrossing t x st
        | none => if x.fn = 3 ∧ x.moved = x.len then s.endCrossing t x 0 else s
      else s.crossStep t x (s.endFar t x)
    | _, _ => s)

/-- An operation that stops short: what it lands here or, on this module, there ends at its mark, as a fault ends it (R390). -/
def State.stopShort (s : State) (x : Crossing) : State :=
  match s.link.inbound.find? fun i => s.isSelf i.dev && i.seq == x.order with
  | some i => if i.get then { s with link := { s.link with inbound := s.link.inbound.erase i } } else s.dropInbound i
  | none => s

/-- Another module told that an xput or xget to it is cancelled (R395). -/
def State.stopFar (s : State) (x : Crossing) : State :=
  if (x.fn = 2 ∨ x.fn = 3) ∧ s.isSelf x.dev = false then s.sendPacket x.dev { s.packetOf x { addr := x.word 2, len := x.len } with stop := true } else s

/-- TMO_EXPIRY: the timeout of an operation ends it with status 4. -/
def execTmoExpiry (t : TagRef) (s : State) : Host.Outcome State Fault Refusal :=
  happen (match (s.tag t).st, (s.tag t).op with
    | .landing, some (.crossing x) =>
      if x.timeout = 0 ∨ s.wall < x.issued + 1000 * x.timeout then s
      else
        let b := boxesOf t (s.tag t)
        let s1 := s.stopShort x
        let s2 := if x.fn = 1 then s1.endCollective t x 4 else (s1.endCrossing t x 4).stopFar x
        b.foldl (fun (u : State) c => u.endStalled c) s2
    | _, _ => s)

/-- fcan on a crossing tag (R395): status 7; only an xget poisons, at its mark. -/
def State.cancelCrossing (s : State) (t : TagRef) (x : Crossing) : State :=
  let s1 := ((s.stopShort x).dropPackets x).stopFar x
  let g := s.tag t
  let g1 : Tag := { g with st := .cancelled, rd := true, trp := false, xst := 7, addr := markOf g, op := if x.fn = 3 then some (.crossing { x with chunks := [] }) else none }
  { (s1.setTag t g1) with atraps := s1.atraps.filter fun a => decide (a.tag ≠ some t) }.settleWrites

end Sys2Proof.Machine
end

