-- ==== Sys2Proof/Machine/Commit.lean ====
section
/-! DEFINITION. qcommit: the deferred effects of a tile performed in order (07_group R158, R160, R161). -/

namespace Sys2Proof.Machine

/-- An entry that a commit performs: a semaphore add that overflows is not applied, and the trap waits for the end. -/
def State.performEntry (s : State) (e : Deferred) : Except Stop (Bool × State) :=
  match e with
  | .semAdd i v =>
    match s.semSum s.mySlot i v.toInt with
    | some w => .ok (true, s.setWindowSem i w)
    | none => .ok (false, s)
  | .put q b =>
    if (Cond.windowRoom s.myCoreNo).holds s then .ok (true, s.sendPut s.myCoreNo s.mySlot q b false)
    else waitFor 10 q (.windowRoom s.myCoreNo)
  | .xsig n d v => do
    s.awaitTag (.ofNat 6 n)
    return (true, s.startCall (s.myTag n) { s.crossingOf 5 with addr := d, value := v })
  | .supd n b o => do
    s.awaitTag (.ofNat 6 n)
    return (true, s.startCommand (s.myTag n) { s.embeddingOf 2 with block := b, opt := o, table := blkTable b })

/-- The entries of the commit buffer performed in order, each removed as it is; `a` is 0, or 1 more than the first semaphore that overflowed. -/
def commitEntries : Nat → Nat → State → Except Stop (Nat × State)
  | 0, a, s => .ok (a, s)
  | n + 1, a, s =>
    match s.myCore.cbuf with
    | [] => .ok (a, s)
    | e :: r =>
      match s.performEntry e with
      | .ok (ok, t) =>
        let first := match e with
          | .semAdd i _ => if ok = false ∧ a = 0 then i + 1 else a
          | _ => a
        commitEntries n first (t.setMyCore { t.myCore with cbuf := r })
      | .error (.wait kind obj c _) => waitKeeping kind obj c (s.setResume (some (s.resumeRec .commit a)))
      | .error e => .error e

/-- The tile is committed: with the last, the card completes (R160). -/
def State.tileDone (s : State) (g : Nat) : State :=
  let k := s.myCore
  let r := s.group g
  let r1 := { r with committed := r.committed + 1 }
  let s1 := (s.setGroup g r1).setMyCore { k with opened := false, cbuf := [], committing := false }
  if r.committed + 1 = r.tiles then s1.finish r.slot r.q r.card 0 (some g) r.members else s1

/-- qcommit. -/
def execQcommit (sd : BitVec 5) (s : State) : Host.Outcome State Fault Refusal :=
  issue s fun s => do
    let (g, _) ← s.myGroup
    if !s.myCore.opened then return s.wr sd 1
    let c := Cond.coreWrites s.myCoreNo
    let started := s.resumed .commit
    if started.isNone ∧ c.holds s = false then waitFor 10 0xFD c
    let s0 := s.setMyCore { s.myCore with committing := true }
    let (a, s1) ← commitEntries (s.myCore.cbuf.length + 1) ((started.map (·.a)).getD 0) s0
    let s2 := ((s1.tileDone g).setResume none).wr sd 0
    return if a = 0 then s2 else s2.defer (mkTrap .semOverflow (semInfo (a - 1)))

end Sys2Proof.Machine
end

