-- ==== Sys2Proof/Machine/Waits.lean ====
section
/-! DEFINITION. The ends of waits and idle times, and the delivery of traps that wait (05_kernel R116, R125; 12_scalar R260; 19_faults R398,
R399, R402, R403). -/

namespace Sys2Proof.Machine

/-- PAUSE_EXPIRY: a pause whose clocks have passed ends. -/
def execPauseExpiry (who : Agent) (s : State) : Host.Outcome State Fault Refusal :=
  happen (
    let q := s.seq who
    if q.idleUntil ≠ 0 ∧ q.idleUntil ≤ s.clk then s.setSeq who { q with idleUntil := 0 } else s)

/-- A blocked sequencer that issues its step again. -/
def State.wakeUp (s : State) (a : Agent) : State := (s.setSeq a { s.seq a with run := .running }).unstick a

/-- WFE_TIMEOUT: the time of a wfe that waits has passed. -/
def execWfeTimeout (core : Nat) (s : State) : Host.Outcome State Fault Refusal :=
  happen (
    let a := Agent.seq core sqC
    match (s.seq a).run, (s.seq a).wait with
    | .blocked, some w => match w.cond with
      | .event _ t => if t ≠ 0 ∧ t ≤ s.wall - w.sinceWall ∧ s.mayIssue a then s.wakeUp a else s
      | _ => s
    | _, _ => s)

/-- WAIT_END: what a blocked sequencer waits for has come about; held tokens enter as room appears (R119). -/
def execWaitEnd (who : Agent) (s : State) : Host.Outcome State Fault Refusal :=
  happen (
    let q := s.seq who
    if s.mayIssue who = false ∨ q.run ≠ .blocked then s
    else if !q.heldTok.isEmpty then s.flushTokens who
    else match q.wait with
      | some w => if w.over s then s.wakeUp who else s
      | none => s)

/-- Whether a sequencer's count has reached the watchdog limit of its core (R402, R403). -/
def State.overdue (s : State) (c : Nat) (a : Agent) : Option Wait :=
  let q := s.seq a
  match q.run, q.wait with
  | .blocked, some w =>
    if 1 ≤ w.kind ∧ w.kind ≤ 10 ∧ (s.core c).wdog.toNat * 1000 ≤ s.wall - w.sinceWall then some w else none
  | _, _ => none

/-- WATCHDOG_TIMEOUT: the first overdue sequencer in the ring order takes the trap at its step. -/
def execWatchdogTimeout (core : Nat) (s : State) : Host.Outcome State Fault Refusal :=
  happen (
    if (s.core core).wdog = 0 ∨ (s.core core).bank.isSome ∨ s.mayIssue (.seq core sqC) = false then s
    else match (List.range 6).findSome? fun q => (s.overdue core (.seq core q)).map fun w => (Agent.seq core q, w) with
      | some (a, w) => s.raiseWaiting a (mkTrap .watchdog (w.kind + w.obj % 256 * 2 ^ 8))
      | none => s)

/-- The traps that wait for a step boundary of a core's sequencers, or of a copy sequencer, and can be delivered now: a held sequencer's waits
until it goes on. -/
def State.deliverable (s : State) (l : List Agent) : Option AsyncTrap :=
  l.findSome? fun a => if (s.seq a).run = .held then none else s.waitingTrap a

/-- TRAP_DELIVERY: on a core the first in the ring order (R399), then those of the copy sequencers that the core serves; numbers 128 to 131 name
the copy sequencers themselves. -/
def execTrapDelivery (core : Nat) (s : State) : Host.Outcome State Fault Refusal :=
  happen (
    let own := if core < 128 then (List.range 6).map (Agent.seq core ·) else [Agent.copy (core - 128)]
    let l := own.filter fun a => s.inUse a && (s.ctx (s.slotOf a)).st == .running
    match s.deliverable l with
    | some t => s.deliverAsync t
    | none => s)

end Sys2Proof.Machine
end

