-- ==== Sys2Proof/Machine/Context.lean ====
section
/-! DEFINITION. ctxsv and ctxld (04_context R109, R110); pre-emption, saving and restoring (R99-R105). -/

namespace Sys2Proof.Machine

/-! ### ctxsv and ctxld -/

/-- Both forms act in trap mode on an image of 64 KiB alignment. -/
def State.imageBase (s : State) (sa : BitVec 5) : Except Stop Nat :=
  let a := (s.src sa).toNat
  if s.myCore.bank.isNone then raise .permission 1
  else if a % 65536 ≠ 0 then raise .misalignment 0 a
  else .ok a

/-- The writes of ctxsv: a fault leaves those before it (R109); a poisoned byte discards its write (15_ferry R323). -/
def State.writeImage : List (Nat × List Byte) → State → Except Stop State
  | [], s => .ok s
  | (a, b) :: r, s =>
    match locateAll s s.mySlot .write false (spanPieces a b.length) with
    | .error t => .error (.trap t (some s))
    | .ok ps =>
      match s.meets s.mySlot a b.length none with
      | .poison p => State.writeImage r (s.defer (mkTrap .abortedLanding 2 p))
      | _ => State.writeImage r ((s.ledAll ps).writePieces ps b)

/-- The sequencer whose trap the handler serves, as the core's trap record names it. -/
def Core.trapped (k : Core) : Option Nat := if bits k.trec.seq.toNat 2 0 ≤ 5 then some (bits k.trec.seq.toNat 2 0) else none

/-- ctxsv: its writes wait for the landings that they meet. -/
def execCtxsv (sd sa : BitVec 5) (s : State) : Host.Outcome State Fault Refusal :=
  issue s fun s => do
    let a ← s.imageBase sa
    let l := imageWrites a (s.coreImage s.myCoreNo s.myCoreNo s.myCore.trapped true)
    let n := imageSize s.myCore.saveRegs.length
    match s.meetsRead a n with
    | .stall t => s.stallRead a n t
    | _ => return (← s.writeImage l).wr sd (.ofNat 64 n)

/-- The bytes of an image below its registers, for a kernel with a number of accumulators. -/
def mainSize (k : Core) : Nat := 0x6000 + 0x4000 * (k.kern.map (·.accs)).getD 0

/-- ctxld: the image is read and checked now, and taken at the next rft. -/
def execCtxld (sa : BitVec 5) (s : State) : Host.Outcome State Fault Refusal :=
  issue s fun s => do
    let a ← s.imageBase sa
    s.awaitHeld 8 s.heldObj
    let (h, _) ← s.loadBytes a 0x18
    let w := fld8 h 0 8
    if bits w 7 0 ≠ 1 ∨ bits w 15 8 ≠ s.myCtx.id then raise .permission 2
    if fld8 h 8 8 ≠ (s.myCore.kern.map (·.base)).getD 0 then raise .permission 3
    let (m, s1) ← s.loadBytes a (mainSize s.myCore)
    let n := (liveIn m).length
    let (r, s2) ← if n = 0 then pure (([] : List Byte), s1) else s1.loadBytes (a + 0x46000) (512 * n)
    let k := s2.myCore
    return s2.setMyCore { k with bank := k.bank.map fun b => { b with loaded := some (m, r) } }

/-! ### What is saved -/

/-- The cores bound to a context, and the copy sequencers that run its cards. -/
def State.boundCores (s : State) (slot : Nat) : List Nat := (List.range 128).filter fun c => (s.core c).slot == some slot
def State.boundCopies (s : State) (slot : Nat) : List Nat := (List.range 4).filter fun n => (s.cseq n).busy && (s.cseq n).slot == slot

/-- The names under which a suspended context's cores and copy sequencers are kept. -/
def savedCore (slot c : Nat) : Nat := c + 128 * (slot + 1)
def savedCopy (slot n : Nat) : Nat := n + 4 * (slot + 1)

/-- Whether the next byte of a copy's source is not behind a watermark. -/
def State.sourceOpen (s : State) (t : TagRef) (c : Copy) : Bool :=
  match s.sourceByte c t c.rpos with
  | .error none => false
  | _ => true

/-- Whether an operation of a context has not come to the point at which a pre-emption stops it (R100): a chunk on its way, or an embedding
command that runs to its end. -/
def State.opMoving (s : State) (slot : Nat) (t : TagRef) (g : Tag) : Bool :=
  match g.op with
  | some (.copy c) => c.slot == slot && g.st == .landing && (!c.chunks.isEmpty || (c.midBag && s.sourceOpen t c))
  | some (.embedding e) => e.slot == slot && g.st == .landing && e.fn != 0
  | _ => false

/-- Whether a trap waits that is delivered before its core is saved, in trap mode (R99; 19_faults R399). -/
def State.trapDue (s : State) (slot : Nat) : Bool :=
  ((s.boundCores slot).any fun c => (s.deliverable ((List.range 6).map (Agent.seq c ·))).isSome) ||
    (s.boundCopies slot).any fun n => (s.deliverable [.copy n]).isSome

/-- Whether every unit of a context has come to its stopping point (R99-R102). -/
def State.canSave (s : State) (slot : Nat) : Bool :=
  let cs := s.boundCores slot
  !s.trapDue slot && !(s.disp.finishing.any fun f => f.slot == slot) && cs.all (fun c => !s.mustRetire (.seq c sqC)) &&
  !(s.tags.any fun e => s.opMoving slot e.1 e.2) && !(s.disp.flights.any fun f => f.slot == slot && f.sender.isSome) &&
  (match (s.ctx slot).claim with
   | some m => m.ready && (s.commandNext slot m).isNone
   | none => true)

/-- A sequencer at its step boundary, its wait record kept for the image (R101); a pause ends (05_kernel R125). -/
def State.stopForSave (s : State) (a : Agent) : State :=
  if s.seqs.has a then
    let t := s.abandon a
    t.setSeq a { t.seq a with idleUntil := 0 }
  else s

/-- A bsin at a plane boundary: the elements of its segment are read again for the remaining planes (16_bitserial R352). -/
def Tag.reread (g : Tag) (slot : Nat) : Tag :=
  match g.op with
  | some (.transfer x) => if x.slot = slot ∧ x.out = false then { g with op := some (.transfer { x with buf := [] }) } else g
  | _ => g

/-- Every sequencer of a context at its step boundary, every bsin of it at its plane boundary. -/
def State.stopAll (s : State) (slot : Nat) : State :=
  let t := (s.seqs.map (·.1)).foldl (fun (t : State) a => if t.slotOf a = slot ∧ t.inUse a then t.stopForSave a else t) s
  { t with tags := t.tags.map fun e => (e.1, e.2.reread slot) }

/-- The writes of the core images of a context (R103); the trap of a core whose fault was found at its save is pending on C (19_faults R408). -/
def State.imagesOf (s : State) (slot : Nat) : List (Nat × List Byte) :=
  (s.boundCores slot).flatMap fun c =>
    let p := if (s.core c).failing.isSome then some sqC else (s.atraps.find? fun t => s.coreOf t.who == some c).map fun t => match t.who with
      | .seq _ q => q
      | _ => sqC
    imageWrites ((s.ctx slot).savebase + c * 0xB0000) (s.coreImage c c p false)

/-- A copy sequencer in the context record (06_queue R148): its record, its descriptors, its tags, its card. -/
def State.copyRecord (s : State) (n : Nat) : List Byte :=
  let r := s.cseq n
  let q := s.seq (.copy n)
  pad 0x1200 (q.record false (s.atraps.any fun t => t.who == .copy n) [] [] ++
    (List.range 16).flatMap (fun i => leBytes 64 (q.fd.get 0 i).toNat) ++
    (List.range 64).flatMap (fun i =>
      let g := s.tag { owner := .copy n, tag := i }
      leBytes 8 g.word.toNat ++ [.ofNat 8 g.xst, boolByte g.lost, 0, 0, 0, 0, 0, 0]) ++
    pad 128 r.card ++ [boolByte r.busy, boolByte r.loaded, boolByte r.halted, .ofNat 8 r.q])

/-- The claim in the context record (16_bitserial R341). -/
def Ctx.claimRecord (x : Ctx) : List Byte :=
  match x.claim with
  | some m => leBytes 4 m.slices.toNat ++ leBytes 1 m.ways ++ [boolByte m.ready, boolByte m.releasing, 1]
  | none => List.replicate 8 0

/-- The completed crossing operations of a context's cores that no xwait has seen (R100), 16 bytes each: core, tag, status, value. -/
def State.latchedRecord (s : State) (slot : Nat) : List Byte :=
  (s.boundCores slot).flatMap fun c => (List.range 64).flatMap fun i =>
    let g := s.tag { owner := .core c, tag := i }
    if g.xst ≠ 0 then leBytes 1 c ++ leBytes 1 i ++ leBytes 6 g.xst ++ (match g.op with
      | some (.crossing y) => leBytes 8 y.result.toNat
      | _ => leBytes 8 0)
    else []

/-- The replay windows of a context's cores in the context record (06_queue R146), 144 bytes for each put: core, queue, blocking, waiting, the
put's number, the card. -/
def State.windowRecord (s : State) (slot : Nat) : List Byte :=
  (s.boundCores slot).flatMap fun c => ((s.core c).win.filter fun w => w.slot == slot).flatMap fun w =>
    leBytes 1 c ++ leBytes 1 w.q ++ [boolByte w.blocking, boolByte (w.st == .waiting)] ++ leBytes 12 w.num ++ pad 128 w.card

/-- The write of the context record (R103): FSTOP with its arrivals (10_barrier R199), the claim, the four copy sequencers, what crossing
operations have latched, and the replay windows. Its layout is the model's (log 20); a restore takes what the device has kept. Windows past their place of 0x97B0 bytes
are not written (log 114). -/
def State.contextWrites (s : State) (slot : Nat) : List (Nat × List Byte) :=
  let x := s.ctx slot
  let w := s.windowRecord slot
  imageWrites (x.savebase + 0x5800000)
    [(0, pad 0x40 (leBytes 8 (x.fstopPhase.toNat + x.fstopArr.length * 2 ^ 32 + x.fstopN * 2 ^ 40) ++ rankBits x.fstopArr ++ x.claimRecord)),
     (0x40, (List.range 4).flatMap fun n => if (s.cseq n).slot = slot then s.copyRecord n else List.replicate 0x1200 0),
     (0x4840, leBytes 8 (w.length / 144) ++ w.take 0x97B0),
     (0xE000, (s.latchedRecord slot).take 0x1000)]

/-- The write of the escalation record (19_faults R400). -/
def Ctx.escalationWrites (x : Ctx) : List (Nat × List Byte) :=
  match x.escalation with
  | some l => imageWrites x.savebase [(0x580F000, l.flatMap fun w => leBytes 8 w.toNat)]
  | none => []

/-! ### Ways (R105; 16_bitserial R341) -/

/-- Where each way of a claim is spilled, and its first lane. -/
def Claim.wayPlaces (m : Claim) (base : Nat) : List (Nat × Nat) :=
  (m.sliceList.mapIdx fun r q => (List.range m.ways).map fun w => (base + (q * 12 + w) * 2 ^ 19, (r * m.ways + w) * 16384)).flatten

/-- The claimed ways written out where WAYSAVE.SPILL is 1 and they are in place. -/
def State.spillWays (s : State) (slot : Nat) : State :=
  let x := s.ctx slot
  match x.claim with
  | some m =>
    if bit x.waysave.toNat 0 ∧ m.spilled = false then
      let l := (m.wayPlaces (x.waysave.toNat / 65536 * 65536)).flatMap fun p => (List.range 256).map fun k =>
        (p.1 + 2048 * k, leBytes 2048 (m.planes.get 0 k / 2 ^ p.2 % 2 ^ 16384))
      let t := s.writeOut slot l
      t.setCtx slot { t.ctx slot with claim := some { m with planes := [], spilled := true, place := [] } }
    else s
  | none => s

/-- Bytes of a context as the device reads them for a restore, none where a page faults or the read stalls at a watermark (09_ordering R194). -/
def State.readAt (s : State) (slot a n : Nat) : Option (List Byte) :=
  match locateAll s slot .read false (spanPieces a n), s.meets slot a n none with
  | .ok _, .stall _ => none
  | .ok ps, _ => some (s.readPieces ps)
  | .error _, _ => none

/-- The spilled ways of a claim claimed again and refilled; none where a slice has too few, or a page of the spill area faults. -/
def State.refillWays (s : State) (slot : Nat) : Option State :=
  let x := s.ctx slot
  match x.claim with
  | some m =>
    let m1 := s.placed m
    if m.spilled then
      if m1.fits = false then none
      else ((m.wayPlaces (x.waysave.toNat / 65536 * 65536)).foldlM (fun (acc : Map Nat Nat) p =>
          (s.readAt slot p.1 (2 ^ 19)).map fun b =>
            (List.range 256).map fun k => (k, acc.get 0 k + leNat ((b.drop (2048 * k)).take 2048) * 2 ^ p.2)) ([] : Map Nat Nat)).map fun pl =>
        (((m.wayPlaces (x.waysave.toNat / 65536 * 65536)).foldl (fun (t : State) p => t.noteSpan slot p.1 (2 ^ 19) .read) s).clearWays m1).setCtx slot { x with claim := some { m1 with planes := pl, spilled := false } }
    else some s
  | none => some s

/-! ### The names of saved cores -/

/-- An agent, a tag and an operation under other names of cores and copy sequencers. -/
def agentAs (fc fn : Nat → Nat) : Agent → Agent
  | .seq c q => .seq (fc c) q
  | .pier p k => .pier p k
  | .copy n => .copy (fn n)
def tagAs (fc fn : Nat → Nat) (t : TagRef) : TagRef :=
  match t.owner with
  | .core c => { t with owner := .core (fc c) }
  | .copy n => { t with owner := .copy (fn n) }
def opAs (fc fn : Nat → Nat) : Op → Op
  | .copy c => .copy { c with who := agentAs fc fn c.who }
  | .transfer x => .transfer { x with core := fc x.core }
  | .fork f => .fork f
  | .crossing x => .crossing { x with core := fc x.core }
  | .embedding e => .embedding { e with core := fc e.core }

/-- The entries of a claim under other names. -/
def claimAs (fc fn : Nat → Nat) (m : Claim) : Claim :=
  { m with queue := m.queue.map fun e => (match e with
                    | .cmd b => .cmd { b with core := fc b.core }
                    | .transfer t => .transfer (tagAs fc fn t)),
           pending := m.pending.map (tagAs fc fn) }

/-- The state with cores and copy sequencers under other names. -/
def State.renamed (s : State) (slot : Nat) (fc fn : Nat → Nat) : State :=
  { s with
    seqs := s.seqs.map fun (e : Agent × Seq) => (agentAs fc fn e.1, e.2),
    tags := s.tags.map fun (e : TagRef × Tag) => (tagAs fc fn e.1, { e.2 with op := e.2.op.map (opAs fc fn) }),
    cores := s.cores.map fun (e : Nat × Core) => (fc e.1, e.2),
    cseqs := s.cseqs.map fun (e : Nat × CopySeq) => (fn e.1, e.2),
    streams := s.streams.map fun (e : (Nat × Nat) × Stream) => (e.1, { e.2 with core := fc e.2.core }),
    heldw := s.heldw.map fun h => { h with who := agentAs fc fn h.who },
    atraps := s.atraps.map fun t => { t with who := agentAs fc fn t.who, tag := t.tag.map (tagAs fc fn), origin := t.origin.map (agentAs fc fn) },
    parked := s.parked.map fun (e : Agent × Issue) => (agentAs fc fn e.1, e.2),
    ctxs := s.ctxs.map fun (e : Nat × Ctx) => if e.1 = slot then (e.1, { e.2 with claim := e.2.claim.map (claimAs fc fn) }) else e }

/-- What stays on a core whose state is saved: its table memories, its trap record, and the count of its puts. -/
def leftCore (k : Core) : Core := { tbl := k.tbl, resident := k.resident, trec := k.trec, putNum := k.putNum }

/-- The cores and copy sequencers of a context put away under their saved names; the cores are free. The event latch of a saved core holds what comes
while it is saved (R100). -/
def State.putAway (s : State) (slot : Nat) : State :=
  let cs := s.boundCores slot
  let ns := s.boundCopies slot
  let t := s.renamed slot (fun c => if cs.contains c then savedCore slot c else c) (fun n => if ns.contains n then savedCopy slot n else n)
  let gs := t.groups.map fun (e : Nat × Group) =>
    if e.2.slot = slot ∧ e.2.st ≠ .forming then (e.1, { e.2 with saved := true }) else e
  { t with cores := cs.map (fun c => (c, leftCore (s.core c))) ++ t.cores.map fun (e : Nat × Core) =>
             if cs.any fun c => savedCore slot c == e.1 then (e.1, { e.2 with evt := 0 }) else e,
           groups := gs }

/-- The reservations of a context's forming group released (07_group R150). -/
def State.unform (s : State) (slot : Nat) : State :=
  match s.disp.forming with
  | some g => if (s.group g).slot = slot then { s with disp := { s.disp with forming := none, reserved := [] } } else s
  | none => s

/-! ### TEARDOWN (R98) -/

/-- Whether a key of memory lies in the vault segments of a context. -/
def Ctx.ownsVault (x : Ctx) (k : Key) : Bool :=
  decide (Config.vaultBase ≤ k) &&
    (let off := k - Config.vaultBase
     let q := off / 0x2000000
     let u := off % 0x2000000 / 0x10000
     let seg := (x.vseg.get 0 q).toNat
     x.grantv.getLsbD q && decide (bits seg 8 0 ≤ u) && decide (u < bits seg 8 0 + bits seg 24 16))

/-- A queue drained at teardown: its cards go. -/
def Queue.drain (u : Queue) : Queue :=
  { u with st := .drained, head := (u.head + u.count) % 2 ^ u.lsize, count := 0, rdy := false, raised := 0 }

/-- The context slot that an operation acts on. -/
def Op.slot (o : Op) : Option Nat :=
  match o with
  | .copy c => some c.slot
  | .transfer x => some x.slot
  | .fork _ => none
  | .crossing x => some x.slot
  | .embedding e => some e.slot

/-- Whether a crossing operation of a context has not ended (R98 step 4); one that a fault has frozen ends with its context. -/
def State.crossingsOpen (s : State) (slot : Nat) : Bool :=
  s.tags.any fun e => e.2.st == .landing && (match e.2.op with
    | some (.crossing x) => x.slot == slot
    | _ => false)

/-- The packets of crossing operations of a context that a fault has frozen withdrawn. -/
def State.dropFrozen (s : State) (slot : Nat) : State :=
  s.tags.foldl (fun (t : State) (e : TagRef × Tag) => match e.2.op with
    | some (.crossing x) => if x.slot = slot ∧ e.2.st = .frozen then t.dropPackets x else t
    | _ => t) s

/-- Everything of a context ends: cores, saved cores, copy sequencers, streams, operations, groups, filter entries, vaults, claim, queues, windows. -/
def State.teardown (s : State) (slot : Nat) : State :=
  let x := s.ctx slot
  let mine := (s.cores.map (·.1)).filter fun c => (s.core c).slot == some slot
  let copies := (s.cseqs.map (·.1)).filter fun n => (s.cseq n).busy && (s.cseq n).slot == slot
  let s1 := copies.foldl (fun (t : State) n => t.releaseTags (.copy n)) (mine.foldl (fun (t : State) c => t.unbindCore c) (s.dropFrozen slot))
  let s2 := s1.settleWrites
  let s3 : State := { s2 with
    cores := (s2.cores.filter fun e => decide (e.1 < 128) || !mine.contains e.1).map fun (e : Nat × Core) => (e.1, { e.2 with win := e.2.win.filter fun w => w.slot != slot }),
    seqs := s2.seqs.filter fun e => match e.1 with
      | .pier p k => (s2.stream p k).slot != slot
      | .copy n => !copies.contains n
      | .seq c _ => decide (c < 128) || !mine.contains c,
    streams := s2.streams.filter fun e => e.2.slot != slot,
    units := s2.units.filter fun e => match e.2.holder with
      | some k => (s2.stream e.1.1 k).slot != slot
      | none => true,
    tags := s2.tags.filter fun e => (e.2.op.bind Op.slot) != some slot,
    cseqs := s2.cseqs.filter fun e => !copies.contains e.1,
    parked := s2.parked.filter fun e => s2.slotOf e.1 != slot,
    atraps := s2.atraps.filter fun t => s.slotOf t.who != slot,
    heldw := s2.heldw.filter fun h => h.slot != slot,
    groups := s2.groups.filter fun e => e.2.slot != slot,
    rpool := s2.rpool.filter fun e => e.slot != slot,
    filter := s2.filter.filter fun f => f.id != x.id,
    caches := (s2.caches.forgetWalks x.id).forgetRows x.id,
    mem := s2.mem.filter fun c => !x.ownsVault c.1,
    link := { s2.link with inbound := s2.link.inbound.filter fun i => i.slot != slot },
    ringWait := s2.ringWait.drop slot,
    disp := { (s2.unform slot).disp with
      images := s2.disp.images.filter fun e => e.1 != x.id,
      offered := s2.disp.offered.filter fun o => o.1 != slot,
      flights := s2.disp.flights.filter fun f => f.slot != slot,
      finishing := s2.disp.finishing.filter fun f => f.slot != slot } }
  let y := s3.ctx slot
  (((s3.setCtx slot { y with st := .tornDown, done := true, err := 0, qs := false, preempting := none, teardownHeld := false, claim := none,
                             escalation := none, hwin := [], kept := [], cwaiting := [], steps := [],
                             queues := y.queues.map fun (e : Nat × Queue) => (e.1, e.2.drain) }).discardLines x.id).unload fun r => r.1 == x.id).reserve

/-! ### PREEMPTION_COMPLETE -/

/-- The images written, but for a context that is ready (R96), the cores freed, and the context in the state that it goes to; a TEARDOWN that waited
follows (R99, R100, R103, R105; 19_faults R400). -/
def State.savePreempted (s : State) (slot : Nat) (target : CtxState) : State :=
  let s1 := s.stopAll slot
  let l := if (s.ctx slot).st = .ready then [] else s1.imagesOf slot ++ s1.contextWrites slot
  let s2 := (s1.writeOut slot (l ++ (s1.ctx slot).escalationWrites)).spillWays slot
  let s3 := (s2.putAway slot).unform slot
  let x := s3.ctx slot
  let s4 := s3.setCtx slot { x with st := target, preempting := none, done := true, escalation := none }
  let s5 := (if target = .faulted then s4.irq 258 else s4).reserve
  if x.teardownHeld then (s5.setCtx slot { s5.ctx slot with done := false, preempting := some .tornDown, teardownHeld := false }).unform slot else s5

/-- PREEMPTION_COMPLETE: the context is saved, or torn down once its crossing operations have ended (R98). -/
def execPreemptionComplete (slot : Nat) (s : State) : Host.Outcome State Fault Refusal :=
  happen (match (s.ctx slot).preempting with
    | some .tornDown => if s.canSave slot ∧ s.crossingsOpen slot = false then s.teardown slot else s
    | some target => if s.canSave slot then s.savePreempted slot target else s
    | none => s)

/-! ### GROUP_RESTORE (R104) -/

/-- The image of a core in a save area; none where a page of it faults. -/
def State.readImage (s : State) (slot c : Nat) (k : Core) : Option CoreImage := do
  let a := (s.ctx slot).savebase + c * 0xB0000
  let m ← s.readAt slot a (mainSize k)
  let r ← s.readAt slot (a + 0x46000) (512 * (liveIn m).length)
  return { main := m, regs := r }

/-- Whether a core can take what is saved of it: it is free, or it is gone for good and is lost at once (19_faults R408). -/
def State.canTake (s : State) (slot c : Nat) : Bool :=
  s.coreFree c || ((s.core (savedCore slot c)).failing.isSome && s.disp.unavailable.contains c)

/-- Whether the members of a saved group are free, each with room for the puts of its window (06_queue R146). -/
def State.membersFree (s : State) (slot : Nat) (r : Group) : Bool :=
  (r.members.mapIdx fun i c => (i, c)).all fun (e : Nat × Nat) => r.lost.contains e.1 || (s.canTake slot e.2 && decide ((s.core e.2).win.length + (s.core (savedCore slot e.2)).win.length ≤ 8))

/-- The puts of a window sent again (06_queue R146). -/
def State.resendWindow (s : State) (c slot : Nat) : State :=
  let k := s.core c
  let mine := k.win.filter fun w => w.slot == slot
  let s1 := s.setCore c { k with win := k.win.map fun w => if w.slot = slot then { w with st := .sent } else w }
  { s1 with disp := { s1.disp with flights := s1.disp.flights ++ mine.map fun w =>
      { sender := some c, slot := slot, num := w.num, q := w.q, card := w.card } } }

/-- One core of a saved group restored: its tables, its window, and its image. -/
def State.restoreCore (s : State) (slot c : Nat) (v : Verified) (old : Core) (i : CoreImage) : State :=
  let k := s.core c
  let s1 := s.setCore c { k with tbl := s.imageTables slot v, resident := some ((s.ctx slot).id, v.image.base), win := old.win ++ k.win,
                                 putNum := max old.putNum k.putNum }
  ((s1.noteTables slot v).loadCore c i).resendWindow c slot

/-- A saved group restored onto its cores; none where it waits. A core whose fault was found at its save is lost now (19_faults R408). -/
def State.restoreGroup (s : State) (slot g : Nat) : Option State := do
  let r := s.group g
  let v ← r.vimg
  if !s.membersFree slot r then none
  let ms := ((r.members.mapIdx fun i c => (i, c)).filter fun (e : Nat × Nat) => !r.lost.contains e.1).map (·.2)
  let images ← ms.mapM fun c => s.readImage slot c (s.core (savedCore slot c))
  let olds := ms.map s.core
  let s1 : State := { s with
    cores := s.cores.filter fun e => !ms.contains e.1,
    seqs := s.seqs.filter fun e => match e.1 with
      | .seq c _ => !ms.contains c
      | _ => true }
  let back := fun c => if ms.any fun m => savedCore slot m == c then c % 128 else c
  let s2 := s1.renamed slot back id
  let s3 := (List.zip ms (List.zip olds images)).foldl (fun (t : State) p => t.restoreCore slot p.1 v p.2.1 p.2.2) s2
  let s4 := ms.foldl (fun (t : State) c => t.loseMarked c) (s3.setGroup g { s3.group g with saved := false })
  return s4.reserve

/-- Every saved group of a context that can be restored is; and whether one was. -/
def State.restoreGroups (s : State) (slot : Nat) : Bool × State :=
  ((s.groups.filter fun e => e.2.slot == slot && e.2.saved).map (·.1)).foldl (fun (p : Bool × State) g =>
    match p.2.restoreGroup slot g with
    | some t => (true, t)
    | none => p) (false, s)

/-- Every saved copy sequencer of a context whose number is free goes on (06_queue R148). -/
def State.restoreCopies (s : State) (slot : Nat) : Bool × State :=
  (List.range 4).foldl (fun (p : Bool × State) n =>
    if (p.2.cseq (savedCopy slot n)).busy ∧ (p.2.cseq n).busy = false then
      let t : State := { p.2 with cseqs := p.2.cseqs.drop n, seqs := p.2.seqs.drop (.copy n) }
      (true, t.renamed slot id fun m => if m = savedCopy slot n then n else m)
    else p) (false, s)

/-- GROUP_RESTORE: the ways of a context that dispatches again are refilled before any sequencer of it starts (R105), then what is saved of it is
restored. -/
def execGroupRestore (slot : Nat) (s : State) : Host.Outcome State Fault Refusal :=
  happen (
    let x := s.ctx slot
    if (x.st = .ready ∨ x.st = .running) ∧ x.preempting = none then
      match s.refillWays slot with
      | some s0 =>
        let (a, s1) := s0.restoreGroups slot
        let (b, s2) := s1.restoreCopies slot
        if a || b then s2.runCtx slot else s0
      | none => s
    else s)

/-! ### The time slice (R96, R430) -/

/-- The compute cards of other contexts that wait for cores, by the number that their readiness took (R430). -/
def State.waitingCards (s : State) (slot : Nat) : List Nat :=
  ((List.range 16).filter fun c => c != slot && ((s.ctx c).st == .ready || (s.ctx c).st == .running)).flatMap (fun c =>
    (List.range (s.ctx c).queueCount).filterMap fun q =>
      let u := (s.ctx c).queue q
      if u.kind = 0 ∧ u.st = .active ∧ u.rdy then some u.rdyNo else none) ++
  s.groups.filterMap fun (e : Nat × Group) => if e.2.st = .forming ∧ e.2.slot ≠ slot then some e.2.rdyNo else none

/-- QUANTUM_EXPIRY: the context is suspended where a card of another context waits for cores, else a new slice begins. -/
def execQuantumExpiry (slot : Nat) (s : State) : Host.Outcome State Fault Refusal :=
  happen (
    let x := s.ctx slot
    if x.st = .running ∧ x.preempting = none ∧ x.quantum ≠ 0 ∧ x.sliceStart + x.quantum.toNat * 1000 ≤ s.wall then
      let l := s.waitingCards slot
      if l.isEmpty then s.setCtx slot { x with sliceStart := s.wall }
      else s.setCtx slot { x with qs := true, sliceWaiters := l, preempting := some .suspended }
    else s)

/-- QUANTUM_RETURN: none of the cards that waited at the expiry waits any more. Cached entries stay (log 116). -/
def execQuantumReturn (slot : Nat) (s : State) : Host.Outcome State Fault Refusal :=
  happen (
    let x := s.ctx slot
    if x.st = .suspended ∧ x.qs ∧ !(x.sliceWaiters.any fun n => (s.waitingCards slot).contains n) then
      (s.setCtx slot { x with st := .ready, qs := false, sliceWaiters := [] }).reserve
    else s)

end Sys2Proof.Machine
end

