-- ==== Sys2Proof/Machine/Life.lean ====
section
/-! DEFINITION. The commands of CTXCMD (04_context R95-R98): ALLOC, READY, SUSPEND, RESUME, TEARDOWN, RELEASE. -/

namespace Sys2Proof.Machine

/-- Whether the main side is up: in any other state of it the host reaches no slot (22_bringup R419). -/
def State.mainUp (s : State) : Bool := s.mgmt.main == .ready

/-- A command written to CTXCMD: ignored while another runs. CTXCMD.ID takes what the write gives (R95). -/
def State.hostCommand (s : State) (slot code id : Nat) (f : Ctx → State) : State :=
  let x := s.ctx slot
  if s.mainUp ∧ slot < 16 ∧ x.done then f { x with cmd := code % 16, cmdId := id % 256, err := 0 } else s

/-- The result of a command that changes nothing else. -/
def State.commandError (s : State) (slot : Nat) (x : Ctx) (err : Nat) : State := s.setCtx slot { x with err := err }

/-- The slots whose grants are reserved: ready, running, suspended and faulted ones (R97). -/
def CtxState.holds (c : CtxState) : Bool := c == .ready || c == .running || c == .suspended || c == .faulted

/-- The contexts of those slots, but for one slot. -/
def State.otherHolders (s : State) (slot : Nat) : List Ctx :=
  ((List.range 16).filter fun c => c != slot && (s.ctx c).st.holds).map s.ctx

/-! ### ALLOC -/

/-- ALLOC: slots 8 to 15 need feature bit 2 of the link (18_link R377). -/
def execAlloc (slot id : Nat) (s : State) : Host.Outcome State Fault Refusal :=
  happen (s.hostCommand slot 1 id fun x =>
    if x.st ≠ .free ∨ (8 ≤ slot ∧ bit s.link.feat.toNat 2 = false) then s.commandError slot x 1
    else if id % 256 = 0 ∨ ((List.range 16).any fun c => (s.ctx c).st != .free && (s.ctx c).id == id % 256) then s.commandError slot x 4
    else ({ s with caches := s.caches.forget (id % 256) }).setCtx slot { st := .allocated, id := id % 256, cmd := 1, cmdId := x.cmdId })

/-! ### READY (R97) -/

/-- Two ranges that share no element. -/
def rangesApart (a n b m : Nat) : Bool := n == 0 || m == 0 || decide (a + n ≤ b) || decide (b + m ≤ a)

/-- The vault segment of a context in a vault, when it has one: base and size. -/
def Ctx.segment (x : Ctx) (q : Nat) : Nat × Nat :=
  if x.grantv.getLsbD q then (bits (x.vseg.get 0 q).toNat 8 0, bits (x.vseg.get 0 q).toNat 24 16) else (0, 0)

/-- The checks of a context's own grants (R97; 06_queue R141; 08_memory R165). -/
def Ctx.grantsOk (x : Ctx) : Bool :=
  decide (x.qmap ≤ 16) && decide (x.semBase + x.semCount ≤ 4096) &&
  ((List.range x.queueCount).all fun q => decide ((x.queue q).lsize ≤ 12)) &&
  (List.range 32).all fun q => !x.grantv.getLsbD q || (decide (0 < (x.segment q).2) && decide ((x.segment q).1 + (x.segment q).2 ≤ 320))

/-- GRANTH.DEV, GRANTH.HRC, and the ways granted in a slice. -/
def Ctx.devGrant (x : Ctx) : Nat := bits x.granth.toNat 8 0
def Ctx.hrcGrant (x : Ctx) : Nat := bits x.granth.toNat 24 16
def Ctx.wayGrant (x : Ctx) (q : Nat) : Nat := if bit x.grantw.toNat (16 + q) then bits x.grantw.toNat 3 0 else 0

/-- Whether the grants of a context that becomes ready go together with those of another, and its job key with that of one whose EN is 1 (R97; 18_link
R386). -/
def Ctx.apartFrom (x y : Ctx) : Bool :=
  ((List.range 32).all fun q => rangesApart (x.segment q).1 (x.segment q).2 (y.segment q).1 (y.segment q).2) &&
  rangesApart x.semBase x.semCount y.semBase y.semCount &&
  !(bit y.xjob.toNat 16 && bits x.xjob.toNat 15 0 == bits y.xjob.toNat 15 0)

/-- The checks of READY on grants. -/
def State.grantsFit (s : State) (slot : Nat) (x : Ctx) : Bool :=
  let l := x :: s.otherHolders slot
  x.grantsOk && (s.otherHolders slot).all x.apartFrom &&
  decide ((l.map Ctx.devGrant).sum ≤ s.mgmt.hbmSplit) && decide ((l.map Ctx.hrcGrant).sum ≤ 384 - s.mgmt.hbmSplit) &&
  (List.range 32).all fun q => decide ((l.map fun y => y.wayGrant q).sum ≤ 12)

/-- A directory entry as the device reads it (17_piers R364): its page must also grant WR. -/
def State.readEntry (s : State) (slot t : Nat) : Option (List Byte) :=
  let a := bits (s.ctx slot).tdir.toNat 56 16 * 65536 + 64 * t
  match locateAll s slot .write false (spanPieces a 64) with
  | .ok _ => s.readAt slot a 64
  | .error _ => none

/-- The table directory read; none where an entry cannot be. -/
def State.readDirectory (s : State) (slot : Nat) : Option (Map Nat (List Byte)) :=
  (List.range (bits (s.ctx slot).tdir.toNat 10 0)).mapM fun t => (s.readEntry slot t).map fun b => (t, b)

/-- The translations and filter entries of a context removed (11_page R233), and with the entries the lines held under their leaders (R226). -/
def State.dropTranslations (s : State) (slot : Nat) : State :=
  { s with filter := s.filter.filter (fun f => f.id != (s.ctx slot).id), caches := ((s.caches.flush fun e => e.id == (s.ctx slot).id).forgetWalks (s.ctx slot).id).forgetRows (s.ctx slot).id }

/-- The handler's image verified and the directory read, as READY and RESUME do: the state, or the error. What the host has written to a table
since is read from then on (08_memory R178); a pier's writes wait for the next scommit of their table (R177). -/
def State.enterReady (s : State) (slot : Nat) (x : Ctx) : Except Nat State :=
  let s0 := (s.setCtx slot x).dropTranslations slot
  let s1 := ({ s0 with disp := { s0.disp with images := s0.disp.images.filter fun e => !(e.1 == x.id && e.2.image.base == x.handler) } }).unload
    fun r => r == (x.id, x.handler)
  match s1.verify slot x.handler true with
  | none => .error 3
  | some (_, s2) =>
    match s2.readDirectory slot with
    | none => .error 5
    | some d => .ok (s2.setCtx slot { s2.ctx slot with st := .ready, qs := false, dir := d })

/-- The head test of every queue of a context. -/
def State.testQueues (s : State) (slot : Nat) : State :=
  (List.range (s.ctx slot).queueCount).foldl (fun (t : State) q => t.headTest slot q) s

/-- READY: every queue takes the state that its head test gives, which is idle for an empty one. -/
def execReady (w : Ctxcmd) (s : State) : Host.Outcome State Fault Refusal :=
  happen (s.hostCommand w.slot 2 w.id fun x =>
    let slot := w.slot
    if x.st ≠ .allocated then s.commandError slot x 1
    else if !s.grantsFit slot x then s.commandError slot x 2
    else
      match s.enterReady slot x with
      | .error e => s.commandError slot x e
      | .ok t => t.testQueues slot)

/-! ### SUSPEND and RESUME -/

/-- Whether something of a ready context ends before it is suspended: a bit-serial command, or a card that completes (R99; 16_bitserial R343). -/
def State.restless (s : State) (slot : Nat) : Bool :=
  (match (s.ctx slot).claim with
   | some m => (s.nextCommand m).isSome && m.ready && !m.spilled
   | none => false) || s.disp.finishing.any fun f => f.slot == slot

/-- SUSPEND: a running context's cores are pre-empted first; one that is becoming faulted stays so. The ways of a ready context's claim are spilled
too (R105). -/
def execSuspend (w : Ctxcmd) (s : State) : Host.Outcome State Fault Refusal :=
  happen (s.hostCommand w.slot 3 w.id fun x =>
    let slot := w.slot
    match x.st with
    | .ready =>
      if s.restless slot then (s.setCtx slot { x with done := false, preempting := some (x.preempting.getD .suspended) }).unform slot
      else ((s.setCtx slot { x with st := .suspended }).unform slot).spillWays slot
    | .running => s.setCtx slot { x with done := false, qs := false, preempting := some (x.preempting.getD .suspended) }
    | .suspended => if x.qs then s.setCtx slot { x with qs := false } else s.commandError slot x 1
    | _ => s.commandError slot x 1)

/-- RESUME (R96, R401). -/
def execResume (w : Ctxcmd) (s : State) : Host.Outcome State Fault Refusal :=
  happen (s.hostCommand w.slot 4 w.id fun x =>
    let slot := w.slot
    if x.st ≠ .suspended ∧ x.st ≠ .faulted then s.commandError slot x 1
    else
      match s.enterReady slot x with
      | .error e => s.commandError slot x e
      | .ok t => t.reserve)

/-! ### TEARDOWN, RELEASE and the codes that name no command -/

/-- TEARDOWN: held while a SUSPEND or another pre-emption runs (R99); the context is torn down once its units have stopped and its crossing
operations are complete (R98). -/
def execTeardown (w : Ctxcmd) (s : State) : Host.Outcome State Fault Refusal :=
  happen (
    let slot := w.slot
    let x : Ctx := { s.ctx slot with cmd := 5, cmdId := w.id % 256, err := 0 }
    if !s.mainUp ∨ 16 ≤ slot then s
    else if x.st = .free ∨ x.st = .tornDown then (if x.done then s.commandError slot x 1 else s)
    else match x.preempting with
      | some .tornDown => s
      | some _ => s.setCtx slot { x with done := false, teardownHeld := true }
      | none => (s.setCtx slot { x with done := false, preempting := some .tornDown }).unform slot)

/-- RELEASE: the slot and the ID are free. -/
def execRelease (w : Ctxcmd) (s : State) : Host.Outcome State Fault Refusal :=
  happen (s.hostCommand w.slot 6 w.id fun x => if x.st = .tornDown then s.setCtx w.slot { cmd := 6, cmdId := x.cmdId } else s.commandError w.slot x 1)

/-- A code that names no command. -/
def execCtxcmdNoOperation (w : Ctxcmd) (code : Nat) (s : State) : Host.Outcome State Fault Refusal :=
  happen (s.hostCommand w.slot code w.id fun x => s.commandError w.slot x 1)

end Sys2Proof.Machine
end

