-- ==== Sys2Proof/Machine/Dispatcher.lean ====
section
/-! DEFINITION. The dispatcher (06_queue R142-R149): offers and decisions, puts and their answers, completions, queue commands. -/

namespace Sys2Proof.Machine

/-! ### Offers (R143) -/

/-- Queue q of slot c as one number. -/
def placeOf (p : Nat × Nat) : Nat := p.1 * 16 + p.2

/-- Whether the head card of a queue can be offered: ready, in an active queue of a context that is ready or running (R142). -/
def State.offerable (s : State) (p : Nat × Nat) : Bool :=
  let x := s.ctx p.1
  let u := x.queue p.2
  (x.st == .ready || x.st == .running) && x.preempting.isNone && s.waysBack p.1 && decide (p.2 < x.queueCount) && u.st == .active && u.rdy

/-- Every queue of the device. -/
def allQueues : List (Nat × Nat) := (List.range 16).flatMap fun c => (List.range 16).map fun q => (c, q)

/-- Whether the card of one queue became ready before that of another (R143). -/
def State.readyBefore (s : State) (a b : Nat × Nat) : Bool :=
  let ra := ((s.ctx a.1).queue a.2).rdyClk
  let rb := ((s.ctx b.1).queue b.2).rdyClk
  decide (ra < rb) || (ra == rb && decide (placeOf a < placeOf b))

/-- A queue put into a list in the order of readiness. -/
def State.insertReady (s : State) (p : Nat × Nat) : List (Nat × Nat) → List (Nat × Nat)
  | [] => [p]
  | a :: r => if s.readyBefore p a then p :: a :: r else a :: s.insertReady p r

/-- The 64 places of the dispatcher: offered cards keep theirs, free ones go to ready cards in the order in which they became ready. -/
def State.refreshOffers (s : State) : State :=
  let kept := s.disp.offered.filter s.offerable
  let more := (allQueues.filter fun p => s.offerable p && !kept.contains p).foldl (fun l p => s.insertReady p l) []
  { s with disp := { s.disp with offered := kept ++ more.take (64 - kept.length) } }

/-! ### Levels (R143) -/

/-- The raises that a ready card's age gives it: one for every 64 µs. -/
def State.raisesOf (s : State) (p : Nat × Nat) : Nat := min 3 ((s.wall - ((s.ctx p.1).queue p.2).rdyAt) / 64000)

/-- A card's raises brought up to its age. -/
def State.raiseLevel (s : State) (p : Nat × Nat) : State :=
  let u := (s.ctx p.1).queue p.2
  if u.rdy ∧ u.raised < s.raisesOf p then s.setQueue p.1 p.2 { u with raised := s.raisesOf p } else s

/-- LEVEL_RAISE. -/
def execLevelRaise (slot q : Nat) (s : State) : Host.Outcome State Fault Refusal := happen (s.raiseLevel (slot, q))

/-- The level of an offered card. -/
def State.levelOf (s : State) (p : Nat × Nat) : Nat :=
  let u := (s.ctx p.1).queue p.2
  match s.cardAt p.1 p.2 u.head with
  | some b => min 3 (cardPrio b + u.raised)
  | none => 0

/-- The choice among offered cards of a kind: the highest level, then the first queue after that level's pointer. A pointer that has not
moved stands before queue 0 of slot 0. -/
def State.chooseCard (s : State) (kind : Nat) (rr : Map Nat Nat) : Option (Nat × (Nat × Nat)) :=
  let l := s.disp.offered.filter fun p => ((s.ctx p.1).queue p.2).kind == kind
  ([3, 2, 1, 0].filterMap fun v =>
    let at_ := l.filter fun p => s.levelOf p == v
    let ptr := rr.get 255 v
    let order := (List.range 256).map fun i => (ptr + 1 + i) % 256
    (order.findSome? fun n => at_.find? fun p => placeOf p == n).map fun p => (v, p)).head?

/-! ### DISPATCH_DECISION -/

/-- The head card of a queue leaves it (R142): the head test on the next. -/
def State.takeHead (s : State) (p : Nat × Nat) : State :=
  let u := (s.ctx p.1).queue p.2
  let s1 := s.setQueue p.1 p.2 { u with head := (u.head + 1) % 2 ^ u.lsize, count := u.count - 1, rdy := false, raised := 0 }
  ({ s1 with disp := { s1.disp with offered := s1.disp.offered.erase p } }).headTest p.1 p.2

/-- A forming group of a context that was suspended is formed again (07_group R150). -/
def State.resumeForming (s : State) : State :=
  match s.disp.forming with
  | some _ => s
  | none =>
    match s.groups.find? fun e => e.2.st == .forming && s.waysBack e.2.slot && ((s.ctx e.2.slot).st == .ready || (s.ctx e.2.slot).st == .running) with
    | some (g, _) => ({ s with disp := { s.disp with forming := some g } }).reserve
    | none => s

/-- A chosen compute card: its group forms as soon as enough cores are reserved (R144). The card is read again from the queue's storage, whose
fault and whose kernel are tested anew: what counts of a card that was rewritten after its head test is the model's choice (log 32). -/
def State.dispatchCompute (s : State) (v : Nat) (p : Nat × Nat) : State :=
  let u := (s.ctx p.1).queue p.2
  let s0 : State := { s with disp := { s.disp with rrCompute := s.disp.rrCompute.set v (placeOf p) } }
  match s0.cardAt p.1 p.2 u.head with
  | none => s0.haltQueue p.1 p.2 7
  | some b =>
    match s0.verify p.1 (card b 0x10 8) false with
    | none => s0.haltQueue p.1 p.2 5
    | some (im, s1) =>
      let g := s1.disp.groupNo
      let r : Group := { st := .forming, slot := p.1, q := p.2, card := b, size := card b 4 1, tiles := cardTiles b, vimg := some im, rdyNo := u.rdyNo }
      let s2 := (s1.takeHead p).setGroup g r
      ({ s2 with disp := { s2.disp with groupNo := g + 1, forming := some g } }).reserve

/-- A chosen copy card binds to a free copy sequencer (R148). -/
def State.dispatchCopy (s : State) (n v : Nat) (p : Nat × Nat) : State :=
  let u := (s.ctx p.1).queue p.2
  let s0 : State := { s with disp := { s.disp with rrCopy := s.disp.rrCopy.set v (placeOf p) } }
  match s0.cardAt p.1 p.2 u.head with
  | none => s0.haltQueue p.1 p.2 7
  | some b =>
    match s0.verify p.1 (card b 0x10 8) false with
    | none => s0.haltQueue p.1 p.2 5
    | some (im, s1) =>
      let tbl := ((s1.imageTables p.1 im).filter fun e => e.1.1 == sqLF).map fun e => (e.1.2, e.2)
      let s2 := ((s1.noteTables p.1 im).takeHead p).setCseq n { tbl := tbl, busy := true, slot := p.1, q := p.2, card := b }
      (s2.setSeq (.copy n) { run := .running }).runCtx p.1

/-- A free copy sequencer. -/
def State.freeCopy (s : State) : Option Nat := (List.range 4).find? fun n => !(s.cseq n).busy

/-- DISPATCH_DECISION: at most one compute card and one copy card. -/
def execDispatchDecision (s : State) : Host.Outcome State Fault Refusal :=
  happen (
    let s1 := (allQueues.foldl (fun (t : State) p => t.raiseLevel p) s).refreshOffers.resumeForming
    let s2 := if s1.disp.forming.isSome then s1 else match s1.chooseCard 0 s1.disp.rrCompute with
      | some (v, p) => s1.dispatchCompute v p
      | none => s1
    match s2.freeCopy, s2.chooseCard 1 s2.disp.rrCopy with
    | some n, some (v, p) => s2.dispatchCopy n v p
    | _, _ => s2)

/-! ### COMPLETION (R149; 18_link R382) -/

/-- The adds of a card in entry order, each clamped; they are of one clock, after which the heads of the queues are tested (R140; log 98). -/
def State.applyAdds (s : State) (slot q : Nat) (b : List Byte) : State :=
  if cardNAdd b = 0 then s else
  State.retest ((List.range (cardNAdd b)).foldl (fun (t : State) i =>
    let (n, d) := cardAdd b i
    match t.semSum slot n d with
    | some v => t.putSem slot n v
    | none =>
      let t1 := t.putSem slot n (if d < 0 then 0 else BitVec.allOnes 32)
      (t1.setQueue slot q { (t1.ctx slot).queue q with sov := true }).irq 259) s) slot

/-- A CSIZE that names a completion area: a power of two from 16 to 65,536. -/
def sizeOk (n : Nat) : Bool := (List.range 13).any fun i => n == 2 ^ (i + 4)

/-- Completion records written while the area has room, each with its interrupt (R382). -/
def State.flushRecords (s : State) (slot : Nat) : Nat → State
  | 0 => s
  | n + 1 =>
    let x := s.ctx slot
    match x.cwaiting with
    | [] => s
    | r :: rest =>
      let size := x.csize.toNat
      if sizeOk size = false ∨ (x.ctail + 2 ^ 64 - x.chead) % 2 ^ 64 = size then s
      else
        let at_ := x.cbase.toNat + 16 * (x.ctail % size)
        let s1 := (s.pokes none (Config.hostBase + at_) r.bytes).sendHost 1 at_ r.bytes
        State.flushRecords ((s1.setCtx slot { s1.ctx slot with ctail := (x.ctail + 1) % 2 ^ 64, cwaiting := rest }).irq r.vector) slot n

/-- The completion record of a card (R149); its wall-time bytes are 0 without feature bit 4 (18_link R377). -/
def State.completionRecord (s : State) (f : Finishing) : List Byte :=
  (f.card.drop 0x70).take 8 ++ [.ofNat 8 f.q, .ofNat 8 f.status] ++ leBytes 6 (if bit s.link.feat.toNat 4 then s.wall else 0)

/-- A record that waits its turn in the completion area. -/
def State.appendRecord (s : State) (f : Finishing) : State :=
  let x := s.ctx f.slot
  let s1 := s.setCtx f.slot { x with cwaiting := x.cwaiting ++ [{ bytes := s.completionRecord f, vector := f.slot * 16 + f.q }] }
  s1.flushRecords f.slot (x.cwaiting.length + 1)

/-- Step 1 of R149: every write of the launch is performed: no write of its cores or copy sequencer is held, and every operation that they issued
before has landed. A pier stream that runs on is none of them (log 34). -/
def State.launchPerformed (s : State) (f : Finishing) : Bool :=
  (!s.heldw.any fun h => h.slot == f.slot && decide (h.order < f.order) && (match s.coreOf h.who with
    | some c => f.cores.contains c
    | none => f.cs == some (match h.who with
        | .copy n => n
        | _ => 4))) &&
  !s.tags.any fun e => !e.2.complete && (match e.2.op with
    | some (.fork _) => false
    | some o => decide (o.order < f.order) && (match e.1.owner with
        | .core c => f.cores.contains c
        | .copy n => f.cs == some n)
    | none => false)

/-- The end of a card's group or copy sequencer: a group whose members have all halted retires; a copy sequencer is free. -/
def State.freeFinished (s : State) (f : Finishing) : State :=
  match f.group, f.cs with
  | some g, _ => if s.groups.has g then (s.setGroup g { s.group g with cardDone := true }).endGroup g else s
  | none, some n =>
    let s1 := s.releaseTags (.copy n)
    ({ s1 with cseqs := s1.cseqs.drop n, seqs := s1.seqs.drop (.copy n) }).restCtx f.slot
  | none, none => s

/-- COMPLETION: the steps of R149 in order. -/
def execCompletion (n : Nat) (s : State) : Host.Outcome State Fault Refusal :=
  happen (match s.disp.finishing[n]? with
    | some f =>
      if ((s.ctx f.slot).st = .running ∨ (s.ctx f.slot).st = .ready) ∧ s.launchPerformed f then
        let s0 : State := { s with disp := { s.disp with finishing := s.disp.finishing.eraseIdx n } }
        let s1 := s0.applyAdds f.slot f.q f.card
        let u := (s1.ctx f.slot).queue f.q
        let s2 := s1.setQueue f.slot f.q { u with done := u.done + 1 }
        let s3 := if cardIrq f.card then s2.appendRecord f else s2
        s3.freeFinished f
      else s
    | none => s)

/-! ### Puts (R145, R146) -/

/-- Whether a queue drops a put because an earlier put of its sender has been dropped and has not arrived again. -/
def Queue.awaits (u : Queue) (sender : Option Nat) (num : Nat) : Bool := u.await.any fun e => e.1 == sender && decide (e.2 < num)

/-- What a queue answers to a put, 0 accepted, 1 dropped, 2 refused, and the state. -/
def State.takePut (s : State) (f : Flight) : Nat × State :=
  let x := s.ctx f.slot
  let u := x.queue f.q
  if x.queueCount ≤ f.q then (2, s)
  else if u.awaits f.sender f.num then (1, s.setQueue f.slot f.q { u with await := (f.sender, f.num) :: u.await.erase (f.sender, f.num) })
  else
    let u1 := { u with await := u.await.erase (f.sender, f.num) }
    let s1 := s.setQueue f.slot f.q u1
    if u.st = .drained then (2, s1)
    else if 2 ^ u.lsize ≤ u.count then
      (if u.st = .halted then (2, s1) else (1, s1.setQueue f.slot f.q { u1 with await := (f.sender, f.num) :: u1.await }))
    else
      match s1.appendCard f.slot f.q f.card with
      | some t => (0, t)
      | none => (2, if u.st = .halted then s1 else s1.haltQueue f.slot f.q 7)

/-- Whether an earlier put of the same sender to the same queue is still on its way there. -/
def State.earlierFlight (s : State) (n : Nat) (f : Flight) : Bool :=
  (s.disp.flights.take n).any fun e => e.sender == f.sender && e.slot == f.slot && e.q == f.q && e.answer.isNone

/-- PUT_ARRIVAL. -/
def execPutArrival (n : Nat) (s : State) : Host.Outcome State Fault Refusal :=
  happen (match s.disp.flights[n]? with
    | some f =>
      if f.answer.isNone ∧ s.earlierFlight n f = false then
        let (a, t) := s.takePut f
        { t with disp := { t.disp with flights := t.disp.flights.set n { f with answer := some a } } }
      else s
    | none => s)

/-- The replay window of a sender in a context: a core's, or the host adapter's of the slot. -/
def State.windowOf (s : State) (sender : Option Nat) (slot : Nat) : List WinPut :=
  match sender with
  | some c => (s.core c).win
  | none => (s.ctx slot).hwin

/-- It replaced. -/
def State.setWindow (s : State) (sender : Option Nat) (slot : Nat) (w : List WinPut) : State :=
  match sender with
  | some c => s.setCore c { s.core c with win := w }
  | none => s.setCtx slot { s.ctx slot with hwin := w }

/-- A put sent on its way. -/
def State.fly (s : State) (sender : Option Nat) (w : WinPut) : State :=
  { s with disp := { s.disp with flights := s.disp.flights ++ [{ sender := sender, slot := w.slot, num := w.num, q := w.q, card := w.card }] } }

/-- Kept cards of the host adapter enter its window as it has room (18_link R380). -/
def State.sendKept (s : State) (slot : Nat) : Nat → State
  | 0 => s
  | n + 1 =>
    let x := s.ctx slot
    match x.kept with
    | [] => s
    | (q, b) :: rest =>
      if 8 ≤ x.hwin.length then s
      else
        let w : WinPut := { num := x.hputNum, slot := slot, q := q, card := b, blocking := false, st := .sent }
        State.sendKept ((s.setCtx slot { x with kept := rest, hwin := x.hwin ++ [w], hputNum := x.hputNum + 1 }).fly none w) slot n

/-- A put accepted or refused leaves its window (R146). -/
def State.answerPut (s : State) (f : Flight) (ok : Bool) : State :=
  let win := s.windowOf f.sender f.slot
  let mine := fun (w : WinPut) => w.num == f.num && w.slot == f.slot
  match win.find? mine with
  | none => s
  | some w =>
    let s1 := s.setWindow f.sender f.slot (win.filter fun e => !mine e)
    match f.sender with
    | some c =>
      let k := s1.core c
      if k.slot ≠ some f.slot then s1
      else if w.blocking then s1.setCore c { k with answers := k.answers.set f.num ok }
      else s1.setCore c { k with perr := k.perr || !ok }
    | none =>
      let x := s1.ctx f.slot
      (s1.setCtx f.slot { x with prefused := x.prefused || !ok }).sendKept f.slot (x.kept.length + 1)

/-- ACKNOWLEDGEMENT: the answer of an accepted or refused put reaches its sender. -/
def execAcknowledgement (n : Nat) (s : State) : Host.Outcome State Fault Refusal :=
  happen (match s.disp.flights[n]? with
    | some f =>
      let gone : State := { s with disp := { s.disp with flights := s.disp.flights.eraseIdx n } }
      if f.answer = some 0 then gone.answerPut f true else if f.answer = some 2 then gone.answerPut f false else s
    | none => s)

/-- Negative acknowledgements counted, saturating (R146). -/
def countNack (n : Nat) : Nat := min (n + 1) (2 ^ 32 - 1)

/-- A window after a negative acknowledgement: the put and every later one to its queue wait for the resend; one that an earlier waiting put
covers starts no back-off of its own. -/
def nackWindow (win : List WinPut) (f : Flight) (until_ : Nat) : List WinPut :=
  let same := fun (w : WinPut) => w.slot == f.slot && w.q == f.q
  let at_ := match win.find? fun w => same w && decide (w.num < f.num) && w.st == .waiting with
    | some w => w.resendAt
    | none => until_
  win.map fun w => if same w ∧ f.num ≤ w.num ∧ w.st = .sent then { w with st := .waiting, resendAt := at_ } else w

/-- NEGATIVE_ACKNOWLEDGEMENT: the back-off is QBACKOFF × 100 ns. -/
def execNegativeAcknowledgement (n : Nat) (s : State) : Host.Outcome State Fault Refusal :=
  happen (match s.disp.flights[n]? with
    | some f =>
      if f.answer = some 1 then
        let gone : State := { s with disp := { s.disp with flights := s.disp.flights.eraseIdx n } }
        let s1 := gone.setWindow f.sender f.slot (nackWindow (gone.windowOf f.sender f.slot) f (s.wall + (s.ctx f.slot).qbackoff.toNat * 100))
        match f.sender with
        | some c => if (s1.core c).slot = some f.slot then s1.setCore c { s1.core c with nacks := countNack (s1.core c).nacks } else s1
        | none => s1.setCtx f.slot { s1.ctx f.slot with pnacks := countNack (s1.ctx f.slot).pnacks }
      else s
    | none => s)

/-- Whether a waiting put can be sent again: its back-off has ended, and no earlier send of a put of its window to its queue is unanswered. -/
def State.canResend (s : State) (sender : Option Nat) (w : WinPut) : Bool :=
  w.st == .waiting && decide (w.resendAt ≤ s.wall) &&
  !s.disp.flights.any fun f => f.sender == sender && f.slot == w.slot && f.q == w.q

/-- The puts of a window whose back-off has ended sent again in their order. -/
def State.resend (s : State) (sender : Option Nat) (slot : Nat) : State :=
  let win := s.windowOf sender slot
  let go := win.filter (s.canResend sender)
  let s1 := s.setWindow sender slot (win.map fun w => if go.contains w then { w with st := .sent } else w)
  go.foldl (fun (t : State) w => t.fly sender w) s1

/-- BACKOFF_EXPIRY: of core `n`, or from 128 on of the host adapter's windows. -/
def execBackoffExpiry (n : Nat) (s : State) : Host.Outcome State Fault Refusal :=
  happen (if n < 128 then s.resend (some n) 0 else if n < 144 then s.resend none (n - 128) else s)

/-! ### Queue commands (R142) -/

/-- A command that the host writes to QCTL.CMD: in every state of the context but free and torn down, in which it sets CTXCMD.ERR (18_link R379). -/
def State.hostQueueCommand (s : State) (slot q code : Nat) : State :=
  let x := s.ctx slot
  if !s.mainUp ∨ 16 ≤ slot then s
  else if x.st = .free ∨ x.st = .tornDown then s.setCtx slot { x with err := 1 }
  else if q < x.queueCount then s.queueCommand slot q code else s

/-- QCTL_HALT. -/
def execQctlHalt (slot q : Nat) (s : State) : Host.Outcome State Fault Refusal := happen (s.hostQueueCommand slot q 1)

/-- QCTL_RESUME. -/
def execQctlResume (slot q : Nat) (s : State) : Host.Outcome State Fault Refusal := happen (s.hostQueueCommand slot q 2)

/-- FLUSH. -/
def execFlush (slot q : Nat) (s : State) : Host.Outcome State Fault Refusal := happen (s.hostQueueCommand slot q 3)

/-- QCTL_RESET. -/
def execQctlReset (slot q : Nat) (s : State) : Host.Outcome State Fault Refusal := happen (s.hostQueueCommand slot q 4)

end Sys2Proof.Machine
end

