-- ==== Sys2Proof/Machine/HostWindow.lean ====
section
/-! DEFINITION. The context windows of the host adapter (18_link R379-R382): PUT ports, table writes, device-memory transfers, the completion
area, the semaphore partition and the registers. -/

namespace Sys2Proof.Machine

/-- A write in a state in which it is not accepted: ignored, CTXCMD.ERR := 1 (04_context R94). -/
def State.badWrite (s : State) (slot : Nat) : State := s.setCtx slot { s.ctx slot with err := 1 }

/-- A write that the host may make while its context is allocated, suspended or faulted (R94). -/
def State.stoppedWrite (s : State) (slot : Nat) (f : Ctx → State) : State :=
  let x := s.ctx slot
  if !s.mainUp ∨ 16 ≤ slot then s
  else if x.st = .allocated ∨ x.st = .suspended ∨ x.st = .faulted then f x else s.badWrite slot

/-- A write that is accepted in every state but free and torn down (R379). -/
def State.liveWrite (s : State) (slot : Nat) (f : Ctx → State) : State :=
  let x := s.ctx slot
  if !s.mainUp ∨ 16 ≤ slot then s else if x.st ≠ .free ∧ x.st ≠ .tornDown then f x else s.badWrite slot

/-! ### PUT (R380) -/

/-- Bytes of a port with one 8-byte word replaced. -/
def putPort (b : List Byte) (off value : Nat) : List Byte :=
  let full := (b ++ List.replicate (128 - b.length) 0).take 128
  full.take off ++ leBytes 8 value ++ full.drop (off + 8)

/-- PUT: the write of port offset 0x78. -/
def execPut (slot port value : Nat) (s : State) : Host.Outcome State Fault Refusal :=
  happen (s.liveWrite slot fun x =>
    let q := port % 16
    let b := putPort (x.ports.get [] q) 0x78 value
    let x1 := { x with ports := x.ports.set q b }
    if x.queueCount ≤ q ∨ (x.kept.any fun e => e.1 == q) then s.setCtx slot { x1 with prefused := true }
    else (s.setCtx slot { x1 with kept := x.kept ++ [(q, b)] }).sendKept slot (x.kept.length + 1))

/-! ### The table-write engine (R380) -/

/-- Bytes of host memory; none where the range does not exist (log 21). -/
def State.hostBytes (s : State) (a n : Nat) : Option (List Byte) :=
  if a + n ≤ Config.hostBase then some (s.peeks none (Config.hostBase + a) n) else none

/-- The pieces of one unit of a table region that a table write may reach. -/
def State.tablePiece (s : State) (slot va n : Nat) : Option (List (Loc × Nat × Nat)) :=
  (List.range 8).findSome? fun p =>
    match locateAll s slot (.pierWrite p) false [(va, n)] with
    | .ok l => if l.all fun e => e.1.tbl then some l else none
    | .error _ => none

/-- Bytes written by the host into a table region: they are what the keel sees (08_memory R178). -/
def State.hostTableWrite (s : State) : List (Loc × Nat × Nat) → List Byte → State
  | [], _ => s
  | (l, _, n) :: r, b =>
    State.hostTableWrite { s.pokes l.enc l.key (b.take n) with stale := s.stale.filter fun e => !(decide (l.key ≤ e.1) && decide (e.1 < l.key + n)) } r (b.drop n)

/-- The pieces of a table write in increasing address, up to the first page that faults: whether all were written. -/
def tableWrites (slot : Nat) : List (Nat × Nat) → List Byte → State → Bool × State
  | [], _, s => (true, s)
  | (va, n) :: r, b, s =>
    match s.tablePiece slot va n with
    | some l => tableWrites slot r (b.drop n) (s.hostTableWrite l (b.take n))
    | none => (false, s)

/-- TWST.ERR. -/
def Ctx.twErr (x : Ctx) : Ctx := { x with twst := x.twst ||| 4 }

/-- TWGO: ignored with ERR without feature bit 3; TWLEN is a multiple of 128. -/
def execTwgo (slot value : Nat) (s : State) : Host.Outcome State Fault Refusal :=
  happen (
    let x := s.ctx slot
    let y := { x with twst := if bit value 2 then 0 else x.twst }
    if !s.mainUp ∨ 16 ≤ slot ∨ bit value 0 = false then s
    else if bit s.link.feat.toNat 3 = false then s.setCtx slot y.twErr
    else if x.st ≠ .allocated ∧ x.st ≠ .suspended ∧ x.st ≠ .faulted then s.setCtx slot { y.twErr with err := 1 }
    else
      match s.hostBytes x.twsrc.toNat x.twlen.toNat with
      | some b =>
        if x.twlen.toNat % 128 ≠ 0 then s.setCtx slot y.twErr
        else
          let (ok, t) := tableWrites slot (spanPieces x.twdst.toNat x.twlen.toNat) b (s.setCtx slot y)
          if ok then t else t.setCtx slot (t.ctx slot).twErr
      | none => s.setCtx slot y.twErr)

/-! ### The device-memory transfer (R381) -/

/-- DXCTL.ERR set. -/
def Ctx.dxErr (x : Ctx) : Ctx := { x with dxctl := x.dxctl ||| 4 }

/-- DXCTL as a write leaves it: DIR and KEY are written, ERR is cleared by a one. -/
def dxWritten (old : Word) (v : Nat) : Word :=
  .ofNat 64 (bits v 3 3 * 8 + bits v 27 16 * 65536 + (if bit old.toNat 2 && !bit v 2 then 4 else 0))

/-- The conditions of a GO on its registers (R381). -/
def State.dxOk (s : State) (x : Ctx) (k : KeySlot) : Bool :=
  let n := x.dxlen.toNat
  n != 0 && n % 128 == 0 && x.dxhost.toNat % 128 == 0 && x.dxpa.toNat % 128 == 0 && decide (x.dxpa.toNat + n ≤ s.deviceTop) &&
  (k.owner == 0 || k.owner == x.id)

/-- The first sectors of an accepted transfer moved, after every line of the context has left the caches. -/
def State.dxMove (s0 : State) (x : Ctx) (k : KeySlot) (sectors : Nat) : State :=
  let s : State := { s0 with caches := s0.caches.flush fun e => e.id == x.id }
  let host := Config.hostBase + x.dxhost.toNat
  if bit x.dxctl.toNat 3 then s.pokes none host (s.peeks (some k.val) x.dxpa.toNat (128 * sectors))
  else s.pokes (some k.val) x.dxpa.toNat (s.peeks none host (128 * sectors))

/-- How many sectors of a transfer move: up to one that the host does not have, and, with no spare lane left, up to a failure of the link, which a free
value places (log 21). -/
def State.dxSectors (s : State) (x : Ctx) : Nat × State :=
  let n := min (x.dxlen.toNat / 128) ((Config.hostBase - x.dxhost.toNat) / 128)
  if s.link.spare then (n, s)
  else
    let (v, t) := s.freeBits 32
    (min n v, t)

/-- DXCTL_GO. -/
def execDxctlGo (slot value : Nat) (s : State) : Host.Outcome State Fault Refusal :=
  happen (
    let y := { s.ctx slot with dxctl := dxWritten (s.ctx slot).dxctl value }
    if !s.mainUp ∨ 16 ≤ slot ∨ bit value 0 = false then s
    else if y.st ≠ .allocated ∧ y.st ≠ .suspended ∧ y.st ≠ .faulted then s.setCtx slot { (s.ctx slot).dxErr with err := 1 }
    else
      match s.mgmt.keys.find? fun k => k.1 == bits value 27 16 with
      | some (_, k) =>
        if s.dxOk y k then
          let (n, t) := s.dxSectors y
          (t.setCtx slot (if n = y.dxlen.toNat / 128 then y else y.dxErr)).dxMove y k n
        else s.setCtx slot y.dxErr
      | none => s.setCtx slot y.dxErr)

/-! ### The completion area and the semaphore partition -/

/-- CHEAD: room in the completion area lets records that wait go. -/
def execChead (slot value : Nat) (s : State) : Host.Outcome State Fault Refusal :=
  happen (s.liveWrite slot fun x => (s.setCtx slot { x with chead := value % 2 ^ 64 }).flushRecords slot (x.cwaiting.length + 1))

/-- A chip semaphore as the host reads it: 0 in a free or torn-down slot, and at or above COUNT (R379). -/
def State.hostSemaphore (s : State) (slot n : Nat) : Nat :=
  let x := s.ctx slot
  if x.st = .free ∨ x.st = .tornDown ∨ x.semCount ≤ n then 0 else (s.chipSem slot n).toNat

/-- HOST_SEMAPHORE_ACCESS: a read (`op` 0) returns the value; a write joins the order of the semaphore (06_queue R139). -/
def execHostSemaphoreAccess (slot n op value : Nat) (s : State) : Host.Outcome State Fault Refusal :=
  happen (
    let x := s.ctx slot
    if !s.mainUp ∨ 16 ≤ slot then s
    else if op = 0 then { s with link := { s.link with hostRead := s.hostSemaphore slot n } }
    else if x.st = .free ∨ x.st = .tornDown ∨ x.semCount ≤ n then s.badWrite slot
    else s.setChipSem slot n (.ofNat 32 value))

/-! ### Registers (R94, R379) -/

/-- The address field [56:16] of a register, as an address. -/
def addrField (v : Nat) : Nat := bits v 56 16 * 65536

/-- A context register 0x102 to 0x112 written by the host: its fields, reserved bits reading zero. -/
def Ctx.writeReg (x : Ctx) (n v : Nat) : Ctx :=
  match n with
  | 0x102 => { x with troot := addrField v }
  | 0x103 => { x with handler := addrField v }
  | 0x104 => { x with savebase := addrField v }
  | 0x105 => { x with waysave := .ofNat 64 (addrField v + bits v 0 0) }
  | 0x106 => { x with grantv := .ofNat 32 v }
  | 0x107 => { x with granth := .ofNat 64 (bits v 8 0 + bits v 24 16 * 2 ^ 16) }
  | 0x108 => { x with grantw := .ofNat 64 (bits v 3 0 + bits v 47 16 * 2 ^ 16) }
  | 0x109 => { x with grantl := .ofNat 16 v }
  | 0x10A => { x with sempart := .ofNat 64 (v % 2 ^ 32) }
  | 0x10B => { x with qmap := v % 32 }
  | 0x10C => { x with quantum := .ofNat 32 v }
  | 0x10D => { x with qbackoff := .ofNat 16 v }
  | 0x10E => { x with deadchk := bit v 0 }
  | 0x10F => { x with trv := .ofNat 64 v }
  | 0x110 => { x with srseed := .ofNat 64 v }
  | 0x111 => { x with nftrap := .ofNat 2 v }
  | 0x112 => { x with xjob := .ofNat 64 (v % 2 ^ 17) }
  | _ => x

/-- A register of a window that obeys the state rules of R94, at its offset. -/
def Ctx.writeWindow (x : Ctx) (off v : Nat) : Ctx :=
  if 0x100 ≤ off ∧ off < 0x1A0 then x.writeReg (0x100 + (off - 0x100) / 8) v
  else if 0x400 ≤ off ∧ off < 0x500 then
    { x with vseg := x.vseg.set ((off - 0x400) / 8) (.ofNat 64 (bits v 8 0 + bits v 24 16 * 2 ^ 16)) }
  else if off = 0x500 then { x with tdir := .ofNat 64 (addrField v + bits v 10 0) }
  else if off = 0x508 then { x with hrthr := .ofNat 16 v }
  else if 0x800 ≤ off ∧ off < 0xA00 ∧ (off - 0x800) % 32 = 0 then
    let q := (off - 0x800) / 32
    x.setQueue q { x.queue q with kind := bits v 0 0, lsize := bits v 7 4, addr := addrField v }
  else if off = 0xA00 then { x with cbase := .ofNat 64 (v / 4096 * 4096) }
  else if off = 0xA08 then { x with csize := .ofNat 64 v }
  else if off = 0xC00 then { x with prefused := x.prefused && !bit v 8 }
  else if off = 0x1800 then { x with twsrc := .ofNat 64 v }
  else if off = 0x1808 then { x with twdst := .ofNat 64 v }
  else if off = 0x1810 then { x with twlen := .ofNat 64 v }
  else if off = 0x1818 then { x with twst := if bit v 2 then 0 else x.twst }
  else if off = 0x1C00 then { x with dxhost := .ofNat 64 v }
  else if off = 0x1C08 then { x with dxpa := .ofNat 64 (v % 2 ^ 48) }
  else if off = 0x1C10 then { x with dxlen := .ofNat 64 (v % 2 ^ 32) }
  else if off = 0x1C18 then { x with dxctl := dxWritten x.dxctl v }
  else x

/-- Whether an offset is one of those registers; unlisted offsets ignore writes (R378). -/
def windowReg (off : Nat) : Bool :=
  off % 8 == 0 && ((decide (0x110 ≤ off) && decide (off < 0x198)) || (decide (0x400 ≤ off) && decide (off < 0x500)) ||
    (decide (0x800 ≤ off) && decide (off < 0xA00) && (off - 0x800) % 32 == 0) ||
    [0x500, 0x508, 0xA00, 0xA08, 0xC00, 0x1800, 0x1808, 0x1810, 0x1818, 0x1C00, 0x1C08, 0x1C10, 0x1C18].contains off)

/-- REGISTER_WRITE: an 8-byte write to an offset of a context window that no other step names: QCTL's bits and the bytes of a PUT port in every
state but free and torn down, every other register under the rules of R94. -/
def execRegisterWrite (slot reg value : Nat) (s : State) : Host.Outcome State Fault Refusal :=
  happen (
    let v := value % 2 ^ 64
    if 0x800 ≤ reg ∧ reg < 0xA00 ∧ (reg - 0x800) % 32 = 16 then
      s.liveWrite slot fun _ => s.writeQueueReg slot ((reg - 0x800) / 32) 2 v true
    else if 0x1000 ≤ reg ∧ reg < 0x1800 ∧ reg % 8 = 0 then
      s.liveWrite slot fun x =>
        let q := (reg - 0x1000) / 128
        if reg % 128 = 0x78 then s else s.setCtx slot { x with ports := x.ports.set q (putPort (x.ports.get [] q) (reg % 128) v) }
    else if windowReg reg then
      s.stoppedWrite slot fun x => (s.setCtx slot (x.writeWindow reg v)).flushRecords slot (x.cwaiting.length + 1)
    else s)

/-! ### Reads of BAR0 (R378, R379) -/

/-- CTXCMD as the host reads it (04_context R95). -/
def Ctx.command (x : Ctx) : Nat := x.cmd + x.cmdId * 2 ^ 8 + x.err * 2 ^ 16 + bitNat x.done * 2 ^ 31

/-- The 8 bytes at an offset of a slot's context window. -/
def State.windowRead (s : State) (slot off : Nat) : Nat :=
  let x := s.ctx slot
  if off = 0 then x.command
  else if 0x100 ≤ off ∧ off < 0x198 then x.reg slot false (0x100 + (off - 0x100) / 8)
  else if off = 0x198 then s.devidReg
  else if 0x400 ≤ off ∧ off < 0x500 then (x.vseg.get 0 ((off - 0x400) / 8)).toNat
  else if off = 0x500 then x.tdir.toNat
  else if off = 0x508 then x.hrthr.toNat
  else if 0x800 ≤ off ∧ off < 0xA00 then (x.queue ((off - 0x800) / 32)).reg ((off - 0x800) / 8 % 4)
  else if off = 0xA00 then x.cbase.toNat
  else if off = 0xA08 then x.csize.toNat
  else if off = 0xA10 then x.chead
  else if off = 0xA18 then x.ctail
  else if off = 0xC00 then x.hwin.length + bitNat x.prefused * 2 ^ 8 + x.pnacks * 2 ^ 32
  else if 0x1000 ≤ off ∧ off < 0x1800 then fieldAt (x.ports.get [] ((off - 0x1000) / 128)) (off % 128) 8
  else if off = 0x1800 then x.twsrc.toNat
  else if off = 0x1808 then x.twdst.toNat
  else if off = 0x1810 then x.twlen.toNat
  else if off = 0x1818 then x.twst.toNat
  else if off = 0x1C00 then x.dxhost.toNat
  else if off = 0x1C08 then x.dxpa.toNat
  else if off = 0x1C10 then x.dxlen.toNat
  else if off = 0x1C18 then x.dxctl.toNat
  else if 0x4000 ≤ off ∧ off < 0x8000 then s.hostSemaphore slot ((off - 0x4000) / 4) + s.hostSemaphore slot ((off - 0x4000) / 4 + 1) * 2 ^ 32
  else 0

/-- LSTAT. -/
def Link.status (l : Link) : Nat :=
  bitNat l.up + bitNat l.err * 2 + l.lanes % 16 * 2 ^ 2 + l.major % 256 * 2 ^ 8 + l.minor % 256 * 2 ^ 16 + l.feat.toNat % 2 ^ 32 * 2 ^ 32

/-- The 8 bytes at an offset of BAR0 as the host reads them, an aligned one; an unlisted offset reads 0. -/
def State.barRead (s : State) (off : Nat) : Nat :=
  if off = 0 then s.link.status
  else if off = 8 then 0x010101010101
  else if off = 0x10 then s.devidReg
  else if 0x1000000 ≤ off ∧ off < 0x1100000 then s.windowRead ((off - 0x1000000) / 65536) (off % 65536)
  else 0

end Sys2Proof.Machine
end

