-- ==== Sys2Proof/Machine/Fenvar.lean ====
section
/-! DEFINITION. The Fenvar link and the Ethernet ports (18_link R375-R377, R385), and the module's error log (19_faults R410). -/

namespace Sys2Proof.Machine

/-! ### The error log (19_faults R410) -/

/-- A record of the error log. -/
def errorRecord (r : ErrorReport) (since outcome : Nat) : List Byte :=
  leBytes 8 since ++ [.ofNat 8 r.unitClass, .ofNat 8 r.unitIndex, .ofNat 8 r.kind, .ofNat 8 outcome, .ofNat 8 r.ctx, 0, 0, 0] ++
  leBytes 8 r.locus ++ leBytes 8 r.addr

/-- A record appended; of more than 65,536 the oldest goes. -/
def State.logError (s : State) (r : ErrorReport) (since outcome : Nat) : State :=
  let l := s.mgmt.log ++ [errorRecord r since outcome]
  { s with mgmt := { s.mgmt with log := l.drop (l.length - 65536) } }

/-! ### Flits (R375, R376) -/

/-- A case of R406 opened for an error of the Fenvar link (19_faults R404). -/
def State.openCase (s : State) (k : ErrorCase) : State := { s with mgmt := { s.mgmt with cases := s.mgmt.cases ++ [k] } }

/-- The error of a flit that fails its CRC (19_faults R404, R405, R410). -/
def crcError : ErrorReport := { unitClass := 7, unitIndex := 0, kind := 3 }

/-- A negative acknowledgement sent: it names the flit that is expected. -/
def Link.nack (l : Link) : Link := l.emit 3 l.txSeq l.rxSeq []

/-- A flit that arrives while the link is up: one that fails its check is discarded and negatively acknowledged, an error that is tested and logged. -/
def State.onFlit (s : State) (f : Flit) (g : Link → Link) : State :=
  if s.mgmt.main ≠ .ready ∨ s.link.up = false then s
  else if f.good then { s with link := g s.link }
  else State.openCase { s with link := s.link.nack } { rep := crcError, since := s.wall }

/-- PAYLOAD_FLIT: delivered once and in sequence, and acknowledged. -/
def execPayloadFlit (f : Flit) (s : State) : Host.Outcome State Fault Refusal :=
  happen (s.onFlit f fun l =>
    if f.seqNo = l.rxSeq then
      let l1 := l.ack f
      Link.emit { l1 with rxSeq := (l.rxSeq + 1) % 1024, inbox := l1.inbox ++ [f.body] } 2 l1.txSeq f.seqNo []
    else l.nack)

/-- ACKNOWLEDGEMENT_FLIT. -/
def execAcknowledgementFlit (f : Flit) (s : State) : Host.Outcome State Fault Refusal :=
  happen (s.onFlit f fun l => l.ack f)

/-- NEGATIVE_ACKNOWLEDGEMENT_FLIT: every flit of the replay buffer from the one named is sent again, in order. -/
def execNegativeAcknowledgementFlit (f : Flit) (s : State) : Host.Outcome State Fault Refusal :=
  happen (s.onFlit f fun l =>
    (l.txBuf.dropWhile fun e => e.1 != f.ackNo).foldl (fun (t : Link) e => t.emit 1 e.1 t.lastIn e.2) { l with credits := l.credits + f.credits })

/-- IDLE_FLIT. -/
def execIdleFlit (f : Flit) (s : State) : Host.Outcome State Fault Refusal :=
  happen (s.onFlit f fun l => l.ack f)

/-! ### Training (R377) -/

/-- The advertisement of the module: MAJMIN 2, MAJMAX 3, MINOR 1, FEAT bits 0 to 4. -/
def advert : Nat := 2 + 3 * 2 ^ 8 + 1 * 2 ^ 16 + 0x1F * 2 ^ 32

/-- The major version that both sides use; none where there is none. -/
def commonMajor (a b : Nat) : Option Nat :=
  let m := min (bits a 15 8) (bits b 15 8)
  if m < max (bits a 7 0) (bits b 7 0) then none else some m

/-- The minor version at a major. -/
def commonMinor (a b m : Nat) : Nat :=
  if bits a 15 8 = m ∧ bits b 15 8 = m then min (bits a 23 16) (bits b 23 16)
  else if bits a 15 8 = m then bits a 23 16
  else if bits b 15 8 = m then bits b 23 16
  else 0

/-- The link after the adapter's advertisement. -/
def Link.train (l : Link) (b : Nat) : Link :=
  match commonMajor advert b with
  | some m => { l with up := true, err := false, major := m, minor := commonMinor advert b m, feat := .ofNat 64 (bits advert 63 32 &&& bits b 63 32) }
  | none => { l with up := false, err := true }

/-- TRAINING_FLIT: each side sends its advertisement; a link that stays down is a link error (R382). -/
def execTrainingFlit (f : Flit) (s : State) : Host.Outcome State Fault Refusal :=
  happen (
    if s.mgmt.main ≠ .ready ∨ f.good = false then s
    else
      let l := s.link.train (fieldAt f.body 0 8)
      let s1 : State := { s with link := l.emit 4 l.txSeq l.lastIn (leBytes 8 advert) }
      if l.up then s1 else s1.irq 256)

/-! ### Lanes and ports -/

/-- LANE_FAILURE: the spare lane takes a lane's place; at a second failure the link goes on with four lanes, and the module is degraded. The lane is tested
as any part after an error (19_faults R406). -/
def execLaneFailure (lane : Nat) (s : State) : Host.Outcome State Fault Refusal :=
  happen (
    if s.mgmt.main ≠ .ready ∨ 9 ≤ lane then s
    else
      let r : ErrorReport := { unitClass := 7, unitIndex := 0, kind := 3, locus := lane }
      let k : ErrorCase := { rep := r, since := s.wall, logged := true, done := true }
      if s.link.spare then
        let s1 : State := { s with link := { s.link with spare := false }, mgmt := { s.mgmt with repairs := s.mgmt.repairs ++ [(7, 0, lane)] } }
        (s1.logError r s.wall 1).openCase k
      else
        let s1 : State := { s with link := { s.link with lanes := 4 }, mgmt := { s.mgmt with degraded := true } }
        ((s1.logError r s.wall 2).openCase k).irq 256)

/-- One of the ports that are up, chosen by a free value (packets are sprayed). -/
def Link.anyPort (l : Link) (n : Nat) : Option Nat :=
  let up := (List.range 8).filter fun i => l.ports.getLsbD i
  up[Config.free n % up.length]?

/-- PORT_FAILURE: the port takes no further packets, and its unacknowledged packets are sent again on the others; with no port up they wait (8). -/
def execPortFailure (port : Nat) (s : State) : Host.Outcome State Fault Refusal :=
  happen (
    if s.mgmt.main ≠ .ready ∨ 8 ≤ port ∨ s.link.ports.getLsbD port = false then s
    else
      let l := { s.link with ports := s.link.ports &&& ~~~(BitVec.ofNat 8 (2 ^ port)) }
      let moved := l.packets.mapIdx fun i (e : Nat × Nat × Packet) => if e.1 = port then ((l.anyPort (s.tick + i)).getD 8, e.2) else e
      let s1 : State := { s with tick := s.tick + l.packets.length, link := { l with packets := moved } }
      let r : ErrorReport := { unitClass := 7, unitIndex := port + 1, kind := 3, locus := port }
      ((s1.logError r s.wall (if l.ports = 0 then 3 else 1)).openCase { rep := r, since := s.wall, logged := true, done := true }).irq 256)

end Sys2Proof.Machine
end

