-- ==== Sys2Proof/Machine/Boot.lean ====
section
/-! DEFINITION. The main side's states, firmware and the boot sequence (22_bringup R419-R424, R426; 00_scope R8; 01_module R25, R30, R31). -/

namespace Sys2Proof.Machine

/-! ### The main side goes down -/

/-- Whether a cell of memory is host memory, which is no part of the module. -/
def isHostCell (c : Host.Cell) : Bool := decide (Config.hostBase ≤ c.1) && decide (c.1 < Config.vaultBase)

/-- The main side powered down or reset: contexts, keys, device memory and everything else of it are lost; the standby side, the clocks'
counts, what the fuses and the wires keep, and the host's memory stay (R419), and so do the messages that wait. -/
def State.mainDown (s : State) (next : Main) : State :=
  { State.reset with
    agenda := s.agenda, tick := s.tick, nextOp := s.nextOp, clk := s.clk, wall := s.wall,
    mem := s.mem.filter isHostCell,
    disp := { unavailable := s.disp.unavailable, spares := s.disp.spares },
    link := { lanes := s.link.lanes, spare := s.link.spare, ports := s.link.ports, pierSpares := s.link.pierSpares },
    mgmt := { s.mgmt with main := next, keys := [], kek := none, dbg := false } }

/-! ### Firmware (R422, R423) -/

/-- Fields of a firmware header: SVN, LEN, VERMAJ : VERMIN, DIGEST. -/
def fwSvn (b : List Byte) : Nat := fieldAt b 8 4
def fwLen (b : List Byte) : Nat := fieldAt b 0x10 8
def fwVer (b : List Byte) : Nat := fieldAt b 4 2
def fwDigest (b : List Byte) : List Byte := (b.drop 0x18).take 32

/-- The checks of R423. -/
def fwOk (b : List Byte) (svnMin : Nat) : Bool :=
  let n := fwLen b
  fieldAt b 0 4 == 0x57464E4F && fieldAt b 5 1 == 1 && fieldAt b 6 2 == 0 && fieldAt b 0xC 4 == 0 && fieldAt b 0x1B8 72 == 0 &&
  n % 4096 == 0 && decide (n ≤ 2 ^ 26) && decide (0x200 + n ≤ b.length) && decide (svnMin ≤ fwSvn b) &&
  decide (sha256 ((b.drop 0x200).take n) = fwDigest b) && Config.verifies 0 (b.take 0x38) ((b.drop 0x38).take 384)

/-- A bank of the firmware flash. -/
def Mgmt.bank (g : Mgmt) (b : Bool) : List Byte := if b then g.bankB else g.bankA
def Mgmt.setBank (g : Mgmt) (b : Bool) (l : List Byte) : Mgmt := if b then { g with bankB := l } else { g with bankA := l }

/-- The bank that the boot sequence boots: the selected one, failing that the other (R421). -/
def Mgmt.bootBank (g : Mgmt) : Option Bool :=
  if fwOk (g.bank g.nextB) g.svnMin then some g.nextB else if fwOk (g.bank !g.nextB) g.svnMin then some !g.nextB else none

/-! ### The boot sequence -/

/-- The boot sequence begins: M0 and M2 are set, M1 is not, and the device ID is not assigned (R421, R426, R427). -/
def State.startBoot (s : State) : State :=
  let t := s.mainDown .boot
  { t with mgmt := { t.mgmt with m0 := sha256 Config.bootRom, m1 := [], m2 := sha256 (Config.fuseRecord t.mgmt.svnMin t.mgmt.repairs), devid := 0, devidSet := false } }

/-- An answer on the side-band port: its status byte and its data (18_link R383). -/
def State.reply (s : State) (status : Nat) (data : List Byte := []) : State :=
  { s with mgmt := { s.mgmt with replies := s.mgmt.replies ++ [.ofNat 8 status :: data] } }

/-- The bytes of an attestation report below its signature (R427). -/
def Mgmt.reportBody (g : Mgmt) (nonce : List Byte) : List Byte :=
  leBytes 4 0x54525841 ++ leBytes 2 1 ++
  leBytes 2 ((if g.dbg then 1 else 0) + (if g.activeB then 2 else 0) + (if g.degraded then 4 else 0)) ++ nonce ++
  leBytes 4 (if g.devidSet then g.devid + 2 ^ 31 else 0) ++ leBytes 4 g.bootSvn ++ leBytes 8 g.bootCount ++ leBytes 8 g.bootVer ++
  g.m0 ++ g.m1 ++ g.m2 ++ g.m3 ++ sha256 Config.publicKey

/-- An ATTEST served. -/
def State.serveAttest (s : State) (nonce : List Byte) : State :=
  let b := s.mgmt.reportBody nonce
  ({ s with mgmt := { s.mgmt with nonces := s.mgmt.nonces ++ [nonce] } }).reply 0 (b ++ pad 384 (Config.signs b))

/-! ### Throttling -/

/-- A throttle step taken: of two requests in one clock the slower (18_link R384). -/
def State.setThrottle (s : State) (power : Bool) (level : Nat) : State :=
  let other := s.mgmt.throttleAt == some (!power, s.clk)
  { s with mgmt := { s.mgmt with throttle := if other then max s.mgmt.throttle level else level, throttleAt := some (power, s.clk) } }

/-- POWER_THROTTLE: the power controller sets a step, 0 (3.3 GHz) to 4 (0.825 GHz) (01_module R25). -/
def execPowerThrottle (level : Nat) (s : State) : Host.Outcome State Fault Refusal :=
  happen (s.setThrottle true (min level 4))

end Sys2Proof.Machine
end

