-- ==== Sys2Proof/Machine/Cancel.lean ====
section
/-! DEFINITION. fcan on every kind of operation (15_ferry R324, R333; 16_bitserial R351; 17_piers R369; 18_link R395). -/

namespace Sys2Proof.Machine

/-- An embedding command cancelled: the bags that a gbag has published stay, a supd or skq has no effect. -/
def State.cancelCommand (s : State) (t : TagRef) : State :=
  { (s.setTag t { s.tag t with st := .cancelled, rd := true, trp := false, op := none }) with
    atraps := s.atraps.filter fun a => decide (a.tag ≠ some t) }

/-- fcan: a commit is not stopped, and the order waits for it; on a tag that is complete, or that a pier stream holds, it has no effect. -/
def execFcan (tag : BitVec 6) (s : State) : Host.Outcome State Fault Refusal :=
  issue s fun s =>
    let t := s.myTag tag.toNat
    let g := s.tag t
    if g.st = .landing ∨ g.st = .frozen then
      match g.op with
      | some (.copy _) => .ok (s.cancelTag t)
      | some (.transfer x) => .ok ((s.cancelTag t).forgetTransfer x.slot t)
      | some (.crossing x) => .ok (s.cancelCrossing t x)
      | some (.embedding e) => if e.fn = 3 then waitFor 6 tag.toNat (.tagAll [t]) else .ok (s.cancelCommand t)
      | _ => .ok s
    else .ok s

end Sys2Proof.Machine
end

