-- ==== Sys2Proof/Machine/Control.lean ====
section
/-! DEFINITION. Majors 0x00 to 0x03: common control, loops and step jumps, predicate orders, semaphores and tag waits (05_kernel
R124-R133; 03_encoding R80). -/

namespace Sys2Proof.Machine

/-! ### Major 0x00 (R125) -/

/-- nop: only its tokens act. -/
def execNop (s : State) : Host.Outcome State Fault Refusal := issue s fun s => .ok s

/-- tok: only its tokens act, n for each bit (`tokenCount`). -/
def execTok (_n : BitVec 4) (s : State) : Host.Outcome State Fault Refusal := issue s fun s => .ok s

/-- lpat: its pattern for the va operand of slot 1 (R80); in slot 1 it has no effect. -/
def execLpat (kind k : BitVec 5) (s : State) : Host.Outcome State Fault Refusal :=
  issue s fun s => .ok (if s.iss.slot = 0 then { s with iss := { s.iss with lpat := some (kind.toNat, k.toNat) } } else s)

/-- The tags of streams that a core forked and that still run (17_piers R356). -/
def State.openForks (s : State) (c : Nat) : List TagRef :=
  s.tags.filterMap fun (e : TagRef × Tag) => match e.2.op with
    | some (.fork f) => if e.1.owner = .core c ∧ f.ended = false then some e.1 else none
    | _ => none

/-- halt: C waits for its engines (KIND 9) and its streams, and must hold no open tile (07_group R157). After a transfer of slot 0 a halt
of slot 1 is suppressed (03_encoding R67). A stream's stores are performed before it ends, and a copy sequencer's before its card completes
(09_ordering R191). -/
def execHalt (s : State) : Host.Outcome State Fault Refusal :=
  issue s fun s =>
    match s.iss.who with
    | .seq c q =>
      if s.iss.transferred then .ok s
      else if q ≠ sqC then .ok (s.transfer .stop)
      else if (s.core c).opened then raise .permission 9
      else if !(Cond.engineStopped c 7).holds s then waitFor 9 7 (.engineStopped c 7)
      else if !(s.openForks c).isEmpty then waitFor 10 0xF0 (.tagAll (s.openForks c))
      else .ok (s.transfer .stop)
    | _ => do
      s.awaitHeld 8 s.heldObj
      return s.transfer .stop

/-- brk: the breakpoint trap. -/
def execBrk (code : BitVec 12) (s : State) : Host.Outcome State Fault Refusal := issue s fun _ => raise .breakpoint code.toNat

/-- trap: the software trap with sub-code 2. -/
def execTrap (code : BitVec 12) (s : State) : Host.Outcome State Fault Refusal :=
  issue s fun _ => raise .softwareTrap (2 + code.toNat * 2 ^ 16)

/-- pause: the sequencer idles for t clocks. -/
def execPause (t : BitVec 12) (s : State) : Host.Outcome State Fault Refusal :=
  issue s fun s => .ok (s.setCur { s.cur with idleUntil := s.clk + t.toNat })

/-! ### Major 0x01 (R127-R130) -/

/-- The step at a distance from this one, as a number that can lie outside a table memory (R130). -/
def State.stepAt (s : State) (d : Int) : Int :=
  if s.iss.who.isScalar then s.iss.here.toInt + 8 * d else (s.iss.here.toNat % 2048 : Nat) + d

/-- The same as a step counter. -/
def State.stepWord (s : State) (d : Int) : Word := .ofInt 64 (s.stepAt d)

/-- The limits of a loop step (R127) for loop register `n` and a body of `len` steps. -/
def State.loopLimits (s : State) (n len : Nat) (rotating : Bool) : Bool :=
  let q := s.cur
  decide (4 ≤ q.frames.length) || q.frames.any (fun f => f.reg == n) ||
  (match q.frames with
   | f :: _ => decide ((f.last.toNat : Int) < s.stepAt len)
   | [] => false) ||
  (!s.iss.who.isScalar && decide (2047 < s.stepAt len)) ||
  (rotating && q.frames.any fun f => f.rotating)

/-- Begin a loop with a trip count, or skip its body (R127, R129). The skip is no control transfer of R67 (log 19). -/
def State.beginLoop (s : State) (n len trips stages : Nat) (rotating : Bool) : State :=
  if trips = 0 then s.transfer (.skip (s.stepWord len))
  else
    let f : Frame := { reg := n, first := s.stepWord 1, last := s.stepWord len, rotating := rotating, stages := stages, trips := trips }
    let s1 := s.wrLc n (.ofNat 64 (trips + stages - 1))
    s1.setCur { s1.cur with frames := f :: s1.cur.frames }

/-- loop with an immediate count. -/
def execLoop (n : BitVec 2) (len count : BitVec 6) (s : State) : Host.Outcome State Fault Refusal :=
  issueAlways s fun s =>
    if s.loopLimits n.toNat (len.toNat + 1) false then limitTrap s else .ok (s.beginLoop n.toNat (len.toNat + 1) count.toNat 1 false)

/-- loop.r: the count is the loop register's value. -/
def execLoopR (n : BitVec 2) (len : BitVec 6) (s : State) : Host.Outcome State Fault Refusal :=
  issueAlways s fun s =>
    if s.loopLimits n.toNat (len.toNat + 1) false then limitTrap s
    else .ok (s.beginLoop n.toNat (len.toNat + 1) (s.lcSrc n.toNat).toNat 1 false)

/-- loopp: the count is the difference of two row pointers (R128). -/
def execLoopp (n p : BitVec 2) (d : BitVec 1) (len : BitVec 6) (s : State) : Host.Outcome State Fault Refusal :=
  issueAlways s fun s => do
    if s.loopLimits n.toNat (len.toNat + 1) false || n == p then limitTrap s
    let w := if d = 0#1 then 4 else 8
    let a := (s.lcSrc p.toNat).toNat
    if a % w ≠ 0 then raise .misalignment 0 a
    let (p0, s1) ← s.loadNat a w
    let (p1, s2) ← s1.loadNat ((a + w) % 2 ^ 64) w
    return (s2.wrLc p.toNat (.ofNat 64 (a + w))).beginLoop n.toNat (len.toNat + 1) (p1 - p0) 1 false

/-- loopr: a rotating loop of S stages (R129). -/
def execLoopr (n : BitVec 2) (sm1 : BitVec 3) (len : BitVec 6) (s : State) : Host.Outcome State Fault Refusal :=
  issueAlways s fun s =>
    if s.loopLimits n.toNat (len.toNat + 1) true then limitTrap s
    else .ok (s.beginLoop n.toNat (len.toNat + 1) (s.lcSrc n.toNat).toNat (sm1.toNat + 1) true)

/-- A jump within the stream (R130). -/
def State.stepJump (s : State) (off : BitVec 12) : Except Stop State :=
  let t := s.stepAt off.toInt
  if !s.iss.who.isScalar && (decide (t < 0) || decide (2047 < t)) then limitTrap s
  else .ok (s.transfer (.jump (s.stepWord off.toInt)))

/-- sj: always jumps. -/
def execSj (off : BitVec 12) (s : State) : Host.Outcome State Fault Refusal := issueAlways s fun s => s.stepJump off

/-- sjp: jumps when the top predicate entry is all false. -/
def execSjp (off : BitVec 12) (s : State) : Host.Outcome State Fault Refusal :=
  issueAlways s fun s => if s.acts then .ok s else s.stepJump off

/-! ### Major 0x02 (R131) -/

/-- ptrue pushes all-true. -/
def execPtrue (s : State) : Host.Outcome State Fault Refusal :=
  issueAlways s fun s =>
    if 8 ≤ s.cur.stack.length then raise .predOverflow
    else .ok (s.setCur { s.cur with stack := BitVec.allOnes 1024 :: s.cur.stack })

/-- pelse complements the top entry under its parent. -/
def execPelse (s : State) : Host.Outcome State Fault Refusal :=
  issueAlways s fun s =>
    match s.cur.stack with
    | [] => raise .predUnderflow
    | t :: r => .ok (s.setCur { s.cur with stack := (topOf r &&& ~~~t) :: r })

/-! ### Major 0x03 (R132, R133) -/

/-- A core semaphore of the issuing sequencer's core replaced. -/
def State.setSem (s : State) (n : Nat) (v : BitVec 32) : State := s.setMyCore { s.myCore with sem := s.myCore.sem.set n v }

/-- What comes before an update of a core semaphore, for a semwait that sees it (13_vector R271): of the step of a vector engine, what slot 0 has done
when slot 1 updates. `add` where the value is formed from the one before. -/
def State.stampSem (s : State) (n : Nat) (add : Bool) : State :=
  let x := s.stampOf s.iss.who
  let d := if s.iss.slot = 1 then 1 else 0
  let y := match s.iss.who with
    | .seq _ sq => if sq = sqVA then (x.1 + d, x.2) else if sq = sqVB then (x.1, x.2 + d) else x
    | _ => x
  let k := s.myCore
  s.setMyCore { k with semSeen := k.semSeen.set n (if add then joinSeen (k.semSeen.get (0, 0) n) y else y) }

/-- semset: after every earlier write of its sequencer. -/
def execSemset (n : BitVec 5) (v : BitVec 12) (s : State) : Host.Outcome State Fault Refusal :=
  issue s fun s => do
    s.awaitHeld 8 s.heldObj
    return (s.latch.setSem n.toNat (v.zeroExtend 32)).stampSem n.toNat false

/-- semadd: a result outside 0 to 2^32 - 1 is the semaphore-overflow trap. -/
def execSemadd (n : BitVec 5) (d : BitVec 12) (s : State) : Host.Outcome State Fault Refusal :=
  issue s fun s => do
    s.awaitHeld 8 s.heldObj
    let t : Int := (s.myCore.sem.get 0 n.toNat).toNat + d.toInt
    if t < 0 ∨ 2 ^ 32 ≤ t then raise .semOverflow n.toNat
    return (s.latch.setSem n.toNat (.ofInt 32 t)).stampSem n.toNat true

/-- semwait. -/
def execSemwait (n : BitVec 5) (v : BitVec 12) (s : State) : Host.Outcome State Fault Refusal :=
  issue s fun s => do
    s.waitUntil 5 n.toNat (.semAtLeast s.myCoreNo n.toNat v.toNat)
    return s.see s.iss.who (s.myCore.semSeen.get (0, 0) n.toNat)

/-- The tags a mask names, the lowest first (R132). -/
def State.maskTags (s : State) (half : BitVec 5) (mask : BitVec 12) : List TagRef :=
  ((List.range 12).filter fun j => mask.getLsbD j).map fun j => s.myTag (2 * half.toNat + j)

/-- OBJ of a tag wait: the lowest named tag (R117). -/
def lowestTag (ts : List TagRef) : Nat := (ts.map (·.tag)).headD 0

/-- twany: at least one named tag is complete. -/
def execTwany (half : BitVec 5) (mask : BitVec 12) (s : State) : Host.Outcome State Fault Refusal :=
  issue s fun s => do
    let ts := s.maskTags half mask
    if !ts.isEmpty then s.waitUntil 6 (lowestTag ts) (.tagAny ts)
    return s

/-- twall: every named tag is complete. -/
def execTwall (half : BitVec 5) (mask : BitVec 12) (s : State) : Host.Outcome State Fault Refusal :=
  issue s fun s => do
    let ts := s.maskTags half mask
    s.waitUntil 6 (lowestTag ts) (.tagAll ts)
    return s

/-- tffr: the lowest named tag that is complete and not reported goes to lc3 and is reported; 64 for an empty mask. A tag that came about while it
waited stays so for it when a copy is issued on the tag again (R14, R116), but a tag that another tffr has reported is not reported twice (log 106). -/
def execTffr (half : BitVec 5) (mask : BitVec 12) (s : State) : Host.Outcome State Fault Refusal :=
  issue s fun s =>
    let ts := s.maskTags half mask
    if ts.isEmpty then .ok (s.wrLc 3 64)
    else
      let c := Cond.tagFresh ts
      match c.fresh s with
      | some t => .ok ((s.setTag t { s.tag t with rep := true }).wrLc 3 (.ofNat 64 t.tag))
      | none => match s.latchedTag c with
        | some t => .ok (s.wrLc 3 (.ofNat 64 t.tag))
        | none => waitFor 6 (lowestTag ts) c

end Sys2Proof.Machine
end

