-- ==== Sys2Proof/Machine/Manage.lean ====
section
/-! DEFINITION. The messages of the side-band management port (18_link R383, R384; 22_bringup R420, R424-R429). -/

namespace Sys2Proof.Machine

/-- A message of a length that it allows (else 3) in a main-side state that allows it (else 2). -/
def State.message (s : State) (m : List Byte) (len : Nat → Bool) (states : List Main) (f : List Byte → State) : State :=
  if 1023 < m.length ∨ len m.length = false then s.reply 3
  else if states.contains s.mgmt.main then f m
  else s.reply 2

/-- Every main-side state. -/
def anyState : List Main := [.off, .boot, .ready, .failed]

/-- Whether no context is allocated: every slot is free. -/
def State.noContext (s : State) : Bool := (List.range 16).all fun c => (s.ctx c).st == .free

/-- M3 extended by a record: message code, slot or device ID, owner (R426). -/
def State.extendM3 (s : State) (code num owner : Nat) : State :=
  { s with mgmt := { s.mgmt with m3 := sha256 (s.mgmt.m3 ++ (.ofNat 8 code :: leBytes 4 num) ++ [.ofNat 8 owner]) } }

/-- MAINON: answered once the boot sequence has started; M3 is zero, and no nonce of an earlier ATTEST counts (R426, R429). -/
def State.mainonAnswer (s : State) (m : List Byte) : State :=
  s.message m (· == 0) [.off, .failed] fun _ =>
    let t := s.startBoot
    ({ t with mgmt := { t.mgmt with m3 := List.replicate 32 0, nonces := [] } }).reply 0

/-- MAINOFF: 1 while a context is allocated, unless FORCE. -/
def State.mainoffAnswer (s : State) (m : List Byte) : State :=
  s.message m (· == 1) [.ready] fun p =>
    if !s.noContext && !bit (leNat p) 0 then s.reply 1 else (s.mainDown .off).reply 0

/-- The number of a main-side state (R419). -/
def Main.code : Main → Nat
  | .off => 0 | .boot => 1 | .ready => 2 | .failed => 3

/-- BOOTST: the state, the active bank and the measurements; one that is not set reads as zero. -/
def State.bootstAnswer (s : State) (m : List Byte) : State :=
  s.message m (· == 0) anyState fun _ =>
    let g := s.mgmt
    s.reply 0 ([.ofNat 8 g.main.code, if g.activeB then 1 else 0] ++ ([g.m0, g.m1, g.m2, g.m3].flatMap fun b => (b ++ List.replicate 32 0).take 32))

/-- GETCERT. -/
def State.getcertAnswer (s : State) (m : List Byte) : State :=
  s.message m (· == 4) anyState fun p => s.reply 0 ((Config.certificate.drop (leNat p)).take 1023)

/-- KEKSET: 1 where the ciphertext does not decrypt. -/
def State.keksetAnswer (s : State) (m : List Byte) : State :=
  s.message m (· == 384) [.ready] fun p =>
    match Config.decryptKek p with
    | some k => (({ s with mgmt := { s.mgmt with kek := some k } }).extendM3 4 0 0).reply 0
    | none => s.reply 1

/-- KEYLOAD: slot (4 bytes), owner (1 byte), 72 bytes of wrapped key (R428). -/
def State.keyloadAnswer (s : State) (m : List Byte) : State :=
  s.message m (· == 77) [.ready] fun p =>
    let n := fieldAt p 0 4
    let o := fieldAt p 4 1
    if n = 0 ∨ 4095 < n then s.reply 3
    else if s.mgmt.keys.has n then s.reply 1
    else
      match s.mgmt.kek.bind fun k => unwrapKey k (p.drop 5) with
      | some v => (({ s with mgmt := { s.mgmt with keys := s.mgmt.keys.set n { owner := o, val := .loaded v } } }).extendM3 5 n o).reply 0
      | none => s.reply 1

/-- KEYCLR: slot (4 bytes). -/
def State.keyclrAnswer (s : State) (m : List Byte) : State :=
  s.message m (· == 4) [.ready] fun p =>
    let n := leNat p
    if n = 0 ∨ 4095 < n then s.reply 3
    else (({ s with mgmt := { s.mgmt with keys := s.mgmt.keys.drop n } }).extendM3 6 n 0).reply 0

/-- HBMSPLIT: GiB of device memory (2 bytes). -/
def State.hbmsplitAnswer (s : State) (m : List Byte) : State :=
  s.message m (· == 2) [.ready] fun p =>
    if 384 < leNat p then s.reply 3
    else if s.noContext then ({ s with mgmt := { s.mgmt with hbmSplit := leNat p } }).reply 0
    else s.reply 2

/-- STATUS: the state first; throttle step, power limit, degraded, link up, error and lanes, ports; then power and temperatures, which are free
values. -/
def State.statusAnswer (s : State) (m : List Byte) : State :=
  s.message m (· == 0) anyState fun _ =>
    let g := s.mgmt
    let l := s.link
    let (v, t) := s.freeBits 64
    t.reply 0 ([.ofNat 8 g.main.code, .ofNat 8 g.throttle] ++ leBytes 2 g.powerLimit ++
      [if g.degraded then 1 else 0, .ofNat 8 ((if l.up then 1 else 0) + (if l.err then 2 else 0) + l.lanes * 4), .ofNat 8 l.ports.toNat] ++ leBytes 8 v)

/-- RESET: every context is lost, and the boot sequence runs. -/
def State.resetMsgAnswer (s : State) (m : List Byte) : State :=
  s.message m (· == 0) [.ready] fun _ => s.startBoot.reply 0

/-- THROTTLE: a first byte of 0 and a step of 0 to 4, or a first byte of 1 and a limit of 1,200 to 2,000 W (2 bytes). -/
def State.throttleAnswer (s : State) (m : List Byte) : State :=
  s.message m (fun n => n == 2 || n == 3) anyState fun p =>
    let v := leNat (p.drop 1)
    if fieldAt p 0 1 = 0 ∧ p.length = 2 ∧ v ≤ 4 then (s.setThrottle false v).reply 0
    else if fieldAt p 0 1 = 1 ∧ p.length = 3 ∧ 1200 ≤ v ∧ v ≤ 2000 then ({ s with mgmt := { s.mgmt with powerLimit := v } }).reply 0
    else s.reply 3

/-- LOGREAD: records from an index (4 bytes), the oldest held being 0; as many as a message holds. -/
def State.logreadAnswer (s : State) (m : List Byte) : State :=
  s.message m (· == 4) anyState fun p => s.reply 0 (((s.mgmt.log.drop (leNat p)).take 31).flatMap id)

/-! ### Firmware (R424) -/

/-- A bank with bytes written at an offset. -/
def writeBank (b : List Byte) (off : Nat) (d : List Byte) : List Byte :=
  (b ++ List.replicate (off - b.length) 0).take off ++ d ++ b.drop (off + d.length)

/-- FWSTAGE: an offset (4 bytes) and up to 1,016 bytes for the bank that does not run; bytes at offset 0 begin an image. -/
def State.fwstageAnswer (s : State) (m : List Byte) : State :=
  s.message m (fun n => decide (4 ≤ n) && decide (n ≤ 1020)) anyState fun p =>
    let off := fieldAt p 0 4
    let d := p.drop 4
    let g := s.mgmt
    if 0x200 + 2 ^ 26 < off + d.length then s.reply 3
    else
      let b := writeBank (g.bank !g.activeB) off d
      let gap := off != 0 && (g.fwGap || off != g.nextFw)
      let last := 0x200 + fwLen b
      let ends := decide (0x200 ≤ off + d.length) && decide (off < last) && decide (last ≤ off + d.length)
      let good := ends && !gap && fwOk b g.svnMin
      let g1 := { g.setBank (!g.activeB) b with nextFw := off + d.length, fwGap := gap, staged := good }
      ({ s with mgmt := g1 }).reply (if ends && !good then 1 else 0)

/-- FWACT: the verified bank is the first choice of the next boot. -/
def State.fwactAnswer (s : State) (m : List Byte) : State :=
  s.message m (· == 0) anyState fun _ =>
    if s.mgmt.staged then ({ s with mgmt := { s.mgmt with nextB := !s.mgmt.activeB } }).reply 0 else s.reply 1

/-! ### Attestation and the device ID -/

/-- ATTEST: a 32-byte nonce; in BOOT before M1 is set it waits (R427), by `attestWaits`. -/
def State.attestAnswer (s : State) (m : List Byte) : State :=
  s.message m (· == 32) [.boot, .ready] fun p =>
    s.serveAttest p

/-- SETID: the ID (4 bytes). -/
def State.setidAnswer (s : State) (m : List Byte) : State :=
  s.message m (· == 4) [.ready] fun p =>
    if 2 ^ 22 ≤ leNat p then s.reply 3
    else if !s.noContext then s.reply 1
    else (({ s with mgmt := { s.mgmt with devid := leNat p, devidSet := true } }).extendM3 0x17 (leNat p) 0).reply 0

/-! ### Debug mode (R429) -/

/-- DEBUG: a flag, a nonce of an ATTEST served since the last MAINON, and the signature over both. -/
def State.dbgMsgAnswer (s : State) (m : List Byte) : State :=
  s.message m (· == 417) [.boot, .ready] fun p =>
    if s.mgmt.nonces.contains ((p.drop 1).take 32) && Config.verifies 1 (p.take 33) (p.drop 33) then
      (({ s with mgmt := { s.mgmt with dbg := bit (fieldAt p 0 1) 0 } }).extendM3 0x18 0 0).reply 0
    else s.reply 1

/-- Whether MEMRD and MEMWR may act on a slot: debug mode is on, and a context stands in it. -/
def State.debugReaches (s : State) (slot : Nat) : Bool :=
  s.mgmt.dbg && decide (slot < 16) && (s.ctx slot).st != .free && (s.ctx slot).st != .tornDown

/-- MEMRD: slot (1 byte), address (8 bytes), length (2 bytes). -/
def State.memrdAnswer (s : State) (m : List Byte) : State :=
  s.message m (· == 11) [.ready] fun p =>
    if 512 < fieldAt p 9 2 then s.reply 3
    else if !s.debugReaches (fieldAt p 0 1) then s.reply 1
    else
      match s.readAt (fieldAt p 0 1) (fieldAt p 1 8) (fieldAt p 9 2) with
      | some b => (s.noteSpan (fieldAt p 0 1) (fieldAt p 1 8) (fieldAt p 9 2) .read).reply 0 b
      | none => s.reply 1

/-- MEMWR: slot (1 byte), address (8 bytes), up to 512 bytes. -/
def State.memwrAnswer (s : State) (m : List Byte) : State :=
  s.message m (fun n => decide (9 ≤ n) && decide (n ≤ 521)) [.ready] fun p =>
    if !s.debugReaches (fieldAt p 0 1) then s.reply 1
    else
      match locateAll s (fieldAt p 0 1) .write false (spanPieces (fieldAt p 1 8) (p.length - 9)) with
      | .ok ps => ((s.ledAll ps).writePieces ps (p.drop 9)).reply 0
      | .error _ => s.reply 1

/-! ### The standby controller (R420) -/

/-- A message served: the MCTP control messages (here 0x100), of which each is answered as the transport's own specification says (18_link R383; log 74),
the Strelene messages by their codes, and 3 for a code that the tables do not list. -/
def State.serveMessage (s : State) (code : Nat) (m : List Byte) : State :=
  match code with
  | 0x100 =>
    let h := s.mgmt.mctp ++ [m]
    { s with mgmt := { s.mgmt with mctp := h, replies := s.mgmt.replies ++ [Config.mctpAnswer h] } }
  | 0x00 => s.mainonAnswer m
  | 0x01 => s.mainoffAnswer m
  | 0x02 => s.bootstAnswer m
  | 0x03 => s.getcertAnswer m
  | 0x04 => s.keksetAnswer m
  | 0x05 => s.keyloadAnswer m
  | 0x06 => s.keyclrAnswer m
  | 0x07 => s.hbmsplitAnswer m
  | 0x10 => s.statusAnswer m
  | 0x11 => s.resetMsgAnswer m
  | 0x12 => s.throttleAnswer m
  | 0x13 => s.logreadAnswer m
  | 0x14 => s.fwstageAnswer m
  | 0x15 => s.fwactAnswer m
  | 0x16 => s.attestAnswer m
  | 0x17 => s.setidAnswer m
  | 0x18 => s.dbgMsgAnswer m
  | 0x19 => s.memrdAnswer m
  | 0x1A => s.memwrAnswer m
  | _ => s.reply 3

/-- Whether a message is an ATTEST that waits for M1 (R427). -/
def State.attestWaits (s : State) (code : Nat) (m : List Byte) : Bool :=
  code == 0x16 && m.length == 32 && s.mgmt.main == .boot && s.mgmt.m1.isEmpty

/-- Messages served one after the other in arrival order, up to one that waits. -/
def State.serveAll (s : State) : List (Nat × List Byte) → State
  | [] => { s with mgmt := { s.mgmt with waiting := [] } }
  | (c, m) :: r => if s.attestWaits c m then { s with mgmt := { s.mgmt with waiting := (c, m) :: r } } else (s.serveMessage c m).serveAll r

/-- The messages that wait served as far as they can be. -/
def State.serveWaiting (s : State) : State := s.serveAll s.mgmt.waiting

/-- A message that arrives: it waits behind those that wait. -/
def State.arrive (s : State) (code : Nat) (m : List Byte) : State := s.serveAll (s.mgmt.waiting ++ [(code, m)])

/-- MCTP_CONTROL. -/
def execMctpControl (m : Message) (s : State) : Host.Outcome State Fault Refusal := happen (s.arrive 0x100 m.payload)

/-- MAINON. -/
def execMainon (m : Message) (s : State) : Host.Outcome State Fault Refusal := happen (s.arrive 0x00 m.payload)

/-- MAINOFF. -/
def execMainoff (m : Message) (s : State) : Host.Outcome State Fault Refusal := happen (s.arrive 0x01 m.payload)

/-- BOOTST. -/
def execBootst (m : Message) (s : State) : Host.Outcome State Fault Refusal := happen (s.arrive 0x02 m.payload)

/-- GETCERT. -/
def execGetcert (m : Message) (s : State) : Host.Outcome State Fault Refusal := happen (s.arrive 0x03 m.payload)

/-- KEKSET. -/
def execKekset (m : Message) (s : State) : Host.Outcome State Fault Refusal := happen (s.arrive 0x04 m.payload)

/-- KEYLOAD. -/
def execKeyload (m : Message) (s : State) : Host.Outcome State Fault Refusal := happen (s.arrive 0x05 m.payload)

/-- KEYCLR. -/
def execKeyclr (m : Message) (s : State) : Host.Outcome State Fault Refusal := happen (s.arrive 0x06 m.payload)

/-- HBMSPLIT. -/
def execHbmsplit (m : Message) (s : State) : Host.Outcome State Fault Refusal := happen (s.arrive 0x07 m.payload)

/-- STATUS. -/
def execStatus (m : Message) (s : State) : Host.Outcome State Fault Refusal := happen (s.arrive 0x10 m.payload)

/-- RESET. -/
def execResetMsg (m : Message) (s : State) : Host.Outcome State Fault Refusal := happen (s.arrive 0x11 m.payload)

/-- THROTTLE. -/
def execThrottle (m : Message) (s : State) : Host.Outcome State Fault Refusal := happen (s.arrive 0x12 m.payload)

/-- LOGREAD. -/
def execLogread (m : Message) (s : State) : Host.Outcome State Fault Refusal := happen (s.arrive 0x13 m.payload)

/-- FWSTAGE. -/
def execFwstage (m : Message) (s : State) : Host.Outcome State Fault Refusal := happen (s.arrive 0x14 m.payload)

/-- FWACT. -/
def execFwact (m : Message) (s : State) : Host.Outcome State Fault Refusal := happen (s.arrive 0x15 m.payload)

/-- ATTEST. -/
def execAttest (m : Message) (s : State) : Host.Outcome State Fault Refusal := happen (s.arrive 0x16 m.payload)

/-- SETID. -/
def execSetid (m : Message) (s : State) : Host.Outcome State Fault Refusal := happen (s.arrive 0x17 m.payload)

/-- DEBUG. -/
def execDbgMsg (m : Message) (s : State) : Host.Outcome State Fault Refusal := happen (s.arrive 0x18 m.payload)

/-- MEMRD. -/
def execMemrd (m : Message) (s : State) : Host.Outcome State Fault Refusal := happen (s.arrive 0x19 m.payload)

/-- MEMWR. -/
def execMemwr (m : Message) (s : State) : Host.Outcome State Fault Refusal := happen (s.arrive 0x1A m.payload)

end Sys2Proof.Machine
end

