-- ==== Sys2Proof/Machine/Errors.lean ====
section
/-! DEFINITION. Errors of the hardware, their self-tests and repairs, and the loss of a core (19_faults R404-R408, R410; 07_group R159;
01_module R20, R21). -/

namespace Sys2Proof.Machine

/-! ### Cause 21 (19_faults R397, R405, R406) -/

/-- The slot of a running context with an ID. -/
def State.runningSlot (s : State) (id : Nat) : Option Nat :=
  (List.range 16).find? fun c => (s.ctx c).id == id && (s.ctx c).st == .running

/-- Cause 21 on the issuing context: on C of its lowest core, or on its copy sequencer where no core of it is bound; a context that has
escalated already keeps its record. -/
def State.unmasked (s : State) (r : ErrorReport) : State :=
  match (if r.ctx = 0 then none else s.runningSlot r.ctx) with
  | none => s
  | some slot =>
    if (s.ctx slot).escalation.isSome then s
    else
      match s.lowestCore slot, (List.range 4).find? fun n => (s.cseq n).busy && (s.cseq n).slot == slot with
      | some c, _ => s.escalate slot (some c) (.seq c sqC) (errorTrap r 0) (s.seq (.seq c sqC)).pc 0
      | none, some n => s.escalate slot none (.copy n) (errorTrap r 0) ((s.seq (.copy n)).pc &&& 2047) 0
      | none, none => s

/-! ### The steps of R406 -/

/-- Whether an error retires its core at once: uncorrectable in core-local state (R404). -/
def losesCore (r : ErrorReport) : Bool := r.unitClass == 3 && r.kind == 1

/-- Whether masking fails for an error: of a vault, a dirty slice line, device memory or LPDDR (R404). -/
def unmaskable (r : ErrorReport) (dirty : Bool) : Bool :=
  r.kind == 1 && (r.unitClass == 1 || (r.unitClass == 2 && dirty) || (r.unitClass == 4 && r.addr != 0) || r.unitClass == 5)

/-- Whether two reports name one location. -/
def sameLocus (a b : ErrorReport) : Bool := a.unitClass == b.unitClass && a.unitIndex == b.unitIndex && a.locus == b.locus

/-- Whether an uncorrectable error stands in a part whose lasting fault no spare was left for (R406). -/
def Mgmt.beyondRepair (g : Mgmt) (r : ErrorReport) : Bool := r.kind == 1 && g.unrepaired.contains (r.unitClass, r.unitIndex, r.locus)

/-- An error taken into the case of its location where the self-test of that is under way, with whose error it counts (R406); else a case of its own. -/
def State.noteError (s : State) (r : ErrorReport) (logged : Bool) : State :=
  match s.mgmt.cases.findIdx? fun k => k.stage == 0 && sameLocus k.rep r with
  | some n => { s with mgmt := { s.mgmt with cases := s.mgmt.cases.modify n fun k => { k with also := k.also ++ [(r, s.wall, logged)] } } }
  | none => s.openCase { rep := r, since := s.wall, logged := logged }

/-- ERROR_DETECTED: the part, one that the module has, is tested from now on; whether a slice's line was dirty is a free value. -/
def execErrorDetected (r : ErrorReport) (s : State) : Host.Outcome State Fault Refusal :=
  happen (
    if s.mgmt.main ≠ .ready ∨ r.exists = false then s
    else
      let (dirty, s1) := s.freeBits 1
      let fails := unmaskable r (dirty == 1) || s.mgmt.beyondRepair r
      let s2 := if fails then (s1.logError r s.wall 3).unmasked r else s1
      let s3 := if losesCore r then s2.loseCore r.unitIndex r else s2
      s3.noteError r fails)

/-- A case ended with its records, and cores that waited for it bound; the location repaired goes into the repair map (22_bringup R426), and one that no
spare was left for is known as such. -/
def State.closeCase (s : State) (n : Nat) (k : ErrorCase) (outcome : Nat) : State :=
  let at_ := (k.rep.unitClass, k.rep.unitIndex, k.rep.locus)
  let s1 : State := { s with mgmt := { s.mgmt with
    cases := s.mgmt.cases.eraseIdx n,
    repairs := if outcome = 1 then s.mgmt.repairs ++ [at_] else s.mgmt.repairs,
    unrepaired := if outcome = 2 then s.mgmt.unrepaired ++ [at_] else s.mgmt.unrepaired } }
  let s2 := if k.logged then s1 else s1.logError k.rep k.since outcome
  (k.also.foldl (fun (t : State) e => if e.2.2 then t else t.logError e.1 e.2.1 outcome) s2).reserve

/-- Nanoseconds of 24 hours. -/
def dayNs : Nat := 86400 * 10 ^ 9

/-- The errors of a location in the 24 hours before an error, and that error. -/
def Mgmt.errorCount (g : Mgmt) (k : ErrorCase) : Nat :=
  (g.history.filter fun h => sameLocus h.1 k.rep && decide (k.since < h.2 + dayNs)).length + 1 + k.also.length

/-- TARGETED_SELF_TEST on the case of a number: transient when it passes with fewer than three errors in 24 hours, else lasting; a lasting
core fault retires its core. -/
def execTargetedSelfTest (n : Nat) (pass : Bool) (s : State) : Host.Outcome State Fault Refusal :=
  happen (
    match (if s.mgmt.main = .ready then s.mgmt.cases[n]? else none) with
    | none => s
    | some k =>
      if k.stage ≠ 0 then s
      else
        let s1 : State := { s with mgmt := { s.mgmt with history := s.mgmt.history ++ (k.rep, k.since) :: k.also.map fun e => (e.1, e.2.1) } }
        if k.done then s1.closeCase n k 0
        else if pass ∧ s.mgmt.errorCount k < 3 ∧ losesCore k.rep = false then s1.closeCase n k 0
        else
          let s2 := if k.rep.unitClass = 3 ∧ k.rep.kind ≠ 2 then s1.loseCore k.rep.unitIndex k.rep else s1
          { s2 with mgmt := { s2.mgmt with cases := s2.mgmt.cases.set n { k with stage := 1 } } })

/-- A spare core takes the number of a failed one; without a spare the number stays unavailable, and the module is degraded (01_module R20,
R21): the state and the outcome. -/
def State.replaceCore (s : State) (c : Nat) : Nat × State :=
  if s.disp.spares = 0 then
    (2, { s with mgmt := { s.mgmt with degraded := true },
                 disp := { s.disp with unavailable := if s.disp.unavailable.contains c then s.disp.unavailable else c :: s.disp.unavailable } })
  else (1, { s with disp := { s.disp with spares := s.disp.spares - 1, unavailable := s.disp.unavailable.filter fun k => k != c } })

/-- REPAIR_END on the case of a number: a spare core, for a core that nothing is bound to (01_module R21), a spare lane of the Fenvar link (18_link
R376) or of a pier link (01_module R19), or a spare of another part; whether one of those is left is a free value. -/
def execRepairEnd (n : Nat) (s : State) : Host.Outcome State Fault Refusal :=
  happen (
    match (if s.mgmt.main = .ready then s.mgmt.cases[n]? else none) with
    | none => s
    | some k =>
      if k.stage ≠ 1 then s
      else if k.rep.unitClass = 3 ∧ k.rep.kind ≠ 2 then
        if (s.core k.rep.unitIndex).slot.isSome then s
        else
          let (o, t) := s.replaceCore k.rep.unitIndex
          t.closeCase n k o
      else if k.rep.unitClass = 7 ∧ k.rep.unitIndex = 0 then
        let l := s.link
        if l.spare then ({ s with link := { l with spare := false } }).closeCase n k 1
        else ({ s with link := { l with lanes := 4 }, mgmt := { s.mgmt with degraded := true } }).closeCase n k 2
      else if k.rep.unitClass = 7 ∧ 9 ≤ k.rep.unitIndex then
        let used := s.link.pierSpares.get 0 (k.rep.unitIndex - 9)
        if used < 2 then ({ s with link := { s.link with pierSpares := s.link.pierSpares.set (k.rep.unitIndex - 9) (used + 1) } }).closeCase n k 1
        else s.closeCase n k 2
      else
        let (b, t) := s.freeBits 1
        t.closeCase n k (if b = 1 then 1 else 2))

end Sys2Proof.Machine
end

