-- ==== Sys2Proof/Machine/Jump.lean ====
section
/-! DEFINITION. Branches and jumps (12_scalar R257, R258; 03_encoding R77). -/

namespace Sys2Proof.Machine

/-- The address a number of steps away from this one (R77). -/
def State.branchTo (s : State) (off : Word) : Word := s.iss.here + (off <<< 3)

/-- A branch of the bz family: a test of a register as INT64 against zero. -/
def branchZero (f : Int → Bool) (sa : BitVec 5) (off : BitVec 16) (s : State) : Host.Outcome State Fault Refusal :=
  issue s fun s => .ok (if f (s.src sa).toInt then s.transfer (.jump (s.branchTo (off.signExtend 64))) else s)

def execBzeq (sa : BitVec 5) (off : BitVec 16) (s : State) : Host.Outcome State Fault Refusal := branchZero (fun x => decide (x = 0)) sa off s
def execBzne (sa : BitVec 5) (off : BitVec 16) (s : State) : Host.Outcome State Fault Refusal := branchZero (fun x => decide (x ≠ 0)) sa off s
def execBzlt (sa : BitVec 5) (off : BitVec 16) (s : State) : Host.Outcome State Fault Refusal := branchZero (fun x => decide (x < 0)) sa off s
def execBzge (sa : BitVec 5) (off : BitVec 16) (s : State) : Host.Outcome State Fault Refusal := branchZero (fun x => decide (0 ≤ x)) sa off s
def execBzgt (sa : BitVec 5) (off : BitVec 16) (s : State) : Host.Outcome State Fault Refusal := branchZero (fun x => decide (0 < x)) sa off s
def execBzle (sa : BitVec 5) (off : BitVec 16) (s : State) : Host.Outcome State Fault Refusal := branchZero (fun x => decide (x ≤ 0)) sa off s

/-- A branch of the bp family: taken when the top entry is `want`; it acts whatever the entry holds. -/
def branchPred (want : Bool) (off : BitVec 16) (s : State) : Host.Outcome State Fault Refusal :=
  issueAlways s fun s => .ok (if s.acts = want then s.transfer (.jump (s.branchTo (off.signExtend 64))) else s)

def execBpt (off : BitVec 16) (s : State) : Host.Outcome State Fault Refusal := branchPred true off s
def execBpf (off : BitVec 16) (s : State) : Host.Outcome State Fault Refusal := branchPred false off s

/-- jal: the link is the address of the next step. -/
def execJal (sd : BitVec 5) (off : BitVec 21) (s : State) : Host.Outcome State Fault Refusal :=
  issue s fun s => .ok ((s.wr sd (s.iss.here + 8)).transfer (.jump (s.branchTo (off.signExtend 64))))

/-- jalr: a misaligned target is a trap at the jumping step. -/
def execJalr (sd sa : BitVec 5) (s : State) : Host.Outcome State Fault Refusal :=
  issue s fun s =>
    if (s.src sa).toNat % 8 ≠ 0 then raise .misalignment 0 (s.src sa).toNat
    else .ok ((s.wr sd (s.iss.here + 8)).transfer (.jump (s.src sa)))

/-- jr. -/
def execJr (sa : BitVec 5) (s : State) : Host.Outcome State Fault Refusal :=
  issue s fun s =>
    if (s.src sa).toNat % 8 ≠ 0 then raise .misalignment 0 (s.src sa).toNat else .ok (s.transfer (.jump (s.src sa)))

end Sys2Proof.Machine
end

