-- ==== Sys2Proof/Machine/Landing.lean ====
section
/-! DEFINITION. The steps of copies (15_ferry R317, R321; 16_bitserial R353): CHUNK_ISSUE and CHUNK_LANDING. -/

namespace Sys2Proof.Machine

/-- CHUNK_ISSUE: the next chunk of the copy on a tag is translated and read; a grow that is to stop goes on to the end of its bag. -/
def execChunkIssue (t : TagRef) (s : State) : Host.Outcome State Fault Refusal :=
  happen (match (s.tag t).st, (s.tag t).op with
    | .landing, some (.copy c) => if (s.copiesRun c.slot t ∨ ((s.ctx c.slot).st = .running ∧ tagSaved t = false ∧ c.midBag)) ∧ c.rpos < (destShape c.desc).count then s.issueChunk t c else s
    | .landing, some (.crossing x) => s.issueCrossing t x
    | _, _ => s)

/-- CHUNK_LANDING: the next chunk of the copy or bsout on a tag lands. -/
def execChunkLanding (t : TagRef) (s : State) : Host.Outcome State Fault Refusal :=
  happen (match (s.tag t).st, (s.tag t).op with
    | .landing, some (.copy c) => s.landChunk t c
    | .landing, some (.transfer x) => if x.out && s.copiesRun x.slot t then s.landTransfer t x else s
    | .landing, some (.crossing x) => s.landCrossing t x
    | _, _ => s)

end Sys2Proof.Machine
end

