-- ==== Sys2Proof/Machine/Pier.lean ====
section
/-! DEFINITION. Pier streams, mailboxes, pooling units and row transfer (17_piers R355-R362). -/

namespace Sys2Proof.Machine

/-! ### Streams and mailboxes (R356-R358) -/

/-- fork: a stream begins on a free slot of a pier. -/
def execFork (tag : BitVec 6) (sa sb : BitVec 5) (p : BitVec 3) (s : State) : Host.Outcome State Fault Refusal :=
  issue s fun s => do
    let a := s.src sa
    if a.toNat % 8 ≠ 0 then raise .misalignment 0 a.toNat
    let t := s.myTag tag.toNat
    s.awaitTables
    if !(Cond.tagAll [t]).holds s then waitFor 6 tag.toNat (.tagAll [t])
    match (List.range 16).find? fun k => !(s.stream p.toNat k).used with
    | none => waitFor 10 0xF0 (.streamFree p.toNat)
    | some k =>
      let r : Stream := { used := true, core := s.myCoreNo, tag := tag.toNat, slot := s.mySlot, image := s.myCore.kern.getD {} }
      let g : Tag := { st := .landing, rd := false, rep := false, op := some (.fork { pier := p.toNat, k := k, order := s.nextOp }) }
      let s1 := ({ s.latch with nextOp := s.nextOp + 1 }.setStream p.toNat k r).setTag t g
      return s1.setSeq (.pier p.toNat k) { pc := a, run := .running, sreg := [(1, s.src sb)] }

/-- The stream that a tag of C names (R357). -/
def State.forkOf (s : State) (t : TagRef) : Option Fork :=
  match (s.tag t).op with
  | some (.fork f) => some f
  | _ => none

/-- join: the stream's s1 at its halt. -/
def execJoin (tag : BitVec 6) (sa : BitVec 5) (s : State) : Host.Outcome State Fault Refusal :=
  issue s fun s => do
    let t := s.myTag tag.toNat
    s.waitUntil 6 tag.toNat (.tagAll [t])
    return s.wr sa (match s.forkOf t with
      | some f => f.s1
      | none => 0)

/-- The pier and slot of the issuing stream. -/
def State.myStream (s : State) : Nat × Nat :=
  match s.iss.who with
  | .pier p k => (p, k)
  | _ => (0, 0)

/-- mbput of C: into DOWN of a stream that runs. -/
def State.putDown (s : State) (t : TagRef) (v : Word) : Except Stop State :=
  match s.forkOf t with
  | none => raise .permission 28
  | some f =>
    if f.ended then raise .permission 28
    else if !(Cond.mailRoom f.pier f.k true).holds s then waitFor 10 0xEF (.mailRoom f.pier f.k true)
    else .ok (s.setStream f.pier f.k { s.stream f.pier f.k with down := some v })

/-- mbput of a stream: into UP. -/
def State.putUp (s : State) (v : Word) : Except Stop State :=
  let (p, k) := s.myStream
  if !(Cond.mailRoom p k false).holds s then waitFor 10 0xEF (.mailRoom p k false)
  else .ok (s.setStream p k { s.stream p k with up := some v })

/-- mbput: a release of all classes (R358). -/
def execMbput (tag : BitVec 6) (sa : BitVec 5) (s : State) : Host.Outcome State Fault Refusal :=
  issue s fun s => do
    let t ← if s.iss.who.isPier then s.putUp (s.src sa) else s.putDown (s.myTag tag.toNat) (s.src sa)
    s.awaitHeld 10 0xEF
    return t

/-- mbget of C: from UP, which the tag keeps after the stream's halt. -/
def State.getUp (s : State) (t : TagRef) (sa : BitVec 5) : Except Stop State :=
  match s.forkOf t with
  | none => raise .permission 28
  | some f =>
    if f.ended then
      match f.up with
      | some v => .ok ((s.setTag t { s.tag t with op := some (.fork { f with up := none }) }).wr sa v)
      | none => raise .permission 28
    else
      match (s.stream f.pier f.k).up with
      | some v => .ok ((s.setStream f.pier f.k { s.stream f.pier f.k with up := none }).wr sa v)
      | none => waitFor 10 0xEE (.mailFull f.pier f.k false)

/-- mbget of a stream: from DOWN. -/
def State.getDown (s : State) (sa : BitVec 5) : Except Stop State :=
  let (p, k) := s.myStream
  match (s.stream p k).down with
  | some v => .ok ((s.setStream p k { s.stream p k with down := none }).wr sa v)
  | none => waitFor 10 0xEE (.mailFull p k true)

/-- mbget. -/
def execMbget (tag : BitVec 6) (sa : BitVec 5) (s : State) : Host.Outcome State Fault Refusal :=
  issue s fun s => if s.iss.who.isPier then s.getDown sa else s.getUp (s.myTag tag.toNat) sa

/-! ### Pooling units (R359-R361) -/

/-- A field of a parameter block. -/
def PoolUnit.field (u : PoolUnit) (w hi lo : Nat) : Nat := descField u.block w hi lo

/-- The row format of a unit's block. -/
def PoolUnit.rows (u : PoolUnit) : RowFmt := { fmt := u.field 1 35 32, lay := u.field 1 37 36, elems := u.field 1 31 16 }

/-- The checks of a parameter block (R359, R360 code 2). -/
def blockOk (b : BitVec 512) : Bool :=
  let u : PoolUnit := { block := b }
  u.field 0 63 57 == 0 && u.field 1 39 38 == 0 && u.field 1 47 46 == 0 && u.field 1 55 50 == 0 &&
  bits b.toNat 511 192 == 0 && u.rows.ok && u.field 1 45 44 != 3 && u.field 1 49 48 != 3 && pfOk (signed8 (u.field 1 63 56))

/-- A permission trap of the pooling units (R360). -/
def poolTrap {α : Type} (code : Nat) : Except Stop α := raise .permission (29 + code * 256)

/-- A unit that the issuing stream holds. -/
def State.myUnit (s : State) (u : Nat) : Except Stop PoolUnit :=
  let (p, k) := s.myStream
  if (s.unit p u).holder = some k then .ok (s.unit p u) else poolTrap 1

/-- pbind: the unit is bound to the stream with the block at s[sa]. -/
def execPbind (sa : BitVec 5) (u : BitVec 4) (s : State) : Host.Outcome State Fault Refusal :=
  issue s fun s => do
    let (p, k) := s.myStream
    let c := Cond.unitFree p u.toNat k
    if !c.holds s then waitFor 10 0xF0 c
    let a := (s.src sa).toNat
    if a % 64 ≠ 0 then raise .misalignment 0 a
    let (b, t) ← s.loadBytes a 64
    let blk : BitVec 512 := .ofNat 512 (leNat b)
    if !blockOk blk then poolTrap 2
    return t.setUnit p u.toNat { t.unit p u.toNat with block := blk, holder := some k }

/-- pstrm: one address stream of a unit. -/
def execPstrm (sa sb : BitVec 5) (u : BitVec 4) (s : State) : Host.Outcome State Fault Refusal :=
  issue s fun s => do
    let r ← s.myUnit u.toNat
    let w := (s.src sb).toNat
    let a := (s.src sa).toNat
    let n := bits w 1 0
    let z := bits w 3 2
    if 16 ≤ w ∨ (n = 0 ∧ z < 2) ∨ ((n = 1 ∨ n = 2) ∧ z ≠ 2) then limitTrap s
    if n ≠ 3 ∧ a % 2 ^ z ≠ 0 then raise .misalignment 0 a
    return s.setUnit s.myStream.1 u.toNat { r with streams := r.streams.set n (a, z) }

/-- The fields that every unit of a chain has alike. -/
def PoolUnit.shape (u : PoolUnit) : Nat × Nat × Nat × Nat × Nat :=
  (u.field 1 31 16, u.field 1 43 40, u.field 1 45 44, u.field 1 49 48, u.field 1 63 56)

/-- The units of a chain of length `n` from `u` on, with the checks of R360. -/
def State.chainUnits (s : State) (u n : Nat) : Except Stop (List PoolUnit) := do
  let r ← s.myUnit u
  if n = 0 ∨ 16 < u + n then poolTrap 3
  let l ← (List.range n).mapM fun i => s.myUnit (u + i)
  if l.any fun x => decide (x.shape ≠ r.shape) then poolTrap 3
  return l

/-- pchain. -/
def execPchain (sa : BitVec 5) (u : BitVec 4) (s : State) : Host.Outcome State Fault Refusal :=
  issue s fun s => do
    let n := (s.src sa).toNat
    let _ ← s.chainUnits u.toNat n
    return s.setUnit s.myStream.1 u.toNat { s.unit s.myStream.1 u.toNat with chain := n }

/-- pflush: the unit is free. -/
def execPflush (u : BitVec 4) (s : State) : Host.Outcome State Fault Refusal :=
  issue s fun s => do
    let _ ← s.myUnit u.toNat
    return s.setUnit s.myStream.1 u.toNat {}

/-- Element `i` of an address stream, `n` bytes of it. -/
def State.streamElement (s : State) (r : PoolUnit) (k i n : Nat) : Except Stop (Nat × State) :=
  s.loadNat ((r.streams.get (0, 2) k).1 + i * n) n

/-- A bypassed stage, 1 to 4 (R361). -/
def PoolUnit.bypassed (r : PoolUnit) (stage : Nat) : Bool := bit (r.field 1 43 40) (stage - 1)

/-- One row of a bag: its weight and its bytes. -/
def State.poolRow (s : State) (r : PoolUnit) (i : Nat) : Except Stop (PoolRow × State) := do
  let z := (r.streams.get (0, 2) 0).2
  let (v, s1) ← s.streamElement r 0 i (2 ^ z)
  let idx := (IntFmt.mk (8 * 2 ^ z) true).int v
  let (w, s2) ← if r.bypassed 2 || !r.streams.has 2 then pure (oneNum, s1) else (do
    let (c, t) ← s1.streamElement r 2 i 4
    return (fp32.num c, t))
  if idx < 0 ∨ (r.field 2 63 32 : Int) ≤ idx then return ((w, none), s2)
  let (b, s3) ← s2.loadBytes (r.field 0 56 0 + idx.toNat * r.field 1 15 0) r.rows.bytes
  return ((w, some b), s3)

/-- The rows of one bag of one unit. -/
def State.poolRows (s : State) (r : PoolUnit) : List Nat → Except Stop (List PoolRow × State)
  | [] => .ok ([], s)
  | i :: rest => do
    let (p, s1) ← s.poolRow r i
    let (l, s2) ← s1.poolRows r rest
    return (p :: l, s2)

/-- The index positions of bag `b` of a unit (R361). -/
def State.bagSpan (s : State) (r : PoolUnit) (b : Nat) : Except Stop (List Nat × State) :=
  if r.bypassed 3 then .ok ([b], s)
  else do
    let (lo, s1) ← s.streamElement r 1 b 4
    let (hi, s2) ← s1.streamElement r 1 (b + 1) 4
    return ((List.range (hi - lo)).map (lo + ·), s2)

/-- The terms of bag `b` over the units of a chain, by element. -/
def State.bagTerms (s : State) (b : Nat) : List PoolUnit → Except Stop (List (List Num) × State)
  | [] => .ok ([], s)
  | r :: rest => do
    let (is, s1) ← s.bagSpan r b
    let (rows, s2) ← s1.poolRows r is
    let (ts, s3) ← s2.bagTerms b rest
    let mine := (List.range r.rows.elems).map fun j => poolTerms r.rows (r.bypassed 1) j rows
    return (if ts.isEmpty then mine else List.zipWith (· ++ ·) mine ts, s3)

/-- Stage 4 on one element: tanh, sigmoid or the rectifier. -/
def activate (act : Nat) (bypass : Bool) (x : Nat) : Nat × BitVec 8 :=
  if bypass then (x, 0)
  else if act = 2 then
    (match fp32.num x with
     | .nan sig => (fp32.nan, if sig then fNV else 0)
     | v => if v.neg || v.isZero then (0, 0) else (x, 0))
  else elemOf fp32 {} (specialFn (if act = 0 then 4 else 5) (fp32.num x))

/-- One bag: pooled, activated and written (R361), into no table region (R355). -/
def State.runBag (s : State) (chain : List PoolUnit) (b : Nat) : Except Stop State := do
  match chain.head?, chain.getLast? with
  | some r, some last =>
    let (ts, s1) ← s.bagTerms b chain
    let es := ts.map fun t =>
      let (x, f) := poolElement (r.field 1 45 44) (signed8 (r.field 1 63 56)) t
      let (y, g) := activate (r.field 1 49 48) (r.bypassed 4) x
      (y, f ||| g)
    let a := (last.streams.get (0, 2) 3).1 + b * last.field 2 31 0
    let s2 ← s1.storeBytes a (es.flatMap fun e => leBytes 4 e.1) (classBit 15) .write
    return s2.flag (es.foldl (fun (g : BitVec 8) e => g ||| e.2) 0)
  | _, _ => return s

/-- The bags of a prun from `b` on: outputs that are written stay, on a fault, after which the order begins again at bag 0, and at a wait, after
which it goes on at its bag. -/
def runBags (chain : List PoolUnit) : Nat → Nat → State → Except Stop State
  | 0, _, s => .ok s
  | n + 1, b, s =>
    match s.runBag chain b with
    | .ok t => runBags chain n (b + 1) t
    | .error (.trap t _) => .error (.trap t (some (s.setResume none)))
    | .error (.wait k o c _) => .error (.wait k o c (some (s.setResume (some (s.resumeRec .pool b)))))
    | .error e => .error e

/-- prun: the chain headed by a unit runs over bags, and the stream waits until its outputs are performed. -/
def execPrun (sa : BitVec 5) (u : BitVec 4) (s : State) : Host.Outcome State Fault Refusal :=
  issue s fun s => do
    let c := Cond.writesDone s.iss.who 0xFFFF
    let n := (s.src sa).toNat % 2 ^ 32
    let b := ((s.resumed .pool).map (·.a)).getD 0
    let r ← s.myUnit u.toNat
    let l ← s.chainUnits u.toNat r.chain
    let t ← runBags l (n - b) b s
    if c.holds t then return t.setResume none
    waitKeeping 8 t.heldObj c (t.setResume (some (t.resumeRec .pool n)))

/-! ### Row transfer (R362) -/

/-- Bytes of a DRAM row. -/
def dramRow : Nat := 2048

/-- The check of a row address (R360 code 4): the pier address of a table-region page homed on the stream's pier. -/
def State.rowPa (s : State) (a : Nat) : Except Stop Nat := do
  if regionOf a ≠ .translated then poolTrap 4
  let (e, level) ← liftTrap (s.walkOf s.mySlot a).2
  let pa := bits e 63 32 * 2 ^ 16 + a % pageSize level
  if bit e 6 = false ∨ bits e 11 10 ≠ 1 ∨ bits pa 40 38 ≠ s.myStream.1 then poolTrap 4
  return pa

/-- A write of this order that finishes before the stream's next step: it waits for the watermarks in its way. -/
def State.storeNow (s : State) (a : Nat) (b : List Byte) : Except Stop State := do
  match s.meetsRead a b.length with
  | .stall t => s.stallRead a b.length t
  | _ => s.storeBytes a b (classBit 15)

/-- Two rows in one subarray: their offsets agree in bits [37:21]. -/
def colocated (x y : Nat) : Bool := bits x 37 21 == bits y 37 21

/-- prcpy: with b = 0 inside a subarray, pushing whether it could; with b = 1 through the pier buffer. -/
def execPrcpy (sa sb : BitVec 5) (b : BitVec 1) (s : State) : Host.Outcome State Fault Refusal :=
  issue s fun s => do
    let d := (s.src sa).toNat
    let o := (s.src sb).toNat
    let pd ← s.rowPa d
    let po ← s.rowPa o
    if d % dramRow ≠ 0 then raise .misalignment 0 d
    if o % dramRow ≠ 0 then raise .misalignment 0 o
    if b = 0#1 ∧ colocated pd po = false then return ← s.push (predBit false)
    let (bs, t) ← s.loadBytes o dramRow
    let t1 ← t.storeNow d bs
    if b = 0#1 then return ← t1.push (predBit true)
    return t1

/-- przero: the row becomes zero plaintext. -/
def execPrzero (sa : BitVec 5) (s : State) : Host.Outcome State Fault Refusal :=
  issue s fun s => do
    let a := (s.src sa).toNat
    let _ ← s.rowPa a
    if a % dramRow ≠ 0 then raise .misalignment 0 a
    s.storeNow a (List.replicate dramRow 0)

end Sys2Proof.Machine
end

