-- ==== Sys2Proof/Machine/Power.lean ====
section
/-! DEFINITION. The events of the boot sequence and of power (22_bringup R419, R421, R427; 00_scope R8; 01_module R31). -/

namespace Sys2Proof.Machine

/-- FIRMWARE_VERIFIED: step 2 of the boot sequence sets M1, and the messages that wait are served. -/
def execFirmwareVerified (s : State) : Host.Outcome State Fault Refusal :=
  happen (
    if s.mgmt.main ≠ .boot ∨ s.mgmt.m1 ≠ [] then s
    else
      match s.mgmt.bootBank with
      | some b =>
        let img := s.mgmt.bank b
        let g : Mgmt := { s.mgmt with m1 := fwDigest img, bootSvn := fwSvn img, bootVer := fwVer img, activeB := b, nextB := b,
                                      staged := s.mgmt.staged && s.mgmt.activeB == b }
        State.serveWaiting { s with mgmt := g }
      | none => s)

/-- The sequence ends in FAILED: its cause is logged, 1 where no bank verifies and 2 where training fails (log 74), the main side is powered down, and the
messages that wait are answered. -/
def State.bootFailed (s : State) (cause : Nat) : State :=
  ((s.mainDown .failed).logError { kind := 1, locus := cause } s.wall 2).serveWaiting

/-- BOOT_END: no bank verifies, or step 4's training fails (a free value), or the main side is READY with a new module key in key slot 0. -/
def execBootEnd (s : State) : Host.Outcome State Fault Refusal :=
  happen (
    if s.mgmt.main ≠ .boot then s
    else if s.mgmt.m1 = [] then (if s.mgmt.bootBank.isNone then s.bootFailed 1 else s)
    else
      let (bad, t) := s.freeBits 1
      if bad = 1 then t.bootFailed 2
      else
        ({ t with mgmt := { t.mgmt with main := .ready, keys := [(0, { owner := 0, val := .module (t.mgmt.bootCount + 1) })],
                                        svnMin := max t.mgmt.svnMin t.mgmt.bootSvn, bootCount := t.mgmt.bootCount + 1 } }).irq 257)

/-- POWER_ON_RESET: every register at its reset value; the flash with the banks' order, the fuses with the repair map, and the host's memory stay (00_scope R8). -/
def execPowerOnReset (s : State) : Host.Outcome State Fault Refusal :=
  happen { State.reset with
    agenda := s.agenda, tick := s.tick,
    mem := s.mem.filter isHostCell,
    disp := { unavailable := s.disp.unavailable, spares := s.disp.spares },
    mgmt := { bankA := s.mgmt.bankA, bankB := s.mgmt.bankB, activeB := s.mgmt.activeB, nextB := s.mgmt.nextB, svnMin := s.mgmt.svnMin, bootCount := s.mgmt.bootCount,
              degraded := !s.disp.unavailable.isEmpty, repairs := s.mgmt.repairs } }

/-- THERMAL_SHUTDOWN: logged, and reported as a management event (01_module R31; 18_link R382). -/
def execThermalShutdown (s : State) : Host.Outcome State Fault Refusal :=
  happen (if s.mgmt.main = .off ∨ s.mgmt.main = .failed then s else (((s.mainDown .off).logError { kind := 1 } s.wall 3).irq 257).serveWaiting)

end Sys2Proof.Machine
end

