-- ==== Sys2Proof/Machine/ScalarFp.lean ====
section
/-! DEFINITION. Scalar floating point and the compares (12_scalar R242-R246). -/

namespace Sys2Proof.Machine

/-- The format that the d bit selects (R242). -/
def fpOf (d : BitVec 1) : Fp := if d = 1#1 then fp64 else fp32

/-- A floating-point operand: the low bits of its register (R242). -/
def fpArg (d : BitVec 1) (w : Word) : Num := (fpOf d).num (if d = 1#1 then w.toNat else w.toNat % 2 ^ 32)

/-- Write a rounded result and its flags (R49, R244). -/
def State.wrFp (s : State) (sd : BitVec 5) (f : BitVec 8) (r : Nat × BitVec 8) : State := (s.wr sd (.ofNat 64 r.1)).flag (f ||| r.2)

/-- The rounding of a scalar order (R243): its mode under NSAT. -/
def scalarRound (rm : BitVec 3) : Rounding := { mode := rm.toNat }

/-- An order that rounds one exact result. -/
def fpOrder (sd : BitVec 5) (rm : BitVec 3) (d : BitVec 1) (f : State → Exact × BitVec 8) (s : State) : Host.Outcome State Fault Refusal :=
  issue s fun s => let (x, g) := f s; .ok (s.wrFp sd g (roundTo (fpOf d) (scalarRound rm) x))

/-- A value as an exact result. -/
def exactly (r : Num × BitVec 8) : Exact × BitVec 8 := (.num r.1, r.2)

/-! ### Major 0x0C (R243-R245) -/

def execFadd (sd sa sb : BitVec 5) (rm : BitVec 3) (d : BitVec 1) (s : State) : Host.Outcome State Fault Refusal :=
  fpOrder sd rm d (fun s => exactly (addNum rm.toNat (fpArg d (s.src sa)) (fpArg d (s.src sb)))) s
def execFsub (sd sa sb : BitVec 5) (rm : BitVec 3) (d : BitVec 1) (s : State) : Host.Outcome State Fault Refusal :=
  fpOrder sd rm d (fun s => exactly (addNum rm.toNat (fpArg d (s.src sa)) (fpArg d (s.src sb)).flip)) s
def execFmul (sd sa sb : BitVec 5) (rm : BitVec 3) (d : BitVec 1) (s : State) : Host.Outcome State Fault Refusal :=
  fpOrder sd rm d (fun s => exactly (mulNum (fpArg d (s.src sa)) (fpArg d (s.src sb)))) s
def execFdiv (sd sa sb : BitVec 5) (rm : BitVec 3) (d : BitVec 1) (s : State) : Host.Outcome State Fault Refusal :=
  fpOrder sd rm d (fun s => divNum (fpArg d (s.src sa)) (fpArg d (s.src sb))) s
def execFsqrt (sd sa : BitVec 5) (rm : BitVec 3) (d : BitVec 1) (s : State) : Host.Outcome State Fault Refusal :=
  fpOrder sd rm d (fun s => sqrtNum (fpArg d (s.src sa))) s

/-- fma: the old destination is its addend. -/
def execFma (sd sa sb : BitVec 5) (rm : BitVec 3) (d : BitVec 1) (s : State) : Host.Outcome State Fault Refusal :=
  fpOrder sd rm d (fun s => exactly (fmaNum rm.toNat (fpArg d (s.src sd)) (fpArg d (s.src sa)) (fpArg d (s.src sb)))) s

/-- fcvt: the mode names the two ends (R245). -/
def execFcvt (sd sa : BitVec 5) (m : BitVec 2) (rm : BitVec 3) (d : BitVec 1) (s : State) : Host.Outcome State Fault Refusal :=
  issue s fun s =>
    let r := scalarRound rm
    match m.toNat with
    | 0 => .ok (s.wrFp sd 0 (roundTo (fpOf d) r (.num (fpArg (~~~d) (s.src sa)))))
    | 1 => .ok (s.wrFp sd 0 (roundTo (fpOf d) r (.num (ofInt (s.src sa).toInt))))
    | 2 => .ok (s.wrFp sd 0 (roundToInt ⟨64, true⟩ r false (.num (fpArg d (s.src sa)))))
    | _ => limitTrap s

/-! ### Major 0x0D (R246) -/

/-- A compare: under a false top entry it pushes false without comparing (R122). -/
def pushCompare (f : State → Bool × BitVec 8) (s : State) : Host.Outcome State Fault Refusal :=
  issueAlways s fun s =>
    if s.acts then let (m, g) := f s; (s.flag g).push (predBit m) else s.push 0

/-- An integer compare. -/
def intCompare (f : Word → Word → Bool) (sa sb : BitVec 5) (s : State) : Host.Outcome State Fault Refusal :=
  pushCompare (fun s => (f (s.src sa) (s.src sb), 0)) s

def execPeq (sa sb : BitVec 5) (s : State) : Host.Outcome State Fault Refusal := intCompare (· == ·) sa sb s
def execPne (sa sb : BitVec 5) (s : State) : Host.Outcome State Fault Refusal := intCompare (· != ·) sa sb s
def execPlt (sa sb : BitVec 5) (u : BitVec 1) (s : State) : Host.Outcome State Fault Refusal := intCompare (lessThan u) sa sb s
def execPge (sa sb : BitVec 5) (u : BitVec 1) (s : State) : Host.Outcome State Fault Refusal := intCompare (fun a b => !lessThan u a b) sa sb s

/-- A floating-point compare: `quiet` ones set NV for a signalling NaN only. -/
def fpCompare (quiet : Bool) (f : Num → Num → Bool) (sa sb : BitVec 5) (d : BitVec 1) (s : State) : Host.Outcome State Fault Refusal :=
  pushCompare (fun s =>
    let a := fpArg d (s.src sa)
    let b := fpArg d (s.src sb)
    if a.isNaN || b.isNaN then (false, if !quiet || a.isSig || b.isSig then fNV else 0) else (f a b, 0)) s

def execPfeq (sa sb : BitVec 5) (d : BitVec 1) (s : State) : Host.Outcome State Fault Refusal := fpCompare true eqNum sa sb d s
def execPflt (sa sb : BitVec 5) (d : BitVec 1) (s : State) : Host.Outcome State Fault Refusal := fpCompare false ltNum sa sb d s
def execPfle (sa sb : BitVec 5) (d : BitVec 1) (s : State) : Host.Outcome State Fault Refusal :=
  fpCompare false (fun a b => !ltNum b a) sa sb d s

end Sys2Proof.Machine
end

