-- ==== Sys2Proof/Machine/System.lean ====
section
/-! DEFINITION. Trap return and system calls (04_context R107, R108), events and counters (12_scalar R259-R261), and the withdrawal of
translations (11_page R229-R233). -/

namespace Sys2Proof.Machine

/-! ### rft and scall (R108) -/

/-- rft: after every write of the handler; after a transfer of slot 0 an rft of slot 1 is suppressed (03_encoding R67). -/
def execRft (s : State) : Host.Outcome State Fault Refusal :=
  issue s fun s =>
    if s.iss.transferred then .ok s
    else if s.myCore.bank.isNone then raise .permission 1
    else do
      s.awaitHeld 8 s.heldObj
      return (s.leaveHandler s.myCoreNo).transfer .leave

/-- The trap of scall (R108). -/
def scallTrap (service arg : Word) : Trap := { cause := .softwareTrap, info := .ofNat 64 (1 + service.toNat % 2 ^ 16 * 2 ^ 16), addr := arg }

/-- scall: its step retires, so TRET is the step that follows; then C enters trap mode. -/
def State.systemCall (s : State) (sd : BitVec 5) (t : Trap) : State :=
  let a := s.iss.who
  let s1 := endStep s
  let s2 := s1.deliver a t s.iss.here s.iss.slot (some (s1.seq a).pc) (some sd.toNat)
  { s2 with iss := { who := a, out := .trapped } }

/-- scall. In trap mode it is a nested trap (R106). -/
def execScall (sd sa sb : BitVec 5) (s : State) : Host.Outcome State Fault Refusal :=
  let t := scallTrap (s.src sa) (s.src sb)
  if s.acts ∧ s.myCore.bank.isNone ∧ s.iss.xfer ≠ some .stop then .next (s.systemCall sd t)
  else issue s fun s => if s.iss.xfer = some .stop then .ok s else .error (.trap t none)

/-! ### Events and counters (R260, R261) -/

/-- The word of a wfe (R259). -/
def isWfe (w : BitVec 32) : Bool := fld w 26 6 == 0x1B#6 && fld w 0 5 == 2#5

/-- wfe: waits for an event or its timeout, which counts from the start of its wait. Behind a wfe of slot 0, which has taken the latch, slot 1 waits
with what slot 0 has done; every other step that waits here leaves no effect (04_context R101). -/
def execWfe (sd sa : BitVec 5) (s : State) : Host.Outcome State Fault Refusal :=
  issue s fun s =>
    let k := s.myCore
    let t := (s.src sa).toNat
    let since := match s.cur.wait with
      | some w => if w.cond = .event s.myCoreNo t ∧ w.slot = s.iss.slot then w.sinceWall else s.wall
      | none => s.wall
    if k.evt ≠ 0#4 ∨ (t ≠ 0 ∧ t ≤ s.wall - since) then
      let e := if k.evt = 0#4 then 4#4 else k.evt
      .ok (((s.setMyCore { k with evt := 0 }).setResume none).wr sd (e.zeroExtend 64))
    else if s.iss.slot = 1 ∧ isWfe s.iss.words.w0 then
      waitKeeping 10 0xF7 (.event s.myCoreNo t) (s.setResume (some (s.resumeRec .event)))
    else waitFor 10 0xF7 (.event s.myCoreNo t)

/-- sev: bit 0 of the event latch of one core, or of every core bound to the context. -/
def execSev (sa : BitVec 5) (s : State) : Host.Outcome State Fault Refusal :=
  issue s fun s =>
    if sa = 0#5 then .ok (s.wakeCores s.mySlot 1#4)
    else
      let c := (s.src sa).toNat
      if c < 128 ∧ (s.core c).slot = some s.mySlot then .ok (s.setCore c { s.core c with evt := (s.core c).evt ||| 1#4 }) else .ok s

/-- A counter of R261. -/
def State.counter (s : State) (n : Nat) : Nat :=
  match n with
  | 0 => s.wall | 1 => s.clk | 2 => s.myCore.cstep | 3 => s.myCore.cwait | _ => s.myCore.ctrap

/-- rdcnt. -/
def execRdcnt (sd : BitVec 5) (n : BitVec 6) (s : State) : Host.Outcome State Fault Refusal :=
  issue s fun s => .ok (s.wr sd (.ofNat 64 (s.counter n.toNat)))

/-! ### pinv and rminv (R229-R232): what they withdraw is cached translations, lines and verified images, and entries of the remap filters -/

/-- The context operand of the .ctx mode (R230). -/
def State.contextOperand (s : State) (sa : BitVec 5) : Except Stop Unit :=
  let v := (s.src sa).toNat
  if v = 0 ∨ v = s.myCtx.id then .ok () else raise .permission 22

/-- Whether an entry of the remap filters is the context's, and its leader or a follower lies in [lo, hi). -/
def Remap.covered (f : Remap) (id lo hi : Nat) : Bool :=
  f.id == id && (f.leader :: f.followers).any fun v => decide (v * 65536 < hi) && decide (lo < (v + 1) * 65536)

/-- Remove the covered entries of a context: the lines held under their leaders leave the caches, written back (R226). -/
def State.dropLeaders (s : State) (id lo hi : Nat) : State :=
  let gone := s.filter.filter fun f => f.covered id lo hi
  { s with filter := s.filter.filter (fun f => !f.covered id lo hi),
           caches := s.caches.flush fun e => e.id == id && gone.any fun f => f.leader == e.no / 256 }

/-- The whole translated space. -/
def spaceEnd : Nat := 2 ^ 57

/-- The size of the page that holds an address of the issuing context, as it stands or as a translation cache still holds it; 64 KiB where there is
none. -/
def State.pageAt (s : State) (va : Nat) : Nat :=
  (s.caches.walks.filter fun w => w.covered s.myCtx.id va (va + 1) false).foldl (fun n w => max n (pageSize w.level))
    (match (s.walkOf s.mySlot va).2 with
     | .ok (_, level) => pageSize level
     | .error _ => 65536)

/-- The pages that hold a byte of [a, a + n) (R230). -/
def State.coveredPages (s : State) (a n : Nat) : Nat × Nat :=
  (a / s.pageAt a * s.pageAt a, ((a + n - 1) / s.pageAt (a + n - 1) + 1) * s.pageAt (a + n - 1))

/-- The last wait of a form that withdraws translations, with what it has removed (R231). -/
def State.retireWait (s : State) (obj : Nat) (c : Cond) : Except Stop State :=
  if c.holds s then .ok s else waitKeeping 10 obj c (s.setResume (some (s.resumeRec .retire)))

/-- Such a wait that the order has begun. -/
def State.retireCond (s : State) : Option Cond :=
  match s.resumed .retire, s.cur.wait with
  | some _, some w => some w.cond
  | _, _ => none

/-- pinv of the pages of [lo, hi) (R231): after the earlier accesses of C the lines of covered pages, the verified images and the cached entries go,
next-table entries too where `tables` says so, and C waits for the chunks that were translated before. -/
def State.invalidate (s : State) (lo hi : Nat) (tables : Bool) : Except Stop State := do
  match s.retireCond with
  | some c => s.retireWait 0xF9 c
  | none =>
    s.awaitClasses 0xFFFF 10 0xF9
    (((s.flushLines s.myCtx.id lo hi).evictImages s.mySlot lo hi).dropWalks s.myCtx.id lo hi tables).retireWait 0xF9 (.chunksGone s.mySlot lo hi s.nextOp)

/-- rminv of the filter entries of [lo, hi): C waits for the chunks that a removed entry has redirected. -/
def State.withdraw (s : State) (lo hi : Nat) : Except Stop State := do
  match s.retireCond with
  | some c => s.retireWait 0xF8 c
  | none =>
    s.awaitClasses 0xFFFF 10 0xF8
    let units := (s.filter.filter fun f => f.covered s.myCtx.id lo hi).map (·.unit)
    (s.dropLeaders s.myCtx.id lo hi).retireWait 0xF8 (.redirectsGone s.mySlot units s.nextOp)

/-- pinv.ctx. -/
def execPinvCtx (sa : BitVec 5) (s : State) : Host.Outcome State Fault Refusal :=
  issue s fun s => do
    s.contextOperand sa
    s.invalidate 0 spaceEnd false

/-- The pages of a .range form: none for a length of 0. -/
def State.rangePages (s : State) (sa sb : BitVec 5) : Nat × Nat :=
  if (s.src sb).toNat = 0 then (0, 0) else s.coveredPages (s.src sa).toNat (s.src sb).toNat

/-- pinv.range: every page that holds a byte of the range. -/
def execPinvRange (sa sb : BitVec 5) (s : State) : Host.Outcome State Fault Refusal :=
  issue s fun s => s.invalidate (s.rangePages sa sb).1 (s.rangePages sa sb).2 false

/-- pinv.all. -/
def execPinvAll (s : State) : Host.Outcome State Fault Refusal :=
  issue s fun s => s.invalidate 0 spaceEnd true

/-- rminv.ctx. -/
def execRminvCtx (sa : BitVec 5) (s : State) : Host.Outcome State Fault Refusal :=
  issue s fun s => do
    s.contextOperand sa
    s.withdraw 0 spaceEnd

/-- rminv.range: entries whose leader or a follower lies in the range. -/
def execRminvRange (sa sb : BitVec 5) (s : State) : Host.Outcome State Fault Refusal :=
  issue s fun s => s.withdraw (s.rangePages sa sb).1 (s.rangePages sa sb).2

/-- rminv.all. -/
def execRminvAll (s : State) : Host.Outcome State Fault Refusal :=
  issue s fun s => s.withdraw 0 spaceEnd

end Sys2Proof.Machine
end

