-- ==== Sys2Proof/Machine/Table.lean ====
section
/-! DEFINITION. Table control of the engines (05_kernel R134-R136; 14_matrix R311; 15_ferry R314). -/

namespace Sys2Proof.Machine

/-- An engine of the issuing core. -/
def State.engine (s : State) (e : BitVec 3) : Agent := .seq s.myCoreNo e.toNat

/-- C waits until an engine is stopped and no load of its table is under way (KIND 9). -/
def State.awaitLoaded (s : State) (e : BitVec 3) : Except Stop Unit :=
  let c := Cond.engineLoaded s.myCoreNo e.toNat
  if c.holds s then .ok () else waitFor 9 e.toNat c

/-- tload: steps and attributes into an engine's table memory, once every page has translated with the execute right; what a watermark keeps back
comes later, and C goes on. -/
def execTload (sd sa : BitVec 5) (e : BitVec 3) (s : State) : Host.Outcome State Fault Refusal :=
  issue s fun s => do
    s.awaitLoaded e
    let r := (s.src sd).toNat
    let first := bits r 26 16
    let count := bits r 11 0
    if count = 0 ∨ 2048 < count ∨ 2048 < first + count ∨ r ≠ first * 2 ^ 16 + count then limitTrap s
    let a := (s.src sa).toNat
    if a % 8 ≠ 0 then raise .misalignment 0 a
    let ps ← s.reach .exec a (9 * count)
    let t := s.ledAll ps
    match s.meetsRead a (9 * count) with
    | .clear => return t.takeTable t.myCoreNo e.toNat first count (s.readPieces ps)
    | .poison p => raise .abortedLanding 1 p
    | .stall _ =>
      let l : TableLoad := { step := s.iss.here, wslot := s.iss.slot, first := first, count := count, src := ps, order := t.nextOp }
      return { t.setMyCore { t.myCore with tloads := t.myCore.tloads.set e.toNat l } with nextOp := t.nextOp + 1 }

/-- tstart: the engine runs from a step, its predicate stack, frames and rotation cleared. -/
def execTstart (sa : BitVec 5) (e : BitVec 3) (s : State) : Host.Outcome State Fault Refusal :=
  issue s fun s => do
    s.awaitLoaded e
    if 2047 < (s.src sa).toNat then limitTrap s
    let a := s.engine e
    return (s.setSeq a { s.seq a with pc := s.src sa, stack := [], frames := [], run := .running, halting := false }).see a (s.stampOf s.iss.who)

/-- Stop an engine at its step boundary (R116): a step that waits is abandoned. -/
def State.stopEngine (s : State) (a : Agent) : State :=
  if (s.seq a).run = .running ∨ (s.seq a).run = .blocked then
    let t := (s.endWait a).abandon a
    t.setSeq a { t.seq a with run := .stopped, kept := none, halting := false }
  else s

/-- tstop. -/
def execTstop (e : BitVec 3) (s : State) : Host.Outcome State Fault Refusal :=
  issue s fun s =>
    let t := if e = 7#3 then [1, 2, 3, 4, 5].foldl (fun (u : State) k => u.stopEngine (.seq s.myCoreNo k)) s else s.stopEngine (s.engine e)
    let c := Cond.engineStopped s.myCoreNo e.toNat
    if c.holds t then .ok t else .error (.wait 9 e.toNat c (some t))

/-- A 57-bit field moved by a delta (R136). -/
def rebase (field delta : Nat) : Nat := (field + delta) % 2 ^ 57

/-- A matrix descriptor with BASE moved (14_matrix R311). -/
def rebaseMd (d : BitVec 256) (delta : Nat) : BitVec 256 :=
  .ofNat 256 (d.toNat - d.toNat % 2 ^ 57 + rebase (d.toNat % 2 ^ 57) delta)

/-- A copy descriptor with SRC and DST moved (15_ferry R314). -/
def rebaseFd (d : BitVec 512) (delta : Nat) : BitVec 512 :=
  let src := bits d.toNat 56 0
  let dst := bits d.toNat 120 64
  .ofNat 512 (d.toNat - src - dst * 2 ^ 64 + rebase src delta + rebase dst delta * 2 ^ 64)

/-- The numbers below 16 whose bit a mask sets. -/
def maskBits (m : Nat) : List Nat := (List.range 16).filter fun i => bit m i

/-- A window base that tbase and vwin accept (03_encoding R72). -/
def baseOk (b : Nat) : Bool := b % 4 == 0 && decide (b ≤ 740)

/-- tset, tget and tbase act between two steps of the engine (R136): C waits while a step of the engine has acted in part (log 102). -/
def State.awaitStep (s : State) (e : BitVec 3) : Except Stop Unit :=
  let c := Cond.stepDone (s.engine e)
  if c.holds s then .ok () else waitFor 9 e.toNat c

/-- tbase: the window base and stream bases of a vector engine, the selected descriptors of M, LF or SF. -/
def execTbase (sd sa : BitVec 5) (e : BitVec 3) (s : State) : Host.Outcome State Fault Refusal :=
  issue s fun s => do
    s.awaitStep e
    let a := s.engine e
    let q := s.seq a
    let m := (s.src sd).toNat
    let d := (s.src sa).toNat
    if a.isVector then
      if !baseOk m then limitTrap s
      else .ok (s.setSeq a { q with base := m, asb := setAll q.asb ((List.range 8).map fun k => (k, BitVec.ofNat 64 (rebase (q.asb.get 0 k).toNat d))) })
    else if e = 2#3 then
      let k := s.myCore
      .ok (s.setMyCore { k with md := setAll k.md ((maskBits m).map fun i => (i, rebaseMd (k.md.get 0 i) d)) })
    else if 2 ^ 16 ≤ m then limitTrap s
    else .ok (s.setSeq a { q with fd := setAll q.fd ((maskBits m).map fun i => (i, rebaseFd (q.fd.get 0 i) d)) })

/-- rot of a sequencer: the iteration of its rotating frame (R129). -/
def Seq.rot (q : Seq) : Nat :=
  match q.frames.find? fun f => f.rotating with
  | some f => f.index
  | none => 0

/-- Code of a run state (R135). -/
def Run.code : Run → Nat
  | .stopped => 0 | .running => 1 | .blocked => 2 | .held => 3

/-- An engine register as tget reads it (R135). -/
def State.engineReg (s : State) (a : Agent) (n : Nat) : Word :=
  let q := s.seq a
  if n = 0 then .ofNat 64 (q.pc.toNat % 2048)
  else if n = 1 then .ofNat 64 q.run.code
  else if n = 2 then q.fflags.zeroExtend 64
  else if n = 3 then .ofNat 64 q.stack.length
  else if n ≤ 7 then q.lc.get 0 (n - 4)
  else if n = 8 then .ofNat 64 q.rot
  else if n = 9 then .ofNat 64 q.base
  else if n = 0xA then q.vtype
  else if n = 0xB then q.patreg.zeroExtend 64
  else if n ≤ 0x17 then q.es.get 0 (n - 0x10)
  else if n ≤ 0x27 then q.asb.get 0 (n - 0x20)
  else if n < 0x80 then q.str.get 0 (n - 0x40)
  else (s.core s.myCoreNo).mrowp

/-- An engine register as tset writes it (R135). -/
def State.setEngineReg (s : State) (a : Agent) (n : Nat) (v : Word) : State :=
  let q := s.seq a
  if n = 0 then s.setSeq a { q with pc := .ofNat 64 (v.toNat % 2048) }
  else if n = 2 then s.setSeq a { q with fflags := v.truncate 8 }
  else if n ≤ 7 then s.setSeq a { q with lc := q.lc.set (n - 4) v }
  else if n = 0xA then s.setSeq a { q with vtype := v &&& 0xFFF }
  else if n = 0xB then s.setSeq a { q with patreg := v.truncate 24 }
  else if n ≤ 0x17 then s.setSeq a { q with es := q.es.set (n - 0x10) v }
  else if n ≤ 0x27 then s.setSeq a { q with asb := q.asb.set (n - 0x20) v }
  else if n < 0x80 then s.setSeq a { q with str := q.str.set (n - 0x40) v }
  else s.setMyCore { s.myCore with mrowp := v &&& mrowpMask }

/-- tset: STEP waits until the engine is stopped or held. -/
def execTset (sa : BitVec 5) (n : BitVec 8) (e : BitVec 3) (s : State) : Host.Outcome State Fault Refusal :=
  issue s fun s => do
    let a := s.engine e
    if n = 0#8 ∧ (s.seq a).run ≠ Run.held then s.awaitLoaded e
    s.awaitStep e
    return s.setEngineReg a n.toNat (s.src sa)

/-- tget; STATE tells of the step in progress. -/
def execTget (sd : BitVec 5) (n : BitVec 8) (e : BitVec 3) (s : State) : Host.Outcome State Fault Refusal :=
  issue s fun s => do
    if n ≠ 1#8 then s.awaitStep e
    return s.wr sd (s.engineReg (s.engine e) n.toNat)

/-- twidle: C waits until the engine, or every engine, is stopped, and every order that it issued has finished, its held stores among them. -/
def execTwidle (e : BitVec 3) (s : State) : Host.Outcome State Fault Refusal :=
  issue s fun s =>
    let c := Cond.engineIdle s.myCoreNo e.toNat
    if c.holds s then .ok (([sqVA, sqVB].filter fun k => e = 7#3 ∨ e.toNat = k).foldl (fun (t : State) k => t.see s.iss.who (s.stampOf (.seq s.myCoreNo k))) s) else waitFor 9 e.toNat c

end Sys2Proof.Machine
end

