-- ==== Sys2Proof/Machine/VectorArith.lean ====
section
/-! DEFINITION. Vector arithmetic, majors 0x20 to 0x23, and the special functions, major 0x26 (13_vector R274-R277, R282). -/

namespace Sys2Proof.Machine

/-! ### Major 0x20 (R274) -/

def execVadd (vd va vb : BitVec 5) (la lb : BitVec 1) (s : State) : Host.Outcome State Fault Refusal :=
  laneOrder grpAll true false (fun t => arith (fun m _ a b => exactNum (addNum m a b)) (fun _ a b => a + b) t t) vd va vb la lb s
def execVsub (vd va vb : BitVec 5) (la lb : BitVec 1) (s : State) : Host.Outcome State Fault Refusal :=
  laneOrder grpAll true false (fun t => arith (fun m _ a b => exactNum (addNum m a b.flip)) (fun _ a b => a - b) t t) vd va vb la lb s
def execVmul (vd va vb : BitVec 5) (la lb : BitVec 1) (s : State) : Host.Outcome State Fault Refusal :=
  laneOrder grpAll true false (fun t => arith (fun _ _ a b => exactNum (mulNum a b)) (fun _ a b => a * b) t t) vd va vb la lb s
def execVfma (vd va vb : BitVec 5) (la lb : BitVec 1) (s : State) : Host.Outcome State Fault Refusal :=
  laneOrder grpAll true true (fun t => arith (fun m d a b => exactNum (fmaNum m d a b)) (fun d a b => d + a * b) t t) vd va vb la lb s
def execVfms (vd va vb : BitVec 5) (la lb : BitVec 1) (s : State) : Host.Outcome State Fault Refusal :=
  laneOrder grpAll true true (fun t => arith (fun m d a b => exactNum (fmaNum m d a.flip b)) (fun d a b => d - a * b) t t) vd va vb la lb s
def execVdiv (vd va vb : BitVec 5) (la lb : BitVec 1) (s : State) : Host.Outcome State Fault Refusal :=
  laneOrder grpF true false (fun t => arith (fun _ _ a b => divNum a b) (fun _ _ _ => 0) t t) vd va vb la lb s
def execVsqrt (vd va : BitVec 5) (la : BitVec 1) (s : State) : Host.Outcome State Fault Refusal :=
  laneOrder1 grpF true (fun t r a => arith (fun _ _ a _ => sqrtNum a) (fun _ _ _ => 0) t t r 0 a 0) vd va la s
def execVmin (vd va vb : BitVec 5) (la lb : BitVec 1) (s : State) : Host.Outcome State Fault Refusal :=
  laneOrder grpAll false false (fun t _ _ a b => pick false t a b) vd va vb la lb s
def execVmax (vd va vb : BitVec 5) (la lb : BitVec 1) (s : State) : Host.Outcome State Fault Refusal :=
  laneOrder grpAll false false (fun t _ _ a b => pick true t a b) vd va vb la lb s
def execVabs (vd va : BitVec 5) (la : BitVec 1) (s : State) : Host.Outcome State Fault Refusal :=
  laneOrder1 grpAll false (fun t _ a => resign false t a) vd va la s
def execVneg (vd va : BitVec 5) (la : BitVec 1) (s : State) : Host.Outcome State Fault Refusal :=
  laneOrder1 grpAll false (fun t _ a => resign true t a) vd va la s

/-! ### Major 0x21 (R275) -/

/-- Both types float, or both integer. -/
def sameKind (t0 t1 : Nat) : Bool := grpFloat t0 == grpFloat t1

/-- A widening order: the old group is the third operand where `acc` says so. -/
def wideOrder (acc : Bool) (f : Ty → Ty → Rounding → Nat → Nat → Nat → Elem) (vd va vb : BitVec 5) (la lb : BitVec 1) (s : State) :
    Host.Outcome State Fault Refusal :=
  issueAlways s fun s => do
    if !wideningPair s.t0 s.t1 || !sameKind s.t0 s.t1 || (grpFloat s.t0 && s.badMode) then limitTrap s
    let n := lanesOf s.t0
    let g := n / lanesOf s.t1
    if groupOver vd.toNat g then limitTrap s
    let m := s.mask n
    let (a, s1) ← s.readA va.toNat [m.any id] la
    let (b, s2) ← s1.readB vb.toNat [m.any id] lb
    let (d, s3) ← if acc then s2.readB vd.toNat (needs (lanesOf s.t1) m g) 0 else .ok (0, s2)
    s3.finishV vd.toNat g s.t1 (fmtOf s.t0 s.t0 s.t1)
      (mapLanes (fun j => f (tyOf s.t0) (tyOf s.t1) (s.vround j)) 0 m (elems (typeWidth s.t1) n d) (elems (typeWidth s.t0) n a)
        (elems (typeWidth s.t0) n b))

def execVfmaw (vd va vb : BitVec 5) (la lb : BitVec 1) (s : State) : Host.Outcome State Fault Refusal :=
  wideOrder true (arith (fun m d a b => exactNum (fmaNum m d a b)) (fun d a b => d + a * b)) vd va vb la lb s
def execVmulw (vd va vb : BitVec 5) (la lb : BitVec 1) (s : State) : Host.Outcome State Fault Refusal :=
  wideOrder false (arith (fun _ _ a b => exactNum (mulNum a b)) (fun _ a b => a * b)) vd va vb la lb s
def execVaddw (vd va vb : BitVec 5) (la lb : BitVec 1) (s : State) : Host.Outcome State Fault Refusal :=
  wideOrder false (arith (fun m _ a b => exactNum (addNum m a b)) (fun _ a b => a + b)) vd va vb la lb s

/-! ### Major 0x22 (R276) -/

/-- A saturated integer with the flag of a clamp. -/
def satElem (i : IntFmt) (x : Int) : Elem := let (y, c) := i.sat x; (i.wrap y, if c then fSAT else 0)

/-- The element of an integer order from the integers of a and b. -/
def intElem (f : IntFmt → Int → Int → Elem) (t : Ty) (_ : Rounding) (_ a b : Nat) : Elem :=
  match t with
  | .int i => f i (i.int a) (i.int b)
  | .fp _ => (0, 0)

def execVadds (vd va vb : BitVec 5) (la lb : BitVec 1) (s : State) : Host.Outcome State Fault Refusal :=
  laneOrder grpInt false false (intElem fun i a b => satElem i (a + b)) vd va vb la lb s
def execVsubs (vd va vb : BitVec 5) (la lb : BitVec 1) (s : State) : Host.Outcome State Fault Refusal :=
  laneOrder grpInt false false (intElem fun i a b => satElem i (a - b)) vd va vb la lb s
def execVmulh (vd va vb : BitVec 5) (la lb : BitVec 1) (s : State) : Host.Outcome State Fault Refusal :=
  laneOrder grpInt false false (intElem fun i a b => (i.wrap (a * b / (2 ^ i.w : Nat)), 0)) vd va vb la lb s

/-- The four products of an element of vdot4: a and b hold four bytes each. -/
def dot4 (i : IntFmt) (a b : Nat) : Int :=
  (List.zipWith (fun x y => i.int x * i.int y) (elems 8 4 a) (elems 8 4 b)).foldl (· + ·) 0

/-- vdot4: 128 elements of INT32. -/
def execVdot4 (vd va vb : BitVec 5) (la lb : BitVec 1) (s : State) : Host.Outcome State Fault Refusal :=
  issueAlways s fun s => do
    if s.t0 ≠ 8 ∧ s.t0 ≠ 10 then limitTrap s
    let m := s.mask 128
    let (a, s1) ← s.readA va.toNat [m.any id] la
    let (b, s2) ← s1.readB vb.toNat [m.any id] lb
    let (d, s3) ← s2.readB vd.toNat [m.any id] 0
    let i : IntFmt := ⟨8, s.t0 == 8⟩
    let o : IntFmt := ⟨32, true⟩
    s3.finishV vd.toNat 1 6 (fmtOf s.t0 s.t0 6)
      (mapLanes (fun _ x y z => satElem o (o.int x + dot4 i y z)) 0 m (elems 32 128 d) (elems 32 128 a) (elems 32 128 b))

/-! ### Major 0x23 (R277) -/

def execVand (vd va vb : BitVec 5) (la lb : BitVec 1) (s : State) : Host.Outcome State Fault Refusal :=
  bitOrder grpAllQ (fun _ a b => a &&& b) vd va vb la lb s
def execVor (vd va vb : BitVec 5) (la lb : BitVec 1) (s : State) : Host.Outcome State Fault Refusal :=
  bitOrder grpAllQ (fun _ a b => a ||| b) vd va vb la lb s
def execVxor (vd va vb : BitVec 5) (la lb : BitVec 1) (s : State) : Host.Outcome State Fault Refusal :=
  bitOrder grpAllQ (fun _ a b => a ^^^ b) vd va vb la lb s
def execVnot (vd va : BitVec 5) (la : BitVec 1) (s : State) : Host.Outcome State Fault Refusal :=
  bitOrder1 grpAllQ (fun w a => 2 ^ w - 1 - a) vd va la s
def execVsll (vd va vb : BitVec 5) (la lb : BitVec 1) (s : State) : Host.Outcome State Fault Refusal :=
  bitOrder grpAllQ (fun w a n => if w ≤ n then 0 else a * 2 ^ n % 2 ^ w) vd va vb la lb s
def execVsrl (vd va vb : BitVec 5) (la lb : BitVec 1) (s : State) : Host.Outcome State Fault Refusal :=
  bitOrder grpAllQ (fun w a n => if w ≤ n then 0 else a / 2 ^ n) vd va vb la lb s
def execVsra (vd va vb : BitVec 5) (la lb : BitVec 1) (s : State) : Host.Outcome State Fault Refusal :=
  bitOrder grpAllQ (fun w a n => (IntFmt.mk w true).wrap ((IntFmt.mk w true).int a / (2 ^ (min n (w - 1)) : Nat))) vd va vb la lb s

/-- The number of ones among the low `w` bits. -/
def ones (w a : Nat) : Nat := (elems 1 w a).foldl (· + ·) 0

def execVpopc (vd va : BitVec 5) (la : BitVec 1) (s : State) : Host.Outcome State Fault Refusal := bitOrder1 grpAllQ ones vd va la s

/-! ### Major 0x26 (R282) -/

/-- A special function by its code. -/
def specialOrder (fn : Nat) (vd va : BitVec 5) (la : BitVec 1) (s : State) : Host.Outcome State Fault Refusal :=
  laneOrder1 grpF true (fun t r a => arith (fun _ _ a _ => specialFn fn a) (fun _ _ _ => 0) t t r 0 a 0) vd va la s

def execVrcp (vd va : BitVec 5) (la : BitVec 1) (s : State) : Host.Outcome State Fault Refusal := specialOrder 0 vd va la s
def execVrsqrt (vd va : BitVec 5) (la : BitVec 1) (s : State) : Host.Outcome State Fault Refusal := specialOrder 1 vd va la s
def execVexp (vd va : BitVec 5) (la : BitVec 1) (s : State) : Host.Outcome State Fault Refusal := specialOrder 2 vd va la s
def execVlog (vd va : BitVec 5) (la : BitVec 1) (s : State) : Host.Outcome State Fault Refusal := specialOrder 3 vd va la s
def execVtanh (vd va : BitVec 5) (la : BitVec 1) (s : State) : Host.Outcome State Fault Refusal := specialOrder 4 vd va la s
def execVsigm (vd va : BitVec 5) (la : BitVec 1) (s : State) : Host.Outcome State Fault Refusal := specialOrder 5 vd va la s

end Sys2Proof.Machine
end

