-- ==== Sys2Proof/Machine/VectorPerm.lean ====
section
/-! DEFINITION. Permutes, major 0x27, reductions and scans, major 0x28 (13_vector R283-R285; 02_numbers R57, R58). -/

namespace Sys2Proof.Machine

/-! ### Permutes (R283): bit patterns move unchanged and set no flag -/

/-- A permute of one register of T0 under the mask: the new lanes from the lanes of va. -/
def permOrder (ok : Nat → Bool) (f : State → Nat → List Nat → List Nat) (vd va : BitVec 5) (la : BitVec 1) (s : State) :
    Host.Outcome State Fault Refusal :=
  issueAlways s fun s => do
    if s.badType ok false then limitTrap s
    let w := typeWidth s.t0
    let n := lanesOf s.t0
    let m := s.mask n
    let (a, s1) ← s.readA va.toNat [m.any id] la
    return s1.result vd.toNat 1 w (List.zipWith (fun (b : Bool) x => if b then some x else none) m (f s n (elems w n a)))

/-- Types that vperm accepts: I and F of 16 or 32 bits. -/
def grpPerm (t : Nat) : Bool := t == 0 || t == 1 || t == 2 || t == 6 || t == 7

def execVperm (vd va vb : BitVec 5) (la lb : BitVec 1) (s : State) : Host.Outcome State Fault Refusal :=
  issueAlways s fun s => do
    if s.badType grpPerm false then limitTrap s
    let w := typeWidth s.t0
    let n := lanesOf s.t0
    let m := s.mask n
    let (a, s1) ← s.readA va.toNat [m.any id] la
    let (b, s2) ← s1.readB vb.toNat [m.any id] lb
    let l := elems w n a
    return s2.result vd.toNat 1 w (List.zipWith (fun (c : Bool) x => if c then some (l.getD (x % n) 0) else none) m (elems w n b))

/-- The elements of a list that a selection holds, and those it does not. -/
def selected (m : List Bool) (l : List Nat) : List Nat := ((m.zip l).filter fun p => p.1).map (·.2)
def unselected (m : List Bool) (l : List Nat) : List Nat := ((m.zip l).filter fun p => !p.1).map (·.2)

/-- A selection form: the new lanes from the selection and the lanes of va; it acts whatever the top entry holds (R267). -/
def selOrder (f : Nat → List Bool → List Nat → List (Option Nat)) (count : Option (BitVec 3)) (vd va : BitVec 5) (la : BitVec 1) (s : State) :
    Host.Outcome State Fault Refusal :=
  issueAlways s fun s => do
    if s.badType grpAllQ false then limitTrap s
    let w := typeWidth s.t0
    let n := lanesOf s.t0
    let m := s.mask n
    let (a, s1) ← s.readA va.toNat [true] la
    let l := elems w n a
    let s2 := s1.result vd.toNat 1 w (f n m l)
    return match count with
      | some k => s2.wrEs k (.ofNat 64 (selected m l).length)
      | none => s2

/-- vcomp.z and vcomp.m: selected elements to the low lanes; the others become zero or are kept. -/
def execVcomp (vd va : BitVec 5) (mode : BitVec 1) (k : BitVec 3) (la : BitVec 1) (s : State) : Host.Outcome State Fault Refusal :=
  selOrder (fun n m l => let c := selected m l
    c.map some ++ List.replicate (n - c.length) (if mode = 1#1 then none else some 0)) (some k) vd va la s

/-- The low elements of a list spread over the selected positions. -/
def expand : List Bool → List Nat → List (Option Nat)
  | [], _ => []
  | true :: m, x :: l => some x :: expand m l
  | _ :: m, l => none :: expand m l

def execVexpd (vd va : BitVec 5) (la : BitVec 1) (s : State) : Host.Outcome State Fault Refusal :=
  selOrder (fun _ m l => expand m l) none vd va la s

def execVpart (vd va : BitVec 5) (k : BitVec 3) (la : BitVec 1) (s : State) : Host.Outcome State Fault Refusal :=
  selOrder (fun _ m l => (selected m l ++ unselected m l).map some) (some k) vd va la s

/-- vslide: zero outside the register. -/
def execVslide (vd va : BitVec 5) (k : BitVec 3) (la : BitVec 1) (s : State) : Host.Outcome State Fault Refusal :=
  permOrder grpAllQ (fun s n l => (List.range n).map fun (i : Nat) =>
    let j : Int := (i : Int) + (s.es k).toInt
    if 0 ≤ j ∧ j < n then l.getD j.toNat 0 else 0) vd va la s

def execVbcast (vd va : BitVec 5) (k : BitVec 3) (la : BitVec 1) (s : State) : Host.Outcome State Fault Refusal :=
  permOrder grpAllQ (fun s n l => List.replicate n (l.getD ((s.es k).toNat % n) 0)) vd va la s

/-- Two lists interleaved. -/
def interleave : List Nat → List Nat → List Nat
  | a :: as_, b :: bs => a :: b :: interleave as_ bs
  | _, _ => []

/-- The elements at even positions. -/
def evens : List Nat → List Nat
  | [] => []
  | [a] => [a]
  | a :: _ :: r => a :: evens r

/-- vzip: not lane-wise (R267). -/
def execVzip (vd va vb : BitVec 5) (la lb : BitVec 1) (s : State) : Host.Outcome State Fault Refusal :=
  issueAlways s fun s => do
    if s.badType grpAllQ false || groupOver vd.toNat 2 then limitTrap s
    if !s.acts then return s
    let w := typeWidth s.t0
    let n := lanesOf s.t0
    let (a, s1) ← s.readA va.toNat [true] la
    let (b, s2) ← s1.readB vb.toNat [true] lb
    return s2.result vd.toNat 2 w ((interleave (elems w n a) (elems w n b)).map some)

/-- vunzip: not lane-wise. -/
def execVunzip (vd va : BitVec 5) (la : BitVec 1) (s : State) : Host.Outcome State Fault Refusal :=
  issueAlways s fun s => do
    if s.badType grpAllQ false || groupOver va.toNat 2 || groupOver vd.toNat 2 then limitTrap s
    if !s.acts then return s
    let w := typeWidth s.t0
    let n := lanesOf s.t0
    let (a, s1) ← s.readA va.toNat [true, true] la
    let l := elems w (2 * n) a
    return s1.result vd.toNat 2 w ((evens l ++ evens (l.drop 1)).map some)

/-! ### Reductions (R284; 02_numbers R57) -/

/-- One level of the tree: pairs of nodes, `f` from the index to the node's sum; the flags. -/
def treeLevel (f : Nat → Nat → Nat → Elem) : Nat → List (Option Nat) → List (Option Nat) × BitVec 8
  | i, a :: b :: r =>
    let (t, g) := treeLevel f (i + 1) r
    match a, b with
    | some x, some y => let (c, h) := f i x y; (some c :: t, g ||| h)
    | none, y => (y :: t, g)
    | x, none => (x :: t, g)
  | _, l => (l, 0)

/-- The tree from level `l` upwards. -/
def tree (f : Nat → Nat → Nat → Nat → Elem) : Nat → Nat → List (Option Nat) → Option Nat × BitVec 8
  | 0, _, ns => (ns.headD none, 0)
  | fuel + 1, l, ns =>
    let (ms, g) := treeLevel (f l) 0 ns
    let (r, h) := tree f fuel (l + 1) ms
    (r, g ||| h)

/-- A result that is a NaN is the canonical one, and a signalling one sets NV (02_numbers R35). -/
def canonical (t : Ty) (c : Nat) : Elem :=
  match t with
  | .fp f => if (f.num c).isNaN then (f.nan, if (f.num c).isSig then fNV else 0) else (c, 0)
  | .int _ => (c, 0)

/-- An element as an engine scalar register takes it: sign-extended for I (R284, R287). -/
def esValue (t c : Nat) : Word := if grpSigned t then .ofInt 64 ((IntFmt.mk (typeWidth t) true).int c) else .ofNat 64 c

/-- A reduction: its result goes to lane 0 of vd and to an engine scalar register. -/
def reduceOrder (rounds : Bool) (f : Ty → Rounding → Nat → Nat → Elem) (vd va : BitVec 5) (k : BitVec 3) (la : BitVec 1) (s : State) :
    Host.Outcome State Fault Refusal :=
  issueAlways s fun s => do
    if s.badType grpAll rounds then limitTrap s
    let w := typeWidth s.t0
    let n := lanesOf s.t0
    let m := s.mask n
    let (a, s1) ← s.readA va.toNat [m.any id] la
    let ns := List.zipWith (fun (b : Bool) x => if b then some x else none) m (elems w n a)
    let (r, g) := tree (fun l i x y => f (tyOf s.t0) (s.vround (l * 65536 + i)) x y) n.log2 1 ns
    let (c, h) := canonical (tyOf s.t0) (r.getD 0)
    let s2 ← s1.finishV vd.toNat 1 s.t0 (fmtOf s.t0 0xF s.t0) [some (c, g ||| h)]
    return s2.wrEs k (esValue s.t0 c)

/-- The sum of two nodes. -/
def addElem (t : Ty) (r : Rounding) (a b : Nat) : Elem :=
  arith (fun m _ a b => exactNum (addNum m a b)) (fun _ a b => a + b) t t r 0 a b

/-- The larger or smaller of two nodes. -/
def pickNaN (mx : Bool) (t : Ty) (_ : Rounding) (a b : Nat) : Elem :=
  match t with
  | .fp f => fpPickNaN mx f a b
  | .int _ => pick mx t a b

def execVredsum (vd va : BitVec 5) (k : BitVec 3) (la : BitVec 1) (s : State) : Host.Outcome State Fault Refusal :=
  reduceOrder true addElem vd va k la s
def execVredmax (vd va : BitVec 5) (k : BitVec 3) (la : BitVec 1) (s : State) : Host.Outcome State Fault Refusal :=
  reduceOrder false (pickNaN true) vd va k la s
def execVredmin (vd va : BitVec 5) (k : BitVec 3) (la : BitVec 1) (s : State) : Host.Outcome State Fault Refusal :=
  reduceOrder false (pickNaN false) vd va k la s

/-! ### Scans (R285; 02_numbers R58) -/

/-- The chain from lane `i` on with its running value, over the mask, the segment starts and the lanes. -/
def chain (t : Ty) (r : Nat → Rounding) : Nat → Option Nat → List Bool → List Bool → List Nat → List (Option Elem)
  | i, run, b :: m, st :: ss, x :: l =>
    let run' := if st then none else run
    if b then
      let e := match run' with
        | none => canonical t x
        | some y => addElem t (r i) y x
      some e :: chain t r (i + 1) (some e.1) m ss l
    else none :: chain t r (i + 1) run' m ss l
  | _, _, _, _, _ => []

/-- A scan under segment starts; `fb` is the type code of its second operand. -/
def State.scan (s : State) (vd va : BitVec 5) (la : BitVec 1) (starts : List Bool) (fb : Nat) : Except Stop State := do
  let w := typeWidth s.t0
  let n := lanesOf s.t0
  let m := s.mask n
  let (a, s1) ← s.readA va.toNat [m.any id] la
  s1.finishV vd.toNat 1 s.t0 (fmtOf s.t0 fb s.t0) (chain (tyOf s.t0) (fun j => s.vround j) 0 none m starts (elems w n a))

def execVscan (vd va : BitVec 5) (la : BitVec 1) (s : State) : Host.Outcome State Fault Refusal :=
  issueAlways s fun s =>
    if s.badType grpAll true then limitTrap s else s.scan vd va la (List.replicate (lanesOf s.t0) false) 0xF

def execVsegsum (vd va vb : BitVec 5) (la lb : BitVec 1) (s : State) : Host.Outcome State Fault Refusal :=
  issueAlways s fun s => do
    if s.badType grpAll true then limitTrap s
    let (b, s1) ← s.readB vb.toNat [(s.mask (lanesOf s.t0)).any id] lb
    s1.scan vd va la ((elems 1 (lanesOf s.t0) b).map fun x => x == 1) s.t0

end Sys2Proof.Machine
end

