-- ==== Sys2Proof/Machine/VectorMem.lean ====
section
/-! DEFINITION. Vector loads and stores, gathers, scatters and vector atomics, majors 0x2C to 0x2F (13_vector R288-R292). -/

namespace Sys2Proof.Machine

/-! ### Accesses of an order -/

/-- A piece of an order's accesses: address, bytes, and where they stand in the register image. -/
structure Piece where
  addr : Nat
  n : Nat
  off : Nat
deriving DecidableEq, Repr

/-- Pieces that follow on each other joined. -/
def joinPieces (l : List Piece) : List Piece :=
  l.foldr (fun p acc => match acc with
    | q :: r => if p.addr + p.n = q.addr ∧ p.off + p.n = q.off then { p with n := p.n + q.n } :: r else p :: acc
    | [] => [p]) []

/-- Positions of the active elements. -/
def activeAt (m : List Bool) : List Nat := (m.zip (List.range m.length)).filterMap fun p => if p.1 then some p.2 else none

/-- The base and a stride of a stream as the step found them. -/
def State.streamBase (s : State) (k : BitVec 3) : Nat := (s.iss.old.asb.get 0 k.toNat).toNat
def State.stride (s : State) (k : BitVec 3) (j : Nat) : Int := (s.iss.old.str.get 0 (8 * k.toNat + j)).toInt

/-- An address at a distance (R10). -/
def addrAt (a : Nat) (d : Int) : Nat := (((a : Int) + d) % (2 ^ 64 : Nat)).toNat

/-- Pieces of elements that follow on each other; of 4-bit ones every byte with an active element (R289). -/
def flatPieces (w a : Nat) (m : List Bool) : List Piece :=
  let bytes := if w = 4 then ((activeAt m).map (· / 2)).eraseDups.map fun (j : Nat) => Piece.mk (addrAt a j) 1 j
    else (activeAt m).map fun (j : Nat) => Piece.mk (addrAt a (j * (w / 8) : Nat)) (w / 8) (j * (w / 8))
  joinPieces bytes

/-- Pieces of elements at a stride. -/
def stridePieces (w a : Nat) (st : Int) (m : List Bool) : List Piece :=
  joinPieces ((activeAt m).map fun (j : Nat) => Piece.mk (addrAt a (j * st)) (w / 8) (j * (w / 8)))

/-- Pieces of eight LQ8 blocks of 68 bytes in the order of their addresses, the scales behind the values in the image (02_numbers R40). -/
def blockPieces (a : Nat) (m : List Bool) : List Piece :=
  ((activeAt m).map (· / 64)).eraseDups.flatMap fun (b : Nat) =>
    joinPieces (((activeAt m).filter (· / 64 == b)).map fun (j : Nat) => Piece.mk (addrAt a (68 * b + j % 64 : Nat)) 1 j) ++
      [Piece.mk (addrAt a (68 * b + 64 : Nat)) 4 (512 + 4 * b)]

/-- The checks of an order before it acts (R289): regions, the alignment of some addresses, the rights of every page. -/
def State.checkPieces (s : State) (ps : List Piece) (align : Nat) (at_ : List Nat) (acc : Acc) : Except Stop Unit := do
  ps.forM fun p => if regionOf p.addr = .sem then raise .permission 5 p.addr else regionOk p.addr p.n
  at_.forM fun a => if a % align ≠ 0 then raise .misalignment 0 a else .ok ()
  ps.forM fun p => (s.reach acc p.addr p.n).map fun _ => ()

/-- Read pieces into a register image. -/
def State.loadPieces (s : State) : List Piece → Except Stop (Nat × State)
  | [] => .ok (0, s)
  | p :: r => do
    let (bs, t) ← s.loadBytes p.addr p.n
    let (img, u) ← t.loadPieces r
    return (leNat bs * 2 ^ (8 * p.off) + img, u)

/-- Store bytes element by element. -/
def State.storeEach (s : State) (e oc : Nat) : Nat → Nat → List Byte → Except Stop State
  | 0, _, _ => .ok s
  | k + 1, a, bs => do
    if bs.isEmpty then return s
    let t ← s.storeBytes a (bs.take e) (classBit oc)
    t.storeEach e oc k (a + e) (bs.drop e)

/-- Store pieces of a register image: behind a watermark each element is held by itself (R289; 09_ordering R194). -/
def State.storePieces (s : State) (img e oc : Nat) : List Piece → Except Stop State
  | [] => .ok s
  | p :: r => do
    let bs := leBytes p.n (img / 2 ^ (8 * p.off))
    let t ← if s.storeClear p.addr p.n then s.storeBytes p.addr bs (classBit oc) else s.storeEach e oc p.n p.addr bs
    t.storePieces img e oc r

/-- The post-increment of a stream (R289). -/
def State.increment (s : State) (k inc : BitVec 3) : State :=
  if inc = 0#3 then s
  else s.setCur { s.cur with asb := s.cur.asb.set k.toNat (.ofNat 64 (addrAt (s.streamBase k) (s.stride k inc.toNat))) }

/-- Active elements of an image. -/
def taken (w : Nat) (m : List Bool) (img : Nat) : List (Option Nat) :=
  List.zipWith (fun (b : Bool) x => if b then some x else none) m (elems w m.length img)

/-! ### Contiguous and strided (R288, R289) -/

/-- A load of one register: its pieces and the addresses that must be aligned. -/
def loadOrder (ok : Nat → Bool) (geo : State → Nat → List Bool → List Piece × List Nat) (vd : BitVec 5) (as_ inc : BitVec 3) (s : State) :
    Host.Outcome State Fault Refusal :=
  issueAlways s fun s => do
    if s.badType ok false then limitTrap s
    let w := typeWidth s.t0
    let m := s.mask (lanesOf s.t0)
    if !m.any id then return s.result vd.toNat 1 w (m.map fun _ => none)
    let (ps, at_) := geo s w m
    s.checkPieces ps (max (w / 8) 1) at_ .read
    let (img, t) ← s.loadPieces ps
    return (t.increment as_ inc).result vd.toNat 1 w (taken w m img)

/-- A store of one register. -/
def storeOrder (ok : Nat → Bool) (geo : State → Nat → List Bool → List Piece × List Nat) (vd : BitVec 5) (as_ : BitVec 3) (oc : BitVec 4)
    (inc : BitVec 3) (lu : BitVec 1) (s : State) : Host.Outcome State Fault Refusal :=
  issueAlways s fun s => do
    if s.badType ok false then limitTrap s
    let w := typeWidth s.t0
    let m := s.mask (lanesOf s.t0)
    let (v, s1) ← s.readB vd.toNat [m.any id] lu
    if !m.any id then return s1
    let (ps, at_) := geo s w m
    s.checkPieces ps (max (w / 8) 1) at_ s.iss.who.writeAcc
    let t ← s1.storePieces v (max (w / 8) 1) oc.toNat ps
    return t.increment as_ inc

/-- The accesses of vld and vst, and of vlds and vsts. -/
def flatGeo (k : BitVec 3) (s : State) (w : Nat) (m : List Bool) : List Piece × List Nat :=
  (flatPieces w (s.streamBase k) m, [s.streamBase k])
def strideGeo (k : BitVec 3) (s : State) (w : Nat) (m : List Bool) : List Piece × List Nat :=
  (stridePieces w (s.streamBase k) (s.stride k 1) m, (activeAt m).map fun (j : Nat) => addrAt (s.streamBase k) (j * s.stride k 1))

def execVld (vd : BitVec 5) (as_ : BitVec 3) (_oc : BitVec 4) (inc : BitVec 3) (s : State) : Host.Outcome State Fault Refusal :=
  loadOrder grpAllQ (flatGeo as_) vd as_ inc s
def execVlds (vd : BitVec 5) (as_ : BitVec 3) (_oc : BitVec 4) (inc : BitVec 3) (s : State) : Host.Outcome State Fault Refusal :=
  loadOrder grpWide (strideGeo as_) vd as_ inc s
def execVst (vd : BitVec 5) (as_ : BitVec 3) (oc : BitVec 4) (inc : BitVec 3) (lu : BitVec 1) (s : State) :
    Host.Outcome State Fault Refusal := storeOrder grpAllQ (flatGeo as_) vd as_ oc inc lu s
def execVsts (vd : BitVec 5) (as_ : BitVec 3) (oc : BitVec 4) (inc : BitVec 3) (lu : BitVec 1) (s : State) :
    Host.Outcome State Fault Refusal := storeOrder grpWide (strideGeo as_) vd as_ oc inc lu s

/-- vldq: 512 values to vd, the scales of blocks with an active element to vd+1, whose other lanes become +0. -/
def execVldq (vd : BitVec 5) (as_ : BitVec 3) (_oc : BitVec 4) (inc : BitVec 3) (s : State) : Host.Outcome State Fault Refusal :=
  issueAlways s fun s => do
    if s.t0 ≠ 12 ∨ groupOver vd.toNat 2 then limitTrap s
    let m := s.mask 512
    if !m.any id then return s.result vd.toNat 2 8 (List.replicate 1024 none)
    let a := s.streamBase as_
    let ps := blockPieces a m
    s.checkPieces ps 4 [a] .read
    let (img, t) ← s.loadPieces ps
    let here := s.iss.here.toNat % 2048
    let p0 := s.iss.old.phys here vd.toNat
    let t1 := (t.increment as_ inc).mergeV p0 8 (taken 8 m img)
    let scales := taken 32 (needs 64 m 8) (img / 2 ^ 4096) ++ List.replicate 120 (some 0)
    return (t1.mergeV (s.iss.old.phys here (vd.toNat + 1)) 32 scales).enterRing p0

/-- vstq. -/
def execVstq (vd : BitVec 5) (as_ : BitVec 3) (oc : BitVec 4) (inc : BitVec 3) (lu : BitVec 1) (s : State) :
    Host.Outcome State Fault Refusal :=
  issueAlways s fun s => do
    if s.t0 ≠ 12 ∨ groupOver vd.toNat 2 then limitTrap s
    let m := s.mask 512
    let (v, s1) ← s.readB vd.toNat [m.any id, m.any id] lu
    if !m.any id then return s1
    let a := s.streamBase as_
    let ps := blockPieces a m
    s.checkPieces ps 4 [a] s.iss.who.writeAcc
    let t ← s1.storePieces v 1 oc.toNat ps
    return t.increment as_ inc

/-! ### Gathers and scatters (R290, R291) -/

/-- Types whose elements take part in gathers, scatters and atomics. -/
def grpBytes (t : Nat) : Bool := grpAll t && decide (8 ≤ typeWidth t)

/-- The element that a gather or scatter starts from (R291). -/
def State.gatherStart (s : State) : Nat :=
  match s.cur.gath with
  | some g => if g.here = s.iss.here ∧ g.slot = s.iss.slot then g.next else 0
  | none => 0

/-- The active elements from a start on with their addresses, from the index operand. -/
def State.gatherAddrs (s : State) (k : BitVec 3) (m : List Bool) (idx : Nat) : List (Nat × Nat) :=
  let it : IntFmt := ⟨typeWidth s.t1, grpSigned s.t1⟩
  let xs := elems it.w m.length idx
  ((List.zip m (List.zip (List.range m.length) xs)).filterMap fun p =>
    if p.1 then some (p.2.1, addrAt (s.streamBase k) (it.int p.2.2 * s.stride k 1)) else none).filter fun p => decide (s.gatherStart ≤ p.1)

/-- The checks of one element. -/
def elementOk (a n : Nat) : Except Stop Unit := accessOk a n

/-- The old bytes of table rows that a gather which goes on after a fault still reads (08_memory R176). -/
def State.gatherSnap (s : State) : Map Key Byte := if s.gatherStart = 0 then [] else (s.cur.gath.map (·.snap)).getD []

/-- The state that stands when element `i` faults: the elements below it, and the record to go on from it. -/
def State.stopAt (s : State) (i : Nat) : State :=
  s.setCur { s.cur with gath := some { here := s.iss.here, slot := s.iss.slot, next := i, snap := s.gatherSnap } }

/-- A value read at the version of a gather's first elements (08_memory R176). -/
def State.loadVersion (s : State) (a n : Nat) : Except Stop (Nat × State) := do
  let (v, t) ← s.loadNat a n
  if s.gatherSnap.isEmpty then return (v, t)
  let ps ← s.reach .read a n
  let keys := ps.flatMap fun p => (List.range p.2.2).map (p.1.key + ·)
  return (leNat ((keys.zip (leBytes n v)).map fun e => s.gatherSnap.get e.2 e.1), t)

/-- Elements read one by one: what was read, and the trap of the first that faults. -/
def State.gather (s : State) (n : Nat) : List (Nat × Nat) → Except Stop (List (Nat × Nat) × Option (Nat × Trap) × State)
  | [] => .ok ([], none, s)
  | (i, a) :: r =>
    match (do elementOk a n; s.loadVersion a n) with
    | .error (.trap t _) => .ok ([], some (i, t), s)
    | .error w => .error w
    | .ok (v, t) => do
      let (l, f, u) ← t.gather n r
      return ((i, v) :: l, f, u)

/-- Values at positions as the lanes of a register. -/
def placed (n : Nat) (l : List (Nat × Nat)) : List (Option Nat) := (List.range n).map fun i => (l.find? fun p => p.1 == i).map (·.2)

/-- E of a gather, or none where its types are not accepted (R290). -/
def State.gatherCount (s : State) : Option Nat :=
  if grpBytes s.t0 && grpInt s.t1 then some (min (lanesOf s.t0) (lanesOf s.t1)) else none

def execVgth (vd va : BitVec 5) (k : BitVec 3) (la : BitVec 1) (s : State) : Host.Outcome State Fault Refusal :=
  issueAlways s fun s => do
    match s.gatherCount with
    | none => limitTrap s
    | some e =>
      let w := typeWidth s.t0
      let m := s.mask e
      if s.badPattern then limitTrap s
      let (x, s1) ← s.readA va.toNat [m.any id] la
      let (l, f, s2) ← s1.gather (w / 8) (s.gatherAddrs k m x)
      match f with
      | none => return s2.result vd.toNat 1 w (placed e l)
      | some (i, t) =>
        let s3 := if l.isEmpty then s2 else s2.mergeV (s.iss.old.phys (s.iss.here.toNat % 2048) vd.toNat) w (placed e l)
        .error (.trap t (some (s3.stopAt i)))

/-- Elements acted on one by one in increasing order; a fault leaves those below it done. -/
def State.scatter (s : State) (f : State → Nat → Nat → Except Stop State) : List (Nat × Nat) → Except Stop State
  | [] => .ok s
  | (i, a) :: r =>
    match f s i a with
    | .error (.trap t _) => .error (.trap t (some (s.stopAt i)))
    | .error w => .error w
    | .ok t => t.scatter f r

/-- A scatter: index operand, data from vd, and what an element does. -/
def scatterOrder (pre : State → Nat → List (Nat × Nat) → Except Stop Unit) (f : Nat → Nat → State → Nat → Nat → Nat → Except Stop State) (rounds : Bool)
    (vd va : BitVec 5) (k : BitVec 3) (la : BitVec 1) (s : State) : Host.Outcome State Fault Refusal :=
  issueAlways s fun s => do
    match s.gatherCount with
    | none => limitTrap s
    | some e =>
      if s.badPattern || (rounds && grpFloat s.t0 && s.badMode) then limitTrap s
      let w := typeWidth s.t0
      let m := s.mask e
      let (x, s1) ← s.readA va.toNat [m.any id] la
      let (d, s2) ← s1.readB vd.toNat [m.any id] 0
      let data := elems w e d
      let l := s.gatherAddrs k m x
      pre s2 (w / 8) l
      s2.scatter (fun t i a => f s.t0 (w / 8) t i a (data.getD i 0)) l

def execVsct (vd va : BitVec 5) (k : BitVec 3) (la : BitVec 1) (s : State) : Host.Outcome State Fault Refusal :=
  scatterOrder (fun _ _ _ => .ok ()) (fun _ n t _ a v => do elementOk a n; t.storeBytes a (leBytes n v) (classBit 14)) false vd va k la s

/-! ### Updates in memory (R291, R292) -/

/-- Wait while an element lies behind a watermark; poison is met element by element. -/
def State.awaitElements (s : State) (n : Nat) : List (Nat × Nat) → Except Stop Unit
  | [] => .ok ()
  | (_, a) :: r =>
    match s.meetsRead a n with
    | .stall t => s.stallRead a n t
    | _ => do
      match s.reach .atomic a n with
      | .ok ps => s.checkOwned ps a n
      | .error _ => pure ()
      s.awaitElements n r

/-- Where an atomic on one element lands: host memory accepts none (R291). -/
def State.atomicPlace (s : State) (a n : Nat) : Except Stop (List (Loc × Nat × Nat)) := do
  elementOk a n
  let ps ← s.reach .atomic a n
  if ps.any fun p => p.1.home == 2 then raise .permission 11
  s.checkRead a n
  s.checkOwned ps a n
  return ps

/-- One element updated in memory: its old bits, and the state with the flags of the update. -/
def State.updateElement (s : State) (a n : Nat) (f : Nat → Elem) : Except Stop (Nat × State) := do
  let ps ← s.atomicPlace a n
  let old := leNat (s.readPieces ps)
  let (v, g) := f old
  return (old, ((s.ledAll ps).writePieces ps (leBytes n v)).flag g)

/-- vsctadd: every duplicate is added, each with its own rounding. -/
def execVsctadd (vd va : BitVec 5) (k : BitVec 3) (la : BitVec 1) (s : State) : Host.Outcome State Fault Refusal :=
  scatterOrder (fun t n l => t.awaitElements n l)
    (fun ty n t i a v => do
      let (_, u) ← t.updateElement a n fun old => addElem (tyOf ty) (s.vround i) old v
      return u.noteUnrepeatable) true vd va k la s

/-- Elements updated one by one: their old bits. -/
def State.updateAll (s : State) (n : Nat) (f : Nat → Nat → Elem) : List (Nat × Nat) → Except Stop (List (Nat × Nat) × State)
  | [] => .ok ([], s)
  | (i, a) :: r => do
    let (v, t) ← s.updateElement a n (f i)
    let (l, u) ← t.updateAll n f r
    return ((i, v) :: l, u)

/-- A vector atomic on contiguous elements; every page is checked before any element (R292). -/
def atomicOrder (rounds : Bool) (f : Ty → Rounding → Nat → Nat → Elem) (note : Bool) (vd va : BitVec 5) (k : BitVec 3) (la : BitVec 1)
    (s : State) : Host.Outcome State Fault Refusal :=
  issueAlways s fun s => do
    if s.badType grpBytes rounds then limitTrap s
    let w := typeWidth s.t0
    let n := lanesOf s.t0
    let m := s.mask n
    let (x, s1) ← s.readA va.toNat [m.any id] la
    if !m.any id then return s1.result vd.toNat 1 w (m.map fun _ => none)
    let a := s.streamBase k
    let l := (activeAt m).map fun (j : Nat) => (j, addrAt a (j * (w / 8) : Nat))
    s1.checkPieces (flatPieces w a m) (w / 8) [a] .atomic
    s1.awaitElements (w / 8) l
    l.forM fun p => (s1.atomicPlace p.2 (w / 8)).map fun _ => ()
    let ops := elems w n x
    let (old, s2) ← s1.updateAll (w / 8) (fun i o => f (tyOf s.t0) (s.vround i) o (ops.getD i 0)) l
    return (if note then s2.noteUnrepeatable else s2).result vd.toNat 1 w (placed n old)

def execVaadd (vd va : BitVec 5) (k : BitVec 3) (la : BitVec 1) (s : State) : Host.Outcome State Fault Refusal :=
  atomicOrder true addElem true vd va k la s
def execVamax (vd va : BitVec 5) (k : BitVec 3) (la : BitVec 1) (s : State) : Host.Outcome State Fault Refusal :=
  atomicOrder false (fun t _ => pick true t) false vd va k la s

end Sys2Proof.Machine
end

