-- ==== Sys2Proof/Machine/VectorMove.lean ====
section
/-! DEFINITION. Moves and engine control, major 0x29 (13_vector R286, R287). -/

namespace Sys2Proof.Machine

def execVmov (vd va : BitVec 5) (la : BitVec 1) (s : State) : Host.Outcome State Fault Refusal := bitOrder1 grpAllQ (fun _ a => a) vd va la s

/-- vsplat. -/
def execVsplat (vd : BitVec 5) (k : BitVec 3) (s : State) : Host.Outcome State Fault Refusal :=
  issueAlways s fun s =>
    if s.badType grpAll false then limitTrap s
    else
      let w := typeWidth s.t0
      .ok (s.result vd.toNat 1 w ((s.mask (lanesOf s.t0)).map fun b => if b then some ((s.es k).toNat % 2 ^ w) else none))

/-- vtype: from the next step on (R66). -/
def execVtype (t0 t1 : BitVec 4) (sat : BitVec 1) (rm : BitVec 3) (s : State) : Host.Outcome State Fault Refusal :=
  issue s fun s =>
    .ok (s.setCur { s.cur with vtype := .ofNat 64 (t0.toNat + t1.toNat * 2 ^ 4 + rm.toNat * 2 ^ 8 + sat.toNat * 2 ^ 11) })

/-- vwin: from the next step on. -/
def execVwin (base : BitVec 10) (s : State) : Host.Outcome State Fault Refusal :=
  issue s fun s => .ok (s.setCur { s.cur with base := base.toNat })

/-- vidx: a conversion of each index into T0. No operand gives its TFMT.FA: a free value (log 2). -/
def execVidx (vd : BitVec 5) (s : State) : Host.Outcome State Fault Refusal :=
  issueAlways s fun s => do
    if s.badType grpAll true then limitTrap s
    let res := List.zipWith (fun (b : Bool) j =>
      if b then some (match tyOf s.t0 with
        | .fp f => roundTo f (s.vround j) (.num (ofInt (j : Int)))
        | .int i => (i.wrap (j : Int), 0)) else none) (s.mask (lanesOf s.t0)) (List.range (lanesOf s.t0))
    let (fa, s1) := s.freeBits 4
    s1.finishV vd.toNat 1 s.t0 (fmtOf fa 0xF s.t0) res

/-- The two rows of an accumulator tile that an order names: row numbers. -/
def State.accRows (s : State) (k : BitVec 3) : Nat := 2 * (bits (s.es k).toNat 4 0)

/-- vaccrd and vaccrd.snap: 128 elements of 32 bits; both return the tile as it stands. -/
def execVaccrd (vd : BitVec 5) (acc : BitVec 4) (_snap : BitVec 1) (k : BitVec 3) (s : State) : Host.Outcome State Fault Refusal :=
  issueAlways s fun s =>
    if s.noAcc acc then limitTrap s
    else
      let r := s.accRows k
      let row := fun (i : Nat) => elems 32 64 (s.iss.oldAcc.get 0 (acc.toNat, i)).toNat
      .ok (s.result vd.toNat 1 32 (List.zipWith (fun (b : Bool) x => if b then some x else none) (s.mask 128) (row r ++ row (r + 1))))

/-- A row of a tile with its unmasked elements replaced. -/
def State.mergeAcc (s : State) (acc row : Nat) (res : List (Option Nat)) : State :=
  let k := s.myCore
  s.setMyCore { k with acc := k.acc.set (acc, row) (.ofNat 2048 (mergeElems 32 res (k.acc.get 0 (acc, row)).toNat)) }

/-- The tile and the rows of it that an order of M which has not ended accumulates into (13_vector R271). -/
def State.accumulating (s : State) : Option (Nat × Nat) :=
  match s.parked.find? (fun e => decide (e.1 = .seq s.myCoreNo sqM)) with
  | some (_, i) =>
    let rows (d : BitVec 4) := min 64 (bits (i.oldMd.get 0 d.toNat).toNat 111 96)
    match i.rest with
    | (_, .mmf _ acc da _ _) :: _ | (_, .mmb _ acc da _ _ _) :: _ | (_, .mmfs _ acc da _ _) :: _ | (_, .mmbs _ acc da _ _ _) :: _ => some (acc.toNat, rows da)
    | (_, .mmfg _ acc _ db _) :: _ => some (acc.toNat, rows db)
    | (_, .mmw _ acc _ _ _ _) :: _ => some (acc.toNat, 64)
    | _ => none
  | none => none

/-- What a row of a tile gets where an order of M accumulates into it: values that the spec leaves undefined (13_vector R271). -/
def State.sharedRow (s : State) (acc row : Nat) (res : List (Option Nat)) : List (Option Nat) × State :=
  match s.accumulating with
  | some (a, n) =>
    if a = acc ∧ row < n then
      let (v, t) := s.freeBits 2048
      (List.zipWith (fun e x => e.map fun _ => x) res (elems 32 64 v), t)
    else (res, s)
  | none => (res, s)

/-- vaccwr: masked elements of the tile are kept; elements that an order of M accumulates into get undefined values. -/
def execVaccwr (acc : BitVec 4) (va : BitVec 5) (k : BitVec 3) (la : BitVec 1) (s : State) : Host.Outcome State Fault Refusal :=
  issueAlways s fun s => do
    if s.noAcc acc || s.badPattern then limitTrap s
    let m := s.mask 128
    let (a, s1) ← s.readA va.toNat [m.any id] la
    let res := List.zipWith (fun (b : Bool) x => if b then some x else none) m (elems 32 128 a)
    let (lo, s2) := s1.sharedRow acc.toNat (s.accRows k) (res.take 64)
    let (hi, s3) := s2.sharedRow acc.toNat (s.accRows k + 1) (res.drop 64)
    return (s3.mergeAcc acc.toNat (s.accRows k) lo).mergeAcc acc.toNat (s.accRows k + 1) hi

/-- vtos: one element to an engine scalar register. -/
def execVtos (j : BitVec 3) (va : BitVec 5) (k : BitVec 3) (la : BitVec 1) (s : State) : Host.Outcome State Fault Refusal :=
  issueAlways s fun s => do
    if s.badType grpAll false then limitTrap s
    if !s.acts then return s
    let n := lanesOf s.t0
    let (a, s1) ← s.readA va.toNat [true] la
    return s1.wrEs j (esValue s.t0 ((elems (typeWidth s.t0) n a).getD ((s.es k).toNat % n) 0))

/-- vdead: a group marked dead. -/
def execVdead (vd nm1 : BitVec 5) (s : State) : Host.Outcome State Fault Refusal :=
  issue s fun s =>
    let k := s.myCore
    let rs := (List.range (nm1.toNat + 1)).map fun i => s.iss.old.phys (s.iss.here.toNat % 2048) (vd.toNat + i)
    let t := s.setMyCore { k with live := rs.foldl (fun (m : Map Nat Bool) r => m.set r false) k.live }
    .ok { t with iss := { t.iss with marks := t.iss.marks ++ rs } }

end Sys2Proof.Machine
end

