-- ==== Sys2Proof/Machine/VectorPred.lean ====
section
/-! DEFINITION. Vector compares and predicate moves, major 0x24 (13_vector R278, R279). -/

namespace Sys2Proof.Machine

/-- A mask as a predicate entry, bit 0 first. -/
def entryOf (m : List Bool) : BitVec 1024 := .ofNat 1024 (packElems 1 (m.map fun b => if b then 1 else 0))

/-- What a compare finds of two elements, and its flags. -/
def comparing (fp : Num → Num → Bool × BitVec 8) (int : Int → Int → Bool) (t : Ty) (a b : Nat) : Bool × BitVec 8 :=
  match t with
  | .fp f => fp (f.num a) (f.num b)
  | .int i => (int (i.int a) (i.int b), 0)

/-- A compare: a masked element is false and sets no flag (R278, 02_numbers R50). -/
def compareOrder (f : Ty → Nat → Nat → Bool × BitVec 8) (va vb : BitVec 5) (la lb : BitVec 1) (two : Bool) (s : State) :
    Host.Outcome State Fault Refusal :=
  issueAlways s fun s => do
    if s.badType grpAll false then limitTrap s
    let w := typeWidth s.t0
    let n := lanesOf s.t0
    let m := s.mask n
    let (a, s1) ← s.readA va.toNat [m.any id] la
    let (b, s2) ← if two then s1.readB vb.toNat [m.any id] lb else .ok (a, s1)
    let l := elems w n a
    let res := mapLanes (fun _ _ x y => let (c, g) := f (tyOf s.t0) x y; (if c then 1 else 0, g)) 0 m l l (elems w n b)
    (s2.flag (flagsOf res)).push (entryOf (res.map fun e => match e with | some (1, _) => true | _ => false))

/-- Flags of a compare that a NaN makes false: quiet ones set NV for a signalling NaN only. -/
def nanFlag (quiet : Bool) (a b : Num) : BitVec 8 := if a.isSig || b.isSig || (!quiet && (a.isNaN || b.isNaN)) then fNV else 0

def execVpeq (va vb : BitVec 5) (la lb : BitVec 1) (s : State) : Host.Outcome State Fault Refusal :=
  compareOrder (comparing (fun a b => (!a.isNaN && !b.isNaN && eqNum a b, nanFlag true a b)) (fun a b => decide (a = b))) va vb la lb true s
def execVpne (va vb : BitVec 5) (la lb : BitVec 1) (s : State) : Host.Outcome State Fault Refusal :=
  compareOrder (comparing (fun a b => (a.isNaN || b.isNaN || !eqNum a b, nanFlag true a b)) (fun a b => decide (a ≠ b))) va vb la lb true s
def execVplt (va vb : BitVec 5) (la lb : BitVec 1) (s : State) : Host.Outcome State Fault Refusal :=
  compareOrder (comparing (fun a b => (!a.isNaN && !b.isNaN && ltNum a b, nanFlag false a b)) (fun a b => decide (a < b))) va vb la lb true s
def execVple (va vb : BitVec 5) (la lb : BitVec 1) (s : State) : Host.Outcome State Fault Refusal :=
  compareOrder (comparing (fun a b => (!a.isNaN && !b.isNaN && !ltNum b a, nanFlag false a b)) (fun a b => decide (a ≤ b))) va vb la lb true s

/-- vpnan: a signalling NaN that it finds sets no flag: its table gives none. -/
def execVpnan (va : BitVec 5) (la : BitVec 1) (s : State) : Host.Outcome State Fault Refusal :=
  compareOrder (comparing (fun a _ => (a.isNaN, 0)) (fun _ _ => false)) va 0 la 0 false s
def execVpfin (va : BitVec 5) (la : BitVec 1) (s : State) : Host.Outcome State Fault Refusal :=
  compareOrder (comparing (fun a _ => (!a.isNaN && !a.isInf, 0)) (fun _ _ => true)) va 0 la 0 false s

/-- vpld: a saved entry, not combined with the top (R279). -/
def execVpld (va : BitVec 5) (la : BitVec 1) (s : State) : Host.Outcome State Fault Refusal :=
  issueAlways s fun s => do
    if s.badPattern then limitTrap s
    if 8 ≤ s.cur.stack.length then raise .predOverflow
    let (a, s1) ← s.readA va.toNat [true] la
    return s1.setCur { s1.cur with stack := .ofNat 1024 a :: s1.cur.stack }

/-- vpst: the top entry in the low 1,024 bits, whatever it holds. -/
def execVpst (vd : BitVec 5) (s : State) : Host.Outcome State Fault Refusal :=
  issueAlways s fun s =>
    let p := s.iss.old.phys (s.iss.here.toNat % 2048) vd.toNat
    .ok ((s.writeV p s.topNat 1).enterRing p)

end Sys2Proof.Machine
end

