-- ==== Sys2Proof/Machine/Dispatch.lean ====
section
/-! DEFINITION. The meaning of each instruction, one arm for each constructor of Instr. -/

namespace Sys2Proof.Machine

/-- The meaning of an instruction or step. -/
def exec (i : Instr) (s : State) : Host.Outcome State Fault Refusal :=
  match i with
  | .nop _ => Sys2Proof.Machine.execNop s
  | .lpat kind k => Sys2Proof.Machine.execLpat kind k s
  | .halt _ => Sys2Proof.Machine.execHalt s
  | .brk _ code => Sys2Proof.Machine.execBrk code s
  | .trap _ code => Sys2Proof.Machine.execTrap code s
  | .tok _ n => Sys2Proof.Machine.execTok n s
  | .pause _ t => Sys2Proof.Machine.execPause t s
  | .loop _ n len count => Sys2Proof.Machine.execLoop n len count s
  | .loopR _ n len => Sys2Proof.Machine.execLoopR n len s
  | .loopp _ n p d len => Sys2Proof.Machine.execLoopp n p d len s
  | .loopr _ n sm1 len => Sys2Proof.Machine.execLoopr n sm1 len s
  | .sj _ off => Sys2Proof.Machine.execSj off s
  | .sjp _ off => Sys2Proof.Machine.execSjp off s
  | .pelse _ => Sys2Proof.Machine.execPelse s
  | .ptrue _ => Sys2Proof.Machine.execPtrue s
  | .semset _ n v => Sys2Proof.Machine.execSemset n v s
  | .semadd _ n d => Sys2Proof.Machine.execSemadd n d s
  | .semwait _ n v => Sys2Proof.Machine.execSemwait n v s
  | .twany _ half mask => Sys2Proof.Machine.execTwany half mask s
  | .twall _ half mask => Sys2Proof.Machine.execTwall half mask s
  | .tffr _ half mask => Sys2Proof.Machine.execTffr half mask s
  | .add sd sa sb => Sys2Proof.Machine.execAdd sd sa sb s
  | .sub sd sa sb => Sys2Proof.Machine.execSub sd sa sb s
  | .and sd sa sb => Sys2Proof.Machine.execAnd sd sa sb s
  | .or sd sa sb => Sys2Proof.Machine.execOr sd sa sb s
  | .xor sd sa sb => Sys2Proof.Machine.execXor sd sa sb s
  | .min sd sa sb u => Sys2Proof.Machine.execMin sd sa sb u s
  | .max sd sa sb u => Sys2Proof.Machine.execMax sd sa sb u s
  | .slt sd sa sb u => Sys2Proof.Machine.execSlt sd sa sb u s
  | .sel sd sa sb => Sys2Proof.Machine.execSel sd sa sb s
  | .addi sd sa imm => Sys2Proof.Machine.execAddi sd sa imm s
  | .andi sd sa imm => Sys2Proof.Machine.execAndi sd sa imm s
  | .ori sd sa imm => Sys2Proof.Machine.execOri sd sa imm s
  | .xori sd sa imm => Sys2Proof.Machine.execXori sd sa imm s
  | .slti sd sa imm => Sys2Proof.Machine.execSlti sd sa imm s
  | .sltiU sd sa imm => Sys2Proof.Machine.execSltiU sd sa imm s
  | .sll sd sa sb => Sys2Proof.Machine.execSll sd sa sb s
  | .sllImm sd sa n => Sys2Proof.Machine.execSllImm sd sa n s
  | .srl sd sa sb => Sys2Proof.Machine.execSrl sd sa sb s
  | .srlImm sd sa n => Sys2Proof.Machine.execSrlImm sd sa n s
  | .sra sd sa sb => Sys2Proof.Machine.execSra sd sa sb s
  | .sraImm sd sa n => Sys2Proof.Machine.execSraImm sd sa n s
  | .clz sd sa w => Sys2Proof.Machine.execClz sd sa w s
  | .ctz sd sa w => Sys2Proof.Machine.execCtz sd sa w s
  | .popc sd sa w => Sys2Proof.Machine.execPopc sd sa w s
  | .bext sd sa sb wm1 => Sys2Proof.Machine.execBext sd sa sb wm1 s
  | .bins sd sa sb wm1 => Sys2Proof.Machine.execBins sd sa sb wm1 s
  | .mul sd sa sb => Sys2Proof.Machine.execMul sd sa sb s
  | .mulh sd sa sb u => Sys2Proof.Machine.execMulh sd sa sb u s
  | .div sd sa sb u => Sys2Proof.Machine.execDiv sd sa sb u s
  | .rem sd sa sb u => Sys2Proof.Machine.execRem sd sa sb u s
  | .fadd sd sa sb rm d => Sys2Proof.Machine.execFadd sd sa sb rm d s
  | .fsub sd sa sb rm d => Sys2Proof.Machine.execFsub sd sa sb rm d s
  | .fmul sd sa sb rm d => Sys2Proof.Machine.execFmul sd sa sb rm d s
  | .fdiv sd sa sb rm d => Sys2Proof.Machine.execFdiv sd sa sb rm d s
  | .fsqrt sd sa rm d => Sys2Proof.Machine.execFsqrt sd sa rm d s
  | .fma sd sa sb rm d => Sys2Proof.Machine.execFma sd sa sb rm d s
  | .fcvt sd sa m rm d => Sys2Proof.Machine.execFcvt sd sa m rm d s
  | .peq sa sb => Sys2Proof.Machine.execPeq sa sb s
  | .pne sa sb => Sys2Proof.Machine.execPne sa sb s
  | .plt sa sb u => Sys2Proof.Machine.execPlt sa sb u s
  | .pge sa sb u => Sys2Proof.Machine.execPge sa sb u s
  | .pfeq sa sb d => Sys2Proof.Machine.execPfeq sa sb d s
  | .pflt sa sb d => Sys2Proof.Machine.execPflt sa sb d s
  | .pfle sa sb d => Sys2Proof.Machine.execPfle sa sb d s
  | .lis sd imm => Sys2Proof.Machine.execLis sd imm s
  | .lsh sd imm => Sys2Proof.Machine.execLsh sd imm s
  | .mfcr sd cr => Sys2Proof.Machine.execMfcr sd cr s
  | .mtcr sa cr => Sys2Proof.Machine.execMtcr sa cr s
  | .mtcrs sa cr => Sys2Proof.Machine.execMtcrs sa cr s
  | .mtcrc sa cr => Sys2Proof.Machine.execMtcrc sa cr s
  | .ld sd sa oc sz off => Sys2Proof.Machine.execLd sd sa oc sz off s
  | .ldu sd sa oc sz off => Sys2Proof.Machine.execLdu sd sa oc sz off s
  | .st sd sa oc sz off => Sys2Proof.Machine.execSt sd sa oc sz off s
  | .aadd sd sa sb cls scope d => Sys2Proof.Machine.execAadd sd sa sb cls scope d s
  | .aand sd sa sb cls scope d => Sys2Proof.Machine.execAand sd sa sb cls scope d s
  | .aor sd sa sb cls scope d => Sys2Proof.Machine.execAor sd sa sb cls scope d s
  | .axor sd sa sb cls scope d => Sys2Proof.Machine.execAxor sd sa sb cls scope d s
  | .amin sd sa sb cls scope u d => Sys2Proof.Machine.execAmin sd sa sb cls scope u d s
  | .amax sd sa sb cls scope u d => Sys2Proof.Machine.execAmax sd sa sb cls scope u d s
  | .aswp sd sa sb cls scope d => Sys2Proof.Machine.execAswp sd sa sb cls scope d s
  | .acas sd sa sb cls scope d => Sys2Proof.Machine.execAcas sd sa sb cls scope d s
  | .fence mask scope => Sys2Proof.Machine.execFence mask scope s
  | .lda sd sa sb sz scope => Sys2Proof.Machine.execLda sd sa sb sz scope s
  | .stl sd sa sb sz scope => Sys2Proof.Machine.execStl sd sa sb sz scope s
  | .syncw mask => Sys2Proof.Machine.execSyncw mask s
  | .bzeq sa off => Sys2Proof.Machine.execBzeq sa off s
  | .bzne sa off => Sys2Proof.Machine.execBzne sa off s
  | .bzlt sa off => Sys2Proof.Machine.execBzlt sa off s
  | .bzge sa off => Sys2Proof.Machine.execBzge sa off s
  | .bzgt sa off => Sys2Proof.Machine.execBzgt sa off s
  | .bzle sa off => Sys2Proof.Machine.execBzle sa off s
  | .bpt off => Sys2Proof.Machine.execBpt off s
  | .bpf off => Sys2Proof.Machine.execBpf off s
  | .jal sd off => Sys2Proof.Machine.execJal sd off s
  | .jalr sd sa => Sys2Proof.Machine.execJalr sd sa s
  | .jr sa => Sys2Proof.Machine.execJr sa s
  | .tload sd sa e => Sys2Proof.Machine.execTload sd sa e s
  | .tstart sa e => Sys2Proof.Machine.execTstart sa e s
  | .tstop e => Sys2Proof.Machine.execTstop e s
  | .tbase sd sa e => Sys2Proof.Machine.execTbase sd sa e s
  | .tset sa n e => Sys2Proof.Machine.execTset sa n e s
  | .tget sd n e => Sys2Proof.Machine.execTget sd n e s
  | .twidle e => Sys2Proof.Machine.execTwidle e s
  | .qput sd sa sb => Sys2Proof.Machine.execQput sd sa sb s
  | .qputNb sd sa sb => Sys2Proof.Machine.execQputNb sd sa sb s
  | .qtake sd => Sys2Proof.Machine.execQtake sd s
  | .qsteal sd => Sys2Proof.Machine.execQsteal sd s
  | .qstealRank sd sa => Sys2Proof.Machine.execQstealRank sd sa s
  | .qcommit sd => Sys2Proof.Machine.execQcommit sd s
  | .qdone sd sa sb => Sys2Proof.Machine.execQdone sd sa sb s
  | .barr sd => Sys2Proof.Machine.execBarr sd s
  | .barw sa => Sys2Proof.Machine.execBarw sa s
  | .fstop sd sa => Sys2Proof.Machine.execFstop sd sa s
  | .txinit sa sb => Sys2Proof.Machine.execTxinit sa sb s
  | .txexp sa sb => Sys2Proof.Machine.execTxexp sa sb s
  | .txarr sd sa sb => Sys2Proof.Machine.execTxarr sd sa sb s
  | .txwait sa sb => Sys2Proof.Machine.execTxwait sa sb s
  | .rft => Sys2Proof.Machine.execRft s
  | .scall sd sa sb => Sys2Proof.Machine.execScall sd sa sb s
  | .wfe sd sa => Sys2Proof.Machine.execWfe sd sa s
  | .sev sa => Sys2Proof.Machine.execSev sa s
  | .rdcnt sd n => Sys2Proof.Machine.execRdcnt sd n s
  | .pinvCtx sa => Sys2Proof.Machine.execPinvCtx sa s
  | .pinvRange sa sb => Sys2Proof.Machine.execPinvRange sa sb s
  | .pinvAll => Sys2Proof.Machine.execPinvAll s
  | .rminvCtx sa => Sys2Proof.Machine.execRminvCtx sa s
  | .rminvRange sa sb => Sys2Proof.Machine.execRminvRange sa sb s
  | .rminvAll => Sys2Proof.Machine.execRminvAll s
  | .ctxsv sd sa => Sys2Proof.Machine.execCtxsv sd sa s
  | .ctxld sa => Sys2Proof.Machine.execCtxld sa s
  | .bsclaim sa n => Sys2Proof.Machine.execBsclaim sa n s
  | .bsrel => Sys2Proof.Machine.execBsrel s
  | .bsin tag sa sb lz => Sys2Proof.Machine.execBsin tag sa sb lz s
  | .bsout tag sa sb sx lz => Sys2Proof.Machine.execBsout tag sa sb sx lz s
  | .bslog sa op => Sys2Proof.Machine.execBslog sa op s
  | .bsadd sa sb sg sat k => Sys2Proof.Machine.execBsadd sa sb sg sat k s
  | .bssub sa sb sg sat k => Sys2Proof.Machine.execBssub sa sb sg sat k s
  | .bscmp sa sb k sg cond => Sys2Proof.Machine.execBscmp sa sb k sg cond s
  | .bssel sa => Sys2Proof.Machine.execBssel sa s
  | .bsinc sa => Sys2Proof.Machine.execBsinc sa s
  | .bsmin sa sb sg k => Sys2Proof.Machine.execBsmin sa sb sg k s
  | .bspop sa => Sys2Proof.Machine.execBspop sa s
  | .bsshf sa rot dn => Sys2Proof.Machine.execBsshf sa rot dn s
  | .bswait => Sys2Proof.Machine.execBswait s
  | .fork tag sa sb p => Sys2Proof.Machine.execFork tag sa sb p s
  | .join tag sa => Sys2Proof.Machine.execJoin tag sa s
  | .mbput tag sa => Sys2Proof.Machine.execMbput tag sa s
  | .mbget tag sa => Sys2Proof.Machine.execMbget tag sa s
  | .pbind sa u => Sys2Proof.Machine.execPbind sa u s
  | .pstrm sa sb u => Sys2Proof.Machine.execPstrm sa sb u s
  | .prun sa u => Sys2Proof.Machine.execPrun sa u s
  | .pchain sa u => Sys2Proof.Machine.execPchain sa u s
  | .prcpy sa sb b => Sys2Proof.Machine.execPrcpy sa sb b s
  | .przero sa => Sys2Proof.Machine.execPrzero sa s
  | .pflush u => Sys2Proof.Machine.execPflush u s
  | .xbkt tag sa => Sys2Proof.Machine.execXbkt tag sa s
  | .xa2a tag sa => Sys2Proof.Machine.execXa2a tag sa s
  | .xput tag sa => Sys2Proof.Machine.execXput tag sa s
  | .xget tag sa => Sys2Proof.Machine.execXget tag sa s
  | .xamo tag sa => Sys2Proof.Machine.execXamo tag sa s
  | .xsig tag sa sb => Sys2Proof.Machine.execXsig tag sa sb s
  | .xwait tag sa => Sys2Proof.Machine.execXwait tag sa s
  | .gbag tag sa => Sys2Proof.Machine.execGbag tag sa s
  | .grow tag sa => Sys2Proof.Machine.execGrow tag sa s
  | .supd tag sa => Sys2Proof.Machine.execSupd tag sa s
  | .scommit tag sa sb => Sys2Proof.Machine.execScommit tag sa sb s
  | .skq tag sa => Sys2Proof.Machine.execSkq tag sa s
  | .vadd _ vd va vb la lb => Sys2Proof.Machine.execVadd vd va vb la lb s
  | .vsub _ vd va vb la lb => Sys2Proof.Machine.execVsub vd va vb la lb s
  | .vmul _ vd va vb la lb => Sys2Proof.Machine.execVmul vd va vb la lb s
  | .vfma _ vd va vb la lb => Sys2Proof.Machine.execVfma vd va vb la lb s
  | .vfms _ vd va vb la lb => Sys2Proof.Machine.execVfms vd va vb la lb s
  | .vdiv _ vd va vb la lb => Sys2Proof.Machine.execVdiv vd va vb la lb s
  | .vsqrt _ vd va la => Sys2Proof.Machine.execVsqrt vd va la s
  | .vmin _ vd va vb la lb => Sys2Proof.Machine.execVmin vd va vb la lb s
  | .vmax _ vd va vb la lb => Sys2Proof.Machine.execVmax vd va vb la lb s
  | .vabs _ vd va la => Sys2Proof.Machine.execVabs vd va la s
  | .vneg _ vd va la => Sys2Proof.Machine.execVneg vd va la s
  | .vfmaw _ vd va vb la lb => Sys2Proof.Machine.execVfmaw vd va vb la lb s
  | .vmulw _ vd va vb la lb => Sys2Proof.Machine.execVmulw vd va vb la lb s
  | .vaddw _ vd va vb la lb => Sys2Proof.Machine.execVaddw vd va vb la lb s
  | .vadds _ vd va vb la lb => Sys2Proof.Machine.execVadds vd va vb la lb s
  | .vsubs _ vd va vb la lb => Sys2Proof.Machine.execVsubs vd va vb la lb s
  | .vmulh _ vd va vb la lb => Sys2Proof.Machine.execVmulh vd va vb la lb s
  | .vdot4 _ vd va vb la lb => Sys2Proof.Machine.execVdot4 vd va vb la lb s
  | .vand _ vd va vb la lb => Sys2Proof.Machine.execVand vd va vb la lb s
  | .vor _ vd va vb la lb => Sys2Proof.Machine.execVor vd va vb la lb s
  | .vxor _ vd va vb la lb => Sys2Proof.Machine.execVxor vd va vb la lb s
  | .vnot _ vd va la => Sys2Proof.Machine.execVnot vd va la s
  | .vsll _ vd va vb la lb => Sys2Proof.Machine.execVsll vd va vb la lb s
  | .vsrl _ vd va vb la lb => Sys2Proof.Machine.execVsrl vd va vb la lb s
  | .vsra _ vd va vb la lb => Sys2Proof.Machine.execVsra vd va vb la lb s
  | .vpopc _ vd va la => Sys2Proof.Machine.execVpopc vd va la s
  | .vpeq _ va vb la lb => Sys2Proof.Machine.execVpeq va vb la lb s
  | .vpne _ va vb la lb => Sys2Proof.Machine.execVpne va vb la lb s
  | .vplt _ va vb la lb => Sys2Proof.Machine.execVplt va vb la lb s
  | .vple _ va vb la lb => Sys2Proof.Machine.execVple va vb la lb s
  | .vpnan _ va la => Sys2Proof.Machine.execVpnan va la s
  | .vpfin _ va la => Sys2Proof.Machine.execVpfin va la s
  | .vpld _ va la => Sys2Proof.Machine.execVpld va la s
  | .vpst _ vd => Sys2Proof.Machine.execVpst vd s
  | .vcvt _ vd va la => Sys2Proof.Machine.execVcvt vd va la s
  | .vcvtsr _ vd va k la => Sys2Proof.Machine.execVcvtsr vd va k la s
  | .vqblk _ vd va la => Sys2Proof.Machine.execVqblk vd va la s
  | .vdqblk _ vd va la => Sys2Proof.Machine.execVdqblk vd va la s
  | .vwid _ vd va la => Sys2Proof.Machine.execVwid vd va la s
  | .vnarr _ vd va la => Sys2Proof.Machine.execVnarr vd va la s
  | .vrcp _ vd va la => Sys2Proof.Machine.execVrcp vd va la s
  | .vrsqrt _ vd va la => Sys2Proof.Machine.execVrsqrt vd va la s
  | .vexp _ vd va la => Sys2Proof.Machine.execVexp vd va la s
  | .vlog _ vd va la => Sys2Proof.Machine.execVlog vd va la s
  | .vtanh _ vd va la => Sys2Proof.Machine.execVtanh vd va la s
  | .vsigm _ vd va la => Sys2Proof.Machine.execVsigm vd va la s
  | .vperm _ vd va vb la lb => Sys2Proof.Machine.execVperm vd va vb la lb s
  | .vcomp _ vd va m k la => Sys2Proof.Machine.execVcomp vd va m k la s
  | .vexpd _ vd va la => Sys2Proof.Machine.execVexpd vd va la s
  | .vpart _ vd va k la => Sys2Proof.Machine.execVpart vd va k la s
  | .vslide _ vd va k la => Sys2Proof.Machine.execVslide vd va k la s
  | .vzip _ vd va vb la lb => Sys2Proof.Machine.execVzip vd va vb la lb s
  | .vunzip _ vd va la => Sys2Proof.Machine.execVunzip vd va la s
  | .vbcast _ vd va k la => Sys2Proof.Machine.execVbcast vd va k la s
  | .vredsum _ vd va k la => Sys2Proof.Machine.execVredsum vd va k la s
  | .vredmax _ vd va k la => Sys2Proof.Machine.execVredmax vd va k la s
  | .vredmin _ vd va k la => Sys2Proof.Machine.execVredmin vd va k la s
  | .vscan _ vd va la => Sys2Proof.Machine.execVscan vd va la s
  | .vsegsum _ vd va vb la lb => Sys2Proof.Machine.execVsegsum vd va vb la lb s
  | .vmov _ vd va la => Sys2Proof.Machine.execVmov vd va la s
  | .vsplat _ vd k => Sys2Proof.Machine.execVsplat vd k s
  | .vtype _ t0 t1 sat rm => Sys2Proof.Machine.execVtype t0 t1 sat rm s
  | .vwin _ base => Sys2Proof.Machine.execVwin base s
  | .vidx _ vd => Sys2Proof.Machine.execVidx vd s
  | .vaccrd _ vd acc snap k => Sys2Proof.Machine.execVaccrd vd acc snap k s
  | .vaccwr _ acc va k la => Sys2Proof.Machine.execVaccwr acc va k la s
  | .vtos _ j va k la => Sys2Proof.Machine.execVtos j va k la s
  | .vdead _ vd nm1 => Sys2Proof.Machine.execVdead vd nm1 s
  | .vld _ vd as_ oc inc => Sys2Proof.Machine.execVld vd as_ oc inc s
  | .vlds _ vd as_ oc inc => Sys2Proof.Machine.execVlds vd as_ oc inc s
  | .vldq _ vd as_ oc inc => Sys2Proof.Machine.execVldq vd as_ oc inc s
  | .vst _ vd as_ oc inc lu => Sys2Proof.Machine.execVst vd as_ oc inc lu s
  | .vsts _ vd as_ oc inc lu => Sys2Proof.Machine.execVsts vd as_ oc inc lu s
  | .vstq _ vd as_ oc inc lu => Sys2Proof.Machine.execVstq vd as_ oc inc lu s
  | .vgth _ vd va k la => Sys2Proof.Machine.execVgth vd va k la s
  | .vsct _ vd va k la => Sys2Proof.Machine.execVsct vd va k la s
  | .vsctadd _ vd va k la => Sys2Proof.Machine.execVsctadd vd va k la s
  | .vaadd _ vd va k la => Sys2Proof.Machine.execVaadd vd va k la s
  | .vamax _ vd va k la => Sys2Proof.Machine.execVamax vd va k la s
  | .mwld _ da db => Sys2Proof.Machine.execMwld da db s
  | .mwsp _ da db => Sys2Proof.Machine.execMwsp da db s
  | .mmf _ acc da db z => Sys2Proof.Machine.execMmf acc da db z s
  | .mmfg _ acc da db z => Sys2Proof.Machine.execMmfg acc da db z s
  | .mmb _ acc da db z ks => Sys2Proof.Machine.execMmb acc da db z ks s
  | .mmw _ acc da db z ks => Sys2Proof.Machine.execMmw acc da db z ks s
  | .mmfs _ acc da db z => Sys2Proof.Machine.execMmfs acc da db z s
  | .mmbs _ acc da db z ks => Sys2Proof.Machine.execMmbs acc da db z ks s
  | .macz _ acc => Sys2Proof.Machine.execMacz acc s
  | .macst _ acc da sat rm => Sys2Proof.Machine.execMacst acc da sat rm s
  | .macld _ acc da => Sys2Proof.Machine.execMacld acc da s
  | .mdset _ da word n => Sys2Proof.Machine.execMdset da word n s
  | .mdld _ da cm1 n => Sys2Proof.Machine.execMdld da cm1 n s
  | .mrpg _ n => Sys2Proof.Machine.execMrpg n s
  | .fcpy _ tag fd oc => Sys2Proof.Machine.execFcpy tag fd oc s
  | .fcpyz _ tag fd oc => Sys2Proof.Machine.execFcpyz tag fd oc s
  | .fcpym _ tag fd oc => Sys2Proof.Machine.execFcpym tag fd oc s
  | .fprf _ fd oc => Sys2Proof.Machine.execFprf fd oc s
  | .fwait _ tag sw n => Sys2Proof.Machine.execFwait tag sw n s
  | .fwaitr _ tag => Sys2Proof.Machine.execFwaitr tag s
  | .fcan _ tag => Sys2Proof.Machine.execFcan tag s
  | .fres _ tag => Sys2Proof.Machine.execFres tag s
  | .fwm _ tag n => Sys2Proof.Machine.execFwm tag n s
  | .fdld _ cm1 fd n => Sys2Proof.Machine.execFdld cm1 fd n s
  | .fdset _ word fd n => Sys2Proof.Machine.execFdset word fd n s
  | .rclaim _ fd oc q h => Sys2Proof.Machine.execRclaim fd oc q h s
  | .rpub _ oc q h => Sys2Proof.Machine.execRpub oc q h s
  | .rwfill _ fd oc q h => Sys2Proof.Machine.execRwfill fd oc q h s
  | .rwfree _ oc q h => Sys2Proof.Machine.execRwfree oc q h s
  | .rrel _ oc q h => Sys2Proof.Machine.execRrel oc q h s
  | .ftxe _ fd oc h => Sys2Proof.Machine.execFtxe fd oc h s
  | .ftxk _ oc h => Sys2Proof.Machine.execFtxk oc h s
  | .pauseExpiry who => Sys2Proof.Machine.execPauseExpiry who s
  | .wfeTimeout core => Sys2Proof.Machine.execWfeTimeout core s
  | .waySwitchEnd slot => Sys2Proof.Machine.execWaySwitchEnd slot s
  | .commandStart slot => Sys2Proof.Machine.execCommandStart slot s
  | .transferStep t => Sys2Proof.Machine.execTransferStep t s
  | .waitEnd who => Sys2Proof.Machine.execWaitEnd who s
  | .tokenRelief core => Sys2Proof.Machine.execTokenRelief core s
  | .ringRelief slot => Sys2Proof.Machine.execRingRelief slot s
  | .watchdogTimeout core => Sys2Proof.Machine.execWatchdogTimeout core s
  | .trapDelivery core => Sys2Proof.Machine.execTrapDelivery core s
  | .chunkIssue t => Sys2Proof.Machine.execChunkIssue t s
  | .chunkLanding t => Sys2Proof.Machine.execChunkLanding t s
  | .bagPublish t => Sys2Proof.Machine.execBagPublish t s
  | .optimiserCommit t => Sys2Proof.Machine.execOptimiserCommit t s
  | .buddyAcknowledgement t => Sys2Proof.Machine.execBuddyAcknowledgement t s
  | .crossingCompletion t => Sys2Proof.Machine.execCrossingCompletion t s
  | .tmoExpiry t => Sys2Proof.Machine.execTmoExpiry t s
  | .xputArrival p => Sys2Proof.Machine.execXputArrival p s
  | .xgetArrival p => Sys2Proof.Machine.execXgetArrival p s
  | .xamoArrival p => Sys2Proof.Machine.execXamoArrival p s
  | .xsigArrival p => Sys2Proof.Machine.execXsigArrival p s
  | .xa2aArrival p => Sys2Proof.Machine.execXa2aArrival p s
  | .dispatchDecision => Sys2Proof.Machine.execDispatchDecision s
  | .levelRaise slot q => Sys2Proof.Machine.execLevelRaise slot q s
  | .completion n => Sys2Proof.Machine.execCompletion n s
  | .putArrival n => Sys2Proof.Machine.execPutArrival n s
  | .acknowledgement n => Sys2Proof.Machine.execAcknowledgement n s
  | .negativeAcknowledgement n => Sys2Proof.Machine.execNegativeAcknowledgement n s
  | .backoffExpiry n => Sys2Proof.Machine.execBackoffExpiry n s
  | .quantumExpiry slot => Sys2Proof.Machine.execQuantumExpiry slot s
  | .quantumReturn slot => Sys2Proof.Machine.execQuantumReturn slot s
  | .groupRestore slot => Sys2Proof.Machine.execGroupRestore slot s
  | .preemptionComplete slot => Sys2Proof.Machine.execPreemptionComplete slot s
  | .alloc slot id => Sys2Proof.Machine.execAlloc slot id s
  | .ready w => Sys2Proof.Machine.execReady w s
  | .suspend w => Sys2Proof.Machine.execSuspend w s
  | .resume w => Sys2Proof.Machine.execResume w s
  | .teardown w => Sys2Proof.Machine.execTeardown w s
  | .release w => Sys2Proof.Machine.execRelease w s
  | .ctxcmdNoOperation w code => Sys2Proof.Machine.execCtxcmdNoOperation w code s
  | .qctlHalt slot q => Sys2Proof.Machine.execQctlHalt slot q s
  | .qctlResume slot q => Sys2Proof.Machine.execQctlResume slot q s
  | .flush slot q => Sys2Proof.Machine.execFlush slot q s
  | .qctlReset slot q => Sys2Proof.Machine.execQctlReset slot q s
  | .put slot port value => Sys2Proof.Machine.execPut slot port value s
  | .twgo slot value => Sys2Proof.Machine.execTwgo slot value s
  | .dxctlGo slot value => Sys2Proof.Machine.execDxctlGo slot value s
  | .chead slot value => Sys2Proof.Machine.execChead slot value s
  | .hostSemaphoreAccess slot n op value => Sys2Proof.Machine.execHostSemaphoreAccess slot n op value s
  | .registerWrite slot reg value => Sys2Proof.Machine.execRegisterWrite slot reg value s
  | .payloadFlit f => Sys2Proof.Machine.execPayloadFlit f s
  | .acknowledgementFlit f => Sys2Proof.Machine.execAcknowledgementFlit f s
  | .negativeAcknowledgementFlit f => Sys2Proof.Machine.execNegativeAcknowledgementFlit f s
  | .trainingFlit f => Sys2Proof.Machine.execTrainingFlit f s
  | .laneFailure lane => Sys2Proof.Machine.execLaneFailure lane s
  | .portFailure port => Sys2Proof.Machine.execPortFailure port s
  | .mctpControl m => Sys2Proof.Machine.execMctpControl m s
  | .mainon m => Sys2Proof.Machine.execMainon m s
  | .bootEnd => Sys2Proof.Machine.execBootEnd s
  | .mainoff m => Sys2Proof.Machine.execMainoff m s
  | .bootst m => Sys2Proof.Machine.execBootst m s
  | .getcert m => Sys2Proof.Machine.execGetcert m s
  | .kekset m => Sys2Proof.Machine.execKekset m s
  | .keyload m => Sys2Proof.Machine.execKeyload m s
  | .keyclr m => Sys2Proof.Machine.execKeyclr m s
  | .hbmsplit m => Sys2Proof.Machine.execHbmsplit m s
  | .status m => Sys2Proof.Machine.execStatus m s
  | .resetMsg m => Sys2Proof.Machine.execResetMsg m s
  | .throttle m => Sys2Proof.Machine.execThrottle m s
  | .logread m => Sys2Proof.Machine.execLogread m s
  | .fwstage m => Sys2Proof.Machine.execFwstage m s
  | .fwact m => Sys2Proof.Machine.execFwact m s
  | .attest m => Sys2Proof.Machine.execAttest m s
  | .setid m => Sys2Proof.Machine.execSetid m s
  | .dbgMsg m => Sys2Proof.Machine.execDbgMsg m s
  | .memrd m => Sys2Proof.Machine.execMemrd m s
  | .memwr m => Sys2Proof.Machine.execMemwr m s
  | .powerOnReset => Sys2Proof.Machine.execPowerOnReset s
  | .powerThrottle level => Sys2Proof.Machine.execPowerThrottle level s
  | .thermalShutdown => Sys2Proof.Machine.execThermalShutdown s
  | .errorDetected r => Sys2Proof.Machine.execErrorDetected r s
  | .targetedSelfTest n pass => Sys2Proof.Machine.execTargetedSelfTest n pass s
  | .embeddingCommandEnd t => Sys2Proof.Machine.execEmbeddingCommandEnd t s
  | .repairEnd n => Sys2Proof.Machine.execRepairEnd n s
  | .firmwareVerified => Sys2Proof.Machine.execFirmwareVerified s
  | .idleFlit f => Sys2Proof.Machine.execIdleFlit f s
  | .mirrorArrival p => Sys2Proof.Machine.execMirrorArrival p s
  | .xa2aPosting p => Sys2Proof.Machine.execXa2aPosting p s

end Sys2Proof.Machine
end

