-- ==== Sys2Proof/Machine/Step.lean ====
section
/-! DEFINITION. One step of the module: the turn at the head of the agenda (log 2). -/

namespace Sys2Proof.Machine

/-- The orders of a step from one slot on, `start` being the state before them (03_encoding R66). -/
def runSlots (start : State) : State → List (Nat × Instr) → Host.Outcome State Fault Refusal
  | s, [] => .next (endStep s)
  | s, (k, i) :: rest =>
    match exec i (s.inSlot k) with
    | .next u =>
      if u.iss.out = .done then runSlots start u rest
      else if u.trapsAlone start.iss.who k then .next (stopStep start (secondTrap start u (exec i start.beforeFirst)) [])
      else .next (stopStep start u ((k, i) :: rest))
    | .fault f => .fault f
    | .refused r => .refused r

/-- A sequencer's turn. -/
noncomputable def runAgent (s : State) (a : Agent) : Host.Outcome State Fault Refusal :=
  match beginStep s a with
  | (t, []) => .next t
  | (t, l) =>
    match t.firstLoads with
    | .ok u => runSlots u u l
    | .error e => .next (stopStep t (settle t (.error e)) l)

/-- One step: the turn at the head of the agenda, a free one when the agenda is empty. -/
noncomputable def step (s : State) : Host.Outcome State Fault Refusal :=
  match s.nextTurn with
  | (.run a, t) => if a.exists then runAgent t a else .fault .noSuchUnit
  | (.event i, t) => exec i t
  | (.pass c n, t) => .next (t.passTime c n)

/-- The state with an instruction where the next step fetches it. -/
def State.withFetchWord (s : State) (_nbits w : Nat) : State := s.placeWord (BitVec.ofNat 32 w)

end Sys2Proof.Machine
end

