-- ==== Sys2Proof/Safety.lean ====
section
/-! DEFINITION. What a sound state is, a run that does not stop, and what statements say of vector orders. -/

namespace Sys2Proof.Machine

/-- Memory is in its canonical form. -/
def State.memOk (s : State) : Prop := Mem.wf s.mem = true

/-- A run of `n` steps that meets neither a fault nor a refusal. -/
noncomputable def SafeRun (n : Nat) (s : State) : Prop := ∃ t, Sys2Proof.core.run n s = .next t

/-- Element `j` of `w` bits of a value (02_numbers R37). -/
def laneOf (w v j : Nat) : Nat := v / 2 ^ (w * j) % 2 ^ w

/-- The vector registers that a name and the following ones stand for are live, and hold a value, the first lowest (03_encoding R72). -/
def State.named (s : State) (n : Nat) : Nat → Nat → Prop
  | 0, v => v = 0
  | g + 1, v => ∃ r u, s.vname n = some r ∧ s.iss.oldLive.get false r = true ∧ s.named (n + 1) g u ∧ v = (s.iss.oldV.get 0 r).toNat + 2 ^ 4096 * u

/-- The physical register of name `vd + k` as a destination (03_encoding R72). -/
def State.destination (s : State) (vd k : Nat) : Nat := s.iss.old.phys (s.iss.here.toNat % 2048) (vd + k)

/-- Nothing but the record of the issuing sequencer, which becomes `q`, and the vector registers `rs` of its core changes (and the marks and the raised
flags of the step and the counter of free values). -/
def State.onlyVector (s t : State) (q : Seq) (rs : List Nat) : Prop :=
  t = { s with seqs := t.seqs, cores := t.cores, iss := { s.iss with marks := t.iss.marks, wrote := t.iss.wrote, raised := t.iss.raised }, tick := t.tick } ∧
  (∀ a, a ≠ s.iss.who → t.seq a = s.seq a) ∧ (∀ c, c ≠ s.myCoreNo → t.core c = s.core c) ∧ t.cur = q ∧
  t.myCore = { s.myCore with vreg := t.myCore.vreg, live := t.myCore.live } ∧
  ∀ p, p ∉ rs → t.myCore.vreg.get 0 p = s.myCore.vreg.get 0 p ∧ t.myCore.live.get false p = s.myCore.live.get false p

/-- The `g` registers from name `vd` on are live; their elements of `w` bits are the new ones, and where there is none what they held. -/
def State.elementsWritten (s t : State) (vd w g : Nat) (res : Nat → Option Nat) : Prop :=
  ∀ j < g * (4096 / w),
    let r := s.destination vd (j / (4096 / w))
    let k := j % (4096 / w)
    t.myCore.live.get false r = true ∧
    match res j with
    | some c => laneOf w (t.myCore.vreg.get 0 r).toNat k = c
    | none => s.myCore.live.get false r = true → laneOf w (t.myCore.vreg.get 0 r).toNat k = laneOf w (s.myCore.vreg.get 0 r).toNat k

/-- An order whose result is `res`, elements with their flags, in the `g` registers of type `td` from name `vd` on (02_numbers R50-R53; 13_vector R266-R272): the elements
are written, the flags of those written join FFLAGS, the first register enters the operand ring; with `tested`, a non-finite element sets NF,
and where NFTRAP traps it the first one traps instead. `post` is what else the order
does to its sequencer's record. -/
def State.givesElements (s : State) (o : Sys2Proof.Instr) (vd td g : Nat) (tested : Bool) (fmt : Word) (res : Nat → Option Elem)
    (post : Seq → Seq := id) : Prop :=
  let w := typeWidth td
  let n := g * (4096 / w)
  let odd (j : Nat) : Prop := ∃ e b, res j = some e ∧ nonFinite (tyOf td) e.1 = some b ∧ (s.nfNaNOnly = true → b = true)
  (s.nfOn = false ∨ tested = false ∨ (∀ j < n, ¬odd j) →
    ∃ (t : State) (f : BitVec 8), exec o s = .next (t.ended .done) ∧
      s.onlyVector t (post { s.cur with fflags := f, ring := some (s.destination vd 0) :: s.cur.ring.take 3 }) ((List.range g).map (s.destination vd)) ∧
      s.elementsWritten t vd w g (fun j => (res j).map (·.1)) ∧
      ∀ b, f.getLsbD b = true ↔ s.cur.fflags.getLsbD b = true ∨ (∃ j < n, ∃ e, res j = some e ∧ e.2.getLsbD b = true) ∨
        (fNF.getLsbD b = true ∧ tested = true ∧ ∃ j < n, ∃ e, res j = some e ∧ (nonFinite (tyOf td) e.1).isSome = true)) ∧
  (∀ j < n, tested = true → s.nfOn = true → odd j → (∀ k < j, ¬odd k) → exec o s = .next (s.takeTrap (nonFiniteTrap j fmt)))

/-- A float element rounded once under vtype, with its flags (02_numbers R35, R43-R49). -/
def State.roundedElem (s : State) (f : Fp) (j : Nat) (x : Exact × BitVec 8) : Elem :=
  let c := roundTo f { mode := s.iss.old.rm, sat := s.iss.old.satOn, seed := s.iss.seed.toNat, idx := j } x.1
  (c.1, x.2 ||| c.2)

/-! ### Accesses of vector orders (13_vector R288-R292) -/

/-- An access to [va, va + n) goes ahead to its translation: C's tloads have been read, and no pinv of its pages waits (09_ordering R183; 11_page R231). -/
def State.mayReach (s : State) (va n : Nat) : Prop := s.tablesRead s.iss.who = true ∧ s.retiringSpan s.mySlot va n = false

/-- The pieces of an order read one after the other, where each translates and meets no landing box: the state after, and the register
image of what is read. -/
def State.loaded (s : State) : List Piece → State → Nat → Prop
  | [], t, v => t = s ∧ v = 0
  | p :: r, t, v => ∃ l w, s.mayReach p.addr p.n ∧ locateAll s s.mySlot .read false (spanPieces p.addr p.n) = .ok l ∧ s.meetsRead p.addr p.n = .clear ∧
      (s.ledAll l).loaded r t w ∧ v = leNat (s.readPieces l) * 2 ^ (8 * p.off) + w

/-- The pieces of an order written one after the other from a register image: the state after, and where they lie. -/
def State.stored (s : State) (img : Nat) : List Piece → State → List (Loc × Nat × Nat) → Prop
  | [], t, l => t = s ∧ l = []
  | p :: r, t, l => ∃ m n, s.mayReach p.addr p.n ∧ locateAll s s.mySlot s.iss.who.writeAcc false (spanPieces p.addr p.n) = .ok m ∧
      s.meetsWrite s.mySlot m p.addr p.n = .clear ∧
      ((s.ledAll m).writePieces m (leBytes p.n (img / 2 ^ (8 * p.off)))).stored img r t n ∧ l = m ++ n

/-- Elements of `n` bytes updated one after the other as `f` gives them, with their flags, `post` after each: the state after, the old elements, and
where they lie. -/
def State.updated (s : State) (n : Nat) (f : Nat → Nat → Elem) (post : State → State) :
    List (Nat × Nat) → State → List (Nat × Nat) → List (Loc × Nat × Nat) → Prop
  | [], t, v, l => t = s ∧ v = [] ∧ l = []
  | (i, a) :: r, t, v, l => ∃ m w k, s.mayReach a n ∧ locateAll s s.mySlot .atomic false (spanPieces a n) = .ok m ∧ (∀ x ∈ m, x.1.home ≠ 2) ∧
      s.meetsRead a n = .clear ∧ s.lineStall s.mySlot (s.reached a n) (s.linesAsked m) = none ∧
      (post (((s.ledAll m).writePieces m (leBytes n (f i (leNat (s.readPieces m))).1)).flag (f i (leNat (s.readPieces m))).2)).updated n f post r t w k ∧
      v = (i, leNat (s.readPieces m)) :: w ∧ l = m ++ k

/-- Every byte reads as before but those of places written: outside their sectors under any key, inside them under the key they were written with. -/
def State.keepsBut (s t : State) (l : List (Loc × Nat × Nat)) : Prop :=
  ∀ k c, (∀ x ∈ l, (c / 128 < x.1.key / 128 ∨ (x.1.key + x.2.2 - 1) / 128 < c / 128) ∨
    (x.1.enc = k ∧ (c < x.1.key ∨ x.1.key + x.2.2 ≤ c))) → t.peek k c = s.peek k c

/-! ### The commit buffer (07_group R158, R161) -/

/-- The entries of a commit buffer performed in order from a state, each removed as it is: the state after, and 0 or 1 more than the first semaphore that
overflowed. A put needs room in the replay window, an xsig and a supd a tag that is complete. -/
def State.commits : List Deferred → State → State → Nat → Nat → Prop
  | [], s, t, a, b => t = s ∧ b = a
  | e :: r, s, t, a, b =>
    let without (u : State) : State := u.setMyCore { u.myCore with cbuf := r }
    match e with
    | .semAdd i v => match s.semSum s.mySlot i v.toInt with
      | some w => State.commits r (without (s.setWindowSem i w)) t a b
      | none => State.commits r (without s) t (if a = 0 then i + 1 else a) b
    | .put q card => s.myCore.win.length < 8 ∧ State.commits r (without (s.sendPut s.myCoreNo s.mySlot q card false)) t a b
    | .xsig n d v => (s.tag (s.myTag n)).complete = true ∧
        State.commits r (without (s.startCall (s.myTag n) { s.crossingOf 5 with addr := d, value := v })) t a b
    | .supd n c o => (s.tag (s.myTag n)).complete = true ∧
        State.commits r (without (s.startCommand (s.myTag n) { s.embeddingOf 2 with block := c, opt := o, table := blkTable c })) t a b

/-! ### Row orders of M (14_matrix R301, R302) -/

/-- Bytes written at a list of addresses one after the other, where each translates and meets no landing box: the state after, and where they lie. -/
def State.storedAt (s : State) : List (Nat × List Byte) → State → List (Loc × Nat × Nat) → Prop
  | [], t, l => t = s ∧ l = []
  | (a, b) :: r, t, l => ∃ m n, s.mayReach a b.length ∧ locateAll s s.mySlot s.iss.who.writeAcc false (spanPieces a b.length) = .ok m ∧
      s.meetsWrite s.mySlot m a b.length = .clear ∧
      ((s.ledAll m).writePieces m b).storedAt r t n ∧ l = m ++ n

/-- A row order that is done (R302): MROWP tells of its rows without PEND, and the order ends. -/
def State.rowsEnded (t : State) (n : Nat) : State := (((t.rowMark n false).setResume none).ended .done)

/-- A row order between two rows: it goes on from row `r` in a later turn of M. -/
def State.rowsRest (t : State) (r : Nat) : State :=
  let u := t.setResume (some (t.resumeRec .rows r))
  (u.setCur { u.cur with run := .running, wait := none }).ended .waiting true

/-- The flags of elements of a type, and NF where one is non-finite (14_matrix R309). -/
def rowFlags (ty : Nat) (out : List Elem) : BitVec 8 :=
  (out.foldl (fun (f : BitVec 8) e => f ||| e.2) 0) ||| (if out.any fun e => (nonFinite (tyOf ty) e.1).isSome then fNF else 0)

end Sys2Proof.Machine
end

