-- ==== Sys2Proof/Certificates/Slice0/Obligations.lean ====
section
/-! DEFINITION. The statements for the provers, family by family. -/

section

open Sys2Proof Sys2Proof.Machine

/-- 12_scalar R236, R237, R238: the forms of majors 0x08, 0x09 and 0x0E write one register and do nothing else (no flag, no trap); the words of major 0x08, with what they reserve of mod. -/
def Obligations.ArithmeticForms : Prop :=
  ∀ (s : State) (sd sa sb : BitVec 5) (imm : BitVec 13), s.acts = true →
    let a := s.src sa
    let b := s.src sb
    let i := imm.signExtend 64
    let writes (o : Instr) (v : Word) : Prop := exec o s = .next ((s.wr sd v).ended .done)
    writes (.add sd sa sb) (.ofNat 64 (a.toNat + b.toNat)) ∧
    writes (.sub sd sa sb) (.ofInt 64 ((a.toNat : Int) - b.toNat)) ∧
    writes (.and sd sa sb) (a &&& b) ∧
    writes (.or sd sa sb) (a ||| b) ∧
    writes (.xor sd sa sb) (a ^^^ b) ∧
    writes (.min sd sa sb 0) (.ofInt 64 (if b.toInt < a.toInt then b.toInt else a.toInt)) ∧
    writes (.min sd sa sb 1) (.ofNat 64 (if b.toNat < a.toNat then b.toNat else a.toNat)) ∧
    writes (.max sd sa sb 0) (.ofInt 64 (if a.toInt < b.toInt then b.toInt else a.toInt)) ∧
    writes (.max sd sa sb 1) (.ofNat 64 (if a.toNat < b.toNat then b.toNat else a.toNat)) ∧
    writes (.slt sd sa sb 0) (if a.toInt < b.toInt then 1 else 0) ∧
    writes (.slt sd sa sb 1) (if a.toNat < b.toNat then 1 else 0) ∧
    writes (.sel sd sa sb) (if s.src sd = 0 then b else a) ∧
    writes (.addi sd sa imm) (.ofInt 64 (a.toInt + imm.toInt)) ∧
    writes (.andi sd sa imm) (a &&& i) ∧
    writes (.ori sd sa imm) (a ||| i) ∧
    writes (.xori sd sa imm) (a ^^^ i) ∧
    writes (.slti sd sa imm) (if a.toInt < imm.toInt then 1 else 0) ∧
    writes (.sltiU sd sa imm) (if a.toNat < i.toNat then 1 else 0) ∧
    writes (.lis sd imm) (.ofInt 64 imm.toInt) ∧
    writes (.lsh sd imm) (.ofNat 64 ((s.src sd).toNat * 2 ^ 13 + imm.toNat)) ∧
    (let word (fn mod : Nat) : Option (BitVec 32) := some (.ofNat 32 (0x20000000 + sd.toNat * 2 ^ 21 + sa.toNat * 2 ^ 16 + sb.toNat * 2 ^ 11 + mod * 2 ^ 5 + fn));
      encode (.add sd sa sb) = word 0 0 ∧ encode (.sub sd sa sb) = word 1 0 ∧ encode (.and sd sa sb) = word 2 0 ∧ encode (.or sd sa sb) = word 3 0 ∧
      encode (.xor sd sa sb) = word 4 0 ∧ (∀ u, encode (.min sd sa sb u) = word 5 u.toNat ∧ encode (.max sd sa sb u) = word 6 u.toNat ∧
        encode (.slt sd sa sb u) = word 7 u.toNat) ∧ encode (.sel sd sa sb) = word 8 0) ∧
    ∀ w : BitVec 32, w.extractLsb' 26 6 = 0x08 →
      (w.extractLsb' 0 5 ∈ [(0 : BitVec 5), 1, 2, 3, 4, 8] ∧ w.extractLsb' 5 6 ≠ 0) ∨ (w.extractLsb' 0 5 ∈ [(5 : BitVec 5), 6, 7] ∧ w.extractLsb' 6 5 ≠ 0) →
      decodeWord .c w = .error .reservedField

/-- 12_scalar R241: shifts, counts and bit fields, bit by bit. -/
def Obligations.ShiftForms : Prop :=
  ∀ (s : State) (sd sa sb : BitVec 5) (n wm1 : BitVec 6), s.acts = true →
    let a := s.src sa
    let p := (s.src sb).toNat % 64
    let writes (o : Instr) (f : Word → Prop) : Prop := ∃ v, f v ∧ exec o s = .next ((s.wr sd v).ended .done)
    writes (.sll sd sa sb) (fun v => v.toNat = a.toNat * 2 ^ p % 2 ^ 64) ∧
    writes (.sllImm sd sa n) (fun v => v.toNat = a.toNat * 2 ^ n.toNat % 2 ^ 64) ∧
    writes (.srl sd sa sb) (fun v => v.toNat = a.toNat / 2 ^ p) ∧
    writes (.srlImm sd sa n) (fun v => v.toNat = a.toNat / 2 ^ n.toNat) ∧
    writes (.sra sd sa sb) (fun v => v.toInt = a.toInt / 2 ^ p) ∧
    writes (.sraImm sd sa n) (fun v => v.toInt = a.toInt / 2 ^ n.toNat) ∧
    (∀ u : BitVec 1, let m := if u = 1 then 32 else 64
      writes (.clz sd sa u) (fun v => ∃ k ≤ m, v = .ofNat 64 k ∧ (∀ j, m - k ≤ j → j < m → a.getLsbD j = false) ∧
        (k < m → a.getLsbD (m - k - 1) = true)) ∧
      writes (.ctz sd sa u) (fun v => ∃ k ≤ m, v = .ofNat 64 k ∧ (∀ j < k, a.getLsbD j = false) ∧ (k < m → a.getLsbD k = true)) ∧
      writes (.popc sd sa u) (fun v => v = .ofNat 64 ((List.range m).countP fun j => a.getLsbD j))) ∧
    writes (.bext sd sa sb wm1) (fun v => v.toNat = a.toNat / 2 ^ p % 2 ^ (wm1.toNat + 1)) ∧
    writes (.bins sd sa sb wm1) (fun v => ∀ j < 64, v.getLsbD j =
      if p ≤ j ∧ j < p + wm1.toNat + 1 then a.getLsbD (j - p) else (s.src sd).getLsbD j)

/-- 12_scalar R239: products and quotients as integers, and the divide-by-zero trap; the words of major 0x0B, with what they reserve of mod. -/
def Obligations.MultiplyDivideForms : Prop :=
  ∀ (s : State) (sd sa sb : BitVec 5) (u : BitVec 1), s.acts = true →
    let val (w : Word) : Int := if u = 1 then w.toNat else w.toInt
    let a := val (s.src sa)
    let b := val (s.src sb)
    let q : Int := if (a < 0) ≠ (b < 0) then -((a.natAbs / b.natAbs : Nat) : Int) else (a.natAbs / b.natAbs : Nat)
    exec (.mul sd sa sb) s = .next ((s.wr sd (.ofInt 64 (a * b))).ended .done) ∧
    exec (.mulh sd sa sb u) s = .next ((s.wr sd (.ofInt 64 (a * b / 2 ^ 64))).ended .done) ∧
    (s.src sb ≠ 0 →
      exec (.div sd sa sb u) s = .next ((s.wr sd (.ofInt 64 q)).ended .done) ∧
      exec (.rem sd sa sb u) s = .next ((s.wr sd (.ofInt 64 (a - b * q))).ended .done)) ∧
    (s.src sb = 0 →
      exec (.div sd sa sb u) s = .next (s.takeTrap (mkTrap .divideByZero)) ∧
      exec (.rem sd sa sb u) s = .next (s.takeTrap (mkTrap .divideByZero))) ∧
    (let word (fn mod : Nat) : Option (BitVec 32) := some (.ofNat 32 (0x2C000000 + sd.toNat * 2 ^ 21 + sa.toNat * 2 ^ 16 + sb.toNat * 2 ^ 11 + mod * 2 ^ 5 + fn));
      encode (.mul sd sa sb) = word 0 0 ∧ encode (.mulh sd sa sb u) = word 1 u.toNat ∧ encode (.div sd sa sb u) = word 2 u.toNat ∧
      encode (.rem sd sa sb u) = word 3 u.toNat) ∧
    ∀ w : BitVec 32, w.extractLsb' 26 6 = 0x0B →
      (w.extractLsb' 0 5 = 0 ∧ w.extractLsb' 5 6 ≠ 0) ∨ (w.extractLsb' 0 5 ∈ [(1 : BitVec 5), 2, 3] ∧ w.extractLsb' 6 5 ≠ 0) →
      decodeWord .c w = .error .reservedField

/-- 12_scalar R242-R245; 02_numbers R49: the exact result is rounded once by the mode of the order, written zero-extended, and its flags join
FFLAGS; fcvt mode 3 is over its limit.
12_scalar R246; 05_kernel R121, R122: a compare pushes its condition under the entries above it; under a false top entry it pushes
false; on a full stack it traps and pushes nothing. -/
def Obligations.FloatForms : Prop :=
  (∀ (s : State) (sd sa sb : BitVec 5) (rm : BitVec 3) (d : BitVec 1), s.acts = true →
    let F := if d = 1 then fp64 else fp32
    let arg (r : BitVec 5) : Machine.Num := F.num (if d = 1 then (s.src r).toNat else (s.src r).toNat % 2 ^ 32)
    let other (r : BitVec 5) : Machine.Num := if d = 1 then fp32.num ((s.src r).toNat % 2 ^ 32) else fp64.num (s.src r).toNat
    let rnd : Rounding := { mode := rm.toNat }
    let gives (o : Instr) (f : BitVec 8) (r : Nat × BitVec 8) : Prop :=
      exec o s = .next (((s.wr sd (.ofNat 64 r.1)).flag (f ||| r.2)).ended .done)
    gives (.fadd sd sa sb rm d) (addNum rm.toNat (arg sa) (arg sb)).2 (roundTo F rnd (.num (addNum rm.toNat (arg sa) (arg sb)).1)) ∧
    gives (.fsub sd sa sb rm d) (addNum rm.toNat (arg sa) (arg sb).flip).2 (roundTo F rnd (.num (addNum rm.toNat (arg sa) (arg sb).flip).1)) ∧
    gives (.fmul sd sa sb rm d) (mulNum (arg sa) (arg sb)).2 (roundTo F rnd (.num (mulNum (arg sa) (arg sb)).1)) ∧
    gives (.fdiv sd sa sb rm d) (divNum (arg sa) (arg sb)).2 (roundTo F rnd (divNum (arg sa) (arg sb)).1) ∧
    gives (.fsqrt sd sa rm d) (sqrtNum (arg sa)).2 (roundTo F rnd (sqrtNum (arg sa)).1) ∧
    gives (.fma sd sa sb rm d) (fmaNum rm.toNat (arg sd) (arg sa) (arg sb)).2
      (roundTo F rnd (.num (fmaNum rm.toNat (arg sd) (arg sa) (arg sb)).1)) ∧
    gives (.fcvt sd sa 0 rm d) 0 (roundTo F rnd (.num (other sa))) ∧
    gives (.fcvt sd sa 1 rm d) 0 (roundTo F rnd (.num (ofInt (s.src sa).toInt))) ∧
    gives (.fcvt sd sa 2 rm d) 0 (roundToInt ⟨64, true⟩ rnd false (.num (arg sa))) ∧
    exec (.fcvt sd sa 3 rm d) s = .next (s.takeTrap (illegalWord .overLimit s.word))) ∧
  (∀ (s : State) (sa sb : BitVec 5) (u d : BitVec 1),
    let a := s.src sa
    let b := s.src sb
    let F := if d = 1 then fp64 else fp32
    let x := F.num (if d = 1 then a.toNat else a.toNat % 2 ^ 32)
    let y := F.num (if d = 1 then b.toNat else b.toNat % 2 ^ 32)
    let nan := x.isNaN || y.isNaN
    let pushed (t : State) (m : Bool) : State :=
      t.setCur { t.cur with stack := ((if m then BitVec.allOnes 1024 else 0) &&& topOf s.iss.old.stack &&& topOf s.cur.stack) :: s.cur.stack }
    let pushes (o : Instr) (f : BitVec 8) (m : Bool) : Prop :=
      (s.cur.stack.length < 8 → s.acts = true → exec o s = .next ((pushed (s.flag f) m).ended .done)) ∧
      (s.cur.stack.length < 8 → s.acts = false → exec o s = .next ((pushed s false).ended .done)) ∧
      (8 ≤ s.cur.stack.length → exec o s = .next (s.takeTrap (mkTrap .predOverflow)))
    pushes (.peq sa sb) 0 (decide (a = b)) ∧
    pushes (.pne sa sb) 0 (decide (a ≠ b)) ∧
    pushes (.plt sa sb u) 0 (if u = 1 then decide (a.toNat < b.toNat) else decide (a.toInt < b.toInt)) ∧
    pushes (.pge sa sb u) 0 (if u = 1 then decide (b.toNat ≤ a.toNat) else decide (b.toInt ≤ a.toInt)) ∧
    pushes (.pfeq sa sb d) (if x.isSig || y.isSig then fNV else 0) (!nan && eqNum x y) ∧
    pushes (.pflt sa sb d) (if nan then fNV else 0) (!nan && ltNum x y) ∧
    pushes (.pfle sa sb d) (if nan then fNV else 0) (!nan && !ltNum y x))

/-- 12_scalar R247, R248; 02_numbers R49; 05_kernel R117; 06_queue R141, R146; 07_group R152; 08_memory R173; 10_barrier R199: mfcr writes what the register reads
as; mtcr writes an RW register, cut to its width, mtcrs sets and mtcrc clears bits of it, but that a flag which an order of the same step has raised stays set; a
read-only one keeps its contents; the group registers and the memory counters refuse every write with a permission trap. WAITST tells of a blocked sequencer; what
it shows of one that runs while an error case is open is free (log 80). A queue register's CERR and SOV are cleared by ones of mtcr alone, and QCTL.CMD acts. -/
def Obligations.ControlRegisterForms : Prop :=
  ∀ (s : State) (sd sa : BitVec 5) (cr : BitVec 11), s.acts = true →
    let n := cr.toNat
    let v := s.src sa
    let x := s.myCtx
    let k := s.myCore
    let reads (m r : Nat) : Prop := n = m → s.readCr n = (r, s)
    let writes (o : Instr) (t : State) : Prop := exec o s = .next (t.ended .done)
    let rw (m r : Nat) (f : Word → State) : Prop := n = m → s.readCr n = (r, s) ∧ writes (.mtcr sa cr) (f v) ∧
      writes (.mtcrs sa cr) (f (.ofNat 64 r ||| v)) ∧ writes (.mtcrc sa cr) (f (.ofNat 64 r &&& ~~~v))
    writes (.mfcr sd cr) ((s.readCr n).2.wr sd (.ofNat 64 (s.readCr n).1)) ∧
    rw 0x000 s.cur.fflags.toNat (fun y => s.setCur { s.cur with fflags := y.truncate 8 ||| s.iss.raised }) ∧
    (∀ m < 4, rw (0x020 + m) (s.lcSrc m).toNat (fun y => s.wrLc m y)) ∧
    rw 0x048 k.trec.ret.toNat (fun y => s.setMyCore { k with trec := { k.trec with ret := y } }) ∧
    rw 0x049 k.wdog.toNat (fun y => s.setMyCore { k with wdog := y.truncate 32 }) ∧
    rw 0x10D x.qbackoff.toNat (fun y => s.setMyCtx { x with qbackoff := y.truncate 16 }) ∧
    rw 0x10E (if x.deadchk then 1 else 0) (fun y => s.setMyCtx { x with deadchk := y.getLsbD 0 }) ∧
    rw 0x10F x.trv.toNat (fun y => s.setMyCtx { x with trv := y }) ∧
    rw 0x110 x.srseed.toNat (fun y => s.setMyCtx { x with srseed := y }) ∧
    rw 0x111 x.nftrap.toNat (fun y => s.setMyCtx { x with nftrap := y.truncate 2 }) ∧
    rw 0x300 k.msel.toNat (fun y => s.setMyCore { k with msel := y.truncate 6 }) ∧
    reads 0x001 s.cur.stack.length ∧
    (∀ q < 6, s.mgmt.cases = [] → reads (0x030 + q) (match (s.seq (.seq s.myCoreNo q)).run, (s.seq (.seq s.myCoreNo q)).wait with
      | .blocked, some w => w.kind + w.obj % 256 * 2 ^ 8 + (if q = 0 then 0 else w.step.toNat % 2048 * 2 ^ 16) + min ((s.clk - w.since) / 1024) (2 ^ 32 - 1) * 2 ^ 32
      | _, _ => 0)) ∧
    (∀ m < 8, reads (0x040 + m) ([k.trec.cause, k.trec.info, k.trec.addr, k.trec.seq, k.trec.step, k.trec.slot, k.trec.tile, k.trec.fmt].getD m 0).toNat) ∧
    reads 0x100 (x.id + s.mySlot * 2 ^ 8) ∧
    reads 0x101 (x.st.code + (if k.bank.isSome then 8 else 0) + (if x.qs then 16 else 0)) ∧
    (∀ m < 11, reads (0x102 + m) ([x.troot, x.handler, x.savebase, x.waysave.toNat, x.grantv.toNat, x.granth.toNat, x.grantw.toNat, x.grantl.toNat,
      x.sempart.toNat, x.qmap, x.quantum.toNat].getD m 0)) ∧
    reads 0x112 x.xjob.toNat ∧ reads 0x113 (if s.mgmt.devidSet then s.mgmt.devid + 2 ^ 31 else 0) ∧
    (∀ m < 32, reads (0x140 + m) (x.vseg.get 0 m).toNat) ∧
    reads 0x188 (x.fstopPhase.toNat + x.fstopArr.length * 2 ^ 32 + x.fstopN * 2 ^ 40) ∧
    (∀ m < 8, k.group = none → reads (0x180 + m) 0) ∧
    (∀ g, k.group = some g → let r := s.group g
      let d := r.deques.get [] k.rank
      ∀ m < 8, reads (0x180 + m) ([k.rank + r.size * 2 ^ 8 + r.q * 2 ^ 16, card r.card 0x18 8, card r.card 0x20 6,
        (if k.opened then 1 else 0) + (if k.nidem then 1 else 0) * 2 + k.cbuf.length * 4, coord r.card k.tile, d.length + (d.map (·.count)).sum * 2 ^ 16, r.untaken,
        r.phase.toNat + r.atBarrier * 2 ^ 32].getD m 0)) ∧
    reads 0x1F0 (k.win.length + (if k.perr then 1 else 0) * 2 ^ 8 + k.nacks * 2 ^ 32) ∧
    (n = 0x1F0 → writes (.mtcr sa cr) (s.setMyCore { k with perr := k.perr && !v.getLsbD 8 }) ∧ writes (.mtcrs sa cr) (s.setMyCore k) ∧
      writes (.mtcrc sa cr) (s.setMyCore k)) ∧
    (∀ q < 16, let u := x.queue q
      let command (c : Bool) (y : Word) : State :=
        (s.setQueue s.mySlot q (if c then { u with cerr := u.cerr && !y.getLsbD 11, sov := u.sov && !y.getLsbD 12 } else u)).queueCommand s.mySlot q (y.toNat % 8)
      let ctl := u.cmd + u.st.code * 2 ^ 8 + (if u.cerr then 1 else 0) * 2 ^ 11 + (if u.sov then 1 else 0) * 2 ^ 12 + u.err * 2 ^ 16
      (q < x.queueCount →
        (∀ m < 4, reads (0x200 + 4 * q + m) ([u.kind + u.lsize * 2 ^ 4 + u.addr, u.head + u.count * 2 ^ 16, ctl, u.done.toNat].getD m 0)) ∧
        (n = 0x202 + 4 * q → writes (.mtcr sa cr) (command true v) ∧ writes (.mtcrs sa cr) (command false (.ofNat 64 ctl ||| v)) ∧
          writes (.mtcrc sa cr) (command false (.ofNat 64 ctl &&& ~~~v))) ∧
        (∀ m ∈ [0, 1, 3], n = 0x200 + 4 * q + m → ∀ o ∈ [Instr.mtcr sa cr, .mtcrs sa cr, .mtcrc sa cr], writes o s)) ∧
      (x.queueCount ≤ q → ∀ m < 4, reads (0x200 + 4 * q + m) 0 ∧
        (n = 0x200 + 4 * q + m → ∀ o ∈ [Instr.mtcr sa cr, .mtcrs sa cr, .mtcrc sa cr], writes o s))) ∧
    (∀ m < 6, reads (0x301 + m) (s.mcnt s.myCoreNo s.mySlot k m)) ∧
    (n = 0x001 ∨ (0x030 ≤ n ∧ n ≤ 0x035) ∨ (0x040 ≤ n ∧ n ≤ 0x047) ∨ (0x100 ≤ n ∧ n ≤ 0x10C) ∨ n = 0x112 ∨ n = 0x113 ∨ (0x140 ≤ n ∧ n ≤ 0x160) →
      writes (.mtcr sa cr) s ∧ writes (.mtcrs sa cr) (s.readCr n).2 ∧ writes (.mtcrc sa cr) (s.readCr n).2) ∧
    ((0x180 ≤ n ∧ n ≤ 0x188) ∨ (0x301 ≤ n ∧ n ≤ 0x306) →
      ∀ o ∈ [Instr.mtcr sa cr, .mtcrs sa cr, .mtcrc sa cr], exec o s = .next (s.takeTrap (mkTrap .permission 7)))

/-- 12_scalar R250, R255; 03_encoding R78; 08_memory R162, R163; 09_ordering R183, R194; 06_queue R139: an aligned load of a byte range that translates and
meets no landing box and no held write gives its bytes, the lowest address lowest, extended to 64 bits (a pier stream sees its own stores to a table, 17_piers R355; 08_memory
R177); in the semaphore window the chip semaphore; a misaligned one traps. lda waits while a write of its sequencer that carries a class of its mask (every
class where the field is 0 or the register's low half is) is held. Each waits while a tload of its C is still to be read, and while a pinv of its page waits
(11_page R231). -/
def Obligations.LoadForms : Prop :=
  ∀ (s : State) (sd sa sb : BitVec 5) (oc : BitVec 4) (sz scope : BitVec 2) (off : BitVec 9), s.acts = true →
    let n : Nat := 2 ^ sz.toNat
    let a := (s.src sa + (BitVec.ofInt 64 (off.toInt * n))).toNat
    let b := (s.src sa).toNat
    let byte (l : Loc) (i : Nat) : Byte := if s.iss.who.isPier then s.peek l.enc (l.key + i) else s.readLoc l i
    let value (l : Loc) : Nat := ((List.range n).map fun i => (byte l i).toNat * 256 ^ i).sum
    let mask : BitVec 16 := if sb = 0 ∨ (s.src sb).truncate 16 = 0#16 then 0xFFFF else (s.src sb).truncate 16
    let waits (o : Instr) (obj : Nat) (c : Cond) (kind : Nat) : Prop := exec o s = .next ((s.setCur (s.cur.block s kind obj c)).ended .waiting)
    (∀ l, a % n = 0 → regionOf a = .translated ∨ regionOf a = .vault → s.mayReach a n → locate s s.mySlot a .read false = .ok l → s.meetsRead a n = .clear →
      exec (.ld sd sa oc sz off) s = .next (((s.ledAll [(l, a, n)]).wr sd (.ofInt 64 (if value l < 2 ^ (8 * n - 1) then (value l : Int) else (value l : Int) - 2 ^ (8 * n)))).ended .done) ∧
      exec (.ldu sd sa oc sz off) s = .next (((s.ledAll [(l, a, n)]).wr sd (.ofNat 64 (value l))).ended .done)) ∧
    (∀ l, b % n = 0 → regionOf b = .translated ∨ regionOf b = .vault → s.mayReach b n → locate s s.mySlot b .read false = .ok l → s.meetsRead b n = .clear →
      (∀ h ∈ s.heldw, h.owned = true → h.who = s.iss.who → h.classes &&& mask = 0) →
      exec (.lda sd sa sb sz scope) s = .next (((s.ledAll [(l, b, n)]).wr sd (.ofNat 64 (value l))).ended .done)) ∧
    (s.tablesRead s.iss.who = false ∨ (∃ h ∈ s.heldw, h.owned = true ∧ h.who = s.iss.who ∧ h.classes &&& mask ≠ 0) →
      waits (.lda sd sa sb sz scope) s.heldObj (.writesDone s.iss.who mask) 8) ∧
    (∀ t, a % n = 0 → regionOf a = .translated ∨ regionOf a = .vault →
      (s.tablesRead s.iss.who = false → waits (.ld sd sa oc sz off) s.tableObj (.tablesRead s.iss.who) 8 ∧
        waits (.ldu sd sa oc sz off) s.tableObj (.tablesRead s.iss.who) 8) ∧
      (s.tablesRead s.iss.who = true → s.retiringSpan s.mySlot a n = true →
        waits (.ld sd sa oc sz off) 0 .again 0 ∧ waits (.ldu sd sa oc sz off) 0 .again 0) ∧
      (∀ l, s.mayReach a n → locate s s.mySlot a .read false = .ok l → s.meetsRead a n = .stall t →
        let c := Cond.unstalled s.mySlot a (a + n) ((s.reached a n).orElse fun _ => some s.nextOp)
        waits (.ld sd sa oc sz off) (s.stallObj t) c 8 ∧ waits (.ldu sd sa oc sz off) (s.stallObj t) c 8) ∧
      (∀ l p, s.mayReach a n → locate s s.mySlot a .read false = .ok l → s.meetsRead a n = .poison p →
        exec (.ld sd sa oc sz off) s = .next (s.takeTrap (mkTrap .abortedLanding 1 p)) ∧
        exec (.ldu sd sa oc sz off) s = .next (s.takeTrap (mkTrap .abortedLanding 1 p)))) ∧
    (sz = 2 → a % 4 = 0 → regionOf a = .sem → (a - semWindow) / 4 < s.myCtx.semCount → s.tablesRead s.iss.who = true →
      let v := s.chipSem s.mySlot ((a - semWindow) / 4)
      exec (.ld sd sa oc sz off) s = .next ((s.wr sd (.ofInt 64 v.toInt)).ended .done) ∧
      exec (.ldu sd sa oc sz off) s = .next ((s.wr sd (.ofNat 64 v.toNat)).ended .done)) ∧
    (regionOf a = .translated → a % n ≠ 0 →
      exec (.ld sd sa oc sz off) s = .next (s.takeTrap (mkTrap .misalignment 0 a)) ∧
      exec (.ldu sd sa oc sz off) s = .next (s.takeTrap (mkTrap .misalignment 0 a)))

/-- 12_scalar R250, R255; 09_ordering R181, R183, R194: an aligned store that translates and meets no landing box and no held write writes its bytes, the
lowest at its address; every byte outside them reads as before under the key of its page, and so does every byte of another 128-byte sector under any
key. One that meets a landing box or a held write, or asks to own a line with a byte of a box that has not landed (15_ferry R325), is held at its home with
its classes, and the sequencer goes on; the trap of a poisoned byte waits for the step boundary (R323). stl waits while a write of its sequencer that carries
a class of its mask is held. Each waits while a tload of its C is still to be read, and while a pinv of its page waits (11_page R231). -/
def Obligations.StoreForms : Prop :=
  ∀ (s : State) (sd sa sb : BitVec 5) (oc : BitVec 4) (sz scope : BitVec 2) (off : BitVec 9) (l : Loc), s.acts = true → s.memOk →
    let n : Nat := 2 ^ sz.toNat
    let a := (s.src sa + (BitVec.ofInt 64 (off.toInt * n))).toNat
    let b := (s.src sa).toNat
    let stored (o : Instr) (v : Word) : Prop := ∃ t : State, exec o s = .next (t.ended .done) ∧
      (∀ i < n, t.peek l.enc (l.key + i) = v.extractLsb' (8 * i) 8) ∧
      (∀ c, c < l.key ∨ l.key + n ≤ c → t.peek l.enc c = s.peek l.enc c) ∧
      (∀ k c, c / 128 ≠ l.key / 128 → t.peek k c = s.peek k c) ∧
      t = { s with mem := t.mem, sect := t.sect, filter := t.filter, caches := t.caches, stale := (s.keepStale l n).stale }
    let held (at_ : Nat) (v : Word) (classes : BitVec 16) : State :=
      { s.noteAll [(l, at_, n)] with
        heldw := s.heldw ++ [{ who := s.iss.who, slot := s.mySlot, addr := at_, bytes := (List.range n).map fun i => v.extractLsb' (8 * i) 8,
                               step := s.iss.here, wslot := s.iss.slot, classes := classes, order := s.nextOp,
                               lines := (s.noteAll [(l, at_, n)]).linesAsked [(l, at_, n)] }],
        nextOp := s.nextOp + 1 }
    let mask : BitVec 16 := if sd = 0 ∨ (s.src sd).truncate 16 = 0#16 then 0xFFFF else (s.src sd).truncate 16
    let waits (o : Instr) (obj : Nat) (c : Cond) (kind : Nat) : Prop := exec o s = .next ((s.setCur (s.cur.block s kind obj c)).ended .waiting)
    (a % n = 0 → regionOf a = .translated ∨ regionOf a = .vault → s.mayReach a n → locate s s.mySlot a s.iss.who.writeAcc false = .ok l →
      (s.meetsWrite s.mySlot [(l, a, n)] a n = .clear → stored (.st sd sa oc sz off) (s.src sd)) ∧
      (∀ p, s.meetsWrite s.mySlot [(l, a, n)] a n = .poison p →
        exec (.st sd sa oc sz off) s = .next (((s.ledAll [(l, a, n)]).defer (mkTrap .abortedLanding 2 p)).ended .done)) ∧
      (∀ w, s.meetsWrite s.mySlot [(l, a, n)] a n = .stall w → exec (.st sd sa oc sz off) s = .next ((held a (s.src sd) (.ofNat 16 (2 ^ oc.toNat))).ended .done))) ∧
    (b % n = 0 → regionOf b = .translated ∨ regionOf b = .vault → s.mayReach b n → locate s s.mySlot b s.iss.who.writeAcc false = .ok l →
      (∀ h ∈ s.heldw, h.owned = true → h.who = s.iss.who → h.classes &&& mask = 0) →
      (s.meetsWrite s.mySlot [(l, b, n)] b n = .clear → stored (.stl sd sa sb sz scope) (s.src sb)) ∧
      (∀ w, s.meetsWrite s.mySlot [(l, b, n)] b n = .stall w → exec (.stl sd sa sb sz scope) s = .next ((held b (s.src sb) mask).ended .done))) ∧
    (s.tablesRead s.iss.who = false ∨ (∃ h ∈ s.heldw, h.owned = true ∧ h.who = s.iss.who ∧ h.classes &&& mask ≠ 0) →
      waits (.stl sd sa sb sz scope) s.heldObj (.writesDone s.iss.who mask) 8) ∧
    (a % n = 0 → regionOf a = .translated ∨ regionOf a = .vault → s.tablesRead s.iss.who = false →
      waits (.st sd sa oc sz off) s.tableObj (.tablesRead s.iss.who) 8) ∧
    (a % n = 0 → s.tablesRead s.iss.who = true → s.retiringSpan s.mySlot a n = true → waits (.st sd sa oc sz off) 0 .again 0) ∧
    (sz = 2 → a % 4 = 0 → regionOf a = .sem → (a - semWindow) / 4 < s.myCtx.semCount → s.tablesRead s.iss.who = true →
      (∀ h ∈ s.heldw, h.owned = true → h.who = s.iss.who → h.classes = 0) →
      exec (.st sd sa oc sz off) s = .next ((s.setWindowSem ((a - semWindow) / 4) ((s.src sd).truncate 32)).ended .done)) ∧
    (regionOf a = .translated → a % n ≠ 0 → exec (.st sd sa oc sz off) s = .next (s.takeTrap (mkTrap .misalignment 0 a)))

/-- 12_scalar R251, R252: an aligned atomic that translates with its rights and meets no landing box and no held write reads the old value and writes the new one as
one access; the old value, zero-extended, goes to sd; every other byte stays, and while C holds an open tile aadd, axor and acas set NIDEM. It waits as a load
does for C's tloads and for a pinv (11_page R231).
12_scalar R253; 08_memory R172: where an atomic is refused (a table region, host memory without the form or without the link's atomics) it traps,
and so does a misaligned one; in the semaphore window the four word forms act on the chip semaphore once no write of the sequencer is held, the others
trap, and while C holds an open tile aadd is entered in the commit buffer. -/
def Obligations.AtomicForms : Prop :=
  (∀ (s : State) (sd sa sb : BitVec 5) (cls scope : BitVec 2) (u d : BitVec 1) (l : Loc), s.acts = true → s.memOk →
    let n : Nat := if d = 0 then 4 else 8
    let a := (s.src sa).toNat
    let b := (s.src sb).toNat % 2 ^ (8 * n)
    let e := (s.src sd).toNat % 2 ^ (8 * n)
    let old := ((List.range n).map fun i => (s.readLoc l i).toNat * 256 ^ i).sum
    let int (v : Nat) : Int := if u = 1 ∨ v < 2 ^ (8 * n - 1) then v else (v : Int) - 2 ^ (8 * n)
    let does (o : Instr) (new : Nat) (unrepeatable : Bool) : Prop := ∃ t : State,
      exec o s = .next (((if unrepeatable then t.noteUnrepeatable else t).wr sd (.ofNat 64 old)).ended .done) ∧
      (∀ i < n, t.peek l.enc (l.key + i) = BitVec.ofNat 8 (new / 256 ^ i)) ∧
      (∀ c, c < l.key ∨ l.key + n ≤ c → t.peek l.enc c = s.peek l.enc c) ∧
      (∀ k c, c / 128 ≠ l.key / 128 → t.peek k c = s.peek k c) ∧
      t = { s with mem := t.mem, sect := t.sect, filter := t.filter, caches := t.caches }
    a % n = 0 → regionOf a = .translated ∨ regionOf a = .vault → s.mayReach a n → locate s s.mySlot a .atomic false = .ok l →
      l.home ≠ 2 → s.meetsRead a n = .clear → s.lineStall s.mySlot (s.reached a n) (s.linesAsked [(l, a, n)]) = none →
      does (.aadd sd sa sb cls scope d) ((old + b) % 2 ^ (8 * n)) true ∧
      does (.aand sd sa sb cls scope d) (old &&& b) false ∧
      does (.aor sd sa sb cls scope d) (old ||| b) false ∧
      does (.axor sd sa sb cls scope d) (old ^^^ b) true ∧
      does (.amin sd sa sb cls scope u d) (if int b < int old then b else old) false ∧
      does (.amax sd sa sb cls scope u d) (if int old < int b then b else old) false ∧
      does (.aswp sd sa sb cls scope d) b false ∧
      does (.acas sd sa sb cls scope d) (if old = e then b else old) true) ∧
  (∀ (s : State) (sd sa sb : BitVec 5) (cls scope : BitVec 2) (u : BitVec 1) (l : Loc), s.acts = true →
    let a := (s.src sa).toNat
    let b := (s.src sb).toNat % 2 ^ 32
    let i := (a - semWindow) / 4
    let old := s.chipSem s.mySlot i
    let traps (o : Instr) (t : Trap) : Prop := exec o s = .next (s.takeTrap t)
    let gives (o : Instr) (v : BitVec 32) : Prop := exec o s = .next (((s.setWindowSem i v).wr sd (.ofNat 64 old.toNat)).ended .done)
    (a % 4 = 0 → regionOf a = .translated → s.mayReach a 4 → locate s s.mySlot a .atomic false = .ok l → l.home = 2 →
      (∀ o ∈ [Instr.aand sd sa sb cls scope 0, .aor sd sa sb cls scope 0, .axor sd sa sb cls scope 0, .amin sd sa sb cls scope u 0,
        .amax sd sa sb cls scope u 0], traps o (mkTrap .permission 11)) ∧
      (s.link.feat.getLsbD 1 = false → ∀ o ∈ [Instr.aadd sd sa sb cls scope 0, .aswp sd sa sb cls scope 0, .acas sd sa sb cls scope 0],
        traps o (mkTrap .permission 11))) ∧
    (a % 4 = 0 → regionOf a = .translated → s.mayReach a 4 → locate s s.mySlot a .read false = .ok l → l.tbl = true →
      ∀ o ∈ [Instr.aadd sd sa sb cls scope 0, .aand sd sa sb cls scope 0, .aor sd sa sb cls scope 0, .axor sd sa sb cls scope 0,
        .amin sd sa sb cls scope u 0, .amax sd sa sb cls scope u 0, .aswp sd sa sb cls scope 0, .acas sd sa sb cls scope 0],
        traps o (mkTrap .permission 12 a)) ∧
    (a % 4 ≠ 0 → regionOf a = .translated → traps (.aadd sd sa sb cls scope 0) (mkTrap .misalignment 0 a)) ∧
    (a % 4 = 0 → regionOf a = .sem → i < s.myCtx.semCount → s.tablesRead s.iss.who = true →
      (∀ h ∈ s.heldw, h.owned = true → h.who = s.iss.who → h.classes = 0) →
      (s.tileOpen = false →
        (∀ v, s.semSum s.mySlot i (signed32 b) = some v → gives (.aadd sd sa sb cls scope 0) v) ∧
        (s.semSum s.mySlot i (signed32 b) = none → traps (.aadd sd sa sb cls scope 0) (mkTrap .semOverflow (i % 4096 + 4096)))) ∧
      (s.tileOpen = true → s.myCore.cbuf.length < 64 → exec (.aadd sd sa sb cls scope 0) s =
        .next (((s.setMyCore { s.myCore with cbuf := s.myCore.cbuf ++ [.semAdd i (.ofInt 64 (signed32 b))] }).wr sd 0).ended .done)) ∧
      gives (.amin sd sa sb cls scope 1 0) (.ofNat 32 (min old.toNat b)) ∧
      gives (.amax sd sa sb cls scope 1 0) (.ofNat 32 (max old.toNat b)) ∧
      gives (.acas sd sa sb cls scope 0) (if old.toNat = (s.src sd).toNat % 2 ^ 32 then .ofNat 32 b else old) ∧
      (∀ o ∈ [Instr.aand sd sa sb cls scope 0, .aor sd sa sb cls scope 0, .axor sd sa sb cls scope 0, .aswp sd sa sb cls scope 0,
        .amin sd sa sb cls scope 0 0, .amax sd sa sb cls scope 0 0], traps o (mkTrap .permission 5))) ∧
    (a % 8 = 0 → regionOf a = .sem → ∀ o ∈ [Instr.aadd sd sa sb cls scope 1, .amin sd sa sb cls scope 1 1, .amax sd sa sb cls scope 1 1,
      .acas sd sa sb cls scope 1], traps o (mkTrap .permission 5)))

/-- 12_scalar R254, R256; 09_ordering R192, R194: with no write of an ordered class held behind a watermark and no tload of C to be read a fence is done at once, and with no
P-format operation or stream of its core under way so is syncw; else they wait with KIND 10. -/
def Obligations.FenceForms : Prop :=
  ∀ (s : State) (mask : BitVec 16) (scope : BitVec 2), s.acts = true →
    (s.tablesRead s.iss.who = true → (∀ h ∈ s.heldw, h.owned = true → h.who = s.iss.who → h.classes &&& mask = 0) →
      exec (.fence mask scope) s = .next (s.ended .done)) ∧
    (s.tablesRead s.iss.who = false ∨ (∃ h ∈ s.heldw, h.owned = true ∧ h.who = s.iss.who ∧ h.classes &&& mask ≠ 0) →
      exec (.fence mask scope) s =
        .next ((s.setCur (s.cur.block s 10 0xF5 (.writesDone s.iss.who mask))).ended .waiting)) ∧
    (mask = 0 → exec (.syncw mask) s = .next (s.ended .done)) ∧
    (∀ c q, s.iss.who = .seq c q → s.pOpOpen (.core c) = false → exec (.syncw mask) s = .next (s.ended .done)) ∧
    (∀ c q, s.iss.who = .seq c q → s.pOpOpen (.core c) = true → mask ≠ 0 →
      exec (.syncw mask) s = .next ((s.setCur (s.cur.block s 10 0xF6 (.opsDone s.iss.who))).ended .waiting)) ∧
    (∀ p k, s.iss.who = .pier p k → exec (.syncw mask) s = .next (s.ended .done))

/-- 12_scalar R257, R258; 03_encoding R67, R77: branches and jumps record the transfer that the end of the step takes.
05_kernel R130: sj jumps, sjp when the top entry is all false, by a distance in steps; past the ends of a table memory they are the illegal-order
trap. -/
def Obligations.BranchForms : Prop :=
  (∀ (s : State) (sd sa : BitVec 5) (off : BitVec 16) (far : BitVec 21), s.iss.xfer = none →
    let a := (s.src sa).toInt
    let here := s.iss.here
    let goes (t : Word) (r : State) : State := { r with iss := { r.iss with xfer := some (.jump t) } }
    let near : Word := .ofInt 64 (here.toInt + 8 * off.toInt)
    let branch (o : Instr) (p : Prop) : Prop :=
      (p → exec o s = .next ((goes near s).ended .done)) ∧ (¬p → exec o s = .next (s.ended .done))
    branch (.bpt off) (s.acts = true) ∧ branch (.bpf off) (s.acts = false) ∧
    (s.acts = true →
      branch (.bzeq sa off) (a = 0) ∧ branch (.bzne sa off) (a ≠ 0) ∧ branch (.bzlt sa off) (a < 0) ∧ branch (.bzge sa off) (0 ≤ a) ∧
      branch (.bzgt sa off) (0 < a) ∧ branch (.bzle sa off) (a ≤ 0) ∧
      exec (.jal sd far) s = .next ((goes (.ofInt 64 (here.toInt + 8 * far.toInt)) (s.wr sd (here + 8))).ended .done) ∧
      ((s.src sa).toNat % 8 = 0 →
        exec (.jalr sd sa) s = .next ((goes (s.src sa) (s.wr sd (here + 8))).ended .done) ∧
        exec (.jr sa) s = .next ((goes (s.src sa) s).ended .done)) ∧
      ((s.src sa).toNat % 8 ≠ 0 →
        exec (.jalr sd sa) s = .next (s.takeTrap (mkTrap .misalignment 0 (s.src sa).toNat)) ∧
        exec (.jr sa) s = .next (s.takeTrap (mkTrap .misalignment 0 (s.src sa).toNat))))) ∧
  (∀ (s : State) (tok : BitVec 4) (off : BitVec 12), s.iss.xfer = none →
    let size : Int := if s.iss.who.isScalar then 8 else 1
    let here : Int := if s.iss.who.isScalar then s.iss.here.toInt else (s.iss.here.toNat % 2048 : Nat)
    let target : Int := here + size * off.toInt
    let inside : Prop := s.iss.who.isScalar = true ∨ (0 ≤ target ∧ target ≤ 2047)
    let jumped : State := { s with iss := { s.iss with xfer := some (.jump (.ofInt 64 target)) } }
    (inside → exec (.sj tok off) s = .next (jumped.ended .done)) ∧
    (¬inside → exec (.sj tok off) s = .next (s.takeTrap (illegalWord .overLimit s.word))) ∧
    (s.acts = true → exec (.sjp tok off) s = .next (s.ended .done)) ∧
    (s.acts = false → inside → exec (.sjp tok off) s = .next (jumped.ended .done)) ∧
    (s.acts = false → ¬inside → exec (.sjp tok off) s = .next (s.takeTrap (illegalWord .overLimit s.word))))

/-- 05_kernel R125; 03_encoding R80: nop and tok change nothing but by their tokens; lpat in slot 0 records its pattern for slot 1; pause idles the
sequencer; brk and trap are the breakpoint and the software trap.
05_kernel R125; 07_group R157; 03_encoding R67; 09_ordering R191: halt of an engine stops it at the end of the step, and that of a stream or a copy
sequencer once its held writes are performed; C's waits for its engines, then for its streams, and traps while a tile is open; after a transfer of
slot 0 it has no effect. -/
def Obligations.CommonForms : Prop :=
  (∀ (s : State) (tok n : BitVec 4) (kind k : BitVec 5) (code t : BitVec 12), s.acts = true →
    exec (.nop tok) s = .next (s.ended .done) ∧
    exec (.tok tok n) s = .next (s.ended .done) ∧
    (s.iss.slot = 0 → exec (.lpat kind k) s = .next (State.ended { s with iss := { s.iss with lpat := some (kind.toNat, k.toNat) } } .done)) ∧
    (s.iss.slot ≠ 0 → exec (.lpat kind k) s = .next (s.ended .done)) ∧
    exec (.pause tok t) s = .next ((s.setCur { s.cur with idleUntil := s.clk + t.toNat }).ended .done) ∧
    exec (.brk tok code) s = .next (s.takeTrap (mkTrap .breakpoint code.toNat)) ∧
    exec (.trap tok code) s = .next (s.takeTrap (mkTrap .softwareTrap (2 + code.toNat * 2 ^ 16)))) ∧
  (∀ (s : State) (tok : BitVec 4), s.acts = true →
    let stops : Prop := exec (.halt tok) s = .next (State.ended { s with iss := { s.iss with xfer := some .stop } } .done)
    (∀ c q, s.iss.who = .seq c q → q ≠ 0 → s.iss.xfer = none → stops) ∧
    ((∀ c q, s.iss.who ≠ .seq c q) → s.iss.xfer = none →
      ((∀ h ∈ s.heldw, h.owned = true → h.who = s.iss.who → h.classes = 0) → stops) ∧
      ((∃ h ∈ s.heldw, h.owned = true ∧ h.who = s.iss.who ∧ h.classes ≠ 0) →
        exec (.halt tok) s = .next ((s.setCur (s.cur.block s 8 s.heldObj (.writesDone s.iss.who 0xFFFF))).ended .waiting))) ∧
    (∀ c, s.iss.who = .seq c 0 → s.iss.xfer = none →
      ((s.core c).opened = true → exec (.halt tok) s = .next (s.takeTrap (mkTrap .permission 9))) ∧
      ((s.core c).opened = false → (∃ e, 1 ≤ e ∧ e ≤ 5 ∧ (s.seq (.seq c e)).run ≠ .stopped) →
        exec (.halt tok) s = .next ((s.setCur (s.cur.block s 9 7 (.engineStopped c 7))).ended .waiting)) ∧
      ((s.core c).opened = false → (∀ e, 1 ≤ e → e ≤ 5 → (s.seq (.seq c e)).run = .stopped) → s.openForks c ≠ [] →
        exec (.halt tok) s = .next ((s.setCur (s.cur.block s 10 0xF0 (.tagAll (s.openForks c)))).ended .waiting)) ∧
      ((s.core c).opened = false → (∀ e, 1 ≤ e → e ≤ 5 → (s.seq (.seq c e)).run = .stopped) → s.openForks c = [] → stops)) ∧
    (∀ c q, s.iss.who = .seq c q → s.iss.transferred = true → exec (.halt tok) s = .next (s.ended .done)))

/-- 05_kernel R127-R129: a loop step within its limits (fewer than four frames, the loop register in none of them, its body inside the innermost body and the table
memory, no second rotating loop) sets the loop register and opens its frame, or with a trip count of 0 skips its body; past a limit it is the
illegal-order trap, and so are loopp on its own pointer's register and a loopr inside a rotating loop. That the skip of a body is no control
transfer of 03_encoding R67, so that a transfer of the other slot stands beside it, is the model's choice (log 19). -/
def Obligations.LoopForms : Prop :=
  ∀ (s : State) (tok : BitVec 4) (n p : BitVec 2) (len count : BitVec 6) (sm1 : BitVec 3) (d : BitVec 1),
    let q := s.cur
    let size : Int := if s.iss.who.isScalar then 8 else 1
    let here : Int := if s.iss.who.isScalar then s.iss.here.toInt else (s.iss.here.toNat % 2048 : Nat)
    let last : Int := here + size * (len.toNat + 1)
    let past : Prop := 4 ≤ q.frames.length ∨ (∃ f ∈ q.frames, f.reg = n.toNat) ∨ (∃ f ∈ q.frames.head?, (f.last.toNat : Int) < last) ∨
      (s.iss.who.isScalar = false ∧ 2047 < last)
    let begun (t : State) (trips stages : Nat) (rot : Bool) : State :=
      if trips = 0 then (if t.iss.transferred then t else { t with iss := { t.iss with xfer := some (.skip (.ofInt 64 last)) } })
      else t.setCur { t.cur with lc := t.cur.lc.set n.toNat (.ofNat 64 (trips + stages - 1)),
                                 frames := { reg := n.toNat, first := .ofInt 64 (here + size), last := .ofInt 64 last, rotating := rot,
                                             stages := stages, trips := trips } :: t.cur.frames }
    (¬past →
      exec (.loop tok n len count) s = .next ((begun s count.toNat 1 false).ended .done) ∧
      exec (.loopR tok n len) s = .next ((begun s (s.lcSrc n.toNat).toNat 1 false).ended .done) ∧
      ((∀ f ∈ q.frames, f.rotating = false) →
        exec (.loopr tok n sm1 len) s = .next ((begun s (s.lcSrc n.toNat).toNat (sm1.toNat + 1) true).ended .done)) ∧
      (n ≠ p → ∀ p0 p1 t u, let w : Nat := if d = 0 then 4 else 8
        let a := (s.lcSrc p.toNat).toNat
        a % w = 0 → s.loadNat a w = .ok (p0, t) → t.loadNat ((a + w) % 2 ^ 64) w = .ok (p1, u) →
        exec (.loopp tok n p d len) s = .next ((begun (u.wrLc p.toNat (.ofNat 64 (a + w))) (p1 - p0) 1 false).ended .done))) ∧
    (past →
      exec (.loop tok n len count) s = .next (s.takeTrap (illegalWord .overLimit s.word)) ∧
      exec (.loopR tok n len) s = .next (s.takeTrap (illegalWord .overLimit s.word)) ∧
      exec (.loopr tok n sm1 len) s = .next (s.takeTrap (illegalWord .overLimit s.word)) ∧
      exec (.loopp tok n p d len) s = .next (s.takeTrap (illegalWord .overLimit s.word))) ∧
    exec (.loopp tok n n d len) s = .next (s.takeTrap (illegalWord .overLimit s.word)) ∧
    ((∃ f ∈ q.frames, f.rotating = true) → exec (.loopr tok n sm1 len) s = .next (s.takeTrap (illegalWord .overLimit s.word))) ∧
    (¬past → n ≠ p → let w : Nat := if d = 0 then 4 else 8
      (s.lcSrc p.toNat).toNat % w ≠ 0 → exec (.loopp tok n p d len) s = .next (s.takeTrap (mkTrap .misalignment 0 (s.lcSrc p.toNat).toNat)))

/-- 05_kernel R131: ptrue pushes an all-true entry on a stack with room; pelse complements the top entry under its parent, both on the stack as the slot before left it and whatever the top entry holds; a full or an empty stack
traps; their words, with a and imm12 reserved. -/
def Obligations.PredicateForms : Prop :=
  ∀ (s : State) (tok : BitVec 4),
    (s.cur.stack.length < 8 →
      exec (.ptrue tok) s = .next ((s.setCur { s.cur with stack := BitVec.allOnes 1024 :: s.cur.stack }).ended .done)) ∧
    (8 ≤ s.cur.stack.length → exec (.ptrue tok) s = .next (s.takeTrap (mkTrap .predOverflow))) ∧
    (∀ top rest, s.cur.stack = top :: rest →
      exec (.pelse tok) s = .next ((s.setCur { s.cur with stack := (rest.headD (BitVec.allOnes 1024) &&& ~~~top) :: rest }).ended .done)) ∧
    (s.cur.stack = [] → exec (.pelse tok) s = .next (s.takeTrap (mkTrap .predUnderflow))) ∧
    encode (.pelse tok) = some (.ofNat 32 (0x08000000 + tok.toNat * 2 ^ 22)) ∧ encode (.ptrue tok) = some (.ofNat 32 (0x08020000 + tok.toNat * 2 ^ 22)) ∧
    (∀ w : BitVec 32, w.extractLsb' 26 6 = 2 → w.extractLsb' 17 5 = 0 ∨ w.extractLsb' 17 5 = 1 → w.extractLsb' 0 17 ≠ 0 →
      decodeWord .c w = .error .reservedField)

/-- 05_kernel R132, R133; 00_scope R14: semaphores of the core. semset and semadd come after every held write and tload of their sequencer, and a wait whose value is
there latches before they change it; semadd traps where the sum leaves 32 bits; semwait is done once the semaphore has reached its value, or had
reached it when another order changed it. Updates and waits carry what VA and VB have written to those that see them (13_vector R271).
05_kernel R133; 00_scope R14: the tags that a mask names; twany is done when one is complete or none is named, twall when all are, each also when its
condition had come about while it waited; tffr puts the lowest one that
is complete and not reported into lc3 and reports it, 64 for an empty mask, or the tag that had come about while it waited (log 106); else they wait with KIND 6 on
the lowest named tag. -/
def Obligations.SemaphoreTagForms : Prop :=
  (∀ (s : State) (tok : BitVec 4) (n : BitVec 5) (v : BitVec 12), s.acts = true →
    let k := s.myCore
    let old := (k.sem.get 0 n.toNat).toNat
    let sum : Int := old + v.toInt
    let met := s.latched (.semAtLeast s.myCoreNo n.toNat v.toNat)
    (s.tablesRead s.iss.who = true → (∀ h ∈ s.heldw, h.owned = true → h.who = s.iss.who → h.classes = 0) →
      exec (.semset tok n v) s = .next (((s.latch.setMyCore { k with sem := k.sem.set n.toNat (.ofNat 32 v.toNat) }).stampSem n.toNat false).ended .done) ∧
      (0 ≤ sum → sum < 2 ^ 32 →
        exec (.semadd tok n v) s = .next (((s.latch.setMyCore { k with sem := k.sem.set n.toNat (.ofInt 32 sum) }).stampSem n.toNat true).ended .done)) ∧
      (sum < 0 ∨ 2 ^ 32 ≤ sum → exec (.semadd tok n v) s = .next (s.takeTrap (mkTrap .semOverflow n.toNat)))) ∧
    (s.tablesRead s.iss.who = false ∨ (∃ h ∈ s.heldw, h.owned = true ∧ h.who = s.iss.who ∧ h.classes ≠ 0) →
      let waiting : Host.Outcome State Fault Refusal := .next ((s.setCur (s.cur.block s 8 s.heldObj (.writesDone s.iss.who 0xFFFF))).ended .waiting)
      exec (.semset tok n v) s = waiting ∧ exec (.semadd tok n v) s = waiting) ∧
    (v.toNat ≤ old ∨ met = true → exec (.semwait tok n v) s = .next ((s.see s.iss.who (k.semSeen.get (0, 0) n.toNat)).ended .done)) ∧
    (old < v.toNat → met = false → exec (.semwait tok n v) s =
      .next ((s.setCur (s.cur.block s 5 n.toNat (.semAtLeast s.myCoreNo n.toNat v.toNat))).ended .waiting))) ∧
  (∀ (s : State) (tok : BitVec 4) (half : BitVec 5) (mask : BitVec 12), s.acts = true →
    let ts : List TagRef := ((List.range 12).filter fun j => mask.getLsbD j).map fun j => s.myTag (2 * half.toNat + j)
    let fresh (t : TagRef) : Bool := (s.tag t).complete && !(s.tag t).rep
    let waits (o : Instr) (c : Cond) : Prop := exec o s = .next ((s.setCur (s.cur.block s 6 (lowestTag ts) c)).ended .waiting)
    (ts = [] ∨ (∃ t ∈ ts, (s.tag t).complete = true) ∨ s.latched (.tagAny ts) = true → exec (.twany tok half mask) s = .next (s.ended .done)) ∧
    (ts ≠ [] → (∀ t ∈ ts, (s.tag t).complete = false) → s.latched (.tagAny ts) = false → waits (.twany tok half mask) (.tagAny ts)) ∧
    ((∀ t ∈ ts, (s.tag t).complete = true) ∨ s.latched (.tagAll ts) = true → exec (.twall tok half mask) s = .next (s.ended .done)) ∧
    ((∃ t ∈ ts, (s.tag t).complete = false) → s.latched (.tagAll ts) = false → waits (.twall tok half mask) (.tagAll ts)) ∧
    (mask = 0 → exec (.tffr tok half mask) s = .next ((s.wrLc 3 64).ended .done)) ∧
    (∀ l t r, ts = l ++ t :: r → (∀ u ∈ l, fresh u = false) → fresh t = true →
      exec (.tffr tok half mask) s = .next (((s.setTag t { s.tag t with rep := true }).wrLc 3 (.ofNat 64 t.tag)).ended .done)) ∧
    (∀ t, ts ≠ [] → (∀ u ∈ ts, fresh u = false) → s.latchedTag (.tagFresh ts) = some t →
      exec (.tffr tok half mask) s = .next ((s.wrLc 3 (.ofNat 64 t.tag)).ended .done)) ∧
    (ts ≠ [] → (∀ t ∈ ts, fresh t = false) → s.latchedTag (.tagFresh ts) = none → waits (.tffr tok half mask) (.tagFresh ts)))

/-- 05_kernel R122; 12_scalar R235: under a false top entry an order of a one-bit sequencer takes no effect. The exceptions are majors 0x01 and 0x02, the
compares (0x0D) and the bp family; the orders of the vector engines (0x20-0x2F) mask lanes instead. -/
def Obligations.FalsePredicateNoEffect : Prop :=
  ∀ (i : Instr) (w : BitVec 32) (s : State), encode i = some w →
    let major := (w.extractLsb' 26 6).toNat
    major ≠ 0x01 → major ≠ 0x02 → major ≠ 0x0D → ¬(0x20 ≤ major ∧ major ≤ 0x2F) → (∀ off, i ≠ .bpt off ∧ i ≠ .bpf off) →
    s.acts = false → exec i s = .next (s.ended .done)

/-- 05_kernel R134-R136: tload fills steps of a stopped engine's table memory, at once or, behind a watermark, later (C goes on, and the engine's next load and
start wait for it); tstart runs a stopped engine from a step; tstop stops one at its step boundary; tbase moves its bases; tset and tget move its
registers, none of the three while a step of the engine has acted in part (the model's reading, log 102); twidle is done once the engine, or every
engine, is stopped and its stores are performed. tstart and twidle pass on what VA and VB have written to
their registers (13_vector R271; log 109). -/
def Obligations.TableForms : Prop :=
  ∀ (s : State) (sd sa : BitVec 5) (e : BitVec 3), s.acts = true →
    let c := s.myCoreNo
    let k := s.myCore
    let a : Agent := .seq c e.toNat
    let q := s.seq a
    let v := s.src sa
    let r := (s.src sd).toNat
    let first := r / 2 ^ 16
    let count := r % 2 ^ 16
    let loaded : Prop := q.run = .stopped ∧ k.tloads.has e.toNat = false
    let idle : Prop := (∀ j, 1 ≤ j → j ≤ 5 → e = 7 ∨ j = e.toNat → (s.seq (.seq c j)).run = .stopped) ∧
      ∀ h ∈ s.heldw, h.owned = true → ∀ j, h.who = .seq c j → j ≠ 0 → e ≠ 7 ∧ j ≠ e.toNat
    let between : Prop := s.parked.has a = false
    let waits (o : Instr) (w : Cond) : Prop := exec o s = .next ((s.setCur (s.cur.block s 9 e.toNat w)).ended .waiting)
    (∀ ps w, loaded → 0 < count → first + count ≤ 2048 → v.toNat % 8 = 0 →
      s.retiringSpan s.mySlot v.toNat (9 * count) = false →
      locateAll s s.mySlot .exec false (spanPieces v.toNat (9 * count)) = .ok ps → s.meetsRead v.toNat (9 * count) = .stall w →
      let load : TableLoad := { step := s.iss.here, wslot := s.iss.slot, first := first, count := count, src := ps, order := s.nextOp }
      let t : State := s.setMyCore { k with tloads := k.tloads.set e.toNat load }
      exec (.tload sd sa e) s = .next (State.ended { t with
        filter := (s.ledAll ps).filter, caches := (s.ledAll ps).caches, nextOp := s.nextOp + 1 } .done)) ∧
    (∀ ps, loaded → 0 < count → first + count ≤ 2048 → v.toNat % 8 = 0 →
      s.retiringSpan s.mySlot v.toNat (9 * count) = false →
      locateAll s s.mySlot .exec false (spanPieces v.toNat (9 * count)) = .ok ps → s.meetsRead v.toNat (9 * count) = .clear →
      let b := s.readPieces ps
      ∃ t : State, exec (.tload sd sa e) s = .next (t.ended .done) ∧
        (∀ i < count, (t.core c).tbl.get {} (e.toNat, first + i) =
          { w0 := .ofNat 32 (fieldAt b (8 * i) 4), w1 := .ofNat 32 (fieldAt b (8 * i + 4) 4), attr := .ofNat 8 (fieldAt b (8 * count + i) 1) }) ∧
        (∀ j i, j ≠ e.toNat ∨ i < first ∨ first + count ≤ i → (t.core c).tbl.get {} (j, i) = k.tbl.get {} (j, i)) ∧
        t = { s.setMyCore { k with tbl := (t.core c).tbl, tloads := k.tloads.drop e.toNat } with
                filter := (s.ledAll ps).filter, caches := (s.ledAll ps).caches }) ∧
    (loaded → 2048 < first + count ∨ count = 0 → exec (.tload sd sa e) s = .next (s.takeTrap (illegalWord .overLimit s.word))) ∧
    (loaded → v.toNat ≤ 2047 →
      exec (.tstart sa e) s =
        .next (((s.setSeq a { q with pc := v, stack := [], frames := [], run := .running, halting := false }).see a (s.stampOf s.iss.who)).ended .done)) ∧
    (loaded → 2047 < v.toNat → exec (.tstart sa e) s = .next (s.takeTrap (illegalWord .overLimit s.word))) ∧
    (idle → (let saw (t : State) (j : Nat) : State := if e = 7 ∨ e.toNat = j then t.see s.iss.who (s.stampOf (.seq c j)) else t;
      exec (.twidle e) s = .next ((saw (saw s 3) 4).ended .done))) ∧ (¬idle → waits (.twidle e) (.engineIdle c e.toNat)) ∧
    (¬loaded → waits (.tload sd sa e) (.engineLoaded c e.toNat) ∧ waits (.tstart sa e) (.engineLoaded c e.toNat)) ∧
    (¬between → waits (.tbase sd sa e) (.stepDone a) ∧ (∀ n, n ≠ 1 → waits (.tget sd n e) (.stepDone a)) ∧ ∀ n, n ≠ 0 → waits (.tset sa n e) (.stepDone a)) ∧
    (e ≠ 7 → e ≠ 0 → s.iss.who = .seq c 0 → q.run ≠ .held →
      ∃ t : State, exec (.tstop e) s = .next (t.ended .done) ∧ (t.seq a).run = .stopped ∧ t.mem = s.mem ∧ t.sect = s.sect ∧
        (∀ x, x ≠ a → t.seq x = s.seq x) ∧ (q.run = .stopped → t = s)) ∧
    (e = 7 → s.iss.who = .seq c 0 → (∀ j, 1 ≤ j → j ≤ 5 → (s.seq (.seq c j)).run ≠ .held) →
      ∃ t : State, exec (.tstop e) s = .next (t.ended .done) ∧ (∀ j, 1 ≤ j → j ≤ 5 → (t.seq (.seq c j)).run = .stopped) ∧ t.mem = s.mem) ∧
    (between → e = 3 ∨ e = 4 → r % 4 = 0 → r ≤ 740 →
      ∃ m, exec (.tbase sd sa e) s = .next ((s.setSeq a { q with base := r, asb := m }).ended .done) ∧
        ∀ j < 8, m.get 0 j = .ofNat 64 (((q.asb.get 0 j).toNat + v.toNat) % 2 ^ 57)) ∧
    (between → e = 3 ∨ e = 4 → r % 4 ≠ 0 ∨ 740 < r → exec (.tbase sd sa e) s = .next (s.takeTrap (illegalWord .overLimit s.word))) ∧
    (between → e = 2 → ∃ m, exec (.tbase sd sa e) s = .next ((s.setMyCore { k with md := m }).ended .done) ∧
      ∀ j, m.get 0 j = if j < 16 ∧ r.testBit j then rebaseMd (k.md.get 0 j) v.toNat else k.md.get 0 j) ∧
    (between → e = 1 ∨ e = 5 → r < 2 ^ 16 → ∃ m, exec (.tbase sd sa e) s = .next ((s.setSeq a { q with fd := m }).ended .done) ∧
      ∀ j, m.get 0 j = if j < 16 ∧ r.testBit j then rebaseFd (q.fd.get 0 j) v.toNat else q.fd.get 0 j) ∧
    (let gets (n : BitVec 8) (w : Word) : Prop := between ∨ n = 1 → exec (.tget sd n e) s = .next ((s.wr sd w).ended .done);
      gets 0 (.ofNat 64 (q.pc.toNat % 2048)) ∧ gets 1 (match q.run with | .stopped => 0 | .running => 1 | .blocked => 2 | .held => 3) ∧
      gets 2 (.ofNat 64 q.fflags.toNat) ∧ gets 3 (.ofNat 64 q.stack.length) ∧ gets 9 (.ofNat 64 q.base) ∧ gets 0xA q.vtype ∧
      gets 0xB (.ofNat 64 q.patreg.toNat) ∧ gets 0x80 k.mrowp ∧ (∀ j < 4, gets (.ofNat 8 (4 + j)) (q.lc.get 0 j)) ∧
      (∀ j < 8, gets (.ofNat 8 (0x10 + j)) (q.es.get 0 j) ∧ gets (.ofNat 8 (0x20 + j)) (q.asb.get 0 j)) ∧
      (∀ j < 64, gets (.ofNat 8 (0x40 + j)) (q.str.get 0 j)) ∧
      (∀ f ∈ q.frames, f.rotating = true → (∀ g ∈ q.frames, g.rotating = true → g = f) → gets 8 (.ofNat 64 f.index))) ∧
    (let sets (n : BitVec 8) (q' : Seq) : Prop := between → exec (.tset sa n e) s = .next ((s.setSeq a q').ended .done);
      (q.run = .held ∨ loaded → sets 0 { q with pc := .ofNat 64 (v.toNat % 2048) }) ∧ sets 2 { q with fflags := v.truncate 8 } ∧
      sets 0xA { q with vtype := v &&& 0xFFF } ∧ sets 0xB { q with patreg := v.truncate 24 } ∧
      (∀ j < 4, sets (.ofNat 8 (4 + j)) { q with lc := q.lc.set j v }) ∧
      (∀ j < 8, sets (.ofNat 8 (0x10 + j)) { q with es := q.es.set j v } ∧ sets (.ofNat 8 (0x20 + j)) { q with asb := q.asb.set j v }) ∧
      (∀ j < 64, sets (.ofNat 8 (0x40 + j)) { q with str := q.str.set j v }) ∧
      (between → exec (.tset sa 0x80 e) s = .next ((s.setMyCore { k with mrowp := v &&& 0x8FFFFFFF }).ended .done)))

/-- 06_queue R146, R147; 09_ordering R183: with no tile open and no write or tload of C waiting, a put of a card to a queue that exists is entered in the core's replay window and sent. qput.nb is then done with
status 0; qput waits for the answer, and its second issue takes it (0 accepted, 3 dropped). Status 4: no such queue; status 2: a full window, for whose room qput waits (log 32). -/
def Obligations.PutForms : Prop :=
  ∀ (s : State) (sd sa sb : BitVec 5), s.acts = true → s.tileOpen = false →
    let c := s.myCoreNo
    let k := s.myCore
    let q := (s.src sb).toNat
    let a := (s.src sa).toNat
    let entry (b : List Byte) (blocking : Bool) : WinPut := { num := k.putNum, slot := s.mySlot, q := q, card := b, blocking := blocking, st := .sent }
    let quiet : Prop := s.tablesRead s.iss.who = true ∧ ∀ h ∈ s.heldw, h.owned = true → h.who = s.iss.who → h.classes = 0
    let sent (b : List Byte) (blocking : Bool) (t u : State) : Prop :=
      u = { t.setCore c { k with win := k.win ++ [entry b blocking], putNum := k.putNum + 1 } with
              disp := { s.disp with flights := s.disp.flights ++ [{ sender := some c, slot := s.mySlot, num := k.putNum, q := q, card := b }] } }
    (s.myCtx.queueCount ≤ q → exec (.qputNb sd sa sb) s = .next ((s.wr sd 4).ended .done)) ∧
    (s.myCtx.queueCount ≤ q → s.resumed .put = none → exec (.qput sd sa sb) s = .next ((s.wr sd 4).ended .done)) ∧
    (q < s.myCtx.queueCount → a % 128 ≠ 0 → exec (.qputNb sd sa sb) s = .next (s.takeTrap (mkTrap .misalignment 0 a))) ∧
    (q < s.myCtx.queueCount → a % 128 = 0 → 8 ≤ k.win.length → exec (.qputNb sd sa sb) s = .next ((s.wr sd 2).ended .done)) ∧
    (q < s.myCtx.queueCount → a % 128 = 0 → k.win.length < 8 → ¬quiet →
      exec (.qputNb sd sa sb) s = .next ((s.setCur (s.cur.block s 8 s.heldObj (.writesDone s.iss.who 0xFFFF))).ended .waiting)) ∧
    (q < s.myCtx.queueCount → a % 128 = 0 → 8 ≤ k.win.length → s.resumed .put = none →
      exec (.qput sd sa sb) s = .next ((s.setCur (s.cur.block s 10 q (.windowRoom c))).ended .waiting)) ∧
    (∀ b t, q < s.myCtx.queueCount → a % 128 = 0 → k.win.length < 8 → quiet → s.loadBytes a 128 = .ok (b, t) →
      (∃ u, sent b false t u ∧ exec (.qputNb sd sa sb) s = .next ((u.wr sd 0).ended .done)) ∧
      (s.resumed .put = none → ∃ u, sent b true t u ∧
        exec (.qput sd sa sb) s =
          .next (((u.setResume (some (s.resumeRec .put k.putNum))).setCur
            ((u.setResume (some (s.resumeRec .put k.putNum))).cur.block (u.setResume (some (s.resumeRec .put k.putNum))) 10 q
              (.putAnswered c k.putNum))).ended .waiting true))) ∧
    (∀ r n ok, s.resumed .put = some r → k.answers.find? (fun e => e.1 == r.a) = some (n, ok) →
      exec (.qput sd sa sb) s =
        .next ((((s.setMyCore { k with answers := k.answers.drop r.a }).setResume none).wr sd (if ok then 0 else 3)).ended .done)) ∧
    (∀ r, s.resumed .put = some r → k.answers.find? (fun e => e.1 == r.a) = none →
      exec (.qput sd sa sb) s = .next ((s.setCur (s.cur.block s 10 q (.putAnswered c r.a))).ended .waiting))

/-- 07_group R155, R156, R161; 06_queue R147: qtake opens the first tile of the own deque, after a hardware steal when it is empty; qsteal moves tiles from a
victim; qdone is done once the queue's count is reached or it runs no more, or had come to that while it waited (00_scope R14).
07_group R157, R158, R161: inside an open tile a put is entered in the commit buffer, its 65th entry a permission trap; qcommit without one
gives 1, with one it performs the buffer in order (semaphore adds, puts, xsig and supd) and closes the tile (NIDEM stays), the last tile of a card completing the card;
the trap of a semaphore that overflows comes after it. -/
def Obligations.TileForms : Prop :=
  (∀ (s : State) (sd sa sb : BitVec 5) (g : Nat), s.acts = true →
    let k := s.myCore
    let r := s.group g
    let r1 := if (r.deques.get [] k.rank).isEmpty ∧ 0 < r.untaken then (r.stealFrom (r.victim k.rank) k.rank).2 else r
    let steals (o : Instr) (v : Nat) : Prop :=
      (r.size ≤ v ∨ v = k.rank ∨ 256 ≤ (r.deques.get [] k.rank).length → exec o s = .next ((s.wr sd 0).ended .done)) ∧
      (v < r.size → v ≠ k.rank → (r.deques.get [] k.rank).length < 256 →
        exec o s = .next (((s.setGroup g (r.stealFrom v k.rank).2).wr sd (.ofNat 64 (r.stealFrom v k.rank).1)).ended .done))
    (k.bank = none → k.group = some g →
      (k.opened = true → exec (.qtake sd) s = .next (s.takeTrap (mkTrap .permission 8))) ∧
      (∀ t r2, k.opened = false → r1.take k.rank = some (t, r2) →
        exec (.qtake sd) s =
          .next ((((s.setGroup g r2).setMyCore { k with opened := true, nidem := false, tile := t, cbuf := [] }).wr sd
            (.ofNat 64 (coord r.card t))).ended .done)) ∧
      (k.opened = false → r1.take k.rank = none → r.untaken = 0 → exec (.qtake sd) s = .next ((s.wr sd (BitVec.allOnes 64)).ended .done)) ∧
      (k.opened = false → r1.take k.rank = none → 0 < r.untaken →
        exec (.qtake sd) s = .next ((s.setCur (s.cur.block s 10 0xFE (.tilesTaken s.myCoreNo))).ended .waiting)) ∧
      steals (.qsteal sd) (r.victim k.rank) ∧ steals (.qstealRank sd sa) (s.src sa).toNat) ∧
    (k.bank.isSome = true ∨ k.group = none →
      exec (.qtake sd) s = .next (s.takeTrap (mkTrap .permission 7)) ∧ exec (.qsteal sd) s = .next (s.takeTrap (mkTrap .permission 7)) ∧
      exec (.qstealRank sd sa) s = .next (s.takeTrap (mkTrap .permission 7))) ∧
    (let n := (s.src sa).toNat;
      let u := s.myCtx.queue n;
      let target := (s.src sb).toNat % 2 ^ 32;
      let reached : Prop := (u.done.toNat + 2 ^ 32 - target) % 2 ^ 32 < 2 ^ 31 ∨ u.st = .halted ∨ u.st = .drained ∨ u.st = .idle ∨
        s.latched (.queueCount s.mySlot n target) = true;
      (s.myCtx.queueCount ≤ n → exec (.qdone sd sa sb) s = .next ((s.wr sd (BitVec.allOnes 64)).ended .done)) ∧
      (n < s.myCtx.queueCount → reached →
        exec (.qdone sd sa sb) s = .next ((s.wr sd (.ofNat 64 (u.done.toNat + u.st.code * 2 ^ 32))).ended .done)) ∧
      (n < s.myCtx.queueCount → ¬reached →
        exec (.qdone sd sa sb) s = .next ((s.setCur (s.cur.block s 10 n (.queueCount s.mySlot n target))).ended .waiting)))) ∧
  (∀ (s : State) (sd sa sb : BitVec 5), s.acts = true →
    let k := s.myCore
    let q := (s.src sb).toNat
    let quiet : Prop := s.tablesRead s.iss.who = true ∧ ∀ h ∈ s.heldw, h.owned = true → h.who = s.iss.who → h.classes = 0
    let a := (s.src sa).toNat
    (∀ b t, s.tileOpen = true → q < s.myCtx.queueCount → a % 128 = 0 → quiet → s.loadBytes a 128 = .ok (b, t) → k.cbuf.length < 64 →
      exec (.qput sd sa sb) s = .next (((t.setMyCore { k with cbuf := k.cbuf ++ [.put q b] }).wr sd 0).ended .done) ∧
      exec (.qputNb sd sa sb) s = .next (((t.setMyCore { k with cbuf := k.cbuf ++ [.put q b] }).wr sd 0).ended .done)) ∧
    (∀ b t, s.tileOpen = true → q < s.myCtx.queueCount → a % 128 = 0 → quiet → s.loadBytes a 128 = .ok (b, t) → 64 ≤ k.cbuf.length →
      exec (.qput sd sa sb) s = .next (s.takeTrap (mkTrap .permission 6))) ∧
    (∀ g, k.bank = none → k.group = some g →
      let performed : Prop := k.tloads = [] ∧ ∀ h ∈ s.heldw, h.owned = true → s.coreOf h.who ≠ some s.myCoreNo
      (k.opened = false → exec (.qcommit sd) s = .next ((s.wr sd 1).ended .done)) ∧
      (k.opened = true → k.cbuf = [] → performed → s.resumed .commit = none →
        let r := s.group g
        let t := (s.setGroup g { r with committed := r.committed + 1 }).setMyCore { k with opened := false, cbuf := [], committing := false }
        let u := if r.committed + 1 = r.tiles then t.finish r.slot r.q r.card 0 (some g) r.members else t
        exec (.qcommit sd) s = .next (((u.setResume none).wr sd 0).ended .done)) ∧
      (k.opened = true → ¬performed → s.resumed .commit = none →
        exec (.qcommit sd) s = .next ((s.setCur (s.cur.block s 10 0xFD (.coreWrites s.myCoreNo))).ended .waiting)) ∧
      (∀ i v w, k.opened = true → k.cbuf = [.semAdd i v] → performed → s.resumed .commit = none →
        s.semSum s.mySlot i v.toInt = some w →
        ∃ t : State, exec (.qcommit sd) s = .next (t.ended .done) ∧ t.sems.get 0 (s.myCtx.semBase + i) = w ∧
          (t.core s.myCoreNo).opened = false ∧ (t.core s.myCoreNo).cbuf = [] ∧ (t.group g).committed = (s.group g).committed + 1) ∧
      (∀ t n, k.opened = true → performed → s.resumed .commit = none →
        State.commits k.cbuf (s.setMyCore { k with committing := true }) t 0 n →
        let r := t.group g
        let u := (t.setGroup g { r with committed := r.committed + 1 }).setMyCore { t.myCore with opened := false, cbuf := [], committing := false }
        let v := ((if r.committed + 1 = r.tiles then u.finish r.slot r.q r.card 0 (some g) r.members else u).setResume none).wr sd 0
        exec (.qcommit sd) s = .next ((if n = 0 then v else v.defer (mkTrap .semOverflow ((n - 1) % 4096 + 4096))).ended .done)) ∧
      (∀ q' b l, k.opened = true → performed → s.resumed .commit = none → k.cbuf = .put q' b :: l → 8 ≤ k.win.length →
        let u := (s.setMyCore { k with committing := true }).setResume (some (s.resumeRec .commit 0))
        exec (.qcommit sd) s = .next ((u.setCur (u.cur.block u 10 q' (.windowRoom s.myCoreNo))).ended .waiting true))) ∧
    (k.bank.isSome = true ∨ k.group = none → exec (.qcommit sd) s = .next (s.takeTrap (mkTrap .permission 7))))

/-- 10_barrier R199-R203: barr, once no write or tload of C waits, arrives for its rank and gives the phase; the barrier flips when every rank has arrived or halted; barw is done once a phase
has flipped; an arrival at a full stop comes once every operation and write of the core before it is done, the one that completes it flips it and is done, and the
others wait for the flip.
10_barrier R202, R204-R206: a transaction barrier's word in a vault, reached once no write or tload of C waits. txinit writes it whole; an arrival past the
parties, or expected units that leave their limits, trap, else they update it, closing the round when every party has arrived and nothing is owed; txwait is done
once its round has closed. -/
def Obligations.BarrierForms : Prop :=
  (∀ (s : State) (sd sa : BitVec 5) (g : Nat), s.acts = true →
    let k := s.myCore
    let r := s.group g
    let x := s.myCtx
    let n := (s.src sa).toNat
    let p := (s.src sa).toNat % 2 ^ 32
    let flipped : Prop := 1 ≤ (r.phase.toNat + 2 ^ 32 - p) % 2 ^ 32 ∧ (r.phase.toNat + 2 ^ 32 - p) % 2 ^ 32 < 2 ^ 31
    let quiet : Prop := s.tablesRead s.iss.who = true ∧ ∀ h ∈ s.heldw, h.owned = true → h.who = s.iss.who → h.classes = 0
    k.bank = none → k.group = some g →
      (quiet → (∃ j < r.size, j ≠ k.rank ∧ ¬(j ∈ r.arrived) ∧ ¬(j ∈ r.halted)) → ¬(k.rank ∈ r.arrived) →
        exec (.barr sd) s = .next (((s.setGroup g { r with arrived := k.rank :: r.arrived }).wr sd (.ofNat 64 r.phase.toNat)).ended .done)) ∧
      (quiet → (∀ j < r.size, j = k.rank ∨ j ∈ r.arrived ∨ j ∈ r.halted) →
        exec (.barr sd) s = .next (((s.setGroup g { r with phase := r.phase + 1, arrived := [] }).wr sd (.ofNat 64 r.phase.toNat)).ended .done)) ∧
      (¬quiet → exec (.barr sd) s = .next ((s.setCur (s.cur.block s 10 0xFB (.writesDone s.iss.who 0xFFFF))).ended .waiting)) ∧
      (flipped → exec (.barw sa) s = .next (s.ended .done)) ∧
      (¬flipped → exec (.barw sa) s = .next ((s.setCur (s.cur.block s 10 0xFB (.groupPhase s.myCoreNo p))).ended .waiting)) ∧
      (∀ f, s.resumed .fullStop = some f → x.fstopPhase.toNat ≠ f.a → exec (.fstop sd sa) s = .next ((s.setResume none).ended .done)) ∧
      (s.resumed .fullStop = none → n = 0 ∨ 128 < n → exec (.fstop sd sa) s = .next (s.takeTrap (mkTrap .permission 17))) ∧
      (s.resumed .fullStop = none → 1 ≤ n → n ≤ 128 → (Cond.fullStopReady s.myCoreNo s.fullStopPoint).holds s = true →
        (x.fstopArr = [] ∨ x.fstopN = n) → ¬(s.myCoreNo ∈ x.fstopArr) → x.fstopArr.length + 1 = n →
        exec (.fstop sd sa) s =
          .next (((s.setMyCtx { x with fstopPhase := x.fstopPhase + 1, fstopArr := [], fstopN := 0 }).wr sd (.ofNat 64 x.fstopPhase.toNat)).ended .done)) ∧
      (s.resumed .fullStop = none → 1 ≤ n → n ≤ 128 → x.fstopArr ≠ [] → x.fstopN ≠ n →
        (Cond.fullStopReady s.myCoreNo s.fullStopPoint).holds s = true → exec (.fstop sd sa) s = .next (s.takeTrap (mkTrap .permission 17))) ∧
      (s.resumed .fullStop = none → 1 ≤ n → n ≤ 128 → (Cond.fullStopReady s.myCoreNo s.fullStopPoint).holds s = true →
        (x.fstopArr = [] ∨ x.fstopN = n) → ¬(s.myCoreNo ∈ x.fstopArr) → x.fstopArr.length + 1 < n →
        let t := (s.setMyCtx { x with fstopArr := s.myCoreNo :: x.fstopArr, fstopN := n }).wr sd (.ofNat 64 x.fstopPhase.toNat)
        let u := t.setResume (some (s.resumeRec .fullStop x.fstopPhase.toNat))
        exec (.fstop sd sa) s = .next ((u.setCur (u.cur.block u 10 0xFA (.fullStopPhase s.mySlot x.fstopPhase.toNat))).ended .waiting true)) ∧
      (s.resumed .fullStop = none → 1 ≤ n → n ≤ 128 → (Cond.fullStopReady s.myCoreNo s.fullStopPoint).holds s = false →
        exec (.fstop sd sa) s = .next ((s.setCur (s.cur.block s 10 0xFA (.fullStopReady s.myCoreNo s.fullStopPoint))).ended .waiting)) ∧
      (∀ f, s.resumed .fullStop = some f → x.fstopPhase.toNat = f.a →
        exec (.fstop sd sa) s = .next ((s.setCur (s.cur.block s 10 0xFA (.fullStopPhase s.mySlot f.a))).ended .waiting))) ∧
  (∀ (s : State) (sd sa sb : BitVec 5) (l : Loc), s.acts = true → s.memOk →
    let a := (s.src sa).toNat
    let v := (s.src sb).toNat
    let e := (s.src sb).toInt
    let w := s.peekNat none l.key 8
    let done := w % 2 ^ 18
    let due := w / 2 ^ 18 % 2 ^ 18
    let arrived := w / 2 ^ 36 % 2 ^ 10
    let parties := w / 2 ^ 46 % 2 ^ 10
    let gen := w / 2 ^ 56
    let owedNat : Nat := (due + 2 ^ 18 - done) % 2 ^ 18
    let owed : Int := if owedNat < 2 ^ 17 then (owedNat : Int) else (owedNat : Int) - 2 ^ 18
    let fits (n : Nat) : Prop := arrived + n ≤ parties ∧ -(2 ^ 17) ≤ owed + e ∧ owed + e < 2 ^ 17
    let after (n : Nat) : Nat :=
      if arrived + n = parties ∧ owed + e = 0 then parties * 2 ^ 46 + (gen + 1) % 256 * 2 ^ 56
      else done + (((due : Int) + e) % 2 ^ 18).toNat * 2 ^ 18 + (arrived + n) * 2 ^ 36 + parties * 2 ^ 46 + gen * 2 ^ 56
    let word (t : State) (x : Nat) : Prop := t.peekNat none l.key 8 = x % 2 ^ 64 ∧
      (∀ c, c < l.key ∨ l.key + 8 ≤ c → t.peek none c = s.peek none c) ∧ t = { s with mem := t.mem }
    let passed := (gen + 256 - v % 256) % 256
    let quiet : Prop := s.tablesRead s.iss.who = true ∧ ∀ h ∈ s.heldw, h.owned = true → h.who = s.iss.who → h.classes = 0
    let waits (o : Instr) : Prop := exec o s = .next ((s.setCur (s.cur.block s 8 s.heldObj (.writesDone s.iss.who 0xFFFF))).ended .waiting)
    a % 8 = 0 → regionOf a = .vault → locate s s.mySlot a .atomic false = .ok l → s.meetsRead a 8 = .clear →
      (¬quiet → (v < 2 ^ 18 → v % 2 ^ 10 ≠ 0 → waits (.txinit sa sb)) ∧
        (-(2 ^ 17) ≤ e → e < 2 ^ 17 → waits (.txexp sa sb) ∧ waits (.txarr sd sa sb))) ∧
      (quiet → v < 2 ^ 18 → v % 2 ^ 10 ≠ 0 → ∃ t, word t (v % 2 ^ 10 * 2 ^ 46 + v / 2 ^ 10 * 2 ^ 56) ∧ exec (.txinit sa sb) s = .next (t.ended .done)) ∧
      (2 ^ 18 ≤ v ∨ v % 2 ^ 10 = 0 → exec (.txinit sa sb) s = .next (s.takeTrap (mkTrap .permission 15))) ∧
      (quiet → -(2 ^ 17) ≤ e → e < 2 ^ 17 →
        (fits 0 → ∃ t, word t (after 0) ∧ exec (.txexp sa sb) s = .next (t.ended .done)) ∧
        (¬fits 0 → exec (.txexp sa sb) s = .next (s.takeTrap (mkTrap .semOverflow 0 a))) ∧
        (fits 1 → ∃ t, word t (after 1) ∧ exec (.txarr sd sa sb) s = .next ((t.wr sd (.ofNat 64 gen)).ended .done)) ∧
        (¬fits 1 → exec (.txarr sd sa sb) s = .next (s.takeTrap (mkTrap .semOverflow 0 a)))) ∧
      (e < -(2 ^ 17) ∨ 2 ^ 17 ≤ e →
        exec (.txexp sa sb) s = .next (s.takeTrap (mkTrap .permission 15)) ∧ exec (.txarr sd sa sb) s = .next (s.takeTrap (mkTrap .permission 15))) ∧
      (1 ≤ passed → passed < 128 → exec (.txwait sa sb) s = .next (s.ended .done)) ∧
      (passed = 0 ∨ 128 ≤ passed → exec (.txwait sa sb) s = .next ((s.setCur (s.cur.block s 10 0xFC (.barrierGen l.key (v % 256)))).ended .waiting)))

/-- 19_faults R396, R398; 04_context R106: a trap of a sequencer of a core that is not in trap mode and whose handler image verifies. The core holds the record:
cause, TINFO, TADDR, who, the step and slot, and as TRET C's step counter. C's registers, loop registers, frames and predicate stack are kept in the
interrupted bank; C goes on in the second bank, all zero, at the handler's entry step; every engine that ran is held. The statement is of a core none of
whose steps waits part-way and whose C performs no qcommit (07_group R161: its traps wait). What slot 0 leaves of a step that waits at slot 1 and is abandoned (04_context R101;
log 107): nothing, its sequencer's registers as they were before the step, or, where its effect lies outside the sequencer, the point from which the
step goes on.
19_faults R400; 04_context R106: a trap while the core is in trap mode, or with no handler that verifies, or an uncorrectable error, escalates: the context is to be saved
and to become faulted (a TEARDOWN that runs goes on), and in trap mode the record of the trap being served stays. -/
def Obligations.TrapEntry : Prop :=
  ((∀ (s s1 : State) (c q : Nat) (t : Trap) (v : Verified),
    s.iss.who = .seq c q → q ≤ 5 → (s.core c).bank = none → t.cause ≠ .uncorrectable → t.async = false →
    (∀ e ∈ s.parked, ∀ n, e.1 ≠ .seq c n) → (s.core c).committing = false →
    ((s.endWait (.seq c q)).abandon (.seq c q)).verify (s.slotOf (.seq c 0)) (s.ctx (s.slotOf (.seq c 0))).handler true = some (v, s1) →
    let u := s.takeTrap t
    let k := u.core c
    let old := s.seq (.seq c 0)
    let new := u.seq (.seq c 0)
    k.trec = { cause := .ofNat 64 t.cause.code, info := t.info, addr := t.addr, seq := .ofNat 64 (c * 2 ^ 16 + q),
               step := if q = 0 then s.iss.here else .ofNat 64 (s.iss.here.toNat % 2048), slot := .ofNat 64 s.iss.slot,
               tile := t.tile, fmt := t.fmt, ret := old.pc } ∧
    (∃ b, k.bank = some b ∧ b.sreg = old.sreg ∧ b.lc = old.lc ∧ b.frames = old.frames ∧ b.stack = old.stack ∧ b.pendingSd = none) ∧
    k.hand = some v.image ∧ k.ctrap = (s.core c).ctrap + 1 ∧
    new.pc = .ofNat 64 (v.image.base + v.image.codeOff + 8 * v.image.entry) ∧ new.run = .running ∧
    new.sreg = [] ∧ new.lc = [] ∧ new.frames = [] ∧ new.stack = [] ∧ new.fflags = old.fflags ∧
    (∀ e, 1 ≤ e → e ≤ 5 → ((s.seq (.seq c e)).run = .running ∨ (s.seq (.seq c e)).run = .blocked) → (u.seq (.seq c e)).run = .held) ∧
    (∀ e, 1 ≤ e → e ≤ 5 → (s.seq (.seq c e)).run = .stopped → (u.seq (.seq c e)).run = .stopped) ∧
    u.iss.out = .trapped) ∧
  (∀ (s : State) (c q : Nat) (iss : Issue), s.parked.find? (fun e => decide (e.1 = Agent.seq c q)) = some (.seq c q, iss) →
    iss.rest.head?.map (·.1) = some 1 → (s.seq (.seq c q)).resume = none →
    let v := (s.leaveFirst (.seq c q)).seq (.seq c q)
    (iss.stands = true → v = { s.seq (.seq c q) with resume := some { here := iss.here, slot := 1, phase := .second } }) ∧
    (iss.stands = false → v.pc = iss.old.pc ∧ v.sreg = iss.old.sreg ∧ v.lc = iss.old.lc ∧ v.frames = iss.old.frames ∧ v.stack = iss.old.stack ∧
      v.fflags = iss.old.fflags ∧ v.run = (s.seq (.seq c q)).run ∧ v.resume = none)) ∧
  (∀ (s : State) (c q : Nat) (t : Trap), s.iss.who = .seq c q → q ≤ 5 → (s.core c).committing = true → s.takeTrap t = s.ended .waiting)) ∧
  (∀ (s : State) (c q : Nat) (t : Trap), s.iss.who = .seq c q → q ≤ 5 →
    (∀ e ∈ s.parked, ∀ n, e.1 ≠ .seq c n) → (s.core c).committing = false →
    let slot := s.slotOf (.seq c 0)
    ((s.core c).bank.isSome = true ∨ t.cause = .uncorrectable ∨
      ((s.endWait (.seq c q)).abandon (.seq c q)).verify slot (s.ctx slot).handler true = none) →
    let u := s.takeTrap t
    (u.ctx slot).preempting = (if (s.ctx slot).preempting = some .tornDown then some .tornDown else some .faulted) ∧ (u.ctx slot).escalation.isSome = true ∧ (u.core c).bank = (s.core c).bank ∧
    ((s.core c).bank.isSome = true → (u.core c).trec = (s.core c).trec) ∧
    ((s.core c).bank = none → (u.core c).trec.cause = .ofNat 64 (t.cause.code + (if t.async then 256 else 0) + 512)) ∧
    u.iss.out = .trapped)

/-- 04_context R108: scall outside trap mode retires its step and enters the handler as the software trap of its service number, with its argument in TADDR and the
step that follows in TRET (DEDUCED, log 18); inside, the trap is a nested one.
04_context R107, R108: rft in trap mode, once the writes of the handler are performed, brings the interrupted bank back, puts C at TRET, lets held engines go on as they were, and a scall that entered gives TRV; a sequencer that
waited when it was held waits again; outside trap mode it is a permission trap, and after a transfer of slot 0 it is suppressed (03_encoding R67). A TRET that is no multiple of 8 completes (the model's
choice, log 97). After a ctxld (R110) the interrupted bank that comes back is the image's: C's registers, loop registers and step counter, and of the vector registers those whose live bit is 1,
the others dead (which bytes of C's record hold what R103 does not place is the model's choice, log 20). -/
def Obligations.SystemCall : Prop :=
  (∀ (s : State) (sd sa sb : BitVec 5) (c : Nat), s.acts = true → s.iss.who = .seq c 0 → s.iss.xfer = none →
    let t : Trap := { cause := .softwareTrap, info := .ofNat 64 (1 + (s.src sa).toNat % 2 ^ 16 * 2 ^ 16), addr := s.src sb }
    let e := endStep s
    (∀ b, (s.core c).bank = some b → exec (.scall sd sa sb) s = .next (s.takeTrap t)) ∧
    (∀ v s1, (s.core c).bank = none → (e.core c).bank = none →
      (e.abandon (.seq c 0)).verify (e.slotOf (.seq c 0)) (e.ctx (e.slotOf (.seq c 0))).handler true = some (v, s1) →
      ∃ u : State, exec (.scall sd sa sb) s = .next u ∧ u.iss.out = .trapped ∧
        (u.core c).trec.cause = 18 ∧ (u.core c).trec.info = t.info ∧ (u.core c).trec.addr = t.addr ∧
        (u.core c).trec.ret = (e.seq (.seq c 0)).pc ∧ (u.core c).trec.step = s.iss.here ∧
        (∃ b, (u.core c).bank = some b ∧ b.pendingSd = some sd.toNat ∧ b.sreg = (e.seq (.seq c 0)).sreg) ∧
        (u.seq (.seq c 0)).pc = .ofNat 64 (v.image.base + v.image.codeOff + 8 * v.image.entry))) ∧
  (∀ (s : State) (c : Nat), s.acts = true → s.iss.who = .seq c 0 →
    (s.iss.transferred = true → exec .rft s = .next (s.ended .done)) ∧
    (s.iss.transferred = false →
    let quiet : Prop := (s.core c).tloads = [] ∧ ∀ h ∈ s.heldw, h.owned = true → h.who = .seq c 0 → h.classes = 0
    ((s.core c).bank = none → exec .rft s = .next (s.takeTrap (mkTrap .permission 1))) ∧
    (∀ b, (s.core c).bank = some b → ¬quiet →
      exec .rft s = .next ((s.setCur (s.cur.block s 8 s.heldObj (.writesDone (.seq c 0) 0xFFFF))).ended .waiting)) ∧
    (∀ b, (s.core c).bank = some b → b.loaded = none → quiet → ∃ t : State, exec .rft s = .next (t.ended .done) ∧ t.iss.xfer = some .leave ∧
      (t.core c).bank = none ∧ (t.seq (.seq c 0)).pc = (s.core c).trec.ret ∧
      (t.seq (.seq c 0)).run = (if (∃ w, b.kept = some w ∧ (w.step = (s.core c).trec.ret ∨ (s.seq (.seq c 0)).heldTok ≠ [])) then .blocked else .running) ∧
      (t.seq (.seq c 0)).lc = b.lc ∧ (t.seq (.seq c 0)).frames = b.frames ∧ (t.seq (.seq c 0)).stack = b.stack ∧
      (b.pendingSd = none → (t.seq (.seq c 0)).sreg = b.sreg) ∧
      (∀ d, b.pendingSd = some d → d ≠ 0 → (t.seq (.seq c 0)).sreg = b.sreg.set d (s.ctx (s.slotOf (.seq c 0))).trv) ∧
      (∀ e, 1 ≤ e → e ≤ 5 → (s.seq (.seq c e)).run = .held →
        let q := s.seq (.seq c e)
        (t.seq (.seq c e)).run = (if (∃ w, q.kept = some w ∧ (w.step = q.pc ∨ q.heldTok ≠ [])) then .blocked
          else if q.prior = .blocked then .running else q.prior)) ∧
      t.mem = s.mem ∧ t.sect = s.sect) ∧
    (∀ b m r, (s.core c).bank = some b → b.loaded = some (m, r) → quiet →
      let rec0 := (m.drop 0x1000).take 2048
      ∃ t : State, exec .rft s = .next (t.ended .done) ∧ t.iss.xfer = some .leave ∧ (t.core c).bank = none ∧
        (t.seq (.seq c 0)).pc = .ofNat 64 (leNat ((rec0.drop (if (leNat (m.take 8)).testBit 24 then 1600 else 0)).take 8)) ∧
        (∀ n, n < 4 → (t.seq (.seq c 0)).lc.get 0 n = .ofNat 64 (leNat ((rec0.drop (16 + 8 * n)).take 8))) ∧
        (leNat ((rec0.drop 1616).take 8) = 0 →
          ∀ n, 1 ≤ n → n < 32 → (t.seq (.seq c 0)).sreg.get 0 n = .ofNat 64 (leNat ((rec0.drop (1288 + 8 * (n - 1))).take 8))) ∧
        (∀ n, n < 768 → (t.core c).live.get false n = (leNat ((m.drop 0x40).take 96)).testBit n) ∧
        (∀ n, n < 768 → (leNat ((m.drop 0x40).take 96)).testBit n = true →
          let below := ((List.range n).filter fun i => (leNat ((m.drop 0x40).take 96)).testBit i).length
          (t.core c).vreg.get 0 n = .ofNat 4096 (leNat ((r.drop (512 * below)).take 512))))))

/-- 12_scalar R259-R261: wfe is done when the event latch holds a bit or its timeout has passed since its wait began, gives the bits and clears the latch, else it
waits, behind a wfe of slot 0 with what slot 0 has done; sev sets bit
0 of the latch of one bound core, or of all; rdcnt reads a counter.
11_page R229-R233: once the earlier writes and tloads of C are done, pinv takes the lines and the verified images of the covered pages out of the caches,
and the context's leaf entries of those pages (pinv.all its next-table entries too) out of the translation and walk caches, so that a walk of them reads memory; rminv the context's
entries of the remap filters that the form covers with their leaders' lines; each is done when no chunk and no tload that was translated through
what it removed is still to land or to be read, else it waits with what it has removed; a context operand that is not its own ID is a permission trap. -/
def Obligations.EventForms : Prop :=
  (∀ (s : State) (sd sa : BitVec 5) (n : BitVec 6), s.acts = true →
    let k := s.myCore
    let t := (s.src sa).toNat
    let since := match s.cur.wait with
      | some w => if w.cond = .event s.myCoreNo t ∧ w.slot = s.iss.slot then w.sinceWall else s.wall
      | none => s.wall
    let behind : Prop := s.iss.slot = 1 ∧ s.iss.words.w0.extractLsb' 26 6 = 0x1B ∧ s.iss.words.w0.extractLsb' 0 5 = 2
    (k.evt ≠ 0 → exec (.wfe sd sa) s = .next ((((s.setMyCore { k with evt := 0 }).setResume none).wr sd (k.evt.zeroExtend 64)).ended .done)) ∧
    (k.evt = 0 → t ≠ 0 → t ≤ s.wall - since →
      exec (.wfe sd sa) s = .next ((((s.setMyCore { k with evt := 0 }).setResume none).wr sd 4).ended .done)) ∧
    (k.evt = 0 → t = 0 ∨ s.wall - since < t → ¬behind →
      exec (.wfe sd sa) s = .next ((s.setCur (s.cur.block s 10 0xF7 (.event s.myCoreNo t))).ended .waiting)) ∧
    (k.evt = 0 → t = 0 ∨ s.wall - since < t → behind →
      let u := s.setResume (some (s.resumeRec .event))
      exec (.wfe sd sa) s = .next ((u.setCur (u.cur.block u 10 0xF7 (.event s.myCoreNo t))).ended .waiting true)) ∧
    (sa = 0 → ∃ u : State, exec (.sev sa) s = .next (u.ended .done) ∧ u = { s with cores := u.cores } ∧
      ∀ c, (u.core c) = if c < 128 ∧ (s.core c).slot = some s.mySlot then { s.core c with evt := (s.core c).evt ||| 1 } else s.core c) ∧
    (sa ≠ 0 → t < 128 → (s.core t).slot = some s.mySlot →
      exec (.sev sa) s = .next ((s.setCore t { s.core t with evt := (s.core t).evt ||| 1 }).ended .done)) ∧
    (sa ≠ 0 → 128 ≤ t ∨ (s.core t).slot ≠ some s.mySlot → exec (.sev sa) s = .next (s.ended .done)) ∧
    (∀ j, n.toNat = j → exec (.rdcnt sd n) s = .next ((s.wr sd (.ofNat 64 (match j with
      | 0 => s.wall
      | 1 => s.clk
      | 2 => k.cstep
      | 3 => k.cwait
      | _ => k.ctrap))).ended .done))) ∧
  (∀ (s : State) (sa sb : BitVec 5), s.acts = true →
    let v := (s.src sa).toNat
    let n := (s.src sb).toNat
    let id := s.myCtx.id
    let whole : Nat := 2 ^ 57
    let quiet : Prop := s.tablesRead s.iss.who = true ∧ ∀ h ∈ s.heldw, h.owned = true → h.who = s.iss.who → h.classes = 0
    let span := s.coveredPages v n
    let waitsWith (o : Instr) (obj : Nat) (u : State) (c : Cond) : Prop :=
      let w := u.setResume (some (u.resumeRec .retire))
      exec o s = .next ((w.setCur (w.cur.block w 10 obj c)).ended .waiting true)
    let invalidates (o : Instr) (lo hi : Nat) (tables : Bool) : Prop :=
      let u := ((s.flushLines id lo hi).evictImages s.mySlot lo hi).dropWalks id lo hi tables
      let gone : Bool := !(u.chunkVia s.mySlot s.nextOp fun e => decide (e.1 * 65536 < hi) && decide (lo < (e.1 + 1) * 65536)) && !u.tableVia s.mySlot s.nextOp lo hi
      (gone = true → exec o s = .next (u.ended .done)) ∧ (gone = false → waitsWith o 0xF9 u (.chunksGone s.mySlot lo hi s.nextOp))
    let withdraws (o : Instr) (lo hi : Nat) : Prop :=
      let u := s.dropLeaders id lo hi
      let units := (s.filter.filter fun f => f.covered id lo hi).map (·.unit)
      let gone : Bool := !s.chunkVia s.mySlot s.nextOp fun e => e.2.2 && units.contains e.2.1
      (gone = true → exec o s = .next (u.ended .done)) ∧ (gone = false → waitsWith o 0xF8 u (.redirectsGone s.mySlot units s.nextOp))
    (s.resumed .retire = none → v = 0 ∨ v = id → quiet → invalidates (.pinvCtx sa) 0 whole false ∧ withdraws (.rminvCtx sa) 0 whole) ∧
    (v ≠ 0 → v ≠ id → exec (.pinvCtx sa) s = .next (s.takeTrap (mkTrap .permission 22)) ∧
      exec (.rminvCtx sa) s = .next (s.takeTrap (mkTrap .permission 22))) ∧
    (s.resumed .retire = none → quiet → invalidates .pinvAll 0 whole true ∧ withdraws .rminvAll 0 whole) ∧
    (s.resumed .retire = none → quiet → n = 0 → invalidates (.pinvRange sa sb) 0 0 false ∧ withdraws (.rminvRange sa sb) 0 0) ∧
    (s.resumed .retire = none → quiet → n ≠ 0 → invalidates (.pinvRange sa sb) span.1 span.2 false ∧ withdraws (.rminvRange sa sb) span.1 span.2) ∧
    (s.resumed .retire = none → ¬quiet →
      exec .pinvAll s = .next ((s.setCur (s.cur.block s 10 0xF9 (.writesDone s.iss.who 0xFFFF))).ended .waiting) ∧
      exec .rminvAll s = .next ((s.setCur (s.cur.block s 10 0xF8 (.writesDone s.iss.who 0xFFFF))).ended .waiting)) ∧
    (∀ r w, s.resumed .retire = some r → s.cur.wait = some w → w.cond.holds s = true →
      exec .pinvAll s = .next (s.ended .done) ∧ exec .rminvAll s = .next (s.ended .done)) ∧
    (∀ lo hi f, f ∈ (s.dropLeaders id lo hi).filter ↔ f ∈ s.filter ∧
      ¬(f.id = id ∧ ∃ u, (u = f.leader ∨ u ∈ f.followers) ∧ u * 65536 < hi ∧ lo < (u + 1) * 65536)) ∧
    (∀ lo hi tables w, w ∈ (s.dropWalks id lo hi tables).caches.walks ↔ w ∈ s.caches.walks ∧
      ¬(w.id = id ∧ ((bit w.e 1 = true ∧ w.no * pageSize w.level < hi ∧ lo < (w.no + 1) * pageSize w.level) ∨ (bit w.e 1 = false ∧ tables = true)))) ∧
    (∀ level no a, (∀ w ∈ s.caches.walks, w.id = id → w.level = level → w.no ≠ no) → s.entryAt id level no a = s.walkNat a 8) ∧
    (∀ lo hi e, e ∈ ((s.evictImages s.mySlot lo hi).disp.images) ↔ e ∈ s.disp.images ∧
      ¬(e.1 = id ∧ e.2.image.base < hi ∧ lo < e.2.image.base + e.2.size)))

/-- 04_context R109, R110: outside trap mode ctxsv and ctxld are permission traps, and at an address off 64 KiB a misalignment trap. ctxsv writes the image of the
interrupted state and gives its size. R103 places the parts of the image: the header (version 1, the context's ID, the core number, the trap-pending bit; TRAPM is 0, for it is the interrupted state), the kernel's address
and the size; the live bitmap at 0x40; C's record, which begins with the step counter (what follows inside a record is the model's choice, log 20), at 0x1000; the descriptors md0-md15 at 0x4000 and those of LF and SF after them; the rows of the declared accumulators at 0x6000;
and the live registers at 0x46000, in increasing number. Each byte of a part is in the write of its address. ctxld checks version, context and kernel, and
keeps what it has read for the next rft. -/
def Obligations.ContextImageForms : Prop :=
  ∀ (s : State) (sd sa : BitVec 5), s.acts = true →
    let k := s.myCore
    let a := (s.src sa).toNat
    let quiet : Prop := s.tablesRead s.iss.who = true ∧ ∀ h ∈ s.heldw, h.owned = true → h.who = s.iss.who → h.classes = 0
    (k.bank = none → exec (.ctxsv sd sa) s = .next (s.takeTrap (mkTrap .permission 1)) ∧ exec (.ctxld sa) s = .next (s.takeTrap (mkTrap .permission 1))) ∧
    (k.bank.isSome = true → a % 65536 ≠ 0 →
      exec (.ctxsv sd sa) s = .next (s.takeTrap (mkTrap .misalignment 0 a)) ∧ exec (.ctxld sa) s = .next (s.takeTrap (mkTrap .misalignment 0 a))) ∧
    (∀ t, k.bank.isSome = true → a % 65536 = 0 →
      let image := s.coreImage s.myCoreNo s.myCoreNo k.trapped true
      let size := 0x46000 + 512 * k.saveRegs.length
      s.meetsRead a size = .clear → State.writeImage (imageWrites a image) s = .ok t →
      exec (.ctxsv sd sa) s = .next ((t.wr sd (.ofNat 64 size)).ended .done)) ∧
    (∀ b, k.bank = some b →
      let image := s.coreImage s.myCoreNo s.myCoreNo k.trapped true
      let live (v : Nat) : Prop := v < (k.kern.map (·.vregs)).getD 0 ∧ k.live.get false v = true
      let size := 0x46000 + 512 * k.saveRegs.length
      (∀ v, v ∈ k.saveRegs ↔ live v) ∧ k.saveRegs.Pairwise (· < ·) ∧
      ((0, leBytes 8 (1 + (s.ctx (k.slot.getD 0)).id * 2 ^ 8 + s.myCoreNo * 2 ^ 16 + (if k.trapped.isSome then 2 ^ 25 else 0)) ++
        leBytes 8 ((k.kern.map (·.base)).getD 0) ++ leBytes 8 size) ∈ image) ∧
      (∃ map, (0x40, map) ∈ image ∧ map.length = 96 ∧ ((k.kern.map (·.vregs)).getD 0 ≤ 768 → ∀ v, v < 768 → ((leNat map).testBit v = true ↔ live v))) ∧
      (∃ r0, (0x1000, r0) ∈ image ∧ r0.take 8 = leBytes 8 k.trec.ret.toNat) ∧
      (∃ tags, (0x4000, tags) ∈ image ∧ tags.length = 0xE00 ∧
        ∀ n, n < 16 → (tags.drop (32 * n)).take 32 = leBytes 32 (k.md.get 0 n).toNat ∧
          (tags.drop (0x200 + 64 * n)).take 64 = leBytes 64 ((s.seq (.seq s.myCoreNo sqLF)).fd.get 0 n).toNat ∧
          (tags.drop (0x600 + 64 * n)).take 64 = leBytes 64 ((s.seq (.seq s.myCoreNo sqSF)).fd.get 0 n).toNat) ∧
      (∃ rows, (0x6000, rows) ∈ image ∧ rows.length = 0x4000 * (k.kern.map (·.accs)).getD 0 ∧
        ∀ n row, n < (k.kern.map (·.accs)).getD 0 → row < 64 → (rows.drop (0x4000 * n + 256 * row)).take 256 = leBytes 256 (k.acc.get 0 (n, row)).toNat) ∧
      (∃ regs, (0x46000, regs) ∈ image ∧ regs.length = 512 * k.saveRegs.length ∧
        ∀ n v, k.saveRegs[n]? = some v → (regs.drop (512 * n)).take 512 = leBytes 512 (k.vreg.get 0 v).toNat) ∧
      (∀ part ∈ image, ∀ i, i < part.2.length → ∃ w ∈ imageWrites a image, w.1 ≤ a + part.1 + i ∧ w.2[a + part.1 + i - w.1]? = part.2[i]?)) ∧
    (k.bank.isSome = true → a % 65536 = 0 → ¬quiet →
      exec (.ctxld sa) s = .next ((s.setCur (s.cur.block s 8 s.heldObj (.writesDone s.iss.who 0xFFFF))).ended .waiting)) ∧
    (∀ b h m r t u, k.bank = some b → a % 65536 = 0 → quiet → (∀ w ∈ s.heldw, w.owned = true → w.who = s.iss.who → w.classes = 0) →
      s.loadBytes a 0x18 = .ok h → s.loadBytes a (mainSize k) = .ok (m, t) →
      (liveIn m ≠ [] → t.loadBytes (a + 0x46000) (512 * (liveIn m).length) = .ok (r, u)) → (liveIn m = [] → r = [] ∧ u = t) →
      let word (i : Nat) := fieldAt h.1 (8 * i) 8
      (word 0 % 2 ^ 8 ≠ 1 ∨ word 0 / 2 ^ 8 % 2 ^ 8 ≠ s.myCtx.id → exec (.ctxld sa) s = .next (s.takeTrap (mkTrap .permission 2))) ∧
      (word 0 % 2 ^ 8 = 1 → word 0 / 2 ^ 8 % 2 ^ 8 = s.myCtx.id →
        (word 1 ≠ (k.kern.map (·.base)).getD 0 → exec (.ctxld sa) s = .next (s.takeTrap (mkTrap .permission 3))) ∧
        (word 1 = (k.kern.map (·.base)).getD 0 →
          exec (.ctxld sa) s = .next ((u.setMyCore { k with bank := some { b with loaded := some (m, r) } }).ended .done))))

/-- 16_bitserial R354, R339: bsclaim of granted slices and ways writes back what the caches hold in the ways that it takes, records the claim and waits; when the ways have switched (WAY_SWITCH_END) it is done. bsrel marks the claim and is done when
its orders have completed, the ways then going back; with no claim it has no effect, and one that waited for a claim that another bsrel has given back is done, whatever claim came after. bswait is done when this core's orders have completed. -/
def Obligations.ClaimForms : Prop :=
  ∀ (s : State) (sa n : BitVec 5) (slot : Nat), s.acts = true →
    let x := s.myCtx
    let m := (s.src sa).toNat
    let c := s.mySlot
    let declared := (s.myCore.kern.map (·.ways)).getD 0
    let granted : Prop := (∀ j, m.testBit j = true → x.grantw.toNat.testBit (16 + j) = true) ∧ n.toNat ≤ x.grantw.toNat % 16 ∧ n.toNat ≤ declared
    (0 < m → m < 2 ^ 32 → x.claim = none → granted → s.resumed .claim = none →
      let claim := s.placed { slices := .ofNat 32 m, ways := n.toNat, no := s.nextOp }
      let u := (({ s with nextOp := s.nextOp + 1 }.clearWays claim).setClaim c (some claim)).setResume (some (s.resumeRec .claim))
      exec (.bsclaim sa n) s = .next ((u.setCur (u.cur.block u 10 0xF2 (.claimSwitched c))).ended .waiting true)) ∧
    (∀ r d, s.resumed .claim = some r → x.claim = some d → d.ready = true → exec (.bsclaim sa n) s = .next ((s.setResume none).ended .done)) ∧
    (s.resumed .claim = none → m = 0 ∨ 2 ^ 32 ≤ m → exec (.bsclaim sa n) s = .next (s.takeTrap (illegalWord .overLimit s.word))) ∧
    (s.resumed .claim = none → 0 < m → m < 2 ^ 32 → x.claim.isSome = true → exec (.bsclaim sa n) s = .next (s.takeTrap (mkTrap .claimViolation 2))) ∧
    (s.resumed .claim = none → 0 < m → m < 2 ^ 32 → x.claim = none → ¬granted → exec (.bsclaim sa n) s = .next (s.takeTrap (mkTrap .claimViolation 1))) ∧
    (∀ d, (s.ctx slot).claim = some d → exec (.waySwitchEnd slot) s = .next (s.setClaim slot (some { d with ready := true }))) ∧
    (x.claim = none → exec .bsrel s = .next ((s.setResume none).ended .done)) ∧
    (∀ r d, s.resumed .release = some r → x.claim = some d → r.a ≠ d.no → exec .bsrel s = .next ((s.setResume none).ended .done)) ∧
    (∀ d, s.resumed .release = none → x.claim = some d → d.queue = [] → (∀ e ∈ s.tags, ∀ y, e.2.op = some (.transfer y) → y.slot ≠ c) →
      ∃ u : State, exec .bsrel s = .next (u.ended .done) ∧ (u.ctx c).claim = none ∧ u.mem = s.mem) ∧
    (∀ r d, s.resumed .release = some r → x.claim = some d → r.a = d.no → d.queue = [] ∧ (∀ e ∈ s.tags, ∀ y, e.2.op = some (.transfer y) → y.slot ≠ c) →
      exec .bsrel s = .next (((s.setClaim c none).setResume none).ended .done)) ∧
    (∀ d, s.resumed .release = none → x.claim = some d → (∃ b, ClaimEntry.cmd b ∈ d.queue) → ∃ u : State, exec .bsrel s = .next (u.ended .waiting true) ∧
      ∃ d', (u.ctx c).claim = some d' ∧ d'.releasing = true) ∧
    ((Cond.claimIdle c s.myCoreNo).holds s = true → exec .bswait s = .next (s.ended .done)) ∧
    ((Cond.claimIdle c s.myCoreNo).holds s = false →
      exec .bswait s = .next ((s.setCur (s.cur.block s 10 0xF4 (.claimIdle c s.myCoreNo))).ended .waiting))

/-- 16_bitserial R346, R347: a command whose operand word is legal enters the claim's queue when it has room, with its form's low bits and constant; it waits for room; without a claim it
is a claim violation, with an illegal operand word an illegal order.
16_bitserial R343, R348: the next command of a claim in compute mode acts on every lane at once: each plane of its destination holds, in the lanes that it writes, the bit of the lane's result
as the planes stood before, and in the others what it held; no other plane changes. The result of a lane is that of R348's table for each form, with the sources read as N+1-bit values, signed under S. -/
def Obligations.BitCommandForms : Prop :=
  (∀ (s : State) (sa sb op : BitVec 5) (g sat k rot dn : BitVec 1) (cond : BitVec 3), s.acts = true →
    let c := s.mySlot
    let o := (s.src sa).toNat
    let w := bits o 29 24 + 1
    let a := (bits o 15 8, w)
    let b := (bits o 23 16, w)
    let d := (bits o 7 0, w)
    let enters (i : Instr) (fn imm : Nat) (konst : Word) (fields : List (Nat × Nat)) : Prop :=
      let legal := bits o 31 30 = 0 ∧ bits o 47 41 = 0 ∧ bits o 63 51 = 0 ∧ (fn = 8 → bits o 40 40 = 0) ∧ (fn ≠ 11 → bits o 50 48 = 0) ∧
        ∀ f ∈ fields, f.1 + f.2 ≤ 256
      (∀ m, legal → s.myCtx.claim = some m → m.releasing = false → m.queue.length < 4 →
        exec i s = .next ((s.setClaim c (some { m with queue := m.queue ++ [.cmd { fn := fn, imm := imm, opw := s.src sa, konst := konst, core := s.myCoreNo }] })).ended .done)) ∧
      (∀ m, legal → s.myCtx.claim = some m → m.releasing = false → 4 ≤ m.queue.length →
        exec i s = .next ((s.setCur (s.cur.block s 10 0xF3 (.claimRoom c))).ended .waiting)) ∧
      (legal → s.claimOf c = none → exec i s = .next (s.takeTrap (mkTrap .claimViolation 3))) ∧
      (¬legal → exec i s = .next (s.takeTrap (illegalWord .overLimit s.word)))
    let two (k : BitVec 1) : List (Nat × Nat) := if k = 1 then [a, d] else [a, d, b]
    enters (.bslog sa op) 4 op.toNat 0 (if op = 3 then [a, d] else [a, d, b]) ∧
    enters (.bsadd sa sb g sat k) 5 (k.toNat + 2 * sat.toNat + 4 * g.toNat) (s.src sb) (two k) ∧
    enters (.bssub sa sb g sat k) 6 (k.toNat + 2 * sat.toNat + 4 * g.toNat) (s.src sb) (two k) ∧
    enters (.bscmp sa sb k g cond) 7 (cond.toNat + 8 * g.toNat + 16 * k.toNat) (s.src sb) (if k = 1 then [a] else [a, b]) ∧
    enters (.bssel sa) 8 0 0 [a, d, b] ∧
    enters (.bsinc sa) 9 0 0 [d] ∧
    enters (.bsmin sa sb g k) 10 (k.toNat + 4 * g.toNat) (s.src sb) (two k) ∧
    enters (.bspop sa) 11 0 0 [a, (bits o 7 0, bits o 50 48 + 1)] ∧
    enters (.bsshf sa rot dn) 12 (dn.toNat + 2 * rot.toNat) 0 [a, d]) ∧
  (∀ (s : State) (slot : Nat) (m : Claim) (c : BitCmd) (rest : List ClaimEntry),
    (s.ctx slot).claim = some m → m.ready = true → m.spilled = false → (s.ctx slot).st = .running ∨ (s.ctx slot).st = .ready →
    (s.ctx slot).preempting = none → m.queue = .cmd c :: rest → m.pending = [] →
    (∀ t, ClaimEntry.transfer t ∈ rest → (s.tag t).st ≠ .frozen) →
    let d := bits c.opw.toNat 7 0
    ∃ m', exec (.commandStart slot) s = .next (s.setClaim slot (some m')) ∧ m'.queue = rest ∧ m'.pending = [] ∧
      (∀ i < c.width, ∀ l < m.lanes, m'.laneBit (d + i) l = if m.writes c l then (m.result c l).testBit i else m.laneBit (d + i) l) ∧
      (∀ p, p < d ∨ d + c.width ≤ p → m'.planes.get 0 p = m.planes.get 0 p) ∧
      (∀ l, m.writes c l = (c.fn == 8 || !c.opw.toNat.testBit 40 || m.laneBit (bits c.opw.toNat 39 32) l)) ∧
      c.width = (if c.fn = 7 then 1 else if c.fn = 11 then bits c.opw.toNat 50 48 + 1 else bits c.opw.toNat 29 24 + 1) ∧
      (∀ l,
        let w := bits c.opw.toNat 29 24 + 1
        let value (p l : Nat) : Nat := ((List.range w).map fun i => if m.laneBit (p + i) l then 2 ^ i else 0).sum
        let a := value (bits c.opw.toNat 15 8) l
        let konst : Bool := if c.fn = 7 then c.imm.testBit 4 else c.imm.testBit 0
        let b := if konst = true ∧ (c.fn = 5 ∨ c.fn = 6 ∨ c.fn = 7 ∨ c.fn = 10) then c.konst.toNat % 2 ^ w else value (bits c.opw.toNat 23 16) l
        let signed : Bool := if c.fn = 7 then c.imm.testBit 3 else c.imm.testBit 2
        let int (v : Nat) : Int := if signed = true ∧ 2 ^ (w - 1) ≤ v then (v : Int) - 2 ^ w else v
        let sum (e : Int) : Prop :=
          let lo : Int := if signed then -(2 ^ (w - 1)) else 0
          let hi : Int := if signed then 2 ^ (w - 1) - 1 else 2 ^ w - 1
          (m.result c l : Int) = (if c.imm.testBit 1 then max lo (min hi e) else e) % 2 ^ w
        let from_ (j : Nat) : Nat := value (bits c.opw.toNat 15 8) j
        (c.fn = 4 → ∀ i, i < w → (m.result c l).testBit i =
          if c.imm = 0 then a.testBit i && b.testBit i else if c.imm = 1 then a.testBit i || b.testBit i else if c.imm = 2 then a.testBit i ^^ b.testBit i
          else if c.imm = 3 then !a.testBit i else a.testBit i && !b.testBit i) ∧
        (c.fn = 5 → sum (int a + int b)) ∧ (c.fn = 6 → sum (int a - int b)) ∧
        (c.fn = 7 → (c.imm % 8 = 0 → m.result c l = if int a = int b then 1 else 0) ∧ (c.imm % 8 = 1 → m.result c l = if int a ≠ int b then 1 else 0) ∧
          (c.imm % 8 = 2 → m.result c l = if int a < int b then 1 else 0) ∧ (c.imm % 8 = 3 → m.result c l = if int a ≤ int b then 1 else 0) ∧
          (c.imm % 8 = 4 → m.result c l = if int b < int a then 1 else 0) ∧ (c.imm % 8 = 5 → m.result c l = if int b ≤ int a then 1 else 0)) ∧
        (c.fn = 8 → m.result c l = if m.laneBit (bits c.opw.toNat 39 32) l then a else b) ∧
        (c.fn = 9 → m.result c l = min (value d l + 1) (2 ^ w - 1)) ∧
        (c.fn = 10 → m.result c l = if int b < int a then b else a) ∧
        (c.fn = 11 → m.result c l = min ((List.range w).filter fun i => a.testBit i).length (2 ^ (bits c.opw.toNat 50 48 + 1) - 1)) ∧
        (c.fn = 12 → c.imm.testBit 0 = false → m.result c l = if 0 < l then from_ (l - 1) else if c.imm.testBit 1 then from_ (m.lanes - 1) else 0) ∧
        (c.fn = 12 → c.imm.testBit 0 = true → m.result c l = if l + 1 < m.lanes then from_ (l + 1) else if c.imm.testBit 1 then from_ 0 else 0)))

/-- 16_bitserial R347, R350, R351, R353: a transfer with a legal field and lanes of the claim, aligned and inside its region, whose tag (and for bsout landing slots) is
free, takes the tag and enters the queue, a bsout also putting its box's lines out of the L1 caches (R193); the checks trap in R347's order; it waits for its tag and for room. A step of a bsin writes one plane of its segment from the elements read,
at the segment's first plane now and at the others before. A step of a bsout reads one plane of its segment, once what was read before has landed; a landing of it stores the next bytes up to the end of their 128-byte
chunk, each bit that of the container R353 gives. -/
def Obligations.TransferForms : Prop :=
  ∀ (s : State) (tag : BitVec 6) (sa sb : BitVec 5) (sx : BitVec 1) (lz : BitVec 3) (m : Claim), s.acts = true →
    let w := (s.src sb).toNat
    let a := (s.src sa).toNat
    let z := 2 ^ lz.toNat
    let width := bits w 13 8 + 1
    let count := bits w 62 40 + 1
    let first := bits w 38 16
    let len := (count * z + 7) / 8
    let t := s.myTag tag.toNat
    let box : BitVec 512 := .ofNat 512 (a * 2 ^ 64 + len * 2 ^ 128)
    let waits (i : Instr) (obj : Nat) (kind : Nat) (c : Cond) : Prop := exec i s = .next ((s.setCur (s.cur.block s kind obj c)).ended .waiting)
    let x (out : Bool) : Transfer :=
      { out := out, addr := a, z := z, sx := out && sx == 1, field := bits w 7 0, width := width, first := first, count := count, len := len,
        slot := s.mySlot, core := s.myCoreNo, step := s.iss.here, wslot := s.iss.slot, order := s.nextOp }
    let entered (out : Bool) : State :=
      let u := ({ s.latch with nextOp := s.nextOp + 1 }).setTag t { addr := a, st := .landing, rd := false, rep := false, op := some (.transfer (x out)) }
      let u := (if out then u.dropBox s.mySlot (destShape box) else u).settleWrites
      u.setClaim s.mySlot (some { m with queue := m.queue ++ [.transfer t] })
    let legal : Prop := bits w 15 14 = 0 ∧ bits w 39 39 = 0 ∧ bits w 63 63 = 0 ∧ bits w 7 0 + width ≤ 256 ∧ width ≤ z
    (legal → s.myCtx.claim = some m → m.releasing = false →
      (m.lanes < first + count → exec (.bsin tag sa sb lz) s = .next (s.takeTrap (mkTrap .claimViolation 3)) ∧
        (count * z % 8 = 0 → exec (.bsout tag sa sb sx lz) s = .next (s.takeTrap (mkTrap .claimViolation 3)))) ∧
      (first + count ≤ m.lanes → a % max (z / 8) 1 ≠ 0 → exec (.bsin tag sa sb lz) s = .next (s.takeTrap (mkTrap .misalignment 0 a)) ∧
        (count * z % 8 = 0 → exec (.bsout tag sa sb sx lz) s = .next (s.takeTrap (mkTrap .misalignment 0 a)))) ∧
      (first + count ≤ m.lanes → a % max (z / 8) 1 = 0 → leavesRegion a (a + len - 1) false = true →
        exec (.bsin tag sa sb lz) s = .next (s.takeTrap (mkTrap .permission (24 + 2 * 256)))) ∧
      (first + count ≤ m.lanes → a % max (z / 8) 1 = 0 → leavesRegion a (a + len - 1) false = false → s.tablesRead s.iss.who = true →
        ((s.tag t).complete = false → waits (.bsin tag sa sb lz) tag.toNat 6 (.tagAll [t])) ∧
        ((s.tag t).complete = true → 4 ≤ m.queue.length → waits (.bsin tag sa sb lz) 0xF3 10 (.claimRoom s.mySlot)))) ∧
    (legal → count * z % 8 ≠ 0 → exec (.bsout tag sa sb sx lz) s = .next (s.takeTrap (illegalWord .overLimit s.word))) ∧
    (legal → s.myCtx.claim = some m → m.releasing = false → first + count ≤ m.lanes → a % max (z / 8) 1 = 0 → m.queue.length < 4 → s.tablesRead s.iss.who = true →
      (leavesRegion a (a + len - 1) false = false → (s.tag t).complete = true → exec (.bsin tag sa sb lz) s = .next ((entered false).ended .done)) ∧
      (leavesRegion a (a + len - 1) true = false → count * z % 8 = 0 → (s.tag t).complete = true →
        (Cond.copyReady t box).holds s = true →
        exec (.bsout tag sa sb sx lz) s = .next ((entered true).ended .done))) ∧
    (¬legal → exec (.bsin tag sa sb lz) s = .next (s.takeTrap (illegalWord .overLimit s.word)) ∧
      exec (.bsout tag sa sb sx lz) s = .next (s.takeTrap (illegalWord .overLimit s.word))) ∧
    (legal → s.claimOf s.mySlot = none → exec (.bsin tag sa sb lz) s = .next (s.takeTrap (mkTrap .claimViolation 3)) ∧
      (count * z % 8 = 0 → exec (.bsout tag sa sb sx lz) s = .next (s.takeTrap (mkTrap .claimViolation 3)))) ∧
    (∀ y bs s1, (s.tag t).st = .landing → (s.tag t).op = some (.transfer y) → y.out = false → y.buf = [] → (s.ctx y.slot).claim = some m → m.ready = true →
      m.spilled = false → s.copiesRun y.slot t = true → t ∈ m.pending →
      let lo := (y.segment y.seg).1
      let hi := (y.segment y.seg).2
      let base := (lo - y.first) * y.z / 8
      s.readFor y.slot y.order y.snap (some t) (y.addr + base) (((hi - y.first) * y.z + 7) / 8 - base) = .ok (bs, s1) →
      ∃ u m', exec (.transferStep t) s = .next u ∧ (u.ctx y.slot).claim = some m' ∧
        (∀ l < m.lanes, m'.laneBit (y.field + y.plane) l =
          if lo ≤ l ∧ l < hi then (leNat bs).testBit ((l - y.first) * y.z - base * 8 + y.plane) && decide (y.plane < y.z)
          else m.laneBit (y.field + y.plane) l) ∧
        (∀ p, p ≠ y.field + y.plane → m'.planes.get 0 p = m.planes.get 0 p)) ∧
    (∀ y, (s.tag t).st = .landing → (s.tag t).op = some (.transfer y) → (s.ctx y.slot).claim = some m → m.ready = true →
      m.spilled = false → s.copiesRun y.slot t = true → t ∈ m.pending →
      let lo := (y.segment y.seg).1
      let hi := (y.segment y.seg).2
      (y.out = false → y.buf ≠ [] → ∃ u m', exec (.transferStep t) s = .next u ∧ (u.ctx y.slot).claim = some m' ∧ u.mem = s.mem ∧
        (∀ l < m.lanes, m'.laneBit (y.field + y.plane) l =
          if lo ≤ l ∧ l < hi then (y.buf.get 0 l).testBit y.plane else m.laneBit (y.field + y.plane) l) ∧
        (∀ p, p ≠ y.field + y.plane → m'.planes.get 0 p = m.planes.get 0 p) ∧
        (y.plane + 1 = y.width → y.seg + 1 = y.segments →
          (u.tag t).st = .landed ∧ (u.tag t).rd = true ∧ (u.tag t).addr = y.addr + y.count * y.z / 8 ∧ m'.pending = m.pending.erase t) ∧
        (y.plane + 1 < y.width → (u.tag t).st = .landing ∧ (u.tag t).op = some (.transfer { y with plane := y.plane + 1 }))) ∧
      (y.out = true → y.landed < y.available ∨ y.seg = y.segments → exec (.transferStep t) s = .next s) ∧
      (y.out = true → y.available ≤ y.landed → y.seg ≠ y.segments → lo < hi → y.first ≤ lo → y.buf.get 0 y.plane < 2 ^ (lo - y.first) →
        ∃ u m' y', exec (.transferStep t) s = .next u ∧ (u.ctx y.slot).claim = some m' ∧ m'.planes = m.planes ∧ u.mem = s.mem ∧
          (u.tag t).st = .landing ∧ (u.tag t).op = some (.transfer y') ∧
          (∀ i, (y'.buf.get 0 y.plane).testBit i =
            if i < lo - y.first then (y.buf.get 0 y.plane).testBit i else decide (i + y.first < hi) && m.laneBit (y.field + y.plane) (i + y.first)) ∧
          (∀ p, p ≠ y.plane → y'.buf.get 0 p = y.buf.get 0 p) ∧
          y'.plane = (if y.plane + 1 = y.width then 0 else y.plane + 1) ∧ y'.seg = (if y.plane + 1 = y.width then y.seg + 1 else y.seg) ∧
          (y.plane + 1 = y.width → y.seg + 1 = y.segments → (u.tag t).rd = true ∧ m'.pending = m.pending.erase t))) ∧
    (∀ y bs s1, (s.tag t).st = .landing → (s.tag t).op = some (.transfer y) → y.out = true → s.copiesRun y.slot t = true →
      let at_ := y.addr + y.landed
      let n := min (128 - at_ % 128) (y.available - y.landed)
      let stored : Prop := bs.length = n ∧ ∀ i, i < n → ∀ b, b < 8 →
        let j := (y.landed + i) * 8 + b
        ((bs.getD i 0).getLsbD b = if j % y.z < y.width then (y.buf.get 0 (j % y.z)).testBit (j / y.z) else y.sx && (y.buf.get 0 (y.width - 1)).testBit (j / y.z))
      n ≠ 0 → 1 ≤ y.width → y.width ≤ y.z → (y.z = 1 ∨ y.z = 2 ∨ y.z = 4 ∨ y.z = 8 ∨ y.z = 16 ∨ y.z = 32 ∨ y.z = 64) → s.landingWaits y.slot y.order at_ n = false →
      stored → s.landBytes y.slot y.order at_ bs false = .ok s1 →
      (y.landed + n = y.len → exec (.chunkLanding t) s =
        .next (((s1.setTag t { s1.tag t with addr := at_ + n, st := .landed, rd := true, op := none }).opEnded t.owner).settleWrites)) ∧
      (y.landed + n ≠ y.len → exec (.chunkLanding t) s =
        .next ((s1.setTag t { s1.tag t with addr := at_ + n, op := some (.transfer { y with landed := y.landed + n }) }).settleWrites)))

/-- 17_piers R356-R358: fork begins a stream on the lowest free slot of a pier with s1 from its operand; join is done when the tag is complete, or was while it waited, and gives the stream's s1 at its halt; a mailbox
word goes in when its side is empty and no write of its sender is held, and comes out when it is full, and C's forms on a tag that names no running stream are permission traps with TINFO 28 (of a halted stream mbget first gives what UP still held). A join of a tag that is no stream's writes 0. -/
def Obligations.PierStreamForms : Prop :=
  ∀ (s : State) (tag : BitVec 6) (sa sb : BitVec 5) (p : BitVec 3), s.acts = true →
    let a := s.src sa
    let t := s.myTag tag.toNat
    let quiet : Prop := s.tablesRead s.iss.who = true ∧ ∀ h ∈ s.heldw, h.owned = true → h.who = s.iss.who → h.classes = 0
    let met := s.latched (.tagAll [t])
    (a.toNat % 8 ≠ 0 → exec (.fork tag sa sb p) s = .next (s.takeTrap (mkTrap .misalignment 0 a.toNat))) ∧
    (a.toNat % 8 = 0 → s.tablesRead s.iss.who = false →
      exec (.fork tag sa sb p) s = .next ((s.setCur (s.cur.block s 8 s.tableObj (.tablesRead s.iss.who))).ended .waiting)) ∧
    (a.toNat % 8 = 0 → s.tablesRead s.iss.who = true → (s.tag t).complete = false →
      exec (.fork tag sa sb p) s = .next ((s.setCur (s.cur.block s 6 tag.toNat (.tagAll [t]))).ended .waiting)) ∧
    (∀ k, a.toNat % 8 = 0 → s.tablesRead s.iss.who = true → (s.tag t).complete = true → k < 16 → (s.stream p.toNat k).used = false → (∀ j < k, (s.stream p.toNat j).used = true) →
      ∃ u : State, exec (.fork tag sa sb p) s = .next (u.ended .done) ∧
        u.stream p.toNat k = { used := true, core := s.myCoreNo, tag := tag.toNat, slot := s.mySlot, image := s.myCore.kern.getD {} } ∧
        (u.tag t).st = .landing ∧ (u.tag t).op = some (.fork { pier := p.toNat, k := k, order := s.nextOp }) ∧
        (u.seq (.pier p.toNat k)).pc = a ∧ (u.seq (.pier p.toNat k)).run = .running ∧ (u.seq (.pier p.toNat k)).sreg = [(1, s.src sb)] ∧
        u = { s with nextOp := s.nextOp + 1, streams := u.streams, tags := u.tags, seqs := u.seqs }) ∧
    (a.toNat % 8 = 0 → s.tablesRead s.iss.who = true → (s.tag t).complete = true → (∀ j < 16, (s.stream p.toNat j).used = true) →
      exec (.fork tag sa sb p) s = .next ((s.setCur (s.cur.block s 10 0xF0 (.streamFree p.toNat))).ended .waiting)) ∧
    (∀ f, (s.tag t).complete = true ∨ met = true → (s.tag t).op = some (.fork f) → exec (.join tag sa) s = .next ((s.wr sa f.s1).ended .done)) ∧
    ((s.tag t).complete = true ∨ met = true → (∀ f, (s.tag t).op ≠ some (.fork f)) → exec (.join tag sa) s = .next ((s.wr sa 0).ended .done)) ∧
    ((s.tag t).complete = false → met = false → exec (.join tag sa) s = .next ((s.setCur (s.cur.block s 6 tag.toNat (.tagAll [t]))).ended .waiting)) ∧
    (∀ c, s.iss.who = .seq c 0 →
      (∀ f, (s.tag t).op = some (.fork f) → f.ended = false →
        (quiet → (s.stream f.pier f.k).down = none →
          exec (.mbput tag sa) s = .next ((s.setStream f.pier f.k { s.stream f.pier f.k with down := some a }).ended .done)) ∧
        (¬quiet → (s.stream f.pier f.k).down = none →
          exec (.mbput tag sa) s = .next ((s.setCur (s.cur.block s 10 0xEF (.writesDone s.iss.who 0xFFFF))).ended .waiting)) ∧
        ((s.stream f.pier f.k).down.isSome = true →
          exec (.mbput tag sa) s = .next ((s.setCur (s.cur.block s 10 0xEF (.mailRoom f.pier f.k true))).ended .waiting)) ∧
        (∀ v, (s.stream f.pier f.k).up = some v →
          exec (.mbget tag sa) s = .next (((s.setStream f.pier f.k { s.stream f.pier f.k with up := none }).wr sa v).ended .done)) ∧
        ((s.stream f.pier f.k).up = none →
          exec (.mbget tag sa) s = .next ((s.setCur (s.cur.block s 10 0xEE (.mailFull f.pier f.k false))).ended .waiting))) ∧
      (∀ f v, (s.tag t).op = some (.fork f) → f.ended = true → f.up = some v →
        exec (.mbget tag sa) s = .next (((s.setTag t { s.tag t with op := some (.fork { f with up := none }) }).wr sa v).ended .done)) ∧
      (∀ f, (s.tag t).op = some (.fork f) → f.ended = true → exec (.mbput tag sa) s = .next (s.takeTrap (mkTrap .permission 28)) ∧
        (f.up = none → exec (.mbget tag sa) s = .next (s.takeTrap (mkTrap .permission 28)))) ∧
      ((∀ f, (s.tag t).op ≠ some (.fork f)) → exec (.mbput tag sa) s = .next (s.takeTrap (mkTrap .permission 28)) ∧
        exec (.mbget tag sa) s = .next (s.takeTrap (mkTrap .permission 28)))) ∧
    (∀ q k, s.iss.who = .pier q k →
      (quiet → (s.stream q k).up = none → exec (.mbput tag sa) s = .next ((s.setStream q k { s.stream q k with up := some a }).ended .done)) ∧
      ((s.stream q k).up.isSome = true → exec (.mbput tag sa) s = .next ((s.setCur (s.cur.block s 10 0xEF (.mailRoom q k false))).ended .waiting)) ∧
      (∀ v, (s.stream q k).down = some v → exec (.mbget tag sa) s = .next (((s.setStream q k { s.stream q k with down := none }).wr sa v).ended .done)) ∧
      ((s.stream q k).down = none → exec (.mbget tag sa) s = .next ((s.setCur (s.cur.block s 10 0xEE (.mailFull q k true))).ended .waiting)))

/-- 17_piers R359-R361: on a pier stream. pbind binds a free unit with the block at its address; pstrm sets an address stream, pchain the chain and pflush frees a unit that the stream holds (else
a permission trap); prun runs its bags, from where it has come when it waited, and is done once their writes are performed.
17_piers R361 and 02_numbers R59-R61: what a bag of prun gives. A row's index is an element of stream 0, read as signed; within the table its bytes lie at TBASE + index × ROWB, outside it
the row contributes +0; its weight is an element of stream 2, or 1. A bag of a unit covers the index positions from its offset to the next, or one
where stage 3 is bypassed. A term is weight × value, exact; each is rounded to the PF64 grid on its own (no NX, log 111), the sum of all units' terms is exact, clamped once and rounded once; a NaN term gives the
canonical NaN; the maximum takes the greatest term. Element j of bag b goes through stage 4 to the last unit's base + b × OSTR + 4j.
17_piers R362: prcpy copies a DRAM row of the pier: within a subarray it pushes true, across subarrays its b = 0 form pushes false and copies nothing, its b = 1 form
copies through the buffer; przero clears a row. A row address that is no address of a table-region page homed on the stream's pier, or off its alignment, traps; a push on a full stack traps and moves nothing. -/
def Obligations.PoolingForms : Prop :=
  (∀ (s : State) (sa sb : BitVec 5) (u : BitVec 4) (p k : Nat), s.acts = true → s.iss.who = .pier p k →
    let a := (s.src sa).toNat
    let w := (s.src sb).toNat
    let r := s.unit p u.toNat
    let mine : Prop := r.holder = some k
    let refused (i : Instr) (code : Nat) : Prop := exec i s = .next (s.takeTrap (mkTrap .permission (29 + code * 256)))
    (∀ b t, r.holder = none ∨ mine → a % 64 = 0 → s.loadBytes a 64 = .ok (b, t) →
      (blockOk (.ofNat 512 (leNat b)) = true →
        exec (.pbind sa u) s = .next ((t.setUnit p u.toNat { r with block := .ofNat 512 (leNat b), holder := some k }).ended .done)) ∧
      (blockOk (.ofNat 512 (leNat b)) = false → refused (.pbind sa u) 2)) ∧
    (∀ j, r.holder = some j → j ≠ k → exec (.pbind sa u) s = .next ((s.setCur (s.cur.block s 10 0xF0 (.unitFree p u.toNat k))).ended .waiting)) ∧
    (¬mine → refused (.pstrm sa sb u) 1 ∧ refused (.pchain sa u) 1 ∧ refused (.pflush u) 1 ∧ refused (.prun sa u) 1) ∧
    (mine → w < 16 → (w % 4 = 0 → 2 ≤ w / 4) → (w % 4 = 1 ∨ w % 4 = 2 → w / 4 = 2) → (w % 4 ≠ 3 → a % 2 ^ (w / 4) = 0) →
      exec (.pstrm sa sb u) s = .next ((s.setUnit p u.toNat { r with streams := r.streams.set (w % 4) (a, w / 4) }).ended .done)) ∧
    (mine → 16 ≤ w → exec (.pstrm sa sb u) s = .next (s.takeTrap (illegalWord .overLimit s.word))) ∧
    (0 < a → u.toNat + a ≤ 16 → (∀ j < a, (s.unit p (u.toNat + j)).holder = some k ∧ (s.unit p (u.toNat + j)).shape = r.shape) →
      exec (.pchain sa u) s = .next ((s.setUnit p u.toNat { r with chain := a }).ended .done)) ∧
    (mine → a = 0 ∨ 16 < u.toNat + a → refused (.pchain sa u) 3) ∧
    (mine → exec (.pflush u) s = .next ((s.setUnit p u.toNat {}).ended .done)) ∧
    (∀ l t, s.chainUnits u.toNat r.chain = .ok l → mine →
      (let b := match s.resumed .pool with
        | some f => f.a
        | none => 0
      runBags l (a % 2 ^ 32 - b) b s = .ok t) →
      (∀ h ∈ t.heldw, h.owned = true → h.who = t.iss.who → h.classes = 0) → t.iss.who = s.iss.who → exec (.prun sa u) s = .next ((t.setResume none).ended .done))) ∧
  (∀ (s : State) (r : PoolUnit) (b : Nat),
    (∀ i base z v s1, r.streams.get (0, 2) 0 = (base, z) → s.loadNat (base + i * 2 ^ z) (2 ^ z) = .ok (v, s1) → v < 2 ^ (8 * 2 ^ z) →
      let n : Int := if v < 2 ^ (8 * 2 ^ z - 1) then v else (v : Int) - 2 ^ (8 * 2 ^ z)
      (∀ w s2, (r.bypassed 2 = true ∨ r.streams.has 2 = false → w = .fin false 1 0 ∧ s2 = s1) →
        (r.bypassed 2 = false → r.streams.has 2 = true → ∃ c, s1.loadNat ((r.streams.get (0, 2) 2).1 + i * 4) 4 = .ok (c, s2) ∧ w = fp32.num c) →
        (n < 0 ∨ (r.field 2 63 32 : Int) ≤ n → s.poolRow r i = .ok ((w, none), s2)) ∧
        (∀ k : Nat, n = k → k < r.field 2 63 32 → ∀ bs s3, s2.loadBytes (r.field 0 56 0 + k * r.field 1 15 0) r.rows.bytes = .ok (bs, s3) →
          s.poolRow r i = .ok ((w, some bs), s3)))) ∧
    (r.bypassed 3 = true → s.bagSpan r b = .ok ([b], s)) ∧
    (∀ lo hi s1 s2, r.bypassed 3 = false → s.loadNat ((r.streams.get (0, 2) 1).1 + b * 4) 4 = .ok (lo, s1) →
      s1.loadNat ((r.streams.get (0, 2) 1).1 + (b + 1) * 4) 4 = .ok (hi, s2) →
      ∃ is, s.bagSpan r b = .ok (is, s2) ∧ ∀ i, i ∈ is ↔ lo ≤ i ∧ i < hi) ∧
    (∀ rest is s1 rows s2 ts s3, s.bagSpan r b = .ok (is, s1) → s1.poolRows r is = .ok (rows, s2) → s2.bagTerms b rest = .ok (ts, s3) →
      let mine (j : Nat) : List Machine.Num := rows.map fun p => match p.2 with
        | some bs => (mulNum p.1 (r.rows.value bs (r.bypassed 1) j)).1
        | none => .fin false 0 0
      ∃ out, s.bagTerms b (r :: rest) = .ok (out, s3) ∧
        ∀ j, j < r.rows.elems → (ts = [] → out[j]? = some (mine j)) ∧ (∀ more, ts[j]? = some more → out[j]? = some (mine j ++ more))) ∧
    (∀ (e : Int) (ts : List Machine.Num) (qs : List Int), (∀ t ∈ ts, t.isNaN = false) →
      let clamp (x : Int) : Int := max (-(2 ^ 63)) (min (2 ^ 63 - 1) x)
      let near (neg : Bool) (m : Nat) (x q : Int) : Prop :=
        let v : Int := if neg then -(m : Int) else m
        (e ≤ x → q = v * 2 ^ (x - e).toNat) ∧
        (x < e →
          let h : Int := 2 ^ (e - x).toNat
          2 * (q * h - v) ≤ h ∧ -h ≤ 2 * (q * h - v) ∧ (2 * (q * h - v) = h ∨ 2 * (q * h - v) = -h → q % 2 = 0))
      let term (t : Machine.Num) (q : Int) : Prop := match t with
        | .nan _ => False
        | .inf neg => q = if neg then -(2 ^ 63) else 2 ^ 63 - 1
        | .fin neg m x => ∃ q0 : Int, near neg m x q0 ∧ q = clamp q0
      ts.length = qs.length → (∀ (i : Nat) (t : Machine.Num) (q : Int), ts[i]? = some t → qs[i]? = some q → term t q) →
      let v := clamp qs.sum
      (ts = [] ∨ v = 0 → (poolElement 0 e ts).1 = 0 ∧ (poolElement 1 e ts).1 = 0) ∧
      (ts ≠ [] → v ≠ 0 →
        (poolElement 0 e ts).1 = (roundTo fp32 {} (.num (.fin (decide (v < 0)) v.natAbs e))).1 ∧
        (poolElement 1 e ts).1 = (roundTo fp32 {} (.mag (decide (v < 0)) (magRatio v.natAbs ts.length e))).1)) ∧
    (∀ (e : Int) (ts : List Machine.Num), (∃ t ∈ ts, t.isNaN = true) →
      ∀ mode, (poolElement mode e ts).1 = 0x7FC00000 ∧ (poolElement mode e ts).2 &&& fNV = fNV) ∧
    (∀ (e : Int) (ts : List Machine.Num), (∀ t ∈ ts, t.isNaN = false) →
      (ts = [] → (poolElement 2 e ts).1 = 0) ∧
      (ts ≠ [] → ∃ t ∈ ts, (∀ u ∈ ts, belowNum t u = false) ∧ (poolElement 2 e ts).1 = (roundTo fp32 {} (.num t)).1)) ∧
    (∀ act x, activate act true x = (x, 0)) ∧
    (∀ x, (fp32.num x).isNaN = true → (activate 2 false x).1 = 0x7FC00000) ∧
    (∀ x, (fp32.num x).isNaN = false → (activate 2 false x).1 = if (fp32.num x).neg ∨ (fp32.num x).isZero then 0 else x) ∧
    (∀ chain last ts s1 s2, chain.head? = some r → chain.getLast? = some last → s.bagTerms b chain = .ok (ts, s1) →
      let out (t : List Machine.Num) : Nat := (activate (r.field 1 49 48) (r.bypassed 4) (poolElement (r.field 1 45 44) (signed8 (r.field 1 63 56)) t).1).1
      s1.storeBytes ((last.streams.get (0, 2) 3).1 + b * last.field 2 31 0) (ts.flatMap fun t => leBytes 4 (out t)) (classBit 15) .write = .ok s2 →
      ∃ f, s.runBag chain b = .ok (s2.flag f))) ∧
  (∀ (s : State) (sa sb : BitVec 5), s.acts = true →
    let d := (s.src sa).toNat
    let o := (s.src sb).toNat
    (∀ pd po bs t u, s.rowPa d = .ok pd → s.rowPa o = .ok po → d % 2048 = 0 → o % 2048 = 0 →
      s.loadBytes o 2048 = .ok (bs, t) → t.storeNow d bs = .ok u →
      exec (.prcpy sa sb 1) s = .next (u.ended .done) ∧
      (bits pd 37 21 = bits po 37 21 → u.cur.stack.length < 8 →
        exec (.prcpy sa sb 0) s =
          .next ((u.setCur { u.cur with stack := (BitVec.allOnes 1024 &&& topOf u.iss.old.stack &&& topOf u.cur.stack) :: u.cur.stack }).ended .done))) ∧
    (∀ pd po, s.rowPa d = .ok pd → s.rowPa o = .ok po → d % 2048 = 0 → o % 2048 = 0 → bits pd 37 21 ≠ bits po 37 21 → s.cur.stack.length < 8 →
      exec (.prcpy sa sb 0) s = .next ((s.setCur { s.cur with stack := 0 :: s.cur.stack }).ended .done)) ∧
    (∀ pd u, s.rowPa d = .ok pd → d % 2048 = 0 → s.storeNow d (List.replicate 2048 0) = .ok u → exec (.przero sa) s = .next (u.ended .done)) ∧
    (∀ pd, s.rowPa d = .ok pd → d % 2048 ≠ 0 → exec (.przero sa) s = .next (s.takeTrap (mkTrap .misalignment 0 d))) ∧
    (∀ pd po, s.rowPa d = .ok pd → s.rowPa o = .ok po → d % 2048 = 0 → o % 2048 = 0 → bits pd 37 21 ≠ bits po 37 21 → 8 ≤ s.cur.stack.length →
      exec (.prcpy sa sb 0) s = .next (s.takeTrap (mkTrap .predOverflow))) ∧
    (∀ e level, (s.walkOf s.mySlot d).2 = .ok (e, level) → regionOf d = .translated →
      let pa := bits e 63 32 * 2 ^ 16 + d % pageSize level
      let bad : Prop := e.testBit 6 = false ∨ bits e 11 10 ≠ 1 ∨ bits pa 40 38 ≠ s.myStream.1
      (¬bad → s.rowPa d = .ok pa) ∧
      (bad → exec (.przero sa) s = .next (s.takeTrap (mkTrap .permission (29 + 4 * 256))) ∧
        ∀ b, exec (.prcpy sa sb b) s = .next (s.takeTrap (mkTrap .permission (29 + 4 * 256))))) ∧
    (∀ pd e level, s.rowPa d = .ok pd → (s.walkOf s.mySlot o).2 = .ok (e, level) → regionOf o = .translated →
      e.testBit 6 = false ∨ bits e 11 10 ≠ 1 ∨ bits (bits e 63 32 * 2 ^ 16 + o % pageSize level) 40 38 ≠ s.myStream.1 →
      ∀ b, exec (.prcpy sa sb b) s = .next (s.takeTrap (mkTrap .permission (29 + 4 * 256)))) ∧
    (regionOf d ≠ .translated → exec (.przero sa) s = .next (s.takeTrap (mkTrap .permission (29 + 4 * 256))) ∧
      ∀ b, exec (.prcpy sa sb b) s = .next (s.takeTrap (mkTrap .permission (29 + 4 * 256)))))

/-- 18_link R387-R389, R391, R392, R395: a crossing order whose command block passes its checks starts its operation on its tag once the tag is complete (of an
xget once its box has a landing slot); of no bytes it is done at once. An xamo and an xsig send their packet, with the numbers of the earlier operations that are performed before it (of an xsig all of
its core to that module, under ORD those with ORD); an xsig of an open tile waits in the commit buffer;
xwait gives the status of the tag once it is complete, or was while xwait waited. A misaligned block, a reserved field and a job that is not enabled trap. -/
def Obligations.CrossingForms : Prop :=
  ∀ (s : State) (tag : BitVec 6) (sa sb : BitVec 5), s.acts = true →
    let a := (s.src sa).toNat
    let t := s.myTag tag.toNat
    let x (fn : Nat) (b : List Byte) (u : State) : Crossing :=
      { fn := fn, slot := s.mySlot, core := s.myCoreNo, step := s.iss.here, wslot := s.iss.slot, order := u.nextOp, issued := s.wall, block := b, addr := s.src sa }
    let begun (u : State) (y : Crossing) : State :=
      ({ u.latch with nextOp := u.nextOp + 1 }.setTag t
        { addr := if y.fn = 3 then blkWord y.block 1 else 0, st := .landing, rd := false, rep := false, op := some (.crossing y) }).settleWrites
    let legal (fn : Nat) (b : List Byte) (u : State) : Prop :=
      a % 64 = 0 ∧ s.loadBytes a 64 = .ok (b, u) ∧ crossReservedZero fn b = true ∧
      (fn = 0 → bit (blkWord b 0) 10 = true → s.myCtx.tableOk (bits (blkWord b 0) 9 0) = true) ∧
      (∀ i ∈ crossVault fn, s.inSegment s.mySlot (blkWord b i) = true) ∧ s.crossLimits fn b = true ∧ s.myCtx.xjob.toNat.testBit 16 = true
    let waits (o : Instr) (c : Cond) : Prop := exec o s = .next ((s.setCur (s.cur.block s 6 tag.toNat c)).ended .waiting)
    (∀ b u, (s.tag t).complete = true →
      (legal 0 b u → exec (.xbkt tag sa) s = .next ((begun u (x 0 b u)).ended .done)) ∧
      (legal 1 b u → exec (.xa2a tag sa) s = .next ((begun u (x 1 b u)).ended .done)) ∧
      (legal 2 b u → bits (blkWord b 3) 31 0 ≠ 0 → exec (.xput tag sa) s = .next ((begun u (x 2 b u)).ended .done)) ∧
      (legal 2 b u → bits (blkWord b 3) 31 0 = 0 → ∃ v : State, exec (.xput tag sa) s = .next (v.ended .done) ∧ (v.tag t).st = .landed ∧
        (v.tag t).xst = if s.mgmt.devidSet then 0 else 5) ∧
      (legal 3 b u → bits (blkWord b 3) 31 0 = 0 → ∃ v : State, exec (.xget tag sa) s = .next (v.ended .done) ∧ (v.tag t).st = .landed ∧
        (v.tag t).xst = if s.mgmt.devidSet then 0 else 5) ∧
      (legal 4 b u → exec (.xamo tag sa) s = .next ((((begun u (x 4 b u)).sendPacket (bits (blkWord b 0) 21 0)
        { fn := 4, tenant := u.keyOf s.mySlot, addr := blkWord b 2, op := bits (blkWord b 0) 37 33, value := blkWord b 4, len := blkWord b 5, seq := u.nextOp,
          rod := (blkWord b 0).testBit 32, before := u.orderBefore (x 4 b u) }).noteUnrepeatable).ended .done))) ∧
    (∀ b u, legal 3 b u → bits (blkWord b 3) 31 0 ≠ 0 →
      (Cond.copyReady t (.ofNat 512 (blkWord b 1 * 2 ^ 64 + bits (blkWord b 3) 31 0 * 2 ^ 128))).holds s = true →
      exec (.xget tag sa) s = .next ((begun u (x 3 b u)).ended .done)) ∧
    (∀ b u, (s.tag t).complete = false →
      (legal 0 b u → waits (.xbkt tag sa) (.tagAll [t])) ∧ (legal 1 b u → waits (.xa2a tag sa) (.tagAll [t])) ∧
      (legal 2 b u → waits (.xput tag sa) (.tagAll [t])) ∧ (legal 4 b u → waits (.xamo tag sa) (.tagAll [t]))) ∧
    (bits a 31 22 = 0 → bits a 63 44 = 0 → s.myCtx.xjob.toNat.testBit 16 = true → s.tablesRead s.iss.who = true →
      (s.tileOpen = false → (s.tag t).complete = true → exec (.xsig tag sa sb) s =
        .next (((begun s { x 5 [] s with value := s.src sb }).sendPacket (bits a 21 0)
          { fn := 5, tenant := s.keyOf s.mySlot, addr := bits a 43 32, value := (s.src sb).toNat % 2 ^ 32, seq := s.nextOp,
            before := s.orderBefore { x 5 [] s with value := s.src sb } }).ended .done)) ∧
      ((s.tag t).complete = false → s.tileOpen = false → waits (.xsig tag sa sb) (.tagAll [t])) ∧
      (s.tileOpen = true → s.myCore.cbuf.length < 64 → exec (.xsig tag sa sb) s =
        .next ((s.setMyCore { s.myCore with cbuf := s.myCore.cbuf ++ [.xsig tag.toNat (s.src sa) (s.src sb)] }).ended .done))) ∧
    (∀ y n, n ∈ s.orderBefore y ↔ ∃ e ∈ s.tags, ∃ z, e.2.op = some (.crossing z) ∧ z.order = n ∧ n < y.order ∧ (e.2.st = .landing ∨ e.2.st = .frozen) ∧
      z.core = y.core ∧ z.dev = y.dev ∧ 2 ≤ z.fn ∧ z.fn ≤ 5 ∧ z.status = none ∧ ¬(z.fn = 3 ∧ z.moved = z.len) ∧ (y.fn = 5 ∨ y.ord = true ∧ z.ord = true)) ∧
    ((s.tag t).complete = true ∨ s.latched (.tagAll [t]) = true → exec (.xwait tag sa) s = .next ((s.wr sa (.ofNat 64 (s.tag t).xst)).ended .done)) ∧
    ((s.tag t).complete = false → s.latched (.tagAll [t]) = false → waits (.xwait tag sa) (.tagAll [t])) ∧
    (∀ o ∈ [Instr.xbkt tag sa, .xa2a tag sa, .xput tag sa, .xget tag sa, .xamo tag sa],
      a % 64 ≠ 0 → exec o s = .next (s.takeTrap (mkTrap .misalignment 0 a))) ∧
    (∀ b u, a % 64 = 0 → s.loadBytes a 64 = .ok (b, u) → crossReservedZero 2 b = false →
      exec (.xput tag sa) s = .next (s.takeTrap (mkTrap .permission (30 + 256)))) ∧
    (bits a 31 22 = 0 → bits a 63 44 = 0 → s.myCtx.xjob.toNat.testBit 16 = false →
      exec (.xsig tag sa sb) s = .next (s.takeTrap (mkTrap .permission (30 + 5 * 256))))

/-- 17_piers R367-R369, R373: an embedding order whose command block passes its checks starts its command on its tag once the tag is complete; a grow starts a copy of its rows, and of no bytes is
done at once; a supd of an open tile waits in the commit buffer. A misaligned block, a reserved field and a table that is no valid table trap. -/
def Obligations.EmbeddingForms : Prop :=
  ∀ (s : State) (tag : BitVec 6) (sa sb : BitVec 5), s.acts = true →
    let a := (s.src sa).toNat
    let t := s.myTag tag.toNat
    let x := s.myCtx
    let cmd (fn : Nat) (u : State) : Embedding :=
      { fn := fn, slot := s.mySlot, core := s.myCoreNo, step := s.iss.here, wslot := s.iss.slot, order := u.nextOp }
    let begun (u : State) (e : Embedding) : State :=
      ({ u.latch with nextOp := u.nextOp + 1 }.setTag t { addr := 0, st := .landing, rd := false, rep := false, op := some (.embedding e) }).settleWrites
    let read (fn : Nat) (b : List Byte) (u : State) : Prop := a % 64 = 0 ∧ s.loadBytes a 64 = .ok (b, u) ∧ blkReservedZero fn b = true ∧
      x.tableOk (bits (blkWord b 0) 9 0) = true
    let vault (b : List Byte) (i : Nat) : Prop := regionOf (blkWord b i) = .vault
    let bag (b : List Byte) (u : State) : Prop := read 0 b u ∧ pfOk (blkE b) = true ∧ vault b 1 ∧ vault b 2 ∧ (bit (blkWord b 0) 15 = true → vault b 3) ∧
      vault b 4 ∧ u.checkRead (blkWord b 4) 64 = .ok () ∧ u.ringFits s.mySlot (blkWord b 4) (4 * tblElems (x.table (blkTable b))) = true
    let gradient (b o : List Byte) (u v : State) : Prop := read 2 b u ∧ pfOk (blkE b) = true ∧ vault b 1 ∧ blkWord b 3 % 64 = 0 ∧
      u.loadBytes (blkWord b 3) 64 = .ok (o, v) ∧ optValid x (blkTable b) o = true
    let sketch (b : List Byte) (u : State) : Prop := read 4 b u ∧ tblSkv (x.table (blkTable b)) = true ∧ vault b 1
    let waits (o : Instr) (c : Cond) : Prop := exec o s = .next ((s.setCur (s.cur.block s 6 tag.toNat c)).ended .waiting)
    ((s.tag t).complete = true →
      (∀ b u, bag b u → exec (.gbag tag sa) s = .next ((begun u { cmd 0 u with block := b }).ended .done)) ∧
      (∀ b o u v, gradient b o u v → s.tileOpen = false →
        exec (.supd tag sa) s = .next ((begun v { cmd 2 v with block := b, opt := o, table := blkTable b }).ended .done)) ∧
      ((s.src sa).toNat < 1024 → x.tableOk (s.src sa).toNat = true → s.tablesRead s.iss.who = true →
        exec (.scommit tag sa sb) s = .next ((begun s { cmd 3 s with table := (s.src sa).toNat, value := (s.src sb).toNat % 2 ^ 32 }).ended .done)) ∧
      (∀ b u, sketch b u → exec (.skq tag sa) s = .next ((begun u { cmd 4 u with block := b, table := blkTable b }).ended .done))) ∧
    ((s.tag t).complete = false → (∀ b u, bag b u → waits (.gbag tag sa) (.tagAll [t])) ∧ (∀ b u, sketch b u → waits (.skq tag sa) (.tagAll [t])) ∧
      ((s.src sa).toNat < 1024 → x.tableOk (s.src sa).toNat = true → s.tablesRead s.iss.who = true → waits (.scommit tag sa sb) (.tagAll [t]))) ∧
    (∀ b o u v, gradient b o u v → s.tileOpen = true → s.myCore.cbuf.length < 64 →
      exec (.supd tag sa) s = .next ((v.setMyCore { v.myCore with cbuf := v.myCore.cbuf ++ [.supd tag.toNat b o] }).ended .done)) ∧
    (∀ b u, read 1 b u → vault b 1 →
      let rowb := tblRowB (x.table (blkTable b))
      let len := blkN b * rowb % 2 ^ 32
      let dst := blkWord b 4
      let d : BitVec 512 := .ofNat 512 (dst * 2 ^ 64 + len * 2 ^ 128)
      (len = 0 → (s.tag t).complete = true → ∃ v : State, exec (.grow tag sa) s = .next (v.ended .done) ∧ (v.tag t).st = .landed ∧ (v.tag t).op = none) ∧
      (len ≠ 0 → leavesRegion dst (dst + len - 1) true = false → u.boxInSegment s.mySlot (destShape d) = .ok () → (Cond.copyReady t d).holds s = true →
        ∃ v c, exec (.grow tag sa) s = .next ((State.settleWrites v).ended .done) ∧ (v.tag t).st = .landing ∧ (v.tag t).addr = dst % 2 ^ 57 ∧
          (v.tag t).op = some (.copy c) ∧ c.desc = d ∧ c.kind = .rows { table := blkTable b, idx := blkWord b 1, i64 := bit (blkWord b 0) 12, rowb := rowb } ∧
          v = { u.latch with nextOp := v.nextOp, tags := v.tags, caches := v.caches })) ∧
    (∀ o ∈ [Instr.gbag tag sa, .grow tag sa, .supd tag sa, .skq tag sa], a % 64 ≠ 0 → exec o s = .next (s.takeTrap (mkTrap .misalignment 0 a))) ∧
    (∀ b u, a % 64 = 0 → s.loadBytes a 64 = .ok (b, u) →
      (blkReservedZero 1 b = false → exec (.grow tag sa) s = .next (s.takeTrap (mkTrap .permission (25 + 256)))) ∧
      (blkReservedZero 1 b = true → x.tableOk (blkTable b) = false → exec (.grow tag sa) s = .next (s.takeTrap (mkTrap .permission (25 + 2 * 256))))) ∧
    (1024 ≤ (s.src sa).toNat → exec (.scommit tag sa sb) s = .next (s.takeTrap (mkTrap .permission (25 + 256))))

/-- 13_vector R265-R269, R272, R274-R276: lane-wise arithmetic. Every active element is the exact result of its operands rounded once (float) or wrapped (integer); inactive ones keep what
they held. vmin and vmax let a number win over a NaN; saturating orders clamp and set SAT. -/
def Obligations.VectorArithmeticForms : Prop :=
  ∀ (s : State) (tok : BitVec 4) (vd va vb : BitVec 5) (la lb : BitVec 1),
    let T := tyOf s.t0
    let w := typeWidth s.t0
    let n := 4096 / w
    let rm := s.iss.old.rm
    let only (m j : Nat) (e : Elem) : Option Elem := if j < m ∧ s.topNat.testBit j then some e else none
    let one (o : Instr) (A : Nat) (f : Nat → Nat → Elem) : Prop :=
      s.givesElements o vd.toNat s.t0 1 true (fmtOf s.t0 0xF s.t0) (fun j => only n j (f j (laneOf w (s.patterned 1 A) j)))
    let two (o : Instr) (A B : Nat) (f : Nat → Nat → Nat → Elem) : Prop :=
      s.givesElements o vd.toNat s.t0 1 true (fmtOf s.t0 s.t0 s.t0) (fun j => only n j (f j (laneOf w (s.patterned 1 A) j) (laneOf w B j)))
    let three (o : Instr) (A B D : Nat) (f : Nat → Nat → Nat → Nat → Elem) : Prop := two o A B (fun j a b => f j (laneOf w D j) a b)
    (∀ A B D, s.named va.toNat 1 A → s.named vb.toNat 1 B → s.named vd.toNat 1 D →
      (∀ f, T = .fp f → s.t0 ≤ 5 → rm < 5 →
        three (.vfma tok vd va vb la lb) A B D (fun j d a b => s.roundedElem f j (exactNum (fmaNum rm (f.num d) (f.num a) (f.num b)))) ∧
        three (.vfms tok vd va vb la lb) A B D (fun j d a b => s.roundedElem f j (exactNum (fmaNum rm (f.num d) (f.num a).flip (f.num b))))) ∧
      (∀ i, T = .int i → s.t0 ≤ 11 →
        three (.vfma tok vd va vb la lb) A B D (fun _ d a b => (i.wrap (i.int d + i.int a * i.int b), 0)) ∧
        three (.vfms tok vd va vb la lb) A B D (fun _ d a b => (i.wrap (i.int d - i.int a * i.int b), 0))) ∧
      (∀ z : Bool, s.t0 = (if z then 8 else 10) → s.givesElements (.vdot4 tok vd va vb la lb) vd.toNat 6 1 true (fmtOf s.t0 s.t0 6) (fun j =>
        let by4 (v k : Nat) : Int := (IntFmt.mk 8 z).int (laneOf 8 (laneOf 32 v j) k)
        let x : Int := (IntFmt.mk 32 true).int (laneOf 32 D j) + ((List.range 4).map fun k => by4 (s.patterned 1 A) k * by4 B k).sum
        let y : Int := max (-(2 ^ 31)) (min (2 ^ 31 - 1) x)
        only 128 j ((IntFmt.mk 32 true).wrap y, if y = x then 0 else fSAT)))) ∧
    (∀ A B, s.named va.toNat 1 A → s.named vb.toNat 1 B →
      (∀ f, T = .fp f → s.t0 ≤ 5 →
        two (.vmin tok vd va vb la lb) A B (fun _ a b => let x := f.num a
          let y := f.num b
          (if x.isNaN && y.isNaN then f.nan else if x.isNaN then b else if y.isNaN then a else if belowNum y x then b else a,
           if x.isSig || y.isSig then fNV else 0)) ∧
        two (.vmax tok vd va vb la lb) A B (fun _ a b => let x := f.num a
          let y := f.num b
          (if x.isNaN && y.isNaN then f.nan else if x.isNaN then b else if y.isNaN then a else if belowNum x y then b else a,
           if x.isSig || y.isSig then fNV else 0)) ∧
        (rm < 5 →
          two (.vadd tok vd va vb la lb) A B (fun j a b => s.roundedElem f j (exactNum (addNum rm (f.num a) (f.num b)))) ∧
          two (.vsub tok vd va vb la lb) A B (fun j a b => s.roundedElem f j (exactNum (addNum rm (f.num a) (f.num b).flip))) ∧
          two (.vmul tok vd va vb la lb) A B (fun j a b => s.roundedElem f j (exactNum (mulNum (f.num a) (f.num b)))) ∧
          (s.t0 ≤ 2 → two (.vdiv tok vd va vb la lb) A B (fun j a b => s.roundedElem f j (divNum (f.num a) (f.num b)))))) ∧
      (∀ i, T = .int i → s.t0 ≤ 11 →
        let ints (o : Instr) (g : Int → Int → Int) : Prop := two o A B (fun _ a b => (i.wrap (g (i.int a) (i.int b)), 0))
        let sats (o : Instr) (g : Int → Int → Int) : Prop := two o A B (fun _ a b =>
          let x := g (i.int a) (i.int b)
          let y := max i.lo (min i.hi x)
          (i.wrap y, if y = x then 0 else fSAT))
        ints (.vadd tok vd va vb la lb) (fun a b => a + b) ∧ ints (.vsub tok vd va vb la lb) (fun a b => a - b) ∧
        ints (.vmul tok vd va vb la lb) (fun a b => a * b) ∧ ints (.vmulh tok vd va vb la lb) (fun a b => a * b / 2 ^ w) ∧
        two (.vmin tok vd va vb la lb) A B (fun _ a b => (if i.int b < i.int a then b else a, 0)) ∧
        two (.vmax tok vd va vb la lb) A B (fun _ a b => (if i.int a < i.int b then b else a, 0)) ∧
        sats (.vadds tok vd va vb la lb) (fun a b => a + b) ∧ sats (.vsubs tok vd va vb la lb) (fun a b => a - b))) ∧
    (∀ A, s.named va.toNat 1 A →
      (∀ f, T = .fp f → s.t0 ≤ 5 →
        one (.vabs tok vd va la) A (fun _ a => if (f.num a).isNaN then (f.nan, if (f.num a).isSig then fNV else 0) else (a % f.signBit, 0)) ∧
        one (.vneg tok vd va la) A (fun _ a => if (f.num a).isNaN then (f.nan, if (f.num a).isSig then fNV else 0) else
          (if a < f.signBit then a + f.signBit else a - f.signBit, 0)) ∧
        (s.t0 ≤ 2 → rm < 5 →
          one (.vsqrt tok vd va la) A (fun j a => s.roundedElem f j (sqrtNum (f.num a))) ∧
          one (.vrcp tok vd va la) A (fun j a => s.roundedElem f j (specialFn 0 (f.num a))) ∧
          one (.vrsqrt tok vd va la) A (fun j a => s.roundedElem f j (specialFn 1 (f.num a))) ∧
          one (.vexp tok vd va la) A (fun j a => s.roundedElem f j (specialFn 2 (f.num a))) ∧
          one (.vlog tok vd va la) A (fun j a => s.roundedElem f j (specialFn 3 (f.num a))) ∧
          one (.vtanh tok vd va la) A (fun j a => s.roundedElem f j (specialFn 4 (f.num a))) ∧
          one (.vsigm tok vd va la) A (fun j a => s.roundedElem f j (specialFn 5 (f.num a))))) ∧
      (∀ i, T = .int i → s.t0 ≤ 11 →
        one (.vabs tok vd va la) A (fun _ a => (i.wrap (i.int a).natAbs, 0)) ∧ one (.vneg tok vd va la) A (fun _ a => (i.wrap (-(i.int a)), 0))))

/-- 13_vector R275, R277: widening arithmetic into the group of the wider type, and bit operations, which set no flag; 03_encoding R82; 13_vector R262, R268: a type that an order does not take, a
reserved rounding mode of a float order and a group past v27 are the illegal-order trap; 05_kernel R123: with DEADCHK a dead operand that an active element needs traps. -/
def Obligations.VectorWideBitForms : Prop :=
  ∀ (s : State) (tok : BitVec 4) (vd va vb : BitVec 5) (la lb : BitVec 1),
    let w := typeWidth s.t0
    let v := typeWidth s.t1
    let n := 4096 / w
    let rm := s.iss.old.rm
    let g := v / w
    let only (j : Nat) (e : Elem) : Option Elem := if j < n ∧ s.topNat.testBit j then some e else none
    let limit (o : Instr) : Prop := exec o s = .next (s.takeTrap (illegalWord .overLimit s.word))
    let wide (o : Instr) (A B : Nat) (f : Nat → Nat → Nat → Elem) : Prop :=
      s.givesElements o vd.toNat s.t1 g true (fmtOf s.t0 s.t0 s.t1) (fun j => only j (f j (laneOf w (s.patterned 1 A) j) (laneOf w B j)))
    let bits2 (o : Instr) (A B : Nat) (f : Nat → Nat → Nat) : Prop :=
      s.givesElements o vd.toNat s.t0 1 false 0 (fun j => only j (f (laneOf w (s.patterned 1 A) j) (laneOf w B j), 0))
    let bits1 (o : Instr) (A : Nat) (f : Nat → Nat) : Prop :=
      s.givesElements o vd.toNat s.t0 1 false 0 (fun j => only j (f (laneOf w (s.patterned 1 A) j), 0))
    (∀ A B, s.named va.toNat 1 A → s.named vb.toNat 1 B → s.t0 ≤ 11 → s.t1 ≤ 11 → exactIn s.t0 s.t1 = true → v = 2 * w ∨ v = 4 * w → vd.toNat + g ≤ 28 →
      (∀ f h, tyOf s.t0 = .fp f → tyOf s.t1 = .fp h → rm < 5 →
        wide (.vmulw tok vd va vb la lb) A B (fun j a b => s.roundedElem h j (exactNum (mulNum (f.num a) (f.num b)))) ∧
        wide (.vaddw tok vd va vb la lb) A B (fun j a b => s.roundedElem h j (exactNum (addNum rm (f.num a) (f.num b)))) ∧
        (∀ D, s.named vd.toNat g D →
          wide (.vfmaw tok vd va vb la lb) A B (fun j a b => s.roundedElem h j (exactNum (fmaNum rm (h.num (laneOf v D j)) (f.num a) (f.num b)))))) ∧
      (∀ i k, tyOf s.t0 = .int i → tyOf s.t1 = .int k →
        wide (.vmulw tok vd va vb la lb) A B (fun _ a b => (k.wrap (i.int a * i.int b), 0)) ∧
        wide (.vaddw tok vd va vb la lb) A B (fun _ a b => (k.wrap (i.int a + i.int b), 0)) ∧
        (∀ D, s.named vd.toNat g D →
          wide (.vfmaw tok vd va vb la lb) A B (fun j a b => (k.wrap (k.int (laneOf v D j) + i.int a * i.int b), 0))))) ∧
    (∀ A B, s.named va.toNat 1 A → s.named vb.toNat 1 B → s.t0 ≤ 12 →
      bits2 (.vand tok vd va vb la lb) A B (fun a b => a &&& b) ∧ bits2 (.vor tok vd va vb la lb) A B (fun a b => a ||| b) ∧
      bits2 (.vxor tok vd va vb la lb) A B (fun a b => a ^^^ b) ∧
      bits2 (.vsll tok vd va vb la lb) A B (fun a b => if w ≤ b then 0 else a * 2 ^ b % 2 ^ w) ∧
      bits2 (.vsrl tok vd va vb la lb) A B (fun a b => if w ≤ b then 0 else a / 2 ^ b) ∧
      bits2 (.vsra tok vd va vb la lb) A B (fun a b => (IntFmt.mk w true).wrap ((IntFmt.mk w true).int a / 2 ^ (min b (w - 1))))) ∧
    (∀ A, s.named va.toNat 1 A → s.t0 ≤ 12 → bits1 (.vnot tok vd va la) A (fun a => 2 ^ w - 1 - a) ∧
      bits1 (.vpopc tok vd va la) A (fun a => (List.range w).countP fun k => a.testBit k)) ∧
    (12 ≤ s.t0 → ∀ o ∈ [Instr.vadd tok vd va vb la lb, .vsub tok vd va vb la lb, .vmul tok vd va vb la lb, .vfma tok vd va vb la lb, .vmin tok vd va vb la lb,
      .vabs tok vd va la, .vadds tok vd va vb la lb, .vdiv tok vd va vb la lb, .vexp tok vd va la, .vmulw tok vd va vb la lb, .vdot4 tok vd va vb la lb], limit o) ∧
    (13 ≤ s.t0 → limit (.vand tok vd va vb la lb) ∧ limit (.vnot tok vd va la)) ∧
    (5 ≤ rm → s.t0 ≤ 5 → limit (.vadd tok vd va vb la lb) ∧ limit (.vsqrt tok vd va la)) ∧
    (vd.toNat + g > 28 → 1 < g → limit (.vaddw tok vd va vb la lb)) ∧
    (s.t0 ≤ 11 → rm < 5 → (∃ j < n, s.topNat.testBit j = true) → s.iss.deadchk = true →
      (∀ r, s.vname va.toNat = some r → s.iss.oldLive.get false r = false) →
      exec (.vadd tok vd va vb la lb) s = .next (s.takeTrap (mkTrap .deadRead (deadInfo va.toNat (s.vname va.toNat)))))

/-- 13_vector R278, R279; 05_kernel R121: a vector compare pushes, under the entries above it, a bit for every lane: its condition in the active ones, false elsewhere. vpld pushes a saved entry as it is and vpst
saves the top entry. On a full stack they trap. -/
def Obligations.VectorCompareForms : Prop :=
  ∀ (s : State) (tok : BitVec 4) (vd va vb : BitVec 5) (la lb : BitVec 1),
    let T := tyOf s.t0
    let w := typeWidth s.t0
    let n := 4096 / w
    let pushes (o : Instr) (c : Nat → Bool × BitVec 8) : Prop :=
      (s.cur.stack.length < 8 → ∃ (t : State) (f : BitVec 8) (e : BitVec 1024), exec o s = .next (t.ended .done) ∧
        s.onlyVector t { s.cur with fflags := f, stack := e :: s.cur.stack } [] ∧
        (∀ j < 1024, e.getLsbD j = (decide (j < n) && (topOf s.iss.old.stack).getLsbD j && (topOf s.cur.stack).getLsbD j && (c j).1)) ∧
        ∀ b, f.getLsbD b = true ↔ s.cur.fflags.getLsbD b = true ∨ ∃ j < n, (topOf s.iss.old.stack).getLsbD j = true ∧ (c j).2.getLsbD b = true) ∧
      (8 ≤ s.cur.stack.length → exec o s = .next (s.takeTrap (mkTrap .predOverflow)))
    (∀ A, s.named va.toNat 1 A → s.t0 ≤ 11 →
      let a (j : Nat) := laneOf w (s.patterned 1 A) j
      (∀ f, T = .fp f →
        pushes (.vpnan tok va la) (fun j => ((f.num (a j)).isNaN, 0)) ∧
        pushes (.vpfin tok va la) (fun j => (!(f.num (a j)).isNaN && !(f.num (a j)).isInf, 0))) ∧
      (∀ i, T = .int i → pushes (.vpnan tok va la) (fun _ => (false, 0)) ∧ pushes (.vpfin tok va la) (fun _ => (true, 0))) ∧
      (∀ B, s.named vb.toNat 1 B →
        (∀ f, T = .fp f →
          let x (j : Nat) := f.num (a j)
          let y (j : Nat) := f.num (laneOf w B j)
          let nan (j : Nat) := (x j).isNaN || (y j).isNaN
          let quiet (j : Nat) : BitVec 8 := if (x j).isSig || (y j).isSig then fNV else 0
          let loud (j : Nat) : BitVec 8 := if nan j then fNV else 0
          pushes (.vpeq tok va vb la lb) (fun j => (!nan j && eqNum (x j) (y j), quiet j)) ∧
          pushes (.vpne tok va vb la lb) (fun j => (nan j || !eqNum (x j) (y j), quiet j)) ∧
          pushes (.vplt tok va vb la lb) (fun j => (!nan j && ltNum (x j) (y j), loud j)) ∧
          pushes (.vple tok va vb la lb) (fun j => (!nan j && !ltNum (y j) (x j), loud j))) ∧
        (∀ i, T = .int i →
          let x (j : Nat) := i.int (a j)
          let y (j : Nat) := i.int (laneOf w B j)
          pushes (.vpeq tok va vb la lb) (fun j => (decide (x j = y j), 0)) ∧ pushes (.vpne tok va vb la lb) (fun j => (decide (x j ≠ y j), 0)) ∧
          pushes (.vplt tok va vb la lb) (fun j => (decide (x j < y j), 0)) ∧ pushes (.vple tok va vb la lb) (fun j => (decide (x j ≤ y j), 0))))) ∧
    (∀ A, s.named va.toNat 1 A → s.badPattern = false →
      (s.cur.stack.length < 8 → ∃ t, exec (.vpld tok va la) s = .next (State.ended t .done) ∧
        s.onlyVector t { s.cur with stack := .ofNat 1024 (s.patterned 1 A) :: s.cur.stack } [])) ∧
    (s.badPattern = false → 8 ≤ s.cur.stack.length → exec (.vpld tok va la) s = .next (s.takeTrap (mkTrap .predOverflow))) ∧
    (∃ t, exec (.vpst tok vd) s = .next (State.ended t .done) ∧
      s.onlyVector t { s.cur with ring := some (s.destination vd.toNat 0) :: s.cur.ring.take 3 } [s.destination vd.toNat 0] ∧
      t.myCore.vreg.get 0 (s.destination vd.toNat 0) = (topOf s.iss.old.stack).setWidth 4096 ∧ t.myCore.live.get false (s.destination vd.toNat 0) = true) ∧
    (12 ≤ s.t0 → exec (.vpeq tok va vb la lb) s = .next (s.takeTrap (illegalWord .overLimit s.word)))

/-- 13_vector R280, R281; 02_numbers R38-R41, R46: conversions, element by element, between the types T0 and T1, vcvtsr stochastically with a nonce, vwid into a group and vnarr from one; vqblk makes the blocks
of a block format with their scales, vdqblk takes them apart. -/
def Obligations.VectorConvertForms : Prop :=
  ∀ (s : State) (tok : BitVec 4) (vd va : BitVec 5) (k : BitVec 3) (la : BitVec 1),
    let T := tyOf s.t0
    let U := tyOf s.t1
    let w := typeWidth s.t0
    let v := typeWidth s.t1
    let rm := s.iss.old.rm
    let limit (o : Instr) : Prop := exec o s = .next (s.takeTrap (illegalWord .overLimit s.word))
    let r (j : Nat) : Rounding := { mode := rm, sat := s.iss.old.satOn, seed := s.iss.seed.toNat, idx := j }
    let change (c : Rounding) (a : Nat) (e : Elem) : Prop :=
      (∀ f h, T = .fp f → U = .fp h → e = roundTo h c (.num (f.num a))) ∧ (∀ f i, T = .fp f → U = .int i → e = roundToInt i c false (.num (f.num a))) ∧
      (∀ i h, T = .int i → U = .fp h → e = roundTo h c (.num (ofInt (i.int a)))) ∧
      (∀ i m, T = .int i → U = .int m → e = roundToInt m c true (.num (ofInt (i.int a))))
    let gives (o : Instr) (A ga gd n : Nat) (c : Nat → Rounding) : Prop :=
      ∃ res : Nat → Elem, (∀ j, change (c j) (laneOf w (s.patterned ga A) j) (res j)) ∧
        s.givesElements o vd.toNat s.t1 gd true (fmtOf s.t0 0xF s.t1) (fun j => if j < n ∧ s.topNat.testBit j then some (res j) else none)
    (∀ A, s.named va.toNat 1 A → s.t0 ≤ 11 → s.t1 ≤ 11 →
      (s.t0 ≤ 5 ∨ s.t1 ≤ 5 → rm < 5) →
        gives (.vcvt tok vd va la) A 1 1 (min (4096 / w) (4096 / v)) r) ∧
    (∀ A, s.named va.toNat 1 A → s.t0 ≤ 2 → s.t1 ≤ 5 →
      gives (.vcvtsr tok vd va k la) A 1 1 (min (4096 / w) (4096 / v)) (fun j => { r j with mode := 4, nonce := (s.iss.old.es.get 0 k.toNat).toNat % 2 ^ 32 })) ∧
    (∀ A, s.named va.toNat 1 A → s.t0 ≤ 11 → s.t1 ≤ 11 → exactIn s.t0 s.t1 = true → v = 2 * w ∨ v = 4 * w → vd.toNat + v / w ≤ 28 →
      gives (.vwid tok vd va la) A 1 (v / w) (4096 / w) (fun _ => {})) ∧
    (∀ A, s.named va.toNat (w / v) A → s.t0 ≤ 11 → s.t1 ≤ 11 → w = 2 * v ∨ w = 4 * v → va.toNat + w / v ≤ 28 → (s.t0 ≤ 5 ∨ s.t1 ≤ 5 → rm < 5) →
      gives (.vnarr tok vd va la) A (w / v) 1 (4096 / v) r) ∧
    (∀ A f h, s.named va.toNat 2 A → T = .fp f → U = .fp h → 3 ≤ s.t0 → s.t1 ≤ 2 → rm < 5 → va.toNat ≤ 26 → vd.toNat + v / w ≤ 28 →
      let scale (j : Nat) := laneOf 8 (s.patterned 2 A / 2 ^ 4096) (j / 32)
      s.givesElements (.vdqblk tok vd va la) vd.toNat s.t1 (v / w) true (fmtOf s.t0 0xF s.t1) (fun j => if j < 4096 / w ∧ s.topNat.testBit j then
        some (s.roundedElem h j (exactNum (mulNum (e8m0 (scale j)) (f.num (laneOf w (s.patterned 2 A) j))))) else none)) ∧
    (∀ A h, s.named va.toNat 2 A → s.t0 = 12 → U = .fp h → s.t1 ≤ 2 → rm < 5 → va.toNat ≤ 26 → vd.toNat + v / 8 ≤ 28 →
      let scale (j : Nat) := laneOf 32 (s.patterned 2 A / 2 ^ 4096) (j / 64)
      s.givesElements (.vdqblk tok vd va la) vd.toNat s.t1 (v / 8) true (fmtOf s.t0 0xF s.t1) (fun j => if j < 512 ∧ s.topNat.testBit j then
        some (s.roundedElem h j (exactNum (if scale j = 0 then (.fin false 0 0, 0) else
          mulNum (fp32.num (scale j)) (ofInt ((IntFmt.mk 8 true).int (laneOf 8 (s.patterned 2 A) j)))))) else none)) ∧
    (∀ A f, s.named va.toNat (w / v) A → s.t0 ≤ 2 → T = .fp f → (3 ≤ s.t1 ∧ s.t1 ≤ 5 ∧ rm < 5) ∨ s.t1 = 12 → va.toNat + w / v ≤ 28 → vd.toNat ≤ 26 → s.nfOn = false →
      let b := if s.t1 = 12 then 64 else 32
      let xs (i : Nat) : List (Option Machine.Num) := (List.range b).map fun m =>
        if s.topNat.testBit (b * i + m) then some (f.num (laneOf w (s.patterned (w / v) A) (b * i + m))) else none
      let q (i : Nat) : QBlock := match U with
        | .fp h => quantMx s.t1 h r (b * i) (xs i)
        | .int _ => quantLq (xs i)
      let first := s.destination vd.toNat 0
      let second := s.destination vd.toNat 1
      ∃ (t : State) (g : BitVec 8), exec (.vqblk tok vd va la) s = .next (t.ended .done) ∧
        s.onlyVector t { s.cur with fflags := g, ring := some first :: s.cur.ring.take 3 } [first, second] ∧
        t.myCore.live.get false first = true ∧ t.myCore.live.get false second = true ∧
        (∀ i < 4096 / v / b, laneOf (if s.t1 = 12 then 32 else 8) (t.myCore.vreg.get 0 second).toNat i = (q i).scale ∧
          ∀ m < b, laneOf v (t.myCore.vreg.get 0 first).toNat (b * i + m) = ((q i).elems.getD m (0, 0)).1) ∧
        ∀ j, g.getLsbD j = true ↔ s.cur.fflags.getLsbD j = true ∨ (∃ i < 4096 / v / b, (q i).fl.getLsbD j = true ∨ ∃ e ∈ (q i).elems, e.2.getLsbD j = true) ∨
          (fNF.getLsbD j = true ∧ ∃ i < 4096 / v / b, (q i).bad = true ∨ (s.t1 ≠ 12 ∧ ∃ e ∈ (q i).elems, (nonFinite U e.1).isSome = true))) ∧
    (12 ≤ s.t0 ∨ 12 ≤ s.t1 → limit (.vcvt tok vd va la)) ∧ (3 ≤ s.t0 → limit (.vcvtsr tok vd va k la) ∧ limit (.vqblk tok vd va la)) ∧
    (w ≤ v → limit (.vnarr tok vd va la)) ∧ (v ≤ w → limit (.vwid tok vd va la)) ∧ (3 ≤ s.t1 → limit (.vdqblk tok vd va la))

/-- 13_vector R267, R283, R286, R287: permutes and moves take bit patterns unchanged and set no flag; selection forms act whatever the top entry holds; accumulator rows (elements of a tile that an
order of M accumulates into get undefined values, 13_vector R271), engine scalars, the window base and dead marks. -/
def Obligations.VectorMoveForms : Prop :=
  ∀ (s : State) (tok : BitVec 4) (vd va vb : BitVec 5) (j k : BitVec 3) (la lb m snap : BitVec 1) (acc : BitVec 4) (base : BitVec 10) (nm1 : BitVec 5),
    let w := typeWidth s.t0
    let n := 4096 / w
    let x := (s.iss.old.es.get 0 k.toNat)
    let on (i : Nat) : Bool := s.topNat.testBit i
    let rank (i : Nat) : Nat := (List.range i).countP on
    let moves (o : Instr) (g : Nat) (res : Nat → Option Nat) (post : Seq → Seq) : Prop :=
      s.givesElements o vd.toNat s.t0 g false 0 (fun i => (res i).map fun c => (c, 0)) post
    let count (q : Seq) : Seq := { q with es := q.es.set k.toNat (.ofNat 64 (rank n)) }
    (s.t0 ≤ 12 → ∀ A, s.named va.toNat 1 A →
      let a (i : Nat) : Nat := laneOf w (s.patterned 1 A) i
      moves (.vmov tok vd va la) 1 (fun i => if i < n ∧ on i then some (a i) else none) id ∧
      moves (.vslide tok vd va k la) 1 (fun i => if i < n ∧ on i then
        some (if 0 ≤ (i : Int) + x.toInt ∧ (i : Int) + x.toInt < n then a ((i : Int) + x.toInt).toNat else 0) else none) id ∧
      moves (.vbcast tok vd va k la) 1 (fun i => if i < n ∧ on i then some (a (x.toNat % n)) else none) id ∧
      moves (.vexpd tok vd va la) 1 (fun i => if i < n ∧ on i then some (a (rank i)) else none) id ∧
      (∀ res : Nat → Option Nat, (∀ i < n, on i = true → res (rank i) = some (a i)) →
        ((∀ i, rank n ≤ i → res i = if m = 1 then none else some 0) → moves (.vcomp tok vd va m k la) 1 res count) ∧
        ((∀ i < n, on i = false → res (rank n + (i - rank i)) = some (a i)) → moves (.vpart tok vd va k la) 1 res count)) ∧
      (s.t0 ≤ 2 ∨ s.t0 = 6 ∨ s.t0 = 7 → ∀ B, s.named vb.toNat 1 B →
        moves (.vperm tok vd va vb la lb) 1 (fun i => if i < n ∧ on i then some (a (laneOf w B i % n)) else none) id) ∧
      (s.acts = true →
        (∀ B, s.named vb.toNat 1 B → vd.toNat ≤ 26 →
          moves (.vzip tok vd va vb la lb) 2 (fun i => some (if i % 2 = 0 then a (i / 2) else laneOf w B (i / 2))) id) ∧
        (s.t0 ≤ 11 → ∃ t, exec (.vtos tok j va k la) s = .next (State.ended t .done) ∧
          s.onlyVector t { s.cur with es := s.cur.es.set j.toNat (esValue s.t0 (a (x.toNat % n))) } []))) ∧
    (s.t0 ≤ 12 → s.acts = true → ∀ A, s.named va.toNat 2 A → va.toNat ≤ 26 → vd.toNat ≤ 26 →
      let a (i : Nat) : Nat := laneOf w (s.patterned 2 A) i
      moves (.vunzip tok vd va la) 2 (fun i => some (if i < n then a (2 * i) else a (2 * (i - n) + 1))) id) ∧
    (s.t0 ≤ 12 → s.acts = false → vd.toNat ≤ 26 → exec (.vzip tok vd va vb la lb) s = .next (s.ended .done) ∧
      (va.toNat ≤ 26 → exec (.vunzip tok vd va la) s = .next (s.ended .done)) ∧
      (s.t0 ≤ 11 → exec (.vtos tok j va k la) s = .next (s.ended .done))) ∧
    (s.t0 = 12 → exec (.vtos tok j va k la) s = .next (s.takeTrap (illegalWord .overLimit s.word)) ∧
      exec (.vsplat tok vd k) s = .next (s.takeTrap (illegalWord .overLimit s.word))) ∧
    (s.t0 ≤ 11 → moves (.vsplat tok vd k) 1 (fun i => if i < n ∧ on i then some (x.toNat % 2 ^ w) else none) id) ∧
    (∀ f, tyOf s.t0 = .fp f → s.t0 ≤ 5 → s.iss.old.rm < 5 →
      s.givesElements (.vidx tok vd) vd.toNat s.t0 1 true (fmtOf (Config.free s.tick % 16) 0xF s.t0) (fun i => if i < n ∧ on i then
        some (s.roundedElem f i (.num (ofInt i), 0)) else none)) ∧
    (∀ f, tyOf s.t0 = .int f → s.t0 ≤ 11 →
      s.givesElements (.vidx tok vd) vd.toNat s.t0 1 true (fmtOf (Config.free s.tick % 16) 0xF s.t0) (fun i => if i < n ∧ on i then
        some (f.wrap i, 0) else none)) ∧
    (∀ g, s.myCore.kern = some g →
      let r := 2 * (x.toNat % 32)
      (acc.toNat < g.accs → s.givesElements (.vaccrd tok vd acc snap k) vd.toNat 6 1 false 0 (fun i => if i < 128 ∧ on i then
        some (laneOf 32 (s.iss.oldAcc.get 0 (acc.toNat, r + i / 64)).toNat (i % 64), 0) else none)) ∧
      (acc.toNat < g.accs → s.badPattern = false → ∀ A, s.named va.toNat 1 A →
        ∃ t : State, exec (.vaccwr tok acc va k la) s = .next (t.ended .done) ∧
          t = { s with cores := t.cores, iss := { s.iss with marks := t.iss.marks }, tick := t.tick } ∧ (s.accumulating = none → t.tick = s.tick) ∧ (∀ c, c ≠ s.myCoreNo → t.core c = s.core c) ∧
          t.myCore = { s.myCore with acc := t.myCore.acc } ∧
          (∀ y, y ≠ (acc.toNat, r) → y ≠ (acc.toNat, r + 1) → t.myCore.acc.get 0 y = s.myCore.acc.get 0 y) ∧
          ∀ i < 128, on i = false ∨ (∀ m, s.accumulating = some (acc.toNat, m) → m ≤ r + i / 64) →
            laneOf 32 (t.myCore.acc.get 0 (acc.toNat, r + i / 64)).toNat (i % 64) =
            if on i then laneOf 32 (s.patterned 1 A) i else laneOf 32 (s.myCore.acc.get 0 (acc.toNat, r + i / 64)).toNat (i % 64)) ∧
      (g.accs ≤ acc.toNat → exec (.vaccrd tok vd acc snap k) s = .next (s.takeTrap (illegalWord .overLimit s.word)))) ∧
    (s.acts = true → exec (.vwin tok base) s = .next ((s.setCur { s.cur with base := base.toNat }).ended .done)) ∧
    (s.acts = true → ∀ (t0 t1 : BitVec 4) (sat : BitVec 1) (rm : BitVec 3), exec (.vtype tok t0 t1 sat rm) s =
      .next ((s.setCur { s.cur with vtype := .ofNat 64 (t0.toNat + t1.toNat * 2 ^ 4 + rm.toNat * 2 ^ 8 + sat.toNat * 2 ^ 11) }).ended .done)) ∧
    (s.acts = true → ∃ live : Map Nat Bool, exec (.vdead tok vd nm1) s =
        .next (({ s.setMyCore { s.myCore with live := live } with
          iss := { s.iss with marks := s.iss.marks ++ (List.range (nm1.toNat + 1)).map fun i => s.destination vd.toNat i } }).ended .done) ∧
      (∀ i ≤ nm1.toNat, live.get false (s.destination vd.toNat i) = false) ∧
      ∀ p, (∀ i ≤ nm1.toNat, p ≠ s.destination vd.toNat i) → live.get false p = s.myCore.live.get false p)

/-- 13_vector R284, R285; 02_numbers R57, R58: a reduction combines the active lanes in the fixed tree, where a node with one side takes that side, and writes its result to lane 0 and to an engine scalar register; a
scan chains them upwards, from the start of each segment. -/
def Obligations.VectorReduceForms : Prop :=
  ∀ (s : State) (tok : BitVec 4) (vd va vb : BitVec 5) (k : BitVec 3) (la lb : BitVec 1),
    let T := tyOf s.t0
    let w := typeWidth s.t0
    let n := 4096 / w
    let rm := s.iss.old.rm
    let on (i : Nat) : Bool := s.topNat.testBit i
    let whole (c : Nat) : Elem := match T with
      | .fp f => if (f.num c).isNaN then (f.nan, if (f.num c).isSig then fNV else 0) else (c, 0)
      | .int _ => (c, 0)
    let add (i a b : Nat) : Elem := match T with
      | .fp f => s.roundedElem f i (exactNum (addNum rm (f.num a) (f.num b)))
      | .int t => (t.wrap (t.int a + t.int b), 0)
    let best (mx : Bool) (_ a b : Nat) : Elem := match T with
      | .fp f => if (f.num a).isNaN || (f.num b).isNaN then (f.nan, if (f.num a).isSig || (f.num b).isSig then fNV else 0)
        else (if (if mx then belowNum (f.num a) (f.num b) else belowNum (f.num b) (f.num a)) then b else a, 0)
      | .int t => (if (if mx then t.int a < t.int b else t.int b < t.int a) then b else a, 0)
    let reduces (o : Instr) (A : Nat) (f : Nat → Nat → Nat → Elem) : Prop :=
      ∀ (node : Nat → Nat → Option Nat) (e : Elem),
        (∀ i < n, node 0 i = if on i then some (laneOf w (s.patterned 1 A) i) else none) →
        (∀ l < n.log2, ∀ i < n / 2 ^ (l + 1), node (l + 1) i = match node l (2 * i), node l (2 * i + 1) with
          | some x, some y => some (f ((l + 1) * 65536 + i) x y).1
          | some x, none => some x
          | none, y => y) →
        e.1 = (whole ((node n.log2 0).getD 0)).1 →
        (∀ b, e.2.getLsbD b = true ↔ (whole ((node n.log2 0).getD 0)).2.getLsbD b = true ∨
          ∃ l < n.log2, ∃ i < n / 2 ^ (l + 1), ∃ x y, node l (2 * i) = some x ∧ node l (2 * i + 1) = some y ∧
            (f ((l + 1) * 65536 + i) x y).2.getLsbD b = true) →
        s.givesElements o vd.toNat s.t0 1 true (fmtOf s.t0 0xF s.t0) (fun i => if i = 0 then some e else none)
          (fun q => { q with es := q.es.set k.toNat (esValue s.t0 e.1) })
    let scans (o : Instr) (A fb : Nat) (starts : Nat → Bool) : Prop :=
      ∀ (run : Nat → Option Nat) (e : Nat → Elem), run 0 = none →
        (∀ i < n, e i = match (if starts i then none else run i) with
          | none => whole (laneOf w (s.patterned 1 A) i)
          | some y => add i y (laneOf w (s.patterned 1 A) i)) →
        (∀ i < n, run (i + 1) = if on i then some (e i).1 else if starts i then none else run i) →
        s.givesElements o vd.toNat s.t0 1 true (fmtOf s.t0 fb s.t0) (fun i => if i < n ∧ on i then some (e i) else none)
    s.t0 ≤ 11 → ∀ A, s.named va.toNat 1 A →
      (reduces (.vredmax tok vd va k la) A (best true) ∧ reduces (.vredmin tok vd va k la) A (best false) ∧
      (s.t0 ≤ 5 → 5 ≤ rm → exec (.vredsum tok vd va k la) s = .next (s.takeTrap (illegalWord .overLimit s.word)))) ∧
      ((s.t0 ≤ 5 → rm < 5) →
        reduces (.vredsum tok vd va k la) A add ∧ scans (.vscan tok vd va la) A 0xF (fun _ => false) ∧
        ∀ B, s.named vb.toNat 1 B → scans (.vsegsum tok vd va vb la lb) A s.t0 (fun i => B.testBit i))

/-- 13_vector R288, R289; 02_numbers R40: vector loads and stores access the active elements only, from the base of their address stream, one after the other or at a stride; with INC the base then moves by
a stride. The block forms keep the scales in the second register. With no active element nothing is accessed. A misaligned base traps. -/
def Obligations.VectorLoadStoreForms : Prop :=
  ∀ (s : State) (tok : BitVec 4) (vd : BitVec 5) (k inc : BitVec 3) (oc : BitVec 4) (lu : BitVec 1), s.iss.who.isPier = false → s.memOk →
    let w := typeWidth s.t0
    let n := 4096 / w
    let b := max (w / 8) 1
    let base := (s.iss.old.asb.get 0 k.toNat).toNat
    let step (j : Nat) : Int := (s.iss.old.str.get 0 (8 * k.toNat + j)).toInt
    let on (j : Nat) : Bool := s.topNat.testBit j
    let moved (q : Seq) : Seq := if inc = 0 then q else { q with asb := q.asb.set k.toNat (.ofInt 64 (base + step inc.toNat)) }
    let ringed (q : Seq) (r : Nat) : Seq := { q with ring := some r :: q.ring.take 3 }
    let d0 := s.destination vd.toNat 0
    let d1 := s.destination vd.toNat 1
    let flat : List Piece := flatPieces w base (s.mask n)
    let spread : List Piece := stridePieces w base (step 1) (s.mask n)
    let blocks : List Piece := blockPieces base (s.mask 512)
    let fine (acc : Acc) (ps : List Piece) : Prop := ∀ p ∈ ps, regionOf p.addr ≠ .sem ∧ regionOk p.addr p.n = .ok () ∧ s.mayReach p.addr p.n ∧ ∃ l, locateAll s s.mySlot acc false (spanPieces p.addr p.n) = .ok l
    let loads (o : Instr) (ps : List Piece) : Prop := ∀ u img, (∃ j < n, on j = true) → fine .read ps → s.loaded ps u img →
      ∃ t, exec o s = .next (State.ended t .done) ∧ s.onlyVector { t with filter := s.filter, caches := s.caches } (ringed (moved s.cur) d0) [d0] ∧
        s.elementsWritten t vd.toNat w 1 (fun j => if j < n ∧ on j then some (laneOf w img j) else none)
    let stores (o : Instr) (g : Nat) (ps : List Piece) : Prop := ∀ D u l, s.named vd.toNat g D → fine s.iss.who.writeAcc ps →
      (s.lastUse vd.toNat g lu).stored D ps u l → exec o s = .next ((u.setCur (moved u.cur)).ended .done) ∧ s.keepsBut u l
    (s.t0 ≤ 12 → (∃ j < n, on j = true) → base % b = 0 → loads (.vld tok vd k oc inc) flat ∧ stores (.vst tok vd k oc inc lu) 1 flat) ∧
    (s.t0 ≤ 12 → 8 ≤ w → (∃ j < n, on j = true) → (∀ j < n, on j = true → ((base + j * step 1) % 2 ^ 64).toNat % b = 0) →
      loads (.vlds tok vd k oc inc) spread ∧ stores (.vsts tok vd k oc inc lu) 1 spread) ∧
    (s.t0 = 12 → vd.toNat ≤ 26 → (∃ j < 512, on j = true) → base % 4 = 0 →
      (∀ u img, fine .read blocks → s.loaded blocks u img →
        ∃ t, exec (.vldq tok vd k oc inc) s = .next (State.ended t .done) ∧ s.onlyVector { t with filter := s.filter, caches := s.caches } (ringed (moved s.cur) d0) [d0, d1] ∧
          t.myCore.live.get false d0 = true ∧ t.myCore.live.get false d1 = true ∧
          (∀ j < 512, on j = true → laneOf 8 (t.myCore.vreg.get 0 d0).toNat j = laneOf 8 img j) ∧
          (∀ j < 512, on j = false → s.myCore.live.get false d0 = true →
            laneOf 8 (t.myCore.vreg.get 0 d0).toNat j = laneOf 8 (s.myCore.vreg.get 0 d0).toNat j) ∧
          (∀ i < 8, (∃ j < 64, on (64 * i + j) = true) → laneOf 32 (t.myCore.vreg.get 0 d1).toNat i = laneOf 32 (img / 2 ^ 4096) i) ∧
          (∀ i < 128, 8 ≤ i → laneOf 32 (t.myCore.vreg.get 0 d1).toNat i = 0)) ∧
      stores (.vstq tok vd k oc inc lu) 2 blocks) ∧
    ((∀ j < n, on j = false) → s.t0 ≤ 12 →
      (∃ t, exec (.vld tok vd k oc inc) s = .next (State.ended t .done) ∧ s.onlyVector t (ringed s.cur d0) [d0]) ∧
      (∀ D, s.named vd.toNat 1 D → exec (.vst tok vd k oc inc lu) s = .next ((s.lastUse vd.toNat 1 lu).ended .done))) ∧
    (s.t0 ≤ 12 → (∃ j < n, on j = true) → (∀ p ∈ flat, regionOf p.addr ≠ .sem ∧ regionOk p.addr p.n = .ok ()) → base % b ≠ 0 →
      exec (.vld tok vd k oc inc) s = .next (s.takeTrap (mkTrap .misalignment 0 base))) ∧
    (13 ≤ s.t0 → exec (.vld tok vd k oc inc) s = .next (s.takeTrap (illegalWord .overLimit s.word)) ∧
      exec (.vst tok vd k oc inc lu) s = .next (s.takeTrap (illegalWord .overLimit s.word))) ∧
    (s.t0 ≠ 12 → exec (.vldq tok vd k oc inc) s = .next (s.takeTrap (illegalWord .overLimit s.word)) ∧
      exec (.vstq tok vd k oc inc lu) s = .next (s.takeTrap (illegalWord .overLimit s.word)))

/-- 13_vector R290-R292: gathers and scatters act on the active elements in increasing order at base + index * stride; scattered adds update each element once with its own rounding; vector atomics update consecutive elements and return
their old values. -/
def Obligations.GatherScatterForms : Prop :=
  ∀ (s : State) (tok : BitVec 4) (vd va : BitVec 5) (k : BitVec 3) (la : BitVec 1), s.iss.who.isPier = false → s.memOk →
    let T := tyOf s.t0
    let w := typeWidth s.t0
    let n := 4096 / w
    let e := min n (4096 / typeWidth s.t1)
    let base := (s.iss.old.asb.get 0 k.toNat).toNat
    let on (j : Nat) : Bool := s.topNat.testBit j
    let s1 := s.lastUse va.toNat 1 la
    let d0 := s.destination vd.toNat 0
    let at_ (A : Nat) : List (Nat × Nat) := s.gatherAddrs k (s.mask e) (s.patterned 1 A)
    let pieces (A : Nat) : List Piece := (at_ A).map fun p => { addr := p.2, n := w / 8, off := p.1 * (w / 8) }
    let add (j a b : Nat) : Elem := match T with
      | .fp f => s.roundedElem f j (exactNum (addNum s.iss.old.rm (f.num a) (f.num b)))
      | .int t => (t.wrap (t.int a + t.int b), 0)
    let big (_ a b : Nat) : Elem := match T with
      | .fp f => (if (f.num a).isNaN && (f.num b).isNaN then f.nan else if (f.num a).isNaN then b else if (f.num b).isNaN then a
          else if belowNum (f.num a) (f.num b) then b else a, if (f.num a).isSig || (f.num b).isSig then fNV else 0)
      | .int t => (if t.int a < t.int b then b else a, 0)
    let line : List (Nat × Nat) := ((List.range n).filter on).map fun j => (j, ((base : Int) + j * (w / 8 : Nat)).toNat % 2 ^ 64)
    let open_ (l : List (Nat × Nat)) : Prop := ∀ p ∈ l, s.mayReach p.2 (w / 8) ∧ s.meetsRead p.2 (w / 8) = .clear ∧
      ∀ m, locateAll s s.mySlot .atomic false (spanPieces p.2 (w / 8)) = .ok m → s.lineStall s.mySlot (s.reached p.2 (w / 8)) (s.linesAsked m) = none
    let atomic (o : Instr) (f : Nat → Nat → Nat → Elem) (note : Bool) : Prop :=
      ∀ A u v l, s.named va.toNat 1 A → (∃ j < n, on j = true) → base % (w / 8) = 0 → open_ line →
        (∀ p ∈ flatPieces w base (s.mask n), regionOf p.addr ≠ .sem ∧ regionOk p.addr p.n = .ok () ∧ s.mayReach p.addr p.n ∧ ∃ l, locateAll s s.mySlot .atomic false (spanPieces p.addr p.n) = .ok l) →
        (∀ p ∈ line, accessOk p.2 (w / 8) = .ok () ∧
          ∃ l, locateAll s s.mySlot .atomic false (spanPieces p.2 (w / 8)) = .ok l ∧ ∀ x ∈ l, x.1.home ≠ 2) →
        s1.updated (w / 8) (fun j old => f j old (laneOf w (s.patterned 1 A) j)) id line u v l →
        let z := if note then u.noteUnrepeatable else u
        ∃ t, exec o s = .next (State.ended t .done) ∧ z.onlyVector t { z.cur with ring := some d0 :: z.cur.ring.take 3 } [d0] ∧
          z.elementsWritten t vd.toNat w 1 (fun j => (v.find? fun p => p.1 == j).map (·.2)) ∧ s.keepsBut t l
    (s.t0 ≤ 11 → 8 ≤ w → 6 ≤ s.t1 → s.t1 ≤ 11 → s.badPattern = false → ∀ A, s.named va.toNat 1 A →
      (∀ p ∈ at_ A, accessOk p.2 (w / 8) = .ok ()) →
      (∀ u img, s.gatherSnap = [] → s1.loaded (pieces A) u img → ∃ t, exec (.vgth tok vd va k la) s = .next (State.ended t .done) ∧
        s.onlyVector { t with filter := s.filter, caches := s.caches } { s.cur with ring := some d0 :: s.cur.ring.take 3 } [d0] ∧
        s.elementsWritten t vd.toNat w 1 (fun j => if ∃ p ∈ at_ A, p.1 = j then some (laneOf w img j) else none)) ∧
      (∀ D, s.named vd.toNat 1 D →
        (∀ u l, s1.stored D (pieces A) u l → exec (.vsct tok vd va k la) s = .next (u.ended .done) ∧ s.keepsBut u l) ∧
        (∀ u v l, (s.t0 ≤ 5 → s.iss.old.rm < 5) → open_ (at_ A) →
          s1.updated (w / 8) (fun j old => add j old (laneOf w D j)) State.noteUnrepeatable (at_ A) u v l →
          exec (.vsctadd tok vd va k la) s = .next (u.ended .done) ∧ s.keepsBut u l))) ∧
    (s.t0 ≤ 11 → 8 ≤ w → ((s.t0 ≤ 5 → s.iss.old.rm < 5) → atomic (.vaadd tok vd va k la) add true) ∧ atomic (.vamax tok vd va k la) big false) ∧
    (12 ≤ s.t0 ∨ s.t1 ≤ 5 ∨ 12 ≤ s.t1 → exec (.vgth tok vd va k la) s = .next (s.takeTrap (illegalWord .overLimit s.word)) ∧
      exec (.vsct tok vd va k la) s = .next (s.takeTrap (illegalWord .overLimit s.word)) ∧
      exec (.vsctadd tok vd va k la) s = .next (s.takeTrap (illegalWord .overLimit s.word)))

/-- 14_matrix R297, R302, R305-R309; 02_numbers R54, R55: a streaming order whose descriptors keep their roles goes through its rows from RowStart on, one in each turn of M: each element of a row of its tile
takes the groups of products of an operand row and weights, and adds their flags; after the last row PEND is 0 and the order is done. mmw sums groups of rows into the whole
tile. With the non-finite trap on (R309), an element that it takes stops the order at its row, which is not written: MROWP holds the row with PEND, TTILE the element's place, TFMT the formats. That other agents act between two
rows is the model's choice (log 51). A broken descriptor traps with its code. -/
def Obligations.MatrixStreamForms : Prop :=
  ∀ (s : State) (tok acc da db : BitVec 4) (z : BitVec 1) (ks : BitVec 2) (img : Image),
    s.acts = true → s.myCore.kern = some img → acc.toNat < img.accs →
    let k := s.myCore
    let first : Bool := (s.resumed .rows).isNone
    let mds := if first then k.md else s.iss.oldMd
    let D := mds.get 0 da.toNat
    let E := mds.get 0 db.toNat
    let d := matOf D
    let e := matOf E
    let wf := k.wfmt
    let K := contraction d.fmt wf
    let isF := floatClass d.fmt
    let marked := if k.mrowp.getLsbD 31 && bits k.mrowp.toNat 26 16 == s.iss.here.toNat % 2048 && bits k.mrowp.toNat 27 27 == s.iss.slot then bits k.mrowp.toNat 15 0 else 0
    let r0 := match s.resumed .rows with
      | some r => r.a
      | none => marked
    let start : State := if first then State.setMyCore { s with iss := { s.iss with oldMd := k.md } } { k with mrowp := .ofNat 64 (k.mrowp.toNat % 2 ^ 31) } else s
    let weight (j c : Nat) : Nat := if j < min K (kwOf wf) then laneOf 64 (k.w.get 0 j).toNat c else 0
    let present (j c : Nat) : Bool := decide (j < min K (kwOf wf)) && (k.wbit.get 0 j).getLsbD c
    let element (t : State) (r c : Nat) : Nat := laneOf 32 (t.myCore.acc.get 0 (acc.toNat, r)).toNat c
    let taken (out : List Elem) (i : Nat) : Prop := s.nfOn = true ∧ isF = true ∧
      ∃ y b, out[i]? = some y ∧ nonFinite (.fp fp32) y.1 = some b ∧ (s.nfNaNOnly = true → b = true)
    let firstTaken (out : List Elem) (i : Nat) : Prop := taken out i ∧ ∀ j < i, ¬taken out j
    let row (x : State) (m g : Nat) (pairs : Nat → List (Machine.Num × Nat)) (v : Except Trap State) : Prop :=
      let out := (List.range 64).map fun c => accElement isF g (if z = 1 then 0 else element x m c) (pairs c)
      match v with
      | .ok v => (∀ i, ¬taken out i) ∧ v = (x.flag (rowFlags (if isF then 0 else 6) out)).setAccRow acc.toNat m (out.map (·.1))
      | .error t => ∃ i, firstTaken out i ∧
          t = { cause := .nonFinite, tile := .ofNat 64 (m + i * 2 ^ 16), fmt := .ofNat 64 (d.fmt + wf * 16 + (if isF then 0 else 6) * 256) }
    let value (l : List (Option (Nat × Nat))) (j : Nat) : Machine.Num := (rowValues d l).getD j (.fin false 0 0)
    let rows (o : Instr) (n : Nat) (step : State → Nat → Except Trap State → Prop) : Prop :=
      (n ≤ r0 → exec o s = .next (start.rowsEnded n)) ∧
      (∀ v, r0 < n → step start r0 (.ok v) → exec o s = .next (if n ≤ r0 + 1 then v.rowsEnded n else v.rowsRest (r0 + 1))) ∧
      ∀ t, r0 < n → step start r0 (.error t) → exec o s = .next (((start.rowMark r0 true).setResume none).takeTrap t)
    let scales : Option Mat := if d.mx then some e else none
    (roleCode D .dense = 0 → (d.mx = true → roleCode E .scales = 0) → floatClass wf = isF → d.aligned false = .ok () →
      rows (.mmf tok acc da db z) (min 64 d.rows) (fun u m v => ∃ l x, u.rowCodes d scales true m 0 K = .ok (l, x) ∧
        row x m (groupOf d.fmt wf) (fun c => (List.range K).map fun j => (value l j, weight j c)) v) ∧
      rows (.mmb tok acc da db z ks) (min 64 d.rows) (fun u m v => ∃ l x, u.rowCodes d scales true m 0 64 = .ok (l, x) ∧
        row x m (groupOf d.fmt wf) (fun c => (List.range 64).map fun j => (value l j, weight (64 * ks.toNat + c) j)) v)) ∧
    (roleCode D .gathered = 0 → roleCode E .index = 0 → floatClass wf = isF → d.aligned false = .ok () →
      let n := typeWidth e.fmt / 8
      rows (.mmfg tok acc da db z) (min 64 e.rows) (fun u m v => ∃ i x, u.loadNat ((e.base + m * n) % 2 ^ 64) n = .ok (i, x) ∧
        let j := (IntFmt.mk (8 * n) true).int i
        (j < 0 ∨ (d.rows : Int) ≤ j → row x m (groupOf d.fmt wf) (fun c => (List.range K).map fun q => (.fin false 0 0, weight q c)) v) ∧
        (0 ≤ j → j < d.rows → ∃ l y, x.rowCodes d none true j.toNat 0 K = .ok (l, y) ∧
          row y m (groupOf d.fmt wf) (fun c => (List.range K).map fun q => (value l q, weight q c)) v))) ∧
    (roleCode D .sparse = 0 → roleCode E .bitmap = 0 → floatClass wf = isF → d.aligned true = .ok () →
      rows (.mmfs tok acc da db z) (min 64 d.rows) (fun u m v => ∃ l x, u.presentRow d e m K = .ok (l, x) ∧
        row x m 1 (fun c => l.filterMap fun p => if present p.1 c then some (elementValue d.fmt false p.2 127, weight p.1 c) else none) v) ∧
      rows (.mmbs tok acc da db z ks) (min 64 d.rows) (fun u m v => ∃ l x, u.presentRow d e m 64 = .ok (l, x) ∧
        row x m 1 (fun c => l.filterMap fun p => if present (64 * ks.toNat + c) p.1 then
          some (elementValue d.fmt false p.2 127, weight (64 * ks.toNat + c) p.1) else none) v)) ∧
    (roleCode D .gradient = 0 → roleCode E .gradient = 0 → floatClass e.fmt = isF → d.aligned false = .ok () → e.aligned false = .ok () →
      let g := groupOf d.fmt e.fmt
      let m := r0 / g * g
      let zero : State := if first = true ∧ r0 / g = 0 ∧ z = 1 then start.setAccRows acc.toNat 0 (List.replicate 64 (List.replicate 64 0)) else start
      (d.rows ≤ m → exec (.mmw tok acc da db z ks) s = .next (zero.rowsEnded d.rows)) ∧
      ∀ as_ x gs y, m < d.rows → zero.gradientRows d (64 * ks.toNat) (min g (d.rows - m)) m = .ok (as_, x) →
        x.gradientRows e 0 (min g (d.rows - m)) m = .ok (gs, y) →
        let out := (List.range 64).map fun c => (List.range 64).map fun n => gradientElement isF (element y c n)
          (List.zipWith (fun a b => (a.getD c (.fin false 0 0), b.getD n (.fin false 0 0))) as_ gs)
        let v := (y.flag (rowFlags (if isF then 0 else 6) out.flatten)).setAccRows acc.toNat 0 (out.map fun r => r.map (·.1))
        ((∀ i, ¬taken out.flatten i) →
          exec (.mmw tok acc da db z ks) s = .next (if d.rows ≤ m + g then v.rowsEnded d.rows else v.rowsRest (m + g))) ∧
        (∀ i, firstTaken out.flatten i → exec (.mmw tok acc da db z ks) s = .next (((zero.rowMark m true).setResume none).takeTrap
          { cause := .nonFinite, tile := .ofNat 64 (i / 64 + i % 64 * 2 ^ 16), fmt := .ofNat 64 (d.fmt + e.fmt * 16 + (if isF then 0 else 6) * 256) }))) ∧
    (roleCode D .dense ≠ 0 → exec (.mmf tok acc da db z) s = .next (s.takeTrap (mkTrap .permission (23 + roleCode D .dense * 256 + da.toNat * 65536))))

/-- 14_matrix R293, R303, R304, R310, R311: weight loads fill W and its bitmap row by row with the load record, macld fills a tile, macst stores one and is done when its writes are performed, a row in each turn of M (the model's choice, log 51); with the non-finite trap on, a converted element that it takes stops
macst at its row; macz makes
a tile +0; mdset and mdld write descriptors, mrpg reads MROWP. An accumulator past the declared count is the illegal-order trap. -/
def Obligations.MatrixLoadStoreForms : Prop :=
  ∀ (s : State) (tok acc da db cm1 : BitVec 4) (word n : BitVec 2) (sat : BitVec 1) (rm : BitVec 3), s.acts = true →
    let k := s.myCore
    let first : Bool := (s.resumed .rows).isNone
    let mds := if first then k.md else s.iss.oldMd
    let D := mds.get 0 da.toNat
    let E := mds.get 0 db.toNat
    let d := matOf D
    let e := matOf E
    let marked := if k.mrowp.getLsbD 31 && bits k.mrowp.toNat 26 16 == s.iss.here.toNat % 2048 && bits k.mrowp.toNat 27 27 == s.iss.slot then bits k.mrowp.toNat 15 0 else 0
    let r0 := match s.resumed .rows with
      | some r => r.a
      | none => marked
    let start (k : Core) : State := if first then State.setMyCore { s with iss := { s.iss with oldMd := s.myCore.md } } { k with mrowp := .ofNat 64 (k.mrowp.toNat % 2 ^ 31) } else s
    let rows (o : Instr) (n : Nat) (begin_ : State) (step : State → Nat → State → Prop) : Prop :=
      (n ≤ r0 → exec o s = .next (begin_.rowsEnded n)) ∧
      ∀ v, r0 < n → step begin_ r0 v → exec o s = .next (if n ≤ r0 + 1 then v.rowsEnded n else v.rowsRest (r0 + 1))
    let scales : Option Mat := if d.mx then some e else none
    (roleCode D .dense = 0 → (d.mx = true → roleCode E .scales = 0) → d.aligned false = .ok () →
      rows (.mwld tok da db) (kwOf d.fmt)
        (start { k with wfmt := d.fmt, wmx := if d.mx then 1 else 0, wload := some { a := D, b := E, sparse := false, row := r0, step := s.iss.here.toNat % 2048, slot := s.iss.slot % 2 } })
        (fun u j v => ∃ c x, u.rowCodes d scales false j 0 64 = .ok (c, x) ∧
          v = x.setWeightRow j (c.map fun y => (y.map fun q => weightOf d.fmt d.mx q.1 q.2).getD 0) ((rowValues d c).map fun y => !y.isZero))) ∧
    (roleCode D .sparse = 0 → roleCode E .bitmap = 0 → d.aligned true = .ok () →
      rows (.mwsp tok da db) (kwOf d.fmt)
        (start { k with wfmt := d.fmt, wmx := 0, wload := some { a := D, b := E, sparse := true, row := r0, step := s.iss.here.toNat % 2048, slot := s.iss.slot % 2 } })
        (fun u j v => ∃ b x c y, u.bitLines d e 64 = .ok (b, x) ∧ x.sparseWeights d b j 64 = .ok (c, y) ∧
          v = y.setWeightRow j (c.map fun q => (q.map fun x => weightOf d.fmt false x 127).getD 0) (c.map Option.isSome))) ∧
    (∀ g, k.kern = some g → acc.toNat < g.accs →
      (roleCode D .load = 0 → d.aligned false = .ok () →
        rows (.macld tok acc da) 64 (start k) (fun u r v => ∃ c x, u.rowCodes d none true r 0 64 = .ok (c, x) ∧
          v = x.setAccRow acc.toNat r (c.map fun y => (y.map (·.1)).getD 0))) ∧
      (roleCode D .store = 0 → d.aligned false = .ok () → s.memOk →
        let m := min 64 d.rows
        let performed (t : State) : Bool := t.tablesRead s.iss.who && !t.heldw.any fun h => h.owned && h.who == s.iss.who && h.classes != 0
        (m ≤ r0 → performed s = true → exec (.macst tok acc da sat rm) s = .next ((start k).rowsEnded m)) ∧
        ∀ v p, r0 < m →
          let u := start k
          let out : List Elem := ((List.range (min 64 d.cols)).map fun c => laneOf 32 (u.myCore.acc.get 0 (acc.toNat, r0)).toNat c).map fun c => match tyOf d.fmt with
            | .fp f => if d.fmt = 0 then (c, 0) else roundTo f { mode := rm.toNat, sat := sat == 1 } (.num (fp32.num c))
            | .int _ => (c, 0)
          let x := if 1 ≤ d.fmt ∧ d.fmt ≤ 4 then u.flag (rowFlags d.fmt out) else u
          let taken (i : Nat) : Prop := s.nfOn = true ∧ 1 ≤ d.fmt ∧ d.fmt ≤ 4 ∧
            ∃ y b, out[i]? = some y ∧ nonFinite (tyOf d.fmt) y.1 = some b ∧ (s.nfNaNOnly = true → b = true)
          (∀ i, taken i → (∀ j < i, ¬taken j) → exec (.macst tok acc da sat rm) s = .next (((u.rowMark r0 true).setResume none).takeTrap
            { cause := .nonFinite, tile := .ofNat 64 (r0 + i * 2 ^ 16), fmt := .ofNat 64 (15 * 16 + d.fmt * 256) })) ∧ ((∀ i, ¬taken i) →
          x.checkPlaces (rowPlaces d r0 (out.map (·.1))) = .ok () → x.storedAt (rowPlaces d r0 (out.map (·.1))) v p →
          s.keepsBut v p ∧ (r0 + 1 < m → exec (.macst tok acc da sat rm) s = .next (v.rowsRest (r0 + 1))) ∧
          (m ≤ r0 + 1 → performed v = true → exec (.macst tok acc da sat rm) s = .next (v.rowsEnded m)) ∧
          (m ≤ r0 + 1 → performed v = false →
            let q := v.setResume (some (v.resumeRec .rows m))
            exec (.macst tok acc da sat rm) s = .next ((q.setCur (q.cur.block q 8 v.heldObj (.writesDone s.iss.who 0xFFFF))).ended .waiting true))))) ∧
    (∀ g, k.kern = some g → acc.toNat < g.accs → ∃ m : Map (Nat × Nat) (BitVec 2048), exec (.macz tok acc) s = .next ((s.setMyCore { k with acc := m }).ended .done) ∧
      (∀ r, m.get 0 (acc.toNat, r) = 0) ∧ ∀ y, y.1 ≠ acc.toNat → m.get 0 y = k.acc.get 0 y) ∧
    (∀ g, k.kern = some g → g.accs ≤ acc.toNat → exec (.macz tok acc) s = .next (s.takeTrap (illegalWord .overLimit s.word)) ∧
      exec (.macld tok acc da) s = .next (s.takeTrap (illegalWord .overLimit s.word)) ∧ exec (.macst tok acc da sat rm) s = .next (s.takeTrap (illegalWord .overLimit s.word))) ∧
    (∃ x : BitVec 256, exec (.mdset tok da word n) s = .next ((s.setMyCore { k with md := k.md.set da.toNat x }).ended .done) ∧
      ∀ j < 4, laneOf 64 x.toNat j = if j = word.toNat then (s.lcSrc n.toNat).toNat else laneOf 64 (k.md.get 0 da.toNat).toNat j) ∧
    (let a := (s.lcSrc n.toNat).toNat;
      (∀ b t, a % 32 = 0 → s.loadBytes a (32 * (cm1.toNat + 1)) = .ok (b, t) → ∃ m : Map Nat (BitVec 256),
        exec (.mdld tok da cm1 n) s = .next ((t.setMyCore { t.myCore with md := m }).ended .done) ∧
        (∀ i ≤ cm1.toNat, m.get 0 (da.toNat + i) = .ofNat 256 (leNat ((b.drop (32 * i)).take 32))) ∧
        ∀ i, i < da.toNat ∨ da.toNat + cm1.toNat < i → m.get 0 i = k.md.get 0 i) ∧
      (a % 32 ≠ 0 → exec (.mdld tok da cm1 n) s = .next (s.takeTrap (mkTrap .misalignment 0 a)))) ∧
    exec (.mrpg tok n) s = .next ((s.wrLc n.toNat k.mrowp).ended .done)

/-- 15_ferry R320, R323-R334; 09_ordering R193; 03_encoding R66: a copy whose descriptor, as it stood before the step, passes its checks starts on its tag once the tag is complete and landing slots are free, and no L1
keeps a line of its boxes; of no bytes it is done at once; an fcpym also adds its receivers to DUE of its barrier. The waits (also for what had come about while they
waited), the marks, fcan, which ends the accesses that the copy stalls and takes a transfer out of its claim's queue, fres and the descriptors; slot 1 reads a tag as
slot 0 has left it (log 112).
15_ferry R317, R320, R321, R327; 11_page R228, R231: a step of a copy translates and reads its next chunk, at most to the end of a 128-byte block, where no earlier landing and no withdrawal of its pages is in the way; a step lands it
where it was translated to, run by run, moves the watermark, and with the last byte of the last receiver the tag is landed. Of several receivers that can land, a free one does (log 99). -/
def Obligations.FerryForms : Prop :=
  (∀ (s : State) (tok fd oc cm1 : BitVec 4) (tag : BitVec 6) (sw : BitVec 1) (n : BitVec 2) (word : BitVec 3), s.acts = true →
    let d := s.iss.old.fd.get 0 fd.toNat
    let t := s.myTag tag.toNat
    let g := s.tag t
    let base := descField d 1 56 0
    let len := descField d 2 31 0
    let quiet := (descField d 7 16 16).testBit 0
    let c (k : CopyKind) : Copy := { kind := k, desc := d, oc := oc.toNat, slot := s.mySlot, who := s.iss.who, step := s.iss.here, wslot := s.iss.slot, order := s.nextOp,
                                     recv := (receiversOf d).map fun v => { vault := v, pos := 0 } }
    let begins (o : Instr) (u : State) (k : CopyKind) : Prop := ∃ x : Caches,
      exec o s = .next ((State.settleWrites { ({ u.latch with nextOp := u.nextOp + 1 }.setTag t
        { addr := base, st := .landing, rd := decide (k = CopyKind.zero), rep := false, qf := quiet, op := some (.copy (c k)) }) with caches := x }).ended .done) ∧
      ∀ j ln, ln ∈ x.l1.get [] j → ln.id = s.myCtx.id → ∀ v ∈ receiversOf d, ∀ a, a / 256 = ln.no → (receiverShape d v).index a = none
    let waits (o : Instr) (c : Cond) : Prop := exec o s = .next ((s.setCur (s.cur.block s 6 tag.toNat c)).ended .waiting)
    let copies (o : Instr) (k : CopyKind) (u : State) : Prop := s.checkCopy k d fd.toNat = .ok () →
      ((Cond.copyReady t d).holds s = true → len ≠ 0 → begins o u k) ∧
      ((Cond.copyReady t d).holds s = true → len = 0 →
        exec o s = .next (((s.latch.setTag t { addr := base, st := .landed, rd := true, rep := false, qf := quiet }).settleWrites).ended .done)) ∧
      ((Cond.copyReady t d).holds s = false → waits o (.copyReady t d))
    let sets (o : Instr) (t : State) (i : Nat) (x : Nat → Nat) (m : Nat) : Prop := ∃ f : Map Nat (BitVec 512),
      exec o s = .next ((t.setCur { t.cur with fd := f }).ended .done) ∧ (∀ j < m, (f.get 0 (i + j)).toNat = x j) ∧
      ∀ j, j < i ∨ i + m ≤ j → f.get 0 j = s.cur.fd.get 0 j
    copies (.fcpy tok tag fd oc) .plain s ∧ copies (.fcpyz tok tag fd oc) .zero s ∧
    (∀ w u, s.txUpdate s.mySlot (descField d 6 56 0) 0 (receiversOf d).length 0 = .ok (w, u) → copies (.fcpym tok tag fd oc) .multicast u) ∧
    (descReservedZero d = true → exec (.fprf tok fd oc) s = .next (s.ended .done)) ∧
    (descReservedZero d = false → ∀ o ∈ [Instr.fcpy tok tag fd oc, .fcpyz tok tag fd oc, .fcpym tok tag fd oc, .fprf tok fd oc],
      exec o s = .next (s.takeTrap (mkTrap .permission (24 + 256 + fd.toNat * 65536)))) ∧
    (let w : Cond := if sw = 1 then .tagSettled t else .tagAll [t]
      let met : Prop := g.complete = true ∨ (sw = 1 ∧ g.st = .frozen) ∨ s.latched w = true
      (¬met → waits (.fwait tok tag sw n) w) ∧
      (met → g.lost = false → g.st ≠ .cancelled →
        exec (.fwait tok tag sw n) s = .next ((if sw = 1 then s.wrLc n.toNat (if g.st = .frozen then 1 else 0) else s).ended .done)) ∧
      (met → g.lost = false → g.st = .cancelled → exec (.fwait tok tag sw n) s = .next (s.takeTrap (mkTrap .abortedLanding 3))) ∧
      (met → g.lost = true → exec (.fwait tok tag sw n) s = .next ((s.setTag t { g with lost := false }).takeTrap (mkTrap .abortedLanding 5)))) ∧
    (g.rd = true ∨ s.latched (.tagRead t) = true → exec (.fwaitr tok tag) s = .next (s.ended .done)) ∧
    (g.rd = false → s.latched (.tagRead t) = false → waits (.fwaitr tok tag) (.tagRead t)) ∧
    (g.st ≠ .landing → g.st ≠ .frozen → exec (.fcan tok tag) s = .next (s.ended .done)) ∧
    (g.st = .landing ∨ g.st = .frozen →
      (∀ c, g.op = some (.copy c) → let e := (boxesOf t g).foldl State.endStalled s
        (∀ a w lo hi b, boxesOf t g = [b] → (s.seq a).wait = some w → w.cond = .unstalled b.slot lo hi none → (∃ y, lo ≤ y ∧ y < hi ∧ b.above y = true) →
          ∃ w', (e.seq a).wait = some w' ∧ w'.met = true ∧ w'.poisoned.isSome = true) ∧
        exec (.fcan tok tag) s = .next ((State.settleWrites { (e.setTag t { g with st := .cancelled, addr := markOf g, rd := true, trp := false, op := some (.copy { c with chunks := [] }) }) with
            atraps := s.atraps.filter fun a => decide (a.tag ≠ some t) }).ended .done)) ∧
      (∀ x, g.op = some (.transfer x) →
        let u := State.settleWrites { (((boxesOf t g).foldl State.endStalled s).setTag t { g with st := .cancelled, addr := markOf g, rd := true, trp := false }) with
          atraps := s.atraps.filter fun a => decide (a.tag ≠ some t) }
        ((u.ctx x.slot).claim = none → exec (.fcan tok tag) s = .next (u.ended .done)) ∧
        (∀ m, (u.ctx x.slot).claim = some m → exec (.fcan tok tag) s = .next ((u.setCtx x.slot { u.ctx x.slot with claim := some { m with
          queue := m.queue.filter (fun e => decide (e ≠ .transfer t)), pending := m.pending.filter (fun p => decide (p ≠ t)) } }).ended .done))) ∧
      (∀ x, g.op = some (.crossing x) → ∃ u : State, exec (.fcan tok tag) s = .next (u.ended .done) ∧ (u.tag t).st = .cancelled ∧ (u.tag t).xst = 7) ∧
      (∀ e, g.op = some (.embedding e) → e.fn = 3 → waits (.fcan tok tag) (.tagAll [t])) ∧
      (∀ e, g.op = some (.embedding e) → e.fn ≠ 3 → ∃ u : State, exec (.fcan tok tag) s = .next (u.ended .done) ∧ (u.tag t).st = .cancelled ∧ u.mem = s.mem)) ∧
    exec (.fres tok tag) s = .next ((if g.st = .frozen ∧ g.trp = false then s.latch.setTag t { g with st := .landing } else s).ended .done) ∧
    exec (.fwm tok tag n) s = .next ((s.wrLc n.toNat g.word).ended .done) ∧
    (∀ b u, (s.lcSrc n.toNat).toNat % 64 = 0 → s.loadBytes (s.lcSrc n.toNat).toNat (64 * (cm1.toNat + 1)) = .ok (b, u) →
      sets (.fdld tok cm1 fd n) u fd.toNat (fun j => leNat ((b.drop (64 * j)).take 64)) (cm1.toNat + 1)) ∧
    ((s.lcSrc n.toNat).toNat % 64 ≠ 0 → exec (.fdld tok cm1 fd n) s = .next (s.takeTrap (mkTrap .misalignment 0 (s.lcSrc n.toNat).toNat))) ∧
    (∃ x : Nat, (∀ j < 8, laneOf 64 x j = if j = word.toNat then (s.lcSrc n.toNat).toNat else laneOf 64 (s.cur.fd.get 0 fd.toNat).toNat j) ∧ sets (.fdset tok word fd n) s fd.toNat (fun _ => x) 1)) ∧
  (∀ (s : State) (t : TagRef),
    ((s.tag t).st ≠ .landing → exec (.chunkIssue t) s = .next s ∧ exec (.chunkLanding t) s = .next s) ∧
    (∀ c, (s.tag t).st = .landing → (s.tag t).op = some (.copy c) →
      let b := destShape c.desc
      let g := s.tag t
      let size := b.chunkFrom c.rpos
      let shape (r : Receiver) := receiverShape c.desc r.vault
      let src := c.sources c.rpos size
      let acts : Prop := (s.copiesRun c.slot t = true ∨ ((s.ctx c.slot).st = .running ∧ tagSaved t = false ∧ c.midBag = true)) ∧ c.rpos < b.count
      let free : Prop := (∀ r ∈ c.recv, ∀ i < size, s.landingWaits c.slot c.order ((shape r).dst (c.rpos + i)) 1 = false) ∧ ∀ a ∈ src, s.retiringSpan c.slot a 1 = false
      (¬acts ∨ ¬free → exec (.chunkIssue t) s = .next s) ∧
      (∀ o d bs u, acts → free → s.chunkTarget c c.recv = .ok o →
        readSource t (((o.getLast?).map (·.opq)).getD false) c size c.rpos s [] = (d, bs, u, .all) → bs ≠ [] →
        let w := o.foldl (fun (x : State) l => x.led l) u
        let k : Chunk := { pos := c.rpos, bytes := bs, target := o, order := w.nextOp,
                           units := s.unitsOf c.slot .read src ++ s.unitsOf c.slot .write (c.recv.map fun r => (shape r).dst c.rpos) };
        let e : Copy := { d with rpos := c.rpos + bs.length, chunks := c.chunks ++ [k] };
        let early : Prop := ((∃ k, c.who = .seq k 5) ∨ ∃ x, c.kind = .rows x) ∧ b.count ≤ c.rpos + bs.length
        ∃ rd, exec (.chunkIssue t) s = .next (State.setTag { w with nextOp := w.nextOp + 1 } t { g with op := some (.copy e), rd := rd }) ∧
          (g.rd = true ∨ early → rd = true) ∧ (g.rd = false → ¬early → rd = false)) ∧
      (let open_ (i : Nat) (r : Receiver) (k : Chunk) : Prop := c.recv[i]? = some r ∧ c.nextChunk r = some k ∧ s.creditStalls t c k = false ∧
          ∀ e ∈ c.runsLeft r k, s.landingBehind c.slot c.order e.1 e.2.length = false
       ((∀ i r k, ¬open_ i r k) → exec (.chunkLanding t) s = .next s) ∧
       (∀ i₀ r₀ k₀, open_ i₀ r₀ k₀ → ∃ (i : Nat) (r : Receiver) (k : Chunk) (n : Nat) (v : State), open_ i r k ∧ exec (.chunkLanding t) s = .next v ∧
        let next := k.pos + k.bytes.length
        let l := k.target.getD i default
        let at_ (a : Nat) : Loc := { l with key := l.key + (a - (shape r).dst k.pos) }
        let u := (c.runsLeft r k).foldl (fun (x : State) (e : Nat × List Byte) =>
          ((x.cached none (at_ e.1) e.1 e.2.length).writePieces [(at_ e.1, e.1, e.2.length)] e.2).heal c.slot c.order e.1 e.2.length) { s with tick := n }
        let recv := c.recv.mapIdx fun j q => if j = i then { q with pos := next } else q
        ((∀ q ∈ recv, b.count ≤ q.pos) → (v.tag t).st = .landed ∧ (v.tag t).rd = true ∧ (v.tag t).op = none ∧ (v.tag t).addr = b.base + b.extent) ∧
        ((∃ q ∈ recv, q.pos < b.count) → (v.tag t).st = .landing ∧
          ∃ c', (v.tag t).op = some (.copy c') ∧ c'.recv = recv ∧ c'.desc = c.desc ∧ c'.rpos = c.rpos) ∧
        (c.credits k = false → (∀ x, c.kind ≠ .rows x) → ∃ h, v = (u.setTag t h).settleWrites)))))

/-- 10_barrier R207-R214; 05_kernel R117, R120: the ring orders on a header that passes its checks and keeps its rules: rclaim and rwfill take the next slot into a descriptor and its number into a loop register, rpub and rrel move TAIL
and HEAD in sequence order once no write of the core is held, rwfree counts free slots, else they wait with KIND 7; a broken header gives free values. ftxe and ftxk update a barrier. Relief enlarges a full token queue or a ring that has been stuck 1,024 clocks. The values of a
broken header and the clock of relief are the model's (logs 57, 87). -/
def Obligations.RingForms : Prop :=
  ∀ (s : State) (tok fd oc : BitVec 4) (q h : BitVec 2), s.acts = true →
    let d := s.cur.fd.get 0 fd.toNat
    let o := s.iss.old.fd.get 0 fd.toNat
    let n := (s.lcSrc q.toNat).toNat % 2 ^ 32
    let (quiet, before) : Prop × Cond := match s.coreOf s.iss.who with
      | some c => ((s.core c).tloads = [] ∧ ∀ h ∈ s.heldw, h.owned = true → s.coreOf h.who ≠ some c, .coreWrites c)
      | none => (s.tablesRead s.iss.who = true ∧ ∀ h ∈ s.heldw, h.owned = true → h.who = s.iss.who → h.classes = 0, .writesDone s.iss.who 0xFFFF)
    let waits (o : Instr) (c : Cond) : Prop := exec o s = .next ((s.setCur (s.cur.block s 7 h.toNat c)).ended .waiting)
    (∀ k, s.ringHeader h = .ok k → s.headerOk k = true →
      let cfg := s.peekNat none (k + 8) 4
      let size := 2 ^ (7 + cfg % 16)
      let C := 2 ^ (cfg / 256 % 16)
      let enl := cfg.testBit 16
      let e := s.peekNat none (k + 0x20) 4
      let ahead (c : Nat) : Nat := (c + 2 ^ 32 - e) % 2 ^ 32
      let pos (c : Nat) : Nat := if enl = true ∧ ahead c < 2 ^ 31 ∧ ahead c % (2 * C) < C then C + ahead c % (2 * C) else c % C
      let addr (c : Nat) : Nat := s.peekNat none k 8 + size * pos c
      let used := (s.peekNat none (k + 0x10) 4 + 2 ^ 32 - s.peekNat none (k + 0x1C) 4) % 2 ^ 32
      let cap := if enl then 2 * C else C
      let taken (o : Instr) (off w c : Nat) : Prop := ∃ x : BitVec 512,
        (∀ j < 8, laneOf 64 x.toNat j = if j = w then laneOf 64 d.toNat w / 2 ^ 57 * 2 ^ 57 + addr c % 2 ^ 57 else laneOf 64 d.toNat j) ∧
        let u := (s.pokeNat none (k + off) 4 (c + 1)).wrLc q.toNat (.ofNat 64 c)
        exec o s = .next ((u.setCur { u.cur with fd := u.cur.fd.set fd.toNat x }).ended .done)
      (used < cap → taken (.rclaim tok fd oc q h) 0x10 1 (s.peekNat none (k + 0x10) 4) ∧
        exec (.rwfree tok oc q h) s = .next ((s.wrLc q.toNat (.ofNat 64 (cap - used))).ended .done)) ∧
      (cap ≤ used → waits (.rclaim tok fd oc q h) (.ringRoom k) ∧ waits (.rwfree tok oc q h) (.ringRoom k)) ∧
      (s.peekNat none (k + 0x18) 4 ≠ s.peekNat none (k + 0x14) 4 → taken (.rwfill tok fd oc q h) 0x18 0 (s.peekNat none (k + 0x18) 4)) ∧
      (s.peekNat none (k + 0x18) 4 = s.peekNat none (k + 0x14) 4 → waits (.rwfill tok fd oc q h) (.ringFilled k)) ∧
      (s.peekNat none (k + 0x14) 4 = n → s.copyInto (some s.iss.who) (addr n) (addr n + size) = false → quiet →
        exec (.rpub tok oc q h) s = .next ((s.pokeNat none (k + 0x14) 4 (n + 1)).ended .done)) ∧
      (s.peekNat none (k + 0x14) 4 ≠ n → waits (.rpub tok oc q h) (.ringTail k n s.iss.who (addr n) (addr n + size))) ∧
      (¬quiet → (s.peekNat none (k + 0x14) 4 = n → s.copyInto (some s.iss.who) (addr n) (addr n + size) = false → waits (.rpub tok oc q h) before) ∧
        (s.peekNat none (k + 0x1C) 4 = n → waits (.rrel tok oc q h) before)) ∧
      (s.peekNat none (k + 0x1C) 4 = n → quiet → let u := s.pokeNat none (k + 0x1C) 4 (n + 1)
        exec (.rrel tok oc q h) s = .next ((if u.enlarged k && u.ringHead k == u.ringClaim k then u.shrinkRing k else u).ended .done)) ∧
      (s.peekNat none (k + 0x1C) 4 ≠ n → waits (.rrel tok oc q h) (.ringHead k n))) ∧
    (∀ k, s.ringHeader h = .ok k → s.headerOk k = false →
      ∀ o ∈ [Instr.rclaim tok fd oc q h, .rpub tok oc q h, .rwfill tok fd oc q h, .rwfree tok oc q h, .rrel tok oc q h], ∃ u, exec o s = .next (State.ended u .done)) ∧
    ((s.lcSrc h.toNat).toNat % 64 ≠ 0 → exec (.rclaim tok fd oc q h) s = .next (s.takeTrap (mkTrap .misalignment 0 (s.lcSrc h.toNat).toNat))) ∧
    (∀ w u, s.txUpdate s.mySlot (s.lcSrc h.toNat).toNat 0
        (chunksOf o * (if descField o 7 63 32 = 0 then 1 else (receiversOf o).length) : Nat) 0 = .ok (w, u) →
      exec (.ftxe tok fd oc h) s = .next (u.ended .done)) ∧
    (¬quiet → exec (.ftxk tok oc h) s = .next ((s.setCur (s.cur.block s 8 s.heldObj before)).ended .waiting)) ∧
    (∀ w u, quiet → s.txUpdate s.mySlot (s.lcSrc h.toNat).toNat 0 0 1 = .ok (w, u) → exec (.ftxk tok oc h) s = .next (u.ended .done)) ∧
    (∀ c, (s.core c).stuckAt = none ∨ (∃ x, (s.core c).stuckAt = some x ∧ s.clk < x + 1024) → exec (.tokenRelief c) s = .next s) ∧
    (∀ c x i e, (s.core c).stuckAt = some x → x + 1024 ≤ s.clk → s.tokenStuck c = true →
      let full (n : Nat) : Prop := ((s.core c).tokQ.get {} n).depth ≤ ((s.core c).tokQ.get {} n).count
      (∀ j < 6, ∀ r ∈ (s.seq (.seq c j)).heldTok, full r.1 → (r.1 = i ∧ j = e) ∨
        ((s.core c).tokQ.get {} i).depth < ((s.core c).tokQ.get {} r.1).depth ∨
        (((s.core c).tokQ.get {} i).depth = ((s.core c).tokQ.get {} r.1).depth ∧ i < r.1)) →
      e < 6 → full i → (∃ r ∈ (s.seq (.seq c e)).heldTok, r.1 = i) →
      (8 ≤ (s.core c).pool → (s.seq (.seq c e)).halting = false → ∃ u : State, exec (.tokenRelief c) s = .next u ∧
        ((u.core c).tokQ.get {} i).depth = ((s.core c).tokQ.get {} i).depth + 8 ∧ (u.core c).pool = (s.core c).pool - 8) ∧
      ((s.core c).pool < 8 → exec (.tokenRelief c) s = .next (s.raiseWaiting (.seq c e) (mkTrap .deadlock i)))) ∧
    (∀ slot, s.ringWait.find? (fun e => e.1 == slot) = none → exec (.ringRelief slot) s = .next s) ∧
    (∀ slot x k off, s.ringWait.find? (fun e => e.1 == slot) = some (slot, x) → x + 1024 ≤ s.clk → s.ringStuck slot = true →
      (∀ e ∈ s.cores, e.2.slot = some slot → s.tokenStuck e.1 = false) → s.reliefRing slot = some k →
      (let a := s.reserveKey k - Config.vaultBase + vaultWindow; s.copyInto none a (a + s.ringC k * s.slotBytes k) = false) →
      s.poolSpace (vaultOf (s.reserveKey k)) (s.ringC k * s.slotBytes k) = some off →
      exec (.ringRelief slot) s = .next (s.enlargeRing slot k off)) ∧
    (∀ slot x k, s.ringWait.find? (fun e => e.1 == slot) = some (slot, x) → x + 1024 ≤ s.clk → s.ringStuck slot = true →
      (∀ e ∈ s.cores, e.2.slot = some slot → s.tokenStuck e.1 = false) → s.reliefRing slot = some k →
      s.poolSpace (vaultOf (s.reserveKey k)) (s.ringC k * s.slotBytes k) = none →
      exec (.ringRelief slot) s = .next (s.ringDeadlock slot))

/-- 06_queue R142-R146, R149; 07_group R150: decisions of the dispatcher (the highest level, then round robin), raises of level with age, completions, puts with their answers, resends, and the queue commands of the host.
The adds of a card are of one clock (log 98), and a pier stream that runs on is no write of the launch (log 34); the first
turn of a round, and the number and the resend of a back-off, are the model's (logs 14, 38). -/
def Obligations.DispatcherEvents : Prop :=
  ∀ (s : State),
    let aged : State := (allQueues.foldl (fun (t : State) p => t.raiseLevel p) s).refreshOffers.resumeForming
    let kind (p : Nat × Nat) : Nat := ((aged.ctx p.1).queue p.2).kind
    let distance (rr : Map Nat Nat) (v : Nat) (p : Nat × Nat) : Nat := (p.1 * 16 + p.2 + 256 - (rr.get 255 v + 1) % 256) % 256
    let chosen (k : Nat) (rr : Map Nat Nat) (p : Nat × Nat) : Prop := p ∈ aged.disp.offered ∧ kind p = k ∧
      (∀ o ∈ aged.disp.offered, o.1 < 16 ∧ o.2 < 16) ∧
      ∀ o ∈ aged.disp.offered, kind o = k → o = p ∨ aged.levelOf o < aged.levelOf p ∨
        (aged.levelOf o = aged.levelOf p ∧ distance rr (aged.levelOf p) p < distance rr (aged.levelOf p) o)
    let noCopy : Prop := (∀ n < 4, (aged.cseq n).busy = true) ∨ ∀ o ∈ aged.disp.offered, kind o ≠ 1
    (aged.disp.forming.isSome = true ∨ (∀ o ∈ aged.disp.offered, kind o ≠ 0) → noCopy → exec .dispatchDecision s = .next aged) ∧
    (∀ p, aged.disp.forming = none → chosen 0 aged.disp.rrCompute p → (∀ n < 4, ((aged.dispatchCompute (aged.levelOf p) p).cseq n).busy = true) →
      exec .dispatchDecision s = .next (aged.dispatchCompute (aged.levelOf p) p)) ∧
    (∀ p n, aged.disp.forming.isSome = true ∨ (∀ o ∈ aged.disp.offered, kind o ≠ 0) → chosen 1 aged.disp.rrCopy p → n < 4 → (aged.cseq n).busy = false →
      (∀ m < n, (aged.cseq m).busy = true) → exec .dispatchDecision s = .next (aged.dispatchCopy n (aged.levelOf p) p)) ∧
    (∀ slot q, let u := (s.ctx slot).queue q; let r := min 3 ((s.wall - u.rdyAt) / 64000)
      exec (.levelRaise slot q) s = .next (if u.rdy = true ∧ u.raised < r then s.setQueue slot q { u with raised := r } else s)) ∧
    (∀ n f, s.disp.finishing[n]? = some f →
      let s0 : State := { s with disp := { s.disp with finishing := s.disp.finishing.eraseIdx n } }
      let s1 := s0.applyAdds f.slot f.q f.card
      let u := (s1.ctx f.slot).queue f.q
      let s2 := s1.setQueue f.slot f.q { u with done := u.done + 1 }
      ((s.ctx f.slot).st = .running ∨ (s.ctx f.slot).st = .ready → s.launchPerformed f = true →
        exec (.completion n) s = .next ((if cardIrq f.card then s2.appendRecord f else s2).freeFinished f)) ∧
      (s.launchPerformed f = false → exec (.completion n) s = .next s)) ∧
    (∀ n f, s.disp.flights[n]? = some f →
      let x := s.ctx f.slot
      let u := x.queue f.q
      let me := (f.sender, f.num)
      let early : Bool := (s.disp.flights.take n).any fun e => e.sender == f.sender && e.slot == f.slot && e.q == f.q && e.answer.isNone
      let answered (t : State) (a : Nat) : Prop := exec (.putArrival n) s = .next { t with disp := { t.disp with flights := t.disp.flights.set n { f with answer := some a } } }
      let waits : Bool := u.await.any fun e => e.1 == f.sender && decide (e.2 < f.num)
      let cleared : State := s.setQueue f.slot f.q { u with await := u.await.erase me }
      let gone : State := { s with disp := { s.disp with flights := s.disp.flights.eraseIdx n } }
      (f.answer.isSome = true ∨ early = true → exec (.putArrival n) s = .next s) ∧
      (f.answer = none → early = false →
        (x.queueCount ≤ f.q → answered s 2) ∧
        (f.q < x.queueCount → waits = true → answered (s.setQueue f.slot f.q { u with await := me :: u.await.erase me }) 1) ∧
        (f.q < x.queueCount → waits = false →
          (u.st = .drained → answered cleared 2) ∧
          (u.st ≠ .drained → 2 ^ u.lsize ≤ u.count → (u.st = .halted → answered cleared 2) ∧
            (u.st ≠ .halted → answered (cleared.setQueue f.slot f.q { u with await := me :: u.await.erase me }) 1)) ∧
          (u.st ≠ .drained → u.count < 2 ^ u.lsize →
            (∀ t, cleared.appendCard f.slot f.q f.card = some t → answered t 0) ∧
            (cleared.appendCard f.slot f.q f.card = none → answered (if u.st = .halted then cleared else cleared.haltQueue f.slot f.q 7) 2)))) ∧
      (f.answer = some 0 → exec (.acknowledgement n) s = .next (gone.answerPut f true)) ∧
      (f.answer = some 2 → exec (.acknowledgement n) s = .next (gone.answerPut f false)) ∧
      (f.answer = none ∨ f.answer = some 1 → exec (.acknowledgement n) s = .next s) ∧
      (f.answer ≠ some 1 → exec (.negativeAcknowledgement n) s = .next s) ∧
      (∀ c, f.answer = some 1 → f.sender = some c → (s.core c).slot = some f.slot →
        exec (.negativeAcknowledgement n) s = .next (gone.setCore c { s.core c with
          win := nackWindow (s.core c).win f (s.wall + x.qbackoff.toNat * 100), nacks := min ((s.core c).nacks + 1) (2 ^ 32 - 1) })) ∧
      (f.answer = some 1 → f.sender = none → exec (.negativeAcknowledgement n) s = .next (gone.setCtx f.slot { x with
          hwin := nackWindow x.hwin f (s.wall + x.qbackoff.toNat * 100), pnacks := min (x.pnacks + 1) (2 ^ 32 - 1) }))) ∧
    (∀ c, c < 128 → let win := (s.core c).win
      let go : List WinPut := win.filter fun w => w.st == .waiting && decide (w.resendAt ≤ s.wall) &&
        !s.disp.flights.any fun f => f.sender == some c && f.slot == w.slot && f.q == w.q
      exec (.backoffExpiry c) s = .next (go.foldl (fun (t : State) w => t.fly (some c) w)
        (s.setCore c { s.core c with win := win.map fun w => if go.contains w then { w with st := .sent } else w }))) ∧
    (∀ c, 144 ≤ c → exec (.backoffExpiry c) s = .next s) ∧
    (∀ slot q, let x := s.ctx slot
      let u := x.queue q
      let here : Prop := s.mgmt.main = .ready ∧ slot < 16
      let dead : Prop := x.st = .free ∨ x.st = .tornDown
      let shut : Prop := here ∧ ¬dead ∧ q < x.queueCount
      let each (u : State) : Prop := exec (.qctlHalt slot q) s = .next u ∧ exec (.qctlResume slot q) s = .next u ∧ exec (.flush slot q) s = .next u ∧ exec (.qctlReset slot q) s = .next u
      let withdrawn : State := { s with disp := { s.disp with offered := s.disp.offered.erase (slot, q) } }
      let runs : Prop := u.st = .idle ∨ u.st = .active ∨ u.st = .blocked
      let error (code : Nat) : State := s.setQueue slot q { u with cmd := code, cerr := true }
      (¬here ∨ (¬dead ∧ x.queueCount ≤ q) → each s) ∧ (here → dead → each (s.setCtx slot { x with err := 1 })) ∧
      (shut → runs → exec (.qctlHalt slot q) s = .next (withdrawn.setQueue slot q { u with cmd := 1, st := .halted, err := 0 })) ∧
      (shut → ¬runs → exec (.qctlHalt slot q) s = .next (error 1)) ∧
      (shut → u.st = .halted → exec (.qctlResume slot q) s = .next ((s.setQueue slot q { u with cmd := 2 }).headTest slot q)) ∧
      (shut → u.st ≠ .halted → exec (.qctlResume slot q) s = .next (error 2)) ∧
      (shut → runs ∨ u.st = .halted → exec (.flush slot q) s = .next (withdrawn.setQueue slot q
        { u with cmd := 3, st := .drained, head := (u.head + u.count) % 2 ^ u.lsize, count := 0, rdy := false, raised := 0 })) ∧
      (shut → u.st = .drained → exec (.flush slot q) s = .next (error 3) ∧ exec (.qctlReset slot q) s = .next (s.setQueue slot q { u with cmd := 4, st := .idle })) ∧
      (shut → u.st ≠ .drained → exec (.qctlReset slot q) s = .next (error 4)))

/-- 04_context R94; 18_link R379-R382; 06_queue R139: what the host does in a context window: puts, table writes, transfers, the head of the completion area, chip semaphores, and registers, which it may write while the context is allocated,
suspended or faulted, and else sets CTXCMD.ERR. A transfer moves the sectors before one that the host does not have; a link with no spare lane may end it earlier (log 21). -/
def Obligations.HostWindowEvents : Prop :=
  ∀ (s : State) (slot v : Nat), s.mgmt.main = .ready → slot < 16 →
    let x := s.ctx slot
    let live : Prop := x.st ≠ .free ∧ x.st ≠ .tornDown
    let stopped : Prop := x.st = .allocated ∨ x.st = .suspended ∨ x.st = .faulted
    let bad : State := s.setCtx slot { x with err := 1 }
    (∀ port, let q := port % 16
      let full := (x.ports.get [] q ++ List.replicate (128 - (x.ports.get [] q).length) 0).take 128
      let b := full.take 0x78 ++ leBytes 8 v
      let y := { x with ports := x.ports.set q b }
      (¬live → exec (.put slot port v) s = .next bad) ∧
      (live → x.queueCount ≤ q ∨ (∃ e ∈ x.kept, e.1 = q) → exec (.put slot port v) s = .next (s.setCtx slot { y with prefused := true })) ∧
      (live → q < x.queueCount → x.kept = [] → x.hwin.length < 8 → ∃ u : State, exec (.put slot port v) s = .next u ∧ (u.ctx slot).kept = [] ∧
        (u.ctx slot).hwin = x.hwin ++ [{ num := x.hputNum, slot := slot, q := q, card := b, blocking := false, st := .sent }] ∧
        u.disp.flights = s.disp.flights ++ [{ sender := none, slot := slot, num := x.hputNum, q := q, card := b }] ∧ u.mem = s.mem) ∧
      (live → q < x.queueCount → (∀ e ∈ x.kept, e.1 ≠ q) → 8 ≤ x.hwin.length → exec (.put slot port v) s = .next (s.setCtx slot { y with kept := x.kept ++ [(q, b)] }))) ∧
    (let y := { x with twst := if v.testBit 2 then 0 else x.twst };
      (v.testBit 0 = false → exec (.twgo slot v) s = .next s) ∧
      (v.testBit 0 = true → s.link.feat.getLsbD 3 = false → exec (.twgo slot v) s = .next (s.setCtx slot { y with twst := y.twst ||| 4 })) ∧
      (v.testBit 0 = true → s.link.feat.getLsbD 3 = true → ¬stopped → exec (.twgo slot v) s = .next (s.setCtx slot { y with twst := y.twst ||| 4, err := 1 })) ∧
      (∀ t, v.testBit 0 = true → s.link.feat.getLsbD 3 = true → stopped → x.twlen.toNat % 128 = 0 → x.twsrc.toNat + x.twlen.toNat ≤ Config.hostBase →
        tableWrites slot (spanPieces x.twdst.toNat x.twlen.toNat) (s.peeks none (Config.hostBase + x.twsrc.toNat) x.twlen.toNat) (s.setCtx slot y) = (true, t) →
        exec (.twgo slot v) s = .next t)) ∧
    (let y := { x with dxctl := .ofNat 64 (v / 8 % 2 * 8 + v / 2 ^ 16 % 2 ^ 12 * 2 ^ 16 + (if x.dxctl.getLsbD 2 && !v.testBit 2 then 4 else 0)) };
      (v.testBit 0 = false → exec (.dxctlGo slot v) s = .next s) ∧
      (v.testBit 0 = true → ¬stopped → exec (.dxctlGo slot v) s = .next (s.setCtx slot { x with dxctl := x.dxctl ||| 4, err := 1 })) ∧
      (∀ no k, v.testBit 0 = true → stopped → s.mgmt.keys.find? (fun e => e.1 == v / 2 ^ 16 % 2 ^ 12) = some (no, k) →
        x.dxlen ≠ 0 → x.dxlen.toNat % 128 = 0 → x.dxhost.toNat % 128 = 0 → x.dxpa.toNat % 128 = 0 → x.dxpa.toNat + x.dxlen.toNat ≤ s.mgmt.hbmSplit * 2 ^ 30 →
        k.owner = 0 ∨ k.owner = x.id →
        let all := x.dxlen.toNat / 128
        let most := min all ((Config.hostBase - x.dxhost.toNat) / 128)
        let host := Config.hostBase + x.dxhost.toNat
        ∃ n m : Nat, n ≤ most ∧ (s.link.spare = true → n = most ∧ m = s.tick) ∧
          let w : State := { s.setCtx slot (if n = all then y else { y with dxctl := y.dxctl ||| 4 }) with caches := s.caches.flush fun e => e.id == x.id, tick := m };
          (v.testBit 3 = false → exec (.dxctlGo slot v) s = .next (w.pokes (some k.val) x.dxpa.toNat (w.peeks none host (128 * n)))) ∧
          (v.testBit 3 = true → exec (.dxctlGo slot v) s = .next (w.pokes none host (w.peeks (some k.val) x.dxpa.toNat (128 * n)))))) ∧
    (live → exec (.chead slot v) s = .next ((s.setCtx slot { x with chead := v % 2 ^ 64 }).flushRecords slot (x.cwaiting.length + 1))) ∧
    (¬live → exec (.chead slot v) s = .next bad) ∧
    (∀ n op, exec (.hostSemaphoreAccess slot n 0 v) s = .next { s with link := { s.link with hostRead := if (x.st ≠ .free ∧ x.st ≠ .tornDown) ∧ n < x.semCount then (s.chipSem slot n).toNat else 0 } } ∧
      (op ≠ 0 → live → n < x.semCount → exec (.hostSemaphoreAccess slot n op v) s = .next (s.setChipSem slot n (.ofNat 32 v))) ∧
      (op ≠ 0 → ¬live ∨ x.semCount ≤ n → exec (.hostSemaphoreAccess slot n op v) s = .next bad)) ∧
    (v < 2 ^ 64 → x.cwaiting = [] →
      let field := v / 2 ^ 16 % 2 ^ 41 * 2 ^ 16
      let writes (reg : Nat) (y : Ctx) : Prop := (stopped → exec (.registerWrite slot reg v) s = .next (s.setCtx slot y)) ∧
        (¬stopped → exec (.registerWrite slot reg v) s = .next bad)
      writes 0x110 { x with troot := field } ∧ writes 0x118 { x with handler := field } ∧ writes 0x120 { x with savebase := field } ∧
      writes 0x128 { x with waysave := .ofNat 64 (field + v % 2) } ∧ writes 0x130 { x with grantv := .ofNat 32 v } ∧
      writes 0x138 { x with granth := .ofNat 64 (v % 2 ^ 9 + v / 2 ^ 16 % 2 ^ 9 * 2 ^ 16) } ∧ writes 0x140 { x with grantw := .ofNat 64 (v % 2 ^ 4 + v / 2 ^ 16 % 2 ^ 32 * 2 ^ 16) } ∧
      writes 0x148 { x with grantl := .ofNat 16 v } ∧ writes 0x150 { x with sempart := .ofNat 64 (v % 2 ^ 32) } ∧ writes 0x158 { x with qmap := v % 32 } ∧
      writes 0x160 { x with quantum := .ofNat 32 v } ∧ writes 0x168 { x with qbackoff := .ofNat 16 v } ∧ writes 0x170 { x with deadchk := v.testBit 0 } ∧
      writes 0x178 { x with trv := .ofNat 64 v } ∧ writes 0x180 { x with srseed := .ofNat 64 v } ∧ writes 0x188 { x with nftrap := .ofNat 2 v } ∧
      writes 0x190 { x with xjob := .ofNat 64 (v % 2 ^ 17) } ∧ writes 0x508 { x with hrthr := .ofNat 16 v } ∧ writes 0x500 { x with tdir := .ofNat 64 (field + v % 2 ^ 11) } ∧
      writes 0xA00 { x with cbase := .ofNat 64 (v / 4096 * 4096) } ∧ writes 0xA08 { x with csize := .ofNat 64 v } ∧
      (∀ q < 32, writes (0x400 + 8 * q) { x with vseg := x.vseg.set q (.ofNat 64 (v % 2 ^ 9 + v / 2 ^ 16 % 2 ^ 9 * 2 ^ 16)) }))

/-- 04_context R94-R98; 18_link R377: the commands of CTXCMD. Each acts in the state that it needs and else sets CTXCMD.ERR with CODE left; while another command runs
all but TEARDOWN are ignored; TEARDOWN waits for a pre-emption that runs, and then for the context's units to stop. CTXCMD.ID takes what the write gives. The order of
the codes and what an overlapping SUSPEND or TEARDOWN does are deduced (logs 39, 40). -/
def Obligations.ContextCommands : Prop :=
  ∀ (s : State) (w : Ctxcmd), s.mgmt.main = .ready → w.slot < 16 →
    let slot := w.slot
    let x := s.ctx slot
    let y (c : Nat) : Ctx := { x with cmd := c, cmdId := w.id % 256, err := 0 }
    let error (o : Instr) (c e : Nat) : Prop := exec o s = .next (s.setCtx slot { x with cmd := c, cmdId := w.id % 256, err := e })
    let refused (v e : Nat) : Prop := exec (.alloc slot v) s = .next (s.setCtx slot { x with cmd := 1, cmdId := v % 256, err := e })
    let entered (c : Nat) : State :=
      let u := (s.setCtx slot (y c)).dropTranslations slot;
      ({ u with disp := { u.disp with images := u.disp.images.filter fun e => !(e.1 == x.id && e.2.image.base == x.handler) } }).unload fun r => r == (x.id, x.handler)
    let readied (u : State) (d : Map Nat (List Byte)) : State := u.setCtx slot { u.ctx slot with st := .ready, qs := false, dir := d }
    let fed : Prop := slot < 8 ∨ s.link.feat.getLsbD 2 = true
    (x.done = false → exec (.ready w) s = .next s ∧ exec (.suspend w) s = .next s ∧ exec (.resume w) s = .next s ∧
      exec (.release w) s = .next s ∧ (∀ v, exec (.alloc slot v) s = .next s ∧ exec (.ctxcmdNoOperation w v) s = .next s)) ∧
    (x.done = true →
      (∀ v, (x.st ≠ .free ∨ ¬fed → refused v 1) ∧
        (x.st = .free → fed → v % 256 = 0 ∨ (∃ c < 16, (s.ctx c).st ≠ .free ∧ (s.ctx c).id = v % 256) → refused v 4) ∧
        (x.st = .free → fed → v % 256 ≠ 0 → (∀ c < 16, (s.ctx c).st ≠ .free → (s.ctx c).id ≠ v % 256) →
          exec (.alloc slot v) s = .next (({ s with caches := s.caches.forget (v % 256) }).setCtx slot { st := .allocated, id := v % 256, cmd := 1, cmdId := v % 256 })) ∧
        error (.ctxcmdNoOperation w v) (v % 16) 1) ∧
      (x.st ≠ .allocated → error (.ready w) 2 1) ∧
      (x.st = .allocated →
        (s.grantsFit slot (y 2) = false → error (.ready w) 2 2) ∧
        (s.grantsFit slot (y 2) = true → (entered 2).verify slot x.handler true = none → error (.ready w) 2 3) ∧
        (∀ im u, s.grantsFit slot (y 2) = true → (entered 2).verify slot x.handler true = some (im, u) →
          (u.readDirectory slot = none → error (.ready w) 2 5) ∧
          (∀ d, u.readDirectory slot = some d → exec (.ready w) s = .next ((readied u d).testQueues slot)))) ∧
      (x.st = .ready → let restless : Prop := (∃ m, x.claim = some m ∧ (s.nextCommand m).isSome = true ∧ m.ready = true ∧ m.spilled = false) ∨ ∃ f ∈ s.disp.finishing, f.slot = slot
        (¬restless → exec (.suspend w) s = .next (((s.setCtx slot { y 3 with st := .suspended }).unform slot).spillWays slot)) ∧
        (restless → exec (.suspend w) s = .next ((s.setCtx slot { y 3 with done := false, preempting := some (x.preempting.getD .suspended) }).unform slot))) ∧
      (x.st = .running → exec (.suspend w) s =
        .next (s.setCtx slot { y 3 with done := false, qs := false, preempting := some (x.preempting.getD .suspended) })) ∧
      (x.st = .suspended → x.qs = true → exec (.suspend w) s = .next (s.setCtx slot { y 3 with qs := false })) ∧
      (x.st ≠ .ready → x.st ≠ .running → (x.st = .suspended → x.qs = false) → error (.suspend w) 3 1) ∧
      (x.st ≠ .suspended → x.st ≠ .faulted → error (.resume w) 4 1) ∧
      (x.st = .suspended ∨ x.st = .faulted →
        ((entered 4).verify slot x.handler true = none → error (.resume w) 4 3) ∧
        (∀ im u, (entered 4).verify slot x.handler true = some (im, u) →
          (u.readDirectory slot = none → error (.resume w) 4 5) ∧
          (∀ d, u.readDirectory slot = some d → exec (.resume w) s = .next (readied u d).reserve))) ∧
      (x.st = .tornDown → exec (.release w) s = .next (s.setCtx slot { cmd := 6, cmdId := w.id % 256 })) ∧
      (x.st ≠ .tornDown → error (.release w) 6 1)) ∧
    (x.st = .free ∨ x.st = .tornDown → (x.done = true → error (.teardown w) 5 1) ∧ (x.done = false → exec (.teardown w) s = .next s)) ∧
    (x.st ≠ .free → x.st ≠ .tornDown →
      (x.preempting = some .tornDown → exec (.teardown w) s = .next s) ∧
      (∀ c, x.preempting = some c → c ≠ .tornDown → exec (.teardown w) s = .next (s.setCtx slot { y 5 with done := false, teardownHeld := true })) ∧
      (x.preempting = none → exec (.teardown w) s = .next ((s.setCtx slot { y 5 with done := false, preempting := some .tornDown }).unform slot)))

/-- 04_context R96, R99-R105, R430: the end of a time slice begins a pre-emption where a compute card of another context waits for cores, and else a new slice;
a context that its slice suspended is ready again once none of those cards waits (its cached entries stay, log 116); a pre-emption saves the context, or tears it down
once its crossing operations have ended (R98), when its units have come to where they stop; a saved group
goes back to its cores when they are free, after the spilled ways of the claim. -/
def Obligations.PreemptionEvents : Prop :=
  ∀ (s : State) (slot : Nat),
    let x := s.ctx slot
    let past : Prop := x.st = .running ∧ x.preempting = none ∧ x.quantum ≠ 0 ∧ x.sliceStart + x.quantum.toNat * 1000 ≤ s.wall
    let back : Prop := x.st = .suspended ∧ x.qs = true ∧ ∀ n ∈ x.sliceWaiters, n ∉ s.waitingCards slot
    let live : Prop := (x.st = .ready ∨ x.st = .running) ∧ x.preempting = none
    (∀ n, n ∈ s.waitingCards slot ↔
      (∃ c < 16, c ≠ slot ∧ ((s.ctx c).st = .ready ∨ (s.ctx c).st = .running) ∧ ∃ q < (s.ctx c).queueCount,
        ((s.ctx c).queue q).kind = 0 ∧ ((s.ctx c).queue q).st = .active ∧ ((s.ctx c).queue q).rdy = true ∧ ((s.ctx c).queue q).rdyNo = n) ∨
      (∃ e ∈ s.groups, e.2.st = .forming ∧ e.2.slot ≠ slot ∧ e.2.rdyNo = n)) ∧
    (¬past → exec (.quantumExpiry slot) s = .next s) ∧
    (past → s.waitingCards slot = [] → exec (.quantumExpiry slot) s = .next (s.setCtx slot { x with sliceStart := s.wall })) ∧
    (past → s.waitingCards slot ≠ [] →
      exec (.quantumExpiry slot) s = .next (s.setCtx slot { x with qs := true, sliceWaiters := s.waitingCards slot, preempting := some .suspended })) ∧
    (back → exec (.quantumReturn slot) s = .next (s.setCtx slot { x with st := .ready, qs := false, sliceWaiters := [] }).reserve) ∧
    (¬back → exec (.quantumReturn slot) s = .next s) ∧
    (x.preempting = none ∨ s.canSave slot = false → exec (.preemptionComplete slot) s = .next s) ∧
    (x.preempting = some .tornDown → s.canSave slot = true →
      ((∃ e ∈ s.tags, e.2.st = .landing ∧ ∃ c, e.2.op = some (.crossing c) ∧ c.slot = slot) → exec (.preemptionComplete slot) s = .next s) ∧
      ((∀ e ∈ s.tags, e.2.st = .landing → ∀ c, e.2.op = some (.crossing c) → c.slot ≠ slot) → exec (.preemptionComplete slot) s = .next (s.teardown slot))) ∧
    (∀ c, x.preempting = some c → c ≠ .tornDown → s.canSave slot = true →
      let t := s.stopAll slot
      let record := if x.st = .ready then [] else t.imagesOf slot ++ t.contextWrites slot
      let u := (((t.writeOut slot (record ++ (t.ctx slot).escalationWrites)).spillWays slot).putAway slot).unform slot
      let v := u.setCtx slot { u.ctx slot with st := c, preempting := none, done := true, escalation := none }
      let w := (if c = .faulted then v.irq 258 else v).reserve
      exec (.preemptionComplete slot) s = .next (if (u.ctx slot).teardownHeld = true then
        (w.setCtx slot { w.ctx slot with done := false, preempting := some .tornDown, teardownHeld := false }).unform slot else w)) ∧
    (¬live ∨ s.refillWays slot = none → exec (.groupRestore slot) s = .next s) ∧
    (∀ t u v a b, live → s.refillWays slot = some t → t.restoreGroups slot = (a, u) → u.restoreCopies slot = (b, v) →
      exec (.groupRestore slot) s = .next (if a = true ∨ b = true then v.runCtx slot else t))

/-- 05_kernel R116, R119, R125; 12_scalar R260; 19_faults R398, R399, R402, R403: a pause ends at its clock, a wfe at its time, a wait when what it waits for holds or has held, once
its held tokens have entered; a sequencer that has waited as long as the watchdog limit of its core takes the watchdog trap; a trap that waits for a step boundary is delivered
to the first sequencer in the ring order. The moment of an
asynchronous trap is deduced (log 33). -/
def Obligations.WaitEvents : Prop :=
  ∀ (s : State),
    (∀ who, let q := s.seq who
      (q.idleUntil ≠ 0 → q.idleUntil ≤ s.clk → exec (.pauseExpiry who) s = .next (s.setSeq who { q with idleUntil := 0 })) ∧
      (q.idleUntil = 0 ∨ s.clk < q.idleUntil → exec (.pauseExpiry who) s = .next s)) ∧
    (∀ who, let q := s.seq who
      let woken : State := (s.setSeq who { q with run := .running }).unstick who
      (s.mayIssue who = false ∨ q.run ≠ .blocked → exec (.waitEnd who) s = .next s) ∧
      (s.mayIssue who = true → q.run = .blocked →
        (q.heldTok ≠ [] → exec (.waitEnd who) s = .next (s.flushTokens who)) ∧
        (∀ w, q.heldTok = [] → q.wait = some w →
          (w.met = true ∨ w.cond.holds s = true → exec (.waitEnd who) s = .next woken) ∧
          (w.met = false → w.cond.holds s = false → exec (.waitEnd who) s = .next s)))) ∧
    (∀ c, let a := Agent.seq c sqC
      let q := s.seq a
      (∀ w m t, q.run = .blocked → q.wait = some w → w.cond = .event m t → t ≠ 0 → t ≤ s.wall - w.sinceWall → s.mayIssue a = true →
        exec (.wfeTimeout c) s = .next ((s.setSeq a { q with run := .running }).unstick a)) ∧
      (q.run ≠ .blocked ∨ q.wait = none ∨ s.mayIssue a = false ∨
          (∃ w, q.wait = some w ∧ ((∀ m t, w.cond ≠ .event m t) ∨ ∃ m t, w.cond = .event m t ∧ (t = 0 ∨ s.wall < w.sinceWall + t))) →
        exec (.wfeTimeout c) s = .next s)) ∧
    (∀ c, let late (q : Nat) (w : Wait) : Prop := (s.seq (.seq c q)).run = .blocked ∧ (s.seq (.seq c q)).wait = some w ∧ 1 ≤ w.kind ∧ w.kind ≤ 10 ∧
        (s.core c).wdog.toNat * 1000 ≤ s.wall - w.sinceWall
      let off : Prop := (s.core c).wdog = 0 ∨ (s.core c).bank.isSome = true ∨ s.mayIssue (.seq c sqC) = false
      (off ∨ (∀ q < 6, ∀ w, ¬late q w) → exec (.watchdogTimeout c) s = .next s) ∧
      (∀ q w, ¬off → q < 6 → late q w → (∀ p < q, ∀ v, ¬late p v) →
        exec (.watchdogTimeout c) s = .next (s.raiseWaiting (.seq c q) (mkTrap .watchdog (w.kind + w.obj % 256 * 2 ^ 8))))) ∧
    (∀ c, let agents : List Agent := if c < 128 then (List.range 6).map (fun q => Agent.seq c q) else [Agent.copy (c - 128)]
      let serves (a : Agent) (t : AsyncTrap) : Prop := s.inUse a = true ∧ (s.ctx (s.slotOf a)).st = .running ∧ (s.seq a).run ≠ .held ∧ s.waitingTrap a = some t
      (∀ (i : Nat) a t, agents[i]? = some a → serves a t → (∀ j : Nat, j < i → ∀ b u, agents[j]? = some b → ¬serves b u) →
        exec (.trapDelivery c) s = .next (s.deliverAsync t)) ∧
      ((∀ a ∈ agents, ∀ t, ¬serves a t) → exec (.trapDelivery c) s = .next s))

/-- 18_link R385-R395: what another module's xput, xget, xamo and xsig do here, in the context of their job, with the answer sent back (status 5 where no context has the job), and how
an operation of this module ends: on this module as its answer says, on another with a status that fits how far it is, by its timeout with status 4. A packet that comes after
others of its core waits for them; one that says stop ends its operation here at the mark that it has reached. What another module answers is a free choice (logs 62, 63).
18_link R394: postings of an all-to-all are kept once for each job, module and SEQ; a peer's bytes land at its place of the receive buffer as far as its segment goes, its count with the last,
and each peer hears the status; the operation ends when all has gone and come and been acknowledged, or with the list of peers broken. The
acknowledgements of other modules, and a peer that does not post, are free choices (log 62); PEERS is read at the first step (log 63). -/
def Obligations.CrossingEvents : Prop :=
  (∀ (s : State) (p : Packet) (t : TagRef),
    let foreign (fn : Nat) : Prop := s.mgmt.devidSet = true ∧ p.dev ≠ s.mgmt.devid ∧ p.fn = fn
    let noted (u : State) : State := { u with link := { u.link with performed := (p.dev, p.seq) :: u.link.performed } }
    let reply (st v : Nat) (u : State) : State :=
      (noted u).sendPacket p.dev { fn := 9, tenant := p.tenant, seq := p.seq, op := p.fn, value := st, len := v }
    let late : Prop := ∃ n ∈ p.before, (p.dev, n) ∉ s.link.performed
    let fresh (c : Nat) (g : Bool) : Inbound := { dev := p.dev, seq := p.seq, get := g, slot := c, addr := p.addr, len := p.len, pos := 0, order := s.nextOp }
    (s.mgmt.devidSet = false → exec (.xputArrival p) s = .next s ∧ exec (.xgetArrival p) s = .next s ∧ exec (.xamoArrival p) s = .next s ∧
      exec (.xsigArrival p) s = .next s) ∧
    (p.stop = true →
      (foreign 2 → (∀ i, s.inboundOf false p = some i → exec (.xputArrival p) s = .next (noted (s.dropInbound i))) ∧
        (s.inboundOf false p = none → exec (.xputArrival p) s = .next (noted s))) ∧
      (foreign 3 → (∀ i, s.inboundOf true p = some i → exec (.xgetArrival p) s = .next (noted { s with link := { s.link with inbound := s.link.inbound.erase i } })) ∧
        (s.inboundOf true p = none → exec (.xgetArrival p) s = .next (noted s)))) ∧
    (p.stop = false → late → (foreign 2 → exec (.xputArrival p) s = .next s) ∧ (foreign 3 → exec (.xgetArrival p) s = .next s) ∧
      (foreign 4 → exec (.xamoArrival p) s = .next s) ∧ (foreign 5 → exec (.xsigArrival p) s = .next s)) ∧
    (p.stop = false → ¬late → s.jobContext p.tenant = none →
      (foreign 2 → s.inboundOf false p = none → p.value = 0 → exec (.xputArrival p) s = .next (reply 5 0 s)) ∧
      (foreign 3 → s.inboundOf true p = none → exec (.xgetArrival p) s = .next (reply 5 0 s)) ∧
      (foreign 4 → exec (.xamoArrival p) s = .next (reply 5 0 s)) ∧ (foreign 5 → exec (.xsigArrival p) s = .next (reply 5 0 s))) ∧
    (∀ c, p.stop = false → ¬late → s.jobContext p.tenant = some c →
      (∀ i, foreign 2 → i = (s.inboundOf false p).getD (fresh c false) → i.pos = p.value →
        (s.inboundOf false p = none → s.slotsFree { owner := .core 255, tag := 64 } i.slot [i.box.shape] = true) →
        s.landingWaits i.slot i.order (i.addr + i.pos) p.bytes.length = false →
        let parts := s.landParts i.slot i.order (some (p.op == 1)) (spanPieces (i.addr + i.pos) p.bytes.length) p.bytes
        (∀ v n, parts = (v, n, none) →
          let rest := v.link.inbound.filter fun k => decide (k ≠ i)
          let w : State := { v with nextOp := if s.inboundOf false p = none then v.nextOp + 1 else v.nextOp,
                                    link := { v.link with inbound := if p.last = true then rest else { i with pos := i.pos + p.bytes.length } :: rest } }
          exec (.xputArrival p) s = .next (if p.last = true then reply 0 0 w.settleWrites else w.settleWrites)) ∧
        (∀ v n e, parts = (v, n, some e) → let j := { i with pos := i.pos + n }
          exec (.xputArrival p) s =
            .next (reply 1 0 (State.dropInbound { v with link := { v.link with inbound := v.link.inbound.map fun k => if k = i then j else k } } j)))) ∧
      (∀ i b o v, foreign 3 → i = (s.inboundOf true p).getD (fresh c true) → s.readOpen i.slot i.order i.snap none (i.addr + p.value) p.op = .ok (b, o, v) →
        let rest := s.link.inbound.filter fun k => decide (k ≠ i)
        let w : State := { v with nextOp := if s.inboundOf true p = none then v.nextOp + 1 else v.nextOp,
                                  link := { v.link with inbound := if p.last = true then rest else i :: rest } }
        exec (.xgetArrival p) s =
          .next ((if p.last = true then noted w else w).sendPacket p.dev { fn := 9, op := 3, tenant := p.tenant, seq := p.seq, value := p.value, last := p.last, bytes := b })) ∧
      (∀ i e, foreign 3 → i = (s.inboundOf true p).getD (fresh c true) → s.readOpen i.slot i.order i.snap none (i.addr + p.value) p.op = .error (some e) →
        exec (.xgetArrival p) s = .next (reply 1 0 { s with link := { s.link with inbound := s.link.inbound.filter fun k => decide (k ≠ i) } })) ∧
      (foreign 4 → let n := if p.op.testBit 3 then 8 else 4
        (p.addr % n ≠ 0 → exec (.xamoArrival p) s = .next (reply 1 0 s)) ∧
        (p.addr % n = 0 → regionOf p.addr ≠ .sem →
          (∀ e, locateAll s c .atomic false (spanPieces p.addr n) = .error e → exec (.xamoArrival p) s = .next (reply 1 0 s)) ∧
          (∀ ps, locateAll s c .atomic false (spanPieces p.addr n) = .ok ps → (∀ x ∈ ps, x.1.home ≠ 2) → s.meets c p.addr n none = .clear →
            exec (.xamoArrival p) s = .next (reply 0 (leNat (s.readPieces ps))
              ((s.ledAll ps).writePieces ps (leBytes n ((amoFn p n).apply n (leNat (s.readPieces ps)) (p.value % 2 ^ (8 * n)))))))) ∧
        (∀ i, p.addr = semWindow + 4 * i → regionOf p.addr = .sem → i < (s.ctx c).semCount → bits p.op 3 0 = 0 →
          (∀ v, s.semSum c i (signed32 (p.value % 2 ^ 32)) = some v →
            exec (.xamoArrival p) s = .next (reply 0 (s.chipSem c i).toNat (s.setChipSem c i v))) ∧
          (s.semSum c i (signed32 (p.value % 2 ^ 32)) = none → exec (.xamoArrival p) s = .next (reply 3 (s.chipSem c i).toNat s)))) ∧
      (foreign 5 →
        ((s.ctx c).semCount ≤ p.addr → exec (.xsigArrival p) s = .next (reply 3 0 s)) ∧
        (p.addr < (s.ctx c).semCount →
          (∀ v, s.semSum c p.addr (signed32 (p.value % 2 ^ 32)) = some v → exec (.xsigArrival p) s = .next (reply 0 0 (s.setChipSem c p.addr v))) ∧
          (s.semSum c p.addr (signed32 (p.value % 2 ^ 32)) = none → exec (.xsigArrival p) s = .next (reply 3 0 s))))) ∧
    (∀ x, (s.tag t).st = .landing → (s.tag t).op = some (.crossing x) →
      let here : Prop := s.mgmt.devidSet = true ∧ x.dev = s.mgmt.devid
      let away : Prop := s.mgmt.devidSet = true ∧ x.dev ≠ s.mgmt.devid
      let earlier : Prop := (x.fn = 5 ∨ x.ord = true) ∧ ∃ e ∈ s.tags, ∃ y, e.2.op = some (.crossing y) ∧ (e.2.st = .landing ∨ e.2.st = .frozen) ∧
        y.fn ∈ [2, 3, 4, 5] ∧ y.core = x.core ∧ y.order < x.order ∧ y.dev = x.dev ∧ (x.fn = 5 ∨ y.ord = true) ∧ y.status = none ∧ ¬(y.fn = 3 ∧ y.moved = y.len)
      let next : State := { s with tick := s.tick + 1 }
      (s.mgmt.devidSet = false → exec (.crossingCompletion t) s = .next (s.endCrossing t x 5)) ∧
      (∀ u, s.mgmt.devidSet = true → x.fn = 0 → s.bucketStep t x = .ok u → exec (.crossingCompletion t) s = .next u) ∧
      (∀ st, here → x.fn = 2 ∨ x.fn = 3 ∨ x.fn = 5 → x.status = some st → exec (.crossingCompletion t) s = .next (s.endCrossing t x st)) ∧
      (∀ st u, here → x.fn = 4 → x.status = some st → st = 0 ∨ st = 3 → s.writeFor x.slot x.order (x.addr.toNat + 48) (leBytes 8 x.result.toNat) = .ok u →
        exec (.crossingCompletion t) s = .next (u.endCrossing t x st)) ∧
      (here → x.fn = 3 → x.status = none → x.moved = x.len → exec (.crossingCompletion t) s = .next (s.endCrossing t x 0)) ∧
      (away → x.fn ∈ [2, 3, 4, 5] → earlier → exec (.crossingCompletion t) s = .next next ∨ exec (.crossingCompletion t) s = .next (next.endCrossing t x 5)) ∧
      (away → ¬earlier → x.fn = 4 → let p := s.callPacket x
        let n := if p.op.testBit 3 then 8 else 4
        let sem := regionOf p.addr = .sem
        let add := p.op % 8 = 0
        ∃ st ∈ (if p.addr % n ≠ 0 ∨ (sem ∧ (n = 8 ∨ (amoFn p n).inWindow = false)) then [1, 5] else if sem ∧ add then [0, 1, 3, 5] else [0, 1, 5]), ∃ v m,
          exec (.crossingCompletion t) s = .next (s.crossStep t x (({ s with tick := m } : State).endAmo t x st v))) ∧
      (away → ¬earlier → x.fn = 3 → x.moved = x.len → exec (.crossingCompletion t) s = .next (s.endCrossing t x 0)) ∧
      (away → ¬earlier → x.fn = 2 ∨ x.fn = 5 ∨ (x.fn = 3 ∧ x.moved ≠ x.len) →
        ∃ st ∈ (if x.fn = 5 then [0, 3, 5] else if x.fn = 2 ∧ x.sent = x.len then [0, 1, 5] else [1, 5]),
          exec (.crossingCompletion t) s = .next (next.endCrossing t x st)) ∧
      (x.timeout = 0 ∨ s.wall < x.issued + 1000 * x.timeout → exec (.tmoExpiry t) s = .next s) ∧
      (x.timeout ≠ 0 → x.issued + 1000 * x.timeout ≤ s.wall → x.fn ≠ 1 →
        let ended : State := (s.stopShort x).endCrossing t x 4
        let cut (u : State) : Prop := exec (.tmoExpiry t) s = .next ((boxesOf t (s.tag t)).foldl (fun (w : State) c => w.endStalled c) u)
        (x.fn ≠ 2 → x.fn ≠ 3 → cut ended) ∧
        (away → x.fn = 2 ∨ x.fn = 3 → ∃ q : Packet, q.stop = true ∧ q.fn = x.fn ∧ q.seq = x.order ∧ cut (ended.sendPacket x.dev q)))) ∧
    ((s.tag t).st ≠ .landing → exec (.crossingCompletion t) s = .next s ∧ exec (.tmoExpiry t) s = .next s)) ∧
  (∀ (s : State) (p : Packet),
    let posted := (p.tenant, p.dev, p.seq)
    let foreign (fn : Nat) : Prop := s.mgmt.devidSet = true ∧ p.dev ≠ s.mgmt.devid ∧ p.fn = fn
    let tell (st : Nat) (u : State) : State := u.sendPacket p.dev { fn := 9, op := 1, tenant := p.tenant, seq := p.seq, value := st }
    (s.mgmt.devidSet = true → p.fn = 7 → posted ∉ s.link.postings →
      exec (.xa2aPosting p) s = .next { s with link := { s.link with postings := posted :: s.link.postings } }) ∧
    (s.mgmt.devidSet = false ∨ p.fn ≠ 7 ∨ posted ∈ s.link.postings → exec (.xa2aPosting p) s = .next s) ∧
    (foreign 1 → s.collective p = none → exec (.xa2aArrival p) s = .next s) ∧
    (∀ t x, foreign 1 → s.collective p = some (t, x) →
      ((∀ i < x.peers.length, x.peers.getD i 0 ≠ p.dev) →
        exec (.xa2aArrival p) s = .next (tell 5 (s.setCrossing t { x with status := some (max (x.status.getD 0) 5) }))) ∧
      (∀ q v, q < x.peers.length → (∀ i < x.peers.length, x.peers.getD i 0 = p.dev ↔ i = q) →
        ((x.came.get (0, p.len) q).1 ≠ p.value → exec (.xa2aArrival p) s = .next s) ∧
        ((x.came.get (0, p.len) q).1 = p.value →
          let room := bits (x.word 6) 63 32
          let b := p.bytes.take (room - p.value)
          let y : Crossing := { x with came := x.came.set q (p.value + p.bytes.length, p.len),
                                       status := if room < p.value + p.bytes.length then some (max (x.status.getD 0) 2) else x.status }
          b ≠ [] → s.writeFor x.slot x.order (x.word 4 + q * room + p.value) b = .ok v →
          (p.last = false → exec (.xa2aArrival p) s = .next (v.setCrossing t y)) ∧
          (∀ w, p.last = true → v.writeFor x.slot x.order (x.word 5 + 4 * q) (leBytes 4 p.op) = .ok w →
            exec (.xa2aArrival p) s = .next (tell (y.status.getD 0) (w.setCrossing t y)))))) ∧
    (∀ t x, s.mgmt.devidSet = true → (s.tag t).st = .landing → (s.tag t).op = some (.crossing x) → x.fn = 1 →
      let mine : Prop := ∀ d ∈ x.peers, d = s.mgmt.devid
      let done : Prop := x.status = some 5 ∨ x.allMoved = true
      let ended (u : State) (st : Nat) : State :=
        ({ u with link := { u.link with postings := u.link.postings.filter fun e => !(e.1 == u.keyOf x.slot && e.2.2 == bits (x.word 0) 15 0) } } : State).endCrossing t x st
      (done → mine → exec (.crossingCompletion t) s = .next (ended s (x.status.getD 0))) ∧
      (done → ¬mine → ∃ far ∈ [0, 2, 5], exec (.crossingCompletion t) s = .next (ended { s with tick := s.tick + 1 } (max (x.status.getD 0) far))) ∧
      (¬done → (∃ d ∈ x.peers, d ≠ s.mgmt.devid ∧ s.hasPosted x d = false) → exec (.crossingCompletion t) s = .next (ended s 5)) ∧
      (¬done → (∀ d ∈ x.peers, d = s.mgmt.devid ∨ s.hasPosted x d = true) → exec (.crossingCompletion t) s = .next s) ∧
      (x.timeout ≠ 0 → x.issued + 1000 * x.timeout ≤ s.wall → s.stopShort x = s → exec (.tmoExpiry t) s =
        .next ((boxesOf t (s.tag t)).foldl (fun (u : State) c => u.endStalled c) (ended s 4)))))

/-- 17_piers R368-R374: a gbag publishes its next pooled bag in the ring and ends with its last; a supd joins its pairs to the current step of its table; an skq estimates, dumps
or loads a sketch; an scommit at its step applies the optimiser to every row and steps the table, at any other step it traps and applies nothing; its rows go to the buddy
module, whose acknowledgement ends it, and are written on arrival there. The packets of a mirrored table are function 8 (log 61). -/
def Obligations.EmbeddingEvents : Prop :=
  ∀ (s : State) (t : TagRef),
    (s.runningCommand t = none → exec (.bagPublish t) s = .next s ∧ exec (.embeddingCommandEnd t) s = .next s ∧ exec (.optimiserCommit t) s = .next s) ∧
    (∀ e, s.runningCommand t = some e →
      let x := s.ctx e.slot
      let d := x.table e.table
      let z := 4 * tblElems d
      let refused (u : State) (code : Nat) : State := (u.commandTrap t e (mkTrap .permission code) false false).endCommand t
      (e.fn = 0 → blkN e.block ≤ e.pos → exec (.bagPublish t) s = .next (s.endCommand t)) ∧
      (∀ es u v, e.fn = 0 → e.pos < blkN e.block → s.pooledBag t e = .ok (es, u) → u.publish e (es.flatMap fun y => leBytes 4 y.1) = .ok v →
        let w := v.commandFlags t e (es.foldl (fun (g : BitVec 8) y => g ||| y.2) 0)
        let w1 := w.setTag t { w.tag t with addr := e.pos + 1, op := some (.embedding { e with pos := e.pos + 1 }) }
        exec (.bagPublish t) s = .next (if e.pos + 1 = blkN e.block then w1.endCommand t else w1)) ∧
      (∀ is g u v, e.fn = 2 → s.allIndices t e (List.range (blkN e.block)) = .ok (is, u) →
        u.readFor e.slot e.order [] (some t) (blkWord e.block 2) (blkN e.block * z) = .ok (g, v) →
        let exp := bits (blkWord e.block 0) 31 24
        let cur : Submitted := ((x.steps.find? fun m => m.1 == e.table).map (·.2)).getD { opt := e.opt, e := exp }
        let pairs := cur.pairs ++ (is.mapIdx fun i k => (k.toNat, (g.drop (i * z)).take z))
        let inRange : Prop := ∀ k ∈ is, 0 ≤ k ∧ k < (tblRows d : Int)
        (¬inRange → exec (.embeddingCommandEnd t) s = .next (refused v (25 + 8 * 256))) ∧
        (inRange → cur.opt ≠ e.opt ∨ cur.e ≠ exp → exec (.embeddingCommandEnd t) s = .next (refused v 27)) ∧
        (inRange → cur.opt = e.opt → cur.e = exp → 4194304 < (pairs.map (·.1)).eraseDups.length → exec (.embeddingCommandEnd t) s = .next (refused v (25 + 6 * 256))) ∧
        (inRange → cur.opt = e.opt → cur.e = exp → (pairs.map (·.1)).eraseDups.length ≤ 4194304 → exec (.embeddingCommandEnd t) s =
          .next ((v.setCtx e.slot { v.ctx e.slot with steps := (v.ctx e.slot).steps.set e.table { cur with pairs := pairs } }).endCommand t))) ∧
      (∀ is u v, e.fn = 4 → blkMode e.block = 0 → s.allIndices t e (List.range (blkN e.block)) = .ok (is, u) →
        u.cmdWrite e (blkWord e.block 2) (is.flatMap fun k => leBytes 2 (x.estimate e.table k)) = .ok v →
        exec (.embeddingCommandEnd t) s = .next (v.endCommand t)) ∧
      (let ks := sketchOrder (blkCtrl e.block) (bits (fieldAt d 16 8) 13 8);
        (∀ u, e.fn = 4 → blkMode e.block = 1 → s.cmdWrite e (blkWord e.block 2) (ks.flatMap fun k => leBytes 2 (x.sketch.get 0 k)) = .ok u →
          exec (.embeddingCommandEnd t) s = .next (u.endCommand t)) ∧
        (∀ b u, e.fn = 4 → 2 ≤ blkMode e.block → s.readFor e.slot e.order [] (some t) (blkWord e.block 2) 0x80000 = .ok (b, u) →
          exec (.embeddingCommandEnd t) s = .next ((u.setCtx e.slot { u.ctx e.slot with
            sketch := (ks.mapIdx fun i k => (k, i)).foldl (fun (m : Sketch) q => m.set q.1 (fieldAt b (2 * q.2) 2)) (u.ctx e.slot).sketch }).endCommand t))) ∧
      (e.fn = 3 → e.waitAck = false → s.supdBefore e.slot e.table e.order = false →
        (tblStep d ≠ e.value → exec (.optimiserCommit t) s = .next (refused s 26)) ∧
        (∀ l f, tblStep d = e.value →
          let u := (x.steps.find? fun m => m.1 == e.table).map (·.2)
          let rows := ((u.map fun m => (m.pairs.map (·.1)).eraseDups).getD []).foldr insertRow []
          (do
            let ws ← rows.mapM fun r => s.optimise e.slot e.table (u.getD { opt := [], e := 0 }) r
            s.encodeRows e.slot ws.flatten) = .ok (l, f) →
          let done := ((((l.foldl (fun (v : State) w => v.writeRow w.2.1 w.2.2) s).publishTable e.slot d).setStep e.slot e.table ((tblStep d + 1) % 2 ^ 32)).commandFlags t e f)
          let w0 := (u.map fun m => blkWord m.opt 0).getD 0
          (w0.testBit 36 = false ∨ l = [] → exec (.optimiserCommit t) s = .next (done.endCommand t)) ∧
          (w0.testBit 36 = true → l ≠ [] → exec (.optimiserCommit t) s =
            .next ((done.setTag t { done.tag t with rd := true, op := some (.embedding { e with waitAck := true }) }).mirrorRows e.slot (bits w0 63 42) e.order l))))) ∧
    (∀ e, (s.tag t).st = .landing → (s.tag t).op = some (.embedding e) →
      (e.waitAck = true → exec (.buddyAcknowledgement t) s =
        .next (({ s with link := { s.link with packets := s.link.packets.filter fun q => q.2.2.fn != 8 || q.2.2.seq != e.order } } : State).endCommand t)) ∧
      (e.waitAck = false → exec (.buddyAcknowledgement t) s = .next s)) ∧
    (∀ (p : Packet) c ps, s.mgmt.devidSet = true → p.dev ≠ s.mgmt.devid → p.fn = 8 → s.jobContext p.tenant = some c →
      let d := (s.ctx c).table p.op
      (s.ctx c).tableOk p.op = true → p.addr < tblRows d → p.bytes.length = (tblFmt d).bytes → s.rowPieces c d p.addr = .ok ps →
      exec (.mirrorArrival p) s =
        .next (if p.last = true then (s.writeRow ps p.bytes).sendPacket p.dev { fn := 9, tenant := p.tenant, seq := p.seq } else s.writeRow ps p.bytes))

/-- 18_link R375-R377, R382, R385; 22_bringup R419: flits of the Fenvar link while it is up: a payload flit in sequence is delivered and acknowledged, one that fails its check or is out of
sequence is negatively acknowledged; payloads for the host go out in order while the replay buffer of 512 flits, or 128, has room; acknowledgements free it, a negative one sends it again; training takes the highest common version and the common features; a failed lane, then the spare
gone, four lanes; a failed port hands its packets to the others. A CRC error, a failed lane and a failed port are tested as any part after an error (19_faults R404). The codes and places of a
flit's header fields, and what training and failures log, are the model's (logs 68, 69, 70). -/
def Obligations.LinkEvents : Prop :=
  ∀ (s : State) (f : Flit) (n : Nat),
    let l := s.link
    let on : Prop := s.mgmt.main = .ready ∧ l.up = true
    let orders := [Instr.payloadFlit f, .acknowledgementFlit f, .negativeAcknowledgementFlit f, .idleFlit f]
    let last := (l.rxSeq + 1023) % 1024
    let refused : State := { s with link := { l with out := l.out ++ [l.flit 3 l.txSeq l.rxSeq []] } }
    let again (t : Link) (e : Nat × List Byte) : Link := { t with out := t.out ++ [t.flit 1 e.1 last e.2] }
    let noted (u : State) (e : ErrorCase) : State := { u with mgmt := { u.mgmt with cases := u.mgmt.cases ++ [e] } }
    let kept := if (∃ e ∈ l.txBuf, e.1 = f.ackNo) then (l.txBuf.dropWhile fun e => e.1 != f.ackNo).drop 1 else l.txBuf
    let acked : Link := Link.sendWaiting { l with txBuf := kept, credits := l.credits + f.credits } l.txWait
    (∀ b r, (l.txBuf.length < (if l.feat.getLsbD 0 then 512 else 128) →
        l.sendWaiting (b :: r) = Link.sendWaiting { l with txSeq := (l.txSeq + 1) % 1024, txBuf := l.txBuf ++ [(l.txSeq, b)],
                                                           out := l.out ++ [l.flit 1 l.txSeq last b] } r) ∧
      ((if l.feat.getLsbD 0 then 512 else 128) ≤ l.txBuf.length → l.sendWaiting (b :: r) = { l with txWait := b :: r })) ∧
    (∀ k no ack b, let w := l.flit k no ack b
      w.length = 256 ∧ leNat (w.take 4) = k % 16 + no % 1024 * 2 ^ 4 + ack % 1024 * 2 ^ 14 + Config.linkCredits l.out.length % 256 * 2 ^ 24 ∧
      (b.length ≤ 238 → (w.drop 4).take b.length = b ∧ ∀ x ∈ (w.drop (4 + b.length)).take (238 - b.length), x = 0) ∧
      leNat ((w.drop 242).take 8) = Config.linkCrc (w.take 242) % 2 ^ 64 ∧ leNat (w.drop 250) = Config.linkParity (w.take 250) % 2 ^ 48) ∧
    (¬on → ∀ o ∈ orders, exec o s = .next s) ∧
    (on → f.good = false → ∀ o ∈ orders, exec o s = .next (noted refused { rep := { unitClass := 7, unitIndex := 0, kind := 3 }, since := s.wall })) ∧
    (on → f.good = true →
      (f.seqNo = l.rxSeq → exec (.payloadFlit f) s =
        .next { s with link := { acked with rxSeq := (l.rxSeq + 1) % 1024, inbox := l.inbox ++ [f.body], out := acked.out ++ [acked.flit 2 acked.txSeq f.seqNo []] } }) ∧
      (f.seqNo ≠ l.rxSeq → exec (.payloadFlit f) s = .next refused) ∧
      exec (.acknowledgementFlit f) s = .next { s with link := acked } ∧ exec (.idleFlit f) s = .next { s with link := acked } ∧
      exec (.negativeAcknowledgementFlit f) s =
        .next { s with link := (l.txBuf.dropWhile fun e => e.1 != f.ackNo).foldl again { l with credits := l.credits + f.credits } }) ∧
    (let b := fieldAt f.body 0 8
      let lo := b % 256
      let hi := b / 2 ^ 8 % 256
      let own := l.flit 4 l.txSeq last (leBytes 8 0x1F00010302)
      let major := min 3 hi
      let minor := if hi = 3 then min 1 (b / 2 ^ 16 % 256) else if 3 < hi then 1 else b / 2 ^ 16 % 256;
      (s.mgmt.main ≠ .ready ∨ f.good = false → exec (.trainingFlit f) s = .next s) ∧
      (s.mgmt.main = .ready → f.good = true → max 2 lo ≤ major → exec (.trainingFlit f) s =
        .next { s with link := { l with up := true, err := false, major := major, minor := minor, feat := .ofNat 64 (0x1F &&& b / 2 ^ 32 % 2 ^ 32), out := l.out ++ [own] } }) ∧
      (s.mgmt.main = .ready → f.good = true → major < max 2 lo → exec (.trainingFlit f) s =
        .next (State.irq { s with link := { l with up := false, err := true, out := l.out ++ [own] } } 256))) ∧
    (let r : ErrorReport := { unitClass := 7, unitIndex := 0, kind := 3, locus := n }
      let tested (u : State) : State := noted u { rep := r, since := s.wall, logged := true, done := true };
      (s.mgmt.main ≠ .ready ∨ 9 ≤ n → exec (.laneFailure n) s = .next s) ∧
      (s.mgmt.main = .ready → n < 9 →
        (l.spare = true → exec (.laneFailure n) s = .next (tested (State.logError { s with link := { l with spare := false }, mgmt := { s.mgmt with repairs := s.mgmt.repairs ++ [(7, 0, n)] } } r s.wall 1))) ∧
        (l.spare = false → exec (.laneFailure n) s =
          .next (State.irq (tested (State.logError { s with link := { l with lanes := 4 }, mgmt := { s.mgmt with degraded := true } } r s.wall 2)) 256)))) ∧
    (s.mgmt.main ≠ .ready ∨ 8 ≤ n ∨ l.ports.getLsbD n = false → exec (.portFailure n) s = .next s) ∧
    (s.mgmt.main = .ready → n < 8 → l.ports.getLsbD n = true → ∃ u : State, exec (.portFailure n) s = .next u ∧
      (∀ i < 8, u.link.ports.getLsbD i = (l.ports.getLsbD i && decide (i ≠ n))) ∧ u.link.packets.map (·.2) = l.packets.map (·.2) ∧
      (∀ e ∈ u.link.packets, e.1 ≠ n) ∧
      u.mgmt.cases = s.mgmt.cases ++ [{ rep := { unitClass := 7, unitIndex := n + 1, kind := 3, locus := n }, since := s.wall, logged := true, done := true }] ∧ u.mgmt.irqs = s.mgmt.irqs ++ [256] ∧ u.mem = s.mem ∧ u.cores = s.cores ∧ u.ctxs = s.ctxs)

/-- 22_bringup R419-R423, R426-R427; 00_scope R8; 01_module R25, R31: the boot sequence takes the first bank that verifies and measures it, and ends with the main side READY with a new module key, or FAILED; power-on reset
and a thermal shutdown, which lose contexts, keys and device memory; a throttle step of the power controller. The messages that wait are served then.
What survives, and how a failed boot and a shutdown are logged, are the model's (logs 74, 75). -/
def Obligations.BootEvents : Prop :=
  ∀ (s : State),
    let g := s.mgmt
    let failed (u : State) (cause : Nat) : State := State.serveWaiting (State.logError (u.mainDown .failed) { kind := 1, locus := cause } u.wall 2)
    (g.main ≠ .boot → exec .bootEnd s = .next s ∧ exec .firmwareVerified s = .next s) ∧
    (g.main = .boot → g.m1 ≠ [] → exec .firmwareVerified s = .next s) ∧
    (g.main = .boot → g.m1 = [] →
      (∀ b, fwOk (g.bank b) g.svnMin = true → (b ≠ g.nextB → fwOk (g.bank g.nextB) g.svnMin = false) →
        exec .bootEnd s = .next s ∧
        let h : Mgmt := { g with m1 := fwDigest (g.bank b), bootSvn := fwSvn (g.bank b), bootVer := fwVer (g.bank b), activeB := b, nextB := b,
                                 staged := g.staged && g.activeB == b }
        exec .firmwareVerified s = .next (State.serveWaiting { s with mgmt := h })) ∧
      ((∀ b, fwOk (g.bank b) g.svnMin = false) → exec .firmwareVerified s = .next s ∧ exec .bootEnd s = .next (failed s 1))) ∧
    (g.main = .boot → g.m1 ≠ [] → exec .bootEnd s = .next (failed { s with tick := s.tick + 1 } 2) ∨ ∃ u : State, exec .bootEnd s = .next u ∧
      (u.mgmt.main = .ready ∧ u.mgmt.keys = [(0, { owner := 0, val := .module (g.bootCount + 1) })] ∧ u.mgmt.svnMin = max g.svnMin g.bootSvn ∧ u.mgmt.bootCount = g.bootCount + 1 ∧
          u.mgmt.irqs = g.irqs ++ [257] ∧ u = { s with tick := s.tick + 1, mgmt := u.mgmt, link := u.link } ∧ (s.link.up = false → u.link = s.link))) ∧
    (∀ n, s.mainDown n = { State.reset with
        agenda := s.agenda, tick := s.tick, nextOp := s.nextOp, clk := s.clk, wall := s.wall, mem := s.mem.filter isHostCell,
        disp := { unavailable := s.disp.unavailable, spares := s.disp.spares },
        link := { lanes := s.link.lanes, spare := s.link.spare, ports := s.link.ports, pierSpares := s.link.pierSpares },
        mgmt := { g with main := n, keys := [], kek := none, dbg := false } }) ∧
    exec .powerOnReset s = .next { State.reset with
      agenda := s.agenda, tick := s.tick, mem := s.mem.filter isHostCell,
      disp := { unavailable := s.disp.unavailable, spares := s.disp.spares },
      mgmt := { bankA := g.bankA, bankB := g.bankB, activeB := g.activeB, nextB := g.nextB, svnMin := g.svnMin, bootCount := g.bootCount, degraded := !s.disp.unavailable.isEmpty, repairs := g.repairs } } ∧
    (g.main = .off ∨ g.main = .failed → exec .thermalShutdown s = .next s) ∧
    (g.main = .boot ∨ g.main = .ready → exec .thermalShutdown s = .next (State.serveWaiting (State.irq (State.logError (s.mainDown .off) { kind := 1 } s.wall 3) 257))) ∧
    (∀ v, let slower := if g.throttleAt = some (false, s.clk) then max g.throttle (min v 4) else min v 4
      exec (.powerThrottle v) s = .next { s with mgmt := { g with throttle := slower, throttleAt := some (true, s.clk) } })

/-- 19_faults R404-R408, R410; 07_group R159: an error detected opens a case, raises cause 21 where masking fails and loses a core where its own state is hit; a self-test closes it as transient, or finds it lasting (always the
third in 24 hours); what a lost core holds is replayed, or is cause 21 in trap mode and for a tile with NIDEM, at its restore where it is being saved; a repair, of a core that nothing is bound to, ends it with a spare (01_module R19, R21) or leaves the module degraded.
An error of the location under test counts with it; later uncorrectable errors of a location without a spare are cause 21 (R406). The form of a case, the choice of a context, and what becomes of a
lost rank are the model's (logs 76, 77, 78, 79, 96). -/
def Obligations.ErrorEvents : Prop :=
  ∀ (s : State) (r : ErrorReport) (n : Nat),
    let up : Prop := s.mgmt.main = .ready
    let there : Prop := up ∧ r.exists = true
    let counted : State := { s with tick := s.tick + 1 }
    let same (a b : ErrorReport) : Prop := a.unitClass = b.unitClass ∧ a.unitIndex = b.unitIndex ∧ a.locus = b.locus
    let beyond : Prop := r.kind = 1 ∧ (r.unitClass, r.unitIndex, r.locus) ∈ s.mgmt.unrepaired
    let raised : State := (counted.logError r s.wall 3).unmasked r
    let masked : Prop := r.kind ≠ 1 ∨ (r.unitClass ≠ 1 ∧ r.unitClass ≠ 2 ∧ r.unitClass ≠ 5 ∧ (r.unitClass = 4 → r.addr = 0))
    let spoilt : Prop := r.kind = 1 ∧ (r.unitClass = 1 ∨ r.unitClass = 5 ∨ (r.unitClass = 4 ∧ r.addr ≠ 0))
    let closed (u : State) (k : ErrorCase) (outcome : Nat) : State :=
      let locus := (k.rep.unitClass, k.rep.unitIndex, k.rep.locus)
      let v : State := { u with mgmt := { u.mgmt with cases := u.mgmt.cases.eraseIdx n,
                                                      repairs := if outcome = 1 then u.mgmt.repairs ++ [locus] else u.mgmt.repairs,
                                                      unrepaired := if outcome = 2 then u.mgmt.unrepaired ++ [locus] else u.mgmt.unrepaired } }
      (k.also.foldl (fun (t : State) e => if e.2.2 = true then t else t.logError e.1 e.2.1 outcome) (if k.logged = true then v else v.logError k.rep k.since outcome)).reserve
    (∀ (u : State) (d : Bool), let l := u.mgmt.cases
      ((∀ k ∈ l, k.stage ≠ 0 ∨ ¬same k.rep r) → u.noteError r d = { u with mgmt := { u.mgmt with cases := l ++ [{ rep := r, since := u.wall, logged := d }] } }) ∧
      (∀ (i : Nat) k, l[i]? = some k → k.stage = 0 → same k.rep r → (∀ j m, j < i → l[j]? = some m → m.stage ≠ 0 ∨ ¬same m.rep r) →
        u.noteError r d = { u with mgmt := { u.mgmt with cases := l.set i { k with also := k.also ++ [(r, u.wall, d)] } } })) ∧
    (¬up ∨ r.exists = false → exec (.errorDetected r) s = .next s) ∧
    (there → masked → ¬beyond → ¬(r.unitClass = 3 ∧ r.kind = 1) → exec (.errorDetected r) s = .next (counted.noteError r false)) ∧
    (there → spoilt ∨ beyond → ¬(r.unitClass = 3 ∧ r.kind = 1) → exec (.errorDetected r) s = .next (raised.noteError r true)) ∧
    (there → r.kind = 1 → r.unitClass = 2 → exec (.errorDetected r) s = .next (counted.noteError r false) ∨ exec (.errorDetected r) s = .next (raised.noteError r true)) ∧
    (there → r.kind = 1 → r.unitClass = 3 → (¬beyond → exec (.errorDetected r) s = .next ((counted.loseCore r.unitIndex r).noteError r false)) ∧
      (beyond → exec (.errorDetected r) s = .next ((raised.loseCore r.unitIndex r).noteError r true))) ∧
    (∀ c slot g, (s.core c).slot = some slot → (s.core c).group = some g → (s.core c).committing = true ∨ (s.ctx slot).preempting.isSome = true →
      s.loseBound c r = s.setCore c { s.core c with failing := some r }) ∧
    (∀ c slot g, let k := s.core c
      let t := s.setCore c { k with failing := none }
      k.slot = some slot → k.group = some g → (s.ctx slot).preempting = none → k.committing = false →
      (k.bank.isSome = true ∨ (k.opened = true ∧ k.nidem = true) →
        s.loseBound c r = (t.cancelWork c).escalate slot (some c) (.seq c sqC) (errorTrap r (if k.opened = true then k.tile else 0)) (s.seq (.seq c sqC)).pc 0) ∧
      (k.bank = none → (k.opened = false ∨ k.nidem = false) →
        s.loseBound c r = ((t.loseWork c).setGroup g (((t.loseWork c).group g).loseMember k)).unbindCore c)) ∧
    (∀ pass, (s.mgmt.cases[n]? = none ∨ ¬up → exec (.targetedSelfTest n pass) s = .next s ∧ exec (.repairEnd n) s = .next s)) ∧
    (∀ k, up → s.mgmt.cases[n]? = some k → k.stage = 0 →
      let seen : State := { s with mgmt := { s.mgmt with history := s.mgmt.history ++ (k.rep, k.since) :: k.also.map fun e => (e.1, e.2.1) } }
      let often : Prop := 2 ≤ (s.mgmt.history.filter fun h => sameLocus h.1 k.rep && decide (k.since < h.2 + 86400000000000)).length + k.also.length
      let lasting (u : State) : State := { u with mgmt := { u.mgmt with cases := u.mgmt.cases.set n { k with stage := 1 } } }
      exec (.repairEnd n) s = .next s ∧
      (∀ pass, k.done = true → exec (.targetedSelfTest n pass) s = .next (closed seen k 0)) ∧
      (k.done = false → ¬often → ¬(k.rep.unitClass = 3 ∧ k.rep.kind = 1) → exec (.targetedSelfTest n true) s = .next (closed seen k 0)) ∧
      (∀ pass, k.done = false → pass = false ∨ often ∨ (k.rep.unitClass = 3 ∧ k.rep.kind = 1) →
        (k.rep.unitClass = 3 → k.rep.kind ≠ 2 → exec (.targetedSelfTest n pass) s = .next (lasting (seen.loseCore k.rep.unitIndex k.rep))) ∧
        (k.rep.unitClass ≠ 3 ∨ k.rep.kind = 2 → exec (.targetedSelfTest n pass) s = .next (lasting seen)))) ∧
    (∀ k, up → s.mgmt.cases[n]? = some k → k.stage = 1 →
      let core : Prop := k.rep.unitClass = 3 ∧ k.rep.kind ≠ 2
      let lane : Prop := k.rep.unitClass = 7 ∧ k.rep.unitIndex = 0
      let pier : Prop := k.rep.unitClass = 7 ∧ 9 ≤ k.rep.unitIndex
      let used := s.link.pierSpares.get 0 (k.rep.unitIndex - 9)
      let free : Prop := core ∧ (s.core k.rep.unitIndex).slot = none
      let c := k.rep.unitIndex
      (∀ pass, exec (.targetedSelfTest n pass) s = .next s) ∧
      (core → (s.core c).slot ≠ none → exec (.repairEnd n) s = .next s) ∧
      (free → 0 < s.disp.spares → exec (.repairEnd n) s = .next (closed { s with disp := { s.disp with
        spares := s.disp.spares - 1, unavailable := s.disp.unavailable.filter fun e => e != c } } k 1)) ∧
      (free → s.disp.spares = 0 → exec (.repairEnd n) s = .next (closed { s with
        mgmt := { s.mgmt with degraded := true },
        disp := { s.disp with unavailable := if c ∈ s.disp.unavailable then s.disp.unavailable else c :: s.disp.unavailable } } k 2)) ∧
      (pier → used < 2 → exec (.repairEnd n) s = .next (closed { s with link := { s.link with pierSpares := s.link.pierSpares.set (c - 9) (used + 1) } } k 1)) ∧
      (pier → 2 ≤ used → exec (.repairEnd n) s = .next (closed s k 2)) ∧
      (lane → s.link.spare = true → exec (.repairEnd n) s = .next (closed { s with link := { s.link with spare := false } } k 1)) ∧
      (lane → s.link.spare = false →
        exec (.repairEnd n) s = .next (closed { s with link := { s.link with lanes := 4 }, mgmt := { s.mgmt with degraded := true } } k 2)) ∧
      (¬core → ¬lane → ¬pier → exec (.repairEnd n) s = .next (closed counted k 1) ∨ exec (.repairEnd n) s = .next (closed counted k 2)))

/-- 18_link R383, R384; 22_bringup R420, R424-R429: the messages of the management port. Each answers 3 to a length that it does not allow, 2 in a main-side state that does not allow it, and else does what it says; a
message of the transport is answered by the transport; what waits behind an ATTEST is served in arrival order. (The layouts of payloads, the states and the choices below are the
model's: logs 71, 72, 73, 74, 75.) -/
def Obligations.ManagementForms : Prop :=
  ∀ (s : State) (m : Message),
    let p := m.payload
    let g := s.mgmt
    let len := p.length
    let answers (o : Instr) (status : Nat) (data : List Byte) (u : State) : Prop :=
      exec o s = .next { u with mgmt := { u.mgmt with replies := u.mgmt.replies ++ [BitVec.ofNat 8 status :: data] } }
    let all : List Main := [.off, .boot, .ready, .failed]
    let measured (code num owner : Nat) (h : Mgmt) : State :=
      { s with mgmt := { h with m3 := sha256 (h.m3 ++ (BitVec.ofNat 8 code :: leBytes 4 num) ++ [BitVec.ofNat 8 owner]) } }
    let empty : Prop := ∀ c < 16, (s.ctx c).st = .free
    let n := leNat p
    let slot := fieldAt p 0 4
    let queued (code : Nat) : State := { s with mgmt := { g with waiting := g.waiting ++ [(code, p)] } }
    (∀ e ∈ ([(.mctpControl m, 0x100), (.mainon m, 0), (.mainoff m, 1), (.bootst m, 2), (.getcert m, 3), (.kekset m, 4), (.keyload m, 5), (.keyclr m, 6), (.hbmsplit m, 7), (.status m, 0x10),
          (.resetMsg m, 0x11), (.throttle m, 0x12), (.logread m, 0x13), (.fwstage m, 0x14), (.fwact m, 0x15), (.attest m, 0x16), (.setid m, 0x17), (.dbgMsg m, 0x18), (.memrd m, 0x19),
          (.memwr m, 0x1A)] : List (Instr × Nat)), ∀ c b r, g.waiting = (c, b) :: r → s.attestWaits c b = true → exec e.1 s = .next (queued e.2)) ∧
    (s.attestWaits 0x16 p = true ↔ len = 32 ∧ g.main = .boot ∧ g.m1 = []) ∧
    (∀ c b r, (s.attestWaits c b = true → s.serveAll ((c, b) :: r) = { s with mgmt := { g with waiting := (c, b) :: r } }) ∧
      (s.attestWaits c b = false → s.serveAll ((c, b) :: r) = (s.serveMessage c b).serveAll r)) ∧
    (∀ code, 7 < code → code < 0x10 ∨ (0x1A < code ∧ code ≠ 0x100) → s.serveMessage code p = { s with mgmt := { g with replies := g.replies ++ [[3]] } }) ∧
    (g.waiting = [] →
    exec (.mctpControl m) s = .next { s with mgmt := { g with mctp := g.mctp ++ [p], replies := g.replies ++ [Config.mctpAnswer (g.mctp ++ [p])] } } ∧
    (∀ e ∈ ([(.mainon m, fun n => n = 0, [.off, .failed]), (.mainoff m, fun n => n = 1, [.ready]), (.bootst m, fun n => n = 0, all), (.getcert m, fun n => n = 4, all),
          (.kekset m, fun n => n = 384, [.ready]), (.keyload m, fun n => n = 77, [.ready]), (.keyclr m, fun n => n = 4, [.ready]),
          (.hbmsplit m, fun n => n = 2, [.ready]), (.status m, fun n => n = 0, all), (.resetMsg m, fun n => n = 0, [.ready]),
          (.throttle m, fun n => n = 2 ∨ n = 3, all), (.logread m, fun n => n = 4, all), (.fwstage m, fun n => 4 ≤ n ∧ n ≤ 1020, all), (.fwact m, fun n => n = 0, all),
          (.attest m, fun n => n = 32, [.boot, .ready]), (.setid m, fun n => n = 4, [.ready]), (.dbgMsg m, fun n => n = 417, [.boot, .ready]),
          (.memrd m, fun n => n = 11, [.ready]), (.memwr m, fun n => 9 ≤ n ∧ n ≤ 521, [.ready])] : List (Instr × (Nat → Prop) × List Main)),
      (¬e.2.1 len → answers e.1 3 [] s) ∧ (e.2.1 len → g.main ∉ e.2.2 → answers e.1 2 [] s)) ∧
    (len = 0 → g.main = .off ∨ g.main = .failed →
      answers (.mainon m) 0 [] (let t := s.mainDown .boot; { t with mgmt := { t.mgmt with
        m0 := sha256 Config.bootRom, m1 := [], m2 := sha256 (Config.fuseRecord g.svnMin g.repairs), m3 := List.replicate 32 0, nonces := [], devid := 0, devidSet := false } })) ∧
    (len = 0 → let status : List Byte := [BitVec.ofNat 8 (match g.main with | .off => 0 | .boot => 1 | .ready => 2 | .failed => 3)]
      answers (.bootst m) 0 (status ++ [if g.activeB = true then 1 else 0] ++ ([g.m0, g.m1, g.m2, g.m3].flatMap fun b => (b ++ List.replicate 32 0).take 32)) s ∧
      (∃ d, answers (.status m) 0 (status ++ d) { s with tick := s.tick + 1 }) ∧
      (g.staged = true → answers (.fwact m) 0 [] { s with mgmt := { g with nextB := !g.activeB } }) ∧ (g.staged = false → answers (.fwact m) 1 [] s)) ∧
    (len = 4 → answers (.getcert m) 0 ((Config.certificate.drop n).take 1023) s ∧ answers (.logread m) 0 ((g.log.drop n).take 31).flatten s) ∧
    (len = 2 → fieldAt p 0 1 = 0 → leNat (p.drop 1) ≤ 4 →
      let v := leNat (p.drop 1)
      answers (.throttle m) 0 [] { s with mgmt := { g with
        throttle := if g.throttleAt = some (true, s.clk) then max g.throttle v else v, throttleAt := some (false, s.clk) } }) ∧
    (len = 3 → fieldAt p 0 1 = 1 → 1200 ≤ leNat (p.drop 1) → leNat (p.drop 1) ≤ 2000 →
      answers (.throttle m) 0 [] { s with mgmt := { g with powerLimit := leNat (p.drop 1) } }) ∧
    (len = 2 ∨ len = 3 → (fieldAt p 0 1 = 0 → len = 3 ∨ 4 < leNat (p.drop 1)) → (fieldAt p 0 1 = 1 → len = 2 ∨ leNat (p.drop 1) < 1200 ∨ 2000 < leNat (p.drop 1)) →
      answers (.throttle m) 3 [] s) ∧
    (4 ≤ len → len ≤ 1020 → let d := p.drop 4
      (0x200 + 2 ^ 26 < slot + d.length → answers (.fwstage m) 3 [] s) ∧
      (slot + d.length ≤ 0x200 + 2 ^ 26 →
        let b := writeBank (g.bank !g.activeB) slot d
        let gap := slot != 0 && (g.fwGap || slot != g.nextFw)
        let ends : Prop := 0x200 ≤ slot + d.length ∧ slot < 0x200 + fwLen b ∧ 0x200 + fwLen b ≤ slot + d.length
        let good : Prop := ends ∧ gap = false ∧ fwOk b g.svnMin = true
        let written (v : Bool) : State := { s with mgmt := { g.setBank (!g.activeB) b with nextFw := slot + d.length, fwGap := gap, staged := v } }
        (good → answers (.fwstage m) 0 [] (written true)) ∧ (¬ends → answers (.fwstage m) 0 [] (written false)) ∧
        (ends → ¬good → answers (.fwstage m) 1 [] (written false)))) ∧
    (len = 32 → g.main = .boot ∨ g.main = .ready →
      (g.main = .boot → g.m1 = [] → exec (.attest m) s = .next (queued 0x16)) ∧
      (g.main = .ready ∨ g.m1 ≠ [] → let b := g.reportBody p; answers (.attest m) 0 (b ++ pad 384 (Config.signs b)) { s with mgmt := { g with nonces := g.nonces ++ [p] } })) ∧
    (len = 417 → g.main = .boot ∨ g.main = .ready →
      ((p.drop 1).take 32 ∈ g.nonces → Config.verifies 1 (p.take 33) (p.drop 33) = true →
        answers (.dbgMsg m) 0 [] (measured 0x18 0 0 { g with dbg := (fieldAt p 0 1).testBit 0 })) ∧
      ((p.drop 1).take 32 ∉ g.nonces ∨ Config.verifies 1 (p.take 33) (p.drop 33) = false → answers (.dbgMsg m) 1 [] s)) ∧
    (g.main = .ready →
      (len = 0 → answers (.resetMsg m) 0 [] (let t := s.mainDown .boot; { t with mgmt := { t.mgmt with
        m0 := sha256 Config.bootRom, m1 := [], m2 := sha256 (Config.fuseRecord g.svnMin g.repairs), devid := 0, devidSet := false } })) ∧
      (len = 1 → (empty ∨ n.testBit 0 = true → answers (.mainoff m) 0 [] (s.mainDown .off)) ∧ (¬empty → n.testBit 0 = false → answers (.mainoff m) 1 [] s)) ∧
      (len = 384 → (∀ k, Config.decryptKek p = some k → answers (.kekset m) 0 [] (measured 4 0 0 { g with kek := some k })) ∧
        (Config.decryptKek p = none → answers (.kekset m) 1 [] s)) ∧
      (len = 77 → slot = 0 ∨ 4095 < slot → answers (.keyload m) 3 [] s) ∧
      (len = 77 → 0 < slot → slot ≤ 4095 →
        let key : Option Nat := g.kek.bind fun k => unwrapKey k (p.drop 5)
        (g.keys.has slot = true ∨ key = none → answers (.keyload m) 1 [] s) ∧
        (∀ v, g.keys.has slot = false → key = some v →
          answers (.keyload m) 0 [] (measured 5 slot (fieldAt p 4 1) { g with keys := g.keys.set slot { owner := fieldAt p 4 1, val := .loaded v } }))) ∧
      (len = 4 → (n = 0 ∨ 4095 < n → answers (.keyclr m) 3 [] s) ∧
        (0 < n → n ≤ 4095 → answers (.keyclr m) 0 [] (measured 6 n 0 { g with keys := g.keys.drop n })) ∧
        (2 ^ 22 ≤ n → answers (.setid m) 3 [] s) ∧
        (n < 2 ^ 22 → (¬empty → answers (.setid m) 1 [] s) ∧ (empty → answers (.setid m) 0 [] (measured 0x17 n 0 { g with devid := n, devidSet := true })))) ∧
      (len = 2 → (384 < n → answers (.hbmsplit m) 3 [] s) ∧
        (n ≤ 384 → (empty → answers (.hbmsplit m) 0 [] { s with mgmt := { g with hbmSplit := n } }) ∧ (¬empty → answers (.hbmsplit m) 2 [] s))) ∧
      (let c := fieldAt p 0 1
        let va := fieldAt p 1 8
        let open_ : Prop := g.dbg = true ∧ c < 16 ∧ (s.ctx c).st ≠ .free ∧ (s.ctx c).st ≠ .tornDown;
        (len = 11 → (512 < fieldAt p 9 2 → answers (.memrd m) 3 [] s) ∧
          (fieldAt p 9 2 ≤ 512 → (¬open_ → answers (.memrd m) 1 [] s) ∧
            (∀ b, open_ → s.readAt c va (fieldAt p 9 2) = some b → answers (.memrd m) 0 b (s.noteSpan c va (fieldAt p 9 2) .read)) ∧ (open_ → s.readAt c va (fieldAt p 9 2) = none → answers (.memrd m) 1 [] s))) ∧
        (9 ≤ len → len ≤ 521 → (¬open_ → answers (.memwr m) 1 [] s) ∧
          (∀ l, open_ → locateAll s c .write false (spanPieces va (len - 9)) = .ok l → answers (.memwr m) 0 [] ((s.ledAll l).writePieces l (p.drop 9))) ∧
          (∀ e, open_ → locateAll s c .write false (spanPieces va (len - 9)) = .error e → answers (.memwr m) 1 [] s)))))

/-- 03_encoding R70-R82: words written out from the spec's encodings decode to the orders they stand for, and words that break a rule of R82 are refused with its sub-cause. -/
def Obligations.DecodeWords : Prop :=
  decodeWord .c 0x20642825 = .ok (.min 3 4 5 1) ∧ decodeWord .c 0x28640182 = .ok (.sraImm 3 4 12) ∧ decodeWord .c 0x286428E6 = .ok (.bext 3 4 5 7) ∧
  decodeWord .c 0x3C603000 = .ok (.mfcr 3 0x180) ∧ decodeWord .c 0x40A23406 = .ok (.ld 5 2 3 2 6) ∧ decodeWord .c 0x44E207FF = .ok (.st 7 2 0 3 0x1FF) ∧
  decodeWord .c 0x5027FFFD = .ok (.bzne 7 0xFFFD) ∧ decodeWord .c 0x52200004 = .ok (.bpf 4) ∧
  decodeWord .c 0xFFFFFFFF = .error .erased ∧ decodeWord .c 0x10000000 = .error .reservedMajor ∧ decodeWord .c 0x80000000 = .error .notAccepted ∧
  decodeWord .c 0x40000E00 = .error .unassigned

/-- 03_encoding R70-R82: the word of every well-formed order, on a sequencer that accepts its major and function, whose token queues it names (and which on a pier has no
token and no tag field, and names a control register of a pier), decodes to that order. -/
def Obligations.RoundTrip : Prop :=
  ∀ (k : SeqKind) (i : Instr) (w : BitVec 32), WellFormed i = true → encode i = some w →
    acceptsMajor k (w.extractLsb' 26 6).toNat = true → acceptsFn k w = true → missingQueue k (tokOf w) = false →
    (k = .pier → tokOf w = 0 ∧ pierCrLimit k w = false ∧
      ((w.extractLsb' 26 6).toNat = 0x1D → w.extractLsb' 21 5 = 2 ∨ w.extractLsb' 21 5 = 3 → w.extractLsb' 15 6 = 0)) →
    decodeWord k w = .ok i

/-- 03_encoding R64-R68: a turn of a sequencer that goes on at its step. Where both words at its step counter decode, its tokens are there and its predicate stack has room, the order of slot 0 acts, then that of
slot 1, and the step ends; a slot that waits or traps stops it, and a word that does not decode, or that names an accumulator past those that the kernel declares (14_matrix R293), is a trap. A turn of an event is that event. What the model adds around the two orders is in its own functions: the attribute
byte's POP, tokens and marks (endStep), a step begun again (stopStep), loads before a first step (firstLoads), what a vector engine finds in registers that
the other engine has written (viewShared; log 109), what a trap of slot 1 leaves of slot 0 (secondTrap; 19_faults R398), and the clock that each turn has of its own (passTime; log entry 98). -/
def Obligations.StepRunsDecoded : Prop :=
  (∀ (s : State) (i : Instr) (r : List Turn), s.agenda = .event i :: r → step s = exec i (State.passTime { s with agenda := r } 1 0)) ∧
  (∀ (s : State) (a : Agent) (r : List Turn) (w : StepWords), s.agenda = .run a :: r → a.exists = true →
    let s0 : State := State.passTime { s with agenda := r } 1 0
    let q := s0.seq a
    s0.mayIssue a = true → q.run = .running → s0.waitingTrap a = none → q.heldTok = [] → q.idleUntil ≤ s0.clk → (∀ e ∈ s0.parked, e.1 ≠ a) →
    (a.isScalar = true → s0.retiringSpan (s0.slotOf a) q.pc.toNat 8 = false) → s0.fetch a = .ok w →
    let s1 := (s0.noteFetch a).dropGather a
    let iss := s1.openIssue a w
    let p := s1.seq a
    let fits (o : Instr) : Prop := ∀ n, accOf o = some n → n.toNat < s1.accsOf a
    (∀ c, decodeWord a.kind w.w0 = .error c → step s = .next (s1.stepTrap iss (illegalWord c w.w0) 0)) ∧
    (∀ i, decodeWord a.kind w.w0 = .ok i → ¬fits i → step s = .next (s1.stepTrap iss (illegalWord .overLimit w.w0) 0)) ∧
    (∀ i c, decodeWord a.kind w.w0 = .ok i → fits i → decodeWord a.kind w.w1 = .error c → step s = .next (s1.stepTrap iss (illegalWord c w.w1) 1)) ∧
    (∀ i j t, decodeWord a.kind w.w0 = .ok i → decodeWord a.kind w.w1 = .ok j → fits i → fits j → bits w.attr.toNat 7 5 = 0 →
      let stage := bits w.attr.toNat 2 0
      (∀ f, p.rotating p.pc.toNat = some f → stage < f.stages → f.index < stage ∨ f.trips ≤ f.index - stage →
        step s = .next (endStep { s1 with iss := { iss with pop := 0, sends := [] } })) ∧
      (∀ u, (∀ f, p.rotating p.pc.toNat = some f → stage < f.stages ∧ stage ≤ f.index ∧ f.index - stage < f.trips) →
        s1.startTokens a w = (true, t) →
        let first := if s1.skipsFirst a = true then Instr.nop 0 else i
        predCheck first j (entryActs a p (topOf p.stack)) p.stack.length iss.pop = none →
        (State.viewShared { t with iss := { iss with stands := first.reaches, takes := first.takesTiles } }).firstLoads = .ok u →
        (∀ v, exec first (u.inSlot 0) = .next v → v.iss.out = .done →
          (∀ x, exec j (v.inSlot 1) = .next x → step s = .next (if x.iss.out = .done then endStep x
            else if x.iss.out = .trapped ∧ x.iss.trap.isSome = true ∧ x.skipsFirst a = false then stopStep u (secondTrap u x (exec j u.beforeFirst)) [] else stopStep u x [(1, j)])) ∧
          (∀ e, exec j (v.inSlot 1) = .fault e → step s = .fault e) ∧ (∀ e, exec j (v.inSlot 1) = .refused e → step s = .refused e)) ∧
        (∀ v, exec first (u.inSlot 0) = .next v → v.iss.out ≠ .done → step s = .next (stopStep u v [(0, first), (1, j)])) ∧
        (∀ e, exec first (u.inSlot 0) = .fault e → step s = .fault e) ∧ (∀ e, exec first (u.inSlot 0) = .refused e → step s = .refused e)))) ∧
  (∀ (s : State) (c : Nat), (s.seq (.seq c 0)).pc.toNat % 8 = 0 → (s.core c).bank = none → (s.core c).kern = none →
    ∀ b, s.execBytes (s.slotOf (.seq c 0)) (s.seq (.seq c 0)).pc.toNat 8 = .ok b →
      s.fetch (.seq c 0) = .ok { w0 := .ofNat 32 (leNat (b.take 4)), w1 := .ofNat 32 (leNat ((b.drop 4).take 4)), attr := 0 })

/-- 11_page R222 and the memory of this model (log 1): every step keeps memory in its canonical form, so that equal memories are equal data. -/
def Obligations.MemoryFormKept : Prop :=
  ∀ s t : State, s.memOk → step s = .next t → t.memOk

/-- The state right after reset (04_context R94, 05_kernel R118, R120, 06_queue R141, 08_memory R174, 13_vector R262, 19_faults R396) keeps memory in its canonical form, and no context is allocated, no sequencer runs and no card waits. (That memory
reads as zero and the main side is OFF are the model's choices, logs 1 and 3.) And R115: what a core holds once a kernel is bound to it. -/
def Obligations.ResetAndBound : Prop :=
  (State.reset.memOk ∧ (∀ k a, State.reset.peek k a = 0) ∧ State.reset.mgmt.main = .off ∧ State.reset.mgmt.hbmSplit = 128 ∧
    (∀ c, let x := State.reset.ctx c
      x.st = .free ∧ x.id = 0 ∧ x.grantl = 0xFFFF ∧ x.qbackoff = 10 ∧ x.troot = 0 ∧ x.handler = 0 ∧ x.savebase = 0 ∧ x.grantv = 0 ∧ x.nftrap = 0 ∧ x.xjob = 0 ∧
      ∀ q, (x.queue q).st = .idle ∧ (x.queue q).count = 0 ∧ (x.queue q).done = 0) ∧
    (∀ a, (State.reset.seq a).run = .stopped ∧ (State.reset.seq a).pc = 0 ∧ ∀ n, (State.reset.seq a).sreg.get 0 n = 0) ∧
    (∀ c i, State.reset.chipSem c i = 0) ∧ ∀ c, (State.reset.core c).slot = none ∧ (State.reset.core c).wdog = 0 ∧ (State.reset.core c).trec = {}) ∧
  (∀ (s : State) (c slot g rank : Nat) (v : Verified),
    let t := s.bindCore c slot g rank v
    let k := t.core c
    let free (q : Seq) : Prop := q.stack = [] ∧ q.frames = [] ∧ q.fflags = 0 ∧ (∀ n, q.lc.get 0 n = 0) ∧ q.wait = none ∧ q.heldTok = []
    k.slot = some slot ∧ k.group = some g ∧ k.rank = rank ∧ k.kern = some v.image ∧ k.bank = none ∧
    (∀ i, k.tokQ.get {} i = { count := 0, depth := 15 }) ∧ k.pool = 64 ∧ (∀ n, k.sem.get 0 n = 0) ∧ (∀ n, k.live.get false n = false) ∧
    (∀ e, 1 ≤ e → let q := t.seq (.seq c e)
      q.run = .stopped ∧ q.pc = 0 ∧ free q ∧ q.base = 0 ∧ q.vtype = 0 ∧ q.patreg = 0xFAC688 ∧ q.ring = [none, none, none, none] ∧
      ∀ n, q.es.get 0 n = 0 ∧ q.asb.get 0 n = 0 ∧ q.str.get 0 n = 0) ∧
    (let q := t.seq (.seq c 0); q.run = .running ∧ q.pc = .ofNat 64 (v.image.base + v.image.codeOff + 8 * v.image.entry) ∧ free q))

/-- 12_scalar R234; 03_encoding R71: a scalar register written by an order reads back what was written at the next step, s0 reads zero whatever is written, and a write changes nothing else of the machine: no other
register, flag, memory or special register. -/
def Obligations.RegisterFrame : Prop :=
  ∀ (s : State) (d n : BitVec 5) (v : Word),
    let t := (s.wr d v).ended .done
    let next : State := { t with iss := { t.iss with old := t.cur } }
    let was : State := { s with iss := { s.iss with old := s.cur } }
    (d ≠ 0 → next.src d = v) ∧ next.src 0 = 0 ∧ (n ≠ d → next.src n = was.src n) ∧
    t = { s with seqs := t.seqs, iss := { s.iss with out := .done, keep := false } } ∧ t.cur = { s.cur with sreg := t.cur.sreg } ∧
    (∀ a, a ≠ s.iss.who → t.seq a = s.seq a) ∧ ∀ k a, t.peek k a = s.peek k a

/-- The descriptions of the orders in 12_scalar and 13_vector: orders that store nothing leave every byte of memory, every context, queue, tag, special register and other core or sequencer as it was, where they act or wait (where they
trap, R398 says what changes): a scalar order changes the record of its sequencer, and a vector order that and vector registers of its core. -/
def Obligations.NoStoreFrame : Prop :=
  ∀ (s t : State) (o : Instr) (sd sa sb : BitVec 5) (n : BitVec 6) (imm : BitVec 13) (u v : BitVec 1) (rm k : BitVec 3) (m : BitVec 2) (tok : BitVec 4) (vd va vb : BitVec 5) (base : BitVec 10) (off : BitVec 16) (far : BitVec 21),
    let scalar := [Instr.nop tok, .add sd sa sb, .sub sd sa sb, .and sd sa sb, .or sd sa sb, .xor sd sa sb, .min sd sa sb u, .max sd sa sb u, .slt sd sa sb u, .sel sd sa sb,
      .addi sd sa imm, .andi sd sa imm, .ori sd sa imm, .xori sd sa imm, .slti sd sa imm, .sltiU sd sa imm, .lis sd imm, .lsh sd imm,
      .sll sd sa sb, .srl sd sa sb, .sra sd sa sb, .sllImm sd sa n, .srlImm sd sa n, .sraImm sd sa n, .clz sd sa u, .ctz sd sa u, .popc sd sa u, .bext sd sa sb n, .bins sd sa sb n,
      .mul sd sa sb, .mulh sd sa sb u, .div sd sa sb u, .rem sd sa sb u, .fadd sd sa sb rm u, .fsub sd sa sb rm u, .fmul sd sa sb rm u, .fdiv sd sa sb rm u, .fsqrt sd sa rm u, .fma sd sa sb rm u,
      .fcvt sd sa m rm u, .peq sa sb, .pne sa sb, .plt sa sb u, .pge sa sb u, .ptrue tok, .pelse tok, .bzeq sa off, .bzne sa off, .bzlt sa off, .bzge sa off, .bzgt sa off, .bzle sa off,
      .bpt off, .bpf off, .jal sd far, .jalr sd sa, .jr sa]
    let vector := [Instr.vadd tok vd va vb u v, .vsub tok vd va vb u v, .vmul tok vd va vb u v, .vfma tok vd va vb u v, .vand tok vd va vb u v, .vor tok vd va vb u v, .vsll tok vd va vb u v,
      .vpeq tok va vb u v, .vcvt tok vd va u, .vperm tok vd va vb u v, .vredsum tok vd va k u, .vmov tok vd va u, .vsplat tok vd k, .vwin tok base, .vdead tok vd sb]
    o ∈ scalar ++ vector → exec o s = .next t → t.iss.out ≠ .trapped →
      t = { s with seqs := t.seqs, cores := t.cores, iss := t.iss, tick := t.tick } ∧ (∀ a, a ≠ s.iss.who → t.seq a = s.seq a) ∧
      (∀ c, c ≠ s.myCoreNo ∨ o ∈ scalar → t.core c = s.core c) ∧ t.myCore = { s.myCore with vreg := t.myCore.vreg, live := t.myCore.live } ∧
      t.iss.who = s.iss.who ∧ ∀ key a, t.peek key a = s.peek key a

end
end

