-- ==== Sys2Proof/Laws/State.lean ====
section
/-! SUPPORT. Maps read after a write, and for each update of the state one lemma per field and per reader. -/

namespace Sys2Proof

/-- A map read after a write. -/
theorem Map.get_set {κ α : Type} [DecidableEq κ] (m : Map κ α) (d v : α) (j k : κ) :
    (m.set j v).get d k = if j = k then v else m.get d k := by
  induction m with
  | nil => simp [Map.set, Map.get]
  | cons e r ih =>
    obtain ⟨i, u⟩ := e
    by_cases h : i = j
    · subst h; by_cases hk : i = k <;> simp [Map.set, Map.get, hk]
    · by_cases hi : i = k
      · subst hi; simp [Map.set, Map.get, h, Ne.symm h]
      · simp [Map.set, Map.get, h, hi, ih]

@[simp] theorem Map.get_set_self {κ α : Type} [DecidableEq κ] (m : Map κ α) (d v : α) (k : κ) : (m.set k v).get d k = v := by
  simp [Map.get_set]

theorem Map.get_set_ne {κ α : Type} [DecidableEq κ] (m : Map κ α) (d v : α) {j k : κ} (h : j ≠ k) : (m.set j v).get d k = m.get d k := by
  simp [Map.get_set, h]

/-- A key that is listed after a write. -/
theorem Map.has_set {κ α : Type} [DecidableEq κ] (m : Map κ α) (v : α) (j k : κ) :
    (m.set j v).has k = (decide (j = k) || m.has k) := by
  induction m with
  | nil => simp [Map.set, Map.has]
  | cons e r ih =>
    obtain ⟨i, u⟩ := e
    simp only [Map.has] at ih
    by_cases h : i = j
    · subst h; by_cases hk : i = k <;> simp [Map.set, Map.has, hk]
    · by_cases hi : i = k
      · subst hi; simp [Map.set, Map.has, h]
      · simp [Map.set, Map.has, h, hi, ih]

end Sys2Proof

namespace Sys2Proof.Machine

/-! ### setSeq -/

@[simp] theorem State.setSeq_agenda (s : State) (a : Agent) (q : Seq) : (s.setSeq a q).agenda = s.agenda := rfl
@[simp] theorem State.setSeq_tick (s : State) (a : Agent) (q : Seq) : (s.setSeq a q).tick = s.tick := rfl
@[simp] theorem State.setSeq_nextOp (s : State) (a : Agent) (q : Seq) : (s.setSeq a q).nextOp = s.nextOp := rfl
@[simp] theorem State.setSeq_clk (s : State) (a : Agent) (q : Seq) : (s.setSeq a q).clk = s.clk := rfl
@[simp] theorem State.setSeq_wall (s : State) (a : Agent) (q : Seq) : (s.setSeq a q).wall = s.wall := rfl
@[simp] theorem State.setSeq_iss (s : State) (a : Agent) (q : Seq) : (s.setSeq a q).iss = s.iss := rfl
@[simp] theorem State.setSeq_parked (s : State) (a : Agent) (q : Seq) : (s.setSeq a q).parked = s.parked := rfl
@[simp] theorem State.setSeq_mem (s : State) (a : Agent) (q : Seq) : (s.setSeq a q).mem = s.mem := rfl
@[simp] theorem State.setSeq_sect (s : State) (a : Agent) (q : Seq) : (s.setSeq a q).sect = s.sect := rfl
@[simp] theorem State.setSeq_stale (s : State) (a : Agent) (q : Seq) : (s.setSeq a q).stale = s.stale := rfl
@[simp] theorem State.setSeq_heldw (s : State) (a : Agent) (q : Seq) : (s.setSeq a q).heldw = s.heldw := rfl
@[simp] theorem State.setSeq_rpool (s : State) (a : Agent) (q : Seq) : (s.setSeq a q).rpool = s.rpool := rfl
@[simp] theorem State.setSeq_seqs (s : State) (a : Agent) (q : Seq) : (s.setSeq a q).seqs = s.seqs.set a q := rfl
@[simp] theorem State.setSeq_tags (s : State) (a : Agent) (q : Seq) : (s.setSeq a q).tags = s.tags := rfl
@[simp] theorem State.setSeq_cores (s : State) (a : Agent) (q : Seq) : (s.setSeq a q).cores = s.cores := rfl
@[simp] theorem State.setSeq_ctxs (s : State) (a : Agent) (q : Seq) : (s.setSeq a q).ctxs = s.ctxs := rfl
@[simp] theorem State.setSeq_streams (s : State) (a : Agent) (q : Seq) : (s.setSeq a q).streams = s.streams := rfl
@[simp] theorem State.setSeq_units (s : State) (a : Agent) (q : Seq) : (s.setSeq a q).units = s.units := rfl
@[simp] theorem State.setSeq_cseqs (s : State) (a : Agent) (q : Seq) : (s.setSeq a q).cseqs = s.cseqs := rfl
@[simp] theorem State.setSeq_groups (s : State) (a : Agent) (q : Seq) : (s.setSeq a q).groups = s.groups := rfl
@[simp] theorem State.setSeq_disp (s : State) (a : Agent) (q : Seq) : (s.setSeq a q).disp = s.disp := rfl
@[simp] theorem State.setSeq_atraps (s : State) (a : Agent) (q : Seq) : (s.setSeq a q).atraps = s.atraps := rfl
@[simp] theorem State.setSeq_sems (s : State) (a : Agent) (q : Seq) : (s.setSeq a q).sems = s.sems := rfl
@[simp] theorem State.setSeq_filter (s : State) (a : Agent) (q : Seq) : (s.setSeq a q).filter = s.filter := rfl
@[simp] theorem State.setSeq_caches (s : State) (a : Agent) (q : Seq) : (s.setSeq a q).caches = s.caches := rfl
@[simp] theorem State.setSeq_ringWait (s : State) (a : Agent) (q : Seq) : (s.setSeq a q).ringWait = s.ringWait := rfl
@[simp] theorem State.setSeq_mgmt (s : State) (a : Agent) (q : Seq) : (s.setSeq a q).mgmt = s.mgmt := rfl
@[simp] theorem State.setSeq_link (s : State) (a : Agent) (q : Seq) : (s.setSeq a q).link = s.link := rfl
theorem State.seq_setSeq (s : State) (a : Agent) (q : Seq) (who : Agent) : (s.setSeq a q).seq who = if a = who then q else s.seq who := Map.get_set _ _ _ _ _
@[simp] theorem State.core_setSeq (s : State) (a : Agent) (q : Seq) (d : Nat) : (s.setSeq a q).core d = s.core d := rfl
@[simp] theorem State.ctx_setSeq (s : State) (a : Agent) (q : Seq) (d : Nat) : (s.setSeq a q).ctx d = s.ctx d := rfl
@[simp] theorem State.tag_setSeq (s : State) (a : Agent) (q : Seq) (ref : TagRef) : (s.setSeq a q).tag ref = s.tag ref := rfl
@[simp] theorem State.stream_setSeq (s : State) (a : Agent) (q : Seq) (e f : Nat) : (s.setSeq a q).stream e f = s.stream e f := rfl
@[simp] theorem State.unit_setSeq (s : State) (a : Agent) (q : Seq) (e f : Nat) : (s.setSeq a q).unit e f = s.unit e f := rfl
@[simp] theorem State.cseq_setSeq (s : State) (a : Agent) (q : Seq) (e : Nat) : (s.setSeq a q).cseq e = s.cseq e := rfl
@[simp] theorem State.group_setSeq (s : State) (a : Agent) (q : Seq) (e : Nat) : (s.setSeq a q).group e = s.group e := rfl
@[simp] theorem State.peek_setSeq (s : State) (a : Agent) (q : Seq) (ek : Option KeyVal) (e : Nat) : (s.setSeq a q).peek ek e = s.peek ek e := rfl
@[simp] theorem State.seq_setSeq_self (s : State) (a : Agent) (q : Seq) : (s.setSeq a q).seq a = q := Map.get_set_self _ _ _ _

/-! ### setCore -/

@[simp] theorem State.setCore_agenda (s : State) (c : Nat) (k : Core) : (s.setCore c k).agenda = s.agenda := rfl
@[simp] theorem State.setCore_tick (s : State) (c : Nat) (k : Core) : (s.setCore c k).tick = s.tick := rfl
@[simp] theorem State.setCore_nextOp (s : State) (c : Nat) (k : Core) : (s.setCore c k).nextOp = s.nextOp := rfl
@[simp] theorem State.setCore_clk (s : State) (c : Nat) (k : Core) : (s.setCore c k).clk = s.clk := rfl
@[simp] theorem State.setCore_wall (s : State) (c : Nat) (k : Core) : (s.setCore c k).wall = s.wall := rfl
@[simp] theorem State.setCore_iss (s : State) (c : Nat) (k : Core) : (s.setCore c k).iss = s.iss := rfl
@[simp] theorem State.setCore_parked (s : State) (c : Nat) (k : Core) : (s.setCore c k).parked = s.parked := rfl
@[simp] theorem State.setCore_mem (s : State) (c : Nat) (k : Core) : (s.setCore c k).mem = s.mem := rfl
@[simp] theorem State.setCore_sect (s : State) (c : Nat) (k : Core) : (s.setCore c k).sect = s.sect := rfl
@[simp] theorem State.setCore_stale (s : State) (c : Nat) (k : Core) : (s.setCore c k).stale = s.stale := rfl
@[simp] theorem State.setCore_heldw (s : State) (c : Nat) (k : Core) : (s.setCore c k).heldw = s.heldw := rfl
@[simp] theorem State.setCore_rpool (s : State) (c : Nat) (k : Core) : (s.setCore c k).rpool = s.rpool := rfl
@[simp] theorem State.setCore_seqs (s : State) (c : Nat) (k : Core) : (s.setCore c k).seqs = s.seqs := rfl
@[simp] theorem State.setCore_tags (s : State) (c : Nat) (k : Core) : (s.setCore c k).tags = s.tags := rfl
@[simp] theorem State.setCore_cores (s : State) (c : Nat) (k : Core) : (s.setCore c k).cores = s.cores.set c k := rfl
@[simp] theorem State.setCore_ctxs (s : State) (c : Nat) (k : Core) : (s.setCore c k).ctxs = s.ctxs := rfl
@[simp] theorem State.setCore_streams (s : State) (c : Nat) (k : Core) : (s.setCore c k).streams = s.streams := rfl
@[simp] theorem State.setCore_units (s : State) (c : Nat) (k : Core) : (s.setCore c k).units = s.units := rfl
@[simp] theorem State.setCore_cseqs (s : State) (c : Nat) (k : Core) : (s.setCore c k).cseqs = s.cseqs := rfl
@[simp] theorem State.setCore_groups (s : State) (c : Nat) (k : Core) : (s.setCore c k).groups = s.groups := rfl
@[simp] theorem State.setCore_disp (s : State) (c : Nat) (k : Core) : (s.setCore c k).disp = s.disp := rfl
@[simp] theorem State.setCore_atraps (s : State) (c : Nat) (k : Core) : (s.setCore c k).atraps = s.atraps := rfl
@[simp] theorem State.setCore_sems (s : State) (c : Nat) (k : Core) : (s.setCore c k).sems = s.sems := rfl
@[simp] theorem State.setCore_filter (s : State) (c : Nat) (k : Core) : (s.setCore c k).filter = s.filter := rfl
@[simp] theorem State.setCore_caches (s : State) (c : Nat) (k : Core) : (s.setCore c k).caches = s.caches := rfl
@[simp] theorem State.setCore_ringWait (s : State) (c : Nat) (k : Core) : (s.setCore c k).ringWait = s.ringWait := rfl
@[simp] theorem State.setCore_mgmt (s : State) (c : Nat) (k : Core) : (s.setCore c k).mgmt = s.mgmt := rfl
@[simp] theorem State.setCore_link (s : State) (c : Nat) (k : Core) : (s.setCore c k).link = s.link := rfl
@[simp] theorem State.seq_setCore (s : State) (c : Nat) (k : Core) (who : Agent) : (s.setCore c k).seq who = s.seq who := rfl
theorem State.core_setCore (s : State) (c : Nat) (k : Core) (d : Nat) : (s.setCore c k).core d = if c = d then k else s.core d := Map.get_set _ _ _ _ _
@[simp] theorem State.ctx_setCore (s : State) (c : Nat) (k : Core) (d : Nat) : (s.setCore c k).ctx d = s.ctx d := rfl
@[simp] theorem State.tag_setCore (s : State) (c : Nat) (k : Core) (ref : TagRef) : (s.setCore c k).tag ref = s.tag ref := rfl
@[simp] theorem State.stream_setCore (s : State) (c : Nat) (k : Core) (e f : Nat) : (s.setCore c k).stream e f = s.stream e f := rfl
@[simp] theorem State.unit_setCore (s : State) (c : Nat) (k : Core) (e f : Nat) : (s.setCore c k).unit e f = s.unit e f := rfl
@[simp] theorem State.cseq_setCore (s : State) (c : Nat) (k : Core) (e : Nat) : (s.setCore c k).cseq e = s.cseq e := rfl
@[simp] theorem State.group_setCore (s : State) (c : Nat) (k : Core) (e : Nat) : (s.setCore c k).group e = s.group e := rfl
@[simp] theorem State.peek_setCore (s : State) (c : Nat) (k : Core) (ek : Option KeyVal) (e : Nat) : (s.setCore c k).peek ek e = s.peek ek e := rfl
@[simp] theorem State.core_setCore_self (s : State) (c : Nat) (k : Core) : (s.setCore c k).core c = k := Map.get_set_self _ _ _ _

/-! ### setCtx -/

@[simp] theorem State.setCtx_agenda (s : State) (c : Nat) (x : Ctx) : (s.setCtx c x).agenda = s.agenda := rfl
@[simp] theorem State.setCtx_tick (s : State) (c : Nat) (x : Ctx) : (s.setCtx c x).tick = s.tick := rfl
@[simp] theorem State.setCtx_nextOp (s : State) (c : Nat) (x : Ctx) : (s.setCtx c x).nextOp = s.nextOp := rfl
@[simp] theorem State.setCtx_clk (s : State) (c : Nat) (x : Ctx) : (s.setCtx c x).clk = s.clk := rfl
@[simp] theorem State.setCtx_wall (s : State) (c : Nat) (x : Ctx) : (s.setCtx c x).wall = s.wall := rfl
@[simp] theorem State.setCtx_iss (s : State) (c : Nat) (x : Ctx) : (s.setCtx c x).iss = s.iss := rfl
@[simp] theorem State.setCtx_parked (s : State) (c : Nat) (x : Ctx) : (s.setCtx c x).parked = s.parked := rfl
@[simp] theorem State.setCtx_mem (s : State) (c : Nat) (x : Ctx) : (s.setCtx c x).mem = s.mem := rfl
@[simp] theorem State.setCtx_sect (s : State) (c : Nat) (x : Ctx) : (s.setCtx c x).sect = s.sect := rfl
@[simp] theorem State.setCtx_stale (s : State) (c : Nat) (x : Ctx) : (s.setCtx c x).stale = s.stale := rfl
@[simp] theorem State.setCtx_heldw (s : State) (c : Nat) (x : Ctx) : (s.setCtx c x).heldw = s.heldw := rfl
@[simp] theorem State.setCtx_rpool (s : State) (c : Nat) (x : Ctx) : (s.setCtx c x).rpool = s.rpool := rfl
@[simp] theorem State.setCtx_seqs (s : State) (c : Nat) (x : Ctx) : (s.setCtx c x).seqs = s.seqs := rfl
@[simp] theorem State.setCtx_tags (s : State) (c : Nat) (x : Ctx) : (s.setCtx c x).tags = s.tags := rfl
@[simp] theorem State.setCtx_cores (s : State) (c : Nat) (x : Ctx) : (s.setCtx c x).cores = s.cores := rfl
@[simp] theorem State.setCtx_ctxs (s : State) (c : Nat) (x : Ctx) : (s.setCtx c x).ctxs = s.ctxs.set c x := rfl
@[simp] theorem State.setCtx_streams (s : State) (c : Nat) (x : Ctx) : (s.setCtx c x).streams = s.streams := rfl
@[simp] theorem State.setCtx_units (s : State) (c : Nat) (x : Ctx) : (s.setCtx c x).units = s.units := rfl
@[simp] theorem State.setCtx_cseqs (s : State) (c : Nat) (x : Ctx) : (s.setCtx c x).cseqs = s.cseqs := rfl
@[simp] theorem State.setCtx_groups (s : State) (c : Nat) (x : Ctx) : (s.setCtx c x).groups = s.groups := rfl
@[simp] theorem State.setCtx_disp (s : State) (c : Nat) (x : Ctx) : (s.setCtx c x).disp = s.disp := rfl
@[simp] theorem State.setCtx_atraps (s : State) (c : Nat) (x : Ctx) : (s.setCtx c x).atraps = s.atraps := rfl
@[simp] theorem State.setCtx_sems (s : State) (c : Nat) (x : Ctx) : (s.setCtx c x).sems = s.sems := rfl
@[simp] theorem State.setCtx_filter (s : State) (c : Nat) (x : Ctx) : (s.setCtx c x).filter = s.filter := rfl
@[simp] theorem State.setCtx_caches (s : State) (c : Nat) (x : Ctx) : (s.setCtx c x).caches = s.caches := rfl
@[simp] theorem State.setCtx_ringWait (s : State) (c : Nat) (x : Ctx) : (s.setCtx c x).ringWait = s.ringWait := rfl
@[simp] theorem State.setCtx_mgmt (s : State) (c : Nat) (x : Ctx) : (s.setCtx c x).mgmt = s.mgmt := rfl
@[simp] theorem State.setCtx_link (s : State) (c : Nat) (x : Ctx) : (s.setCtx c x).link = s.link := rfl
@[simp] theorem State.seq_setCtx (s : State) (c : Nat) (x : Ctx) (who : Agent) : (s.setCtx c x).seq who = s.seq who := rfl
@[simp] theorem State.core_setCtx (s : State) (c : Nat) (x : Ctx) (d : Nat) : (s.setCtx c x).core d = s.core d := rfl
theorem State.ctx_setCtx (s : State) (c : Nat) (x : Ctx) (d : Nat) : (s.setCtx c x).ctx d = if c = d then x else s.ctx d := Map.get_set _ _ _ _ _
@[simp] theorem State.tag_setCtx (s : State) (c : Nat) (x : Ctx) (ref : TagRef) : (s.setCtx c x).tag ref = s.tag ref := rfl
@[simp] theorem State.stream_setCtx (s : State) (c : Nat) (x : Ctx) (e f : Nat) : (s.setCtx c x).stream e f = s.stream e f := rfl
@[simp] theorem State.unit_setCtx (s : State) (c : Nat) (x : Ctx) (e f : Nat) : (s.setCtx c x).unit e f = s.unit e f := rfl
@[simp] theorem State.cseq_setCtx (s : State) (c : Nat) (x : Ctx) (e : Nat) : (s.setCtx c x).cseq e = s.cseq e := rfl
@[simp] theorem State.group_setCtx (s : State) (c : Nat) (x : Ctx) (e : Nat) : (s.setCtx c x).group e = s.group e := rfl
@[simp] theorem State.peek_setCtx (s : State) (c : Nat) (x : Ctx) (ek : Option KeyVal) (e : Nat) : (s.setCtx c x).peek ek e = s.peek ek e := rfl
@[simp] theorem State.ctx_setCtx_self (s : State) (c : Nat) (x : Ctx) : (s.setCtx c x).ctx c = x := Map.get_set_self _ _ _ _

/-! ### setTag -/

@[simp] theorem State.setTag_agenda (s : State) (t : TagRef) (g : Tag) : (s.setTag t g).agenda = s.agenda := rfl
@[simp] theorem State.setTag_tick (s : State) (t : TagRef) (g : Tag) : (s.setTag t g).tick = s.tick := rfl
@[simp] theorem State.setTag_nextOp (s : State) (t : TagRef) (g : Tag) : (s.setTag t g).nextOp = s.nextOp := rfl
@[simp] theorem State.setTag_clk (s : State) (t : TagRef) (g : Tag) : (s.setTag t g).clk = s.clk := rfl
@[simp] theorem State.setTag_wall (s : State) (t : TagRef) (g : Tag) : (s.setTag t g).wall = s.wall := rfl
@[simp] theorem State.setTag_iss (s : State) (t : TagRef) (g : Tag) : (s.setTag t g).iss = s.iss := rfl
@[simp] theorem State.setTag_parked (s : State) (t : TagRef) (g : Tag) : (s.setTag t g).parked = s.parked := rfl
@[simp] theorem State.setTag_mem (s : State) (t : TagRef) (g : Tag) : (s.setTag t g).mem = s.mem := rfl
@[simp] theorem State.setTag_sect (s : State) (t : TagRef) (g : Tag) : (s.setTag t g).sect = s.sect := rfl
@[simp] theorem State.setTag_stale (s : State) (t : TagRef) (g : Tag) : (s.setTag t g).stale = s.stale := rfl
@[simp] theorem State.setTag_heldw (s : State) (t : TagRef) (g : Tag) : (s.setTag t g).heldw = s.heldw := rfl
@[simp] theorem State.setTag_rpool (s : State) (t : TagRef) (g : Tag) : (s.setTag t g).rpool = s.rpool := rfl
@[simp] theorem State.setTag_seqs (s : State) (t : TagRef) (g : Tag) : (s.setTag t g).seqs = s.seqs := rfl
@[simp] theorem State.setTag_tags (s : State) (t : TagRef) (g : Tag) : (s.setTag t g).tags = s.tags.set t g := rfl
@[simp] theorem State.setTag_cores (s : State) (t : TagRef) (g : Tag) : (s.setTag t g).cores = s.cores := rfl
@[simp] theorem State.setTag_ctxs (s : State) (t : TagRef) (g : Tag) : (s.setTag t g).ctxs = s.ctxs := rfl
@[simp] theorem State.setTag_streams (s : State) (t : TagRef) (g : Tag) : (s.setTag t g).streams = s.streams := rfl
@[simp] theorem State.setTag_units (s : State) (t : TagRef) (g : Tag) : (s.setTag t g).units = s.units := rfl
@[simp] theorem State.setTag_cseqs (s : State) (t : TagRef) (g : Tag) : (s.setTag t g).cseqs = s.cseqs := rfl
@[simp] theorem State.setTag_groups (s : State) (t : TagRef) (g : Tag) : (s.setTag t g).groups = s.groups := rfl
@[simp] theorem State.setTag_disp (s : State) (t : TagRef) (g : Tag) : (s.setTag t g).disp = s.disp := rfl
@[simp] theorem State.setTag_atraps (s : State) (t : TagRef) (g : Tag) : (s.setTag t g).atraps = s.atraps := rfl
@[simp] theorem State.setTag_sems (s : State) (t : TagRef) (g : Tag) : (s.setTag t g).sems = s.sems := rfl
@[simp] theorem State.setTag_filter (s : State) (t : TagRef) (g : Tag) : (s.setTag t g).filter = s.filter := rfl
@[simp] theorem State.setTag_caches (s : State) (t : TagRef) (g : Tag) : (s.setTag t g).caches = s.caches := rfl
@[simp] theorem State.setTag_ringWait (s : State) (t : TagRef) (g : Tag) : (s.setTag t g).ringWait = s.ringWait := rfl
@[simp] theorem State.setTag_mgmt (s : State) (t : TagRef) (g : Tag) : (s.setTag t g).mgmt = s.mgmt := rfl
@[simp] theorem State.setTag_link (s : State) (t : TagRef) (g : Tag) : (s.setTag t g).link = s.link := rfl
@[simp] theorem State.seq_setTag (s : State) (t : TagRef) (g : Tag) (who : Agent) : (s.setTag t g).seq who = s.seq who := rfl
@[simp] theorem State.core_setTag (s : State) (t : TagRef) (g : Tag) (d : Nat) : (s.setTag t g).core d = s.core d := rfl
@[simp] theorem State.ctx_setTag (s : State) (t : TagRef) (g : Tag) (d : Nat) : (s.setTag t g).ctx d = s.ctx d := rfl
theorem State.tag_setTag (s : State) (t : TagRef) (g : Tag) (ref : TagRef) : (s.setTag t g).tag ref = if t = ref then g else s.tag ref := Map.get_set _ _ _ _ _
@[simp] theorem State.stream_setTag (s : State) (t : TagRef) (g : Tag) (e f : Nat) : (s.setTag t g).stream e f = s.stream e f := rfl
@[simp] theorem State.unit_setTag (s : State) (t : TagRef) (g : Tag) (e f : Nat) : (s.setTag t g).unit e f = s.unit e f := rfl
@[simp] theorem State.cseq_setTag (s : State) (t : TagRef) (g : Tag) (e : Nat) : (s.setTag t g).cseq e = s.cseq e := rfl
@[simp] theorem State.group_setTag (s : State) (t : TagRef) (g : Tag) (e : Nat) : (s.setTag t g).group e = s.group e := rfl
@[simp] theorem State.peek_setTag (s : State) (t : TagRef) (g : Tag) (ek : Option KeyVal) (e : Nat) : (s.setTag t g).peek ek e = s.peek ek e := rfl
@[simp] theorem State.tag_setTag_self (s : State) (t : TagRef) (g : Tag) : (s.setTag t g).tag t = g := Map.get_set_self _ _ _ _

/-! ### setStream -/

@[simp] theorem State.setStream_agenda (s : State) (p k : Nat) (r : Stream) : (s.setStream p k r).agenda = s.agenda := rfl
@[simp] theorem State.setStream_tick (s : State) (p k : Nat) (r : Stream) : (s.setStream p k r).tick = s.tick := rfl
@[simp] theorem State.setStream_nextOp (s : State) (p k : Nat) (r : Stream) : (s.setStream p k r).nextOp = s.nextOp := rfl
@[simp] theorem State.setStream_clk (s : State) (p k : Nat) (r : Stream) : (s.setStream p k r).clk = s.clk := rfl
@[simp] theorem State.setStream_wall (s : State) (p k : Nat) (r : Stream) : (s.setStream p k r).wall = s.wall := rfl
@[simp] theorem State.setStream_iss (s : State) (p k : Nat) (r : Stream) : (s.setStream p k r).iss = s.iss := rfl
@[simp] theorem State.setStream_parked (s : State) (p k : Nat) (r : Stream) : (s.setStream p k r).parked = s.parked := rfl
@[simp] theorem State.setStream_mem (s : State) (p k : Nat) (r : Stream) : (s.setStream p k r).mem = s.mem := rfl
@[simp] theorem State.setStream_sect (s : State) (p k : Nat) (r : Stream) : (s.setStream p k r).sect = s.sect := rfl
@[simp] theorem State.setStream_stale (s : State) (p k : Nat) (r : Stream) : (s.setStream p k r).stale = s.stale := rfl
@[simp] theorem State.setStream_heldw (s : State) (p k : Nat) (r : Stream) : (s.setStream p k r).heldw = s.heldw := rfl
@[simp] theorem State.setStream_rpool (s : State) (p k : Nat) (r : Stream) : (s.setStream p k r).rpool = s.rpool := rfl
@[simp] theorem State.setStream_seqs (s : State) (p k : Nat) (r : Stream) : (s.setStream p k r).seqs = s.seqs := rfl
@[simp] theorem State.setStream_tags (s : State) (p k : Nat) (r : Stream) : (s.setStream p k r).tags = s.tags := rfl
@[simp] theorem State.setStream_cores (s : State) (p k : Nat) (r : Stream) : (s.setStream p k r).cores = s.cores := rfl
@[simp] theorem State.setStream_ctxs (s : State) (p k : Nat) (r : Stream) : (s.setStream p k r).ctxs = s.ctxs := rfl
@[simp] theorem State.setStream_streams (s : State) (p k : Nat) (r : Stream) : (s.setStream p k r).streams = s.streams.set (p, k) r := rfl
@[simp] theorem State.setStream_units (s : State) (p k : Nat) (r : Stream) : (s.setStream p k r).units = s.units := rfl
@[simp] theorem State.setStream_cseqs (s : State) (p k : Nat) (r : Stream) : (s.setStream p k r).cseqs = s.cseqs := rfl
@[simp] theorem State.setStream_groups (s : State) (p k : Nat) (r : Stream) : (s.setStream p k r).groups = s.groups := rfl
@[simp] theorem State.setStream_disp (s : State) (p k : Nat) (r : Stream) : (s.setStream p k r).disp = s.disp := rfl
@[simp] theorem State.setStream_atraps (s : State) (p k : Nat) (r : Stream) : (s.setStream p k r).atraps = s.atraps := rfl
@[simp] theorem State.setStream_sems (s : State) (p k : Nat) (r : Stream) : (s.setStream p k r).sems = s.sems := rfl
@[simp] theorem State.setStream_filter (s : State) (p k : Nat) (r : Stream) : (s.setStream p k r).filter = s.filter := rfl
@[simp] theorem State.setStream_caches (s : State) (p k : Nat) (r : Stream) : (s.setStream p k r).caches = s.caches := rfl
@[simp] theorem State.setStream_ringWait (s : State) (p k : Nat) (r : Stream) : (s.setStream p k r).ringWait = s.ringWait := rfl
@[simp] theorem State.setStream_mgmt (s : State) (p k : Nat) (r : Stream) : (s.setStream p k r).mgmt = s.mgmt := rfl
@[simp] theorem State.setStream_link (s : State) (p k : Nat) (r : Stream) : (s.setStream p k r).link = s.link := rfl
@[simp] theorem State.seq_setStream (s : State) (p k : Nat) (r : Stream) (who : Agent) : (s.setStream p k r).seq who = s.seq who := rfl
@[simp] theorem State.core_setStream (s : State) (p k : Nat) (r : Stream) (d : Nat) : (s.setStream p k r).core d = s.core d := rfl
@[simp] theorem State.ctx_setStream (s : State) (p k : Nat) (r : Stream) (d : Nat) : (s.setStream p k r).ctx d = s.ctx d := rfl
@[simp] theorem State.tag_setStream (s : State) (p k : Nat) (r : Stream) (ref : TagRef) : (s.setStream p k r).tag ref = s.tag ref := rfl
theorem State.stream_setStream (s : State) (p k : Nat) (r : Stream) (e f : Nat) : (s.setStream p k r).stream e f = if (p, k) = (e, f) then r else s.stream e f := Map.get_set _ _ _ _ _
@[simp] theorem State.unit_setStream (s : State) (p k : Nat) (r : Stream) (e f : Nat) : (s.setStream p k r).unit e f = s.unit e f := rfl
@[simp] theorem State.cseq_setStream (s : State) (p k : Nat) (r : Stream) (e : Nat) : (s.setStream p k r).cseq e = s.cseq e := rfl
@[simp] theorem State.group_setStream (s : State) (p k : Nat) (r : Stream) (e : Nat) : (s.setStream p k r).group e = s.group e := rfl
@[simp] theorem State.peek_setStream (s : State) (p k : Nat) (r : Stream) (ek : Option KeyVal) (e : Nat) : (s.setStream p k r).peek ek e = s.peek ek e := rfl
@[simp] theorem State.stream_setStream_self (s : State) (p k : Nat) (r : Stream) : (s.setStream p k r).stream p k = r := Map.get_set_self _ _ _ _

/-! ### setUnit -/

@[simp] theorem State.setUnit_agenda (s : State) (p u : Nat) (r : PoolUnit) : (s.setUnit p u r).agenda = s.agenda := rfl
@[simp] theorem State.setUnit_tick (s : State) (p u : Nat) (r : PoolUnit) : (s.setUnit p u r).tick = s.tick := rfl
@[simp] theorem State.setUnit_nextOp (s : State) (p u : Nat) (r : PoolUnit) : (s.setUnit p u r).nextOp = s.nextOp := rfl
@[simp] theorem State.setUnit_clk (s : State) (p u : Nat) (r : PoolUnit) : (s.setUnit p u r).clk = s.clk := rfl
@[simp] theorem State.setUnit_wall (s : State) (p u : Nat) (r : PoolUnit) : (s.setUnit p u r).wall = s.wall := rfl
@[simp] theorem State.setUnit_iss (s : State) (p u : Nat) (r : PoolUnit) : (s.setUnit p u r).iss = s.iss := rfl
@[simp] theorem State.setUnit_parked (s : State) (p u : Nat) (r : PoolUnit) : (s.setUnit p u r).parked = s.parked := rfl
@[simp] theorem State.setUnit_mem (s : State) (p u : Nat) (r : PoolUnit) : (s.setUnit p u r).mem = s.mem := rfl
@[simp] theorem State.setUnit_sect (s : State) (p u : Nat) (r : PoolUnit) : (s.setUnit p u r).sect = s.sect := rfl
@[simp] theorem State.setUnit_stale (s : State) (p u : Nat) (r : PoolUnit) : (s.setUnit p u r).stale = s.stale := rfl
@[simp] theorem State.setUnit_heldw (s : State) (p u : Nat) (r : PoolUnit) : (s.setUnit p u r).heldw = s.heldw := rfl
@[simp] theorem State.setUnit_rpool (s : State) (p u : Nat) (r : PoolUnit) : (s.setUnit p u r).rpool = s.rpool := rfl
@[simp] theorem State.setUnit_seqs (s : State) (p u : Nat) (r : PoolUnit) : (s.setUnit p u r).seqs = s.seqs := rfl
@[simp] theorem State.setUnit_tags (s : State) (p u : Nat) (r : PoolUnit) : (s.setUnit p u r).tags = s.tags := rfl
@[simp] theorem State.setUnit_cores (s : State) (p u : Nat) (r : PoolUnit) : (s.setUnit p u r).cores = s.cores := rfl
@[simp] theorem State.setUnit_ctxs (s : State) (p u : Nat) (r : PoolUnit) : (s.setUnit p u r).ctxs = s.ctxs := rfl
@[simp] theorem State.setUnit_streams (s : State) (p u : Nat) (r : PoolUnit) : (s.setUnit p u r).streams = s.streams := rfl
@[simp] theorem State.setUnit_units (s : State) (p u : Nat) (r : PoolUnit) : (s.setUnit p u r).units = s.units.set (p, u) r := rfl
@[simp] theorem State.setUnit_cseqs (s : State) (p u : Nat) (r : PoolUnit) : (s.setUnit p u r).cseqs = s.cseqs := rfl
@[simp] theorem State.setUnit_groups (s : State) (p u : Nat) (r : PoolUnit) : (s.setUnit p u r).groups = s.groups := rfl
@[simp] theorem State.setUnit_disp (s : State) (p u : Nat) (r : PoolUnit) : (s.setUnit p u r).disp = s.disp := rfl
@[simp] theorem State.setUnit_atraps (s : State) (p u : Nat) (r : PoolUnit) : (s.setUnit p u r).atraps = s.atraps := rfl
@[simp] theorem State.setUnit_sems (s : State) (p u : Nat) (r : PoolUnit) : (s.setUnit p u r).sems = s.sems := rfl
@[simp] theorem State.setUnit_filter (s : State) (p u : Nat) (r : PoolUnit) : (s.setUnit p u r).filter = s.filter := rfl
@[simp] theorem State.setUnit_caches (s : State) (p u : Nat) (r : PoolUnit) : (s.setUnit p u r).caches = s.caches := rfl
@[simp] theorem State.setUnit_ringWait (s : State) (p u : Nat) (r : PoolUnit) : (s.setUnit p u r).ringWait = s.ringWait := rfl
@[simp] theorem State.setUnit_mgmt (s : State) (p u : Nat) (r : PoolUnit) : (s.setUnit p u r).mgmt = s.mgmt := rfl
@[simp] theorem State.setUnit_link (s : State) (p u : Nat) (r : PoolUnit) : (s.setUnit p u r).link = s.link := rfl
@[simp] theorem State.seq_setUnit (s : State) (p u : Nat) (r : PoolUnit) (who : Agent) : (s.setUnit p u r).seq who = s.seq who := rfl
@[simp] theorem State.core_setUnit (s : State) (p u : Nat) (r : PoolUnit) (d : Nat) : (s.setUnit p u r).core d = s.core d := rfl
@[simp] theorem State.ctx_setUnit (s : State) (p u : Nat) (r : PoolUnit) (d : Nat) : (s.setUnit p u r).ctx d = s.ctx d := rfl
@[simp] theorem State.tag_setUnit (s : State) (p u : Nat) (r : PoolUnit) (ref : TagRef) : (s.setUnit p u r).tag ref = s.tag ref := rfl
@[simp] theorem State.stream_setUnit (s : State) (p u : Nat) (r : PoolUnit) (e f : Nat) : (s.setUnit p u r).stream e f = s.stream e f := rfl
theorem State.unit_setUnit (s : State) (p u : Nat) (r : PoolUnit) (e f : Nat) : (s.setUnit p u r).unit e f = if (p, u) = (e, f) then r else s.unit e f := Map.get_set _ _ _ _ _
@[simp] theorem State.cseq_setUnit (s : State) (p u : Nat) (r : PoolUnit) (e : Nat) : (s.setUnit p u r).cseq e = s.cseq e := rfl
@[simp] theorem State.group_setUnit (s : State) (p u : Nat) (r : PoolUnit) (e : Nat) : (s.setUnit p u r).group e = s.group e := rfl
@[simp] theorem State.peek_setUnit (s : State) (p u : Nat) (r : PoolUnit) (ek : Option KeyVal) (e : Nat) : (s.setUnit p u r).peek ek e = s.peek ek e := rfl
@[simp] theorem State.unit_setUnit_self (s : State) (p u : Nat) (r : PoolUnit) : (s.setUnit p u r).unit p u = r := Map.get_set_self _ _ _ _

/-! ### setCseq -/

@[simp] theorem State.setCseq_agenda (s : State) (n : Nat) (r : CopySeq) : (s.setCseq n r).agenda = s.agenda := rfl
@[simp] theorem State.setCseq_tick (s : State) (n : Nat) (r : CopySeq) : (s.setCseq n r).tick = s.tick := rfl
@[simp] theorem State.setCseq_nextOp (s : State) (n : Nat) (r : CopySeq) : (s.setCseq n r).nextOp = s.nextOp := rfl
@[simp] theorem State.setCseq_clk (s : State) (n : Nat) (r : CopySeq) : (s.setCseq n r).clk = s.clk := rfl
@[simp] theorem State.setCseq_wall (s : State) (n : Nat) (r : CopySeq) : (s.setCseq n r).wall = s.wall := rfl
@[simp] theorem State.setCseq_iss (s : State) (n : Nat) (r : CopySeq) : (s.setCseq n r).iss = s.iss := rfl
@[simp] theorem State.setCseq_parked (s : State) (n : Nat) (r : CopySeq) : (s.setCseq n r).parked = s.parked := rfl
@[simp] theorem State.setCseq_mem (s : State) (n : Nat) (r : CopySeq) : (s.setCseq n r).mem = s.mem := rfl
@[simp] theorem State.setCseq_sect (s : State) (n : Nat) (r : CopySeq) : (s.setCseq n r).sect = s.sect := rfl
@[simp] theorem State.setCseq_stale (s : State) (n : Nat) (r : CopySeq) : (s.setCseq n r).stale = s.stale := rfl
@[simp] theorem State.setCseq_heldw (s : State) (n : Nat) (r : CopySeq) : (s.setCseq n r).heldw = s.heldw := rfl
@[simp] theorem State.setCseq_rpool (s : State) (n : Nat) (r : CopySeq) : (s.setCseq n r).rpool = s.rpool := rfl
@[simp] theorem State.setCseq_seqs (s : State) (n : Nat) (r : CopySeq) : (s.setCseq n r).seqs = s.seqs := rfl
@[simp] theorem State.setCseq_tags (s : State) (n : Nat) (r : CopySeq) : (s.setCseq n r).tags = s.tags := rfl
@[simp] theorem State.setCseq_cores (s : State) (n : Nat) (r : CopySeq) : (s.setCseq n r).cores = s.cores := rfl
@[simp] theorem State.setCseq_ctxs (s : State) (n : Nat) (r : CopySeq) : (s.setCseq n r).ctxs = s.ctxs := rfl
@[simp] theorem State.setCseq_streams (s : State) (n : Nat) (r : CopySeq) : (s.setCseq n r).streams = s.streams := rfl
@[simp] theorem State.setCseq_units (s : State) (n : Nat) (r : CopySeq) : (s.setCseq n r).units = s.units := rfl
@[simp] theorem State.setCseq_cseqs (s : State) (n : Nat) (r : CopySeq) : (s.setCseq n r).cseqs = s.cseqs.set n r := rfl
@[simp] theorem State.setCseq_groups (s : State) (n : Nat) (r : CopySeq) : (s.setCseq n r).groups = s.groups := rfl
@[simp] theorem State.setCseq_disp (s : State) (n : Nat) (r : CopySeq) : (s.setCseq n r).disp = s.disp := rfl
@[simp] theorem State.setCseq_atraps (s : State) (n : Nat) (r : CopySeq) : (s.setCseq n r).atraps = s.atraps := rfl
@[simp] theorem State.setCseq_sems (s : State) (n : Nat) (r : CopySeq) : (s.setCseq n r).sems = s.sems := rfl
@[simp] theorem State.setCseq_filter (s : State) (n : Nat) (r : CopySeq) : (s.setCseq n r).filter = s.filter := rfl
@[simp] theorem State.setCseq_caches (s : State) (n : Nat) (r : CopySeq) : (s.setCseq n r).caches = s.caches := rfl
@[simp] theorem State.setCseq_ringWait (s : State) (n : Nat) (r : CopySeq) : (s.setCseq n r).ringWait = s.ringWait := rfl
@[simp] theorem State.setCseq_mgmt (s : State) (n : Nat) (r : CopySeq) : (s.setCseq n r).mgmt = s.mgmt := rfl
@[simp] theorem State.setCseq_link (s : State) (n : Nat) (r : CopySeq) : (s.setCseq n r).link = s.link := rfl
@[simp] theorem State.seq_setCseq (s : State) (n : Nat) (r : CopySeq) (who : Agent) : (s.setCseq n r).seq who = s.seq who := rfl
@[simp] theorem State.core_setCseq (s : State) (n : Nat) (r : CopySeq) (d : Nat) : (s.setCseq n r).core d = s.core d := rfl
@[simp] theorem State.ctx_setCseq (s : State) (n : Nat) (r : CopySeq) (d : Nat) : (s.setCseq n r).ctx d = s.ctx d := rfl
@[simp] theorem State.tag_setCseq (s : State) (n : Nat) (r : CopySeq) (ref : TagRef) : (s.setCseq n r).tag ref = s.tag ref := rfl
@[simp] theorem State.stream_setCseq (s : State) (n : Nat) (r : CopySeq) (e f : Nat) : (s.setCseq n r).stream e f = s.stream e f := rfl
@[simp] theorem State.unit_setCseq (s : State) (n : Nat) (r : CopySeq) (e f : Nat) : (s.setCseq n r).unit e f = s.unit e f := rfl
theorem State.cseq_setCseq (s : State) (n : Nat) (r : CopySeq) (e : Nat) : (s.setCseq n r).cseq e = if n = e then r else s.cseq e := Map.get_set _ _ _ _ _
@[simp] theorem State.group_setCseq (s : State) (n : Nat) (r : CopySeq) (e : Nat) : (s.setCseq n r).group e = s.group e := rfl
@[simp] theorem State.peek_setCseq (s : State) (n : Nat) (r : CopySeq) (ek : Option KeyVal) (e : Nat) : (s.setCseq n r).peek ek e = s.peek ek e := rfl
@[simp] theorem State.cseq_setCseq_self (s : State) (n : Nat) (r : CopySeq) : (s.setCseq n r).cseq n = r := Map.get_set_self _ _ _ _

/-! ### setGroup -/

@[simp] theorem State.setGroup_agenda (s : State) (g : Nat) (r : Group) : (s.setGroup g r).agenda = s.agenda := rfl
@[simp] theorem State.setGroup_tick (s : State) (g : Nat) (r : Group) : (s.setGroup g r).tick = s.tick := rfl
@[simp] theorem State.setGroup_nextOp (s : State) (g : Nat) (r : Group) : (s.setGroup g r).nextOp = s.nextOp := rfl
@[simp] theorem State.setGroup_clk (s : State) (g : Nat) (r : Group) : (s.setGroup g r).clk = s.clk := rfl
@[simp] theorem State.setGroup_wall (s : State) (g : Nat) (r : Group) : (s.setGroup g r).wall = s.wall := rfl
@[simp] theorem State.setGroup_iss (s : State) (g : Nat) (r : Group) : (s.setGroup g r).iss = s.iss := rfl
@[simp] theorem State.setGroup_parked (s : State) (g : Nat) (r : Group) : (s.setGroup g r).parked = s.parked := rfl
@[simp] theorem State.setGroup_mem (s : State) (g : Nat) (r : Group) : (s.setGroup g r).mem = s.mem := rfl
@[simp] theorem State.setGroup_sect (s : State) (g : Nat) (r : Group) : (s.setGroup g r).sect = s.sect := rfl
@[simp] theorem State.setGroup_stale (s : State) (g : Nat) (r : Group) : (s.setGroup g r).stale = s.stale := rfl
@[simp] theorem State.setGroup_heldw (s : State) (g : Nat) (r : Group) : (s.setGroup g r).heldw = s.heldw := rfl
@[simp] theorem State.setGroup_rpool (s : State) (g : Nat) (r : Group) : (s.setGroup g r).rpool = s.rpool := rfl
@[simp] theorem State.setGroup_seqs (s : State) (g : Nat) (r : Group) : (s.setGroup g r).seqs = s.seqs := rfl
@[simp] theorem State.setGroup_tags (s : State) (g : Nat) (r : Group) : (s.setGroup g r).tags = s.tags := rfl
@[simp] theorem State.setGroup_cores (s : State) (g : Nat) (r : Group) : (s.setGroup g r).cores = s.cores := rfl
@[simp] theorem State.setGroup_ctxs (s : State) (g : Nat) (r : Group) : (s.setGroup g r).ctxs = s.ctxs := rfl
@[simp] theorem State.setGroup_streams (s : State) (g : Nat) (r : Group) : (s.setGroup g r).streams = s.streams := rfl
@[simp] theorem State.setGroup_units (s : State) (g : Nat) (r : Group) : (s.setGroup g r).units = s.units := rfl
@[simp] theorem State.setGroup_cseqs (s : State) (g : Nat) (r : Group) : (s.setGroup g r).cseqs = s.cseqs := rfl
@[simp] theorem State.setGroup_groups (s : State) (g : Nat) (r : Group) : (s.setGroup g r).groups = s.groups.set g r := rfl
@[simp] theorem State.setGroup_disp (s : State) (g : Nat) (r : Group) : (s.setGroup g r).disp = s.disp := rfl
@[simp] theorem State.setGroup_atraps (s : State) (g : Nat) (r : Group) : (s.setGroup g r).atraps = s.atraps := rfl
@[simp] theorem State.setGroup_sems (s : State) (g : Nat) (r : Group) : (s.setGroup g r).sems = s.sems := rfl
@[simp] theorem State.setGroup_filter (s : State) (g : Nat) (r : Group) : (s.setGroup g r).filter = s.filter := rfl
@[simp] theorem State.setGroup_caches (s : State) (g : Nat) (r : Group) : (s.setGroup g r).caches = s.caches := rfl
@[simp] theorem State.setGroup_ringWait (s : State) (g : Nat) (r : Group) : (s.setGroup g r).ringWait = s.ringWait := rfl
@[simp] theorem State.setGroup_mgmt (s : State) (g : Nat) (r : Group) : (s.setGroup g r).mgmt = s.mgmt := rfl
@[simp] theorem State.setGroup_link (s : State) (g : Nat) (r : Group) : (s.setGroup g r).link = s.link := rfl
@[simp] theorem State.seq_setGroup (s : State) (g : Nat) (r : Group) (who : Agent) : (s.setGroup g r).seq who = s.seq who := rfl
@[simp] theorem State.core_setGroup (s : State) (g : Nat) (r : Group) (d : Nat) : (s.setGroup g r).core d = s.core d := rfl
@[simp] theorem State.ctx_setGroup (s : State) (g : Nat) (r : Group) (d : Nat) : (s.setGroup g r).ctx d = s.ctx d := rfl
@[simp] theorem State.tag_setGroup (s : State) (g : Nat) (r : Group) (ref : TagRef) : (s.setGroup g r).tag ref = s.tag ref := rfl
@[simp] theorem State.stream_setGroup (s : State) (g : Nat) (r : Group) (e f : Nat) : (s.setGroup g r).stream e f = s.stream e f := rfl
@[simp] theorem State.unit_setGroup (s : State) (g : Nat) (r : Group) (e f : Nat) : (s.setGroup g r).unit e f = s.unit e f := rfl
@[simp] theorem State.cseq_setGroup (s : State) (g : Nat) (r : Group) (e : Nat) : (s.setGroup g r).cseq e = s.cseq e := rfl
theorem State.group_setGroup (s : State) (g : Nat) (r : Group) (e : Nat) : (s.setGroup g r).group e = if g = e then r else s.group e := Map.get_set _ _ _ _ _
@[simp] theorem State.peek_setGroup (s : State) (g : Nat) (r : Group) (ek : Option KeyVal) (e : Nat) : (s.setGroup g r).peek ek e = s.peek ek e := rfl
@[simp] theorem State.group_setGroup_self (s : State) (g : Nat) (r : Group) : (s.setGroup g r).group g = r := Map.get_set_self _ _ _ _

/-! ### ended -/

@[simp] theorem State.ended_agenda (s : State) (o : Out) (b : Bool) : (s.ended o b).agenda = s.agenda := rfl
@[simp] theorem State.ended_tick (s : State) (o : Out) (b : Bool) : (s.ended o b).tick = s.tick := rfl
@[simp] theorem State.ended_nextOp (s : State) (o : Out) (b : Bool) : (s.ended o b).nextOp = s.nextOp := rfl
@[simp] theorem State.ended_clk (s : State) (o : Out) (b : Bool) : (s.ended o b).clk = s.clk := rfl
@[simp] theorem State.ended_wall (s : State) (o : Out) (b : Bool) : (s.ended o b).wall = s.wall := rfl
@[simp] theorem State.ended_iss (s : State) (o : Out) (b : Bool) : (s.ended o b).iss = { s.iss with out := o, keep := b } := rfl
@[simp] theorem State.ended_parked (s : State) (o : Out) (b : Bool) : (s.ended o b).parked = s.parked := rfl
@[simp] theorem State.ended_mem (s : State) (o : Out) (b : Bool) : (s.ended o b).mem = s.mem := rfl
@[simp] theorem State.ended_sect (s : State) (o : Out) (b : Bool) : (s.ended o b).sect = s.sect := rfl
@[simp] theorem State.ended_stale (s : State) (o : Out) (b : Bool) : (s.ended o b).stale = s.stale := rfl
@[simp] theorem State.ended_heldw (s : State) (o : Out) (b : Bool) : (s.ended o b).heldw = s.heldw := rfl
@[simp] theorem State.ended_rpool (s : State) (o : Out) (b : Bool) : (s.ended o b).rpool = s.rpool := rfl
@[simp] theorem State.ended_seqs (s : State) (o : Out) (b : Bool) : (s.ended o b).seqs = s.seqs := rfl
@[simp] theorem State.ended_tags (s : State) (o : Out) (b : Bool) : (s.ended o b).tags = s.tags := rfl
@[simp] theorem State.ended_cores (s : State) (o : Out) (b : Bool) : (s.ended o b).cores = s.cores := rfl
@[simp] theorem State.ended_ctxs (s : State) (o : Out) (b : Bool) : (s.ended o b).ctxs = s.ctxs := rfl
@[simp] theorem State.ended_streams (s : State) (o : Out) (b : Bool) : (s.ended o b).streams = s.streams := rfl
@[simp] theorem State.ended_units (s : State) (o : Out) (b : Bool) : (s.ended o b).units = s.units := rfl
@[simp] theorem State.ended_cseqs (s : State) (o : Out) (b : Bool) : (s.ended o b).cseqs = s.cseqs := rfl
@[simp] theorem State.ended_groups (s : State) (o : Out) (b : Bool) : (s.ended o b).groups = s.groups := rfl
@[simp] theorem State.ended_disp (s : State) (o : Out) (b : Bool) : (s.ended o b).disp = s.disp := rfl
@[simp] theorem State.ended_atraps (s : State) (o : Out) (b : Bool) : (s.ended o b).atraps = s.atraps := rfl
@[simp] theorem State.ended_sems (s : State) (o : Out) (b : Bool) : (s.ended o b).sems = s.sems := rfl
@[simp] theorem State.ended_filter (s : State) (o : Out) (b : Bool) : (s.ended o b).filter = s.filter := rfl
@[simp] theorem State.ended_caches (s : State) (o : Out) (b : Bool) : (s.ended o b).caches = s.caches := rfl
@[simp] theorem State.ended_ringWait (s : State) (o : Out) (b : Bool) : (s.ended o b).ringWait = s.ringWait := rfl
@[simp] theorem State.ended_mgmt (s : State) (o : Out) (b : Bool) : (s.ended o b).mgmt = s.mgmt := rfl
@[simp] theorem State.ended_link (s : State) (o : Out) (b : Bool) : (s.ended o b).link = s.link := rfl
@[simp] theorem State.seq_ended (s : State) (o : Out) (b : Bool) (who : Agent) : (s.ended o b).seq who = s.seq who := rfl
@[simp] theorem State.core_ended (s : State) (o : Out) (b : Bool) (d : Nat) : (s.ended o b).core d = s.core d := rfl
@[simp] theorem State.ctx_ended (s : State) (o : Out) (b : Bool) (d : Nat) : (s.ended o b).ctx d = s.ctx d := rfl
@[simp] theorem State.tag_ended (s : State) (o : Out) (b : Bool) (ref : TagRef) : (s.ended o b).tag ref = s.tag ref := rfl
@[simp] theorem State.stream_ended (s : State) (o : Out) (b : Bool) (e f : Nat) : (s.ended o b).stream e f = s.stream e f := rfl
@[simp] theorem State.unit_ended (s : State) (o : Out) (b : Bool) (e f : Nat) : (s.ended o b).unit e f = s.unit e f := rfl
@[simp] theorem State.cseq_ended (s : State) (o : Out) (b : Bool) (e : Nat) : (s.ended o b).cseq e = s.cseq e := rfl
@[simp] theorem State.group_ended (s : State) (o : Out) (b : Bool) (e : Nat) : (s.ended o b).group e = s.group e := rfl
@[simp] theorem State.peek_ended (s : State) (o : Out) (b : Bool) (ek : Option KeyVal) (e : Nat) : (s.ended o b).peek ek e = s.peek ek e := rfl

/-! ### inSlot -/

@[simp] theorem State.inSlot_agenda (s : State) (n : Nat) : (s.inSlot n).agenda = s.agenda := rfl
@[simp] theorem State.inSlot_tick (s : State) (n : Nat) : (s.inSlot n).tick = s.tick := rfl
@[simp] theorem State.inSlot_nextOp (s : State) (n : Nat) : (s.inSlot n).nextOp = s.nextOp := rfl
@[simp] theorem State.inSlot_clk (s : State) (n : Nat) : (s.inSlot n).clk = s.clk := rfl
@[simp] theorem State.inSlot_wall (s : State) (n : Nat) : (s.inSlot n).wall = s.wall := rfl
@[simp] theorem State.inSlot_iss (s : State) (n : Nat) : (s.inSlot n).iss = { s.iss with slot := n } := rfl
@[simp] theorem State.inSlot_parked (s : State) (n : Nat) : (s.inSlot n).parked = s.parked := rfl
@[simp] theorem State.inSlot_mem (s : State) (n : Nat) : (s.inSlot n).mem = s.mem := rfl
@[simp] theorem State.inSlot_sect (s : State) (n : Nat) : (s.inSlot n).sect = s.sect := rfl
@[simp] theorem State.inSlot_stale (s : State) (n : Nat) : (s.inSlot n).stale = s.stale := rfl
@[simp] theorem State.inSlot_heldw (s : State) (n : Nat) : (s.inSlot n).heldw = s.heldw := rfl
@[simp] theorem State.inSlot_rpool (s : State) (n : Nat) : (s.inSlot n).rpool = s.rpool := rfl
@[simp] theorem State.inSlot_seqs (s : State) (n : Nat) : (s.inSlot n).seqs = s.seqs := rfl
@[simp] theorem State.inSlot_tags (s : State) (n : Nat) : (s.inSlot n).tags = s.tags := rfl
@[simp] theorem State.inSlot_cores (s : State) (n : Nat) : (s.inSlot n).cores = s.cores := rfl
@[simp] theorem State.inSlot_ctxs (s : State) (n : Nat) : (s.inSlot n).ctxs = s.ctxs := rfl
@[simp] theorem State.inSlot_streams (s : State) (n : Nat) : (s.inSlot n).streams = s.streams := rfl
@[simp] theorem State.inSlot_units (s : State) (n : Nat) : (s.inSlot n).units = s.units := rfl
@[simp] theorem State.inSlot_cseqs (s : State) (n : Nat) : (s.inSlot n).cseqs = s.cseqs := rfl
@[simp] theorem State.inSlot_groups (s : State) (n : Nat) : (s.inSlot n).groups = s.groups := rfl
@[simp] theorem State.inSlot_disp (s : State) (n : Nat) : (s.inSlot n).disp = s.disp := rfl
@[simp] theorem State.inSlot_atraps (s : State) (n : Nat) : (s.inSlot n).atraps = s.atraps := rfl
@[simp] theorem State.inSlot_sems (s : State) (n : Nat) : (s.inSlot n).sems = s.sems := rfl
@[simp] theorem State.inSlot_filter (s : State) (n : Nat) : (s.inSlot n).filter = s.filter := rfl
@[simp] theorem State.inSlot_caches (s : State) (n : Nat) : (s.inSlot n).caches = s.caches := rfl
@[simp] theorem State.inSlot_ringWait (s : State) (n : Nat) : (s.inSlot n).ringWait = s.ringWait := rfl
@[simp] theorem State.inSlot_mgmt (s : State) (n : Nat) : (s.inSlot n).mgmt = s.mgmt := rfl
@[simp] theorem State.inSlot_link (s : State) (n : Nat) : (s.inSlot n).link = s.link := rfl
@[simp] theorem State.seq_inSlot (s : State) (n : Nat) (who : Agent) : (s.inSlot n).seq who = s.seq who := rfl
@[simp] theorem State.core_inSlot (s : State) (n : Nat) (d : Nat) : (s.inSlot n).core d = s.core d := rfl
@[simp] theorem State.ctx_inSlot (s : State) (n : Nat) (d : Nat) : (s.inSlot n).ctx d = s.ctx d := rfl
@[simp] theorem State.tag_inSlot (s : State) (n : Nat) (ref : TagRef) : (s.inSlot n).tag ref = s.tag ref := rfl
@[simp] theorem State.stream_inSlot (s : State) (n : Nat) (e f : Nat) : (s.inSlot n).stream e f = s.stream e f := rfl
@[simp] theorem State.unit_inSlot (s : State) (n : Nat) (e f : Nat) : (s.inSlot n).unit e f = s.unit e f := rfl
@[simp] theorem State.cseq_inSlot (s : State) (n : Nat) (e : Nat) : (s.inSlot n).cseq e = s.cseq e := rfl
@[simp] theorem State.group_inSlot (s : State) (n : Nat) (e : Nat) : (s.inSlot n).group e = s.group e := rfl
@[simp] theorem State.peek_inSlot (s : State) (n : Nat) (ek : Option KeyVal) (e : Nat) : (s.inSlot n).peek ek e = s.peek ek e := rfl

/-! ### pass -/

@[simp] theorem State.pass_agenda (s : State) (c n : Nat) : (s.pass c n).agenda = s.agenda := rfl
@[simp] theorem State.pass_tick (s : State) (c n : Nat) : (s.pass c n).tick = s.tick := rfl
@[simp] theorem State.pass_nextOp (s : State) (c n : Nat) : (s.pass c n).nextOp = s.nextOp := rfl
@[simp] theorem State.pass_clk (s : State) (c n : Nat) : (s.pass c n).clk = s.clk + c := rfl
@[simp] theorem State.pass_wall (s : State) (c n : Nat) : (s.pass c n).wall = s.wall + n := rfl
@[simp] theorem State.pass_iss (s : State) (c n : Nat) : (s.pass c n).iss = s.iss := rfl
@[simp] theorem State.pass_parked (s : State) (c n : Nat) : (s.pass c n).parked = s.parked := rfl
@[simp] theorem State.pass_mem (s : State) (c n : Nat) : (s.pass c n).mem = s.mem := rfl
@[simp] theorem State.pass_sect (s : State) (c n : Nat) : (s.pass c n).sect = s.sect := rfl
@[simp] theorem State.pass_stale (s : State) (c n : Nat) : (s.pass c n).stale = s.stale := rfl
@[simp] theorem State.pass_heldw (s : State) (c n : Nat) : (s.pass c n).heldw = s.heldw := rfl
@[simp] theorem State.pass_rpool (s : State) (c n : Nat) : (s.pass c n).rpool = s.rpool := rfl
@[simp] theorem State.pass_seqs (s : State) (c n : Nat) : (s.pass c n).seqs = s.seqs := rfl
@[simp] theorem State.pass_tags (s : State) (c n : Nat) : (s.pass c n).tags = s.tags := rfl
@[simp] theorem State.pass_cores (s : State) (c n : Nat) : (s.pass c n).cores = s.cores := rfl
@[simp] theorem State.pass_ctxs (s : State) (c n : Nat) : (s.pass c n).ctxs = s.ctxs := rfl
@[simp] theorem State.pass_streams (s : State) (c n : Nat) : (s.pass c n).streams = s.streams := rfl
@[simp] theorem State.pass_units (s : State) (c n : Nat) : (s.pass c n).units = s.units := rfl
@[simp] theorem State.pass_cseqs (s : State) (c n : Nat) : (s.pass c n).cseqs = s.cseqs := rfl
@[simp] theorem State.pass_groups (s : State) (c n : Nat) : (s.pass c n).groups = s.groups := rfl
@[simp] theorem State.pass_disp (s : State) (c n : Nat) : (s.pass c n).disp = s.disp := rfl
@[simp] theorem State.pass_atraps (s : State) (c n : Nat) : (s.pass c n).atraps = s.atraps := rfl
@[simp] theorem State.pass_sems (s : State) (c n : Nat) : (s.pass c n).sems = s.sems := rfl
@[simp] theorem State.pass_filter (s : State) (c n : Nat) : (s.pass c n).filter = s.filter := rfl
@[simp] theorem State.pass_caches (s : State) (c n : Nat) : (s.pass c n).caches = s.caches := rfl
@[simp] theorem State.pass_ringWait (s : State) (c n : Nat) : (s.pass c n).ringWait = s.ringWait := rfl
@[simp] theorem State.pass_mgmt (s : State) (c n : Nat) : (s.pass c n).mgmt = s.mgmt := rfl
@[simp] theorem State.pass_link (s : State) (c n : Nat) : (s.pass c n).link = s.link := rfl
@[simp] theorem State.seq_pass (s : State) (c n : Nat) (who : Agent) : (s.pass c n).seq who = s.seq who := rfl
@[simp] theorem State.core_pass (s : State) (c n : Nat) (d : Nat) : (s.pass c n).core d = s.core d := rfl
@[simp] theorem State.ctx_pass (s : State) (c n : Nat) (d : Nat) : (s.pass c n).ctx d = s.ctx d := rfl
@[simp] theorem State.tag_pass (s : State) (c n : Nat) (ref : TagRef) : (s.pass c n).tag ref = s.tag ref := rfl
@[simp] theorem State.stream_pass (s : State) (c n : Nat) (e f : Nat) : (s.pass c n).stream e f = s.stream e f := rfl
@[simp] theorem State.unit_pass (s : State) (c n : Nat) (e f : Nat) : (s.pass c n).unit e f = s.unit e f := rfl
@[simp] theorem State.cseq_pass (s : State) (c n : Nat) (e : Nat) : (s.pass c n).cseq e = s.cseq e := rfl
@[simp] theorem State.group_pass (s : State) (c n : Nat) (e : Nat) : (s.pass c n).group e = s.group e := rfl
@[simp] theorem State.peek_pass (s : State) (c n : Nat) (ek : Option KeyVal) (e : Nat) : (s.pass c n).peek ek e = s.peek ek e := rfl

end Sys2Proof.Machine
end

