-- ==== Sys2Proof/Laws/Mem.lean ====
section
/-! SUPPORT. Memory: a byte read after a write, and the canonical form, which every operation on memory keeps. -/

namespace Sys2Proof.Machine

/-! ### The list of cells -/

theorem Mem.above_iff (a : Nat) (m : List Host.Cell) : Mem.above a m = true ↔ ∀ c ∈ m, a < c.1 := by
  simp [Mem.above, List.all_eq_true]

theorem Mem.wf_cons (k : Nat) (b : Byte) (r : List Host.Cell) :
    Mem.wf ((k, b) :: r) = true ↔ b ≠ Config.emptyByte ∧ (∀ c ∈ r, k < c.1) ∧ Mem.wf r = true := by
  simp [Mem.wf, Mem.above_iff, and_assoc]

/-- A key below every listed one reads as the unlisted byte. -/
theorem Mem.get_below {m : List Host.Cell} {a : Nat} (h : ∀ c ∈ m, a < c.1) : Mem.get m a = Config.emptyByte := by
  cases m with
  | nil => rfl
  | cons c r =>
    obtain ⟨k, b⟩ := c
    have hk := h (k, b) (by simp)
    simp only at hk
    simp [Mem.get, Nat.ne_of_gt hk, hk]

/-- A byte after a write to memory in canonical form. -/
theorem Mem.get_put (m : List Host.Cell) (hm : Mem.wf m = true) (a c : Nat) (b : Byte) :
    Mem.get (Mem.put m a b) c = if a = c then b else Mem.get m c := by
  induction m with
  | nil =>
    by_cases hb : b = Config.emptyByte <;> by_cases hc : a = c <;> simp [Mem.put, Mem.get, hb, hc]
  | cons e r ih =>
    obtain ⟨k, x⟩ := e
    obtain ⟨hx, hr, hw⟩ := (Mem.wf_cons k x r).1 hm
    by_cases hk : k = a
    · subst hk
      by_cases hb : b = Config.emptyByte
      · by_cases hc : k = c
        · subst hc; simp [Mem.put, hb, Mem.get_below hr]
        · simp only [Mem.put, hb, hc, Mem.get, if_true, if_false]
          by_cases hlt : c < k
          · rw [if_pos hlt, Mem.get_below fun e he => Nat.lt_trans hlt (hr e he)]
          · rw [if_neg hlt]
      · by_cases hc : k = c <;> simp [Mem.put, hb, Mem.get, hc]
    · by_cases hlt : a < k
      · by_cases hb : b = Config.emptyByte
        · by_cases hc : a = c
          · subst hc; simp [Mem.put, hk, hlt, hb, Mem.get]
          · simp [Mem.put, hk, hlt, hb, hc]
        · by_cases hc : a = c
          · subst hc; simp [Mem.put, hk, hlt, hb, Mem.get]
          · simp only [Mem.put, hk, hlt, hb, if_false, if_true, Mem.get, hc]
            by_cases hca : c < a
            · have : ¬ k = c := by omega
              simp [hca, this, Nat.lt_trans hca hlt]
            · simp [hca]
      · simp only [Mem.put, hk, hlt, if_false, Mem.get]
        by_cases hkc : k = c
        · have : ¬ a = c := by omega
          simp [hkc, this]
        · by_cases hck : c < k
          · have : ¬ a = c := by omega
            simp [hkc, hck, this]
          · simp [hkc, hck, ih hw]

/-- The keys listed after a write. -/
theorem Mem.put_keys {m : List Host.Cell} {a : Nat} {b : Byte} {e : Host.Cell} (h : e ∈ Mem.put m a b) : e ∈ m ∨ e = (a, b) := by
  induction m with
  | nil => simp only [Mem.put] at h; split at h <;> simp_all
  | cons c r ih =>
    obtain ⟨k, x⟩ := c
    simp only [Mem.put] at h
    split at h
    · split at h
      · exact .inl (List.mem_cons_of_mem _ h)
      · rcases List.mem_cons.1 h with rfl | h
        · exact .inr rfl
        · exact .inl (List.mem_cons_of_mem _ h)
    · split at h
      · split at h
        · exact .inl h
        · rcases List.mem_cons.1 h with rfl | h
          · exact .inr rfl
          · exact .inl h
      · rcases List.mem_cons.1 h with rfl | h
        · simp
        · rcases ih h with h | h <;> simp [h]

/-- A write keeps the canonical form. -/
theorem Mem.wf_put {m : List Host.Cell} (hm : Mem.wf m = true) (a : Nat) (b : Byte) : Mem.wf (Mem.put m a b) = true := by
  induction m with
  | nil =>
    by_cases hb : b = Config.emptyByte
    · simp [Mem.put, hb, Mem.wf]
    · simp [Mem.put, hb, Mem.wf, Mem.above]
  | cons e r ih =>
    obtain ⟨k, x⟩ := e
    obtain ⟨hx, hr, hw⟩ := (Mem.wf_cons k x r).1 hm
    simp only [Mem.put]
    split
    · subst k
      split
      · exact hw
      · exact (Mem.wf_cons ..).2 ⟨‹_›, hr, hw⟩
    · split
      · split
        · exact hm
        · refine (Mem.wf_cons ..).2 ⟨‹_›, ?_, hm⟩
          intro c hc
          rcases List.mem_cons.1 hc with rfl | hc
          · assumption
          · exact Nat.lt_trans ‹_› (hr c hc)
      · refine (Mem.wf_cons ..).2 ⟨hx, ?_, ih hw⟩
        intro c hc
        rcases Mem.put_keys hc with hc | rfl
        · exact hr c hc
        · simp only; omega

/-- Cells left out keep the canonical form. -/
theorem Mem.wf_filter {m : List Host.Cell} (hm : Mem.wf m = true) (p : Host.Cell → Bool) : Mem.wf (m.filter p) = true := by
  induction m with
  | nil => rfl
  | cons e r ih =>
    obtain ⟨k, x⟩ := e
    obtain ⟨hx, hr, hw⟩ := (Mem.wf_cons k x r).1 hm
    simp only [List.filter_cons]
    split
    · exact (Mem.wf_cons ..).2 ⟨hx, fun c hc => hr c (List.mem_filter.1 hc).1, ih hw⟩
    · exact ih hw

/-- Two memories in canonical form that read alike are the same data. -/
theorem Mem.ext {m n : List Host.Cell} (hm : Mem.wf m = true) (hn : Mem.wf n = true) (h : ∀ a, Mem.get m a = Mem.get n a) : m = n := by
  induction m generalizing n with
  | nil =>
    cases n with
    | nil => rfl
    | cons e r =>
      obtain ⟨k, x⟩ := e
      have := h k
      simp [Mem.get] at this
      exact absurd this.symm ((Mem.wf_cons ..).1 hn).1
  | cons e r ih =>
    obtain ⟨k, x⟩ := e
    obtain ⟨hx, hr, hw⟩ := (Mem.wf_cons k x r).1 hm
    cases n with
    | nil =>
      have := h k
      simp [Mem.get] at this
      exact absurd this hx
    | cons f q =>
      obtain ⟨j, y⟩ := f
      obtain ⟨hy, hq, hv⟩ := (Mem.wf_cons j y q).1 hn
      have hkj : k = j := by
        rcases Nat.lt_trichotomy k j with hlt | heq | hlt
        · have := h k
          simp [Mem.get, Nat.ne_of_gt hlt, hlt] at this
          exact absurd this hx
        · exact heq
        · have := h j
          simp [Mem.get, Nat.ne_of_gt hlt, hlt] at this
          exact absurd this.symm hy
      subst hkj
      have hxy : x = y := by have := h k; simpa [Mem.get] using this
      subst hxy
      congr 1
      refine ih hw hv fun a => ?_
      have := h a
      by_cases hka : k = a
      · subst hka; rw [Mem.get_below hr, Mem.get_below hq]
      · by_cases hak : a < k
        · rw [Mem.get_below fun c hc => Nat.lt_trans hak (hr c hc), Mem.get_below fun c hc => Nat.lt_trans hak (hq c hc)]
        · simpa [Mem.get, hka, hak] using this

/-- Bytes put into memory keep the canonical form. -/
theorem Mem.wf_puts {m : List Host.Cell} (hm : Mem.wf m = true) (a : Nat) (bs : List Byte) : Mem.wf (Mem.puts m a bs) = true := by
  induction bs generalizing m a with
  | nil => exact hm
  | cons b r ih => exact ih (Mem.wf_put hm _ _) _

/-- A byte after bytes are put into memory in canonical form. -/
theorem Mem.get_puts {m : List Host.Cell} (hm : Mem.wf m = true) (a : Nat) (bs : List Byte) (c : Nat) :
    Mem.get (Mem.puts m a bs) c = if a ≤ c ∧ c < a + bs.length then bs.getD (c - a) 0 else Mem.get m c := by
  induction bs generalizing m a with
  | nil => simp only [Mem.puts, List.length_nil]; rw [if_neg (by omega)]
  | cons b r ih =>
    rw [Mem.puts, ih (Mem.wf_put hm _ _), Mem.get_put _ hm]
    simp only [List.length_cons]
    by_cases hc : a = c
    · subst hc; rw [if_neg (by omega), if_pos rfl, if_pos (by omega)]; simp
    · by_cases h2 : a + 1 ≤ c ∧ c < a + 1 + r.length
      · rw [if_pos h2, if_pos (by omega), show c - a = (c - (a + 1)) + 1 by omega, List.getD_cons_succ]
      · rw [if_neg h2, if_neg hc, if_neg (by omega)]

/-- A sector rewritten under another key keeps the canonical form. -/
theorem rekey_wf {m : List Host.Cell} (hm : Mem.wf m = true) (k' k : KeyVal) (sec : Nat) : Mem.wf (rekey m k' k sec) = true :=
  Mem.wf_puts hm _ _

/-- A sector has 128 bytes under every key. -/
@[simp] theorem recrypt_length (k' k u : Nat) (bs : List Byte) : (recrypt k' k u bs).length = 128 := by simp [recrypt]

/-! ### The operations of the state on memory -/

/-- What one byte's write does: memory stays in canonical form, and only memory and the keys of sectors change. -/
theorem State.poke_cases (s : State) (k : Option KeyVal) (a : Nat) (b : Byte) :
    ∃ m t, s.poke k a b = { s with mem := m, sect := t } ∧ (Mem.wf s.mem = true → Mem.wf m = true) := by
  unfold State.poke
  split
  · exact ⟨_, s.sect, rfl, fun h => Mem.wf_put h _ _⟩
  · split
    · split
      · exact ⟨_, s.sect, rfl, fun h => Mem.wf_put h _ _⟩
      · exact ⟨_, _, rfl, fun h => Mem.wf_put (rekey_wf h _ _ _) _ _⟩
    · exact ⟨_, _, rfl, fun h => Mem.wf_put h _ _⟩

/-- What a write of bytes does: memory stays in canonical form, and only memory and the keys of sectors change. -/
theorem State.pokes_cases (s : State) (k : Option KeyVal) (a : Nat) (bs : List Byte) :
    ∃ m t, s.pokes k a bs = { s with mem := m, sect := t } ∧ (Mem.wf s.mem = true → Mem.wf m = true) := by
  induction bs generalizing s a with
  | nil => exact ⟨s.mem, s.sect, rfl, id⟩
  | cons b r ih =>
    obtain ⟨m, t, h1, w1⟩ := State.poke_cases s k a b
    obtain ⟨n, u, h2, w2⟩ := ih { s with mem := m, sect := t } (a + 1)
    exact ⟨n, u, by rw [State.pokes, h1, h2], fun h => w2 (w1 h)⟩

theorem State.pokes_memOk {s : State} (h : s.memOk) (k : Option KeyVal) (a : Nat) (bs : List Byte) : (s.pokes k a bs).memOk :=
  by obtain ⟨m, t, e, w⟩ := State.pokes_cases s k a bs; rw [e]; exact w h

theorem State.pokeNat_memOk {s : State} (h : s.memOk) (k : Option KeyVal) (a n v : Nat) : (s.pokeNat k a n v).memOk :=
  State.pokes_memOk h k a _

theorem State.keepStale_mem (s : State) (l : Loc) (n : Nat) : (s.keepStale l n).mem = s.mem := by
  unfold State.keepStale; split <;> rfl

/-- A write to located pieces keeps the canonical form. -/
theorem State.writePieces_memOk {s : State} (h : s.memOk) (ps : List (Loc × Nat × Nat)) (bs : List Byte) : (s.writePieces ps bs).memOk := by
  induction ps generalizing s bs with
  | nil => exact h
  | cons p r ih =>
    obtain ⟨l, va, n⟩ := p
    exact ih (State.pokes_memOk (by simpa [State.memOk, State.keepStale_mem] using h) _ _ _) _

/-- The key of a sector after one sector's key is set. -/
theorem State.sectorKey_set (s : State) (m : List Host.Cell) (x y : Nat) (v : KeyVal) :
    State.sectorKey { s with mem := m, sect := s.sect.set x v } y = if x = y then some v else s.sectorKey y := by
  have key : ∀ l : Map Nat KeyVal,
      (l.set x v).find? (fun e => e.1 == y) = if x = y then some (x, v) else l.find? (fun e => e.1 == y) := by
    intro l
    induction l with
    | nil => by_cases h : x = y <;> simp [Map.set, h]
    | cons e r ih =>
      obtain ⟨j, u⟩ := e
      by_cases hj : j = x
      · subst hj; by_cases h : j = y <;> simp [Map.set, h]
      · rw [Map.set, if_neg hj, List.find?_cons, List.find?_cons, ih]
        by_cases h : x = y
        · have : (j == y) = false := by simpa [← h] using hj
          simp [h, this]
        · simp [h]
  simp only [State.sectorKey, key]
  by_cases h : x = y <;> simp [h]

/-- Memory replaced leaves the keys of sectors. -/
theorem State.sectorKey_mem (s : State) (m : List Host.Cell) (y : Nat) : State.sectorKey { s with mem := m } y = s.sectorKey y := rfl

/-- A byte of a sector rewritten under another key. -/
theorem get_rekey {m : List Host.Cell} (hm : Mem.wf m = true) (k' k : KeyVal) (sec c : Nat) :
    Mem.get (rekey m k' k sec) c =
      if c / 128 = sec then (recrypt k'.num k.num (dataUnit sec) (Mem.sector m sec)).getD (c % 128) 0 else Mem.get m c := by
  rw [rekey, Mem.get_puts hm, recrypt_length]
  by_cases h : c / 128 = sec
  · rw [if_pos h, if_pos (by omega), show c - sec * 128 = c % 128 by omega]
  · rw [if_neg h, if_neg (by omega)]

/-- The bytes of a sector after a byte of another is written. -/
theorem Mem.sector_put {m : List Host.Cell} (hm : Mem.wf m = true) {a x : Nat} (h : a / 128 ≠ x) (b : Byte) :
    Mem.sector (Mem.put m a b) x = Mem.sector m x := by
  refine List.map_congr_left fun i hi => ?_
  have := List.mem_range.1 hi
  rw [Mem.get_put _ hm, if_neg (by omega)]

/-- The bytes of a sector after another is rewritten under another key. -/
theorem Mem.sector_rekey {m : List Host.Cell} (hm : Mem.wf m = true) (k' k : KeyVal) {y x : Nat} (h : y ≠ x) :
    Mem.sector (rekey m k' k y) x = Mem.sector m x := by
  refine List.map_congr_left fun i hi => ?_
  have := List.mem_range.1 hi
  rw [get_rekey hm, if_neg (by omega)]

/-- What an access reads of a byte depends on the key and the bytes of its sector alone. -/
theorem State.peek_congr {s t : State} (k : Option KeyVal) (c : Nat) (hk : s.sectorKey (c / 128) = t.sectorKey (c / 128))
    (hg : Mem.get s.mem c = Mem.get t.mem c) (hs : Mem.sector s.mem (c / 128) = Mem.sector t.mem (c / 128)) : s.peek k c = t.peek k c := by
  unfold State.peek; rw [hk, hg, hs]

/-- A byte that an access under a key reads after a byte written under that key: the byte itself as written, every other as
before. -/
theorem State.peek_poke {s : State} (h : s.memOk) (k : Option KeyVal) (a c : Nat) (b : Byte) :
    (s.poke k a b).peek k c = if a = c then b else s.peek k c := by
  cases k with
  | none => simp only [State.poke, State.peek, Mem.get_put _ h]
  | some kv =>
    by_cases hs : a / 128 = c / 128
    · cases hk : s.sectorKey (a / 128) with
      | none =>
        simp only [State.poke, hk, State.peek, State.sectorKey_set, Mem.get_put _ h]
        rw [if_pos hs, ← hs, hk]; simp
      | some kv' =>
        by_cases he : kv' = kv
        · simp only [State.poke, hk, he, if_true, State.peek, State.sectorKey_mem, Mem.get_put _ h]
          rw [← hs, hk]; simp [he]
        · simp only [State.poke, hk, he, if_false, State.peek, State.sectorKey_set, Mem.get_put _ (rekey_wf h _ _ _), get_rekey h]
          rw [if_pos hs, if_pos hs.symm, ← hs, hk]; simp [he]
    · have hac : ¬ a = c := fun e => hs (congrArg (· / 128) e)
      rw [if_neg hac]
      simp only [State.poke]
      split
      · split
        · exact State.peek_congr _ _ rfl (by simp [Mem.get_put _ h, hac]) (Mem.sector_put h hs b)
        · exact State.peek_congr _ _ (by simp [State.sectorKey_set, hs])
            (by simp [Mem.get_put _ (rekey_wf h _ _ _), hac, get_rekey h, Ne.symm hs])
            ((Mem.sector_put (rekey_wf h _ _ _) hs b).trans (Mem.sector_rekey h _ _ hs))
      · exact State.peek_congr _ _ (by simp [State.sectorKey_set, hs]) (by simp [Mem.get_put _ h, hac]) (Mem.sector_put h hs b)

/-- The same after several bytes written. -/
theorem State.peek_pokes {s : State} (h : s.memOk) (k : Option KeyVal) (a : Nat) (bs : List Byte) (c : Nat) :
    (s.pokes k a bs).peek k c = if a ≤ c ∧ c < a + bs.length then bs.getD (c - a) 0 else s.peek k c := by
  induction bs generalizing s a with
  | nil => simp only [State.pokes, List.length_nil]; rw [if_neg (by omega)]
  | cons b r ih =>
    have h1 : (s.poke k a b).memOk := State.pokes_memOk h k a [b]
    rw [State.pokes, ih h1, State.peek_poke h]
    simp only [List.length_cons]
    by_cases hc : a = c
    · subst hc; rw [if_neg (by omega), if_pos rfl, if_pos (by omega)]; simp
    · by_cases h2 : a + 1 ≤ c ∧ c < a + 1 + r.length
      · rw [if_pos h2, if_pos (by omega)]
        have : c - a = (c - (a + 1)) + 1 := by omega
        rw [this, List.getD_cons_succ]
      · rw [if_neg h2, if_neg hc, if_neg (by omega)]

/-- Bytes read back where they were written. -/
theorem State.peeks_pokes {s : State} (h : s.memOk) (k : Option KeyVal) (a : Nat) (bs : List Byte) :
    (s.pokes k a bs).peeks k a bs.length = bs := by
  apply List.ext_getElem
  · simp [State.peeks]
  · intro i h1 h2
    simp only [State.peeks, List.getElem_map, List.getElem_range, State.peek_pokes h]
    rw [if_pos (by omega)]
    have : a + i - a = i := by omega
    rw [this]; simp [List.getD, h2]

/-! ### Little-endian values (00_scope R7) -/

@[simp] theorem leBytes_length (n v : Nat) : (leBytes n v).length = n := by
  induction n generalizing v with
  | zero => rfl
  | succ n ih => simp [leBytes, ih]

/-- The bytes of a value give the value back, modulo their number. -/
theorem leNat_leBytes (n v : Nat) : leNat (leBytes n v) = v % 256 ^ n := by
  induction n generalizing v with
  | zero => simp [leBytes, leNat, Nat.mod_one]
  | succ n ih =>
    have : v % 256 ^ (n + 1) = v % 256 + 256 * (v / 256 % 256 ^ n) := by rw [Nat.pow_succ', Nat.mod_mul]
    simpa [leBytes, leNat, ih] using this.symm

/-- A little-endian value read back where it was written. -/
theorem State.peekNat_pokeNat {s : State} (h : s.memOk) (k : Option KeyVal) (a n v : Nat) :
    (s.pokeNat k a n v).peekNat k a n = v % 256 ^ n := by
  have := State.peeks_pokes h k a (leBytes n v)
  rw [leBytes_length] at this
  rw [State.peekNat, State.pokeNat, this, leNat_leBytes]

end Sys2Proof.Machine
end

