-- ==== Sys2Proof/Laws/Cache.lean ====
section
/-! SUPPORT. What the caches' accesses change: the remap filter and the caches alone (08_memory R169-R171; 11_page R225, R226). -/

namespace Sys2Proof.Machine

/-- Nothing but the remap filter and the caches differs. -/
def State.OnlyCaches (s t : State) : Prop := ∃ f k, t = { s with filter := f, caches := k }

theorem State.OnlyCaches.refl (s : State) : s.OnlyCaches s := ⟨s.filter, s.caches, rfl⟩

theorem State.OnlyCaches.of (s : State) (k : Caches) : s.OnlyCaches { s with caches := k } := ⟨s.filter, k, rfl⟩

theorem State.OnlyCaches.trans {s t u : State} (h : s.OnlyCaches t) (g : t.OnlyCaches u) : s.OnlyCaches u := by
  obtain ⟨f, k, rfl⟩ := h
  obtain ⟨f', k', rfl⟩ := g
  exact ⟨f', k', rfl⟩

/-- A fold of steps each of which changes no more. -/
theorem State.OnlyCaches.foldl {α : Type} (f : State → α → State) (h : ∀ (t : State) (a : α), t.OnlyCaches (f t a)) (l : List α) (s : State) :
    s.OnlyCaches (l.foldl f s) := by
  induction l generalizing s with
  | nil => exact .refl s
  | cons a r ih => exact (h s a).trans (ih _)

theorem State.keepBelow_only (s : State) (key : Key) (m : BitVec 2) : s.OnlyCaches (s.keepBelow key m) := by
  refine State.OnlyCaches.foldl _ (fun t i => ?_) _ _
  dsimp only
  split
  · exact .of _ _
  · exact .refl t

theorem State.fillLlc_only (s : State) (id no : Nat) (key : Key) (m : BitVec 2) (low : Bool) : s.OnlyCaches (s.fillLlc id no key m low).1 := by
  unfold State.fillLlc
  dsimp only
  repeat' split
  all_goals first | exact .refl s | exact .of _ _

theorem State.accessSlice_only (s : State) (u : Use) (no : Nat) (key : Key) (m : BitVec 2) (w : Bool) :
    s.OnlyCaches (s.accessSlice u no key m w).1 := by
  unfold State.accessSlice
  extract_lets j had c1
  split
  rename_i t ok e
  have h : s.OnlyCaches t := (State.OnlyCaches.of s c1).trans (by
    have := State.fillLlc_only { s with caches := c1 } u.id no key m (u.cls == 3)
    rw [e] at this; exact this)
  split
  · exact (h.trans (State.keepBelow_only _ _ _)).trans ⟨_, _, rfl⟩
  · exact h

theorem State.accessL1_only (s : State) (u : Use) (c no : Nat) (key : Key) (m : BitVec 2) : s.OnlyCaches (s.accessL1 u c no key m) := by
  unfold State.accessL1
  extract_lets here had miss k0 k1 s1
  have h1 : s.OnlyCaches s1 := .of s _
  split
  rename_i s2 ok e
  have h2 : s1.OnlyCaches s2 := by
    split at e
    · injection e with e; exact e ▸ .refl s1
    · have := State.accessSlice_only s1 u no key miss false
      rw [e] at this; exact this
  extract_lets s3 k3 ln ln1
  split
  · exact h1.trans h2
  · have h3 : s2.OnlyCaches s3 := by
      show s2.OnlyCaches (if u.write then s2.keepBelow key m else s2)
      split
      · exact State.keepBelow_only _ _ _
      · exact .refl s2
    exact ((h1.trans h2).trans h3).trans (.of _ _)

theorem State.regrade_only (s : State) : s.OnlyCaches s.regrade := by
  refine State.OnlyCaches.foldl _ (fun t ln => ?_) _ _
  dsimp only
  split
  · exact .of _ _
  · exact .refl t

theorem State.cached_only (s : State) (c : Option Nat) (l : Loc) (va n : Nat) : s.OnlyCaches (s.cached c l va n) := by
  unfold State.cached
  split
  · exact .refl s
  · rename_i u _
    extract_lets s' key m
    have h0 : s.OnlyCaches s' := s.regrade_only
    split
    rename_i no moved _
    extract_lets old away s1
    have h1 : s.OnlyCaches s1 := by
      refine h0.trans ?_
      show s'.OnlyCaches (if away then _ else s')
      split
      · exact .of _ _
      · exact .refl s'
    split
    · exact h1
    · split
      · exact h1.trans (State.accessL1_only _ _ _ _ _ _)
      · exact (h1.trans (.of _ _)).trans (State.accessSlice_only _ _ _ _ _ _)

theorem State.led_only (s : State) (l : Loc) : s.OnlyCaches (s.led l) := by
  unfold State.led
  dsimp only
  repeat' split
  all_goals first | exact .refl s | exact ⟨_, _, rfl⟩

/-- Located pieces reached change no more than the remap filter and the caches. -/
theorem State.ledAll_only (s : State) (l : List (Loc × Nat × Nat)) : s.OnlyCaches (s.ledAll l) := by
  induction l generalizing s with
  | nil => exact .refl s
  | cons p r ih => exact ((State.led_only s p.1).trans (State.cached_only _ _ _ _ _)).trans (ih _)

/-- Noting the entries of pieces, or of a span, changes no more. -/
theorem State.noteAll_only (s : State) (l : List (Loc × Nat × Nat)) : s.OnlyCaches (s.noteAll l) := by
  induction l generalizing s with
  | nil => exact .refl s
  | cons p r ih => exact (State.led_only s p.1).trans (ih _)

theorem State.noteSpan_only (s : State) (c va n : Nat) (acc : Acc) : s.OnlyCaches (s.noteSpan c va n acc) := by
  unfold State.noteSpan
  split
  · exact State.noteAll_only _ _
  · exact .refl s

@[simp] theorem State.mem_ledAll (s : State) (l : List (Loc × Nat × Nat)) : (s.ledAll l).mem = s.mem := by
  obtain ⟨f, k, e⟩ := s.ledAll_only l; rw [e]
@[simp] theorem State.iss_ledAll (s : State) (l : List (Loc × Nat × Nat)) : (s.ledAll l).iss = s.iss := by
  obtain ⟨f, k, e⟩ := s.ledAll_only l; rw [e]
@[simp] theorem State.cores_ledAll (s : State) (l : List (Loc × Nat × Nat)) : (s.ledAll l).cores = s.cores := by
  obtain ⟨f, k, e⟩ := s.ledAll_only l; rw [e]
@[simp] theorem State.seqs_ledAll (s : State) (l : List (Loc × Nat × Nat)) : (s.ledAll l).seqs = s.seqs := by
  obtain ⟨f, k, e⟩ := s.ledAll_only l; rw [e]

end Sys2Proof.Machine
end

