-- ==== Sys2Proof/Laws/Exec.lean ====
section
/-! SUPPORT. What `exec` answers on each instruction is its meaning. -/

namespace Sys2Proof.Machine

@[simp] theorem exec_nop (x0 : BitVec 4) (s : State) : exec (.nop x0) s = execNop s := rfl
@[simp] theorem exec_lpat (kind : BitVec 5) (k : BitVec 5) (s : State) : exec (.lpat kind k) s = execLpat kind k s := rfl
@[simp] theorem exec_halt (x0 : BitVec 4) (s : State) : exec (.halt x0) s = execHalt s := rfl
@[simp] theorem exec_brk (x0 : BitVec 4) (code : BitVec 12) (s : State) : exec (.brk x0 code) s = execBrk code s := rfl
@[simp] theorem exec_trap (x0 : BitVec 4) (code : BitVec 12) (s : State) : exec (.trap x0 code) s = execTrap code s := rfl
@[simp] theorem exec_tok (x0 : BitVec 4) (n : BitVec 4) (s : State) : exec (.tok x0 n) s = execTok n s := rfl
@[simp] theorem exec_pause (x0 : BitVec 4) (t : BitVec 12) (s : State) : exec (.pause x0 t) s = execPause t s := rfl
@[simp] theorem exec_loop (x0 : BitVec 4) (n : BitVec 2) (len : BitVec 6) (count : BitVec 6) (s : State) : exec (.loop x0 n len count) s = execLoop n len count s := rfl
@[simp] theorem exec_loopR (x0 : BitVec 4) (n : BitVec 2) (len : BitVec 6) (s : State) : exec (.loopR x0 n len) s = execLoopR n len s := rfl
@[simp] theorem exec_loopp (x0 : BitVec 4) (n : BitVec 2) (p : BitVec 2) (d : BitVec 1) (len : BitVec 6) (s : State) : exec (.loopp x0 n p d len) s = execLoopp n p d len s := rfl
@[simp] theorem exec_loopr (x0 : BitVec 4) (n : BitVec 2) (sm1 : BitVec 3) (len : BitVec 6) (s : State) : exec (.loopr x0 n sm1 len) s = execLoopr n sm1 len s := rfl
@[simp] theorem exec_sj (x0 : BitVec 4) (off : BitVec 12) (s : State) : exec (.sj x0 off) s = execSj off s := rfl
@[simp] theorem exec_sjp (x0 : BitVec 4) (off : BitVec 12) (s : State) : exec (.sjp x0 off) s = execSjp off s := rfl
@[simp] theorem exec_pelse (x0 : BitVec 4) (s : State) : exec (.pelse x0) s = execPelse s := rfl
@[simp] theorem exec_ptrue (x0 : BitVec 4) (s : State) : exec (.ptrue x0) s = execPtrue s := rfl
@[simp] theorem exec_semset (x0 : BitVec 4) (n : BitVec 5) (v : BitVec 12) (s : State) : exec (.semset x0 n v) s = execSemset n v s := rfl
@[simp] theorem exec_semadd (x0 : BitVec 4) (n : BitVec 5) (d : BitVec 12) (s : State) : exec (.semadd x0 n d) s = execSemadd n d s := rfl
@[simp] theorem exec_semwait (x0 : BitVec 4) (n : BitVec 5) (v : BitVec 12) (s : State) : exec (.semwait x0 n v) s = execSemwait n v s := rfl
@[simp] theorem exec_twany (x0 : BitVec 4) (half : BitVec 5) (mask : BitVec 12) (s : State) : exec (.twany x0 half mask) s = execTwany half mask s := rfl
@[simp] theorem exec_twall (x0 : BitVec 4) (half : BitVec 5) (mask : BitVec 12) (s : State) : exec (.twall x0 half mask) s = execTwall half mask s := rfl
@[simp] theorem exec_tffr (x0 : BitVec 4) (half : BitVec 5) (mask : BitVec 12) (s : State) : exec (.tffr x0 half mask) s = execTffr half mask s := rfl
@[simp] theorem exec_add (sd : BitVec 5) (sa : BitVec 5) (sb : BitVec 5) (s : State) : exec (.add sd sa sb) s = execAdd sd sa sb s := rfl
@[simp] theorem exec_sub (sd : BitVec 5) (sa : BitVec 5) (sb : BitVec 5) (s : State) : exec (.sub sd sa sb) s = execSub sd sa sb s := rfl
@[simp] theorem exec_and (sd : BitVec 5) (sa : BitVec 5) (sb : BitVec 5) (s : State) : exec (.and sd sa sb) s = execAnd sd sa sb s := rfl
@[simp] theorem exec_or (sd : BitVec 5) (sa : BitVec 5) (sb : BitVec 5) (s : State) : exec (.or sd sa sb) s = execOr sd sa sb s := rfl
@[simp] theorem exec_xor (sd : BitVec 5) (sa : BitVec 5) (sb : BitVec 5) (s : State) : exec (.xor sd sa sb) s = execXor sd sa sb s := rfl
@[simp] theorem exec_min (sd : BitVec 5) (sa : BitVec 5) (sb : BitVec 5) (u : BitVec 1) (s : State) : exec (.min sd sa sb u) s = execMin sd sa sb u s := rfl
@[simp] theorem exec_max (sd : BitVec 5) (sa : BitVec 5) (sb : BitVec 5) (u : BitVec 1) (s : State) : exec (.max sd sa sb u) s = execMax sd sa sb u s := rfl
@[simp] theorem exec_slt (sd : BitVec 5) (sa : BitVec 5) (sb : BitVec 5) (u : BitVec 1) (s : State) : exec (.slt sd sa sb u) s = execSlt sd sa sb u s := rfl
@[simp] theorem exec_sel (sd : BitVec 5) (sa : BitVec 5) (sb : BitVec 5) (s : State) : exec (.sel sd sa sb) s = execSel sd sa sb s := rfl
@[simp] theorem exec_addi (sd : BitVec 5) (sa : BitVec 5) (imm : BitVec 13) (s : State) : exec (.addi sd sa imm) s = execAddi sd sa imm s := rfl
@[simp] theorem exec_andi (sd : BitVec 5) (sa : BitVec 5) (imm : BitVec 13) (s : State) : exec (.andi sd sa imm) s = execAndi sd sa imm s := rfl
@[simp] theorem exec_ori (sd : BitVec 5) (sa : BitVec 5) (imm : BitVec 13) (s : State) : exec (.ori sd sa imm) s = execOri sd sa imm s := rfl
@[simp] theorem exec_xori (sd : BitVec 5) (sa : BitVec 5) (imm : BitVec 13) (s : State) : exec (.xori sd sa imm) s = execXori sd sa imm s := rfl
@[simp] theorem exec_slti (sd : BitVec 5) (sa : BitVec 5) (imm : BitVec 13) (s : State) : exec (.slti sd sa imm) s = execSlti sd sa imm s := rfl
@[simp] theorem exec_sltiU (sd : BitVec 5) (sa : BitVec 5) (imm : BitVec 13) (s : State) : exec (.sltiU sd sa imm) s = execSltiU sd sa imm s := rfl
@[simp] theorem exec_sll (sd : BitVec 5) (sa : BitVec 5) (sb : BitVec 5) (s : State) : exec (.sll sd sa sb) s = execSll sd sa sb s := rfl
@[simp] theorem exec_sllImm (sd : BitVec 5) (sa : BitVec 5) (n : BitVec 6) (s : State) : exec (.sllImm sd sa n) s = execSllImm sd sa n s := rfl
@[simp] theorem exec_srl (sd : BitVec 5) (sa : BitVec 5) (sb : BitVec 5) (s : State) : exec (.srl sd sa sb) s = execSrl sd sa sb s := rfl
@[simp] theorem exec_srlImm (sd : BitVec 5) (sa : BitVec 5) (n : BitVec 6) (s : State) : exec (.srlImm sd sa n) s = execSrlImm sd sa n s := rfl
@[simp] theorem exec_sra (sd : BitVec 5) (sa : BitVec 5) (sb : BitVec 5) (s : State) : exec (.sra sd sa sb) s = execSra sd sa sb s := rfl
@[simp] theorem exec_sraImm (sd : BitVec 5) (sa : BitVec 5) (n : BitVec 6) (s : State) : exec (.sraImm sd sa n) s = execSraImm sd sa n s := rfl
@[simp] theorem exec_clz (sd : BitVec 5) (sa : BitVec 5) (w : BitVec 1) (s : State) : exec (.clz sd sa w) s = execClz sd sa w s := rfl
@[simp] theorem exec_ctz (sd : BitVec 5) (sa : BitVec 5) (w : BitVec 1) (s : State) : exec (.ctz sd sa w) s = execCtz sd sa w s := rfl
@[simp] theorem exec_popc (sd : BitVec 5) (sa : BitVec 5) (w : BitVec 1) (s : State) : exec (.popc sd sa w) s = execPopc sd sa w s := rfl
@[simp] theorem exec_bext (sd : BitVec 5) (sa : BitVec 5) (sb : BitVec 5) (wm1 : BitVec 6) (s : State) : exec (.bext sd sa sb wm1) s = execBext sd sa sb wm1 s := rfl
@[simp] theorem exec_bins (sd : BitVec 5) (sa : BitVec 5) (sb : BitVec 5) (wm1 : BitVec 6) (s : State) : exec (.bins sd sa sb wm1) s = execBins sd sa sb wm1 s := rfl
@[simp] theorem exec_mul (sd : BitVec 5) (sa : BitVec 5) (sb : BitVec 5) (s : State) : exec (.mul sd sa sb) s = execMul sd sa sb s := rfl
@[simp] theorem exec_mulh (sd : BitVec 5) (sa : BitVec 5) (sb : BitVec 5) (u : BitVec 1) (s : State) : exec (.mulh sd sa sb u) s = execMulh sd sa sb u s := rfl
@[simp] theorem exec_div (sd : BitVec 5) (sa : BitVec 5) (sb : BitVec 5) (u : BitVec 1) (s : State) : exec (.div sd sa sb u) s = execDiv sd sa sb u s := rfl
@[simp] theorem exec_rem (sd : BitVec 5) (sa : BitVec 5) (sb : BitVec 5) (u : BitVec 1) (s : State) : exec (.rem sd sa sb u) s = execRem sd sa sb u s := rfl
@[simp] theorem exec_fadd (sd : BitVec 5) (sa : BitVec 5) (sb : BitVec 5) (rm : BitVec 3) (d : BitVec 1) (s : State) : exec (.fadd sd sa sb rm d) s = execFadd sd sa sb rm d s := rfl
@[simp] theorem exec_fsub (sd : BitVec 5) (sa : BitVec 5) (sb : BitVec 5) (rm : BitVec 3) (d : BitVec 1) (s : State) : exec (.fsub sd sa sb rm d) s = execFsub sd sa sb rm d s := rfl
@[simp] theorem exec_fmul (sd : BitVec 5) (sa : BitVec 5) (sb : BitVec 5) (rm : BitVec 3) (d : BitVec 1) (s : State) : exec (.fmul sd sa sb rm d) s = execFmul sd sa sb rm d s := rfl
@[simp] theorem exec_fdiv (sd : BitVec 5) (sa : BitVec 5) (sb : BitVec 5) (rm : BitVec 3) (d : BitVec 1) (s : State) : exec (.fdiv sd sa sb rm d) s = execFdiv sd sa sb rm d s := rfl
@[simp] theorem exec_fsqrt (sd : BitVec 5) (sa : BitVec 5) (rm : BitVec 3) (d : BitVec 1) (s : State) : exec (.fsqrt sd sa rm d) s = execFsqrt sd sa rm d s := rfl
@[simp] theorem exec_fma (sd : BitVec 5) (sa : BitVec 5) (sb : BitVec 5) (rm : BitVec 3) (d : BitVec 1) (s : State) : exec (.fma sd sa sb rm d) s = execFma sd sa sb rm d s := rfl
@[simp] theorem exec_fcvt (sd : BitVec 5) (sa : BitVec 5) (m : BitVec 2) (rm : BitVec 3) (d : BitVec 1) (s : State) : exec (.fcvt sd sa m rm d) s = execFcvt sd sa m rm d s := rfl
@[simp] theorem exec_peq (sa : BitVec 5) (sb : BitVec 5) (s : State) : exec (.peq sa sb) s = execPeq sa sb s := rfl
@[simp] theorem exec_pne (sa : BitVec 5) (sb : BitVec 5) (s : State) : exec (.pne sa sb) s = execPne sa sb s := rfl
@[simp] theorem exec_plt (sa : BitVec 5) (sb : BitVec 5) (u : BitVec 1) (s : State) : exec (.plt sa sb u) s = execPlt sa sb u s := rfl
@[simp] theorem exec_pge (sa : BitVec 5) (sb : BitVec 5) (u : BitVec 1) (s : State) : exec (.pge sa sb u) s = execPge sa sb u s := rfl
@[simp] theorem exec_pfeq (sa : BitVec 5) (sb : BitVec 5) (d : BitVec 1) (s : State) : exec (.pfeq sa sb d) s = execPfeq sa sb d s := rfl
@[simp] theorem exec_pflt (sa : BitVec 5) (sb : BitVec 5) (d : BitVec 1) (s : State) : exec (.pflt sa sb d) s = execPflt sa sb d s := rfl
@[simp] theorem exec_pfle (sa : BitVec 5) (sb : BitVec 5) (d : BitVec 1) (s : State) : exec (.pfle sa sb d) s = execPfle sa sb d s := rfl
@[simp] theorem exec_lis (sd : BitVec 5) (imm : BitVec 13) (s : State) : exec (.lis sd imm) s = execLis sd imm s := rfl
@[simp] theorem exec_lsh (sd : BitVec 5) (imm : BitVec 13) (s : State) : exec (.lsh sd imm) s = execLsh sd imm s := rfl
@[simp] theorem exec_mfcr (sd : BitVec 5) (cr : BitVec 11) (s : State) : exec (.mfcr sd cr) s = execMfcr sd cr s := rfl
@[simp] theorem exec_mtcr (sa : BitVec 5) (cr : BitVec 11) (s : State) : exec (.mtcr sa cr) s = execMtcr sa cr s := rfl
@[simp] theorem exec_mtcrs (sa : BitVec 5) (cr : BitVec 11) (s : State) : exec (.mtcrs sa cr) s = execMtcrs sa cr s := rfl
@[simp] theorem exec_mtcrc (sa : BitVec 5) (cr : BitVec 11) (s : State) : exec (.mtcrc sa cr) s = execMtcrc sa cr s := rfl
@[simp] theorem exec_ld (sd : BitVec 5) (sa : BitVec 5) (oc : BitVec 4) (sz : BitVec 2) (off : BitVec 9) (s : State) : exec (.ld sd sa oc sz off) s = execLd sd sa oc sz off s := rfl
@[simp] theorem exec_ldu (sd : BitVec 5) (sa : BitVec 5) (oc : BitVec 4) (sz : BitVec 2) (off : BitVec 9) (s : State) : exec (.ldu sd sa oc sz off) s = execLdu sd sa oc sz off s := rfl
@[simp] theorem exec_st (sd : BitVec 5) (sa : BitVec 5) (oc : BitVec 4) (sz : BitVec 2) (off : BitVec 9) (s : State) : exec (.st sd sa oc sz off) s = execSt sd sa oc sz off s := rfl
@[simp] theorem exec_aadd (sd : BitVec 5) (sa : BitVec 5) (sb : BitVec 5) (cls : BitVec 2) (scope : BitVec 2) (d : BitVec 1) (s : State) : exec (.aadd sd sa sb cls scope d) s = execAadd sd sa sb cls scope d s := rfl
@[simp] theorem exec_aand (sd : BitVec 5) (sa : BitVec 5) (sb : BitVec 5) (cls : BitVec 2) (scope : BitVec 2) (d : BitVec 1) (s : State) : exec (.aand sd sa sb cls scope d) s = execAand sd sa sb cls scope d s := rfl
@[simp] theorem exec_aor (sd : BitVec 5) (sa : BitVec 5) (sb : BitVec 5) (cls : BitVec 2) (scope : BitVec 2) (d : BitVec 1) (s : State) : exec (.aor sd sa sb cls scope d) s = execAor sd sa sb cls scope d s := rfl
@[simp] theorem exec_axor (sd : BitVec 5) (sa : BitVec 5) (sb : BitVec 5) (cls : BitVec 2) (scope : BitVec 2) (d : BitVec 1) (s : State) : exec (.axor sd sa sb cls scope d) s = execAxor sd sa sb cls scope d s := rfl
@[simp] theorem exec_amin (sd : BitVec 5) (sa : BitVec 5) (sb : BitVec 5) (cls : BitVec 2) (scope : BitVec 2) (u : BitVec 1) (d : BitVec 1) (s : State) : exec (.amin sd sa sb cls scope u d) s = execAmin sd sa sb cls scope u d s := rfl
@[simp] theorem exec_amax (sd : BitVec 5) (sa : BitVec 5) (sb : BitVec 5) (cls : BitVec 2) (scope : BitVec 2) (u : BitVec 1) (d : BitVec 1) (s : State) : exec (.amax sd sa sb cls scope u d) s = execAmax sd sa sb cls scope u d s := rfl
@[simp] theorem exec_aswp (sd : BitVec 5) (sa : BitVec 5) (sb : BitVec 5) (cls : BitVec 2) (scope : BitVec 2) (d : BitVec 1) (s : State) : exec (.aswp sd sa sb cls scope d) s = execAswp sd sa sb cls scope d s := rfl
@[simp] theorem exec_acas (sd : BitVec 5) (sa : BitVec 5) (sb : BitVec 5) (cls : BitVec 2) (scope : BitVec 2) (d : BitVec 1) (s : State) : exec (.acas sd sa sb cls scope d) s = execAcas sd sa sb cls scope d s := rfl
@[simp] theorem exec_fence (mask : BitVec 16) (scope : BitVec 2) (s : State) : exec (.fence mask scope) s = execFence mask scope s := rfl
@[simp] theorem exec_lda (sd : BitVec 5) (sa : BitVec 5) (sb : BitVec 5) (sz : BitVec 2) (scope : BitVec 2) (s : State) : exec (.lda sd sa sb sz scope) s = execLda sd sa sb sz scope s := rfl
@[simp] theorem exec_stl (sd : BitVec 5) (sa : BitVec 5) (sb : BitVec 5) (sz : BitVec 2) (scope : BitVec 2) (s : State) : exec (.stl sd sa sb sz scope) s = execStl sd sa sb sz scope s := rfl
@[simp] theorem exec_syncw (mask : BitVec 16) (s : State) : exec (.syncw mask) s = execSyncw mask s := rfl
@[simp] theorem exec_bzeq (sa : BitVec 5) (off : BitVec 16) (s : State) : exec (.bzeq sa off) s = execBzeq sa off s := rfl
@[simp] theorem exec_bzne (sa : BitVec 5) (off : BitVec 16) (s : State) : exec (.bzne sa off) s = execBzne sa off s := rfl
@[simp] theorem exec_bzlt (sa : BitVec 5) (off : BitVec 16) (s : State) : exec (.bzlt sa off) s = execBzlt sa off s := rfl
@[simp] theorem exec_bzge (sa : BitVec 5) (off : BitVec 16) (s : State) : exec (.bzge sa off) s = execBzge sa off s := rfl
@[simp] theorem exec_bzgt (sa : BitVec 5) (off : BitVec 16) (s : State) : exec (.bzgt sa off) s = execBzgt sa off s := rfl
@[simp] theorem exec_bzle (sa : BitVec 5) (off : BitVec 16) (s : State) : exec (.bzle sa off) s = execBzle sa off s := rfl
@[simp] theorem exec_bpt (off : BitVec 16) (s : State) : exec (.bpt off) s = execBpt off s := rfl
@[simp] theorem exec_bpf (off : BitVec 16) (s : State) : exec (.bpf off) s = execBpf off s := rfl
@[simp] theorem exec_jal (sd : BitVec 5) (off : BitVec 21) (s : State) : exec (.jal sd off) s = execJal sd off s := rfl
@[simp] theorem exec_jalr (sd : BitVec 5) (sa : BitVec 5) (s : State) : exec (.jalr sd sa) s = execJalr sd sa s := rfl
@[simp] theorem exec_jr (sa : BitVec 5) (s : State) : exec (.jr sa) s = execJr sa s := rfl
@[simp] theorem exec_tload (sd : BitVec 5) (sa : BitVec 5) (e : BitVec 3) (s : State) : exec (.tload sd sa e) s = execTload sd sa e s := rfl
@[simp] theorem exec_tstart (sa : BitVec 5) (e : BitVec 3) (s : State) : exec (.tstart sa e) s = execTstart sa e s := rfl
@[simp] theorem exec_tstop (e : BitVec 3) (s : State) : exec (.tstop e) s = execTstop e s := rfl
@[simp] theorem exec_tbase (sd : BitVec 5) (sa : BitVec 5) (e : BitVec 3) (s : State) : exec (.tbase sd sa e) s = execTbase sd sa e s := rfl
@[simp] theorem exec_tset (sa : BitVec 5) (n : BitVec 8) (e : BitVec 3) (s : State) : exec (.tset sa n e) s = execTset sa n e s := rfl
@[simp] theorem exec_tget (sd : BitVec 5) (n : BitVec 8) (e : BitVec 3) (s : State) : exec (.tget sd n e) s = execTget sd n e s := rfl
@[simp] theorem exec_twidle (e : BitVec 3) (s : State) : exec (.twidle e) s = execTwidle e s := rfl
@[simp] theorem exec_qput (sd : BitVec 5) (sa : BitVec 5) (sb : BitVec 5) (s : State) : exec (.qput sd sa sb) s = execQput sd sa sb s := rfl
@[simp] theorem exec_qputNb (sd : BitVec 5) (sa : BitVec 5) (sb : BitVec 5) (s : State) : exec (.qputNb sd sa sb) s = execQputNb sd sa sb s := rfl
@[simp] theorem exec_qtake (sd : BitVec 5) (s : State) : exec (.qtake sd) s = execQtake sd s := rfl
@[simp] theorem exec_qsteal (sd : BitVec 5) (s : State) : exec (.qsteal sd) s = execQsteal sd s := rfl
@[simp] theorem exec_qstealRank (sd : BitVec 5) (sa : BitVec 5) (s : State) : exec (.qstealRank sd sa) s = execQstealRank sd sa s := rfl
@[simp] theorem exec_qcommit (sd : BitVec 5) (s : State) : exec (.qcommit sd) s = execQcommit sd s := rfl
@[simp] theorem exec_qdone (sd : BitVec 5) (sa : BitVec 5) (sb : BitVec 5) (s : State) : exec (.qdone sd sa sb) s = execQdone sd sa sb s := rfl
@[simp] theorem exec_barr (sd : BitVec 5) (s : State) : exec (.barr sd) s = execBarr sd s := rfl
@[simp] theorem exec_barw (sa : BitVec 5) (s : State) : exec (.barw sa) s = execBarw sa s := rfl
@[simp] theorem exec_fstop (sd : BitVec 5) (sa : BitVec 5) (s : State) : exec (.fstop sd sa) s = execFstop sd sa s := rfl
@[simp] theorem exec_txinit (sa : BitVec 5) (sb : BitVec 5) (s : State) : exec (.txinit sa sb) s = execTxinit sa sb s := rfl
@[simp] theorem exec_txexp (sa : BitVec 5) (sb : BitVec 5) (s : State) : exec (.txexp sa sb) s = execTxexp sa sb s := rfl
@[simp] theorem exec_txarr (sd : BitVec 5) (sa : BitVec 5) (sb : BitVec 5) (s : State) : exec (.txarr sd sa sb) s = execTxarr sd sa sb s := rfl
@[simp] theorem exec_txwait (sa : BitVec 5) (sb : BitVec 5) (s : State) : exec (.txwait sa sb) s = execTxwait sa sb s := rfl
@[simp] theorem exec_rft (s : State) : exec (.rft) s = execRft s := rfl
@[simp] theorem exec_scall (sd : BitVec 5) (sa : BitVec 5) (sb : BitVec 5) (s : State) : exec (.scall sd sa sb) s = execScall sd sa sb s := rfl
@[simp] theorem exec_wfe (sd : BitVec 5) (sa : BitVec 5) (s : State) : exec (.wfe sd sa) s = execWfe sd sa s := rfl
@[simp] theorem exec_sev (sa : BitVec 5) (s : State) : exec (.sev sa) s = execSev sa s := rfl
@[simp] theorem exec_rdcnt (sd : BitVec 5) (n : BitVec 6) (s : State) : exec (.rdcnt sd n) s = execRdcnt sd n s := rfl
@[simp] theorem exec_pinvCtx (sa : BitVec 5) (s : State) : exec (.pinvCtx sa) s = execPinvCtx sa s := rfl
@[simp] theorem exec_pinvRange (sa : BitVec 5) (sb : BitVec 5) (s : State) : exec (.pinvRange sa sb) s = execPinvRange sa sb s := rfl
@[simp] theorem exec_pinvAll (s : State) : exec (.pinvAll) s = execPinvAll s := rfl
@[simp] theorem exec_rminvCtx (sa : BitVec 5) (s : State) : exec (.rminvCtx sa) s = execRminvCtx sa s := rfl
@[simp] theorem exec_rminvRange (sa : BitVec 5) (sb : BitVec 5) (s : State) : exec (.rminvRange sa sb) s = execRminvRange sa sb s := rfl
@[simp] theorem exec_rminvAll (s : State) : exec (.rminvAll) s = execRminvAll s := rfl
@[simp] theorem exec_ctxsv (sd : BitVec 5) (sa : BitVec 5) (s : State) : exec (.ctxsv sd sa) s = execCtxsv sd sa s := rfl
@[simp] theorem exec_ctxld (sa : BitVec 5) (s : State) : exec (.ctxld sa) s = execCtxld sa s := rfl
@[simp] theorem exec_bsclaim (sa : BitVec 5) (n : BitVec 5) (s : State) : exec (.bsclaim sa n) s = execBsclaim sa n s := rfl
@[simp] theorem exec_bsrel (s : State) : exec (.bsrel) s = execBsrel s := rfl
@[simp] theorem exec_bsin (tag : BitVec 6) (sa : BitVec 5) (sb : BitVec 5) (lz : BitVec 3) (s : State) : exec (.bsin tag sa sb lz) s = execBsin tag sa sb lz s := rfl
@[simp] theorem exec_bsout (tag : BitVec 6) (sa : BitVec 5) (sb : BitVec 5) (sx : BitVec 1) (lz : BitVec 3) (s : State) : exec (.bsout tag sa sb sx lz) s = execBsout tag sa sb sx lz s := rfl
@[simp] theorem exec_bslog (sa : BitVec 5) (op : BitVec 5) (s : State) : exec (.bslog sa op) s = execBslog sa op s := rfl
@[simp] theorem exec_bsadd (sa : BitVec 5) (sb : BitVec 5) (sg : BitVec 1) (sat : BitVec 1) (k : BitVec 1) (s : State) : exec (.bsadd sa sb sg sat k) s = execBsadd sa sb sg sat k s := rfl
@[simp] theorem exec_bssub (sa : BitVec 5) (sb : BitVec 5) (sg : BitVec 1) (sat : BitVec 1) (k : BitVec 1) (s : State) : exec (.bssub sa sb sg sat k) s = execBssub sa sb sg sat k s := rfl
@[simp] theorem exec_bscmp (sa : BitVec 5) (sb : BitVec 5) (k : BitVec 1) (sg : BitVec 1) (cond : BitVec 3) (s : State) : exec (.bscmp sa sb k sg cond) s = execBscmp sa sb k sg cond s := rfl
@[simp] theorem exec_bssel (sa : BitVec 5) (s : State) : exec (.bssel sa) s = execBssel sa s := rfl
@[simp] theorem exec_bsinc (sa : BitVec 5) (s : State) : exec (.bsinc sa) s = execBsinc sa s := rfl
@[simp] theorem exec_bsmin (sa : BitVec 5) (sb : BitVec 5) (sg : BitVec 1) (k : BitVec 1) (s : State) : exec (.bsmin sa sb sg k) s = execBsmin sa sb sg k s := rfl
@[simp] theorem exec_bspop (sa : BitVec 5) (s : State) : exec (.bspop sa) s = execBspop sa s := rfl
@[simp] theorem exec_bsshf (sa : BitVec 5) (rot : BitVec 1) (dn : BitVec 1) (s : State) : exec (.bsshf sa rot dn) s = execBsshf sa rot dn s := rfl
@[simp] theorem exec_bswait (s : State) : exec (.bswait) s = execBswait s := rfl
@[simp] theorem exec_fork (tag : BitVec 6) (sa : BitVec 5) (sb : BitVec 5) (p : BitVec 3) (s : State) : exec (.fork tag sa sb p) s = execFork tag sa sb p s := rfl
@[simp] theorem exec_join (tag : BitVec 6) (sa : BitVec 5) (s : State) : exec (.join tag sa) s = execJoin tag sa s := rfl
@[simp] theorem exec_mbput (tag : BitVec 6) (sa : BitVec 5) (s : State) : exec (.mbput tag sa) s = execMbput tag sa s := rfl
@[simp] theorem exec_mbget (tag : BitVec 6) (sa : BitVec 5) (s : State) : exec (.mbget tag sa) s = execMbget tag sa s := rfl
@[simp] theorem exec_pbind (sa : BitVec 5) (u : BitVec 4) (s : State) : exec (.pbind sa u) s = execPbind sa u s := rfl
@[simp] theorem exec_pstrm (sa : BitVec 5) (sb : BitVec 5) (u : BitVec 4) (s : State) : exec (.pstrm sa sb u) s = execPstrm sa sb u s := rfl
@[simp] theorem exec_prun (sa : BitVec 5) (u : BitVec 4) (s : State) : exec (.prun sa u) s = execPrun sa u s := rfl
@[simp] theorem exec_pchain (sa : BitVec 5) (u : BitVec 4) (s : State) : exec (.pchain sa u) s = execPchain sa u s := rfl
@[simp] theorem exec_prcpy (sa : BitVec 5) (sb : BitVec 5) (b : BitVec 1) (s : State) : exec (.prcpy sa sb b) s = execPrcpy sa sb b s := rfl
@[simp] theorem exec_przero (sa : BitVec 5) (s : State) : exec (.przero sa) s = execPrzero sa s := rfl
@[simp] theorem exec_pflush (u : BitVec 4) (s : State) : exec (.pflush u) s = execPflush u s := rfl
@[simp] theorem exec_xbkt (tag : BitVec 6) (sa : BitVec 5) (s : State) : exec (.xbkt tag sa) s = execXbkt tag sa s := rfl
@[simp] theorem exec_xa2a (tag : BitVec 6) (sa : BitVec 5) (s : State) : exec (.xa2a tag sa) s = execXa2a tag sa s := rfl
@[simp] theorem exec_xput (tag : BitVec 6) (sa : BitVec 5) (s : State) : exec (.xput tag sa) s = execXput tag sa s := rfl
@[simp] theorem exec_xget (tag : BitVec 6) (sa : BitVec 5) (s : State) : exec (.xget tag sa) s = execXget tag sa s := rfl
@[simp] theorem exec_xamo (tag : BitVec 6) (sa : BitVec 5) (s : State) : exec (.xamo tag sa) s = execXamo tag sa s := rfl
@[simp] theorem exec_xsig (tag : BitVec 6) (sa : BitVec 5) (sb : BitVec 5) (s : State) : exec (.xsig tag sa sb) s = execXsig tag sa sb s := rfl
@[simp] theorem exec_xwait (tag : BitVec 6) (sa : BitVec 5) (s : State) : exec (.xwait tag sa) s = execXwait tag sa s := rfl
@[simp] theorem exec_gbag (tag : BitVec 6) (sa : BitVec 5) (s : State) : exec (.gbag tag sa) s = execGbag tag sa s := rfl
@[simp] theorem exec_grow (tag : BitVec 6) (sa : BitVec 5) (s : State) : exec (.grow tag sa) s = execGrow tag sa s := rfl
@[simp] theorem exec_supd (tag : BitVec 6) (sa : BitVec 5) (s : State) : exec (.supd tag sa) s = execSupd tag sa s := rfl
@[simp] theorem exec_scommit (tag : BitVec 6) (sa : BitVec 5) (sb : BitVec 5) (s : State) : exec (.scommit tag sa sb) s = execScommit tag sa sb s := rfl
@[simp] theorem exec_skq (tag : BitVec 6) (sa : BitVec 5) (s : State) : exec (.skq tag sa) s = execSkq tag sa s := rfl
@[simp] theorem exec_vadd (x0 : BitVec 4) (vd : BitVec 5) (va : BitVec 5) (vb : BitVec 5) (la : BitVec 1) (lb : BitVec 1) (s : State) : exec (.vadd x0 vd va vb la lb) s = execVadd vd va vb la lb s := rfl
@[simp] theorem exec_vsub (x0 : BitVec 4) (vd : BitVec 5) (va : BitVec 5) (vb : BitVec 5) (la : BitVec 1) (lb : BitVec 1) (s : State) : exec (.vsub x0 vd va vb la lb) s = execVsub vd va vb la lb s := rfl
@[simp] theorem exec_vmul (x0 : BitVec 4) (vd : BitVec 5) (va : BitVec 5) (vb : BitVec 5) (la : BitVec 1) (lb : BitVec 1) (s : State) : exec (.vmul x0 vd va vb la lb) s = execVmul vd va vb la lb s := rfl
@[simp] theorem exec_vfma (x0 : BitVec 4) (vd : BitVec 5) (va : BitVec 5) (vb : BitVec 5) (la : BitVec 1) (lb : BitVec 1) (s : State) : exec (.vfma x0 vd va vb la lb) s = execVfma vd va vb la lb s := rfl
@[simp] theorem exec_vfms (x0 : BitVec 4) (vd : BitVec 5) (va : BitVec 5) (vb : BitVec 5) (la : BitVec 1) (lb : BitVec 1) (s : State) : exec (.vfms x0 vd va vb la lb) s = execVfms vd va vb la lb s := rfl
@[simp] theorem exec_vdiv (x0 : BitVec 4) (vd : BitVec 5) (va : BitVec 5) (vb : BitVec 5) (la : BitVec 1) (lb : BitVec 1) (s : State) : exec (.vdiv x0 vd va vb la lb) s = execVdiv vd va vb la lb s := rfl
@[simp] theorem exec_vsqrt (x0 : BitVec 4) (vd : BitVec 5) (va : BitVec 5) (la : BitVec 1) (s : State) : exec (.vsqrt x0 vd va la) s = execVsqrt vd va la s := rfl
@[simp] theorem exec_vmin (x0 : BitVec 4) (vd : BitVec 5) (va : BitVec 5) (vb : BitVec 5) (la : BitVec 1) (lb : BitVec 1) (s : State) : exec (.vmin x0 vd va vb la lb) s = execVmin vd va vb la lb s := rfl
@[simp] theorem exec_vmax (x0 : BitVec 4) (vd : BitVec 5) (va : BitVec 5) (vb : BitVec 5) (la : BitVec 1) (lb : BitVec 1) (s : State) : exec (.vmax x0 vd va vb la lb) s = execVmax vd va vb la lb s := rfl
@[simp] theorem exec_vabs (x0 : BitVec 4) (vd : BitVec 5) (va : BitVec 5) (la : BitVec 1) (s : State) : exec (.vabs x0 vd va la) s = execVabs vd va la s := rfl
@[simp] theorem exec_vneg (x0 : BitVec 4) (vd : BitVec 5) (va : BitVec 5) (la : BitVec 1) (s : State) : exec (.vneg x0 vd va la) s = execVneg vd va la s := rfl
@[simp] theorem exec_vfmaw (x0 : BitVec 4) (vd : BitVec 5) (va : BitVec 5) (vb : BitVec 5) (la : BitVec 1) (lb : BitVec 1) (s : State) : exec (.vfmaw x0 vd va vb la lb) s = execVfmaw vd va vb la lb s := rfl
@[simp] theorem exec_vmulw (x0 : BitVec 4) (vd : BitVec 5) (va : BitVec 5) (vb : BitVec 5) (la : BitVec 1) (lb : BitVec 1) (s : State) : exec (.vmulw x0 vd va vb la lb) s = execVmulw vd va vb la lb s := rfl
@[simp] theorem exec_vaddw (x0 : BitVec 4) (vd : BitVec 5) (va : BitVec 5) (vb : BitVec 5) (la : BitVec 1) (lb : BitVec 1) (s : State) : exec (.vaddw x0 vd va vb la lb) s = execVaddw vd va vb la lb s := rfl
@[simp] theorem exec_vadds (x0 : BitVec 4) (vd : BitVec 5) (va : BitVec 5) (vb : BitVec 5) (la : BitVec 1) (lb : BitVec 1) (s : State) : exec (.vadds x0 vd va vb la lb) s = execVadds vd va vb la lb s := rfl
@[simp] theorem exec_vsubs (x0 : BitVec 4) (vd : BitVec 5) (va : BitVec 5) (vb : BitVec 5) (la : BitVec 1) (lb : BitVec 1) (s : State) : exec (.vsubs x0 vd va vb la lb) s = execVsubs vd va vb la lb s := rfl
@[simp] theorem exec_vmulh (x0 : BitVec 4) (vd : BitVec 5) (va : BitVec 5) (vb : BitVec 5) (la : BitVec 1) (lb : BitVec 1) (s : State) : exec (.vmulh x0 vd va vb la lb) s = execVmulh vd va vb la lb s := rfl
@[simp] theorem exec_vdot4 (x0 : BitVec 4) (vd : BitVec 5) (va : BitVec 5) (vb : BitVec 5) (la : BitVec 1) (lb : BitVec 1) (s : State) : exec (.vdot4 x0 vd va vb la lb) s = execVdot4 vd va vb la lb s := rfl
@[simp] theorem exec_vand (x0 : BitVec 4) (vd : BitVec 5) (va : BitVec 5) (vb : BitVec 5) (la : BitVec 1) (lb : BitVec 1) (s : State) : exec (.vand x0 vd va vb la lb) s = execVand vd va vb la lb s := rfl
@[simp] theorem exec_vor (x0 : BitVec 4) (vd : BitVec 5) (va : BitVec 5) (vb : BitVec 5) (la : BitVec 1) (lb : BitVec 1) (s : State) : exec (.vor x0 vd va vb la lb) s = execVor vd va vb la lb s := rfl
@[simp] theorem exec_vxor (x0 : BitVec 4) (vd : BitVec 5) (va : BitVec 5) (vb : BitVec 5) (la : BitVec 1) (lb : BitVec 1) (s : State) : exec (.vxor x0 vd va vb la lb) s = execVxor vd va vb la lb s := rfl
@[simp] theorem exec_vnot (x0 : BitVec 4) (vd : BitVec 5) (va : BitVec 5) (la : BitVec 1) (s : State) : exec (.vnot x0 vd va la) s = execVnot vd va la s := rfl
@[simp] theorem exec_vsll (x0 : BitVec 4) (vd : BitVec 5) (va : BitVec 5) (vb : BitVec 5) (la : BitVec 1) (lb : BitVec 1) (s : State) : exec (.vsll x0 vd va vb la lb) s = execVsll vd va vb la lb s := rfl
@[simp] theorem exec_vsrl (x0 : BitVec 4) (vd : BitVec 5) (va : BitVec 5) (vb : BitVec 5) (la : BitVec 1) (lb : BitVec 1) (s : State) : exec (.vsrl x0 vd va vb la lb) s = execVsrl vd va vb la lb s := rfl
@[simp] theorem exec_vsra (x0 : BitVec 4) (vd : BitVec 5) (va : BitVec 5) (vb : BitVec 5) (la : BitVec 1) (lb : BitVec 1) (s : State) : exec (.vsra x0 vd va vb la lb) s = execVsra vd va vb la lb s := rfl
@[simp] theorem exec_vpopc (x0 : BitVec 4) (vd : BitVec 5) (va : BitVec 5) (la : BitVec 1) (s : State) : exec (.vpopc x0 vd va la) s = execVpopc vd va la s := rfl
@[simp] theorem exec_vpeq (x0 : BitVec 4) (va : BitVec 5) (vb : BitVec 5) (la : BitVec 1) (lb : BitVec 1) (s : State) : exec (.vpeq x0 va vb la lb) s = execVpeq va vb la lb s := rfl
@[simp] theorem exec_vpne (x0 : BitVec 4) (va : BitVec 5) (vb : BitVec 5) (la : BitVec 1) (lb : BitVec 1) (s : State) : exec (.vpne x0 va vb la lb) s = execVpne va vb la lb s := rfl
@[simp] theorem exec_vplt (x0 : BitVec 4) (va : BitVec 5) (vb : BitVec 5) (la : BitVec 1) (lb : BitVec 1) (s : State) : exec (.vplt x0 va vb la lb) s = execVplt va vb la lb s := rfl
@[simp] theorem exec_vple (x0 : BitVec 4) (va : BitVec 5) (vb : BitVec 5) (la : BitVec 1) (lb : BitVec 1) (s : State) : exec (.vple x0 va vb la lb) s = execVple va vb la lb s := rfl
@[simp] theorem exec_vpnan (x0 : BitVec 4) (va : BitVec 5) (la : BitVec 1) (s : State) : exec (.vpnan x0 va la) s = execVpnan va la s := rfl
@[simp] theorem exec_vpfin (x0 : BitVec 4) (va : BitVec 5) (la : BitVec 1) (s : State) : exec (.vpfin x0 va la) s = execVpfin va la s := rfl
@[simp] theorem exec_vpld (x0 : BitVec 4) (va : BitVec 5) (la : BitVec 1) (s : State) : exec (.vpld x0 va la) s = execVpld va la s := rfl
@[simp] theorem exec_vpst (x0 : BitVec 4) (vd : BitVec 5) (s : State) : exec (.vpst x0 vd) s = execVpst vd s := rfl
@[simp] theorem exec_vcvt (x0 : BitVec 4) (vd : BitVec 5) (va : BitVec 5) (la : BitVec 1) (s : State) : exec (.vcvt x0 vd va la) s = execVcvt vd va la s := rfl
@[simp] theorem exec_vcvtsr (x0 : BitVec 4) (vd : BitVec 5) (va : BitVec 5) (k : BitVec 3) (la : BitVec 1) (s : State) : exec (.vcvtsr x0 vd va k la) s = execVcvtsr vd va k la s := rfl
@[simp] theorem exec_vqblk (x0 : BitVec 4) (vd : BitVec 5) (va : BitVec 5) (la : BitVec 1) (s : State) : exec (.vqblk x0 vd va la) s = execVqblk vd va la s := rfl
@[simp] theorem exec_vdqblk (x0 : BitVec 4) (vd : BitVec 5) (va : BitVec 5) (la : BitVec 1) (s : State) : exec (.vdqblk x0 vd va la) s = execVdqblk vd va la s := rfl
@[simp] theorem exec_vwid (x0 : BitVec 4) (vd : BitVec 5) (va : BitVec 5) (la : BitVec 1) (s : State) : exec (.vwid x0 vd va la) s = execVwid vd va la s := rfl
@[simp] theorem exec_vnarr (x0 : BitVec 4) (vd : BitVec 5) (va : BitVec 5) (la : BitVec 1) (s : State) : exec (.vnarr x0 vd va la) s = execVnarr vd va la s := rfl
@[simp] theorem exec_vrcp (x0 : BitVec 4) (vd : BitVec 5) (va : BitVec 5) (la : BitVec 1) (s : State) : exec (.vrcp x0 vd va la) s = execVrcp vd va la s := rfl
@[simp] theorem exec_vrsqrt (x0 : BitVec 4) (vd : BitVec 5) (va : BitVec 5) (la : BitVec 1) (s : State) : exec (.vrsqrt x0 vd va la) s = execVrsqrt vd va la s := rfl
@[simp] theorem exec_vexp (x0 : BitVec 4) (vd : BitVec 5) (va : BitVec 5) (la : BitVec 1) (s : State) : exec (.vexp x0 vd va la) s = execVexp vd va la s := rfl
@[simp] theorem exec_vlog (x0 : BitVec 4) (vd : BitVec 5) (va : BitVec 5) (la : BitVec 1) (s : State) : exec (.vlog x0 vd va la) s = execVlog vd va la s := rfl
@[simp] theorem exec_vtanh (x0 : BitVec 4) (vd : BitVec 5) (va : BitVec 5) (la : BitVec 1) (s : State) : exec (.vtanh x0 vd va la) s = execVtanh vd va la s := rfl
@[simp] theorem exec_vsigm (x0 : BitVec 4) (vd : BitVec 5) (va : BitVec 5) (la : BitVec 1) (s : State) : exec (.vsigm x0 vd va la) s = execVsigm vd va la s := rfl
@[simp] theorem exec_vperm (x0 : BitVec 4) (vd : BitVec 5) (va : BitVec 5) (vb : BitVec 5) (la : BitVec 1) (lb : BitVec 1) (s : State) : exec (.vperm x0 vd va vb la lb) s = execVperm vd va vb la lb s := rfl
@[simp] theorem exec_vcomp (x0 : BitVec 4) (vd : BitVec 5) (va : BitVec 5) (m : BitVec 1) (k : BitVec 3) (la : BitVec 1) (s : State) : exec (.vcomp x0 vd va m k la) s = execVcomp vd va m k la s := rfl
@[simp] theorem exec_vexpd (x0 : BitVec 4) (vd : BitVec 5) (va : BitVec 5) (la : BitVec 1) (s : State) : exec (.vexpd x0 vd va la) s = execVexpd vd va la s := rfl
@[simp] theorem exec_vpart (x0 : BitVec 4) (vd : BitVec 5) (va : BitVec 5) (k : BitVec 3) (la : BitVec 1) (s : State) : exec (.vpart x0 vd va k la) s = execVpart vd va k la s := rfl
@[simp] theorem exec_vslide (x0 : BitVec 4) (vd : BitVec 5) (va : BitVec 5) (k : BitVec 3) (la : BitVec 1) (s : State) : exec (.vslide x0 vd va k la) s = execVslide vd va k la s := rfl
@[simp] theorem exec_vzip (x0 : BitVec 4) (vd : BitVec 5) (va : BitVec 5) (vb : BitVec 5) (la : BitVec 1) (lb : BitVec 1) (s : State) : exec (.vzip x0 vd va vb la lb) s = execVzip vd va vb la lb s := rfl
@[simp] theorem exec_vunzip (x0 : BitVec 4) (vd : BitVec 5) (va : BitVec 5) (la : BitVec 1) (s : State) : exec (.vunzip x0 vd va la) s = execVunzip vd va la s := rfl
@[simp] theorem exec_vbcast (x0 : BitVec 4) (vd : BitVec 5) (va : BitVec 5) (k : BitVec 3) (la : BitVec 1) (s : State) : exec (.vbcast x0 vd va k la) s = execVbcast vd va k la s := rfl
@[simp] theorem exec_vredsum (x0 : BitVec 4) (vd : BitVec 5) (va : BitVec 5) (k : BitVec 3) (la : BitVec 1) (s : State) : exec (.vredsum x0 vd va k la) s = execVredsum vd va k la s := rfl
@[simp] theorem exec_vredmax (x0 : BitVec 4) (vd : BitVec 5) (va : BitVec 5) (k : BitVec 3) (la : BitVec 1) (s : State) : exec (.vredmax x0 vd va k la) s = execVredmax vd va k la s := rfl
@[simp] theorem exec_vredmin (x0 : BitVec 4) (vd : BitVec 5) (va : BitVec 5) (k : BitVec 3) (la : BitVec 1) (s : State) : exec (.vredmin x0 vd va k la) s = execVredmin vd va k la s := rfl
@[simp] theorem exec_vscan (x0 : BitVec 4) (vd : BitVec 5) (va : BitVec 5) (la : BitVec 1) (s : State) : exec (.vscan x0 vd va la) s = execVscan vd va la s := rfl
@[simp] theorem exec_vsegsum (x0 : BitVec 4) (vd : BitVec 5) (va : BitVec 5) (vb : BitVec 5) (la : BitVec 1) (lb : BitVec 1) (s : State) : exec (.vsegsum x0 vd va vb la lb) s = execVsegsum vd va vb la lb s := rfl
@[simp] theorem exec_vmov (x0 : BitVec 4) (vd : BitVec 5) (va : BitVec 5) (la : BitVec 1) (s : State) : exec (.vmov x0 vd va la) s = execVmov vd va la s := rfl
@[simp] theorem exec_vsplat (x0 : BitVec 4) (vd : BitVec 5) (k : BitVec 3) (s : State) : exec (.vsplat x0 vd k) s = execVsplat vd k s := rfl
@[simp] theorem exec_vtype (x0 : BitVec 4) (t0 : BitVec 4) (t1 : BitVec 4) (sat : BitVec 1) (rm : BitVec 3) (s : State) : exec (.vtype x0 t0 t1 sat rm) s = execVtype t0 t1 sat rm s := rfl
@[simp] theorem exec_vwin (x0 : BitVec 4) (base : BitVec 10) (s : State) : exec (.vwin x0 base) s = execVwin base s := rfl
@[simp] theorem exec_vidx (x0 : BitVec 4) (vd : BitVec 5) (s : State) : exec (.vidx x0 vd) s = execVidx vd s := rfl
@[simp] theorem exec_vaccrd (x0 : BitVec 4) (vd : BitVec 5) (acc : BitVec 4) (snap : BitVec 1) (k : BitVec 3) (s : State) : exec (.vaccrd x0 vd acc snap k) s = execVaccrd vd acc snap k s := rfl
@[simp] theorem exec_vaccwr (x0 : BitVec 4) (acc : BitVec 4) (va : BitVec 5) (k : BitVec 3) (la : BitVec 1) (s : State) : exec (.vaccwr x0 acc va k la) s = execVaccwr acc va k la s := rfl
@[simp] theorem exec_vtos (x0 : BitVec 4) (j : BitVec 3) (va : BitVec 5) (k : BitVec 3) (la : BitVec 1) (s : State) : exec (.vtos x0 j va k la) s = execVtos j va k la s := rfl
@[simp] theorem exec_vdead (x0 : BitVec 4) (vd : BitVec 5) (nm1 : BitVec 5) (s : State) : exec (.vdead x0 vd nm1) s = execVdead vd nm1 s := rfl
@[simp] theorem exec_vld (x0 : BitVec 4) (vd : BitVec 5) (as_ : BitVec 3) (oc : BitVec 4) (inc : BitVec 3) (s : State) : exec (.vld x0 vd as_ oc inc) s = execVld vd as_ oc inc s := rfl
@[simp] theorem exec_vlds (x0 : BitVec 4) (vd : BitVec 5) (as_ : BitVec 3) (oc : BitVec 4) (inc : BitVec 3) (s : State) : exec (.vlds x0 vd as_ oc inc) s = execVlds vd as_ oc inc s := rfl
@[simp] theorem exec_vldq (x0 : BitVec 4) (vd : BitVec 5) (as_ : BitVec 3) (oc : BitVec 4) (inc : BitVec 3) (s : State) : exec (.vldq x0 vd as_ oc inc) s = execVldq vd as_ oc inc s := rfl
@[simp] theorem exec_vst (x0 : BitVec 4) (vd : BitVec 5) (as_ : BitVec 3) (oc : BitVec 4) (inc : BitVec 3) (lu : BitVec 1) (s : State) : exec (.vst x0 vd as_ oc inc lu) s = execVst vd as_ oc inc lu s := rfl
@[simp] theorem exec_vsts (x0 : BitVec 4) (vd : BitVec 5) (as_ : BitVec 3) (oc : BitVec 4) (inc : BitVec 3) (lu : BitVec 1) (s : State) : exec (.vsts x0 vd as_ oc inc lu) s = execVsts vd as_ oc inc lu s := rfl
@[simp] theorem exec_vstq (x0 : BitVec 4) (vd : BitVec 5) (as_ : BitVec 3) (oc : BitVec 4) (inc : BitVec 3) (lu : BitVec 1) (s : State) : exec (.vstq x0 vd as_ oc inc lu) s = execVstq vd as_ oc inc lu s := rfl
@[simp] theorem exec_vgth (x0 : BitVec 4) (vd : BitVec 5) (va : BitVec 5) (k : BitVec 3) (la : BitVec 1) (s : State) : exec (.vgth x0 vd va k la) s = execVgth vd va k la s := rfl
@[simp] theorem exec_vsct (x0 : BitVec 4) (vd : BitVec 5) (va : BitVec 5) (k : BitVec 3) (la : BitVec 1) (s : State) : exec (.vsct x0 vd va k la) s = execVsct vd va k la s := rfl
@[simp] theorem exec_vsctadd (x0 : BitVec 4) (vd : BitVec 5) (va : BitVec 5) (k : BitVec 3) (la : BitVec 1) (s : State) : exec (.vsctadd x0 vd va k la) s = execVsctadd vd va k la s := rfl
@[simp] theorem exec_vaadd (x0 : BitVec 4) (vd : BitVec 5) (va : BitVec 5) (k : BitVec 3) (la : BitVec 1) (s : State) : exec (.vaadd x0 vd va k la) s = execVaadd vd va k la s := rfl
@[simp] theorem exec_vamax (x0 : BitVec 4) (vd : BitVec 5) (va : BitVec 5) (k : BitVec 3) (la : BitVec 1) (s : State) : exec (.vamax x0 vd va k la) s = execVamax vd va k la s := rfl
@[simp] theorem exec_mwld (x0 : BitVec 4) (da : BitVec 4) (db : BitVec 4) (s : State) : exec (.mwld x0 da db) s = execMwld da db s := rfl
@[simp] theorem exec_mwsp (x0 : BitVec 4) (da : BitVec 4) (db : BitVec 4) (s : State) : exec (.mwsp x0 da db) s = execMwsp da db s := rfl
@[simp] theorem exec_mmf (x0 : BitVec 4) (acc : BitVec 4) (da : BitVec 4) (db : BitVec 4) (z : BitVec 1) (s : State) : exec (.mmf x0 acc da db z) s = execMmf acc da db z s := rfl
@[simp] theorem exec_mmfg (x0 : BitVec 4) (acc : BitVec 4) (da : BitVec 4) (db : BitVec 4) (z : BitVec 1) (s : State) : exec (.mmfg x0 acc da db z) s = execMmfg acc da db z s := rfl
@[simp] theorem exec_mmb (x0 : BitVec 4) (acc : BitVec 4) (da : BitVec 4) (db : BitVec 4) (z : BitVec 1) (ks : BitVec 2) (s : State) : exec (.mmb x0 acc da db z ks) s = execMmb acc da db z ks s := rfl
@[simp] theorem exec_mmw (x0 : BitVec 4) (acc : BitVec 4) (da : BitVec 4) (db : BitVec 4) (z : BitVec 1) (ks : BitVec 2) (s : State) : exec (.mmw x0 acc da db z ks) s = execMmw acc da db z ks s := rfl
@[simp] theorem exec_mmfs (x0 : BitVec 4) (acc : BitVec 4) (da : BitVec 4) (db : BitVec 4) (z : BitVec 1) (s : State) : exec (.mmfs x0 acc da db z) s = execMmfs acc da db z s := rfl
@[simp] theorem exec_mmbs (x0 : BitVec 4) (acc : BitVec 4) (da : BitVec 4) (db : BitVec 4) (z : BitVec 1) (ks : BitVec 2) (s : State) : exec (.mmbs x0 acc da db z ks) s = execMmbs acc da db z ks s := rfl
@[simp] theorem exec_macz (x0 : BitVec 4) (acc : BitVec 4) (s : State) : exec (.macz x0 acc) s = execMacz acc s := rfl
@[simp] theorem exec_macst (x0 : BitVec 4) (acc : BitVec 4) (da : BitVec 4) (sat : BitVec 1) (rm : BitVec 3) (s : State) : exec (.macst x0 acc da sat rm) s = execMacst acc da sat rm s := rfl
@[simp] theorem exec_macld (x0 : BitVec 4) (acc : BitVec 4) (da : BitVec 4) (s : State) : exec (.macld x0 acc da) s = execMacld acc da s := rfl
@[simp] theorem exec_mdset (x0 : BitVec 4) (da : BitVec 4) (word : BitVec 2) (n : BitVec 2) (s : State) : exec (.mdset x0 da word n) s = execMdset da word n s := rfl
@[simp] theorem exec_mdld (x0 : BitVec 4) (da : BitVec 4) (cm1 : BitVec 4) (n : BitVec 2) (s : State) : exec (.mdld x0 da cm1 n) s = execMdld da cm1 n s := rfl
@[simp] theorem exec_mrpg (x0 : BitVec 4) (n : BitVec 2) (s : State) : exec (.mrpg x0 n) s = execMrpg n s := rfl
@[simp] theorem exec_fcpy (x0 : BitVec 4) (tag : BitVec 6) (fd : BitVec 4) (oc : BitVec 4) (s : State) : exec (.fcpy x0 tag fd oc) s = execFcpy tag fd oc s := rfl
@[simp] theorem exec_fcpyz (x0 : BitVec 4) (tag : BitVec 6) (fd : BitVec 4) (oc : BitVec 4) (s : State) : exec (.fcpyz x0 tag fd oc) s = execFcpyz tag fd oc s := rfl
@[simp] theorem exec_fcpym (x0 : BitVec 4) (tag : BitVec 6) (fd : BitVec 4) (oc : BitVec 4) (s : State) : exec (.fcpym x0 tag fd oc) s = execFcpym tag fd oc s := rfl
@[simp] theorem exec_fprf (x0 : BitVec 4) (fd : BitVec 4) (oc : BitVec 4) (s : State) : exec (.fprf x0 fd oc) s = execFprf fd oc s := rfl
@[simp] theorem exec_fwait (x0 : BitVec 4) (tag : BitVec 6) (sw : BitVec 1) (n : BitVec 2) (s : State) : exec (.fwait x0 tag sw n) s = execFwait tag sw n s := rfl
@[simp] theorem exec_fwaitr (x0 : BitVec 4) (tag : BitVec 6) (s : State) : exec (.fwaitr x0 tag) s = execFwaitr tag s := rfl
@[simp] theorem exec_fcan (x0 : BitVec 4) (tag : BitVec 6) (s : State) : exec (.fcan x0 tag) s = execFcan tag s := rfl
@[simp] theorem exec_fres (x0 : BitVec 4) (tag : BitVec 6) (s : State) : exec (.fres x0 tag) s = execFres tag s := rfl
@[simp] theorem exec_fwm (x0 : BitVec 4) (tag : BitVec 6) (n : BitVec 2) (s : State) : exec (.fwm x0 tag n) s = execFwm tag n s := rfl
@[simp] theorem exec_fdld (x0 : BitVec 4) (cm1 : BitVec 4) (fd : BitVec 4) (n : BitVec 2) (s : State) : exec (.fdld x0 cm1 fd n) s = execFdld cm1 fd n s := rfl
@[simp] theorem exec_fdset (x0 : BitVec 4) (word : BitVec 3) (fd : BitVec 4) (n : BitVec 2) (s : State) : exec (.fdset x0 word fd n) s = execFdset word fd n s := rfl
@[simp] theorem exec_rclaim (x0 : BitVec 4) (fd : BitVec 4) (oc : BitVec 4) (q : BitVec 2) (h : BitVec 2) (s : State) : exec (.rclaim x0 fd oc q h) s = execRclaim fd oc q h s := rfl
@[simp] theorem exec_rpub (x0 : BitVec 4) (oc : BitVec 4) (q : BitVec 2) (h : BitVec 2) (s : State) : exec (.rpub x0 oc q h) s = execRpub oc q h s := rfl
@[simp] theorem exec_rwfill (x0 : BitVec 4) (fd : BitVec 4) (oc : BitVec 4) (q : BitVec 2) (h : BitVec 2) (s : State) : exec (.rwfill x0 fd oc q h) s = execRwfill fd oc q h s := rfl
@[simp] theorem exec_rwfree (x0 : BitVec 4) (oc : BitVec 4) (q : BitVec 2) (h : BitVec 2) (s : State) : exec (.rwfree x0 oc q h) s = execRwfree oc q h s := rfl
@[simp] theorem exec_rrel (x0 : BitVec 4) (oc : BitVec 4) (q : BitVec 2) (h : BitVec 2) (s : State) : exec (.rrel x0 oc q h) s = execRrel oc q h s := rfl
@[simp] theorem exec_ftxe (x0 : BitVec 4) (fd : BitVec 4) (oc : BitVec 4) (h : BitVec 2) (s : State) : exec (.ftxe x0 fd oc h) s = execFtxe fd oc h s := rfl
@[simp] theorem exec_ftxk (x0 : BitVec 4) (oc : BitVec 4) (h : BitVec 2) (s : State) : exec (.ftxk x0 oc h) s = execFtxk oc h s := rfl
@[simp] theorem exec_pauseExpiry (who : Agent) (s : State) : exec (.pauseExpiry who) s = execPauseExpiry who s := rfl
@[simp] theorem exec_wfeTimeout (core : Nat) (s : State) : exec (.wfeTimeout core) s = execWfeTimeout core s := rfl
@[simp] theorem exec_waySwitchEnd (slot : Nat) (s : State) : exec (.waySwitchEnd slot) s = execWaySwitchEnd slot s := rfl
@[simp] theorem exec_commandStart (slot : Nat) (s : State) : exec (.commandStart slot) s = execCommandStart slot s := rfl
@[simp] theorem exec_transferStep (t : TagRef) (s : State) : exec (.transferStep t) s = execTransferStep t s := rfl
@[simp] theorem exec_waitEnd (who : Agent) (s : State) : exec (.waitEnd who) s = execWaitEnd who s := rfl
@[simp] theorem exec_tokenRelief (core : Nat) (s : State) : exec (.tokenRelief core) s = execTokenRelief core s := rfl
@[simp] theorem exec_ringRelief (slot : Nat) (s : State) : exec (.ringRelief slot) s = execRingRelief slot s := rfl
@[simp] theorem exec_watchdogTimeout (core : Nat) (s : State) : exec (.watchdogTimeout core) s = execWatchdogTimeout core s := rfl
@[simp] theorem exec_trapDelivery (core : Nat) (s : State) : exec (.trapDelivery core) s = execTrapDelivery core s := rfl
@[simp] theorem exec_chunkIssue (t : TagRef) (s : State) : exec (.chunkIssue t) s = execChunkIssue t s := rfl
@[simp] theorem exec_chunkLanding (t : TagRef) (s : State) : exec (.chunkLanding t) s = execChunkLanding t s := rfl
@[simp] theorem exec_bagPublish (t : TagRef) (s : State) : exec (.bagPublish t) s = execBagPublish t s := rfl
@[simp] theorem exec_optimiserCommit (t : TagRef) (s : State) : exec (.optimiserCommit t) s = execOptimiserCommit t s := rfl
@[simp] theorem exec_buddyAcknowledgement (t : TagRef) (s : State) : exec (.buddyAcknowledgement t) s = execBuddyAcknowledgement t s := rfl
@[simp] theorem exec_crossingCompletion (t : TagRef) (s : State) : exec (.crossingCompletion t) s = execCrossingCompletion t s := rfl
@[simp] theorem exec_tmoExpiry (t : TagRef) (s : State) : exec (.tmoExpiry t) s = execTmoExpiry t s := rfl
@[simp] theorem exec_xputArrival (p : Packet) (s : State) : exec (.xputArrival p) s = execXputArrival p s := rfl
@[simp] theorem exec_xgetArrival (p : Packet) (s : State) : exec (.xgetArrival p) s = execXgetArrival p s := rfl
@[simp] theorem exec_xamoArrival (p : Packet) (s : State) : exec (.xamoArrival p) s = execXamoArrival p s := rfl
@[simp] theorem exec_xsigArrival (p : Packet) (s : State) : exec (.xsigArrival p) s = execXsigArrival p s := rfl
@[simp] theorem exec_xa2aArrival (p : Packet) (s : State) : exec (.xa2aArrival p) s = execXa2aArrival p s := rfl
@[simp] theorem exec_dispatchDecision (s : State) : exec (.dispatchDecision) s = execDispatchDecision s := rfl
@[simp] theorem exec_levelRaise (slot : Nat) (q : Nat) (s : State) : exec (.levelRaise slot q) s = execLevelRaise slot q s := rfl
@[simp] theorem exec_completion (n : Nat) (s : State) : exec (.completion n) s = execCompletion n s := rfl
@[simp] theorem exec_putArrival (n : Nat) (s : State) : exec (.putArrival n) s = execPutArrival n s := rfl
@[simp] theorem exec_acknowledgement (n : Nat) (s : State) : exec (.acknowledgement n) s = execAcknowledgement n s := rfl
@[simp] theorem exec_negativeAcknowledgement (n : Nat) (s : State) : exec (.negativeAcknowledgement n) s = execNegativeAcknowledgement n s := rfl
@[simp] theorem exec_backoffExpiry (n : Nat) (s : State) : exec (.backoffExpiry n) s = execBackoffExpiry n s := rfl
@[simp] theorem exec_quantumExpiry (slot : Nat) (s : State) : exec (.quantumExpiry slot) s = execQuantumExpiry slot s := rfl
@[simp] theorem exec_quantumReturn (slot : Nat) (s : State) : exec (.quantumReturn slot) s = execQuantumReturn slot s := rfl
@[simp] theorem exec_groupRestore (slot : Nat) (s : State) : exec (.groupRestore slot) s = execGroupRestore slot s := rfl
@[simp] theorem exec_preemptionComplete (slot : Nat) (s : State) : exec (.preemptionComplete slot) s = execPreemptionComplete slot s := rfl
@[simp] theorem exec_alloc (slot : Nat) (id : Nat) (s : State) : exec (.alloc slot id) s = execAlloc slot id s := rfl
@[simp] theorem exec_ready (w : Ctxcmd) (s : State) : exec (.ready w) s = execReady w s := rfl
@[simp] theorem exec_suspend (w : Ctxcmd) (s : State) : exec (.suspend w) s = execSuspend w s := rfl
@[simp] theorem exec_resume (w : Ctxcmd) (s : State) : exec (.resume w) s = execResume w s := rfl
@[simp] theorem exec_teardown (w : Ctxcmd) (s : State) : exec (.teardown w) s = execTeardown w s := rfl
@[simp] theorem exec_release (w : Ctxcmd) (s : State) : exec (.release w) s = execRelease w s := rfl
@[simp] theorem exec_ctxcmdNoOperation (w : Ctxcmd) (code : Nat) (s : State) : exec (.ctxcmdNoOperation w code) s = execCtxcmdNoOperation w code s := rfl
@[simp] theorem exec_qctlHalt (slot : Nat) (q : Nat) (s : State) : exec (.qctlHalt slot q) s = execQctlHalt slot q s := rfl
@[simp] theorem exec_qctlResume (slot : Nat) (q : Nat) (s : State) : exec (.qctlResume slot q) s = execQctlResume slot q s := rfl
@[simp] theorem exec_flush (slot : Nat) (q : Nat) (s : State) : exec (.flush slot q) s = execFlush slot q s := rfl
@[simp] theorem exec_qctlReset (slot : Nat) (q : Nat) (s : State) : exec (.qctlReset slot q) s = execQctlReset slot q s := rfl
@[simp] theorem exec_put (slot : Nat) (port : Nat) (value : Nat) (s : State) : exec (.put slot port value) s = execPut slot port value s := rfl
@[simp] theorem exec_twgo (slot : Nat) (value : Nat) (s : State) : exec (.twgo slot value) s = execTwgo slot value s := rfl
@[simp] theorem exec_dxctlGo (slot : Nat) (value : Nat) (s : State) : exec (.dxctlGo slot value) s = execDxctlGo slot value s := rfl
@[simp] theorem exec_chead (slot : Nat) (value : Nat) (s : State) : exec (.chead slot value) s = execChead slot value s := rfl
@[simp] theorem exec_hostSemaphoreAccess (slot : Nat) (n : Nat) (op : Nat) (value : Nat) (s : State) : exec (.hostSemaphoreAccess slot n op value) s = execHostSemaphoreAccess slot n op value s := rfl
@[simp] theorem exec_registerWrite (slot : Nat) (reg : Nat) (value : Nat) (s : State) : exec (.registerWrite slot reg value) s = execRegisterWrite slot reg value s := rfl
@[simp] theorem exec_payloadFlit (f : Flit) (s : State) : exec (.payloadFlit f) s = execPayloadFlit f s := rfl
@[simp] theorem exec_acknowledgementFlit (f : Flit) (s : State) : exec (.acknowledgementFlit f) s = execAcknowledgementFlit f s := rfl
@[simp] theorem exec_negativeAcknowledgementFlit (f : Flit) (s : State) : exec (.negativeAcknowledgementFlit f) s = execNegativeAcknowledgementFlit f s := rfl
@[simp] theorem exec_trainingFlit (f : Flit) (s : State) : exec (.trainingFlit f) s = execTrainingFlit f s := rfl
@[simp] theorem exec_laneFailure (lane : Nat) (s : State) : exec (.laneFailure lane) s = execLaneFailure lane s := rfl
@[simp] theorem exec_portFailure (port : Nat) (s : State) : exec (.portFailure port) s = execPortFailure port s := rfl
@[simp] theorem exec_mctpControl (m : Message) (s : State) : exec (.mctpControl m) s = execMctpControl m s := rfl
@[simp] theorem exec_mainon (m : Message) (s : State) : exec (.mainon m) s = execMainon m s := rfl
@[simp] theorem exec_bootEnd (s : State) : exec (.bootEnd) s = execBootEnd s := rfl
@[simp] theorem exec_mainoff (m : Message) (s : State) : exec (.mainoff m) s = execMainoff m s := rfl
@[simp] theorem exec_bootst (m : Message) (s : State) : exec (.bootst m) s = execBootst m s := rfl
@[simp] theorem exec_getcert (m : Message) (s : State) : exec (.getcert m) s = execGetcert m s := rfl
@[simp] theorem exec_kekset (m : Message) (s : State) : exec (.kekset m) s = execKekset m s := rfl
@[simp] theorem exec_keyload (m : Message) (s : State) : exec (.keyload m) s = execKeyload m s := rfl
@[simp] theorem exec_keyclr (m : Message) (s : State) : exec (.keyclr m) s = execKeyclr m s := rfl
@[simp] theorem exec_hbmsplit (m : Message) (s : State) : exec (.hbmsplit m) s = execHbmsplit m s := rfl
@[simp] theorem exec_status (m : Message) (s : State) : exec (.status m) s = execStatus m s := rfl
@[simp] theorem exec_resetMsg (m : Message) (s : State) : exec (.resetMsg m) s = execResetMsg m s := rfl
@[simp] theorem exec_throttle (m : Message) (s : State) : exec (.throttle m) s = execThrottle m s := rfl
@[simp] theorem exec_logread (m : Message) (s : State) : exec (.logread m) s = execLogread m s := rfl
@[simp] theorem exec_fwstage (m : Message) (s : State) : exec (.fwstage m) s = execFwstage m s := rfl
@[simp] theorem exec_fwact (m : Message) (s : State) : exec (.fwact m) s = execFwact m s := rfl
@[simp] theorem exec_attest (m : Message) (s : State) : exec (.attest m) s = execAttest m s := rfl
@[simp] theorem exec_setid (m : Message) (s : State) : exec (.setid m) s = execSetid m s := rfl
@[simp] theorem exec_dbgMsg (m : Message) (s : State) : exec (.dbgMsg m) s = execDbgMsg m s := rfl
@[simp] theorem exec_memrd (m : Message) (s : State) : exec (.memrd m) s = execMemrd m s := rfl
@[simp] theorem exec_memwr (m : Message) (s : State) : exec (.memwr m) s = execMemwr m s := rfl
@[simp] theorem exec_powerOnReset (s : State) : exec (.powerOnReset) s = execPowerOnReset s := rfl
@[simp] theorem exec_powerThrottle (level : Nat) (s : State) : exec (.powerThrottle level) s = execPowerThrottle level s := rfl
@[simp] theorem exec_thermalShutdown (s : State) : exec (.thermalShutdown) s = execThermalShutdown s := rfl
@[simp] theorem exec_errorDetected (r : ErrorReport) (s : State) : exec (.errorDetected r) s = execErrorDetected r s := rfl
@[simp] theorem exec_targetedSelfTest (n : Nat) (pass : Bool) (s : State) : exec (.targetedSelfTest n pass) s = execTargetedSelfTest n pass s := rfl
@[simp] theorem exec_embeddingCommandEnd (t : TagRef) (s : State) : exec (.embeddingCommandEnd t) s = execEmbeddingCommandEnd t s := rfl
@[simp] theorem exec_repairEnd (n : Nat) (s : State) : exec (.repairEnd n) s = execRepairEnd n s := rfl
@[simp] theorem exec_firmwareVerified (s : State) : exec (.firmwareVerified) s = execFirmwareVerified s := rfl
@[simp] theorem exec_idleFlit (f : Flit) (s : State) : exec (.idleFlit f) s = execIdleFlit f s := rfl
@[simp] theorem exec_mirrorArrival (p : Packet) (s : State) : exec (.mirrorArrival p) s = execMirrorArrival p s := rfl
@[simp] theorem exec_xa2aPosting (p : Packet) (s : State) : exec (.xa2aPosting p) s = execXa2aPosting p s := rfl

end Sys2Proof.Machine
end

