-- ==== Sys2Proof/Laws/Ops.lean ====
section
/-! SUPPORT. What the shared operations do: how an order ends, registers, reads and writes of memory. -/

namespace Sys2Proof.Machine

/-! ### How an order ends -/

/-- An order whose body answers a state is done in it. -/
theorem issue_ok {s t : State} {f : State → Except Stop State} (h : s.acts = true) (e : f s = .ok t) :
    issue s f = .next (t.ended .done) := by simp [issue, h, e, settle]

/-- An order whose body raises a trap with no effect takes it. -/
theorem issue_trap {s : State} {f : State → Except Stop State} {t : Trap} (h : s.acts = true) (e : f s = .error (.trap t none)) :
    issue s f = .next (s.takeTrap t) := by simp [issue, h, e, settle]

/-- An order whose body waits with no effect blocks its sequencer. -/
theorem issue_wait {s : State} {f : State → Except Stop State} {k o : Nat} {c : Cond} (h : s.acts = true) (e : f s = .error (.wait k o c none)) :
    issue s f = .next ((s.setCur (s.cur.block s k o c)).ended .waiting) := by simp [issue, h, e, settle]

/-- An order under a false entry does nothing. -/
theorem issue_off {s : State} {f : State → Except Stop State} (h : s.acts = false) : issue s f = .next (s.ended .done) := by simp [issue, h]

theorem issueAlways_ok {s t : State} {f : State → Except Stop State} (e : f s = .ok t) : issueAlways s f = .next (t.ended .done) := by
  simp [issueAlways, e, settle]

theorem issueAlways_trap {s : State} {f : State → Except Stop State} {t : Trap} (e : f s = .error (.trap t none)) :
    issueAlways s f = .next (s.takeTrap t) := by simp [issueAlways, e, settle]

theorem issueAlways_wait {s : State} {f : State → Except Stop State} {k o : Nat} {c : Cond} (e : f s = .error (.wait k o c none)) :
    issueAlways s f = .next ((s.setCur (s.cur.block s k o c)).ended .waiting) := by simp [issueAlways, e, settle]

/-- An order that writes one register. -/
theorem setReg_ok {s : State} (h : s.acts = true) (d : BitVec 5) (f : State → Word) : setReg d f s = .next ((s.wr d (f s)).ended .done) :=
  issue_ok h rfl

/-! ### The issuing sequencer's record -/

@[simp] theorem State.cur_setCur (s : State) (q : Seq) : (s.setCur q).cur = q := State.seq_setSeq_self _ _ _
@[simp] theorem State.iss_setCur (s : State) (q : Seq) : (s.setCur q).iss = s.iss := rfl
@[simp] theorem State.mem_setCur (s : State) (q : Seq) : (s.setCur q).mem = s.mem := rfl

/-- What a register's write does (R71): s0 discards it; else only that register of the issuing sequencer changes. -/
theorem State.wr_cases (s : State) (d : BitVec 5) (v : Word) :
    (d = 0#5 ∧ s.wr d v = s) ∨ (d ≠ 0#5 ∧ s.wr d v = s.setCur { s.cur with sreg := s.cur.sreg.set d.toNat v }) := by
  by_cases h : d = 0#5 <;> simp [State.wr, h]

@[simp] theorem State.iss_wr (s : State) (d : BitVec 5) (v : Word) : (s.wr d v).iss = s.iss := by
  rcases s.wr_cases d v with ⟨-, e⟩ | ⟨-, e⟩ <;> rw [e] <;> rfl

@[simp] theorem State.mem_wr (s : State) (d : BitVec 5) (v : Word) : (s.wr d v).mem = s.mem := by
  rcases s.wr_cases d v with ⟨-, e⟩ | ⟨-, e⟩ <;> rw [e] <;> rfl

/-- The state after flags are set that are not all 0 (R49): FFLAGS of the issuing sequencer and the raised flags of its step gain them. -/
def State.flagged (s : State) (f : BitVec 8) : State :=
  { s.setCur { s.cur with fflags := s.cur.fflags ||| f } with iss := { s.iss with raised := s.iss.raised ||| f } }

/-- What setting flags does (R49). -/
theorem State.flag_eq (s : State) (f : BitVec 8) : s.flag f = s ∨ s.flag f = s.flagged f := by
  by_cases h : f = 0#8
  · exact .inl (if_pos h)
  · exact .inr (if_neg h)

@[simp] theorem State.cur_flagged (s : State) (f : BitVec 8) : (s.flagged f).cur = { s.cur with fflags := s.cur.fflags ||| f } :=
  State.seq_setSeq_self _ _ _

/-- The step's record after flags are set. -/
theorem State.iss_flag (s : State) (f : BitVec 8) : (s.flag f).iss = { s.iss with raised := (s.flag f).iss.raised } := by
  rcases s.flag_eq f with e | e <;> rw [e] <;> rfl

@[simp] theorem State.who_flag (s : State) (f : BitVec 8) : (s.flag f).iss.who = s.iss.who := by rw [State.iss_flag]

@[simp] theorem State.stack_flag (s : State) (f : BitVec 8) : (s.flag f).cur.stack = s.cur.stack := by
  rcases s.flag_eq f with e | e <;> rw [e] <;> simp

/-- What PushPred does (R121): an entry more, or the overflow trap on a full stack. -/
theorem State.push_cases (s : State) (m : BitVec 1024) :
    (s.cur.stack.length < 8 ∧
      s.push m = .ok (s.setCur { s.cur with stack := (m &&& topOf s.iss.old.stack &&& topOf s.cur.stack) :: s.cur.stack })) ∨
    (8 ≤ s.cur.stack.length ∧ s.push m = .error (.trap (mkTrap .predOverflow) none)) := by
  by_cases h : 8 ≤ s.cur.stack.length
  · exact .inr ⟨h, by simp [State.push, h, raise]⟩
  · exact .inl ⟨Nat.lt_of_not_le h, by simp [State.push, h]⟩

/-! ### Reads and writes of memory -/

/-- An access within one 256-byte line is one piece. -/
theorem spanPieces_one {a n : Nat} (hn : 0 < n) (h : a % 256 + n ≤ 256) : spanPieces a n = [(a, n)] := by
  have e : n / 256 + 2 = (n / 256 + 1) + 1 := rfl
  have hm : min n (256 - a % 256) = n := by omega
  rw [spanPieces, e, pieces, if_neg (by omega)]
  simp only [hm, Nat.sub_self, pieces, if_true]

/-- A value from its bytes as a sum. -/
theorem leNat_eq_sum (f : Nat → Byte) (n : Nat) :
    leNat ((List.range n).map f) = ((List.range n).map fun i => (f i).toNat * 256 ^ i).sum := by
  induction n generalizing f with
  | zero => rfl
  | succ n ih =>
    have step : ∀ m, ((List.range m).map fun i => (f (i + 1)).toNat * 256 ^ (i + 1)).sum =
        256 * ((List.range m).map fun i => (f (i + 1)).toNat * 256 ^ i).sum := by
      intro m
      induction m with
      | zero => rfl
      | succ m im =>
        simp only [List.range_succ, List.map_append, List.sum_append, List.map_cons, List.map_nil, List.sum_cons, List.sum_nil]
        rw [im]
        simp [Nat.mul_add, Nat.pow_succ, Nat.mul_comm, Nat.mul_left_comm]
    have h := ih (f ∘ Nat.succ)
    have e := step n
    rw [List.range_succ_eq_map]
    simp only [List.map_cons, List.map_map, leNat, h, List.sum_cons, Function.comp_def, Nat.succ_eq_add_one] at *
    rw [e]
    simp

/-- A store reaches no table region (08_memory R175). -/
theorem translate_write_tbl {s : State} {c va : Nat} {l : Loc} (h : translate s c va .write false = .ok l) : l.tbl = false := by
  cases ht : l.tbl
  · rfl
  · simp only [translate, bind, Except.bind, pure, Except.pure, throw, throwThe, MonadExceptOf.throw] at h
    repeat' split at h
    all_goals (try cases h)
    all_goals simp_all [missingRight]
    all_goals (repeat' split at h)
    all_goals simp_all
    all_goals (subst h; simp_all)

end Sys2Proof.Machine
end

