-- ==== Sys2Proof/Laws/Trap.lean ====
section
/-! SUPPORT. Taking a trap: what leaving a step, holding a sequencer, verifying a handler and entering it change, and what they keep. -/

namespace Sys2Proof.Machine

/-- The parts of a core that leaving a step does not change. -/
def Core.keeps (k l : Core) : Prop := l.bank = k.bank ∧ l.trec = k.trec ∧ l.hand = k.hand ∧ l.ctrap = k.ctrap ∧ l.slot = k.slot ∧ l.kern = k.kern

theorem Core.keeps_refl (k : Core) : k.keeps k := ⟨rfl, rfl, rfl, rfl, rfl, rfl⟩

theorem Core.keeps_trans {k l m : Core} (h : k.keeps l) (g : l.keeps m) : k.keeps m :=
  ⟨g.1.trans h.1, g.2.1.trans h.2.1, g.2.2.1.trans h.2.2.1, g.2.2.2.1.trans h.2.2.2.1, g.2.2.2.2.1.trans h.2.2.2.2.1,
    g.2.2.2.2.2.trans h.2.2.2.2.2⟩

theorem State.addTokens_keeps (s : State) (c : Nat) (l : List (Nat × Nat)) (d : Nat) :
    (s.core d).keeps ((s.addTokens c l).core d) ∧ (s.addTokens c l).seqs = s.seqs ∧ (s.addTokens c l).ctxs = s.ctxs ∧ (s.addTokens c l).iss = s.iss := by
  unfold State.addTokens
  dsimp only
  split
  · exact ⟨Core.keeps_refl _, rfl, rfl, rfl⟩
  · refine ⟨?_, rfl, rfl, rfl⟩
    rw [State.core_setCore]
    split
    · rename_i h; subst h; exact ⟨rfl, rfl, rfl, rfl, rfl, rfl⟩
    · exact Core.keeps_refl _

/-- What a sequencer of a core keeps when it leaves a step. -/
structure SeqKept (p q : Seq) : Prop where
  pc : q.pc = p.pc
  sreg : q.sreg = p.sreg
  lc : q.lc = p.lc
  frames : q.frames = p.frames
  stack : q.stack = p.stack
  fflags : q.fflags = p.fflags

theorem SeqKept.rfl' (p : Seq) : SeqKept p p := ⟨rfl, rfl, rfl, rfl, rfl, rfl⟩

theorem SeqKept.trans {p q r : Seq} (h : SeqKept p q) (g : SeqKept q r) : SeqKept p r :=
  ⟨g.pc.trans h.pc, g.sreg.trans h.sreg, g.lc.trans h.lc, g.frames.trans h.frames, g.stack.trans h.stack, g.fflags.trans h.fflags⟩

/-- No step of the sequencers of a core is parked part-way. -/
def State.unparked (s : State) (c : Nat) : Prop := ∀ e ∈ s.parked, ∀ q, e.1 ≠ .seq c q

theorem State.leaveFirst_unparked {s : State} {c : Nat} (h : s.unparked c) (q : Nat) : s.leaveFirst (.seq c q) = s := by
  have : s.parked.find? (fun e => decide (e.1 = Agent.seq c q)) = none := by
    rw [List.find?_eq_none]; intro e he; simpa using h e he q
  unfold State.leaveFirst; rw [this]

/-- Leaving a step that is not parked part-way (04_context R101): the cores keep their trap state, the contexts and the open step are as they were, every other
sequencer is, and this one keeps its registers and is running if it was blocked. -/
theorem State.abandon_gives (s : State) (c q : Nat) (hp : s.unparked c) :
    (s.abandon (.seq c q)).unparked c ∧
    (∀ d, (s.core d).keeps ((s.abandon (.seq c q)).core d)) ∧ (s.abandon (.seq c q)).ctxs = s.ctxs ∧ (s.abandon (.seq c q)).iss = s.iss ∧
    (∀ a, a ≠ .seq c q → (s.abandon (.seq c q)).seq a = s.seq a) ∧
    SeqKept (s.seq (.seq c q)) ((s.abandon (.seq c q)).seq (.seq c q)) ∧
    ((s.abandon (.seq c q)).seq (.seq c q)).run = if (s.seq (.seq c q)).run = .blocked then .running else (s.seq (.seq c q)).run := by
  unfold State.abandon
  rw [State.leaveFirst_unparked hp]
  simp only [State.seq_setSeq_self]
  refine ⟨?_, fun d => ?_, ?_, ?_, fun a ha => ?_, ⟨rfl, rfl, rfl, rfl, rfl, rfl⟩, trivial⟩
  · intro e he
    refine hp e ?_
    have h1 : ∀ (t : State) (l : List (Nat × Nat)), (t.addTokens c l).parked = t.parked := by
      intro t l; unfold State.addTokens; dsimp only; split <;> rfl
    have he' : e ∈ (State.addTokens _ _ _).parked := (List.mem_filter.mp he).1
    rw [h1] at he'
    repeat' split at he'
    all_goals exact he'
  · refine Core.keeps_trans ?_ (State.addTokens_keeps _ c _ d).1
    split
    · split
      · rw [State.core_setCore]
        split
        · rename_i e; rw [e]; exact ⟨rfl, rfl, rfl, rfl, rfl, rfl⟩
        · exact Core.keeps_refl _
      · exact Core.keeps_refl _
    · exact Core.keeps_refl _
  · show (State.addTokens _ _ _).ctxs = _
    rw [(State.addTokens_keeps _ c _ 0).2.2.1]
    repeat' split
    all_goals rfl
  · show (State.addTokens _ _ _).iss = _
    rw [(State.addTokens_keeps _ c _ 0).2.2.2]
    repeat' split
    all_goals rfl
  · rw [State.seq_setSeq, if_neg (Ne.symm ha)]
    show Map.get (State.addTokens _ _ _).seqs _ _ = _
    rw [(State.addTokens_keeps _ c _ 0).2.1]
    repeat' split
    all_goals rfl

/-- What holding sequencers of a core keeps, and that it holds those of `L`. -/
structure State.Held (s t : State) (c : Nat) (L : List Nat) : Prop where
  unparked : t.unparked c
  cores : ∀ d, (s.core d).keeps (t.core d)
  ctxs : t.ctxs = s.ctxs
  iss : t.iss = s.iss
  others : ∀ a, (∀ e ∈ L, a ≠ .seq c e) → t.seq a = s.seq a
  kept : ∀ e, SeqKept (s.seq (.seq c e)) (t.seq (.seq c e))
  stopped : ∀ e, (s.seq (.seq c e)).run = .stopped → (t.seq (.seq c e)).run = .stopped
  stays : ∀ e, (s.seq (.seq c e)).run = .held → (t.seq (.seq c e)).run = .held
  held : ∀ e ∈ L, (s.seq (.seq c e)).run ≠ .stopped → (t.seq (.seq c e)).run = .held

/-- Holding one sequencer (05_kernel R116). -/
theorem State.hold_gives (s : State) (c q : Nat) (hp : s.unparked c) : State.Held s (s.hold (.seq c q)) c [q] := by
  obtain ⟨hu, hk, hx, hi, ho, hs, hr⟩ := State.abandon_gives s c q hp
  unfold State.hold
  dsimp only
  split
  · rename_i h
    refine ⟨hp, fun d => Core.keeps_refl _, rfl, rfl, fun _ _ => rfl, fun e => SeqKept.rfl' _, fun _ h => h, fun _ h => h, ?_⟩
    intro e he hn
    rw [List.mem_singleton.mp he] at hn ⊢
    exact h.resolve_left hn
  · rename_i h
    have hne : ∀ e, e ≠ q → Agent.seq c e ≠ Agent.seq c q := fun e he h => he (by injection h)
    have hq : ∀ e, e ≠ q → ((s.abandon (.seq c q)).setSeq (.seq c q)
        { (s.abandon (.seq c q)).seq (.seq c q) with prior := (s.seq (.seq c q)).run, run := .held }).seq (.seq c e) = s.seq (.seq c e) := by
      intro e he
      rw [State.seq_setSeq, if_neg (Ne.symm (hne e he)), ho _ (hne e he)]
    refine ⟨hu, hk, hx, hi, ?_, ?_, ?_, ?_, ?_⟩
    · intro a ha
      have := ha q (by simp)
      rw [State.seq_setSeq, if_neg (Ne.symm this), ho _ this]
    · intro e
      by_cases he : e = q
      · subst he; rw [State.seq_setSeq_self]; exact ⟨hs.pc, hs.sreg, hs.lc, hs.frames, hs.stack, hs.fflags⟩
      · rw [hq e he]; exact SeqKept.rfl' _
    · intro e hs'
      by_cases he : e = q
      · subst he; exact absurd (Or.inl hs') h
      · rw [hq e he]; exact hs'
    · intro e hs'
      by_cases he : e = q
      · subst he; exact absurd (Or.inr hs') h
      · rw [hq e he]; exact hs'
    · intro e he _
      rw [List.mem_singleton.mp he, State.seq_setSeq_self]

theorem State.Held.trans {s t u : State} {c : Nat} {L M : List Nat} (h : State.Held s t c L) (g : State.Held t u c M) : State.Held s u c (L ++ M) where
  unparked := g.unparked
  cores d := Core.keeps_trans (h.cores d) (g.cores d)
  ctxs := g.ctxs.trans h.ctxs
  iss := g.iss.trans h.iss
  others a ha := (g.others a fun e he => ha e (List.mem_append_right _ he)).trans (h.others a fun e he => ha e (List.mem_append_left _ he))
  kept e := (h.kept e).trans (g.kept e)
  stopped e he := g.stopped e (h.stopped e he)
  stays e he := g.stays e (h.stays e he)
  held e he hn := by
    by_cases hl : e ∈ L
    · exact g.stays e (h.held e hl hn)
    · have hM : e ∈ M := (List.mem_append.mp he).resolve_left hl
      by_cases hL : ∀ f ∈ L, Agent.seq c e ≠ Agent.seq c f
      · exact g.held e hM (by rw [h.others _ hL]; exact hn)
      · exact absurd (fun f hf hh => hl (by injection hh with _ h2; rw [h2]; exact hf)) hL

/-- Holding the engines of a core. -/
theorem State.holdEngines_gives (s : State) (c : Nat) (hp : s.unparked c) : State.Held s (s.holdEngines c) c [1, 2, 3, 4, 5] := by
  simp only [State.holdEngines, List.foldl]
  have h1 := State.hold_gives s c 1 hp
  have h2 := h1.trans (State.hold_gives _ c 2 h1.unparked)
  have h3 := h2.trans (State.hold_gives _ c 3 h2.unparked)
  have h4 := h3.trans (State.hold_gives _ c 4 h3.unparked)
  exact h4.trans (State.hold_gives _ c 5 h4.unparked)

theorem State.writePieces_cases (s : State) (ps : List (Loc × Nat × Nat)) (bs : List Byte) :
    ∃ m x y, s.writePieces ps bs = { s with mem := m, sect := x, stale := y } := by
  induction ps generalizing s bs with
  | nil => exact ⟨s.mem, s.sect, s.stale, rfl⟩
  | cons p r ih =>
    obtain ⟨l, va, n⟩ := p
    obtain ⟨m, x, e, -⟩ := State.pokes_cases (s.keepStale l n) l.enc l.key (bs.take n)
    obtain ⟨m', x', y', e'⟩ := ih ((s.keepStale l n).pokes l.enc l.key (bs.take n)) (bs.drop n)
    have : ∃ y, s.keepStale l n = { s with stale := y } := by
      unfold State.keepStale; split
      · exact ⟨_, rfl⟩
      · exact ⟨s.stale, rfl⟩
    obtain ⟨y, ey⟩ := this
    exact ⟨m', x', y', by rw [State.writePieces, e', e, ey]⟩

/-- What verifying an image may change: memory, by its relocation, the caches with the remap filter, the cache of images, and which image is resident
on a core. -/
structure State.Verifies (s t : State) : Prop where
  only : ∃ m x y i f k cs, t = { s with mem := m, sect := x, stale := y, filter := f, caches := k, cores := cs, disp := { s.disp with images := i } }
  cores : ∀ c, ∃ r, t.core c = { s.core c with resident := r }

theorem State.Verifies.refl (s : State) : s.Verifies s := ⟨⟨_, _, _, _, _, _, _, rfl⟩, fun c => ⟨(s.core c).resident, rfl⟩⟩

theorem State.Verifies.trans {s t u : State} (h : s.Verifies t) (g : t.Verifies u) : s.Verifies u := by
  refine ⟨?_, fun c => ?_⟩
  · obtain ⟨m, x, y, i, f, k, cs, rfl⟩ := h.only
    obtain ⟨m', x', y', i', f', k', cs', rfl⟩ := g.only
    exact ⟨m', x', y', i', f', k', cs', rfl⟩
  · obtain ⟨r, e⟩ := h.cores c
    obtain ⟨r', e'⟩ := g.cores c
    exact ⟨r', by rw [e', e]⟩

theorem State.OnlyCaches.verifies {s t : State} (h : s.OnlyCaches t) : s.Verifies t := by
  obtain ⟨f, k, rfl⟩ := h
  exact ⟨⟨_, _, _, _, _, _, _, rfl⟩, fun c => ⟨(s.core c).resident, rfl⟩⟩

theorem State.writePieces_verifies (s : State) (ps : List (Loc × Nat × Nat)) (bs : List Byte) : s.Verifies (s.writePieces ps bs) := by
  obtain ⟨m, x, y, e⟩ := State.writePieces_cases s ps bs
  rw [e]
  exact ⟨⟨_, _, _, _, _, _, _, rfl⟩, fun c => ⟨(s.core c).resident, rfl⟩⟩

theorem State.unload_verifies (s : State) (f : Nat × Nat → Bool) : s.Verifies (s.unload f) := by
  refine ⟨⟨s.mem, s.sect, s.stale, s.disp.images, s.filter, s.caches, _, rfl⟩, fun c => ?_⟩
  unfold State.unload State.core
  dsimp only
  induction s.cores with
  | nil => exact ⟨none, rfl⟩
  | cons e r ih =>
    obtain ⟨d, k⟩ := e
    by_cases h : d = c
    · subst h
      rw [List.map_cons]
      cases hr : k.resident with
      | none => exact ⟨none, by simp [Map.get, ← hr]⟩
      | some v =>
        by_cases hf : f v = true
        · exact ⟨none, by simp [Map.get, hf]⟩
        · exact ⟨some v, by simp [Map.get, hf, ← hr]⟩
    · obtain ⟨q, hq⟩ := ih
      refine ⟨q, ?_⟩
      rw [List.map_cons]
      cases hr : k.resident with
      | none => simpa [Map.get, h] using hq
      | some v => by_cases hf : f v = true <;> simpa [Map.get, h, hf] using hq

theorem State.cacheImage_verifies (s : State) (id : Nat) (v : Verified) : s.Verifies (s.cacheImage id v) :=
  have h : s.Verifies { s with disp := { s.disp with images := ((id, v) :: s.disp.images).take 256 } } :=
    ⟨⟨_, _, _, _, _, _, _, rfl⟩, fun c => ⟨(s.core c).resident, rfl⟩⟩
  h.trans (State.unload_verifies _ _)

/-- A fold of steps that each may end it. -/
theorem State.Verifies.fold {l : List Nat} {f : State → Nat → Option State} (hf : ∀ a r b, f a r = some b → State.Verifies a b) {t u : State}
    (h : l.foldl (fun o r => o.bind fun t => f t r) (some t) = some u) : t.Verifies u := by
  induction l generalizing t with
  | nil => injection h with h; exact h ▸ .refl t
  | cons r l ih =>
    rw [List.foldl_cons, Option.bind_some] at h
    cases g : f t r with
    | none =>
      have : ∀ l : List Nat, l.foldl (fun o r => o.bind fun t => f t r) none = none := by
        intro l; induction l with
        | nil => rfl
        | cons _ _ ih => exact ih
      rw [g, this l] at h; cases h
    | some w => rw [g] at h; exact (hf _ _ _ g).trans (ih h)

theorem State.relocate_verifies {s t : State} {c : Nat} {v : Verified} (h : s.relocate c v = some t) : s.Verifies t := by
  unfold State.relocate at h
  split at h
  · refine State.Verifies.trans ?_ (State.Verifies.fold (fun a r b hb => ?_) h)
    · exact (State.ledAll_only _ _).verifies.trans (State.writePieces_verifies _ _ _)
    · split at hb
      · injection hb with hb; subst hb
        exact (State.ledAll_only _ _).verifies.trans (State.writePieces_verifies _ _ _)
      · cases hb
  · cases h

/-- Verifying an image (05_kernel R113, R114). -/
theorem State.verify_gives {s s1 : State} {c base : Nat} {h : Bool} {v : Verified} (e : s.verify c base h = some (v, s1)) : s.Verifies s1 := by
  have start (v : Verified) (n : Nat) : s.Verifies ((s.noteSpan c base n .exec).cacheImage (s.ctx c).id v) :=
    (State.noteSpan_only _ _ _ _ _).verifies.trans (State.cacheImage_verifies _ _ _)
  unfold State.verify at e
  repeat' split at e
  all_goals first | contradiction | skip
  · injection e with e; injection e with _ e; exact e ▸ .refl s
  · obtain ⟨u, g, e⟩ := Option.map_eq_some_iff.mp e
    injection e with _ e; subst e
    exact (start _ _).trans (State.relocate_verifies g)
  · injection e with e; injection e with _ e; exact e ▸ start _ _

/-- A trap that enters the handler of its core (19_faults R398). -/
theorem State.deliverTo_enters {s s1 : State} {n : Nat} {a : Agent} {t : Trap} {step : Word} {slot : Nat} {ret : Option Word} {sd : Option Nat}
    {v : Verified} (hb : (s.core n).bank = none) (hc : t.cause ≠ .uncorrectable)
    (hv : (s.abandon a).verify (s.slotOf (.seq n 0)) ((s.abandon a).ctx (s.slotOf (.seq n 0))).handler true = some (v, s1)) :
    s.deliverTo (some n) a t step slot ret sd =
      let s2 := ((s1.holdEngines n).hold a).abandon (.seq n 0)
      let r := recordOf a n t step slot (ret.getD (s2.seq (.seq n 0)).pc) false
      (s2.setCore n { s2.core n with trec := r }).enterHandler n v.image sd := by
  simp [State.deliverTo, hb, hc, hv]

/-- A trap that escalates (19_faults R400). -/
theorem State.deliverTo_escalates {s : State} {n : Nat} {a : Agent} {t : Trap} {step : Word} {slot : Nat} {ret : Option Word} {sd : Option Nat}
    (h : (s.core n).bank.isSome = true ∨ t.cause = .uncorrectable ∨
      (s.abandon a).verify (s.slotOf (.seq n 0)) ((s.abandon a).ctx (s.slotOf (.seq n 0))).handler true = none) :
    s.deliverTo (some n) a t step slot ret sd = (s.abandon a).escalate (s.slotOf (.seq n 0)) (some n) a t step slot := by
  unfold State.deliverTo
  dsimp only
  split
  · rfl
  · rename_i hn
    rcases h with h | h | h
    · simp [h] at hn
    · simp [h] at hn
    · rw [h]

/-- Entering the handler (04_context R106). -/
theorem State.enterHandler_gives (s : State) (c : Nat) (img : Image) (sd : Option Nat) :
    (s.enterHandler c img sd).core c = { s.core c with
      bank := some { sreg := (s.seq (.seq c 0)).sreg, lc := (s.seq (.seq c 0)).lc, frames := (s.seq (.seq c 0)).frames,
                     stack := (s.seq (.seq c 0)).stack, resume := (s.seq (.seq c 0)).resume,
                     kept := (s.seq (.seq c 0)).kept, pendingSd := sd },
      hand := some img, ctrap := (s.core c).ctrap + 1 } ∧
    (s.enterHandler c img sd).seq (.seq c 0) = { s.seq (.seq c 0) with
      pc := .ofNat 64 (img.base + img.codeOff + 8 * img.entry), run := .running, sreg := [], lc := [], frames := [], stack := [], resume := none,
      wait := none, kept := none, idleUntil := 0 } ∧
    (∀ a, a ≠ .seq c 0 → (s.enterHandler c img sd).seq a = s.seq a) ∧ (s.enterHandler c img sd).iss = s.iss ∧
    (s.enterHandler c img sd).ctxs = s.ctxs := by
  refine ⟨Map.get_set_self _ _ _ _, Map.get_set_self _ _ _ _, fun a ha => Map.get_set_ne _ _ _ (Ne.symm ha), rfl, rfl⟩

/-- Escalation with a core (19_faults R400). -/
theorem State.escalate_gives (s : State) (c n : Nat) (a : Agent) (t : Trap) (step : Word) (slot : Nat) :
    (s.escalate c (some n) a t step slot).core n = { s.core n with
      ctrap := (s.core n).ctrap + 1,
      trec := if (s.core n).bank.isSome = true then (s.core n).trec
              else recordOf a n t step slot (s.seq (.seq n 0)).pc true } ∧
    ((s.escalate c (some n) a t step slot).ctx c).preempting =
      (if (s.ctx c).preempting = some .tornDown then some .tornDown else some .faulted) ∧
    ((s.escalate c (some n) a t step slot).ctx c).escalation.isSome = true ∧
    (s.escalate c (some n) a t step slot).iss = s.iss ∧ (s.escalate c (some n) a t step slot).seqs = s.seqs := by
  unfold State.escalate State.preempt
  simp only [Option.getD_some, Option.isSome_some, Bool.true_and, State.ctx_setCtx, if_true]
  refine ⟨?_, rfl, trivial, rfl, rfl⟩
  rw [State.core_setCtx, State.core_setCtx, State.core_setCore, if_pos rfl]

/-- Letting a sequencer go on (05_kernel R116). -/
theorem State.unhold_seq (s : State) (a b : Agent) : (s.unhold a).seq b = if a = b ∧ (s.seq b).run = .held then Seq.again { s.seq b with run := (s.seq b).prior } s else s.seq b := by
  unfold State.unhold
  dsimp only
  split
  · rename_i h
    rw [State.seq_setSeq]
    by_cases h' : a = b
    · subst h'; simp [h]
    · simp [h']
  · rename_i h
    by_cases h' : a = b
    · subst h'; simp [h]
    · simp [h']

theorem State.unhold_gives (s : State) (a : Agent) : ∃ q, s.unhold a = { s with seqs := q } := by
  unfold State.unhold
  dsimp only
  split
  · exact ⟨_, rfl⟩
  · exact ⟨s.seqs, rfl⟩

/-- A map of sequencers whose pier and copy entries alone change, read at a core's. -/
theorem seqs_get_map (m : Map Agent Seq) (f : Agent × Seq → Agent × Seq) (hf : ∀ e, (f e).1 = e.1) (hg : ∀ c q v, f (.seq c q, v) = (.seq c q, v)) (c q : Nat) :
    Map.get (m.map f) {} (.seq c q) = Map.get m {} (.seq c q) := by
  induction m with
  | nil => rfl
  | cons e r ih =>
    obtain ⟨a, v⟩ := e
    rw [List.map_cons]
    have := hf (a, v)
    obtain ⟨⟨a', v'⟩, h⟩ : ∃ z, f (a, v) = z := ⟨_, rfl⟩
    rw [h] at this ⊢
    simp only at this
    subst this
    simp only [Map.get]
    split
    · rename_i hh; subst hh; rw [hg] at h; injection h with _ h; exact h.symm
    · exact ih

/-- What goes on after rft is no sequencer of a core (04_context R108). -/
theorem State.resumeFrozen_seq (s : State) (c d q : Nat) : (s.resumeFrozen c).seq (.seq d q) = s.seq (.seq d q) := by
  unfold State.resumeFrozen State.seq
  dsimp only
  apply seqs_get_map
  · rintro ⟨a, v⟩
    cases a <;> simp only <;> split <;> rfl
  · intros; rfl

end Sys2Proof.Machine
end

