-- ==== Sys2Proof/Laws/Held.lean ====
section
/-! SUPPORT. What settling the held writes and the pending tloads changes: memory, the caches, what waits, and the table memories
(09_ordering R194; 05_kernel R136). -/

namespace Sys2Proof.Machine

/-- Nothing differs but memory with its sectors, what the keel sees of tables, the remap filter and the caches, held writes, waiting traps,
and of the cores the table memories with their loads. -/
structure State.OnlySettled (s t : State) : Prop where
  frame : ∃ m x y f k h a c, t = { s with mem := m, sect := x, stale := y, filter := f, caches := k, heldw := h, atraps := a, cores := c }
  cores : ∀ n, ∃ b l, t.core n = { s.core n with tbl := b, tloads := l }

theorem State.OnlySettled.refl (s : State) : s.OnlySettled s := ⟨⟨_, _, _, _, _, _, _, _, rfl⟩, fun _ => ⟨_, _, rfl⟩⟩

theorem State.OnlySettled.trans {s t u : State} (h : s.OnlySettled t) (g : t.OnlySettled u) : s.OnlySettled u := by
  obtain ⟨m, x, y, f, k, hw, a, c, e⟩ := h.frame
  obtain ⟨m', x', y', f', k', hw', a', c', e'⟩ := g.frame
  refine ⟨⟨m', x', y', f', k', hw', a', c', by rw [e', e]⟩, fun n => ?_⟩
  obtain ⟨b, l, p⟩ := h.cores n
  obtain ⟨b', l', p'⟩ := g.cores n
  exact ⟨b', l', by rw [p', p]⟩

/-- A state that differs in the parts named, the cores being as they were. -/
theorem State.OnlySettled.of {s t : State} {m x y f k h a} (e : t = { s with mem := m, sect := x, stale := y, filter := f, caches := k, heldw := h, atraps := a }) :
    s.OnlySettled t := ⟨⟨m, x, y, f, k, h, a, s.cores, e⟩, fun n => ⟨(s.core n).tbl, (s.core n).tloads, by rw [e]; rfl⟩⟩

theorem State.heldTrap_settled (s : State) (h : HeldWrite) (t : Trap) : s.OnlySettled (s.heldTrap h t) := by
  unfold State.heldTrap
  split
  · exact .of (m := s.mem) (x := s.sect) (y := s.stale) (f := s.filter) (k := s.caches) (h := s.heldw) rfl
  · exact .refl s

/-- Bytes written to located pieces with another open step for the while. -/
theorem State.writeWith_settled (s : State) (i : Issue) (ps : List (Loc × Nat × Nat)) (b : List Byte) :
    s.OnlySettled { (State.ledAll { s with iss := i } ps).writePieces ps b with iss := s.iss } := by
  obtain ⟨f, k, e⟩ := State.ledAll_only { s with iss := i } ps
  obtain ⟨m, x, y, e'⟩ := State.writePieces_cases (State.ledAll { s with iss := i } ps) ps b
  rw [e', e]
  exact .of (m := m) (x := x) (y := y) (f := f) (k := k) (h := s.heldw) (a := s.atraps) rfl

theorem State.performHeld_settled (s : State) (h : HeldWrite) : s.OnlySettled (s.performHeld h) := by
  unfold State.performHeld
  split
  · exact s.writeWith_settled _ _ _
  · exact s.heldTrap_settled h _

theorem settleHeld_settled (l kept : List HeldWrite) (s : State) : s.OnlySettled (settleHeld l kept s) := by
  induction l generalizing kept s with
  | nil => exact .of (m := s.mem) (x := s.sect) (y := s.stale) (f := s.filter) (k := s.caches) (a := s.atraps) rfl
  | cons h r ih =>
    unfold settleHeld
    split
    · exact ih _ _
    · split
      · exact ih _ _
      · exact (s.heldTrap_settled h _).trans (ih _ _)
      · split
        · exact ih _ _
        · exact (s.performHeld_settled h).trans (ih _ _)

/-- The table memories and the pending loads of a core replaced. -/
theorem State.OnlySettled.core {s : State} (n : Nat) (b : Map (Nat × Nat) StepWords) (l : Map Nat TableLoad) (a : List AsyncTrap) :
    s.OnlySettled { s.setCore n { s.core n with tbl := b, tloads := l } with atraps := a } := by
  refine ⟨⟨s.mem, s.sect, s.stale, s.filter, s.caches, s.heldw, a, _, rfl⟩, fun c => ?_⟩
  show ∃ b l, (s.setCore n { s.core n with tbl := _, tloads := _ }).core c = _
  rw [State.core_setCore]
  split
  · rename_i h; subst h; exact ⟨_, _, rfl⟩
  · exact ⟨_, _, rfl⟩

theorem State.settleLoad_settled (s : State) (c e : Nat) (l : TableLoad) : s.OnlySettled (s.settleLoad c e l) := by
  unfold State.settleLoad
  dsimp only
  split
  · exact .refl s
  · exact .core c _ _ s.atraps
  · exact .core c (s.core c).tbl _ _

/-- A fold of steps each of which changes no more. -/
theorem State.OnlySettled.foldl {α : Type} (f : State → α → State) (h : ∀ (t : State) (a : α), t.OnlySettled (f t a)) (l : List α) (s : State) :
    s.OnlySettled (l.foldl f s) := by
  induction l generalizing s with
  | nil => exact .refl s
  | cons a r ih => exact (h s a).trans (ih _)

/-- Settling the held writes. -/
theorem State.settleWrites_settled (s : State) : s.OnlySettled s.settleWrites := by
  refine (settleHeld_settled s.heldw [] s).trans (State.OnlySettled.foldl _ (fun t c => ?_) _ _)
  split
  · exact .refl t
  · exact State.OnlySettled.foldl _ (fun (u : State) (e : Nat × TableLoad) => u.settleLoad_settled c e.1 e.2) _ _

@[simp] theorem State.tags_settleWrites (s : State) : s.settleWrites.tags = s.tags := by
  obtain ⟨_, _, _, _, _, _, _, _, e⟩ := s.settleWrites_settled.frame; rw [e]
@[simp] theorem State.seqs_settleWrites (s : State) : s.settleWrites.seqs = s.seqs := by
  obtain ⟨_, _, _, _, _, _, _, _, e⟩ := s.settleWrites_settled.frame; rw [e]
@[simp] theorem State.ctxs_settleWrites (s : State) : s.settleWrites.ctxs = s.ctxs := by
  obtain ⟨_, _, _, _, _, _, _, _, e⟩ := s.settleWrites_settled.frame; rw [e]
@[simp] theorem State.iss_settleWrites (s : State) : s.settleWrites.iss = s.iss := by
  obtain ⟨_, _, _, _, _, _, _, _, e⟩ := s.settleWrites_settled.frame; rw [e]
@[simp] theorem State.tag_settleWrites (s : State) (t : TagRef) : s.settleWrites.tag t = s.tag t := by
  show s.settleWrites.tags.get _ _ = _; rw [State.tags_settleWrites]; rfl
@[simp] theorem State.seq_settleWrites (s : State) (a : Agent) : s.settleWrites.seq a = s.seq a := by
  show s.settleWrites.seqs.get _ _ = _; rw [State.seqs_settleWrites]; rfl
@[simp] theorem State.ctx_settleWrites (s : State) (c : Nat) : s.settleWrites.ctx c = s.ctx c := by
  show s.settleWrites.ctxs.get _ _ = _; rw [State.ctxs_settleWrites]; rfl

end Sys2Proof.Machine
end

