-- ==== Sys2Proof/Laws/PerInstr.lean ====
section
/-! SUPPORT. The word of every order reads back as that order. -/

open Sys2Proof

/-- The form that a word written by the encoder selects gives the instruction back, and its reserved bits are zero. -/
def Sys2Proof.Laws.Reads.Statement (i : Instr) : Prop :=
  ∀ w : BitVec 32, encode i = some w → WellFormed i = true → ∃ r, readForm w = some ⟨some i, r⟩ ∧ w &&& r = 0#32

namespace Sys2Proof.Laws.Reads

theorem above {v n lo len : Nat} {x : BitVec v} {y : BitVec n} (h : n ≤ lo) : (x ++ y).extractLsb' lo len = x.extractLsb' (lo - n) len :=
  BitVec.extractLsb'_append_eq_of_le h

theorem lowest {v n : Nat} (x : BitVec v) (y : BitVec n) : (x ++ y).extractLsb' 0 n = y := by
  rw [BitVec.extractLsb'_append_eq_of_add_le (by omega)]; exact BitVec.extractLsb'_eq_self

theorem whole {n : Nat} (y : BitVec n) : y.extractLsb' 0 n = y := BitVec.extractLsb'_eq_self

theorem zero_app {v n : Nat} {x a : BitVec v} {y b : BitVec n} (h : x &&& a = 0) (k : y &&& b = 0) : (x ++ y) &&& (a ++ b) = 0 := by
  rw [BitVec.and_append, h, k]; exact BitVec.zero_append_zero

theorem readForm_00 {w : BitVec 32} (h : fld w 26 6 = 0x00#6) : readForm w = readMajor00 w := by unfold readForm; rw [h]; rfl
theorem readForm_01 {w : BitVec 32} (h : fld w 26 6 = 0x01#6) : readForm w = readMajor01 w := by unfold readForm; rw [h]; rfl
theorem readForm_02 {w : BitVec 32} (h : fld w 26 6 = 0x02#6) : readForm w = readMajor02 w := by unfold readForm; rw [h]; rfl
theorem readForm_03 {w : BitVec 32} (h : fld w 26 6 = 0x03#6) : readForm w = readMajor03 w := by unfold readForm; rw [h]; rfl
theorem readForm_08 {w : BitVec 32} (h : fld w 26 6 = 0x08#6) : readForm w = readMajor08 w := by unfold readForm; rw [h]; rfl
theorem readForm_09 {w : BitVec 32} (h : fld w 26 6 = 0x09#6) : readForm w = readMajor09 w := by unfold readForm; rw [h]; rfl
theorem readForm_0A {w : BitVec 32} (h : fld w 26 6 = 0x0A#6) : readForm w = readMajor0A w := by unfold readForm; rw [h]; rfl
theorem readForm_0B {w : BitVec 32} (h : fld w 26 6 = 0x0B#6) : readForm w = readMajor0B w := by unfold readForm; rw [h]; rfl
theorem readForm_0C {w : BitVec 32} (h : fld w 26 6 = 0x0C#6) : readForm w = readMajor0C w := by unfold readForm; rw [h]; rfl
theorem readForm_0D {w : BitVec 32} (h : fld w 26 6 = 0x0D#6) : readForm w = readMajor0D w := by unfold readForm; rw [h]; rfl
theorem readForm_0E {w : BitVec 32} (h : fld w 26 6 = 0x0E#6) : readForm w = readMajor0E w := by unfold readForm; rw [h]; rfl
theorem readForm_0F {w : BitVec 32} (h : fld w 26 6 = 0x0F#6) : readForm w = readMajor0F w := by unfold readForm; rw [h]; rfl
theorem readForm_10 {w : BitVec 32} (h : fld w 26 6 = 0x10#6) : readForm w = readMajor10 w := by unfold readForm; rw [h]; rfl
theorem readForm_11 {w : BitVec 32} (h : fld w 26 6 = 0x11#6) : readForm w = readMajor11 w := by unfold readForm; rw [h]; rfl
theorem readForm_12 {w : BitVec 32} (h : fld w 26 6 = 0x12#6) : readForm w = readMajor12 w := by unfold readForm; rw [h]; rfl
theorem readForm_13 {w : BitVec 32} (h : fld w 26 6 = 0x13#6) : readForm w = readMajor13 w := by unfold readForm; rw [h]; rfl
theorem readForm_14 {w : BitVec 32} (h : fld w 26 6 = 0x14#6) : readForm w = readMajor14 w := by unfold readForm; rw [h]; rfl
theorem readForm_15 {w : BitVec 32} (h : fld w 26 6 = 0x15#6) : readForm w = readMajor15 w := by unfold readForm; rw [h]; rfl
theorem readForm_16 {w : BitVec 32} (h : fld w 26 6 = 0x16#6) : readForm w = readMajor16 w := by unfold readForm; rw [h]; rfl
theorem readForm_18 {w : BitVec 32} (h : fld w 26 6 = 0x18#6) : readForm w = readMajor18 w := by unfold readForm; rw [h]; rfl
theorem readForm_19 {w : BitVec 32} (h : fld w 26 6 = 0x19#6) : readForm w = readMajor19 w := by unfold readForm; rw [h]; rfl
theorem readForm_1A {w : BitVec 32} (h : fld w 26 6 = 0x1A#6) : readForm w = readMajor1A w := by unfold readForm; rw [h]; rfl
theorem readForm_1B {w : BitVec 32} (h : fld w 26 6 = 0x1B#6) : readForm w = readMajor1B w := by unfold readForm; rw [h]; rfl
theorem readForm_1C {w : BitVec 32} (h : fld w 26 6 = 0x1C#6) : readForm w = readMajor1C w := by unfold readForm; rw [h]; rfl
theorem readForm_1D {w : BitVec 32} (h : fld w 26 6 = 0x1D#6) : readForm w = readMajor1D w := by unfold readForm; rw [h]; rfl
theorem readForm_1E {w : BitVec 32} (h : fld w 26 6 = 0x1E#6) : readForm w = readMajor1E w := by unfold readForm; rw [h]; rfl
theorem readForm_1F {w : BitVec 32} (h : fld w 26 6 = 0x1F#6) : readForm w = readMajor1F w := by unfold readForm; rw [h]; rfl
theorem readForm_20 {w : BitVec 32} (h : fld w 26 6 = 0x20#6) : readForm w = readMajor20 w := by unfold readForm; rw [h]; rfl
theorem readForm_21 {w : BitVec 32} (h : fld w 26 6 = 0x21#6) : readForm w = readMajor21 w := by unfold readForm; rw [h]; rfl
theorem readForm_22 {w : BitVec 32} (h : fld w 26 6 = 0x22#6) : readForm w = readMajor22 w := by unfold readForm; rw [h]; rfl
theorem readForm_23 {w : BitVec 32} (h : fld w 26 6 = 0x23#6) : readForm w = readMajor23 w := by unfold readForm; rw [h]; rfl
theorem readForm_24 {w : BitVec 32} (h : fld w 26 6 = 0x24#6) : readForm w = readMajor24 w := by unfold readForm; rw [h]; rfl
theorem readForm_25 {w : BitVec 32} (h : fld w 26 6 = 0x25#6) : readForm w = readMajor25 w := by unfold readForm; rw [h]; rfl
theorem readForm_26 {w : BitVec 32} (h : fld w 26 6 = 0x26#6) : readForm w = readMajor26 w := by unfold readForm; rw [h]; rfl
theorem readForm_27 {w : BitVec 32} (h : fld w 26 6 = 0x27#6) : readForm w = readMajor27 w := by unfold readForm; rw [h]; rfl
theorem readForm_28 {w : BitVec 32} (h : fld w 26 6 = 0x28#6) : readForm w = readMajor28 w := by unfold readForm; rw [h]; rfl
theorem readForm_29 {w : BitVec 32} (h : fld w 26 6 = 0x29#6) : readForm w = readMajor29 w := by unfold readForm; rw [h]; rfl
theorem readForm_2C {w : BitVec 32} (h : fld w 26 6 = 0x2C#6) : readForm w = readMajor2C w := by unfold readForm; rw [h]; rfl
theorem readForm_2D {w : BitVec 32} (h : fld w 26 6 = 0x2D#6) : readForm w = readMajor2D w := by unfold readForm; rw [h]; rfl
theorem readForm_2E {w : BitVec 32} (h : fld w 26 6 = 0x2E#6) : readForm w = readMajor2E w := by unfold readForm; rw [h]; rfl
theorem readForm_2F {w : BitVec 32} (h : fld w 26 6 = 0x2F#6) : readForm w = readMajor2F w := by unfold readForm; rw [h]; rfl
theorem readForm_30 {w : BitVec 32} (h : fld w 26 6 = 0x30#6) : readForm w = readMajor30 w := by unfold readForm; rw [h]; rfl
theorem readForm_31 {w : BitVec 32} (h : fld w 26 6 = 0x31#6) : readForm w = readMajor31 w := by unfold readForm; rw [h]; rfl
theorem readForm_32 {w : BitVec 32} (h : fld w 26 6 = 0x32#6) : readForm w = readMajor32 w := by unfold readForm; rw [h]; rfl
theorem readForm_33 {w : BitVec 32} (h : fld w 26 6 = 0x33#6) : readForm w = readMajor33 w := by unfold readForm; rw [h]; rfl
theorem readForm_34 {w : BitVec 32} (h : fld w 26 6 = 0x34#6) : readForm w = readMajor34 w := by unfold readForm; rw [h]; rfl
theorem readForm_35 {w : BitVec 32} (h : fld w 26 6 = 0x35#6) : readForm w = readMajor35 w := by unfold readForm; rw [h]; rfl
theorem readForm_38 {w : BitVec 32} (h : fld w 26 6 = 0x38#6) : readForm w = readMajor38 w := by unfold readForm; rw [h]; rfl
theorem readForm_39 {w : BitVec 32} (h : fld w 26 6 = 0x39#6) : readForm w = readMajor39 w := by unfold readForm; rw [h]; rfl
theorem readForm_3A {w : BitVec 32} (h : fld w 26 6 = 0x3A#6) : readForm w = readMajor3A w := by unfold readForm; rw [h]; rfl
theorem readForm_3B {w : BitVec 32} (h : fld w 26 6 = 0x3B#6) : readForm w = readMajor3B w := by unfold readForm; rw [h]; rfl

theorem fields_6_4_3_5_3_4_3_1_3 {w : BitVec 32} {x0 : BitVec 6} {x1 : BitVec 4} {x2 : BitVec 3} {x3 : BitVec 5} {x4 : BitVec 3} {x5 : BitVec 4} {x6 : BitVec 3} {x7 : BitVec 1} {x8 : BitVec 3} (e : w = x0 ++ x1 ++ x2 ++ x3 ++ x4 ++ x5 ++ x6 ++ x7 ++ x8) :
    fld w 26 6 = x0 ∧ fld w 22 4 = x1 ∧ fld w 19 3 = x2 ∧ fld w 14 5 = x3 ∧ fld w 11 3 = x4 ∧ fld w 7 4 = x5 ∧ fld w 4 3 = x6 ∧ fld w 3 1 = x7 ∧ fld w 0 3 = x8 := by
  subst e
  exact ⟨(above (by decide)).trans <| (above (by decide)).trans <| (above (by decide)).trans <| (above (by decide)).trans <| (above (by decide)).trans <| (above (by decide)).trans <| (above (by decide)).trans <| (above (by decide)).trans <| whole _, (above (by decide)).trans <| (above (by decide)).trans <| (above (by decide)).trans <| (above (by decide)).trans <| (above (by decide)).trans <| (above (by decide)).trans <| (above (by decide)).trans <| lowest _ _, (above (by decide)).trans <| (above (by decide)).trans <| (above (by decide)).trans <| (above (by decide)).trans <| (above (by decide)).trans <| (above (by decide)).trans <| lowest _ _, (above (by decide)).trans <| (above (by decide)).trans <| (above (by decide)).trans <| (above (by decide)).trans <| (above (by decide)).trans <| lowest _ _, (above (by decide)).trans <| (above (by decide)).trans <| (above (by decide)).trans <| (above (by decide)).trans <| lowest _ _, (above (by decide)).trans <| (above (by decide)).trans <| (above (by decide)).trans <| lowest _ _, (above (by decide)).trans <| (above (by decide)).trans <| lowest _ _, (above (by decide)).trans <| lowest _ _, lowest _ _⟩

theorem mask_6_4_3_5_3_4_3_1_3 {w m : BitVec 32} {x0 : BitVec 6} {x1 : BitVec 4} {x2 : BitVec 3} {x3 : BitVec 5} {x4 : BitVec 3} {x5 : BitVec 4} {x6 : BitVec 3} {x7 : BitVec 1} {x8 : BitVec 3} {y0 : BitVec 6} {y1 : BitVec 4} {y2 : BitVec 3} {y3 : BitVec 5} {y4 : BitVec 3} {y5 : BitVec 4} {y6 : BitVec 3} {y7 : BitVec 1} {y8 : BitVec 3} (e : w = x0 ++ x1 ++ x2 ++ x3 ++ x4 ++ x5 ++ x6 ++ x7 ++ x8) (f : m = y0 ++ y1 ++ y2 ++ y3 ++ y4 ++ y5 ++ y6 ++ y7 ++ y8)
    (hx0 : x0 &&& y0 = 0) (hx1 : x1 &&& y1 = 0) (hx2 : x2 &&& y2 = 0) (hx3 : x3 &&& y3 = 0) (hx4 : x4 &&& y4 = 0) (hx5 : x5 &&& y5 = 0) (hx6 : x6 &&& y6 = 0) (hx7 : x7 &&& y7 = 0) (hx8 : x8 &&& y8 = 0) : w &&& m = 0#32 := by
  subst e f
  exact (zero_app (zero_app (zero_app (zero_app (zero_app (zero_app (zero_app (zero_app hx0 hx1) hx2) hx3) hx4) hx5) hx6) hx7) hx8)

theorem fields_6_4_4_2_4_4_4_2_2 {w : BitVec 32} {x0 : BitVec 6} {x1 : BitVec 4} {x2 : BitVec 4} {x3 : BitVec 2} {x4 : BitVec 4} {x5 : BitVec 4} {x6 : BitVec 4} {x7 : BitVec 2} {x8 : BitVec 2} (e : w = x0 ++ x1 ++ x2 ++ x3 ++ x4 ++ x5 ++ x6 ++ x7 ++ x8) :
    fld w 26 6 = x0 ∧ fld w 22 4 = x1 ∧ fld w 18 4 = x2 ∧ fld w 16 2 = x3 ∧ fld w 12 4 = x4 ∧ fld w 8 4 = x5 ∧ fld w 4 4 = x6 ∧ fld w 2 2 = x7 ∧ fld w 0 2 = x8 := by
  subst e
  exact ⟨(above (by decide)).trans <| (above (by decide)).trans <| (above (by decide)).trans <| (above (by decide)).trans <| (above (by decide)).trans <| (above (by decide)).trans <| (above (by decide)).trans <| (above (by decide)).trans <| whole _, (above (by decide)).trans <| (above (by decide)).trans <| (above (by decide)).trans <| (above (by decide)).trans <| (above (by decide)).trans <| (above (by decide)).trans <| (above (by decide)).trans <| lowest _ _, (above (by decide)).trans <| (above (by decide)).trans <| (above (by decide)).trans <| (above (by decide)).trans <| (above (by decide)).trans <| (above (by decide)).trans <| lowest _ _, (above (by decide)).trans <| (above (by decide)).trans <| (above (by decide)).trans <| (above (by decide)).trans <| (above (by decide)).trans <| lowest _ _, (above (by decide)).trans <| (above (by decide)).trans <| (above (by decide)).trans <| (above (by decide)).trans <| lowest _ _, (above (by decide)).trans <| (above (by decide)).trans <| (above (by decide)).trans <| lowest _ _, (above (by decide)).trans <| (above (by decide)).trans <| lowest _ _, (above (by decide)).trans <| lowest _ _, lowest _ _⟩

theorem mask_6_4_4_2_4_4_4_2_2 {w m : BitVec 32} {x0 : BitVec 6} {x1 : BitVec 4} {x2 : BitVec 4} {x3 : BitVec 2} {x4 : BitVec 4} {x5 : BitVec 4} {x6 : BitVec 4} {x7 : BitVec 2} {x8 : BitVec 2} {y0 : BitVec 6} {y1 : BitVec 4} {y2 : BitVec 4} {y3 : BitVec 2} {y4 : BitVec 4} {y5 : BitVec 4} {y6 : BitVec 4} {y7 : BitVec 2} {y8 : BitVec 2} (e : w = x0 ++ x1 ++ x2 ++ x3 ++ x4 ++ x5 ++ x6 ++ x7 ++ x8) (f : m = y0 ++ y1 ++ y2 ++ y3 ++ y4 ++ y5 ++ y6 ++ y7 ++ y8)
    (hx0 : x0 &&& y0 = 0) (hx1 : x1 &&& y1 = 0) (hx2 : x2 &&& y2 = 0) (hx3 : x3 &&& y3 = 0) (hx4 : x4 &&& y4 = 0) (hx5 : x5 &&& y5 = 0) (hx6 : x6 &&& y6 = 0) (hx7 : x7 &&& y7 = 0) (hx8 : x8 &&& y8 = 0) : w &&& m = 0#32 := by
  subst e f
  exact (zero_app (zero_app (zero_app (zero_app (zero_app (zero_app (zero_app (zero_app hx0 hx1) hx2) hx3) hx4) hx5) hx6) hx7) hx8)

theorem fields_6_4_4_3_3_4_4_2_2 {w : BitVec 32} {x0 : BitVec 6} {x1 : BitVec 4} {x2 : BitVec 4} {x3 : BitVec 3} {x4 : BitVec 3} {x5 : BitVec 4} {x6 : BitVec 4} {x7 : BitVec 2} {x8 : BitVec 2} (e : w = x0 ++ x1 ++ x2 ++ x3 ++ x4 ++ x5 ++ x6 ++ x7 ++ x8) :
    fld w 26 6 = x0 ∧ fld w 22 4 = x1 ∧ fld w 18 4 = x2 ∧ fld w 15 3 = x3 ∧ fld w 12 3 = x4 ∧ fld w 8 4 = x5 ∧ fld w 4 4 = x6 ∧ fld w 2 2 = x7 ∧ fld w 0 2 = x8 := by
  subst e
  exact ⟨(above (by decide)).trans <| (above (by decide)).trans <| (above (by decide)).trans <| (above (by decide)).trans <| (above (by decide)).trans <| (above (by decide)).trans <| (above (by decide)).trans <| (above (by decide)).trans <| whole _, (above (by decide)).trans <| (above (by decide)).trans <| (above (by decide)).trans <| (above (by decide)).trans <| (above (by decide)).trans <| (above (by decide)).trans <| (above (by decide)).trans <| lowest _ _, (above (by decide)).trans <| (above (by decide)).trans <| (above (by decide)).trans <| (above (by decide)).trans <| (above (by decide)).trans <| (above (by decide)).trans <| lowest _ _, (above (by decide)).trans <| (above (by decide)).trans <| (above (by decide)).trans <| (above (by decide)).trans <| (above (by decide)).trans <| lowest _ _, (above (by decide)).trans <| (above (by decide)).trans <| (above (by decide)).trans <| (above (by decide)).trans <| lowest _ _, (above (by decide)).trans <| (above (by decide)).trans <| (above (by decide)).trans <| lowest _ _, (above (by decide)).trans <| (above (by decide)).trans <| lowest _ _, (above (by decide)).trans <| lowest _ _, lowest _ _⟩

theorem mask_6_4_4_3_3_4_4_2_2 {w m : BitVec 32} {x0 : BitVec 6} {x1 : BitVec 4} {x2 : BitVec 4} {x3 : BitVec 3} {x4 : BitVec 3} {x5 : BitVec 4} {x6 : BitVec 4} {x7 : BitVec 2} {x8 : BitVec 2} {y0 : BitVec 6} {y1 : BitVec 4} {y2 : BitVec 4} {y3 : BitVec 3} {y4 : BitVec 3} {y5 : BitVec 4} {y6 : BitVec 4} {y7 : BitVec 2} {y8 : BitVec 2} (e : w = x0 ++ x1 ++ x2 ++ x3 ++ x4 ++ x5 ++ x6 ++ x7 ++ x8) (f : m = y0 ++ y1 ++ y2 ++ y3 ++ y4 ++ y5 ++ y6 ++ y7 ++ y8)
    (hx0 : x0 &&& y0 = 0) (hx1 : x1 &&& y1 = 0) (hx2 : x2 &&& y2 = 0) (hx3 : x3 &&& y3 = 0) (hx4 : x4 &&& y4 = 0) (hx5 : x5 &&& y5 = 0) (hx6 : x6 &&& y6 = 0) (hx7 : x7 &&& y7 = 0) (hx8 : x8 &&& y8 = 0) : w &&& m = 0#32 := by
  subst e f
  exact (zero_app (zero_app (zero_app (zero_app (zero_app (zero_app (zero_app (zero_app hx0 hx1) hx2) hx3) hx4) hx5) hx6) hx7) hx8)

theorem fields_6_4_4_6_4_4_1_1_2 {w : BitVec 32} {x0 : BitVec 6} {x1 : BitVec 4} {x2 : BitVec 4} {x3 : BitVec 6} {x4 : BitVec 4} {x5 : BitVec 4} {x6 : BitVec 1} {x7 : BitVec 1} {x8 : BitVec 2} (e : w = x0 ++ x1 ++ x2 ++ x3 ++ x4 ++ x5 ++ x6 ++ x7 ++ x8) :
    fld w 26 6 = x0 ∧ fld w 22 4 = x1 ∧ fld w 18 4 = x2 ∧ fld w 12 6 = x3 ∧ fld w 8 4 = x4 ∧ fld w 4 4 = x5 ∧ fld w 3 1 = x6 ∧ fld w 2 1 = x7 ∧ fld w 0 2 = x8 := by
  subst e
  exact ⟨(above (by decide)).trans <| (above (by decide)).trans <| (above (by decide)).trans <| (above (by decide)).trans <| (above (by decide)).trans <| (above (by decide)).trans <| (above (by decide)).trans <| (above (by decide)).trans <| whole _, (above (by decide)).trans <| (above (by decide)).trans <| (above (by decide)).trans <| (above (by decide)).trans <| (above (by decide)).trans <| (above (by decide)).trans <| (above (by decide)).trans <| lowest _ _, (above (by decide)).trans <| (above (by decide)).trans <| (above (by decide)).trans <| (above (by decide)).trans <| (above (by decide)).trans <| (above (by decide)).trans <| lowest _ _, (above (by decide)).trans <| (above (by decide)).trans <| (above (by decide)).trans <| (above (by decide)).trans <| (above (by decide)).trans <| lowest _ _, (above (by decide)).trans <| (above (by decide)).trans <| (above (by decide)).trans <| (above (by decide)).trans <| lowest _ _, (above (by decide)).trans <| (above (by decide)).trans <| (above (by decide)).trans <| lowest _ _, (above (by decide)).trans <| (above (by decide)).trans <| lowest _ _, (above (by decide)).trans <| lowest _ _, lowest _ _⟩

theorem mask_6_4_4_6_4_4_1_1_2 {w m : BitVec 32} {x0 : BitVec 6} {x1 : BitVec 4} {x2 : BitVec 4} {x3 : BitVec 6} {x4 : BitVec 4} {x5 : BitVec 4} {x6 : BitVec 1} {x7 : BitVec 1} {x8 : BitVec 2} {y0 : BitVec 6} {y1 : BitVec 4} {y2 : BitVec 4} {y3 : BitVec 6} {y4 : BitVec 4} {y5 : BitVec 4} {y6 : BitVec 1} {y7 : BitVec 1} {y8 : BitVec 2} (e : w = x0 ++ x1 ++ x2 ++ x3 ++ x4 ++ x5 ++ x6 ++ x7 ++ x8) (f : m = y0 ++ y1 ++ y2 ++ y3 ++ y4 ++ y5 ++ y6 ++ y7 ++ y8)
    (hx0 : x0 &&& y0 = 0) (hx1 : x1 &&& y1 = 0) (hx2 : x2 &&& y2 = 0) (hx3 : x3 &&& y3 = 0) (hx4 : x4 &&& y4 = 0) (hx5 : x5 &&& y5 = 0) (hx6 : x6 &&& y6 = 0) (hx7 : x7 &&& y7 = 0) (hx8 : x8 &&& y8 = 0) : w &&& m = 0#32 := by
  subst e f
  exact (zero_app (zero_app (zero_app (zero_app (zero_app (zero_app (zero_app (zero_app hx0 hx1) hx2) hx3) hx4) hx5) hx6) hx7) hx8)

theorem fields_6_4_4_6_4_4_2_2 {w : BitVec 32} {x0 : BitVec 6} {x1 : BitVec 4} {x2 : BitVec 4} {x3 : BitVec 6} {x4 : BitVec 4} {x5 : BitVec 4} {x6 : BitVec 2} {x7 : BitVec 2} (e : w = x0 ++ x1 ++ x2 ++ x3 ++ x4 ++ x5 ++ x6 ++ x7) :
    fld w 26 6 = x0 ∧ fld w 22 4 = x1 ∧ fld w 18 4 = x2 ∧ fld w 12 6 = x3 ∧ fld w 8 4 = x4 ∧ fld w 4 4 = x5 ∧ fld w 2 2 = x6 ∧ fld w 0 2 = x7 := by
  subst e
  exact ⟨(above (by decide)).trans <| (above (by decide)).trans <| (above (by decide)).trans <| (above (by decide)).trans <| (above (by decide)).trans <| (above (by decide)).trans <| (above (by decide)).trans <| whole _, (above (by decide)).trans <| (above (by decide)).trans <| (above (by decide)).trans <| (above (by decide)).trans <| (above (by decide)).trans <| (above (by decide)).trans <| lowest _ _, (above (by decide)).trans <| (above (by decide)).trans <| (above (by decide)).trans <| (above (by decide)).trans <| (above (by decide)).trans <| lowest _ _, (above (by decide)).trans <| (above (by decide)).trans <| (above (by decide)).trans <| (above (by decide)).trans <| lowest _ _, (above (by decide)).trans <| (above (by decide)).trans <| (above (by decide)).trans <| lowest _ _, (above (by decide)).trans <| (above (by decide)).trans <| lowest _ _, (above (by decide)).trans <| lowest _ _, lowest _ _⟩

theorem mask_6_4_4_6_4_4_2_2 {w m : BitVec 32} {x0 : BitVec 6} {x1 : BitVec 4} {x2 : BitVec 4} {x3 : BitVec 6} {x4 : BitVec 4} {x5 : BitVec 4} {x6 : BitVec 2} {x7 : BitVec 2} {y0 : BitVec 6} {y1 : BitVec 4} {y2 : BitVec 4} {y3 : BitVec 6} {y4 : BitVec 4} {y5 : BitVec 4} {y6 : BitVec 2} {y7 : BitVec 2} (e : w = x0 ++ x1 ++ x2 ++ x3 ++ x4 ++ x5 ++ x6 ++ x7) (f : m = y0 ++ y1 ++ y2 ++ y3 ++ y4 ++ y5 ++ y6 ++ y7)
    (hx0 : x0 &&& y0 = 0) (hx1 : x1 &&& y1 = 0) (hx2 : x2 &&& y2 = 0) (hx3 : x3 &&& y3 = 0) (hx4 : x4 &&& y4 = 0) (hx5 : x5 &&& y5 = 0) (hx6 : x6 &&& y6 = 0) (hx7 : x7 &&& y7 = 0) : w &&& m = 0#32 := by
  subst e f
  exact (zero_app (zero_app (zero_app (zero_app (zero_app (zero_app (zero_app hx0 hx1) hx2) hx3) hx4) hx5) hx6) hx7)

theorem fields_6_4_4_6_4_4_4 {w : BitVec 32} {x0 : BitVec 6} {x1 : BitVec 4} {x2 : BitVec 4} {x3 : BitVec 6} {x4 : BitVec 4} {x5 : BitVec 4} {x6 : BitVec 4} (e : w = x0 ++ x1 ++ x2 ++ x3 ++ x4 ++ x5 ++ x6) :
    fld w 26 6 = x0 ∧ fld w 22 4 = x1 ∧ fld w 18 4 = x2 ∧ fld w 12 6 = x3 ∧ fld w 8 4 = x4 ∧ fld w 4 4 = x5 ∧ fld w 0 4 = x6 := by
  subst e
  exact ⟨(above (by decide)).trans <| (above (by decide)).trans <| (above (by decide)).trans <| (above (by decide)).trans <| (above (by decide)).trans <| (above (by decide)).trans <| whole _, (above (by decide)).trans <| (above (by decide)).trans <| (above (by decide)).trans <| (above (by decide)).trans <| (above (by decide)).trans <| lowest _ _, (above (by decide)).trans <| (above (by decide)).trans <| (above (by decide)).trans <| (above (by decide)).trans <| lowest _ _, (above (by decide)).trans <| (above (by decide)).trans <| (above (by decide)).trans <| lowest _ _, (above (by decide)).trans <| (above (by decide)).trans <| lowest _ _, (above (by decide)).trans <| lowest _ _, lowest _ _⟩

theorem mask_6_4_4_6_4_4_4 {w m : BitVec 32} {x0 : BitVec 6} {x1 : BitVec 4} {x2 : BitVec 4} {x3 : BitVec 6} {x4 : BitVec 4} {x5 : BitVec 4} {x6 : BitVec 4} {y0 : BitVec 6} {y1 : BitVec 4} {y2 : BitVec 4} {y3 : BitVec 6} {y4 : BitVec 4} {y5 : BitVec 4} {y6 : BitVec 4} (e : w = x0 ++ x1 ++ x2 ++ x3 ++ x4 ++ x5 ++ x6) (f : m = y0 ++ y1 ++ y2 ++ y3 ++ y4 ++ y5 ++ y6)
    (hx0 : x0 &&& y0 = 0) (hx1 : x1 &&& y1 = 0) (hx2 : x2 &&& y2 = 0) (hx3 : x3 &&& y3 = 0) (hx4 : x4 &&& y4 = 0) (hx5 : x5 &&& y5 = 0) (hx6 : x6 &&& y6 = 0) : w &&& m = 0#32 := by
  subst e f
  exact (zero_app (zero_app (zero_app (zero_app (zero_app (zero_app hx0 hx1) hx2) hx3) hx4) hx5) hx6)

theorem fields_6_4_5_1_4_1_4_1_1_3_2 {w : BitVec 32} {x0 : BitVec 6} {x1 : BitVec 4} {x2 : BitVec 5} {x3 : BitVec 1} {x4 : BitVec 4} {x5 : BitVec 1} {x6 : BitVec 4} {x7 : BitVec 1} {x8 : BitVec 1} {x9 : BitVec 3} {x10 : BitVec 2} (e : w = x0 ++ x1 ++ x2 ++ x3 ++ x4 ++ x5 ++ x6 ++ x7 ++ x8 ++ x9 ++ x10) :
    fld w 26 6 = x0 ∧ fld w 22 4 = x1 ∧ fld w 17 5 = x2 ∧ fld w 16 1 = x3 ∧ fld w 12 4 = x4 ∧ fld w 11 1 = x5 ∧ fld w 7 4 = x6 ∧ fld w 6 1 = x7 ∧ fld w 5 1 = x8 ∧ fld w 2 3 = x9 ∧ fld w 0 2 = x10 := by
  subst e
  exact ⟨(above (by decide)).trans <| (above (by decide)).trans <| (above (by decide)).trans <| (above (by decide)).trans <| (above (by decide)).trans <| (above (by decide)).trans <| (above (by decide)).trans <| (above (by decide)).trans <| (above (by decide)).trans <| (above (by decide)).trans <| whole _, (above (by decide)).trans <| (above (by decide)).trans <| (above (by decide)).trans <| (above (by decide)).trans <| (above (by decide)).trans <| (above (by decide)).trans <| (above (by decide)).trans <| (above (by decide)).trans <| (above (by decide)).trans <| lowest _ _, (above (by decide)).trans <| (above (by decide)).trans <| (above (by decide)).trans <| (above (by decide)).trans <| (above (by decide)).trans <| (above (by decide)).trans <| (above (by decide)).trans <| (above (by decide)).trans <| lowest _ _, (above (by decide)).trans <| (above (by decide)).trans <| (above (by decide)).trans <| (above (by decide)).trans <| (above (by decide)).trans <| (above (by decide)).trans <| (above (by decide)).trans <| lowest _ _, (above (by decide)).trans <| (above (by decide)).trans <| (above (by decide)).trans <| (above (by decide)).trans <| (above (by decide)).trans <| (above (by decide)).trans <| lowest _ _, (above (by decide)).trans <| (above (by decide)).trans <| (above (by decide)).trans <| (above (by decide)).trans <| (above (by decide)).trans <| lowest _ _, (above (by decide)).trans <| (above (by decide)).trans <| (above (by decide)).trans <| (above (by decide)).trans <| lowest _ _, (above (by decide)).trans <| (above (by decide)).trans <| (above (by decide)).trans <| lowest _ _, (above (by decide)).trans <| (above (by decide)).trans <| lowest _ _, (above (by decide)).trans <| lowest _ _, lowest _ _⟩

theorem mask_6_4_5_1_4_1_4_1_1_3_2 {w m : BitVec 32} {x0 : BitVec 6} {x1 : BitVec 4} {x2 : BitVec 5} {x3 : BitVec 1} {x4 : BitVec 4} {x5 : BitVec 1} {x6 : BitVec 4} {x7 : BitVec 1} {x8 : BitVec 1} {x9 : BitVec 3} {x10 : BitVec 2} {y0 : BitVec 6} {y1 : BitVec 4} {y2 : BitVec 5} {y3 : BitVec 1} {y4 : BitVec 4} {y5 : BitVec 1} {y6 : BitVec 4} {y7 : BitVec 1} {y8 : BitVec 1} {y9 : BitVec 3} {y10 : BitVec 2} (e : w = x0 ++ x1 ++ x2 ++ x3 ++ x4 ++ x5 ++ x6 ++ x7 ++ x8 ++ x9 ++ x10) (f : m = y0 ++ y1 ++ y2 ++ y3 ++ y4 ++ y5 ++ y6 ++ y7 ++ y8 ++ y9 ++ y10)
    (hx0 : x0 &&& y0 = 0) (hx1 : x1 &&& y1 = 0) (hx2 : x2 &&& y2 = 0) (hx3 : x3 &&& y3 = 0) (hx4 : x4 &&& y4 = 0) (hx5 : x5 &&& y5 = 0) (hx6 : x6 &&& y6 = 0) (hx7 : x7 &&& y7 = 0) (hx8 : x8 &&& y8 = 0) (hx9 : x9 &&& y9 = 0) (hx10 : x10 &&& y10 = 0) : w &&& m = 0#32 := by
  subst e f
  exact (zero_app (zero_app (zero_app (zero_app (zero_app (zero_app (zero_app (zero_app (zero_app (zero_app hx0 hx1) hx2) hx3) hx4) hx5) hx6) hx7) hx8) hx9) hx10)

theorem fields_6_4_5_1_4_5_2_3_1_1 {w : BitVec 32} {x0 : BitVec 6} {x1 : BitVec 4} {x2 : BitVec 5} {x3 : BitVec 1} {x4 : BitVec 4} {x5 : BitVec 5} {x6 : BitVec 2} {x7 : BitVec 3} {x8 : BitVec 1} {x9 : BitVec 1} (e : w = x0 ++ x1 ++ x2 ++ x3 ++ x4 ++ x5 ++ x6 ++ x7 ++ x8 ++ x9) :
    fld w 26 6 = x0 ∧ fld w 22 4 = x1 ∧ fld w 17 5 = x2 ∧ fld w 16 1 = x3 ∧ fld w 12 4 = x4 ∧ fld w 7 5 = x5 ∧ fld w 5 2 = x6 ∧ fld w 2 3 = x7 ∧ fld w 1 1 = x8 ∧ fld w 0 1 = x9 := by
  subst e
  exact ⟨(above (by decide)).trans <| (above (by decide)).trans <| (above (by decide)).trans <| (above (by decide)).trans <| (above (by decide)).trans <| (above (by decide)).trans <| (above (by decide)).trans <| (above (by decide)).trans <| (above (by decide)).trans <| whole _, (above (by decide)).trans <| (above (by decide)).trans <| (above (by decide)).trans <| (above (by decide)).trans <| (above (by decide)).trans <| (above (by decide)).trans <| (above (by decide)).trans <| (above (by decide)).trans <| lowest _ _, (above (by decide)).trans <| (above (by decide)).trans <| (above (by decide)).trans <| (above (by decide)).trans <| (above (by decide)).trans <| (above (by decide)).trans <| (above (by decide)).trans <| lowest _ _, (above (by decide)).trans <| (above (by decide)).trans <| (above (by decide)).trans <| (above (by decide)).trans <| (above (by decide)).trans <| (above (by decide)).trans <| lowest _ _, (above (by decide)).trans <| (above (by decide)).trans <| (above (by decide)).trans <| (above (by decide)).trans <| (above (by decide)).trans <| lowest _ _, (above (by decide)).trans <| (above (by decide)).trans <| (above (by decide)).trans <| (above (by decide)).trans <| lowest _ _, (above (by decide)).trans <| (above (by decide)).trans <| (above (by decide)).trans <| lowest _ _, (above (by decide)).trans <| (above (by decide)).trans <| lowest _ _, (above (by decide)).trans <| lowest _ _, lowest _ _⟩

theorem mask_6_4_5_1_4_5_2_3_1_1 {w m : BitVec 32} {x0 : BitVec 6} {x1 : BitVec 4} {x2 : BitVec 5} {x3 : BitVec 1} {x4 : BitVec 4} {x5 : BitVec 5} {x6 : BitVec 2} {x7 : BitVec 3} {x8 : BitVec 1} {x9 : BitVec 1} {y0 : BitVec 6} {y1 : BitVec 4} {y2 : BitVec 5} {y3 : BitVec 1} {y4 : BitVec 4} {y5 : BitVec 5} {y6 : BitVec 2} {y7 : BitVec 3} {y8 : BitVec 1} {y9 : BitVec 1} (e : w = x0 ++ x1 ++ x2 ++ x3 ++ x4 ++ x5 ++ x6 ++ x7 ++ x8 ++ x9) (f : m = y0 ++ y1 ++ y2 ++ y3 ++ y4 ++ y5 ++ y6 ++ y7 ++ y8 ++ y9)
    (hx0 : x0 &&& y0 = 0) (hx1 : x1 &&& y1 = 0) (hx2 : x2 &&& y2 = 0) (hx3 : x3 &&& y3 = 0) (hx4 : x4 &&& y4 = 0) (hx5 : x5 &&& y5 = 0) (hx6 : x6 &&& y6 = 0) (hx7 : x7 &&& y7 = 0) (hx8 : x8 &&& y8 = 0) (hx9 : x9 &&& y9 = 0) : w &&& m = 0#32 := by
  subst e f
  exact (zero_app (zero_app (zero_app (zero_app (zero_app (zero_app (zero_app (zero_app (zero_app hx0 hx1) hx2) hx3) hx4) hx5) hx6) hx7) hx8) hx9)

theorem fields_6_4_5_2_1_2_6_6 {w : BitVec 32} {x0 : BitVec 6} {x1 : BitVec 4} {x2 : BitVec 5} {x3 : BitVec 2} {x4 : BitVec 1} {x5 : BitVec 2} {x6 : BitVec 6} {x7 : BitVec 6} (e : w = x0 ++ x1 ++ x2 ++ x3 ++ x4 ++ x5 ++ x6 ++ x7) :
    fld w 26 6 = x0 ∧ fld w 22 4 = x1 ∧ fld w 17 5 = x2 ∧ fld w 15 2 = x3 ∧ fld w 14 1 = x4 ∧ fld w 12 2 = x5 ∧ fld w 6 6 = x6 ∧ fld w 0 6 = x7 := by
  subst e
  exact ⟨(above (by decide)).trans <| (above (by decide)).trans <| (above (by decide)).trans <| (above (by decide)).trans <| (above (by decide)).trans <| (above (by decide)).trans <| (above (by decide)).trans <| whole _, (above (by decide)).trans <| (above (by decide)).trans <| (above (by decide)).trans <| (above (by decide)).trans <| (above (by decide)).trans <| (above (by decide)).trans <| lowest _ _, (above (by decide)).trans <| (above (by decide)).trans <| (above (by decide)).trans <| (above (by decide)).trans <| (above (by decide)).trans <| lowest _ _, (above (by decide)).trans <| (above (by decide)).trans <| (above (by decide)).trans <| (above (by decide)).trans <| lowest _ _, (above (by decide)).trans <| (above (by decide)).trans <| (above (by decide)).trans <| lowest _ _, (above (by decide)).trans <| (above (by decide)).trans <| lowest _ _, (above (by decide)).trans <| lowest _ _, lowest _ _⟩

theorem mask_6_4_5_2_1_2_6_6 {w m : BitVec 32} {x0 : BitVec 6} {x1 : BitVec 4} {x2 : BitVec 5} {x3 : BitVec 2} {x4 : BitVec 1} {x5 : BitVec 2} {x6 : BitVec 6} {x7 : BitVec 6} {y0 : BitVec 6} {y1 : BitVec 4} {y2 : BitVec 5} {y3 : BitVec 2} {y4 : BitVec 1} {y5 : BitVec 2} {y6 : BitVec 6} {y7 : BitVec 6} (e : w = x0 ++ x1 ++ x2 ++ x3 ++ x4 ++ x5 ++ x6 ++ x7) (f : m = y0 ++ y1 ++ y2 ++ y3 ++ y4 ++ y5 ++ y6 ++ y7)
    (hx0 : x0 &&& y0 = 0) (hx1 : x1 &&& y1 = 0) (hx2 : x2 &&& y2 = 0) (hx3 : x3 &&& y3 = 0) (hx4 : x4 &&& y4 = 0) (hx5 : x5 &&& y5 = 0) (hx6 : x6 &&& y6 = 0) (hx7 : x7 &&& y7 = 0) : w &&& m = 0#32 := by
  subst e f
  exact (zero_app (zero_app (zero_app (zero_app (zero_app (zero_app (zero_app hx0 hx1) hx2) hx3) hx4) hx5) hx6) hx7)

theorem fields_6_4_5_2_2_1_6_6 {w : BitVec 32} {x0 : BitVec 6} {x1 : BitVec 4} {x2 : BitVec 5} {x3 : BitVec 2} {x4 : BitVec 2} {x5 : BitVec 1} {x6 : BitVec 6} {x7 : BitVec 6} (e : w = x0 ++ x1 ++ x2 ++ x3 ++ x4 ++ x5 ++ x6 ++ x7) :
    fld w 26 6 = x0 ∧ fld w 22 4 = x1 ∧ fld w 17 5 = x2 ∧ fld w 15 2 = x3 ∧ fld w 13 2 = x4 ∧ fld w 12 1 = x5 ∧ fld w 6 6 = x6 ∧ fld w 0 6 = x7 := by
  subst e
  exact ⟨(above (by decide)).trans <| (above (by decide)).trans <| (above (by decide)).trans <| (above (by decide)).trans <| (above (by decide)).trans <| (above (by decide)).trans <| (above (by decide)).trans <| whole _, (above (by decide)).trans <| (above (by decide)).trans <| (above (by decide)).trans <| (above (by decide)).trans <| (above (by decide)).trans <| (above (by decide)).trans <| lowest _ _, (above (by decide)).trans <| (above (by decide)).trans <| (above (by decide)).trans <| (above (by decide)).trans <| (above (by decide)).trans <| lowest _ _, (above (by decide)).trans <| (above (by decide)).trans <| (above (by decide)).trans <| (above (by decide)).trans <| lowest _ _, (above (by decide)).trans <| (above (by decide)).trans <| (above (by decide)).trans <| lowest _ _, (above (by decide)).trans <| (above (by decide)).trans <| lowest _ _, (above (by decide)).trans <| lowest _ _, lowest _ _⟩

theorem mask_6_4_5_2_2_1_6_6 {w m : BitVec 32} {x0 : BitVec 6} {x1 : BitVec 4} {x2 : BitVec 5} {x3 : BitVec 2} {x4 : BitVec 2} {x5 : BitVec 1} {x6 : BitVec 6} {x7 : BitVec 6} {y0 : BitVec 6} {y1 : BitVec 4} {y2 : BitVec 5} {y3 : BitVec 2} {y4 : BitVec 2} {y5 : BitVec 1} {y6 : BitVec 6} {y7 : BitVec 6} (e : w = x0 ++ x1 ++ x2 ++ x3 ++ x4 ++ x5 ++ x6 ++ x7) (f : m = y0 ++ y1 ++ y2 ++ y3 ++ y4 ++ y5 ++ y6 ++ y7)
    (hx0 : x0 &&& y0 = 0) (hx1 : x1 &&& y1 = 0) (hx2 : x2 &&& y2 = 0) (hx3 : x3 &&& y3 = 0) (hx4 : x4 &&& y4 = 0) (hx5 : x5 &&& y5 = 0) (hx6 : x6 &&& y6 = 0) (hx7 : x7 &&& y7 = 0) : w &&& m = 0#32 := by
  subst e f
  exact (zero_app (zero_app (zero_app (zero_app (zero_app (zero_app (zero_app hx0 hx1) hx2) hx3) hx4) hx5) hx6) hx7)

theorem fields_6_4_5_2_3_5_2_3_1_1 {w : BitVec 32} {x0 : BitVec 6} {x1 : BitVec 4} {x2 : BitVec 5} {x3 : BitVec 2} {x4 : BitVec 3} {x5 : BitVec 5} {x6 : BitVec 2} {x7 : BitVec 3} {x8 : BitVec 1} {x9 : BitVec 1} (e : w = x0 ++ x1 ++ x2 ++ x3 ++ x4 ++ x5 ++ x6 ++ x7 ++ x8 ++ x9) :
    fld w 26 6 = x0 ∧ fld w 22 4 = x1 ∧ fld w 17 5 = x2 ∧ fld w 15 2 = x3 ∧ fld w 12 3 = x4 ∧ fld w 7 5 = x5 ∧ fld w 5 2 = x6 ∧ fld w 2 3 = x7 ∧ fld w 1 1 = x8 ∧ fld w 0 1 = x9 := by
  subst e
  exact ⟨(above (by decide)).trans <| (above (by decide)).trans <| (above (by decide)).trans <| (above (by decide)).trans <| (above (by decide)).trans <| (above (by decide)).trans <| (above (by decide)).trans <| (above (by decide)).trans <| (above (by decide)).trans <| whole _, (above (by decide)).trans <| (above (by decide)).trans <| (above (by decide)).trans <| (above (by decide)).trans <| (above (by decide)).trans <| (above (by decide)).trans <| (above (by decide)).trans <| (above (by decide)).trans <| lowest _ _, (above (by decide)).trans <| (above (by decide)).trans <| (above (by decide)).trans <| (above (by decide)).trans <| (above (by decide)).trans <| (above (by decide)).trans <| (above (by decide)).trans <| lowest _ _, (above (by decide)).trans <| (above (by decide)).trans <| (above (by decide)).trans <| (above (by decide)).trans <| (above (by decide)).trans <| (above (by decide)).trans <| lowest _ _, (above (by decide)).trans <| (above (by decide)).trans <| (above (by decide)).trans <| (above (by decide)).trans <| (above (by decide)).trans <| lowest _ _, (above (by decide)).trans <| (above (by decide)).trans <| (above (by decide)).trans <| (above (by decide)).trans <| lowest _ _, (above (by decide)).trans <| (above (by decide)).trans <| (above (by decide)).trans <| lowest _ _, (above (by decide)).trans <| (above (by decide)).trans <| lowest _ _, (above (by decide)).trans <| lowest _ _, lowest _ _⟩

theorem mask_6_4_5_2_3_5_2_3_1_1 {w m : BitVec 32} {x0 : BitVec 6} {x1 : BitVec 4} {x2 : BitVec 5} {x3 : BitVec 2} {x4 : BitVec 3} {x5 : BitVec 5} {x6 : BitVec 2} {x7 : BitVec 3} {x8 : BitVec 1} {x9 : BitVec 1} {y0 : BitVec 6} {y1 : BitVec 4} {y2 : BitVec 5} {y3 : BitVec 2} {y4 : BitVec 3} {y5 : BitVec 5} {y6 : BitVec 2} {y7 : BitVec 3} {y8 : BitVec 1} {y9 : BitVec 1} (e : w = x0 ++ x1 ++ x2 ++ x3 ++ x4 ++ x5 ++ x6 ++ x7 ++ x8 ++ x9) (f : m = y0 ++ y1 ++ y2 ++ y3 ++ y4 ++ y5 ++ y6 ++ y7 ++ y8 ++ y9)
    (hx0 : x0 &&& y0 = 0) (hx1 : x1 &&& y1 = 0) (hx2 : x2 &&& y2 = 0) (hx3 : x3 &&& y3 = 0) (hx4 : x4 &&& y4 = 0) (hx5 : x5 &&& y5 = 0) (hx6 : x6 &&& y6 = 0) (hx7 : x7 &&& y7 = 0) (hx8 : x8 &&& y8 = 0) (hx9 : x9 &&& y9 = 0) : w &&& m = 0#32 := by
  subst e f
  exact (zero_app (zero_app (zero_app (zero_app (zero_app (zero_app (zero_app (zero_app (zero_app hx0 hx1) hx2) hx3) hx4) hx5) hx6) hx7) hx8) hx9)

theorem fields_6_4_5_2_3_6_6 {w : BitVec 32} {x0 : BitVec 6} {x1 : BitVec 4} {x2 : BitVec 5} {x3 : BitVec 2} {x4 : BitVec 3} {x5 : BitVec 6} {x6 : BitVec 6} (e : w = x0 ++ x1 ++ x2 ++ x3 ++ x4 ++ x5 ++ x6) :
    fld w 26 6 = x0 ∧ fld w 22 4 = x1 ∧ fld w 17 5 = x2 ∧ fld w 15 2 = x3 ∧ fld w 12 3 = x4 ∧ fld w 6 6 = x5 ∧ fld w 0 6 = x6 := by
  subst e
  exact ⟨(above (by decide)).trans <| (above (by decide)).trans <| (above (by decide)).trans <| (above (by decide)).trans <| (above (by decide)).trans <| (above (by decide)).trans <| whole _, (above (by decide)).trans <| (above (by decide)).trans <| (above (by decide)).trans <| (above (by decide)).trans <| (above (by decide)).trans <| lowest _ _, (above (by decide)).trans <| (above (by decide)).trans <| (above (by decide)).trans <| (above (by decide)).trans <| lowest _ _, (above (by decide)).trans <| (above (by decide)).trans <| (above (by decide)).trans <| lowest _ _, (above (by decide)).trans <| (above (by decide)).trans <| lowest _ _, (above (by decide)).trans <| lowest _ _, lowest _ _⟩

theorem mask_6_4_5_2_3_6_6 {w m : BitVec 32} {x0 : BitVec 6} {x1 : BitVec 4} {x2 : BitVec 5} {x3 : BitVec 2} {x4 : BitVec 3} {x5 : BitVec 6} {x6 : BitVec 6} {y0 : BitVec 6} {y1 : BitVec 4} {y2 : BitVec 5} {y3 : BitVec 2} {y4 : BitVec 3} {y5 : BitVec 6} {y6 : BitVec 6} (e : w = x0 ++ x1 ++ x2 ++ x3 ++ x4 ++ x5 ++ x6) (f : m = y0 ++ y1 ++ y2 ++ y3 ++ y4 ++ y5 ++ y6)
    (hx0 : x0 &&& y0 = 0) (hx1 : x1 &&& y1 = 0) (hx2 : x2 &&& y2 = 0) (hx3 : x3 &&& y3 = 0) (hx4 : x4 &&& y4 = 0) (hx5 : x5 &&& y5 = 0) (hx6 : x6 &&& y6 = 0) : w &&& m = 0#32 := by
  subst e f
  exact (zero_app (zero_app (zero_app (zero_app (zero_app (zero_app hx0 hx1) hx2) hx3) hx4) hx5) hx6)

theorem fields_6_4_5_4_4_4_1_1_3 {w : BitVec 32} {x0 : BitVec 6} {x1 : BitVec 4} {x2 : BitVec 5} {x3 : BitVec 4} {x4 : BitVec 4} {x5 : BitVec 4} {x6 : BitVec 1} {x7 : BitVec 1} {x8 : BitVec 3} (e : w = x0 ++ x1 ++ x2 ++ x3 ++ x4 ++ x5 ++ x6 ++ x7 ++ x8) :
    fld w 26 6 = x0 ∧ fld w 22 4 = x1 ∧ fld w 17 5 = x2 ∧ fld w 13 4 = x3 ∧ fld w 9 4 = x4 ∧ fld w 5 4 = x5 ∧ fld w 4 1 = x6 ∧ fld w 3 1 = x7 ∧ fld w 0 3 = x8 := by
  subst e
  exact ⟨(above (by decide)).trans <| (above (by decide)).trans <| (above (by decide)).trans <| (above (by decide)).trans <| (above (by decide)).trans <| (above (by decide)).trans <| (above (by decide)).trans <| (above (by decide)).trans <| whole _, (above (by decide)).trans <| (above (by decide)).trans <| (above (by decide)).trans <| (above (by decide)).trans <| (above (by decide)).trans <| (above (by decide)).trans <| (above (by decide)).trans <| lowest _ _, (above (by decide)).trans <| (above (by decide)).trans <| (above (by decide)).trans <| (above (by decide)).trans <| (above (by decide)).trans <| (above (by decide)).trans <| lowest _ _, (above (by decide)).trans <| (above (by decide)).trans <| (above (by decide)).trans <| (above (by decide)).trans <| (above (by decide)).trans <| lowest _ _, (above (by decide)).trans <| (above (by decide)).trans <| (above (by decide)).trans <| (above (by decide)).trans <| lowest _ _, (above (by decide)).trans <| (above (by decide)).trans <| (above (by decide)).trans <| lowest _ _, (above (by decide)).trans <| (above (by decide)).trans <| lowest _ _, (above (by decide)).trans <| lowest _ _, lowest _ _⟩

theorem mask_6_4_5_4_4_4_1_1_3 {w m : BitVec 32} {x0 : BitVec 6} {x1 : BitVec 4} {x2 : BitVec 5} {x3 : BitVec 4} {x4 : BitVec 4} {x5 : BitVec 4} {x6 : BitVec 1} {x7 : BitVec 1} {x8 : BitVec 3} {y0 : BitVec 6} {y1 : BitVec 4} {y2 : BitVec 5} {y3 : BitVec 4} {y4 : BitVec 4} {y5 : BitVec 4} {y6 : BitVec 1} {y7 : BitVec 1} {y8 : BitVec 3} (e : w = x0 ++ x1 ++ x2 ++ x3 ++ x4 ++ x5 ++ x6 ++ x7 ++ x8) (f : m = y0 ++ y1 ++ y2 ++ y3 ++ y4 ++ y5 ++ y6 ++ y7 ++ y8)
    (hx0 : x0 &&& y0 = 0) (hx1 : x1 &&& y1 = 0) (hx2 : x2 &&& y2 = 0) (hx3 : x3 &&& y3 = 0) (hx4 : x4 &&& y4 = 0) (hx5 : x5 &&& y5 = 0) (hx6 : x6 &&& y6 = 0) (hx7 : x7 &&& y7 = 0) (hx8 : x8 &&& y8 = 0) : w &&& m = 0#32 := by
  subst e f
  exact (zero_app (zero_app (zero_app (zero_app (zero_app (zero_app (zero_app (zero_app hx0 hx1) hx2) hx3) hx4) hx5) hx6) hx7) hx8)

theorem fields_6_4_5_4_4_4_1_2_2 {w : BitVec 32} {x0 : BitVec 6} {x1 : BitVec 4} {x2 : BitVec 5} {x3 : BitVec 4} {x4 : BitVec 4} {x5 : BitVec 4} {x6 : BitVec 1} {x7 : BitVec 2} {x8 : BitVec 2} (e : w = x0 ++ x1 ++ x2 ++ x3 ++ x4 ++ x5 ++ x6 ++ x7 ++ x8) :
    fld w 26 6 = x0 ∧ fld w 22 4 = x1 ∧ fld w 17 5 = x2 ∧ fld w 13 4 = x3 ∧ fld w 9 4 = x4 ∧ fld w 5 4 = x5 ∧ fld w 4 1 = x6 ∧ fld w 2 2 = x7 ∧ fld w 0 2 = x8 := by
  subst e
  exact ⟨(above (by decide)).trans <| (above (by decide)).trans <| (above (by decide)).trans <| (above (by decide)).trans <| (above (by decide)).trans <| (above (by decide)).trans <| (above (by decide)).trans <| (above (by decide)).trans <| whole _, (above (by decide)).trans <| (above (by decide)).trans <| (above (by decide)).trans <| (above (by decide)).trans <| (above (by decide)).trans <| (above (by decide)).trans <| (above (by decide)).trans <| lowest _ _, (above (by decide)).trans <| (above (by decide)).trans <| (above (by decide)).trans <| (above (by decide)).trans <| (above (by decide)).trans <| (above (by decide)).trans <| lowest _ _, (above (by decide)).trans <| (above (by decide)).trans <| (above (by decide)).trans <| (above (by decide)).trans <| (above (by decide)).trans <| lowest _ _, (above (by decide)).trans <| (above (by decide)).trans <| (above (by decide)).trans <| (above (by decide)).trans <| lowest _ _, (above (by decide)).trans <| (above (by decide)).trans <| (above (by decide)).trans <| lowest _ _, (above (by decide)).trans <| (above (by decide)).trans <| lowest _ _, (above (by decide)).trans <| lowest _ _, lowest _ _⟩

theorem mask_6_4_5_4_4_4_1_2_2 {w m : BitVec 32} {x0 : BitVec 6} {x1 : BitVec 4} {x2 : BitVec 5} {x3 : BitVec 4} {x4 : BitVec 4} {x5 : BitVec 4} {x6 : BitVec 1} {x7 : BitVec 2} {x8 : BitVec 2} {y0 : BitVec 6} {y1 : BitVec 4} {y2 : BitVec 5} {y3 : BitVec 4} {y4 : BitVec 4} {y5 : BitVec 4} {y6 : BitVec 1} {y7 : BitVec 2} {y8 : BitVec 2} (e : w = x0 ++ x1 ++ x2 ++ x3 ++ x4 ++ x5 ++ x6 ++ x7 ++ x8) (f : m = y0 ++ y1 ++ y2 ++ y3 ++ y4 ++ y5 ++ y6 ++ y7 ++ y8)
    (hx0 : x0 &&& y0 = 0) (hx1 : x1 &&& y1 = 0) (hx2 : x2 &&& y2 = 0) (hx3 : x3 &&& y3 = 0) (hx4 : x4 &&& y4 = 0) (hx5 : x5 &&& y5 = 0) (hx6 : x6 &&& y6 = 0) (hx7 : x7 &&& y7 = 0) (hx8 : x8 &&& y8 = 0) : w &&& m = 0#32 := by
  subst e f
  exact (zero_app (zero_app (zero_app (zero_app (zero_app (zero_app (zero_app (zero_app hx0 hx1) hx2) hx3) hx4) hx5) hx6) hx7) hx8)

theorem fields_6_4_5_4_4_4_2_1_2 {w : BitVec 32} {x0 : BitVec 6} {x1 : BitVec 4} {x2 : BitVec 5} {x3 : BitVec 4} {x4 : BitVec 4} {x5 : BitVec 4} {x6 : BitVec 2} {x7 : BitVec 1} {x8 : BitVec 2} (e : w = x0 ++ x1 ++ x2 ++ x3 ++ x4 ++ x5 ++ x6 ++ x7 ++ x8) :
    fld w 26 6 = x0 ∧ fld w 22 4 = x1 ∧ fld w 17 5 = x2 ∧ fld w 13 4 = x3 ∧ fld w 9 4 = x4 ∧ fld w 5 4 = x5 ∧ fld w 3 2 = x6 ∧ fld w 2 1 = x7 ∧ fld w 0 2 = x8 := by
  subst e
  exact ⟨(above (by decide)).trans <| (above (by decide)).trans <| (above (by decide)).trans <| (above (by decide)).trans <| (above (by decide)).trans <| (above (by decide)).trans <| (above (by decide)).trans <| (above (by decide)).trans <| whole _, (above (by decide)).trans <| (above (by decide)).trans <| (above (by decide)).trans <| (above (by decide)).trans <| (above (by decide)).trans <| (above (by decide)).trans <| (above (by decide)).trans <| lowest _ _, (above (by decide)).trans <| (above (by decide)).trans <| (above (by decide)).trans <| (above (by decide)).trans <| (above (by decide)).trans <| (above (by decide)).trans <| lowest _ _, (above (by decide)).trans <| (above (by decide)).trans <| (above (by decide)).trans <| (above (by decide)).trans <| (above (by decide)).trans <| lowest _ _, (above (by decide)).trans <| (above (by decide)).trans <| (above (by decide)).trans <| (above (by decide)).trans <| lowest _ _, (above (by decide)).trans <| (above (by decide)).trans <| (above (by decide)).trans <| lowest _ _, (above (by decide)).trans <| (above (by decide)).trans <| lowest _ _, (above (by decide)).trans <| lowest _ _, lowest _ _⟩

theorem mask_6_4_5_4_4_4_2_1_2 {w m : BitVec 32} {x0 : BitVec 6} {x1 : BitVec 4} {x2 : BitVec 5} {x3 : BitVec 4} {x4 : BitVec 4} {x5 : BitVec 4} {x6 : BitVec 2} {x7 : BitVec 1} {x8 : BitVec 2} {y0 : BitVec 6} {y1 : BitVec 4} {y2 : BitVec 5} {y3 : BitVec 4} {y4 : BitVec 4} {y5 : BitVec 4} {y6 : BitVec 2} {y7 : BitVec 1} {y8 : BitVec 2} (e : w = x0 ++ x1 ++ x2 ++ x3 ++ x4 ++ x5 ++ x6 ++ x7 ++ x8) (f : m = y0 ++ y1 ++ y2 ++ y3 ++ y4 ++ y5 ++ y6 ++ y7 ++ y8)
    (hx0 : x0 &&& y0 = 0) (hx1 : x1 &&& y1 = 0) (hx2 : x2 &&& y2 = 0) (hx3 : x3 &&& y3 = 0) (hx4 : x4 &&& y4 = 0) (hx5 : x5 &&& y5 = 0) (hx6 : x6 &&& y6 = 0) (hx7 : x7 &&& y7 = 0) (hx8 : x8 &&& y8 = 0) : w &&& m = 0#32 := by
  subst e f
  exact (zero_app (zero_app (zero_app (zero_app (zero_app (zero_app (zero_app (zero_app hx0 hx1) hx2) hx3) hx4) hx5) hx6) hx7) hx8)

theorem fields_6_4_5_4_4_4_3_2 {w : BitVec 32} {x0 : BitVec 6} {x1 : BitVec 4} {x2 : BitVec 5} {x3 : BitVec 4} {x4 : BitVec 4} {x5 : BitVec 4} {x6 : BitVec 3} {x7 : BitVec 2} (e : w = x0 ++ x1 ++ x2 ++ x3 ++ x4 ++ x5 ++ x6 ++ x7) :
    fld w 26 6 = x0 ∧ fld w 22 4 = x1 ∧ fld w 17 5 = x2 ∧ fld w 13 4 = x3 ∧ fld w 9 4 = x4 ∧ fld w 5 4 = x5 ∧ fld w 2 3 = x6 ∧ fld w 0 2 = x7 := by
  subst e
  exact ⟨(above (by decide)).trans <| (above (by decide)).trans <| (above (by decide)).trans <| (above (by decide)).trans <| (above (by decide)).trans <| (above (by decide)).trans <| (above (by decide)).trans <| whole _, (above (by decide)).trans <| (above (by decide)).trans <| (above (by decide)).trans <| (above (by decide)).trans <| (above (by decide)).trans <| (above (by decide)).trans <| lowest _ _, (above (by decide)).trans <| (above (by decide)).trans <| (above (by decide)).trans <| (above (by decide)).trans <| (above (by decide)).trans <| lowest _ _, (above (by decide)).trans <| (above (by decide)).trans <| (above (by decide)).trans <| (above (by decide)).trans <| lowest _ _, (above (by decide)).trans <| (above (by decide)).trans <| (above (by decide)).trans <| lowest _ _, (above (by decide)).trans <| (above (by decide)).trans <| lowest _ _, (above (by decide)).trans <| lowest _ _, lowest _ _⟩

theorem mask_6_4_5_4_4_4_3_2 {w m : BitVec 32} {x0 : BitVec 6} {x1 : BitVec 4} {x2 : BitVec 5} {x3 : BitVec 4} {x4 : BitVec 4} {x5 : BitVec 4} {x6 : BitVec 3} {x7 : BitVec 2} {y0 : BitVec 6} {y1 : BitVec 4} {y2 : BitVec 5} {y3 : BitVec 4} {y4 : BitVec 4} {y5 : BitVec 4} {y6 : BitVec 3} {y7 : BitVec 2} (e : w = x0 ++ x1 ++ x2 ++ x3 ++ x4 ++ x5 ++ x6 ++ x7) (f : m = y0 ++ y1 ++ y2 ++ y3 ++ y4 ++ y5 ++ y6 ++ y7)
    (hx0 : x0 &&& y0 = 0) (hx1 : x1 &&& y1 = 0) (hx2 : x2 &&& y2 = 0) (hx3 : x3 &&& y3 = 0) (hx4 : x4 &&& y4 = 0) (hx5 : x5 &&& y5 = 0) (hx6 : x6 &&& y6 = 0) (hx7 : x7 &&& y7 = 0) : w &&& m = 0#32 := by
  subst e f
  exact (zero_app (zero_app (zero_app (zero_app (zero_app (zero_app (zero_app hx0 hx1) hx2) hx3) hx4) hx5) hx6) hx7)

theorem fields_6_4_5_4_4_4_4_1 {w : BitVec 32} {x0 : BitVec 6} {x1 : BitVec 4} {x2 : BitVec 5} {x3 : BitVec 4} {x4 : BitVec 4} {x5 : BitVec 4} {x6 : BitVec 4} {x7 : BitVec 1} (e : w = x0 ++ x1 ++ x2 ++ x3 ++ x4 ++ x5 ++ x6 ++ x7) :
    fld w 26 6 = x0 ∧ fld w 22 4 = x1 ∧ fld w 17 5 = x2 ∧ fld w 13 4 = x3 ∧ fld w 9 4 = x4 ∧ fld w 5 4 = x5 ∧ fld w 1 4 = x6 ∧ fld w 0 1 = x7 := by
  subst e
  exact ⟨(above (by decide)).trans <| (above (by decide)).trans <| (above (by decide)).trans <| (above (by decide)).trans <| (above (by decide)).trans <| (above (by decide)).trans <| (above (by decide)).trans <| whole _, (above (by decide)).trans <| (above (by decide)).trans <| (above (by decide)).trans <| (above (by decide)).trans <| (above (by decide)).trans <| (above (by decide)).trans <| lowest _ _, (above (by decide)).trans <| (above (by decide)).trans <| (above (by decide)).trans <| (above (by decide)).trans <| (above (by decide)).trans <| lowest _ _, (above (by decide)).trans <| (above (by decide)).trans <| (above (by decide)).trans <| (above (by decide)).trans <| lowest _ _, (above (by decide)).trans <| (above (by decide)).trans <| (above (by decide)).trans <| lowest _ _, (above (by decide)).trans <| (above (by decide)).trans <| lowest _ _, (above (by decide)).trans <| lowest _ _, lowest _ _⟩

theorem mask_6_4_5_4_4_4_4_1 {w m : BitVec 32} {x0 : BitVec 6} {x1 : BitVec 4} {x2 : BitVec 5} {x3 : BitVec 4} {x4 : BitVec 4} {x5 : BitVec 4} {x6 : BitVec 4} {x7 : BitVec 1} {y0 : BitVec 6} {y1 : BitVec 4} {y2 : BitVec 5} {y3 : BitVec 4} {y4 : BitVec 4} {y5 : BitVec 4} {y6 : BitVec 4} {y7 : BitVec 1} (e : w = x0 ++ x1 ++ x2 ++ x3 ++ x4 ++ x5 ++ x6 ++ x7) (f : m = y0 ++ y1 ++ y2 ++ y3 ++ y4 ++ y5 ++ y6 ++ y7)
    (hx0 : x0 &&& y0 = 0) (hx1 : x1 &&& y1 = 0) (hx2 : x2 &&& y2 = 0) (hx3 : x3 &&& y3 = 0) (hx4 : x4 &&& y4 = 0) (hx5 : x5 &&& y5 = 0) (hx6 : x6 &&& y6 = 0) (hx7 : x7 &&& y7 = 0) : w &&& m = 0#32 := by
  subst e f
  exact (zero_app (zero_app (zero_app (zero_app (zero_app (zero_app (zero_app hx0 hx1) hx2) hx3) hx4) hx5) hx6) hx7)

theorem fields_6_4_5_4_4_4_5 {w : BitVec 32} {x0 : BitVec 6} {x1 : BitVec 4} {x2 : BitVec 5} {x3 : BitVec 4} {x4 : BitVec 4} {x5 : BitVec 4} {x6 : BitVec 5} (e : w = x0 ++ x1 ++ x2 ++ x3 ++ x4 ++ x5 ++ x6) :
    fld w 26 6 = x0 ∧ fld w 22 4 = x1 ∧ fld w 17 5 = x2 ∧ fld w 13 4 = x3 ∧ fld w 9 4 = x4 ∧ fld w 5 4 = x5 ∧ fld w 0 5 = x6 := by
  subst e
  exact ⟨(above (by decide)).trans <| (above (by decide)).trans <| (above (by decide)).trans <| (above (by decide)).trans <| (above (by decide)).trans <| (above (by decide)).trans <| whole _, (above (by decide)).trans <| (above (by decide)).trans <| (above (by decide)).trans <| (above (by decide)).trans <| (above (by decide)).trans <| lowest _ _, (above (by decide)).trans <| (above (by decide)).trans <| (above (by decide)).trans <| (above (by decide)).trans <| lowest _ _, (above (by decide)).trans <| (above (by decide)).trans <| (above (by decide)).trans <| lowest _ _, (above (by decide)).trans <| (above (by decide)).trans <| lowest _ _, (above (by decide)).trans <| lowest _ _, lowest _ _⟩

theorem mask_6_4_5_4_4_4_5 {w m : BitVec 32} {x0 : BitVec 6} {x1 : BitVec 4} {x2 : BitVec 5} {x3 : BitVec 4} {x4 : BitVec 4} {x5 : BitVec 4} {x6 : BitVec 5} {y0 : BitVec 6} {y1 : BitVec 4} {y2 : BitVec 5} {y3 : BitVec 4} {y4 : BitVec 4} {y5 : BitVec 4} {y6 : BitVec 5} (e : w = x0 ++ x1 ++ x2 ++ x3 ++ x4 ++ x5 ++ x6) (f : m = y0 ++ y1 ++ y2 ++ y3 ++ y4 ++ y5 ++ y6)
    (hx0 : x0 &&& y0 = 0) (hx1 : x1 &&& y1 = 0) (hx2 : x2 &&& y2 = 0) (hx3 : x3 &&& y3 = 0) (hx4 : x4 &&& y4 = 0) (hx5 : x5 &&& y5 = 0) (hx6 : x6 &&& y6 = 0) : w &&& m = 0#32 := by
  subst e f
  exact (zero_app (zero_app (zero_app (zero_app (zero_app (zero_app hx0 hx1) hx2) hx3) hx4) hx5) hx6)

theorem fields_6_4_5_5_1_4_1_1_3_1_1 {w : BitVec 32} {x0 : BitVec 6} {x1 : BitVec 4} {x2 : BitVec 5} {x3 : BitVec 5} {x4 : BitVec 1} {x5 : BitVec 4} {x6 : BitVec 1} {x7 : BitVec 1} {x8 : BitVec 3} {x9 : BitVec 1} {x10 : BitVec 1} (e : w = x0 ++ x1 ++ x2 ++ x3 ++ x4 ++ x5 ++ x6 ++ x7 ++ x8 ++ x9 ++ x10) :
    fld w 26 6 = x0 ∧ fld w 22 4 = x1 ∧ fld w 17 5 = x2 ∧ fld w 12 5 = x3 ∧ fld w 11 1 = x4 ∧ fld w 7 4 = x5 ∧ fld w 6 1 = x6 ∧ fld w 5 1 = x7 ∧ fld w 2 3 = x8 ∧ fld w 1 1 = x9 ∧ fld w 0 1 = x10 := by
  subst e
  exact ⟨(above (by decide)).trans <| (above (by decide)).trans <| (above (by decide)).trans <| (above (by decide)).trans <| (above (by decide)).trans <| (above (by decide)).trans <| (above (by decide)).trans <| (above (by decide)).trans <| (above (by decide)).trans <| (above (by decide)).trans <| whole _, (above (by decide)).trans <| (above (by decide)).trans <| (above (by decide)).trans <| (above (by decide)).trans <| (above (by decide)).trans <| (above (by decide)).trans <| (above (by decide)).trans <| (above (by decide)).trans <| (above (by decide)).trans <| lowest _ _, (above (by decide)).trans <| (above (by decide)).trans <| (above (by decide)).trans <| (above (by decide)).trans <| (above (by decide)).trans <| (above (by decide)).trans <| (above (by decide)).trans <| (above (by decide)).trans <| lowest _ _, (above (by decide)).trans <| (above (by decide)).trans <| (above (by decide)).trans <| (above (by decide)).trans <| (above (by decide)).trans <| (above (by decide)).trans <| (above (by decide)).trans <| lowest _ _, (above (by decide)).trans <| (above (by decide)).trans <| (above (by decide)).trans <| (above (by decide)).trans <| (above (by decide)).trans <| (above (by decide)).trans <| lowest _ _, (above (by decide)).trans <| (above (by decide)).trans <| (above (by decide)).trans <| (above (by decide)).trans <| (above (by decide)).trans <| lowest _ _, (above (by decide)).trans <| (above (by decide)).trans <| (above (by decide)).trans <| (above (by decide)).trans <| lowest _ _, (above (by decide)).trans <| (above (by decide)).trans <| (above (by decide)).trans <| lowest _ _, (above (by decide)).trans <| (above (by decide)).trans <| lowest _ _, (above (by decide)).trans <| lowest _ _, lowest _ _⟩

theorem mask_6_4_5_5_1_4_1_1_3_1_1 {w m : BitVec 32} {x0 : BitVec 6} {x1 : BitVec 4} {x2 : BitVec 5} {x3 : BitVec 5} {x4 : BitVec 1} {x5 : BitVec 4} {x6 : BitVec 1} {x7 : BitVec 1} {x8 : BitVec 3} {x9 : BitVec 1} {x10 : BitVec 1} {y0 : BitVec 6} {y1 : BitVec 4} {y2 : BitVec 5} {y3 : BitVec 5} {y4 : BitVec 1} {y5 : BitVec 4} {y6 : BitVec 1} {y7 : BitVec 1} {y8 : BitVec 3} {y9 : BitVec 1} {y10 : BitVec 1} (e : w = x0 ++ x1 ++ x2 ++ x3 ++ x4 ++ x5 ++ x6 ++ x7 ++ x8 ++ x9 ++ x10) (f : m = y0 ++ y1 ++ y2 ++ y3 ++ y4 ++ y5 ++ y6 ++ y7 ++ y8 ++ y9 ++ y10)
    (hx0 : x0 &&& y0 = 0) (hx1 : x1 &&& y1 = 0) (hx2 : x2 &&& y2 = 0) (hx3 : x3 &&& y3 = 0) (hx4 : x4 &&& y4 = 0) (hx5 : x5 &&& y5 = 0) (hx6 : x6 &&& y6 = 0) (hx7 : x7 &&& y7 = 0) (hx8 : x8 &&& y8 = 0) (hx9 : x9 &&& y9 = 0) (hx10 : x10 &&& y10 = 0) : w &&& m = 0#32 := by
  subst e f
  exact (zero_app (zero_app (zero_app (zero_app (zero_app (zero_app (zero_app (zero_app (zero_app (zero_app hx0 hx1) hx2) hx3) hx4) hx5) hx6) hx7) hx8) hx9) hx10)

theorem fields_6_4_5_5_5_1_1_3_1_1 {w : BitVec 32} {x0 : BitVec 6} {x1 : BitVec 4} {x2 : BitVec 5} {x3 : BitVec 5} {x4 : BitVec 5} {x5 : BitVec 1} {x6 : BitVec 1} {x7 : BitVec 3} {x8 : BitVec 1} {x9 : BitVec 1} (e : w = x0 ++ x1 ++ x2 ++ x3 ++ x4 ++ x5 ++ x6 ++ x7 ++ x8 ++ x9) :
    fld w 26 6 = x0 ∧ fld w 22 4 = x1 ∧ fld w 17 5 = x2 ∧ fld w 12 5 = x3 ∧ fld w 7 5 = x4 ∧ fld w 6 1 = x5 ∧ fld w 5 1 = x6 ∧ fld w 2 3 = x7 ∧ fld w 1 1 = x8 ∧ fld w 0 1 = x9 := by
  subst e
  exact ⟨(above (by decide)).trans <| (above (by decide)).trans <| (above (by decide)).trans <| (above (by decide)).trans <| (above (by decide)).trans <| (above (by decide)).trans <| (above (by decide)).trans <| (above (by decide)).trans <| (above (by decide)).trans <| whole _, (above (by decide)).trans <| (above (by decide)).trans <| (above (by decide)).trans <| (above (by decide)).trans <| (above (by decide)).trans <| (above (by decide)).trans <| (above (by decide)).trans <| (above (by decide)).trans <| lowest _ _, (above (by decide)).trans <| (above (by decide)).trans <| (above (by decide)).trans <| (above (by decide)).trans <| (above (by decide)).trans <| (above (by decide)).trans <| (above (by decide)).trans <| lowest _ _, (above (by decide)).trans <| (above (by decide)).trans <| (above (by decide)).trans <| (above (by decide)).trans <| (above (by decide)).trans <| (above (by decide)).trans <| lowest _ _, (above (by decide)).trans <| (above (by decide)).trans <| (above (by decide)).trans <| (above (by decide)).trans <| (above (by decide)).trans <| lowest _ _, (above (by decide)).trans <| (above (by decide)).trans <| (above (by decide)).trans <| (above (by decide)).trans <| lowest _ _, (above (by decide)).trans <| (above (by decide)).trans <| (above (by decide)).trans <| lowest _ _, (above (by decide)).trans <| (above (by decide)).trans <| lowest _ _, (above (by decide)).trans <| lowest _ _, lowest _ _⟩

theorem mask_6_4_5_5_5_1_1_3_1_1 {w m : BitVec 32} {x0 : BitVec 6} {x1 : BitVec 4} {x2 : BitVec 5} {x3 : BitVec 5} {x4 : BitVec 5} {x5 : BitVec 1} {x6 : BitVec 1} {x7 : BitVec 3} {x8 : BitVec 1} {x9 : BitVec 1} {y0 : BitVec 6} {y1 : BitVec 4} {y2 : BitVec 5} {y3 : BitVec 5} {y4 : BitVec 5} {y5 : BitVec 1} {y6 : BitVec 1} {y7 : BitVec 3} {y8 : BitVec 1} {y9 : BitVec 1} (e : w = x0 ++ x1 ++ x2 ++ x3 ++ x4 ++ x5 ++ x6 ++ x7 ++ x8 ++ x9) (f : m = y0 ++ y1 ++ y2 ++ y3 ++ y4 ++ y5 ++ y6 ++ y7 ++ y8 ++ y9)
    (hx0 : x0 &&& y0 = 0) (hx1 : x1 &&& y1 = 0) (hx2 : x2 &&& y2 = 0) (hx3 : x3 &&& y3 = 0) (hx4 : x4 &&& y4 = 0) (hx5 : x5 &&& y5 = 0) (hx6 : x6 &&& y6 = 0) (hx7 : x7 &&& y7 = 0) (hx8 : x8 &&& y8 = 0) (hx9 : x9 &&& y9 = 0) : w &&& m = 0#32 := by
  subst e f
  exact (zero_app (zero_app (zero_app (zero_app (zero_app (zero_app (zero_app (zero_app (zero_app hx0 hx1) hx2) hx3) hx4) hx5) hx6) hx7) hx8) hx9)

theorem fields_6_4_5_5_5_2_3_1_1 {w : BitVec 32} {x0 : BitVec 6} {x1 : BitVec 4} {x2 : BitVec 5} {x3 : BitVec 5} {x4 : BitVec 5} {x5 : BitVec 2} {x6 : BitVec 3} {x7 : BitVec 1} {x8 : BitVec 1} (e : w = x0 ++ x1 ++ x2 ++ x3 ++ x4 ++ x5 ++ x6 ++ x7 ++ x8) :
    fld w 26 6 = x0 ∧ fld w 22 4 = x1 ∧ fld w 17 5 = x2 ∧ fld w 12 5 = x3 ∧ fld w 7 5 = x4 ∧ fld w 5 2 = x5 ∧ fld w 2 3 = x6 ∧ fld w 1 1 = x7 ∧ fld w 0 1 = x8 := by
  subst e
  exact ⟨(above (by decide)).trans <| (above (by decide)).trans <| (above (by decide)).trans <| (above (by decide)).trans <| (above (by decide)).trans <| (above (by decide)).trans <| (above (by decide)).trans <| (above (by decide)).trans <| whole _, (above (by decide)).trans <| (above (by decide)).trans <| (above (by decide)).trans <| (above (by decide)).trans <| (above (by decide)).trans <| (above (by decide)).trans <| (above (by decide)).trans <| lowest _ _, (above (by decide)).trans <| (above (by decide)).trans <| (above (by decide)).trans <| (above (by decide)).trans <| (above (by decide)).trans <| (above (by decide)).trans <| lowest _ _, (above (by decide)).trans <| (above (by decide)).trans <| (above (by decide)).trans <| (above (by decide)).trans <| (above (by decide)).trans <| lowest _ _, (above (by decide)).trans <| (above (by decide)).trans <| (above (by decide)).trans <| (above (by decide)).trans <| lowest _ _, (above (by decide)).trans <| (above (by decide)).trans <| (above (by decide)).trans <| lowest _ _, (above (by decide)).trans <| (above (by decide)).trans <| lowest _ _, (above (by decide)).trans <| lowest _ _, lowest _ _⟩

theorem mask_6_4_5_5_5_2_3_1_1 {w m : BitVec 32} {x0 : BitVec 6} {x1 : BitVec 4} {x2 : BitVec 5} {x3 : BitVec 5} {x4 : BitVec 5} {x5 : BitVec 2} {x6 : BitVec 3} {x7 : BitVec 1} {x8 : BitVec 1} {y0 : BitVec 6} {y1 : BitVec 4} {y2 : BitVec 5} {y3 : BitVec 5} {y4 : BitVec 5} {y5 : BitVec 2} {y6 : BitVec 3} {y7 : BitVec 1} {y8 : BitVec 1} (e : w = x0 ++ x1 ++ x2 ++ x3 ++ x4 ++ x5 ++ x6 ++ x7 ++ x8) (f : m = y0 ++ y1 ++ y2 ++ y3 ++ y4 ++ y5 ++ y6 ++ y7 ++ y8)
    (hx0 : x0 &&& y0 = 0) (hx1 : x1 &&& y1 = 0) (hx2 : x2 &&& y2 = 0) (hx3 : x3 &&& y3 = 0) (hx4 : x4 &&& y4 = 0) (hx5 : x5 &&& y5 = 0) (hx6 : x6 &&& y6 = 0) (hx7 : x7 &&& y7 = 0) (hx8 : x8 &&& y8 = 0) : w &&& m = 0#32 := by
  subst e f
  exact (zero_app (zero_app (zero_app (zero_app (zero_app (zero_app (zero_app (zero_app hx0 hx1) hx2) hx3) hx4) hx5) hx6) hx7) hx8)

theorem fields_6_4_5_5_5_5_1_1 {w : BitVec 32} {x0 : BitVec 6} {x1 : BitVec 4} {x2 : BitVec 5} {x3 : BitVec 5} {x4 : BitVec 5} {x5 : BitVec 5} {x6 : BitVec 1} {x7 : BitVec 1} (e : w = x0 ++ x1 ++ x2 ++ x3 ++ x4 ++ x5 ++ x6 ++ x7) :
    fld w 26 6 = x0 ∧ fld w 22 4 = x1 ∧ fld w 17 5 = x2 ∧ fld w 12 5 = x3 ∧ fld w 7 5 = x4 ∧ fld w 2 5 = x5 ∧ fld w 1 1 = x6 ∧ fld w 0 1 = x7 := by
  subst e
  exact ⟨(above (by decide)).trans <| (above (by decide)).trans <| (above (by decide)).trans <| (above (by decide)).trans <| (above (by decide)).trans <| (above (by decide)).trans <| (above (by decide)).trans <| whole _, (above (by decide)).trans <| (above (by decide)).trans <| (above (by decide)).trans <| (above (by decide)).trans <| (above (by decide)).trans <| (above (by decide)).trans <| lowest _ _, (above (by decide)).trans <| (above (by decide)).trans <| (above (by decide)).trans <| (above (by decide)).trans <| (above (by decide)).trans <| lowest _ _, (above (by decide)).trans <| (above (by decide)).trans <| (above (by decide)).trans <| (above (by decide)).trans <| lowest _ _, (above (by decide)).trans <| (above (by decide)).trans <| (above (by decide)).trans <| lowest _ _, (above (by decide)).trans <| (above (by decide)).trans <| lowest _ _, (above (by decide)).trans <| lowest _ _, lowest _ _⟩

theorem mask_6_4_5_5_5_5_1_1 {w m : BitVec 32} {x0 : BitVec 6} {x1 : BitVec 4} {x2 : BitVec 5} {x3 : BitVec 5} {x4 : BitVec 5} {x5 : BitVec 5} {x6 : BitVec 1} {x7 : BitVec 1} {y0 : BitVec 6} {y1 : BitVec 4} {y2 : BitVec 5} {y3 : BitVec 5} {y4 : BitVec 5} {y5 : BitVec 5} {y6 : BitVec 1} {y7 : BitVec 1} (e : w = x0 ++ x1 ++ x2 ++ x3 ++ x4 ++ x5 ++ x6 ++ x7) (f : m = y0 ++ y1 ++ y2 ++ y3 ++ y4 ++ y5 ++ y6 ++ y7)
    (hx0 : x0 &&& y0 = 0) (hx1 : x1 &&& y1 = 0) (hx2 : x2 &&& y2 = 0) (hx3 : x3 &&& y3 = 0) (hx4 : x4 &&& y4 = 0) (hx5 : x5 &&& y5 = 0) (hx6 : x6 &&& y6 = 0) (hx7 : x7 &&& y7 = 0) : w &&& m = 0#32 := by
  subst e f
  exact (zero_app (zero_app (zero_app (zero_app (zero_app (zero_app (zero_app hx0 hx1) hx2) hx3) hx4) hx5) hx6) hx7)

theorem fields_6_4_5_5_7_5 {w : BitVec 32} {x0 : BitVec 6} {x1 : BitVec 4} {x2 : BitVec 5} {x3 : BitVec 5} {x4 : BitVec 7} {x5 : BitVec 5} (e : w = x0 ++ x1 ++ x2 ++ x3 ++ x4 ++ x5) :
    fld w 26 6 = x0 ∧ fld w 22 4 = x1 ∧ fld w 17 5 = x2 ∧ fld w 12 5 = x3 ∧ fld w 5 7 = x4 ∧ fld w 0 5 = x5 := by
  subst e
  exact ⟨(above (by decide)).trans <| (above (by decide)).trans <| (above (by decide)).trans <| (above (by decide)).trans <| (above (by decide)).trans <| whole _, (above (by decide)).trans <| (above (by decide)).trans <| (above (by decide)).trans <| (above (by decide)).trans <| lowest _ _, (above (by decide)).trans <| (above (by decide)).trans <| (above (by decide)).trans <| lowest _ _, (above (by decide)).trans <| (above (by decide)).trans <| lowest _ _, (above (by decide)).trans <| lowest _ _, lowest _ _⟩

theorem mask_6_4_5_5_7_5 {w m : BitVec 32} {x0 : BitVec 6} {x1 : BitVec 4} {x2 : BitVec 5} {x3 : BitVec 5} {x4 : BitVec 7} {x5 : BitVec 5} {y0 : BitVec 6} {y1 : BitVec 4} {y2 : BitVec 5} {y3 : BitVec 5} {y4 : BitVec 7} {y5 : BitVec 5} (e : w = x0 ++ x1 ++ x2 ++ x3 ++ x4 ++ x5) (f : m = y0 ++ y1 ++ y2 ++ y3 ++ y4 ++ y5)
    (hx0 : x0 &&& y0 = 0) (hx1 : x1 &&& y1 = 0) (hx2 : x2 &&& y2 = 0) (hx3 : x3 &&& y3 = 0) (hx4 : x4 &&& y4 = 0) (hx5 : x5 &&& y5 = 0) : w &&& m = 0#32 := by
  subst e f
  exact (zero_app (zero_app (zero_app (zero_app (zero_app hx0 hx1) hx2) hx3) hx4) hx5)

theorem fields_6_4_5_5_8_4 {w : BitVec 32} {x0 : BitVec 6} {x1 : BitVec 4} {x2 : BitVec 5} {x3 : BitVec 5} {x4 : BitVec 8} {x5 : BitVec 4} (e : w = x0 ++ x1 ++ x2 ++ x3 ++ x4 ++ x5) :
    fld w 26 6 = x0 ∧ fld w 22 4 = x1 ∧ fld w 17 5 = x2 ∧ fld w 12 5 = x3 ∧ fld w 4 8 = x4 ∧ fld w 0 4 = x5 := by
  subst e
  exact ⟨(above (by decide)).trans <| (above (by decide)).trans <| (above (by decide)).trans <| (above (by decide)).trans <| (above (by decide)).trans <| whole _, (above (by decide)).trans <| (above (by decide)).trans <| (above (by decide)).trans <| (above (by decide)).trans <| lowest _ _, (above (by decide)).trans <| (above (by decide)).trans <| (above (by decide)).trans <| lowest _ _, (above (by decide)).trans <| (above (by decide)).trans <| lowest _ _, (above (by decide)).trans <| lowest _ _, lowest _ _⟩

theorem mask_6_4_5_5_8_4 {w m : BitVec 32} {x0 : BitVec 6} {x1 : BitVec 4} {x2 : BitVec 5} {x3 : BitVec 5} {x4 : BitVec 8} {x5 : BitVec 4} {y0 : BitVec 6} {y1 : BitVec 4} {y2 : BitVec 5} {y3 : BitVec 5} {y4 : BitVec 8} {y5 : BitVec 4} (e : w = x0 ++ x1 ++ x2 ++ x3 ++ x4 ++ x5) (f : m = y0 ++ y1 ++ y2 ++ y3 ++ y4 ++ y5)
    (hx0 : x0 &&& y0 = 0) (hx1 : x1 &&& y1 = 0) (hx2 : x2 &&& y2 = 0) (hx3 : x3 &&& y3 = 0) (hx4 : x4 &&& y4 = 0) (hx5 : x5 &&& y5 = 0) : w &&& m = 0#32 := by
  subst e f
  exact (zero_app (zero_app (zero_app (zero_app (zero_app hx0 hx1) hx2) hx3) hx4) hx5)

theorem fields_6_4_5_5_12 {w : BitVec 32} {x0 : BitVec 6} {x1 : BitVec 4} {x2 : BitVec 5} {x3 : BitVec 5} {x4 : BitVec 12} (e : w = x0 ++ x1 ++ x2 ++ x3 ++ x4) :
    fld w 26 6 = x0 ∧ fld w 22 4 = x1 ∧ fld w 17 5 = x2 ∧ fld w 12 5 = x3 ∧ fld w 0 12 = x4 := by
  subst e
  exact ⟨(above (by decide)).trans <| (above (by decide)).trans <| (above (by decide)).trans <| (above (by decide)).trans <| whole _, (above (by decide)).trans <| (above (by decide)).trans <| (above (by decide)).trans <| lowest _ _, (above (by decide)).trans <| (above (by decide)).trans <| lowest _ _, (above (by decide)).trans <| lowest _ _, lowest _ _⟩

theorem mask_6_4_5_5_12 {w m : BitVec 32} {x0 : BitVec 6} {x1 : BitVec 4} {x2 : BitVec 5} {x3 : BitVec 5} {x4 : BitVec 12} {y0 : BitVec 6} {y1 : BitVec 4} {y2 : BitVec 5} {y3 : BitVec 5} {y4 : BitVec 12} (e : w = x0 ++ x1 ++ x2 ++ x3 ++ x4) (f : m = y0 ++ y1 ++ y2 ++ y3 ++ y4)
    (hx0 : x0 &&& y0 = 0) (hx1 : x1 &&& y1 = 0) (hx2 : x2 &&& y2 = 0) (hx3 : x3 &&& y3 = 0) (hx4 : x4 &&& y4 = 0) : w &&& m = 0#32 := by
  subst e f
  exact (zero_app (zero_app (zero_app (zero_app hx0 hx1) hx2) hx3) hx4)

theorem fields_6_4_5_10_5_1_1 {w : BitVec 32} {x0 : BitVec 6} {x1 : BitVec 4} {x2 : BitVec 5} {x3 : BitVec 10} {x4 : BitVec 5} {x5 : BitVec 1} {x6 : BitVec 1} (e : w = x0 ++ x1 ++ x2 ++ x3 ++ x4 ++ x5 ++ x6) :
    fld w 26 6 = x0 ∧ fld w 22 4 = x1 ∧ fld w 17 5 = x2 ∧ fld w 7 10 = x3 ∧ fld w 2 5 = x4 ∧ fld w 1 1 = x5 ∧ fld w 0 1 = x6 := by
  subst e
  exact ⟨(above (by decide)).trans <| (above (by decide)).trans <| (above (by decide)).trans <| (above (by decide)).trans <| (above (by decide)).trans <| (above (by decide)).trans <| whole _, (above (by decide)).trans <| (above (by decide)).trans <| (above (by decide)).trans <| (above (by decide)).trans <| (above (by decide)).trans <| lowest _ _, (above (by decide)).trans <| (above (by decide)).trans <| (above (by decide)).trans <| (above (by decide)).trans <| lowest _ _, (above (by decide)).trans <| (above (by decide)).trans <| (above (by decide)).trans <| lowest _ _, (above (by decide)).trans <| (above (by decide)).trans <| lowest _ _, (above (by decide)).trans <| lowest _ _, lowest _ _⟩

theorem mask_6_4_5_10_5_1_1 {w m : BitVec 32} {x0 : BitVec 6} {x1 : BitVec 4} {x2 : BitVec 5} {x3 : BitVec 10} {x4 : BitVec 5} {x5 : BitVec 1} {x6 : BitVec 1} {y0 : BitVec 6} {y1 : BitVec 4} {y2 : BitVec 5} {y3 : BitVec 10} {y4 : BitVec 5} {y5 : BitVec 1} {y6 : BitVec 1} (e : w = x0 ++ x1 ++ x2 ++ x3 ++ x4 ++ x5 ++ x6) (f : m = y0 ++ y1 ++ y2 ++ y3 ++ y4 ++ y5 ++ y6)
    (hx0 : x0 &&& y0 = 0) (hx1 : x1 &&& y1 = 0) (hx2 : x2 &&& y2 = 0) (hx3 : x3 &&& y3 = 0) (hx4 : x4 &&& y4 = 0) (hx5 : x5 &&& y5 = 0) (hx6 : x6 &&& y6 = 0) : w &&& m = 0#32 := by
  subst e f
  exact (zero_app (zero_app (zero_app (zero_app (zero_app (zero_app hx0 hx1) hx2) hx3) hx4) hx5) hx6)

theorem fields_6_5_5_3_13 {w : BitVec 32} {x0 : BitVec 6} {x1 : BitVec 5} {x2 : BitVec 5} {x3 : BitVec 3} {x4 : BitVec 13} (e : w = x0 ++ x1 ++ x2 ++ x3 ++ x4) :
    fld w 26 6 = x0 ∧ fld w 21 5 = x1 ∧ fld w 16 5 = x2 ∧ fld w 13 3 = x3 ∧ fld w 0 13 = x4 := by
  subst e
  exact ⟨(above (by decide)).trans <| (above (by decide)).trans <| (above (by decide)).trans <| (above (by decide)).trans <| whole _, (above (by decide)).trans <| (above (by decide)).trans <| (above (by decide)).trans <| lowest _ _, (above (by decide)).trans <| (above (by decide)).trans <| lowest _ _, (above (by decide)).trans <| lowest _ _, lowest _ _⟩

theorem mask_6_5_5_3_13 {w m : BitVec 32} {x0 : BitVec 6} {x1 : BitVec 5} {x2 : BitVec 5} {x3 : BitVec 3} {x4 : BitVec 13} {y0 : BitVec 6} {y1 : BitVec 5} {y2 : BitVec 5} {y3 : BitVec 3} {y4 : BitVec 13} (e : w = x0 ++ x1 ++ x2 ++ x3 ++ x4) (f : m = y0 ++ y1 ++ y2 ++ y3 ++ y4)
    (hx0 : x0 &&& y0 = 0) (hx1 : x1 &&& y1 = 0) (hx2 : x2 &&& y2 = 0) (hx3 : x3 &&& y3 = 0) (hx4 : x4 &&& y4 = 0) : w &&& m = 0#32 := by
  subst e f
  exact (zero_app (zero_app (zero_app (zero_app hx0 hx1) hx2) hx3) hx4)

theorem fields_6_5_5_4_1_2_9 {w : BitVec 32} {x0 : BitVec 6} {x1 : BitVec 5} {x2 : BitVec 5} {x3 : BitVec 4} {x4 : BitVec 1} {x5 : BitVec 2} {x6 : BitVec 9} (e : w = x0 ++ x1 ++ x2 ++ x3 ++ x4 ++ x5 ++ x6) :
    fld w 26 6 = x0 ∧ fld w 21 5 = x1 ∧ fld w 16 5 = x2 ∧ fld w 12 4 = x3 ∧ fld w 11 1 = x4 ∧ fld w 9 2 = x5 ∧ fld w 0 9 = x6 := by
  subst e
  exact ⟨(above (by decide)).trans <| (above (by decide)).trans <| (above (by decide)).trans <| (above (by decide)).trans <| (above (by decide)).trans <| (above (by decide)).trans <| whole _, (above (by decide)).trans <| (above (by decide)).trans <| (above (by decide)).trans <| (above (by decide)).trans <| (above (by decide)).trans <| lowest _ _, (above (by decide)).trans <| (above (by decide)).trans <| (above (by decide)).trans <| (above (by decide)).trans <| lowest _ _, (above (by decide)).trans <| (above (by decide)).trans <| (above (by decide)).trans <| lowest _ _, (above (by decide)).trans <| (above (by decide)).trans <| lowest _ _, (above (by decide)).trans <| lowest _ _, lowest _ _⟩

theorem mask_6_5_5_4_1_2_9 {w m : BitVec 32} {x0 : BitVec 6} {x1 : BitVec 5} {x2 : BitVec 5} {x3 : BitVec 4} {x4 : BitVec 1} {x5 : BitVec 2} {x6 : BitVec 9} {y0 : BitVec 6} {y1 : BitVec 5} {y2 : BitVec 5} {y3 : BitVec 4} {y4 : BitVec 1} {y5 : BitVec 2} {y6 : BitVec 9} (e : w = x0 ++ x1 ++ x2 ++ x3 ++ x4 ++ x5 ++ x6) (f : m = y0 ++ y1 ++ y2 ++ y3 ++ y4 ++ y5 ++ y6)
    (hx0 : x0 &&& y0 = 0) (hx1 : x1 &&& y1 = 0) (hx2 : x2 &&& y2 = 0) (hx3 : x3 &&& y3 = 0) (hx4 : x4 &&& y4 = 0) (hx5 : x5 &&& y5 = 0) (hx6 : x6 &&& y6 = 0) : w &&& m = 0#32 := by
  subst e f
  exact (zero_app (zero_app (zero_app (zero_app (zero_app (zero_app hx0 hx1) hx2) hx3) hx4) hx5) hx6)

theorem fields_6_5_5_5_2_2_1_1_5 {w : BitVec 32} {x0 : BitVec 6} {x1 : BitVec 5} {x2 : BitVec 5} {x3 : BitVec 5} {x4 : BitVec 2} {x5 : BitVec 2} {x6 : BitVec 1} {x7 : BitVec 1} {x8 : BitVec 5} (e : w = x0 ++ x1 ++ x2 ++ x3 ++ x4 ++ x5 ++ x6 ++ x7 ++ x8) :
    fld w 26 6 = x0 ∧ fld w 21 5 = x1 ∧ fld w 16 5 = x2 ∧ fld w 11 5 = x3 ∧ fld w 9 2 = x4 ∧ fld w 7 2 = x5 ∧ fld w 6 1 = x6 ∧ fld w 5 1 = x7 ∧ fld w 0 5 = x8 := by
  subst e
  exact ⟨(above (by decide)).trans <| (above (by decide)).trans <| (above (by decide)).trans <| (above (by decide)).trans <| (above (by decide)).trans <| (above (by decide)).trans <| (above (by decide)).trans <| (above (by decide)).trans <| whole _, (above (by decide)).trans <| (above (by decide)).trans <| (above (by decide)).trans <| (above (by decide)).trans <| (above (by decide)).trans <| (above (by decide)).trans <| (above (by decide)).trans <| lowest _ _, (above (by decide)).trans <| (above (by decide)).trans <| (above (by decide)).trans <| (above (by decide)).trans <| (above (by decide)).trans <| (above (by decide)).trans <| lowest _ _, (above (by decide)).trans <| (above (by decide)).trans <| (above (by decide)).trans <| (above (by decide)).trans <| (above (by decide)).trans <| lowest _ _, (above (by decide)).trans <| (above (by decide)).trans <| (above (by decide)).trans <| (above (by decide)).trans <| lowest _ _, (above (by decide)).trans <| (above (by decide)).trans <| (above (by decide)).trans <| lowest _ _, (above (by decide)).trans <| (above (by decide)).trans <| lowest _ _, (above (by decide)).trans <| lowest _ _, lowest _ _⟩

theorem mask_6_5_5_5_2_2_1_1_5 {w m : BitVec 32} {x0 : BitVec 6} {x1 : BitVec 5} {x2 : BitVec 5} {x3 : BitVec 5} {x4 : BitVec 2} {x5 : BitVec 2} {x6 : BitVec 1} {x7 : BitVec 1} {x8 : BitVec 5} {y0 : BitVec 6} {y1 : BitVec 5} {y2 : BitVec 5} {y3 : BitVec 5} {y4 : BitVec 2} {y5 : BitVec 2} {y6 : BitVec 1} {y7 : BitVec 1} {y8 : BitVec 5} (e : w = x0 ++ x1 ++ x2 ++ x3 ++ x4 ++ x5 ++ x6 ++ x7 ++ x8) (f : m = y0 ++ y1 ++ y2 ++ y3 ++ y4 ++ y5 ++ y6 ++ y7 ++ y8)
    (hx0 : x0 &&& y0 = 0) (hx1 : x1 &&& y1 = 0) (hx2 : x2 &&& y2 = 0) (hx3 : x3 &&& y3 = 0) (hx4 : x4 &&& y4 = 0) (hx5 : x5 &&& y5 = 0) (hx6 : x6 &&& y6 = 0) (hx7 : x7 &&& y7 = 0) (hx8 : x8 &&& y8 = 0) : w &&& m = 0#32 := by
  subst e f
  exact (zero_app (zero_app (zero_app (zero_app (zero_app (zero_app (zero_app (zero_app hx0 hx1) hx2) hx3) hx4) hx5) hx6) hx7) hx8)

theorem fields_6_5_5_5_2_2_2_5 {w : BitVec 32} {x0 : BitVec 6} {x1 : BitVec 5} {x2 : BitVec 5} {x3 : BitVec 5} {x4 : BitVec 2} {x5 : BitVec 2} {x6 : BitVec 2} {x7 : BitVec 5} (e : w = x0 ++ x1 ++ x2 ++ x3 ++ x4 ++ x5 ++ x6 ++ x7) :
    fld w 26 6 = x0 ∧ fld w 21 5 = x1 ∧ fld w 16 5 = x2 ∧ fld w 11 5 = x3 ∧ fld w 9 2 = x4 ∧ fld w 7 2 = x5 ∧ fld w 5 2 = x6 ∧ fld w 0 5 = x7 := by
  subst e
  exact ⟨(above (by decide)).trans <| (above (by decide)).trans <| (above (by decide)).trans <| (above (by decide)).trans <| (above (by decide)).trans <| (above (by decide)).trans <| (above (by decide)).trans <| whole _, (above (by decide)).trans <| (above (by decide)).trans <| (above (by decide)).trans <| (above (by decide)).trans <| (above (by decide)).trans <| (above (by decide)).trans <| lowest _ _, (above (by decide)).trans <| (above (by decide)).trans <| (above (by decide)).trans <| (above (by decide)).trans <| (above (by decide)).trans <| lowest _ _, (above (by decide)).trans <| (above (by decide)).trans <| (above (by decide)).trans <| (above (by decide)).trans <| lowest _ _, (above (by decide)).trans <| (above (by decide)).trans <| (above (by decide)).trans <| lowest _ _, (above (by decide)).trans <| (above (by decide)).trans <| lowest _ _, (above (by decide)).trans <| lowest _ _, lowest _ _⟩

theorem mask_6_5_5_5_2_2_2_5 {w m : BitVec 32} {x0 : BitVec 6} {x1 : BitVec 5} {x2 : BitVec 5} {x3 : BitVec 5} {x4 : BitVec 2} {x5 : BitVec 2} {x6 : BitVec 2} {x7 : BitVec 5} {y0 : BitVec 6} {y1 : BitVec 5} {y2 : BitVec 5} {y3 : BitVec 5} {y4 : BitVec 2} {y5 : BitVec 2} {y6 : BitVec 2} {y7 : BitVec 5} (e : w = x0 ++ x1 ++ x2 ++ x3 ++ x4 ++ x5 ++ x6 ++ x7) (f : m = y0 ++ y1 ++ y2 ++ y3 ++ y4 ++ y5 ++ y6 ++ y7)
    (hx0 : x0 &&& y0 = 0) (hx1 : x1 &&& y1 = 0) (hx2 : x2 &&& y2 = 0) (hx3 : x3 &&& y3 = 0) (hx4 : x4 &&& y4 = 0) (hx5 : x5 &&& y5 = 0) (hx6 : x6 &&& y6 = 0) (hx7 : x7 &&& y7 = 0) : w &&& m = 0#32 := by
  subst e f
  exact (zero_app (zero_app (zero_app (zero_app (zero_app (zero_app (zero_app hx0 hx1) hx2) hx3) hx4) hx5) hx6) hx7)

theorem fields_6_5_5_5_2_3_1_5 {w : BitVec 32} {x0 : BitVec 6} {x1 : BitVec 5} {x2 : BitVec 5} {x3 : BitVec 5} {x4 : BitVec 2} {x5 : BitVec 3} {x6 : BitVec 1} {x7 : BitVec 5} (e : w = x0 ++ x1 ++ x2 ++ x3 ++ x4 ++ x5 ++ x6 ++ x7) :
    fld w 26 6 = x0 ∧ fld w 21 5 = x1 ∧ fld w 16 5 = x2 ∧ fld w 11 5 = x3 ∧ fld w 9 2 = x4 ∧ fld w 6 3 = x5 ∧ fld w 5 1 = x6 ∧ fld w 0 5 = x7 := by
  subst e
  exact ⟨(above (by decide)).trans <| (above (by decide)).trans <| (above (by decide)).trans <| (above (by decide)).trans <| (above (by decide)).trans <| (above (by decide)).trans <| (above (by decide)).trans <| whole _, (above (by decide)).trans <| (above (by decide)).trans <| (above (by decide)).trans <| (above (by decide)).trans <| (above (by decide)).trans <| (above (by decide)).trans <| lowest _ _, (above (by decide)).trans <| (above (by decide)).trans <| (above (by decide)).trans <| (above (by decide)).trans <| (above (by decide)).trans <| lowest _ _, (above (by decide)).trans <| (above (by decide)).trans <| (above (by decide)).trans <| (above (by decide)).trans <| lowest _ _, (above (by decide)).trans <| (above (by decide)).trans <| (above (by decide)).trans <| lowest _ _, (above (by decide)).trans <| (above (by decide)).trans <| lowest _ _, (above (by decide)).trans <| lowest _ _, lowest _ _⟩

theorem mask_6_5_5_5_2_3_1_5 {w m : BitVec 32} {x0 : BitVec 6} {x1 : BitVec 5} {x2 : BitVec 5} {x3 : BitVec 5} {x4 : BitVec 2} {x5 : BitVec 3} {x6 : BitVec 1} {x7 : BitVec 5} {y0 : BitVec 6} {y1 : BitVec 5} {y2 : BitVec 5} {y3 : BitVec 5} {y4 : BitVec 2} {y5 : BitVec 3} {y6 : BitVec 1} {y7 : BitVec 5} (e : w = x0 ++ x1 ++ x2 ++ x3 ++ x4 ++ x5 ++ x6 ++ x7) (f : m = y0 ++ y1 ++ y2 ++ y3 ++ y4 ++ y5 ++ y6 ++ y7)
    (hx0 : x0 &&& y0 = 0) (hx1 : x1 &&& y1 = 0) (hx2 : x2 &&& y2 = 0) (hx3 : x3 &&& y3 = 0) (hx4 : x4 &&& y4 = 0) (hx5 : x5 &&& y5 = 0) (hx6 : x6 &&& y6 = 0) (hx7 : x7 &&& y7 = 0) : w &&& m = 0#32 := by
  subst e f
  exact (zero_app (zero_app (zero_app (zero_app (zero_app (zero_app (zero_app hx0 hx1) hx2) hx3) hx4) hx5) hx6) hx7)

theorem fields_6_5_5_5_4_2_5 {w : BitVec 32} {x0 : BitVec 6} {x1 : BitVec 5} {x2 : BitVec 5} {x3 : BitVec 5} {x4 : BitVec 4} {x5 : BitVec 2} {x6 : BitVec 5} (e : w = x0 ++ x1 ++ x2 ++ x3 ++ x4 ++ x5 ++ x6) :
    fld w 26 6 = x0 ∧ fld w 21 5 = x1 ∧ fld w 16 5 = x2 ∧ fld w 11 5 = x3 ∧ fld w 7 4 = x4 ∧ fld w 5 2 = x5 ∧ fld w 0 5 = x6 := by
  subst e
  exact ⟨(above (by decide)).trans <| (above (by decide)).trans <| (above (by decide)).trans <| (above (by decide)).trans <| (above (by decide)).trans <| (above (by decide)).trans <| whole _, (above (by decide)).trans <| (above (by decide)).trans <| (above (by decide)).trans <| (above (by decide)).trans <| (above (by decide)).trans <| lowest _ _, (above (by decide)).trans <| (above (by decide)).trans <| (above (by decide)).trans <| (above (by decide)).trans <| lowest _ _, (above (by decide)).trans <| (above (by decide)).trans <| (above (by decide)).trans <| lowest _ _, (above (by decide)).trans <| (above (by decide)).trans <| lowest _ _, (above (by decide)).trans <| lowest _ _, lowest _ _⟩

theorem mask_6_5_5_5_4_2_5 {w m : BitVec 32} {x0 : BitVec 6} {x1 : BitVec 5} {x2 : BitVec 5} {x3 : BitVec 5} {x4 : BitVec 4} {x5 : BitVec 2} {x6 : BitVec 5} {y0 : BitVec 6} {y1 : BitVec 5} {y2 : BitVec 5} {y3 : BitVec 5} {y4 : BitVec 4} {y5 : BitVec 2} {y6 : BitVec 5} (e : w = x0 ++ x1 ++ x2 ++ x3 ++ x4 ++ x5 ++ x6) (f : m = y0 ++ y1 ++ y2 ++ y3 ++ y4 ++ y5 ++ y6)
    (hx0 : x0 &&& y0 = 0) (hx1 : x1 &&& y1 = 0) (hx2 : x2 &&& y2 = 0) (hx3 : x3 &&& y3 = 0) (hx4 : x4 &&& y4 = 0) (hx5 : x5 &&& y5 = 0) (hx6 : x6 &&& y6 = 0) : w &&& m = 0#32 := by
  subst e f
  exact (zero_app (zero_app (zero_app (zero_app (zero_app (zero_app hx0 hx1) hx2) hx3) hx4) hx5) hx6)

theorem fields_6_5_5_5_5_1_5 {w : BitVec 32} {x0 : BitVec 6} {x1 : BitVec 5} {x2 : BitVec 5} {x3 : BitVec 5} {x4 : BitVec 5} {x5 : BitVec 1} {x6 : BitVec 5} (e : w = x0 ++ x1 ++ x2 ++ x3 ++ x4 ++ x5 ++ x6) :
    fld w 26 6 = x0 ∧ fld w 21 5 = x1 ∧ fld w 16 5 = x2 ∧ fld w 11 5 = x3 ∧ fld w 6 5 = x4 ∧ fld w 5 1 = x5 ∧ fld w 0 5 = x6 := by
  subst e
  exact ⟨(above (by decide)).trans <| (above (by decide)).trans <| (above (by decide)).trans <| (above (by decide)).trans <| (above (by decide)).trans <| (above (by decide)).trans <| whole _, (above (by decide)).trans <| (above (by decide)).trans <| (above (by decide)).trans <| (above (by decide)).trans <| (above (by decide)).trans <| lowest _ _, (above (by decide)).trans <| (above (by decide)).trans <| (above (by decide)).trans <| (above (by decide)).trans <| lowest _ _, (above (by decide)).trans <| (above (by decide)).trans <| (above (by decide)).trans <| lowest _ _, (above (by decide)).trans <| (above (by decide)).trans <| lowest _ _, (above (by decide)).trans <| lowest _ _, lowest _ _⟩

theorem mask_6_5_5_5_5_1_5 {w m : BitVec 32} {x0 : BitVec 6} {x1 : BitVec 5} {x2 : BitVec 5} {x3 : BitVec 5} {x4 : BitVec 5} {x5 : BitVec 1} {x6 : BitVec 5} {y0 : BitVec 6} {y1 : BitVec 5} {y2 : BitVec 5} {y3 : BitVec 5} {y4 : BitVec 5} {y5 : BitVec 1} {y6 : BitVec 5} (e : w = x0 ++ x1 ++ x2 ++ x3 ++ x4 ++ x5 ++ x6) (f : m = y0 ++ y1 ++ y2 ++ y3 ++ y4 ++ y5 ++ y6)
    (hx0 : x0 &&& y0 = 0) (hx1 : x1 &&& y1 = 0) (hx2 : x2 &&& y2 = 0) (hx3 : x3 &&& y3 = 0) (hx4 : x4 &&& y4 = 0) (hx5 : x5 &&& y5 = 0) (hx6 : x6 &&& y6 = 0) : w &&& m = 0#32 := by
  subst e f
  exact (zero_app (zero_app (zero_app (zero_app (zero_app (zero_app hx0 hx1) hx2) hx3) hx4) hx5) hx6)

theorem fields_6_5_5_5_6_5 {w : BitVec 32} {x0 : BitVec 6} {x1 : BitVec 5} {x2 : BitVec 5} {x3 : BitVec 5} {x4 : BitVec 6} {x5 : BitVec 5} (e : w = x0 ++ x1 ++ x2 ++ x3 ++ x4 ++ x5) :
    fld w 26 6 = x0 ∧ fld w 21 5 = x1 ∧ fld w 16 5 = x2 ∧ fld w 11 5 = x3 ∧ fld w 5 6 = x4 ∧ fld w 0 5 = x5 := by
  subst e
  exact ⟨(above (by decide)).trans <| (above (by decide)).trans <| (above (by decide)).trans <| (above (by decide)).trans <| (above (by decide)).trans <| whole _, (above (by decide)).trans <| (above (by decide)).trans <| (above (by decide)).trans <| (above (by decide)).trans <| lowest _ _, (above (by decide)).trans <| (above (by decide)).trans <| (above (by decide)).trans <| lowest _ _, (above (by decide)).trans <| (above (by decide)).trans <| lowest _ _, (above (by decide)).trans <| lowest _ _, lowest _ _⟩

theorem mask_6_5_5_5_6_5 {w m : BitVec 32} {x0 : BitVec 6} {x1 : BitVec 5} {x2 : BitVec 5} {x3 : BitVec 5} {x4 : BitVec 6} {x5 : BitVec 5} {y0 : BitVec 6} {y1 : BitVec 5} {y2 : BitVec 5} {y3 : BitVec 5} {y4 : BitVec 6} {y5 : BitVec 5} (e : w = x0 ++ x1 ++ x2 ++ x3 ++ x4 ++ x5) (f : m = y0 ++ y1 ++ y2 ++ y3 ++ y4 ++ y5)
    (hx0 : x0 &&& y0 = 0) (hx1 : x1 &&& y1 = 0) (hx2 : x2 &&& y2 = 0) (hx3 : x3 &&& y3 = 0) (hx4 : x4 &&& y4 = 0) (hx5 : x5 &&& y5 = 0) : w &&& m = 0#32 := by
  subst e f
  exact (zero_app (zero_app (zero_app (zero_app (zero_app hx0 hx1) hx2) hx3) hx4) hx5)

theorem fields_6_5_5_8_3_5 {w : BitVec 32} {x0 : BitVec 6} {x1 : BitVec 5} {x2 : BitVec 5} {x3 : BitVec 8} {x4 : BitVec 3} {x5 : BitVec 5} (e : w = x0 ++ x1 ++ x2 ++ x3 ++ x4 ++ x5) :
    fld w 26 6 = x0 ∧ fld w 21 5 = x1 ∧ fld w 16 5 = x2 ∧ fld w 8 8 = x3 ∧ fld w 5 3 = x4 ∧ fld w 0 5 = x5 := by
  subst e
  exact ⟨(above (by decide)).trans <| (above (by decide)).trans <| (above (by decide)).trans <| (above (by decide)).trans <| (above (by decide)).trans <| whole _, (above (by decide)).trans <| (above (by decide)).trans <| (above (by decide)).trans <| (above (by decide)).trans <| lowest _ _, (above (by decide)).trans <| (above (by decide)).trans <| (above (by decide)).trans <| lowest _ _, (above (by decide)).trans <| (above (by decide)).trans <| lowest _ _, (above (by decide)).trans <| lowest _ _, lowest _ _⟩

theorem mask_6_5_5_8_3_5 {w m : BitVec 32} {x0 : BitVec 6} {x1 : BitVec 5} {x2 : BitVec 5} {x3 : BitVec 8} {x4 : BitVec 3} {x5 : BitVec 5} {y0 : BitVec 6} {y1 : BitVec 5} {y2 : BitVec 5} {y3 : BitVec 8} {y4 : BitVec 3} {y5 : BitVec 5} (e : w = x0 ++ x1 ++ x2 ++ x3 ++ x4 ++ x5) (f : m = y0 ++ y1 ++ y2 ++ y3 ++ y4 ++ y5)
    (hx0 : x0 &&& y0 = 0) (hx1 : x1 &&& y1 = 0) (hx2 : x2 &&& y2 = 0) (hx3 : x3 &&& y3 = 0) (hx4 : x4 &&& y4 = 0) (hx5 : x5 &&& y5 = 0) : w &&& m = 0#32 := by
  subst e f
  exact (zero_app (zero_app (zero_app (zero_app (zero_app hx0 hx1) hx2) hx3) hx4) hx5)

theorem fields_6_5_5_11_5 {w : BitVec 32} {x0 : BitVec 6} {x1 : BitVec 5} {x2 : BitVec 5} {x3 : BitVec 11} {x4 : BitVec 5} (e : w = x0 ++ x1 ++ x2 ++ x3 ++ x4) :
    fld w 26 6 = x0 ∧ fld w 21 5 = x1 ∧ fld w 16 5 = x2 ∧ fld w 5 11 = x3 ∧ fld w 0 5 = x4 := by
  subst e
  exact ⟨(above (by decide)).trans <| (above (by decide)).trans <| (above (by decide)).trans <| (above (by decide)).trans <| whole _, (above (by decide)).trans <| (above (by decide)).trans <| (above (by decide)).trans <| lowest _ _, (above (by decide)).trans <| (above (by decide)).trans <| lowest _ _, (above (by decide)).trans <| lowest _ _, lowest _ _⟩

theorem mask_6_5_5_11_5 {w m : BitVec 32} {x0 : BitVec 6} {x1 : BitVec 5} {x2 : BitVec 5} {x3 : BitVec 11} {x4 : BitVec 5} {y0 : BitVec 6} {y1 : BitVec 5} {y2 : BitVec 5} {y3 : BitVec 11} {y4 : BitVec 5} (e : w = x0 ++ x1 ++ x2 ++ x3 ++ x4) (f : m = y0 ++ y1 ++ y2 ++ y3 ++ y4)
    (hx0 : x0 &&& y0 = 0) (hx1 : x1 &&& y1 = 0) (hx2 : x2 &&& y2 = 0) (hx3 : x3 &&& y3 = 0) (hx4 : x4 &&& y4 = 0) : w &&& m = 0#32 := by
  subst e f
  exact (zero_app (zero_app (zero_app (zero_app hx0 hx1) hx2) hx3) hx4)

theorem fields_6_5_5_16 {w : BitVec 32} {x0 : BitVec 6} {x1 : BitVec 5} {x2 : BitVec 5} {x3 : BitVec 16} (e : w = x0 ++ x1 ++ x2 ++ x3) :
    fld w 26 6 = x0 ∧ fld w 21 5 = x1 ∧ fld w 16 5 = x2 ∧ fld w 0 16 = x3 := by
  subst e
  exact ⟨(above (by decide)).trans <| (above (by decide)).trans <| (above (by decide)).trans <| whole _, (above (by decide)).trans <| (above (by decide)).trans <| lowest _ _, (above (by decide)).trans <| lowest _ _, lowest _ _⟩

theorem mask_6_5_5_16 {w m : BitVec 32} {x0 : BitVec 6} {x1 : BitVec 5} {x2 : BitVec 5} {x3 : BitVec 16} {y0 : BitVec 6} {y1 : BitVec 5} {y2 : BitVec 5} {y3 : BitVec 16} (e : w = x0 ++ x1 ++ x2 ++ x3) (f : m = y0 ++ y1 ++ y2 ++ y3)
    (hx0 : x0 &&& y0 = 0) (hx1 : x1 &&& y1 = 0) (hx2 : x2 &&& y2 = 0) (hx3 : x3 &&& y3 = 0) : w &&& m = 0#32 := by
  subst e f
  exact (zero_app (zero_app (zero_app hx0 hx1) hx2) hx3)

theorem fields_6_5_6_5_5_1_1_3 {w : BitVec 32} {x0 : BitVec 6} {x1 : BitVec 5} {x2 : BitVec 6} {x3 : BitVec 5} {x4 : BitVec 5} {x5 : BitVec 1} {x6 : BitVec 1} {x7 : BitVec 3} (e : w = x0 ++ x1 ++ x2 ++ x3 ++ x4 ++ x5 ++ x6 ++ x7) :
    fld w 26 6 = x0 ∧ fld w 21 5 = x1 ∧ fld w 15 6 = x2 ∧ fld w 10 5 = x3 ∧ fld w 5 5 = x4 ∧ fld w 4 1 = x5 ∧ fld w 3 1 = x6 ∧ fld w 0 3 = x7 := by
  subst e
  exact ⟨(above (by decide)).trans <| (above (by decide)).trans <| (above (by decide)).trans <| (above (by decide)).trans <| (above (by decide)).trans <| (above (by decide)).trans <| (above (by decide)).trans <| whole _, (above (by decide)).trans <| (above (by decide)).trans <| (above (by decide)).trans <| (above (by decide)).trans <| (above (by decide)).trans <| (above (by decide)).trans <| lowest _ _, (above (by decide)).trans <| (above (by decide)).trans <| (above (by decide)).trans <| (above (by decide)).trans <| (above (by decide)).trans <| lowest _ _, (above (by decide)).trans <| (above (by decide)).trans <| (above (by decide)).trans <| (above (by decide)).trans <| lowest _ _, (above (by decide)).trans <| (above (by decide)).trans <| (above (by decide)).trans <| lowest _ _, (above (by decide)).trans <| (above (by decide)).trans <| lowest _ _, (above (by decide)).trans <| lowest _ _, lowest _ _⟩

theorem mask_6_5_6_5_5_1_1_3 {w m : BitVec 32} {x0 : BitVec 6} {x1 : BitVec 5} {x2 : BitVec 6} {x3 : BitVec 5} {x4 : BitVec 5} {x5 : BitVec 1} {x6 : BitVec 1} {x7 : BitVec 3} {y0 : BitVec 6} {y1 : BitVec 5} {y2 : BitVec 6} {y3 : BitVec 5} {y4 : BitVec 5} {y5 : BitVec 1} {y6 : BitVec 1} {y7 : BitVec 3} (e : w = x0 ++ x1 ++ x2 ++ x3 ++ x4 ++ x5 ++ x6 ++ x7) (f : m = y0 ++ y1 ++ y2 ++ y3 ++ y4 ++ y5 ++ y6 ++ y7)
    (hx0 : x0 &&& y0 = 0) (hx1 : x1 &&& y1 = 0) (hx2 : x2 &&& y2 = 0) (hx3 : x3 &&& y3 = 0) (hx4 : x4 &&& y4 = 0) (hx5 : x5 &&& y5 = 0) (hx6 : x6 &&& y6 = 0) (hx7 : x7 &&& y7 = 0) : w &&& m = 0#32 := by
  subst e f
  exact (zero_app (zero_app (zero_app (zero_app (zero_app (zero_app (zero_app hx0 hx1) hx2) hx3) hx4) hx5) hx6) hx7)

theorem fields_6_5_6_5_5_1_4 {w : BitVec 32} {x0 : BitVec 6} {x1 : BitVec 5} {x2 : BitVec 6} {x3 : BitVec 5} {x4 : BitVec 5} {x5 : BitVec 1} {x6 : BitVec 4} (e : w = x0 ++ x1 ++ x2 ++ x3 ++ x4 ++ x5 ++ x6) :
    fld w 26 6 = x0 ∧ fld w 21 5 = x1 ∧ fld w 15 6 = x2 ∧ fld w 10 5 = x3 ∧ fld w 5 5 = x4 ∧ fld w 4 1 = x5 ∧ fld w 0 4 = x6 := by
  subst e
  exact ⟨(above (by decide)).trans <| (above (by decide)).trans <| (above (by decide)).trans <| (above (by decide)).trans <| (above (by decide)).trans <| (above (by decide)).trans <| whole _, (above (by decide)).trans <| (above (by decide)).trans <| (above (by decide)).trans <| (above (by decide)).trans <| (above (by decide)).trans <| lowest _ _, (above (by decide)).trans <| (above (by decide)).trans <| (above (by decide)).trans <| (above (by decide)).trans <| lowest _ _, (above (by decide)).trans <| (above (by decide)).trans <| (above (by decide)).trans <| lowest _ _, (above (by decide)).trans <| (above (by decide)).trans <| lowest _ _, (above (by decide)).trans <| lowest _ _, lowest _ _⟩

theorem mask_6_5_6_5_5_1_4 {w m : BitVec 32} {x0 : BitVec 6} {x1 : BitVec 5} {x2 : BitVec 6} {x3 : BitVec 5} {x4 : BitVec 5} {x5 : BitVec 1} {x6 : BitVec 4} {y0 : BitVec 6} {y1 : BitVec 5} {y2 : BitVec 6} {y3 : BitVec 5} {y4 : BitVec 5} {y5 : BitVec 1} {y6 : BitVec 4} (e : w = x0 ++ x1 ++ x2 ++ x3 ++ x4 ++ x5 ++ x6) (f : m = y0 ++ y1 ++ y2 ++ y3 ++ y4 ++ y5 ++ y6)
    (hx0 : x0 &&& y0 = 0) (hx1 : x1 &&& y1 = 0) (hx2 : x2 &&& y2 = 0) (hx3 : x3 &&& y3 = 0) (hx4 : x4 &&& y4 = 0) (hx5 : x5 &&& y5 = 0) (hx6 : x6 &&& y6 = 0) : w &&& m = 0#32 := by
  subst e f
  exact (zero_app (zero_app (zero_app (zero_app (zero_app (zero_app hx0 hx1) hx2) hx3) hx4) hx5) hx6)

theorem fields_6_5_6_5_5_2_1_1_1 {w : BitVec 32} {x0 : BitVec 6} {x1 : BitVec 5} {x2 : BitVec 6} {x3 : BitVec 5} {x4 : BitVec 5} {x5 : BitVec 2} {x6 : BitVec 1} {x7 : BitVec 1} {x8 : BitVec 1} (e : w = x0 ++ x1 ++ x2 ++ x3 ++ x4 ++ x5 ++ x6 ++ x7 ++ x8) :
    fld w 26 6 = x0 ∧ fld w 21 5 = x1 ∧ fld w 15 6 = x2 ∧ fld w 10 5 = x3 ∧ fld w 5 5 = x4 ∧ fld w 3 2 = x5 ∧ fld w 2 1 = x6 ∧ fld w 1 1 = x7 ∧ fld w 0 1 = x8 := by
  subst e
  exact ⟨(above (by decide)).trans <| (above (by decide)).trans <| (above (by decide)).trans <| (above (by decide)).trans <| (above (by decide)).trans <| (above (by decide)).trans <| (above (by decide)).trans <| (above (by decide)).trans <| whole _, (above (by decide)).trans <| (above (by decide)).trans <| (above (by decide)).trans <| (above (by decide)).trans <| (above (by decide)).trans <| (above (by decide)).trans <| (above (by decide)).trans <| lowest _ _, (above (by decide)).trans <| (above (by decide)).trans <| (above (by decide)).trans <| (above (by decide)).trans <| (above (by decide)).trans <| (above (by decide)).trans <| lowest _ _, (above (by decide)).trans <| (above (by decide)).trans <| (above (by decide)).trans <| (above (by decide)).trans <| (above (by decide)).trans <| lowest _ _, (above (by decide)).trans <| (above (by decide)).trans <| (above (by decide)).trans <| (above (by decide)).trans <| lowest _ _, (above (by decide)).trans <| (above (by decide)).trans <| (above (by decide)).trans <| lowest _ _, (above (by decide)).trans <| (above (by decide)).trans <| lowest _ _, (above (by decide)).trans <| lowest _ _, lowest _ _⟩

theorem mask_6_5_6_5_5_2_1_1_1 {w m : BitVec 32} {x0 : BitVec 6} {x1 : BitVec 5} {x2 : BitVec 6} {x3 : BitVec 5} {x4 : BitVec 5} {x5 : BitVec 2} {x6 : BitVec 1} {x7 : BitVec 1} {x8 : BitVec 1} {y0 : BitVec 6} {y1 : BitVec 5} {y2 : BitVec 6} {y3 : BitVec 5} {y4 : BitVec 5} {y5 : BitVec 2} {y6 : BitVec 1} {y7 : BitVec 1} {y8 : BitVec 1} (e : w = x0 ++ x1 ++ x2 ++ x3 ++ x4 ++ x5 ++ x6 ++ x7 ++ x8) (f : m = y0 ++ y1 ++ y2 ++ y3 ++ y4 ++ y5 ++ y6 ++ y7 ++ y8)
    (hx0 : x0 &&& y0 = 0) (hx1 : x1 &&& y1 = 0) (hx2 : x2 &&& y2 = 0) (hx3 : x3 &&& y3 = 0) (hx4 : x4 &&& y4 = 0) (hx5 : x5 &&& y5 = 0) (hx6 : x6 &&& y6 = 0) (hx7 : x7 &&& y7 = 0) (hx8 : x8 &&& y8 = 0) : w &&& m = 0#32 := by
  subst e f
  exact (zero_app (zero_app (zero_app (zero_app (zero_app (zero_app (zero_app (zero_app hx0 hx1) hx2) hx3) hx4) hx5) hx6) hx7) hx8)

theorem fields_6_5_6_5_5_2_3 {w : BitVec 32} {x0 : BitVec 6} {x1 : BitVec 5} {x2 : BitVec 6} {x3 : BitVec 5} {x4 : BitVec 5} {x5 : BitVec 2} {x6 : BitVec 3} (e : w = x0 ++ x1 ++ x2 ++ x3 ++ x4 ++ x5 ++ x6) :
    fld w 26 6 = x0 ∧ fld w 21 5 = x1 ∧ fld w 15 6 = x2 ∧ fld w 10 5 = x3 ∧ fld w 5 5 = x4 ∧ fld w 3 2 = x5 ∧ fld w 0 3 = x6 := by
  subst e
  exact ⟨(above (by decide)).trans <| (above (by decide)).trans <| (above (by decide)).trans <| (above (by decide)).trans <| (above (by decide)).trans <| (above (by decide)).trans <| whole _, (above (by decide)).trans <| (above (by decide)).trans <| (above (by decide)).trans <| (above (by decide)).trans <| (above (by decide)).trans <| lowest _ _, (above (by decide)).trans <| (above (by decide)).trans <| (above (by decide)).trans <| (above (by decide)).trans <| lowest _ _, (above (by decide)).trans <| (above (by decide)).trans <| (above (by decide)).trans <| lowest _ _, (above (by decide)).trans <| (above (by decide)).trans <| lowest _ _, (above (by decide)).trans <| lowest _ _, lowest _ _⟩

theorem mask_6_5_6_5_5_2_3 {w m : BitVec 32} {x0 : BitVec 6} {x1 : BitVec 5} {x2 : BitVec 6} {x3 : BitVec 5} {x4 : BitVec 5} {x5 : BitVec 2} {x6 : BitVec 3} {y0 : BitVec 6} {y1 : BitVec 5} {y2 : BitVec 6} {y3 : BitVec 5} {y4 : BitVec 5} {y5 : BitVec 2} {y6 : BitVec 3} (e : w = x0 ++ x1 ++ x2 ++ x3 ++ x4 ++ x5 ++ x6) (f : m = y0 ++ y1 ++ y2 ++ y3 ++ y4 ++ y5 ++ y6)
    (hx0 : x0 &&& y0 = 0) (hx1 : x1 &&& y1 = 0) (hx2 : x2 &&& y2 = 0) (hx3 : x3 &&& y3 = 0) (hx4 : x4 &&& y4 = 0) (hx5 : x5 &&& y5 = 0) (hx6 : x6 &&& y6 = 0) : w &&& m = 0#32 := by
  subst e f
  exact (zero_app (zero_app (zero_app (zero_app (zero_app (zero_app hx0 hx1) hx2) hx3) hx4) hx5) hx6)

theorem fields_6_5_6_5_5_3_1_1 {w : BitVec 32} {x0 : BitVec 6} {x1 : BitVec 5} {x2 : BitVec 6} {x3 : BitVec 5} {x4 : BitVec 5} {x5 : BitVec 3} {x6 : BitVec 1} {x7 : BitVec 1} (e : w = x0 ++ x1 ++ x2 ++ x3 ++ x4 ++ x5 ++ x6 ++ x7) :
    fld w 26 6 = x0 ∧ fld w 21 5 = x1 ∧ fld w 15 6 = x2 ∧ fld w 10 5 = x3 ∧ fld w 5 5 = x4 ∧ fld w 2 3 = x5 ∧ fld w 1 1 = x6 ∧ fld w 0 1 = x7 := by
  subst e
  exact ⟨(above (by decide)).trans <| (above (by decide)).trans <| (above (by decide)).trans <| (above (by decide)).trans <| (above (by decide)).trans <| (above (by decide)).trans <| (above (by decide)).trans <| whole _, (above (by decide)).trans <| (above (by decide)).trans <| (above (by decide)).trans <| (above (by decide)).trans <| (above (by decide)).trans <| (above (by decide)).trans <| lowest _ _, (above (by decide)).trans <| (above (by decide)).trans <| (above (by decide)).trans <| (above (by decide)).trans <| (above (by decide)).trans <| lowest _ _, (above (by decide)).trans <| (above (by decide)).trans <| (above (by decide)).trans <| (above (by decide)).trans <| lowest _ _, (above (by decide)).trans <| (above (by decide)).trans <| (above (by decide)).trans <| lowest _ _, (above (by decide)).trans <| (above (by decide)).trans <| lowest _ _, (above (by decide)).trans <| lowest _ _, lowest _ _⟩

theorem mask_6_5_6_5_5_3_1_1 {w m : BitVec 32} {x0 : BitVec 6} {x1 : BitVec 5} {x2 : BitVec 6} {x3 : BitVec 5} {x4 : BitVec 5} {x5 : BitVec 3} {x6 : BitVec 1} {x7 : BitVec 1} {y0 : BitVec 6} {y1 : BitVec 5} {y2 : BitVec 6} {y3 : BitVec 5} {y4 : BitVec 5} {y5 : BitVec 3} {y6 : BitVec 1} {y7 : BitVec 1} (e : w = x0 ++ x1 ++ x2 ++ x3 ++ x4 ++ x5 ++ x6 ++ x7) (f : m = y0 ++ y1 ++ y2 ++ y3 ++ y4 ++ y5 ++ y6 ++ y7)
    (hx0 : x0 &&& y0 = 0) (hx1 : x1 &&& y1 = 0) (hx2 : x2 &&& y2 = 0) (hx3 : x3 &&& y3 = 0) (hx4 : x4 &&& y4 = 0) (hx5 : x5 &&& y5 = 0) (hx6 : x6 &&& y6 = 0) (hx7 : x7 &&& y7 = 0) : w &&& m = 0#32 := by
  subst e f
  exact (zero_app (zero_app (zero_app (zero_app (zero_app (zero_app (zero_app hx0 hx1) hx2) hx3) hx4) hx5) hx6) hx7)

theorem fields_6_5_6_5_5_4_1 {w : BitVec 32} {x0 : BitVec 6} {x1 : BitVec 5} {x2 : BitVec 6} {x3 : BitVec 5} {x4 : BitVec 5} {x5 : BitVec 4} {x6 : BitVec 1} (e : w = x0 ++ x1 ++ x2 ++ x3 ++ x4 ++ x5 ++ x6) :
    fld w 26 6 = x0 ∧ fld w 21 5 = x1 ∧ fld w 15 6 = x2 ∧ fld w 10 5 = x3 ∧ fld w 5 5 = x4 ∧ fld w 1 4 = x5 ∧ fld w 0 1 = x6 := by
  subst e
  exact ⟨(above (by decide)).trans <| (above (by decide)).trans <| (above (by decide)).trans <| (above (by decide)).trans <| (above (by decide)).trans <| (above (by decide)).trans <| whole _, (above (by decide)).trans <| (above (by decide)).trans <| (above (by decide)).trans <| (above (by decide)).trans <| (above (by decide)).trans <| lowest _ _, (above (by decide)).trans <| (above (by decide)).trans <| (above (by decide)).trans <| (above (by decide)).trans <| lowest _ _, (above (by decide)).trans <| (above (by decide)).trans <| (above (by decide)).trans <| lowest _ _, (above (by decide)).trans <| (above (by decide)).trans <| lowest _ _, (above (by decide)).trans <| lowest _ _, lowest _ _⟩

theorem mask_6_5_6_5_5_4_1 {w m : BitVec 32} {x0 : BitVec 6} {x1 : BitVec 5} {x2 : BitVec 6} {x3 : BitVec 5} {x4 : BitVec 5} {x5 : BitVec 4} {x6 : BitVec 1} {y0 : BitVec 6} {y1 : BitVec 5} {y2 : BitVec 6} {y3 : BitVec 5} {y4 : BitVec 5} {y5 : BitVec 4} {y6 : BitVec 1} (e : w = x0 ++ x1 ++ x2 ++ x3 ++ x4 ++ x5 ++ x6) (f : m = y0 ++ y1 ++ y2 ++ y3 ++ y4 ++ y5 ++ y6)
    (hx0 : x0 &&& y0 = 0) (hx1 : x1 &&& y1 = 0) (hx2 : x2 &&& y2 = 0) (hx3 : x3 &&& y3 = 0) (hx4 : x4 &&& y4 = 0) (hx5 : x5 &&& y5 = 0) (hx6 : x6 &&& y6 = 0) : w &&& m = 0#32 := by
  subst e f
  exact (zero_app (zero_app (zero_app (zero_app (zero_app (zero_app hx0 hx1) hx2) hx3) hx4) hx5) hx6)

theorem fields_6_5_6_5_5_5 {w : BitVec 32} {x0 : BitVec 6} {x1 : BitVec 5} {x2 : BitVec 6} {x3 : BitVec 5} {x4 : BitVec 5} {x5 : BitVec 5} (e : w = x0 ++ x1 ++ x2 ++ x3 ++ x4 ++ x5) :
    fld w 26 6 = x0 ∧ fld w 21 5 = x1 ∧ fld w 15 6 = x2 ∧ fld w 10 5 = x3 ∧ fld w 5 5 = x4 ∧ fld w 0 5 = x5 := by
  subst e
  exact ⟨(above (by decide)).trans <| (above (by decide)).trans <| (above (by decide)).trans <| (above (by decide)).trans <| (above (by decide)).trans <| whole _, (above (by decide)).trans <| (above (by decide)).trans <| (above (by decide)).trans <| (above (by decide)).trans <| lowest _ _, (above (by decide)).trans <| (above (by decide)).trans <| (above (by decide)).trans <| lowest _ _, (above (by decide)).trans <| (above (by decide)).trans <| lowest _ _, (above (by decide)).trans <| lowest _ _, lowest _ _⟩

theorem mask_6_5_6_5_5_5 {w m : BitVec 32} {x0 : BitVec 6} {x1 : BitVec 5} {x2 : BitVec 6} {x3 : BitVec 5} {x4 : BitVec 5} {x5 : BitVec 5} {y0 : BitVec 6} {y1 : BitVec 5} {y2 : BitVec 6} {y3 : BitVec 5} {y4 : BitVec 5} {y5 : BitVec 5} (e : w = x0 ++ x1 ++ x2 ++ x3 ++ x4 ++ x5) (f : m = y0 ++ y1 ++ y2 ++ y3 ++ y4 ++ y5)
    (hx0 : x0 &&& y0 = 0) (hx1 : x1 &&& y1 = 0) (hx2 : x2 &&& y2 = 0) (hx3 : x3 &&& y3 = 0) (hx4 : x4 &&& y4 = 0) (hx5 : x5 &&& y5 = 0) : w &&& m = 0#32 := by
  subst e f
  exact (zero_app (zero_app (zero_app (zero_app (zero_app hx0 hx1) hx2) hx3) hx4) hx5)

theorem fields_6_5_21 {w : BitVec 32} {x0 : BitVec 6} {x1 : BitVec 5} {x2 : BitVec 21} (e : w = x0 ++ x1 ++ x2) :
    fld w 26 6 = x0 ∧ fld w 21 5 = x1 ∧ fld w 0 21 = x2 := by
  subst e
  exact ⟨(above (by decide)).trans <| (above (by decide)).trans <| whole _, (above (by decide)).trans <| lowest _ _, lowest _ _⟩

theorem mask_6_5_21 {w m : BitVec 32} {x0 : BitVec 6} {x1 : BitVec 5} {x2 : BitVec 21} {y0 : BitVec 6} {y1 : BitVec 5} {y2 : BitVec 21} (e : w = x0 ++ x1 ++ x2) (f : m = y0 ++ y1 ++ y2)
    (hx0 : x0 &&& y0 = 0) (hx1 : x1 &&& y1 = 0) (hx2 : x2 &&& y2 = 0) : w &&& m = 0#32 := by
  subst e f
  exact (zero_app (zero_app hx0 hx1) hx2)

theorem fields_6_16_3_2_5 {w : BitVec 32} {x0 : BitVec 6} {x1 : BitVec 16} {x2 : BitVec 3} {x3 : BitVec 2} {x4 : BitVec 5} (e : w = x0 ++ x1 ++ x2 ++ x3 ++ x4) :
    fld w 26 6 = x0 ∧ fld w 10 16 = x1 ∧ fld w 7 3 = x2 ∧ fld w 5 2 = x3 ∧ fld w 0 5 = x4 := by
  subst e
  exact ⟨(above (by decide)).trans <| (above (by decide)).trans <| (above (by decide)).trans <| (above (by decide)).trans <| whole _, (above (by decide)).trans <| (above (by decide)).trans <| (above (by decide)).trans <| lowest _ _, (above (by decide)).trans <| (above (by decide)).trans <| lowest _ _, (above (by decide)).trans <| lowest _ _, lowest _ _⟩

theorem mask_6_16_3_2_5 {w m : BitVec 32} {x0 : BitVec 6} {x1 : BitVec 16} {x2 : BitVec 3} {x3 : BitVec 2} {x4 : BitVec 5} {y0 : BitVec 6} {y1 : BitVec 16} {y2 : BitVec 3} {y3 : BitVec 2} {y4 : BitVec 5} (e : w = x0 ++ x1 ++ x2 ++ x3 ++ x4) (f : m = y0 ++ y1 ++ y2 ++ y3 ++ y4)
    (hx0 : x0 &&& y0 = 0) (hx1 : x1 &&& y1 = 0) (hx2 : x2 &&& y2 = 0) (hx3 : x3 &&& y3 = 0) (hx4 : x4 &&& y4 = 0) : w &&& m = 0#32 := by
  subst e f
  exact (zero_app (zero_app (zero_app (zero_app hx0 hx1) hx2) hx3) hx4)

theorem fields_6_16_5_5 {w : BitVec 32} {x0 : BitVec 6} {x1 : BitVec 16} {x2 : BitVec 5} {x3 : BitVec 5} (e : w = x0 ++ x1 ++ x2 ++ x3) :
    fld w 26 6 = x0 ∧ fld w 10 16 = x1 ∧ fld w 5 5 = x2 ∧ fld w 0 5 = x3 := by
  subst e
  exact ⟨(above (by decide)).trans <| (above (by decide)).trans <| (above (by decide)).trans <| whole _, (above (by decide)).trans <| (above (by decide)).trans <| lowest _ _, (above (by decide)).trans <| lowest _ _, lowest _ _⟩

theorem mask_6_16_5_5 {w m : BitVec 32} {x0 : BitVec 6} {x1 : BitVec 16} {x2 : BitVec 5} {x3 : BitVec 5} {y0 : BitVec 6} {y1 : BitVec 16} {y2 : BitVec 5} {y3 : BitVec 5} (e : w = x0 ++ x1 ++ x2 ++ x3) (f : m = y0 ++ y1 ++ y2 ++ y3)
    (hx0 : x0 &&& y0 = 0) (hx1 : x1 &&& y1 = 0) (hx2 : x2 &&& y2 = 0) (hx3 : x3 &&& y3 = 0) : w &&& m = 0#32 := by
  subst e f
  exact (zero_app (zero_app (zero_app hx0 hx1) hx2) hx3)

theorem nop (tok : BitVec 4) : Statement (.nop tok) := by
  intro w h hw
  have e := (Option.some.inj h).symm
  obtain ⟨m, f22, f17, -, -⟩ := fields_6_4_5_5_12 e
  exact ⟨0x1ffff#32, by rw [readForm_00 m]; unfold readMajor00; rw [f22, f17]; rfl, mask_6_4_5_5_12 e (by decide : _ = 0#6 ++ 0#4 ++ 0#5 ++ 31#5 ++ 4095#12) BitVec.and_zero BitVec.and_zero BitVec.and_zero BitVec.zero_and BitVec.zero_and⟩

theorem lpat (kind : BitVec 5) (k : BitVec 5) : Statement (.lpat kind k) := by
  intro w h hw
  have e := (Option.some.inj h).symm
  obtain ⟨m, -, f17, f12, -, f0⟩ := fields_6_4_5_5_7_5 e
  exact ⟨0x3c00fe0#32, by rw [readForm_00 m]; unfold readMajor00; rw [f17, f12, f0]; rfl, mask_6_4_5_5_7_5 e (by decide : _ = 0#6 ++ 15#4 ++ 0#5 ++ 0#5 ++ 127#7 ++ 0#5) BitVec.and_zero BitVec.zero_and BitVec.and_zero BitVec.and_zero BitVec.zero_and BitVec.and_zero⟩

theorem halt (tok : BitVec 4) : Statement (.halt tok) := by
  intro w h hw
  have e := (Option.some.inj h).symm
  obtain ⟨m, f22, f17, -, -⟩ := fields_6_4_5_5_12 e
  exact ⟨0x1ffff#32, by rw [readForm_00 m]; unfold readMajor00; rw [f22, f17]; rfl, mask_6_4_5_5_12 e (by decide : _ = 0#6 ++ 0#4 ++ 0#5 ++ 31#5 ++ 4095#12) BitVec.and_zero BitVec.and_zero BitVec.and_zero BitVec.zero_and BitVec.zero_and⟩

theorem brk (tok : BitVec 4) (code : BitVec 12) : Statement (.brk tok code) := by
  intro w h hw
  have e := (Option.some.inj h).symm
  obtain ⟨m, f22, f17, -, f0⟩ := fields_6_4_5_5_12 e
  exact ⟨0x1f000#32, by rw [readForm_00 m]; unfold readMajor00; rw [f22, f17, f0]; rfl, mask_6_4_5_5_12 e (by decide : _ = 0#6 ++ 0#4 ++ 0#5 ++ 31#5 ++ 0#12) BitVec.and_zero BitVec.and_zero BitVec.and_zero BitVec.zero_and BitVec.and_zero⟩

theorem trap (tok : BitVec 4) (code : BitVec 12) : Statement (.trap tok code) := by
  intro w h hw
  have e := (Option.some.inj h).symm
  obtain ⟨m, f22, f17, -, f0⟩ := fields_6_4_5_5_12 e
  exact ⟨0x1f000#32, by rw [readForm_00 m]; unfold readMajor00; rw [f22, f17, f0]; rfl, mask_6_4_5_5_12 e (by decide : _ = 0#6 ++ 0#4 ++ 0#5 ++ 31#5 ++ 0#12) BitVec.and_zero BitVec.and_zero BitVec.and_zero BitVec.zero_and BitVec.and_zero⟩

theorem tok (tok : BitVec 4) (n : BitVec 4) : Statement (.tok tok n) := by
  intro w h hw
  have e := (Option.some.inj h).symm
  obtain ⟨m, f22, f17, -, -, f0⟩ := fields_6_4_5_5_8_4 e
  exact ⟨0x1fff0#32, by rw [readForm_00 m]; unfold readMajor00; rw [f22, f17, f0]; rfl, mask_6_4_5_5_8_4 e (by decide : _ = 0#6 ++ 0#4 ++ 0#5 ++ 31#5 ++ 255#8 ++ 0#4) BitVec.and_zero BitVec.and_zero BitVec.and_zero BitVec.zero_and BitVec.zero_and BitVec.and_zero⟩

theorem pause (tok : BitVec 4) (t : BitVec 12) : Statement (.pause tok t) := by
  intro w h hw
  have e := (Option.some.inj h).symm
  obtain ⟨m, f22, f17, -, f0⟩ := fields_6_4_5_5_12 e
  exact ⟨0x1f000#32, by rw [readForm_00 m]; unfold readMajor00; rw [f22, f17, f0]; rfl, mask_6_4_5_5_12 e (by decide : _ = 0#6 ++ 0#4 ++ 0#5 ++ 31#5 ++ 0#12) BitVec.and_zero BitVec.and_zero BitVec.and_zero BitVec.zero_and BitVec.and_zero⟩

theorem loop (tok : BitVec 4) (n : BitVec 2) (len : BitVec 6) (count : BitVec 6) : Statement (.loop tok n len count) := by
  intro w h hw
  have e := (Option.some.inj h).symm
  obtain ⟨m, f22, f17, f15, f14, -, f6, f0⟩ := fields_6_4_5_2_1_2_6_6 e
  exact ⟨0x3000#32, by rw [readForm_01 m]; unfold readMajor01; rw [f22, f17, f15, f14, f6, f0]; rfl, mask_6_4_5_2_1_2_6_6 e (by decide : _ = 0#6 ++ 0#4 ++ 0#5 ++ 0#2 ++ 0#1 ++ 3#2 ++ 0#6 ++ 0#6) BitVec.and_zero BitVec.and_zero BitVec.and_zero BitVec.and_zero BitVec.and_zero BitVec.zero_and BitVec.and_zero BitVec.and_zero⟩

theorem loopR (tok : BitVec 4) (n : BitVec 2) (len : BitVec 6) : Statement (.loopR tok n len) := by
  intro w h hw
  have e := (Option.some.inj h).symm
  obtain ⟨m, f22, f17, f15, f14, -, f6, -⟩ := fields_6_4_5_2_1_2_6_6 e
  exact ⟨0x303f#32, by rw [readForm_01 m]; unfold readMajor01; rw [f22, f17, f15, f14, f6]; rfl, mask_6_4_5_2_1_2_6_6 e (by decide : _ = 0#6 ++ 0#4 ++ 0#5 ++ 0#2 ++ 0#1 ++ 3#2 ++ 0#6 ++ 63#6) BitVec.and_zero BitVec.and_zero BitVec.and_zero BitVec.and_zero BitVec.and_zero BitVec.zero_and BitVec.and_zero BitVec.zero_and⟩

theorem loopp (tok : BitVec 4) (n : BitVec 2) (p : BitVec 2) (d : BitVec 1) (len : BitVec 6) : Statement (.loopp tok n p d len) := by
  intro w h hw
  have e := (Option.some.inj h).symm
  obtain ⟨m, f22, f17, f15, f13, f12, f6, -⟩ := fields_6_4_5_2_2_1_6_6 e
  exact ⟨0x3f#32, by rw [readForm_01 m]; unfold readMajor01; rw [f22, f17, f15, f13, f12, f6]; rfl, mask_6_4_5_2_2_1_6_6 e (by decide : _ = 0#6 ++ 0#4 ++ 0#5 ++ 0#2 ++ 0#2 ++ 0#1 ++ 0#6 ++ 63#6) BitVec.and_zero BitVec.and_zero BitVec.and_zero BitVec.and_zero BitVec.and_zero BitVec.and_zero BitVec.and_zero BitVec.zero_and⟩

theorem loopr (tok : BitVec 4) (n : BitVec 2) (sm1 : BitVec 3) (len : BitVec 6) : Statement (.loopr tok n sm1 len) := by
  intro w h hw
  have e := (Option.some.inj h).symm
  obtain ⟨m, f22, f17, f15, f12, f6, -⟩ := fields_6_4_5_2_3_6_6 e
  exact ⟨0x3f#32, by rw [readForm_01 m]; unfold readMajor01; rw [f22, f17, f15, f12, f6]; rfl, mask_6_4_5_2_3_6_6 e (by decide : _ = 0#6 ++ 0#4 ++ 0#5 ++ 0#2 ++ 0#3 ++ 0#6 ++ 63#6) BitVec.and_zero BitVec.and_zero BitVec.and_zero BitVec.and_zero BitVec.and_zero BitVec.and_zero BitVec.zero_and⟩

theorem sj (tok : BitVec 4) (off : BitVec 12) : Statement (.sj tok off) := by
  intro w h hw
  have e := (Option.some.inj h).symm
  obtain ⟨m, f22, f17, -, f0⟩ := fields_6_4_5_5_12 e
  exact ⟨0x1f000#32, by rw [readForm_01 m]; unfold readMajor01; rw [f22, f17, f0]; rfl, mask_6_4_5_5_12 e (by decide : _ = 0#6 ++ 0#4 ++ 0#5 ++ 31#5 ++ 0#12) BitVec.and_zero BitVec.and_zero BitVec.and_zero BitVec.zero_and BitVec.and_zero⟩

theorem sjp (tok : BitVec 4) (off : BitVec 12) : Statement (.sjp tok off) := by
  intro w h hw
  have e := (Option.some.inj h).symm
  obtain ⟨m, f22, f17, -, f0⟩ := fields_6_4_5_5_12 e
  exact ⟨0x1f000#32, by rw [readForm_01 m]; unfold readMajor01; rw [f22, f17, f0]; rfl, mask_6_4_5_5_12 e (by decide : _ = 0#6 ++ 0#4 ++ 0#5 ++ 31#5 ++ 0#12) BitVec.and_zero BitVec.and_zero BitVec.and_zero BitVec.zero_and BitVec.and_zero⟩

theorem pelse (tok : BitVec 4) : Statement (.pelse tok) := by
  intro w h hw
  have e := (Option.some.inj h).symm
  obtain ⟨m, f22, f17, -, -⟩ := fields_6_4_5_5_12 e
  exact ⟨0x1ffff#32, by rw [readForm_02 m]; unfold readMajor02; rw [f22, f17]; rfl, mask_6_4_5_5_12 e (by decide : _ = 0#6 ++ 0#4 ++ 0#5 ++ 31#5 ++ 4095#12) BitVec.and_zero BitVec.and_zero BitVec.and_zero BitVec.zero_and BitVec.zero_and⟩

theorem ptrue (tok : BitVec 4) : Statement (.ptrue tok) := by
  intro w h hw
  have e := (Option.some.inj h).symm
  obtain ⟨m, f22, f17, -, -⟩ := fields_6_4_5_5_12 e
  exact ⟨0x1ffff#32, by rw [readForm_02 m]; unfold readMajor02; rw [f22, f17]; rfl, mask_6_4_5_5_12 e (by decide : _ = 0#6 ++ 0#4 ++ 0#5 ++ 31#5 ++ 4095#12) BitVec.and_zero BitVec.and_zero BitVec.and_zero BitVec.zero_and BitVec.zero_and⟩

theorem semset (tok : BitVec 4) (n : BitVec 5) (v : BitVec 12) : Statement (.semset tok n v) := by
  intro w h hw
  have e := (Option.some.inj h).symm
  obtain ⟨m, f22, f17, f12, f0⟩ := fields_6_4_5_5_12 e
  exact ⟨0#32, by rw [readForm_03 m]; unfold readMajor03; rw [f22, f17, f12, f0]; rfl, BitVec.and_zero⟩

theorem semadd (tok : BitVec 4) (n : BitVec 5) (d : BitVec 12) : Statement (.semadd tok n d) := by
  intro w h hw
  have e := (Option.some.inj h).symm
  obtain ⟨m, f22, f17, f12, f0⟩ := fields_6_4_5_5_12 e
  exact ⟨0#32, by rw [readForm_03 m]; unfold readMajor03; rw [f22, f17, f12, f0]; rfl, BitVec.and_zero⟩

theorem semwait (tok : BitVec 4) (n : BitVec 5) (v : BitVec 12) : Statement (.semwait tok n v) := by
  intro w h hw
  have e := (Option.some.inj h).symm
  obtain ⟨m, f22, f17, f12, f0⟩ := fields_6_4_5_5_12 e
  exact ⟨0#32, by rw [readForm_03 m]; unfold readMajor03; rw [f22, f17, f12, f0]; rfl, BitVec.and_zero⟩

theorem twany (tok : BitVec 4) (half : BitVec 5) (mask : BitVec 12) : Statement (.twany tok half mask) := by
  intro w h hw
  have e := (Option.some.inj h).symm
  obtain ⟨m, f22, f17, f12, f0⟩ := fields_6_4_5_5_12 e
  exact ⟨0#32, by rw [readForm_03 m]; unfold readMajor03; rw [f22, f17, f12, f0]; rfl, BitVec.and_zero⟩

theorem twall (tok : BitVec 4) (half : BitVec 5) (mask : BitVec 12) : Statement (.twall tok half mask) := by
  intro w h hw
  have e := (Option.some.inj h).symm
  obtain ⟨m, f22, f17, f12, f0⟩ := fields_6_4_5_5_12 e
  exact ⟨0#32, by rw [readForm_03 m]; unfold readMajor03; rw [f22, f17, f12, f0]; rfl, BitVec.and_zero⟩

theorem tffr (tok : BitVec 4) (half : BitVec 5) (mask : BitVec 12) : Statement (.tffr tok half mask) := by
  intro w h hw
  have e := (Option.some.inj h).symm
  obtain ⟨m, f22, f17, f12, f0⟩ := fields_6_4_5_5_12 e
  exact ⟨0#32, by rw [readForm_03 m]; unfold readMajor03; rw [f22, f17, f12, f0]; rfl, BitVec.and_zero⟩

theorem add (sd : BitVec 5) (sa : BitVec 5) (sb : BitVec 5) : Statement (.add sd sa sb) := by
  intro w h hw
  have e := (Option.some.inj h).symm
  obtain ⟨m, f21, f16, f11, -, f0⟩ := fields_6_5_5_5_6_5 e
  exact ⟨0x7e0#32, by rw [readForm_08 m]; unfold readMajor08; rw [f21, f16, f11, f0]; rfl, mask_6_5_5_5_6_5 e (by decide : _ = 0#6 ++ 0#5 ++ 0#5 ++ 0#5 ++ 63#6 ++ 0#5) BitVec.and_zero BitVec.and_zero BitVec.and_zero BitVec.and_zero BitVec.zero_and BitVec.and_zero⟩

theorem sub (sd : BitVec 5) (sa : BitVec 5) (sb : BitVec 5) : Statement (.sub sd sa sb) := by
  intro w h hw
  have e := (Option.some.inj h).symm
  obtain ⟨m, f21, f16, f11, -, f0⟩ := fields_6_5_5_5_6_5 e
  exact ⟨0x7e0#32, by rw [readForm_08 m]; unfold readMajor08; rw [f21, f16, f11, f0]; rfl, mask_6_5_5_5_6_5 e (by decide : _ = 0#6 ++ 0#5 ++ 0#5 ++ 0#5 ++ 63#6 ++ 0#5) BitVec.and_zero BitVec.and_zero BitVec.and_zero BitVec.and_zero BitVec.zero_and BitVec.and_zero⟩

theorem and (sd : BitVec 5) (sa : BitVec 5) (sb : BitVec 5) : Statement (.and sd sa sb) := by
  intro w h hw
  have e := (Option.some.inj h).symm
  obtain ⟨m, f21, f16, f11, -, f0⟩ := fields_6_5_5_5_6_5 e
  exact ⟨0x7e0#32, by rw [readForm_08 m]; unfold readMajor08; rw [f21, f16, f11, f0]; rfl, mask_6_5_5_5_6_5 e (by decide : _ = 0#6 ++ 0#5 ++ 0#5 ++ 0#5 ++ 63#6 ++ 0#5) BitVec.and_zero BitVec.and_zero BitVec.and_zero BitVec.and_zero BitVec.zero_and BitVec.and_zero⟩

theorem or (sd : BitVec 5) (sa : BitVec 5) (sb : BitVec 5) : Statement (.or sd sa sb) := by
  intro w h hw
  have e := (Option.some.inj h).symm
  obtain ⟨m, f21, f16, f11, -, f0⟩ := fields_6_5_5_5_6_5 e
  exact ⟨0x7e0#32, by rw [readForm_08 m]; unfold readMajor08; rw [f21, f16, f11, f0]; rfl, mask_6_5_5_5_6_5 e (by decide : _ = 0#6 ++ 0#5 ++ 0#5 ++ 0#5 ++ 63#6 ++ 0#5) BitVec.and_zero BitVec.and_zero BitVec.and_zero BitVec.and_zero BitVec.zero_and BitVec.and_zero⟩

theorem xor (sd : BitVec 5) (sa : BitVec 5) (sb : BitVec 5) : Statement (.xor sd sa sb) := by
  intro w h hw
  have e := (Option.some.inj h).symm
  obtain ⟨m, f21, f16, f11, -, f0⟩ := fields_6_5_5_5_6_5 e
  exact ⟨0x7e0#32, by rw [readForm_08 m]; unfold readMajor08; rw [f21, f16, f11, f0]; rfl, mask_6_5_5_5_6_5 e (by decide : _ = 0#6 ++ 0#5 ++ 0#5 ++ 0#5 ++ 63#6 ++ 0#5) BitVec.and_zero BitVec.and_zero BitVec.and_zero BitVec.and_zero BitVec.zero_and BitVec.and_zero⟩

theorem min (sd : BitVec 5) (sa : BitVec 5) (sb : BitVec 5) (u : BitVec 1) : Statement (.min sd sa sb u) := by
  intro w h hw
  have e := (Option.some.inj h).symm
  obtain ⟨m, f21, f16, f11, -, f5, f0⟩ := fields_6_5_5_5_5_1_5 e
  exact ⟨0x7c0#32, by rw [readForm_08 m]; unfold readMajor08; rw [f21, f16, f11, f5, f0]; rfl, mask_6_5_5_5_5_1_5 e (by decide : _ = 0#6 ++ 0#5 ++ 0#5 ++ 0#5 ++ 31#5 ++ 0#1 ++ 0#5) BitVec.and_zero BitVec.and_zero BitVec.and_zero BitVec.and_zero BitVec.zero_and BitVec.and_zero BitVec.and_zero⟩

theorem max (sd : BitVec 5) (sa : BitVec 5) (sb : BitVec 5) (u : BitVec 1) : Statement (.max sd sa sb u) := by
  intro w h hw
  have e := (Option.some.inj h).symm
  obtain ⟨m, f21, f16, f11, -, f5, f0⟩ := fields_6_5_5_5_5_1_5 e
  exact ⟨0x7c0#32, by rw [readForm_08 m]; unfold readMajor08; rw [f21, f16, f11, f5, f0]; rfl, mask_6_5_5_5_5_1_5 e (by decide : _ = 0#6 ++ 0#5 ++ 0#5 ++ 0#5 ++ 31#5 ++ 0#1 ++ 0#5) BitVec.and_zero BitVec.and_zero BitVec.and_zero BitVec.and_zero BitVec.zero_and BitVec.and_zero BitVec.and_zero⟩

theorem slt (sd : BitVec 5) (sa : BitVec 5) (sb : BitVec 5) (u : BitVec 1) : Statement (.slt sd sa sb u) := by
  intro w h hw
  have e := (Option.some.inj h).symm
  obtain ⟨m, f21, f16, f11, -, f5, f0⟩ := fields_6_5_5_5_5_1_5 e
  exact ⟨0x7c0#32, by rw [readForm_08 m]; unfold readMajor08; rw [f21, f16, f11, f5, f0]; rfl, mask_6_5_5_5_5_1_5 e (by decide : _ = 0#6 ++ 0#5 ++ 0#5 ++ 0#5 ++ 31#5 ++ 0#1 ++ 0#5) BitVec.and_zero BitVec.and_zero BitVec.and_zero BitVec.and_zero BitVec.zero_and BitVec.and_zero BitVec.and_zero⟩

theorem sel (sd : BitVec 5) (sa : BitVec 5) (sb : BitVec 5) : Statement (.sel sd sa sb) := by
  intro w h hw
  have e := (Option.some.inj h).symm
  obtain ⟨m, f21, f16, f11, -, f0⟩ := fields_6_5_5_5_6_5 e
  exact ⟨0x7e0#32, by rw [readForm_08 m]; unfold readMajor08; rw [f21, f16, f11, f0]; rfl, mask_6_5_5_5_6_5 e (by decide : _ = 0#6 ++ 0#5 ++ 0#5 ++ 0#5 ++ 63#6 ++ 0#5) BitVec.and_zero BitVec.and_zero BitVec.and_zero BitVec.and_zero BitVec.zero_and BitVec.and_zero⟩

theorem addi (sd : BitVec 5) (sa : BitVec 5) (imm : BitVec 13) : Statement (.addi sd sa imm) := by
  intro w h hw
  have e := (Option.some.inj h).symm
  obtain ⟨m, f21, f16, f13, f0⟩ := fields_6_5_5_3_13 e
  exact ⟨0#32, by rw [readForm_09 m]; unfold readMajor09; rw [f21, f16, f13, f0]; rfl, BitVec.and_zero⟩

theorem andi (sd : BitVec 5) (sa : BitVec 5) (imm : BitVec 13) : Statement (.andi sd sa imm) := by
  intro w h hw
  have e := (Option.some.inj h).symm
  obtain ⟨m, f21, f16, f13, f0⟩ := fields_6_5_5_3_13 e
  exact ⟨0#32, by rw [readForm_09 m]; unfold readMajor09; rw [f21, f16, f13, f0]; rfl, BitVec.and_zero⟩

theorem ori (sd : BitVec 5) (sa : BitVec 5) (imm : BitVec 13) : Statement (.ori sd sa imm) := by
  intro w h hw
  have e := (Option.some.inj h).symm
  obtain ⟨m, f21, f16, f13, f0⟩ := fields_6_5_5_3_13 e
  exact ⟨0#32, by rw [readForm_09 m]; unfold readMajor09; rw [f21, f16, f13, f0]; rfl, BitVec.and_zero⟩

theorem xori (sd : BitVec 5) (sa : BitVec 5) (imm : BitVec 13) : Statement (.xori sd sa imm) := by
  intro w h hw
  have e := (Option.some.inj h).symm
  obtain ⟨m, f21, f16, f13, f0⟩ := fields_6_5_5_3_13 e
  exact ⟨0#32, by rw [readForm_09 m]; unfold readMajor09; rw [f21, f16, f13, f0]; rfl, BitVec.and_zero⟩

theorem slti (sd : BitVec 5) (sa : BitVec 5) (imm : BitVec 13) : Statement (.slti sd sa imm) := by
  intro w h hw
  have e := (Option.some.inj h).symm
  obtain ⟨m, f21, f16, f13, f0⟩ := fields_6_5_5_3_13 e
  exact ⟨0#32, by rw [readForm_09 m]; unfold readMajor09; rw [f21, f16, f13, f0]; rfl, BitVec.and_zero⟩

theorem sltiU (sd : BitVec 5) (sa : BitVec 5) (imm : BitVec 13) : Statement (.sltiU sd sa imm) := by
  intro w h hw
  have e := (Option.some.inj h).symm
  obtain ⟨m, f21, f16, f13, f0⟩ := fields_6_5_5_3_13 e
  exact ⟨0#32, by rw [readForm_09 m]; unfold readMajor09; rw [f21, f16, f13, f0]; rfl, BitVec.and_zero⟩

theorem sll (sd : BitVec 5) (sa : BitVec 5) (sb : BitVec 5) : Statement (.sll sd sa sb) := by
  intro w h hw
  have e := (Option.some.inj h).symm
  obtain ⟨m, f21, f16, f11, -, f0⟩ := fields_6_5_5_5_6_5 e
  exact ⟨0x7e0#32, by rw [readForm_0A m]; unfold readMajor0A; rw [f21, f16, f11, f0]; exact if_neg fun c => by subst c; exact Bool.false_ne_true hw, mask_6_5_5_5_6_5 e (by decide : _ = 0#6 ++ 0#5 ++ 0#5 ++ 0#5 ++ 63#6 ++ 0#5) BitVec.and_zero BitVec.and_zero BitVec.and_zero BitVec.and_zero BitVec.zero_and BitVec.and_zero⟩

theorem sllImm (sd : BitVec 5) (sa : BitVec 5) (n : BitVec 6) : Statement (.sllImm sd sa n) := by
  intro w h hw
  have e := (Option.some.inj h).symm
  obtain ⟨m, f21, f16, f11, f5, f0⟩ := fields_6_5_5_5_6_5 e
  exact ⟨0#32, by rw [readForm_0A m]; unfold readMajor0A; rw [f21, f16, f11, f5, f0]; rfl, BitVec.and_zero⟩

theorem srl (sd : BitVec 5) (sa : BitVec 5) (sb : BitVec 5) : Statement (.srl sd sa sb) := by
  intro w h hw
  have e := (Option.some.inj h).symm
  obtain ⟨m, f21, f16, f11, -, f0⟩ := fields_6_5_5_5_6_5 e
  exact ⟨0x7e0#32, by rw [readForm_0A m]; unfold readMajor0A; rw [f21, f16, f11, f0]; exact if_neg fun c => by subst c; exact Bool.false_ne_true hw, mask_6_5_5_5_6_5 e (by decide : _ = 0#6 ++ 0#5 ++ 0#5 ++ 0#5 ++ 63#6 ++ 0#5) BitVec.and_zero BitVec.and_zero BitVec.and_zero BitVec.and_zero BitVec.zero_and BitVec.and_zero⟩

theorem srlImm (sd : BitVec 5) (sa : BitVec 5) (n : BitVec 6) : Statement (.srlImm sd sa n) := by
  intro w h hw
  have e := (Option.some.inj h).symm
  obtain ⟨m, f21, f16, f11, f5, f0⟩ := fields_6_5_5_5_6_5 e
  exact ⟨0#32, by rw [readForm_0A m]; unfold readMajor0A; rw [f21, f16, f11, f5, f0]; rfl, BitVec.and_zero⟩

theorem sra (sd : BitVec 5) (sa : BitVec 5) (sb : BitVec 5) : Statement (.sra sd sa sb) := by
  intro w h hw
  have e := (Option.some.inj h).symm
  obtain ⟨m, f21, f16, f11, -, f0⟩ := fields_6_5_5_5_6_5 e
  exact ⟨0x7e0#32, by rw [readForm_0A m]; unfold readMajor0A; rw [f21, f16, f11, f0]; exact if_neg fun c => by subst c; exact Bool.false_ne_true hw, mask_6_5_5_5_6_5 e (by decide : _ = 0#6 ++ 0#5 ++ 0#5 ++ 0#5 ++ 63#6 ++ 0#5) BitVec.and_zero BitVec.and_zero BitVec.and_zero BitVec.and_zero BitVec.zero_and BitVec.and_zero⟩

theorem sraImm (sd : BitVec 5) (sa : BitVec 5) (n : BitVec 6) : Statement (.sraImm sd sa n) := by
  intro w h hw
  have e := (Option.some.inj h).symm
  obtain ⟨m, f21, f16, f11, f5, f0⟩ := fields_6_5_5_5_6_5 e
  exact ⟨0#32, by rw [readForm_0A m]; unfold readMajor0A; rw [f21, f16, f11, f5, f0]; rfl, BitVec.and_zero⟩

theorem clz (sd : BitVec 5) (sa : BitVec 5) (w : BitVec 1) : Statement (.clz sd sa w) := by
  intro w h hw
  have e := (Option.some.inj h).symm
  obtain ⟨m, f21, f16, -, -, f5, f0⟩ := fields_6_5_5_5_5_1_5 e
  exact ⟨0xffc0#32, by rw [readForm_0A m]; unfold readMajor0A; rw [f21, f16, f5, f0]; rfl, mask_6_5_5_5_5_1_5 e (by decide : _ = 0#6 ++ 0#5 ++ 0#5 ++ 31#5 ++ 31#5 ++ 0#1 ++ 0#5) BitVec.and_zero BitVec.and_zero BitVec.and_zero BitVec.zero_and BitVec.zero_and BitVec.and_zero BitVec.and_zero⟩

theorem ctz (sd : BitVec 5) (sa : BitVec 5) (w : BitVec 1) : Statement (.ctz sd sa w) := by
  intro w h hw
  have e := (Option.some.inj h).symm
  obtain ⟨m, f21, f16, -, -, f5, f0⟩ := fields_6_5_5_5_5_1_5 e
  exact ⟨0xffc0#32, by rw [readForm_0A m]; unfold readMajor0A; rw [f21, f16, f5, f0]; rfl, mask_6_5_5_5_5_1_5 e (by decide : _ = 0#6 ++ 0#5 ++ 0#5 ++ 31#5 ++ 31#5 ++ 0#1 ++ 0#5) BitVec.and_zero BitVec.and_zero BitVec.and_zero BitVec.zero_and BitVec.zero_and BitVec.and_zero BitVec.and_zero⟩

theorem popc (sd : BitVec 5) (sa : BitVec 5) (w : BitVec 1) : Statement (.popc sd sa w) := by
  intro w h hw
  have e := (Option.some.inj h).symm
  obtain ⟨m, f21, f16, -, -, f5, f0⟩ := fields_6_5_5_5_5_1_5 e
  exact ⟨0xffc0#32, by rw [readForm_0A m]; unfold readMajor0A; rw [f21, f16, f5, f0]; rfl, mask_6_5_5_5_5_1_5 e (by decide : _ = 0#6 ++ 0#5 ++ 0#5 ++ 31#5 ++ 31#5 ++ 0#1 ++ 0#5) BitVec.and_zero BitVec.and_zero BitVec.and_zero BitVec.zero_and BitVec.zero_and BitVec.and_zero BitVec.and_zero⟩

theorem bext (sd : BitVec 5) (sa : BitVec 5) (sb : BitVec 5) (wm1 : BitVec 6) : Statement (.bext sd sa sb wm1) := by
  intro w h hw
  have e := (Option.some.inj h).symm
  obtain ⟨m, f21, f16, f11, f5, f0⟩ := fields_6_5_5_5_6_5 e
  exact ⟨0#32, by rw [readForm_0A m]; unfold readMajor0A; rw [f21, f16, f11, f5, f0]; rfl, BitVec.and_zero⟩

theorem bins (sd : BitVec 5) (sa : BitVec 5) (sb : BitVec 5) (wm1 : BitVec 6) : Statement (.bins sd sa sb wm1) := by
  intro w h hw
  have e := (Option.some.inj h).symm
  obtain ⟨m, f21, f16, f11, f5, f0⟩ := fields_6_5_5_5_6_5 e
  exact ⟨0#32, by rw [readForm_0A m]; unfold readMajor0A; rw [f21, f16, f11, f5, f0]; rfl, BitVec.and_zero⟩

theorem mul (sd : BitVec 5) (sa : BitVec 5) (sb : BitVec 5) : Statement (.mul sd sa sb) := by
  intro w h hw
  have e := (Option.some.inj h).symm
  obtain ⟨m, f21, f16, f11, -, f0⟩ := fields_6_5_5_5_6_5 e
  exact ⟨0x7e0#32, by rw [readForm_0B m]; unfold readMajor0B; rw [f21, f16, f11, f0]; rfl, mask_6_5_5_5_6_5 e (by decide : _ = 0#6 ++ 0#5 ++ 0#5 ++ 0#5 ++ 63#6 ++ 0#5) BitVec.and_zero BitVec.and_zero BitVec.and_zero BitVec.and_zero BitVec.zero_and BitVec.and_zero⟩

theorem mulh (sd : BitVec 5) (sa : BitVec 5) (sb : BitVec 5) (u : BitVec 1) : Statement (.mulh sd sa sb u) := by
  intro w h hw
  have e := (Option.some.inj h).symm
  obtain ⟨m, f21, f16, f11, -, f5, f0⟩ := fields_6_5_5_5_5_1_5 e
  exact ⟨0x7c0#32, by rw [readForm_0B m]; unfold readMajor0B; rw [f21, f16, f11, f5, f0]; rfl, mask_6_5_5_5_5_1_5 e (by decide : _ = 0#6 ++ 0#5 ++ 0#5 ++ 0#5 ++ 31#5 ++ 0#1 ++ 0#5) BitVec.and_zero BitVec.and_zero BitVec.and_zero BitVec.and_zero BitVec.zero_and BitVec.and_zero BitVec.and_zero⟩

theorem div (sd : BitVec 5) (sa : BitVec 5) (sb : BitVec 5) (u : BitVec 1) : Statement (.div sd sa sb u) := by
  intro w h hw
  have e := (Option.some.inj h).symm
  obtain ⟨m, f21, f16, f11, -, f5, f0⟩ := fields_6_5_5_5_5_1_5 e
  exact ⟨0x7c0#32, by rw [readForm_0B m]; unfold readMajor0B; rw [f21, f16, f11, f5, f0]; rfl, mask_6_5_5_5_5_1_5 e (by decide : _ = 0#6 ++ 0#5 ++ 0#5 ++ 0#5 ++ 31#5 ++ 0#1 ++ 0#5) BitVec.and_zero BitVec.and_zero BitVec.and_zero BitVec.and_zero BitVec.zero_and BitVec.and_zero BitVec.and_zero⟩

theorem rem (sd : BitVec 5) (sa : BitVec 5) (sb : BitVec 5) (u : BitVec 1) : Statement (.rem sd sa sb u) := by
  intro w h hw
  have e := (Option.some.inj h).symm
  obtain ⟨m, f21, f16, f11, -, f5, f0⟩ := fields_6_5_5_5_5_1_5 e
  exact ⟨0x7c0#32, by rw [readForm_0B m]; unfold readMajor0B; rw [f21, f16, f11, f5, f0]; rfl, mask_6_5_5_5_5_1_5 e (by decide : _ = 0#6 ++ 0#5 ++ 0#5 ++ 0#5 ++ 31#5 ++ 0#1 ++ 0#5) BitVec.and_zero BitVec.and_zero BitVec.and_zero BitVec.and_zero BitVec.zero_and BitVec.and_zero BitVec.and_zero⟩

theorem fadd (sd : BitVec 5) (sa : BitVec 5) (sb : BitVec 5) (rm : BitVec 3) (d : BitVec 1) : Statement (.fadd sd sa sb rm d) := by
  intro w h hw
  have e := (Option.some.inj h).symm
  obtain ⟨m, f21, f16, f11, -, f6, f5, f0⟩ := fields_6_5_5_5_2_3_1_5 e
  exact ⟨0x600#32, by rw [readForm_0C m]; unfold readMajor0C; rw [f21, f16, f11, f6, f5, f0]; rfl, mask_6_5_5_5_2_3_1_5 e (by decide : _ = 0#6 ++ 0#5 ++ 0#5 ++ 0#5 ++ 3#2 ++ 0#3 ++ 0#1 ++ 0#5) BitVec.and_zero BitVec.and_zero BitVec.and_zero BitVec.and_zero BitVec.zero_and BitVec.and_zero BitVec.and_zero BitVec.and_zero⟩

theorem fsub (sd : BitVec 5) (sa : BitVec 5) (sb : BitVec 5) (rm : BitVec 3) (d : BitVec 1) : Statement (.fsub sd sa sb rm d) := by
  intro w h hw
  have e := (Option.some.inj h).symm
  obtain ⟨m, f21, f16, f11, -, f6, f5, f0⟩ := fields_6_5_5_5_2_3_1_5 e
  exact ⟨0x600#32, by rw [readForm_0C m]; unfold readMajor0C; rw [f21, f16, f11, f6, f5, f0]; rfl, mask_6_5_5_5_2_3_1_5 e (by decide : _ = 0#6 ++ 0#5 ++ 0#5 ++ 0#5 ++ 3#2 ++ 0#3 ++ 0#1 ++ 0#5) BitVec.and_zero BitVec.and_zero BitVec.and_zero BitVec.and_zero BitVec.zero_and BitVec.and_zero BitVec.and_zero BitVec.and_zero⟩

theorem fmul (sd : BitVec 5) (sa : BitVec 5) (sb : BitVec 5) (rm : BitVec 3) (d : BitVec 1) : Statement (.fmul sd sa sb rm d) := by
  intro w h hw
  have e := (Option.some.inj h).symm
  obtain ⟨m, f21, f16, f11, -, f6, f5, f0⟩ := fields_6_5_5_5_2_3_1_5 e
  exact ⟨0x600#32, by rw [readForm_0C m]; unfold readMajor0C; rw [f21, f16, f11, f6, f5, f0]; rfl, mask_6_5_5_5_2_3_1_5 e (by decide : _ = 0#6 ++ 0#5 ++ 0#5 ++ 0#5 ++ 3#2 ++ 0#3 ++ 0#1 ++ 0#5) BitVec.and_zero BitVec.and_zero BitVec.and_zero BitVec.and_zero BitVec.zero_and BitVec.and_zero BitVec.and_zero BitVec.and_zero⟩

theorem fdiv (sd : BitVec 5) (sa : BitVec 5) (sb : BitVec 5) (rm : BitVec 3) (d : BitVec 1) : Statement (.fdiv sd sa sb rm d) := by
  intro w h hw
  have e := (Option.some.inj h).symm
  obtain ⟨m, f21, f16, f11, -, f6, f5, f0⟩ := fields_6_5_5_5_2_3_1_5 e
  exact ⟨0x600#32, by rw [readForm_0C m]; unfold readMajor0C; rw [f21, f16, f11, f6, f5, f0]; rfl, mask_6_5_5_5_2_3_1_5 e (by decide : _ = 0#6 ++ 0#5 ++ 0#5 ++ 0#5 ++ 3#2 ++ 0#3 ++ 0#1 ++ 0#5) BitVec.and_zero BitVec.and_zero BitVec.and_zero BitVec.and_zero BitVec.zero_and BitVec.and_zero BitVec.and_zero BitVec.and_zero⟩

theorem fsqrt (sd : BitVec 5) (sa : BitVec 5) (rm : BitVec 3) (d : BitVec 1) : Statement (.fsqrt sd sa rm d) := by
  intro w h hw
  have e := (Option.some.inj h).symm
  obtain ⟨m, f21, f16, -, -, f6, f5, f0⟩ := fields_6_5_5_5_2_3_1_5 e
  exact ⟨0xfe00#32, by rw [readForm_0C m]; unfold readMajor0C; rw [f21, f16, f6, f5, f0]; rfl, mask_6_5_5_5_2_3_1_5 e (by decide : _ = 0#6 ++ 0#5 ++ 0#5 ++ 31#5 ++ 3#2 ++ 0#3 ++ 0#1 ++ 0#5) BitVec.and_zero BitVec.and_zero BitVec.and_zero BitVec.zero_and BitVec.zero_and BitVec.and_zero BitVec.and_zero BitVec.and_zero⟩

theorem fma (sd : BitVec 5) (sa : BitVec 5) (sb : BitVec 5) (rm : BitVec 3) (d : BitVec 1) : Statement (.fma sd sa sb rm d) := by
  intro w h hw
  have e := (Option.some.inj h).symm
  obtain ⟨m, f21, f16, f11, -, f6, f5, f0⟩ := fields_6_5_5_5_2_3_1_5 e
  exact ⟨0x600#32, by rw [readForm_0C m]; unfold readMajor0C; rw [f21, f16, f11, f6, f5, f0]; rfl, mask_6_5_5_5_2_3_1_5 e (by decide : _ = 0#6 ++ 0#5 ++ 0#5 ++ 0#5 ++ 3#2 ++ 0#3 ++ 0#1 ++ 0#5) BitVec.and_zero BitVec.and_zero BitVec.and_zero BitVec.and_zero BitVec.zero_and BitVec.and_zero BitVec.and_zero BitVec.and_zero⟩

theorem fcvt (sd : BitVec 5) (sa : BitVec 5) (m : BitVec 2) (rm : BitVec 3) (d : BitVec 1) : Statement (.fcvt sd sa m rm d) := by
  intro w h hw
  have e := (Option.some.inj h).symm
  obtain ⟨m, f21, f16, -, f9, f6, f5, f0⟩ := fields_6_5_5_5_2_3_1_5 e
  exact ⟨0xf800#32, by rw [readForm_0C m]; unfold readMajor0C; rw [f21, f16, f9, f6, f5, f0]; rfl, mask_6_5_5_5_2_3_1_5 e (by decide : _ = 0#6 ++ 0#5 ++ 0#5 ++ 31#5 ++ 0#2 ++ 0#3 ++ 0#1 ++ 0#5) BitVec.and_zero BitVec.and_zero BitVec.and_zero BitVec.zero_and BitVec.and_zero BitVec.and_zero BitVec.and_zero BitVec.and_zero⟩

theorem peq (sa : BitVec 5) (sb : BitVec 5) : Statement (.peq sa sb) := by
  intro w h hw
  have e := (Option.some.inj h).symm
  obtain ⟨m, -, f16, f11, -, f0⟩ := fields_6_5_5_5_6_5 e
  exact ⟨0x3e007e0#32, by rw [readForm_0D m]; unfold readMajor0D; rw [f16, f11, f0]; rfl, mask_6_5_5_5_6_5 e (by decide : _ = 0#6 ++ 31#5 ++ 0#5 ++ 0#5 ++ 63#6 ++ 0#5) BitVec.and_zero BitVec.zero_and BitVec.and_zero BitVec.and_zero BitVec.zero_and BitVec.and_zero⟩

theorem pne (sa : BitVec 5) (sb : BitVec 5) : Statement (.pne sa sb) := by
  intro w h hw
  have e := (Option.some.inj h).symm
  obtain ⟨m, -, f16, f11, -, f0⟩ := fields_6_5_5_5_6_5 e
  exact ⟨0x3e007e0#32, by rw [readForm_0D m]; unfold readMajor0D; rw [f16, f11, f0]; rfl, mask_6_5_5_5_6_5 e (by decide : _ = 0#6 ++ 31#5 ++ 0#5 ++ 0#5 ++ 63#6 ++ 0#5) BitVec.and_zero BitVec.zero_and BitVec.and_zero BitVec.and_zero BitVec.zero_and BitVec.and_zero⟩

theorem plt (sa : BitVec 5) (sb : BitVec 5) (u : BitVec 1) : Statement (.plt sa sb u) := by
  intro w h hw
  have e := (Option.some.inj h).symm
  obtain ⟨m, -, f16, f11, -, f5, f0⟩ := fields_6_5_5_5_5_1_5 e
  exact ⟨0x3e007c0#32, by rw [readForm_0D m]; unfold readMajor0D; rw [f16, f11, f5, f0]; rfl, mask_6_5_5_5_5_1_5 e (by decide : _ = 0#6 ++ 31#5 ++ 0#5 ++ 0#5 ++ 31#5 ++ 0#1 ++ 0#5) BitVec.and_zero BitVec.zero_and BitVec.and_zero BitVec.and_zero BitVec.zero_and BitVec.and_zero BitVec.and_zero⟩

theorem pge (sa : BitVec 5) (sb : BitVec 5) (u : BitVec 1) : Statement (.pge sa sb u) := by
  intro w h hw
  have e := (Option.some.inj h).symm
  obtain ⟨m, -, f16, f11, -, f5, f0⟩ := fields_6_5_5_5_5_1_5 e
  exact ⟨0x3e007c0#32, by rw [readForm_0D m]; unfold readMajor0D; rw [f16, f11, f5, f0]; rfl, mask_6_5_5_5_5_1_5 e (by decide : _ = 0#6 ++ 31#5 ++ 0#5 ++ 0#5 ++ 31#5 ++ 0#1 ++ 0#5) BitVec.and_zero BitVec.zero_and BitVec.and_zero BitVec.and_zero BitVec.zero_and BitVec.and_zero BitVec.and_zero⟩

theorem pfeq (sa : BitVec 5) (sb : BitVec 5) (d : BitVec 1) : Statement (.pfeq sa sb d) := by
  intro w h hw
  have e := (Option.some.inj h).symm
  obtain ⟨m, -, f16, f11, -, f5, f0⟩ := fields_6_5_5_5_5_1_5 e
  exact ⟨0x3e007c0#32, by rw [readForm_0D m]; unfold readMajor0D; rw [f16, f11, f5, f0]; rfl, mask_6_5_5_5_5_1_5 e (by decide : _ = 0#6 ++ 31#5 ++ 0#5 ++ 0#5 ++ 31#5 ++ 0#1 ++ 0#5) BitVec.and_zero BitVec.zero_and BitVec.and_zero BitVec.and_zero BitVec.zero_and BitVec.and_zero BitVec.and_zero⟩

theorem pflt (sa : BitVec 5) (sb : BitVec 5) (d : BitVec 1) : Statement (.pflt sa sb d) := by
  intro w h hw
  have e := (Option.some.inj h).symm
  obtain ⟨m, -, f16, f11, -, f5, f0⟩ := fields_6_5_5_5_5_1_5 e
  exact ⟨0x3e007c0#32, by rw [readForm_0D m]; unfold readMajor0D; rw [f16, f11, f5, f0]; rfl, mask_6_5_5_5_5_1_5 e (by decide : _ = 0#6 ++ 31#5 ++ 0#5 ++ 0#5 ++ 31#5 ++ 0#1 ++ 0#5) BitVec.and_zero BitVec.zero_and BitVec.and_zero BitVec.and_zero BitVec.zero_and BitVec.and_zero BitVec.and_zero⟩

theorem pfle (sa : BitVec 5) (sb : BitVec 5) (d : BitVec 1) : Statement (.pfle sa sb d) := by
  intro w h hw
  have e := (Option.some.inj h).symm
  obtain ⟨m, -, f16, f11, -, f5, f0⟩ := fields_6_5_5_5_5_1_5 e
  exact ⟨0x3e007c0#32, by rw [readForm_0D m]; unfold readMajor0D; rw [f16, f11, f5, f0]; rfl, mask_6_5_5_5_5_1_5 e (by decide : _ = 0#6 ++ 31#5 ++ 0#5 ++ 0#5 ++ 31#5 ++ 0#1 ++ 0#5) BitVec.and_zero BitVec.zero_and BitVec.and_zero BitVec.and_zero BitVec.zero_and BitVec.and_zero BitVec.and_zero⟩

theorem lis (sd : BitVec 5) (imm : BitVec 13) : Statement (.lis sd imm) := by
  intro w h hw
  have e := (Option.some.inj h).symm
  obtain ⟨m, f21, -, f13, f0⟩ := fields_6_5_5_3_13 e
  exact ⟨0x1f0000#32, by rw [readForm_0E m]; unfold readMajor0E; rw [f21, f13, f0]; rfl, mask_6_5_5_3_13 e (by decide : _ = 0#6 ++ 0#5 ++ 31#5 ++ 0#3 ++ 0#13) BitVec.and_zero BitVec.and_zero BitVec.zero_and BitVec.and_zero BitVec.and_zero⟩

theorem lsh (sd : BitVec 5) (imm : BitVec 13) : Statement (.lsh sd imm) := by
  intro w h hw
  have e := (Option.some.inj h).symm
  obtain ⟨m, f21, -, f13, f0⟩ := fields_6_5_5_3_13 e
  exact ⟨0x1f0000#32, by rw [readForm_0E m]; unfold readMajor0E; rw [f21, f13, f0]; rfl, mask_6_5_5_3_13 e (by decide : _ = 0#6 ++ 0#5 ++ 31#5 ++ 0#3 ++ 0#13) BitVec.and_zero BitVec.and_zero BitVec.zero_and BitVec.and_zero BitVec.and_zero⟩

theorem mfcr (sd : BitVec 5) (cr : BitVec 11) : Statement (.mfcr sd cr) := by
  intro w h hw
  have e := (Option.some.inj h).symm
  obtain ⟨m, f21, -, f5, f0⟩ := fields_6_5_5_11_5 e
  exact ⟨0x1f0000#32, by rw [readForm_0F m]; unfold readMajor0F; rw [f21, f5, f0]; rfl, mask_6_5_5_11_5 e (by decide : _ = 0#6 ++ 0#5 ++ 31#5 ++ 0#11 ++ 0#5) BitVec.and_zero BitVec.and_zero BitVec.zero_and BitVec.and_zero BitVec.and_zero⟩

theorem mtcr (sa : BitVec 5) (cr : BitVec 11) : Statement (.mtcr sa cr) := by
  intro w h hw
  have e := (Option.some.inj h).symm
  obtain ⟨m, -, f16, f5, f0⟩ := fields_6_5_5_11_5 e
  exact ⟨0x3e00000#32, by rw [readForm_0F m]; unfold readMajor0F; rw [f16, f5, f0]; rfl, mask_6_5_5_11_5 e (by decide : _ = 0#6 ++ 31#5 ++ 0#5 ++ 0#11 ++ 0#5) BitVec.and_zero BitVec.zero_and BitVec.and_zero BitVec.and_zero BitVec.and_zero⟩

theorem mtcrs (sa : BitVec 5) (cr : BitVec 11) : Statement (.mtcrs sa cr) := by
  intro w h hw
  have e := (Option.some.inj h).symm
  obtain ⟨m, -, f16, f5, f0⟩ := fields_6_5_5_11_5 e
  exact ⟨0x3e00000#32, by rw [readForm_0F m]; unfold readMajor0F; rw [f16, f5, f0]; rfl, mask_6_5_5_11_5 e (by decide : _ = 0#6 ++ 31#5 ++ 0#5 ++ 0#11 ++ 0#5) BitVec.and_zero BitVec.zero_and BitVec.and_zero BitVec.and_zero BitVec.and_zero⟩

theorem mtcrc (sa : BitVec 5) (cr : BitVec 11) : Statement (.mtcrc sa cr) := by
  intro w h hw
  have e := (Option.some.inj h).symm
  obtain ⟨m, -, f16, f5, f0⟩ := fields_6_5_5_11_5 e
  exact ⟨0x3e00000#32, by rw [readForm_0F m]; unfold readMajor0F; rw [f16, f5, f0]; rfl, mask_6_5_5_11_5 e (by decide : _ = 0#6 ++ 31#5 ++ 0#5 ++ 0#11 ++ 0#5) BitVec.and_zero BitVec.zero_and BitVec.and_zero BitVec.and_zero BitVec.and_zero⟩

theorem ld (sd : BitVec 5) (sa : BitVec 5) (oc : BitVec 4) (sz : BitVec 2) (off : BitVec 9) : Statement (.ld sd sa oc sz off) := by
  intro w h hw
  have e := (Option.some.inj h).symm
  obtain ⟨m, f21, f16, f12, f11, f9, f0⟩ := fields_6_5_5_4_1_2_9 e
  exact ⟨0#32, by rw [readForm_10 m]; unfold readMajor10; rw [f21, f16, f12, f11, f9, f0]; rfl, BitVec.and_zero⟩

theorem ldu (sd : BitVec 5) (sa : BitVec 5) (oc : BitVec 4) (sz : BitVec 2) (off : BitVec 9) : Statement (.ldu sd sa oc sz off) := by
  intro w h hw
  have e := (Option.some.inj h).symm
  obtain ⟨m, f21, f16, f12, f11, f9, f0⟩ := fields_6_5_5_4_1_2_9 e
  exact ⟨0#32, by rw [readForm_10 m]; unfold readMajor10; rw [f21, f16, f12, f11, f9, f0]; exact if_neg fun c => by subst c; exact Bool.false_ne_true hw, BitVec.and_zero⟩

theorem st (sd : BitVec 5) (sa : BitVec 5) (oc : BitVec 4) (sz : BitVec 2) (off : BitVec 9) : Statement (.st sd sa oc sz off) := by
  intro w h hw
  have e := (Option.some.inj h).symm
  obtain ⟨m, f21, f16, f12, f11, f9, f0⟩ := fields_6_5_5_4_1_2_9 e
  exact ⟨0#32, by rw [readForm_11 m]; unfold readMajor11; rw [f21, f16, f12, f11, f9, f0]; rfl, BitVec.and_zero⟩

theorem aadd (sd : BitVec 5) (sa : BitVec 5) (sb : BitVec 5) (cls : BitVec 2) (scope : BitVec 2) (d : BitVec 1) : Statement (.aadd sd sa sb cls scope d) := by
  intro w h hw
  have e := (Option.some.inj h).symm
  obtain ⟨m, f21, f16, f11, f9, f7, -, f5, f0⟩ := fields_6_5_5_5_2_2_1_1_5 e
  exact ⟨0x40#32, by rw [readForm_12 m]; unfold readMajor12; rw [f21, f16, f11, f9, f7, f5, f0]; rfl, mask_6_5_5_5_2_2_1_1_5 e (by decide : _ = 0#6 ++ 0#5 ++ 0#5 ++ 0#5 ++ 0#2 ++ 0#2 ++ 1#1 ++ 0#1 ++ 0#5) BitVec.and_zero BitVec.and_zero BitVec.and_zero BitVec.and_zero BitVec.and_zero BitVec.and_zero BitVec.zero_and BitVec.and_zero BitVec.and_zero⟩

theorem aand (sd : BitVec 5) (sa : BitVec 5) (sb : BitVec 5) (cls : BitVec 2) (scope : BitVec 2) (d : BitVec 1) : Statement (.aand sd sa sb cls scope d) := by
  intro w h hw
  have e := (Option.some.inj h).symm
  obtain ⟨m, f21, f16, f11, f9, f7, -, f5, f0⟩ := fields_6_5_5_5_2_2_1_1_5 e
  exact ⟨0x40#32, by rw [readForm_12 m]; unfold readMajor12; rw [f21, f16, f11, f9, f7, f5, f0]; rfl, mask_6_5_5_5_2_2_1_1_5 e (by decide : _ = 0#6 ++ 0#5 ++ 0#5 ++ 0#5 ++ 0#2 ++ 0#2 ++ 1#1 ++ 0#1 ++ 0#5) BitVec.and_zero BitVec.and_zero BitVec.and_zero BitVec.and_zero BitVec.and_zero BitVec.and_zero BitVec.zero_and BitVec.and_zero BitVec.and_zero⟩

theorem aor (sd : BitVec 5) (sa : BitVec 5) (sb : BitVec 5) (cls : BitVec 2) (scope : BitVec 2) (d : BitVec 1) : Statement (.aor sd sa sb cls scope d) := by
  intro w h hw
  have e := (Option.some.inj h).symm
  obtain ⟨m, f21, f16, f11, f9, f7, -, f5, f0⟩ := fields_6_5_5_5_2_2_1_1_5 e
  exact ⟨0x40#32, by rw [readForm_12 m]; unfold readMajor12; rw [f21, f16, f11, f9, f7, f5, f0]; rfl, mask_6_5_5_5_2_2_1_1_5 e (by decide : _ = 0#6 ++ 0#5 ++ 0#5 ++ 0#5 ++ 0#2 ++ 0#2 ++ 1#1 ++ 0#1 ++ 0#5) BitVec.and_zero BitVec.and_zero BitVec.and_zero BitVec.and_zero BitVec.and_zero BitVec.and_zero BitVec.zero_and BitVec.and_zero BitVec.and_zero⟩

theorem axor (sd : BitVec 5) (sa : BitVec 5) (sb : BitVec 5) (cls : BitVec 2) (scope : BitVec 2) (d : BitVec 1) : Statement (.axor sd sa sb cls scope d) := by
  intro w h hw
  have e := (Option.some.inj h).symm
  obtain ⟨m, f21, f16, f11, f9, f7, -, f5, f0⟩ := fields_6_5_5_5_2_2_1_1_5 e
  exact ⟨0x40#32, by rw [readForm_12 m]; unfold readMajor12; rw [f21, f16, f11, f9, f7, f5, f0]; rfl, mask_6_5_5_5_2_2_1_1_5 e (by decide : _ = 0#6 ++ 0#5 ++ 0#5 ++ 0#5 ++ 0#2 ++ 0#2 ++ 1#1 ++ 0#1 ++ 0#5) BitVec.and_zero BitVec.and_zero BitVec.and_zero BitVec.and_zero BitVec.and_zero BitVec.and_zero BitVec.zero_and BitVec.and_zero BitVec.and_zero⟩

theorem amin (sd : BitVec 5) (sa : BitVec 5) (sb : BitVec 5) (cls : BitVec 2) (scope : BitVec 2) (u : BitVec 1) (d : BitVec 1) : Statement (.amin sd sa sb cls scope u d) := by
  intro w h hw
  have e := (Option.some.inj h).symm
  obtain ⟨m, f21, f16, f11, f9, f7, f6, f5, f0⟩ := fields_6_5_5_5_2_2_1_1_5 e
  exact ⟨0#32, by rw [readForm_12 m]; unfold readMajor12; rw [f21, f16, f11, f9, f7, f6, f5, f0]; rfl, BitVec.and_zero⟩

theorem amax (sd : BitVec 5) (sa : BitVec 5) (sb : BitVec 5) (cls : BitVec 2) (scope : BitVec 2) (u : BitVec 1) (d : BitVec 1) : Statement (.amax sd sa sb cls scope u d) := by
  intro w h hw
  have e := (Option.some.inj h).symm
  obtain ⟨m, f21, f16, f11, f9, f7, f6, f5, f0⟩ := fields_6_5_5_5_2_2_1_1_5 e
  exact ⟨0#32, by rw [readForm_12 m]; unfold readMajor12; rw [f21, f16, f11, f9, f7, f6, f5, f0]; rfl, BitVec.and_zero⟩

theorem aswp (sd : BitVec 5) (sa : BitVec 5) (sb : BitVec 5) (cls : BitVec 2) (scope : BitVec 2) (d : BitVec 1) : Statement (.aswp sd sa sb cls scope d) := by
  intro w h hw
  have e := (Option.some.inj h).symm
  obtain ⟨m, f21, f16, f11, f9, f7, -, f5, f0⟩ := fields_6_5_5_5_2_2_1_1_5 e
  exact ⟨0x40#32, by rw [readForm_12 m]; unfold readMajor12; rw [f21, f16, f11, f9, f7, f5, f0]; rfl, mask_6_5_5_5_2_2_1_1_5 e (by decide : _ = 0#6 ++ 0#5 ++ 0#5 ++ 0#5 ++ 0#2 ++ 0#2 ++ 1#1 ++ 0#1 ++ 0#5) BitVec.and_zero BitVec.and_zero BitVec.and_zero BitVec.and_zero BitVec.and_zero BitVec.and_zero BitVec.zero_and BitVec.and_zero BitVec.and_zero⟩

theorem acas (sd : BitVec 5) (sa : BitVec 5) (sb : BitVec 5) (cls : BitVec 2) (scope : BitVec 2) (d : BitVec 1) : Statement (.acas sd sa sb cls scope d) := by
  intro w h hw
  have e := (Option.some.inj h).symm
  obtain ⟨m, f21, f16, f11, f9, f7, -, f5, f0⟩ := fields_6_5_5_5_2_2_1_1_5 e
  exact ⟨0x40#32, by rw [readForm_12 m]; unfold readMajor12; rw [f21, f16, f11, f9, f7, f5, f0]; rfl, mask_6_5_5_5_2_2_1_1_5 e (by decide : _ = 0#6 ++ 0#5 ++ 0#5 ++ 0#5 ++ 0#2 ++ 0#2 ++ 1#1 ++ 0#1 ++ 0#5) BitVec.and_zero BitVec.and_zero BitVec.and_zero BitVec.and_zero BitVec.and_zero BitVec.and_zero BitVec.zero_and BitVec.and_zero BitVec.and_zero⟩

theorem fence (mask : BitVec 16) (scope : BitVec 2) : Statement (.fence mask scope) := by
  intro w h hw
  have e := (Option.some.inj h).symm
  obtain ⟨m, f10, -, f5, f0⟩ := fields_6_16_3_2_5 e
  exact ⟨0x380#32, by rw [readForm_13 m]; unfold readMajor13; rw [f10, f5, f0]; rfl, mask_6_16_3_2_5 e (by decide : _ = 0#6 ++ 0#16 ++ 7#3 ++ 0#2 ++ 0#5) BitVec.and_zero BitVec.and_zero BitVec.zero_and BitVec.and_zero BitVec.and_zero⟩

theorem lda (sd : BitVec 5) (sa : BitVec 5) (sb : BitVec 5) (sz : BitVec 2) (scope : BitVec 2) : Statement (.lda sd sa sb sz scope) := by
  intro w h hw
  have e := (Option.some.inj h).symm
  obtain ⟨m, f21, f16, f11, -, f7, f5, f0⟩ := fields_6_5_5_5_2_2_2_5 e
  exact ⟨0x600#32, by rw [readForm_13 m]; unfold readMajor13; rw [f21, f16, f11, f7, f5, f0]; rfl, mask_6_5_5_5_2_2_2_5 e (by decide : _ = 0#6 ++ 0#5 ++ 0#5 ++ 0#5 ++ 3#2 ++ 0#2 ++ 0#2 ++ 0#5) BitVec.and_zero BitVec.and_zero BitVec.and_zero BitVec.and_zero BitVec.zero_and BitVec.and_zero BitVec.and_zero BitVec.and_zero⟩

theorem stl (sd : BitVec 5) (sa : BitVec 5) (sb : BitVec 5) (sz : BitVec 2) (scope : BitVec 2) : Statement (.stl sd sa sb sz scope) := by
  intro w h hw
  have e := (Option.some.inj h).symm
  obtain ⟨m, f21, f16, f11, -, f7, f5, f0⟩ := fields_6_5_5_5_2_2_2_5 e
  exact ⟨0x600#32, by rw [readForm_13 m]; unfold readMajor13; rw [f21, f16, f11, f7, f5, f0]; rfl, mask_6_5_5_5_2_2_2_5 e (by decide : _ = 0#6 ++ 0#5 ++ 0#5 ++ 0#5 ++ 3#2 ++ 0#2 ++ 0#2 ++ 0#5) BitVec.and_zero BitVec.and_zero BitVec.and_zero BitVec.and_zero BitVec.zero_and BitVec.and_zero BitVec.and_zero BitVec.and_zero⟩

theorem syncw (mask : BitVec 16) : Statement (.syncw mask) := by
  intro w h hw
  have e := (Option.some.inj h).symm
  obtain ⟨m, f10, -, f0⟩ := fields_6_16_5_5 e
  exact ⟨0x3e0#32, by rw [readForm_13 m]; unfold readMajor13; rw [f10, f0]; rfl, mask_6_16_5_5 e (by decide : _ = 0#6 ++ 0#16 ++ 31#5 ++ 0#5) BitVec.and_zero BitVec.and_zero BitVec.zero_and BitVec.and_zero⟩

theorem bzeq (sa : BitVec 5) (off : BitVec 16) : Statement (.bzeq sa off) := by
  intro w h hw
  have e := (Option.some.inj h).symm
  obtain ⟨m, f21, f16, f0⟩ := fields_6_5_5_16 e
  exact ⟨0#32, by rw [readForm_14 m]; unfold readMajor14; rw [f21, f16, f0]; rfl, BitVec.and_zero⟩

theorem bzne (sa : BitVec 5) (off : BitVec 16) : Statement (.bzne sa off) := by
  intro w h hw
  have e := (Option.some.inj h).symm
  obtain ⟨m, f21, f16, f0⟩ := fields_6_5_5_16 e
  exact ⟨0#32, by rw [readForm_14 m]; unfold readMajor14; rw [f21, f16, f0]; rfl, BitVec.and_zero⟩

theorem bzlt (sa : BitVec 5) (off : BitVec 16) : Statement (.bzlt sa off) := by
  intro w h hw
  have e := (Option.some.inj h).symm
  obtain ⟨m, f21, f16, f0⟩ := fields_6_5_5_16 e
  exact ⟨0#32, by rw [readForm_14 m]; unfold readMajor14; rw [f21, f16, f0]; rfl, BitVec.and_zero⟩

theorem bzge (sa : BitVec 5) (off : BitVec 16) : Statement (.bzge sa off) := by
  intro w h hw
  have e := (Option.some.inj h).symm
  obtain ⟨m, f21, f16, f0⟩ := fields_6_5_5_16 e
  exact ⟨0#32, by rw [readForm_14 m]; unfold readMajor14; rw [f21, f16, f0]; rfl, BitVec.and_zero⟩

theorem bzgt (sa : BitVec 5) (off : BitVec 16) : Statement (.bzgt sa off) := by
  intro w h hw
  have e := (Option.some.inj h).symm
  obtain ⟨m, f21, f16, f0⟩ := fields_6_5_5_16 e
  exact ⟨0#32, by rw [readForm_14 m]; unfold readMajor14; rw [f21, f16, f0]; rfl, BitVec.and_zero⟩

theorem bzle (sa : BitVec 5) (off : BitVec 16) : Statement (.bzle sa off) := by
  intro w h hw
  have e := (Option.some.inj h).symm
  obtain ⟨m, f21, f16, f0⟩ := fields_6_5_5_16 e
  exact ⟨0#32, by rw [readForm_14 m]; unfold readMajor14; rw [f21, f16, f0]; rfl, BitVec.and_zero⟩

theorem bpt (off : BitVec 16) : Statement (.bpt off) := by
  intro w h hw
  have e := (Option.some.inj h).symm
  obtain ⟨m, f21, -, f0⟩ := fields_6_5_5_16 e
  exact ⟨0x1f0000#32, by rw [readForm_14 m]; unfold readMajor14; rw [f21, f0]; rfl, mask_6_5_5_16 e (by decide : _ = 0#6 ++ 0#5 ++ 31#5 ++ 0#16) BitVec.and_zero BitVec.and_zero BitVec.zero_and BitVec.and_zero⟩

theorem bpf (off : BitVec 16) : Statement (.bpf off) := by
  intro w h hw
  have e := (Option.some.inj h).symm
  obtain ⟨m, f21, -, f0⟩ := fields_6_5_5_16 e
  exact ⟨0x1f0000#32, by rw [readForm_14 m]; unfold readMajor14; rw [f21, f0]; rfl, mask_6_5_5_16 e (by decide : _ = 0#6 ++ 0#5 ++ 31#5 ++ 0#16) BitVec.and_zero BitVec.and_zero BitVec.zero_and BitVec.and_zero⟩

theorem jal (sd : BitVec 5) (off : BitVec 21) : Statement (.jal sd off) := by
  intro w h hw
  have e := (Option.some.inj h).symm
  obtain ⟨m, f21, f0⟩ := fields_6_5_21 e
  exact ⟨0#32, by rw [readForm_15 m]; unfold readMajor15; rw [f21, f0], BitVec.and_zero⟩

theorem jalr (sd : BitVec 5) (sa : BitVec 5) : Statement (.jalr sd sa) := by
  intro w h hw
  have e := (Option.some.inj h).symm
  obtain ⟨m, f21, f16, -, -, f0⟩ := fields_6_5_5_5_6_5 e
  exact ⟨0xffe0#32, by rw [readForm_16 m]; unfold readMajor16; rw [f21, f16, f0]; rfl, mask_6_5_5_5_6_5 e (by decide : _ = 0#6 ++ 0#5 ++ 0#5 ++ 31#5 ++ 63#6 ++ 0#5) BitVec.and_zero BitVec.and_zero BitVec.and_zero BitVec.zero_and BitVec.zero_and BitVec.and_zero⟩

theorem jr (sa : BitVec 5) : Statement (.jr sa) := by
  intro w h hw
  have e := (Option.some.inj h).symm
  obtain ⟨m, -, f16, -, -, f0⟩ := fields_6_5_5_5_6_5 e
  exact ⟨0x3e0ffe0#32, by rw [readForm_16 m]; unfold readMajor16; rw [f16, f0]; rfl, mask_6_5_5_5_6_5 e (by decide : _ = 0#6 ++ 31#5 ++ 0#5 ++ 31#5 ++ 63#6 ++ 0#5) BitVec.and_zero BitVec.zero_and BitVec.and_zero BitVec.zero_and BitVec.zero_and BitVec.and_zero⟩

theorem tload (sd : BitVec 5) (sa : BitVec 5) (e : BitVec 3) : Statement (.tload sd sa e) := by
  intro w h hw
  have e := (Option.some.inj h).symm
  obtain ⟨m, f21, f16, -, f5, f0⟩ := fields_6_5_5_8_3_5 e
  exact ⟨0xff00#32, by rw [readForm_18 m]; unfold readMajor18; rw [f21, f16, f5, f0]; rfl, mask_6_5_5_8_3_5 e (by decide : _ = 0#6 ++ 0#5 ++ 0#5 ++ 255#8 ++ 0#3 ++ 0#5) BitVec.and_zero BitVec.and_zero BitVec.and_zero BitVec.zero_and BitVec.and_zero BitVec.and_zero⟩

theorem tstart (sa : BitVec 5) (e : BitVec 3) : Statement (.tstart sa e) := by
  intro w h hw
  have e := (Option.some.inj h).symm
  obtain ⟨m, -, f16, -, f5, f0⟩ := fields_6_5_5_8_3_5 e
  exact ⟨0x3e0ff00#32, by rw [readForm_18 m]; unfold readMajor18; rw [f16, f5, f0]; rfl, mask_6_5_5_8_3_5 e (by decide : _ = 0#6 ++ 31#5 ++ 0#5 ++ 255#8 ++ 0#3 ++ 0#5) BitVec.and_zero BitVec.zero_and BitVec.and_zero BitVec.zero_and BitVec.and_zero BitVec.and_zero⟩

theorem tstop (e : BitVec 3) : Statement (.tstop e) := by
  intro w h hw
  have e := (Option.some.inj h).symm
  obtain ⟨m, -, -, -, f5, f0⟩ := fields_6_5_5_8_3_5 e
  exact ⟨0x3ffff00#32, by rw [readForm_18 m]; unfold readMajor18; rw [f5, f0]; rfl, mask_6_5_5_8_3_5 e (by decide : _ = 0#6 ++ 31#5 ++ 31#5 ++ 255#8 ++ 0#3 ++ 0#5) BitVec.and_zero BitVec.zero_and BitVec.zero_and BitVec.zero_and BitVec.and_zero BitVec.and_zero⟩

theorem tbase (sd : BitVec 5) (sa : BitVec 5) (e : BitVec 3) : Statement (.tbase sd sa e) := by
  intro w h hw
  have e := (Option.some.inj h).symm
  obtain ⟨m, f21, f16, -, f5, f0⟩ := fields_6_5_5_8_3_5 e
  exact ⟨0xff00#32, by rw [readForm_18 m]; unfold readMajor18; rw [f21, f16, f5, f0]; rfl, mask_6_5_5_8_3_5 e (by decide : _ = 0#6 ++ 0#5 ++ 0#5 ++ 255#8 ++ 0#3 ++ 0#5) BitVec.and_zero BitVec.and_zero BitVec.and_zero BitVec.zero_and BitVec.and_zero BitVec.and_zero⟩

theorem tset (sa : BitVec 5) (n : BitVec 8) (e : BitVec 3) : Statement (.tset sa n e) := by
  intro w h hw
  have e := (Option.some.inj h).symm
  obtain ⟨m, -, f16, f8, f5, f0⟩ := fields_6_5_5_8_3_5 e
  exact ⟨0x3e00000#32, by rw [readForm_18 m]; unfold readMajor18; rw [f16, f8, f5, f0]; rfl, mask_6_5_5_8_3_5 e (by decide : _ = 0#6 ++ 31#5 ++ 0#5 ++ 0#8 ++ 0#3 ++ 0#5) BitVec.and_zero BitVec.zero_and BitVec.and_zero BitVec.and_zero BitVec.and_zero BitVec.and_zero⟩

theorem tget (sd : BitVec 5) (n : BitVec 8) (e : BitVec 3) : Statement (.tget sd n e) := by
  intro w h hw
  have e := (Option.some.inj h).symm
  obtain ⟨m, f21, -, f8, f5, f0⟩ := fields_6_5_5_8_3_5 e
  exact ⟨0x1f0000#32, by rw [readForm_18 m]; unfold readMajor18; rw [f21, f8, f5, f0]; rfl, mask_6_5_5_8_3_5 e (by decide : _ = 0#6 ++ 0#5 ++ 31#5 ++ 0#8 ++ 0#3 ++ 0#5) BitVec.and_zero BitVec.and_zero BitVec.zero_and BitVec.and_zero BitVec.and_zero BitVec.and_zero⟩

theorem twidle (e : BitVec 3) : Statement (.twidle e) := by
  intro w h hw
  have e := (Option.some.inj h).symm
  obtain ⟨m, -, -, -, f5, f0⟩ := fields_6_5_5_8_3_5 e
  exact ⟨0x3ffff00#32, by rw [readForm_18 m]; unfold readMajor18; rw [f5, f0]; rfl, mask_6_5_5_8_3_5 e (by decide : _ = 0#6 ++ 31#5 ++ 31#5 ++ 255#8 ++ 0#3 ++ 0#5) BitVec.and_zero BitVec.zero_and BitVec.zero_and BitVec.zero_and BitVec.and_zero BitVec.and_zero⟩

theorem qput (sd : BitVec 5) (sa : BitVec 5) (sb : BitVec 5) : Statement (.qput sd sa sb) := by
  intro w h hw
  have e := (Option.some.inj h).symm
  obtain ⟨m, f21, f16, f11, -, f5, f0⟩ := fields_6_5_5_5_5_1_5 e
  exact ⟨0x7c0#32, by rw [readForm_19 m]; unfold readMajor19; rw [f21, f16, f11, f5, f0]; rfl, mask_6_5_5_5_5_1_5 e (by decide : _ = 0#6 ++ 0#5 ++ 0#5 ++ 0#5 ++ 31#5 ++ 0#1 ++ 0#5) BitVec.and_zero BitVec.and_zero BitVec.and_zero BitVec.and_zero BitVec.zero_and BitVec.and_zero BitVec.and_zero⟩

theorem qputNb (sd : BitVec 5) (sa : BitVec 5) (sb : BitVec 5) : Statement (.qputNb sd sa sb) := by
  intro w h hw
  have e := (Option.some.inj h).symm
  obtain ⟨m, f21, f16, f11, -, f5, f0⟩ := fields_6_5_5_5_5_1_5 e
  exact ⟨0x7c0#32, by rw [readForm_19 m]; unfold readMajor19; rw [f21, f16, f11, f5, f0]; rfl, mask_6_5_5_5_5_1_5 e (by decide : _ = 0#6 ++ 0#5 ++ 0#5 ++ 0#5 ++ 31#5 ++ 0#1 ++ 0#5) BitVec.and_zero BitVec.and_zero BitVec.and_zero BitVec.and_zero BitVec.zero_and BitVec.and_zero BitVec.and_zero⟩

theorem qtake (sd : BitVec 5) : Statement (.qtake sd) := by
  intro w h hw
  have e := (Option.some.inj h).symm
  obtain ⟨m, f21, -, -, -, f0⟩ := fields_6_5_5_5_6_5 e
  exact ⟨0x1fffe0#32, by rw [readForm_19 m]; unfold readMajor19; rw [f21, f0]; rfl, mask_6_5_5_5_6_5 e (by decide : _ = 0#6 ++ 0#5 ++ 31#5 ++ 31#5 ++ 63#6 ++ 0#5) BitVec.and_zero BitVec.and_zero BitVec.zero_and BitVec.zero_and BitVec.zero_and BitVec.and_zero⟩

theorem qsteal (sd : BitVec 5) : Statement (.qsteal sd) := by
  intro w h hw
  have e := (Option.some.inj h).symm
  obtain ⟨m, f21, f16, -, -, f0⟩ := fields_6_5_5_5_6_5 e
  exact ⟨0xffe0#32, by rw [readForm_19 m]; unfold readMajor19; rw [f21, f16, f0]; rfl, mask_6_5_5_5_6_5 e (by decide : _ = 0#6 ++ 0#5 ++ 0#5 ++ 31#5 ++ 63#6 ++ 0#5) BitVec.and_zero BitVec.and_zero BitVec.and_zero BitVec.zero_and BitVec.zero_and BitVec.and_zero⟩

theorem qstealRank (sd : BitVec 5) (sa : BitVec 5) : Statement (.qstealRank sd sa) := by
  intro w h hw
  have e := (Option.some.inj h).symm
  obtain ⟨m, f21, f16, -, -, f0⟩ := fields_6_5_5_5_6_5 e
  exact ⟨0xffe0#32, by rw [readForm_19 m]; unfold readMajor19; rw [f21, f16, f0]; exact if_neg fun c => by subst c; exact Bool.false_ne_true hw, mask_6_5_5_5_6_5 e (by decide : _ = 0#6 ++ 0#5 ++ 0#5 ++ 31#5 ++ 63#6 ++ 0#5) BitVec.and_zero BitVec.and_zero BitVec.and_zero BitVec.zero_and BitVec.zero_and BitVec.and_zero⟩

theorem qcommit (sd : BitVec 5) : Statement (.qcommit sd) := by
  intro w h hw
  have e := (Option.some.inj h).symm
  obtain ⟨m, f21, -, -, -, f0⟩ := fields_6_5_5_5_6_5 e
  exact ⟨0x1fffe0#32, by rw [readForm_19 m]; unfold readMajor19; rw [f21, f0]; rfl, mask_6_5_5_5_6_5 e (by decide : _ = 0#6 ++ 0#5 ++ 31#5 ++ 31#5 ++ 63#6 ++ 0#5) BitVec.and_zero BitVec.and_zero BitVec.zero_and BitVec.zero_and BitVec.zero_and BitVec.and_zero⟩

theorem qdone (sd : BitVec 5) (sa : BitVec 5) (sb : BitVec 5) : Statement (.qdone sd sa sb) := by
  intro w h hw
  have e := (Option.some.inj h).symm
  obtain ⟨m, f21, f16, f11, -, f0⟩ := fields_6_5_5_5_6_5 e
  exact ⟨0x7e0#32, by rw [readForm_19 m]; unfold readMajor19; rw [f21, f16, f11, f0]; rfl, mask_6_5_5_5_6_5 e (by decide : _ = 0#6 ++ 0#5 ++ 0#5 ++ 0#5 ++ 63#6 ++ 0#5) BitVec.and_zero BitVec.and_zero BitVec.and_zero BitVec.and_zero BitVec.zero_and BitVec.and_zero⟩

theorem barr (sd : BitVec 5) : Statement (.barr sd) := by
  intro w h hw
  have e := (Option.some.inj h).symm
  obtain ⟨m, f21, -, -, -, f0⟩ := fields_6_5_5_5_6_5 e
  exact ⟨0x1fffe0#32, by rw [readForm_1A m]; unfold readMajor1A; rw [f21, f0]; rfl, mask_6_5_5_5_6_5 e (by decide : _ = 0#6 ++ 0#5 ++ 31#5 ++ 31#5 ++ 63#6 ++ 0#5) BitVec.and_zero BitVec.and_zero BitVec.zero_and BitVec.zero_and BitVec.zero_and BitVec.and_zero⟩

theorem barw (sa : BitVec 5) : Statement (.barw sa) := by
  intro w h hw
  have e := (Option.some.inj h).symm
  obtain ⟨m, -, f16, -, -, f0⟩ := fields_6_5_5_5_6_5 e
  exact ⟨0x3e0ffe0#32, by rw [readForm_1A m]; unfold readMajor1A; rw [f16, f0]; rfl, mask_6_5_5_5_6_5 e (by decide : _ = 0#6 ++ 31#5 ++ 0#5 ++ 31#5 ++ 63#6 ++ 0#5) BitVec.and_zero BitVec.zero_and BitVec.and_zero BitVec.zero_and BitVec.zero_and BitVec.and_zero⟩

theorem fstop (sd : BitVec 5) (sa : BitVec 5) : Statement (.fstop sd sa) := by
  intro w h hw
  have e := (Option.some.inj h).symm
  obtain ⟨m, f21, f16, -, -, f0⟩ := fields_6_5_5_5_6_5 e
  exact ⟨0xffe0#32, by rw [readForm_1A m]; unfold readMajor1A; rw [f21, f16, f0]; rfl, mask_6_5_5_5_6_5 e (by decide : _ = 0#6 ++ 0#5 ++ 0#5 ++ 31#5 ++ 63#6 ++ 0#5) BitVec.and_zero BitVec.and_zero BitVec.and_zero BitVec.zero_and BitVec.zero_and BitVec.and_zero⟩

theorem txinit (sa : BitVec 5) (sb : BitVec 5) : Statement (.txinit sa sb) := by
  intro w h hw
  have e := (Option.some.inj h).symm
  obtain ⟨m, -, f16, f11, -, f0⟩ := fields_6_5_5_5_6_5 e
  exact ⟨0x3e007e0#32, by rw [readForm_1A m]; unfold readMajor1A; rw [f16, f11, f0]; rfl, mask_6_5_5_5_6_5 e (by decide : _ = 0#6 ++ 31#5 ++ 0#5 ++ 0#5 ++ 63#6 ++ 0#5) BitVec.and_zero BitVec.zero_and BitVec.and_zero BitVec.and_zero BitVec.zero_and BitVec.and_zero⟩

theorem txexp (sa : BitVec 5) (sb : BitVec 5) : Statement (.txexp sa sb) := by
  intro w h hw
  have e := (Option.some.inj h).symm
  obtain ⟨m, -, f16, f11, -, f0⟩ := fields_6_5_5_5_6_5 e
  exact ⟨0x3e007e0#32, by rw [readForm_1A m]; unfold readMajor1A; rw [f16, f11, f0]; rfl, mask_6_5_5_5_6_5 e (by decide : _ = 0#6 ++ 31#5 ++ 0#5 ++ 0#5 ++ 63#6 ++ 0#5) BitVec.and_zero BitVec.zero_and BitVec.and_zero BitVec.and_zero BitVec.zero_and BitVec.and_zero⟩

theorem txarr (sd : BitVec 5) (sa : BitVec 5) (sb : BitVec 5) : Statement (.txarr sd sa sb) := by
  intro w h hw
  have e := (Option.some.inj h).symm
  obtain ⟨m, f21, f16, f11, -, f0⟩ := fields_6_5_5_5_6_5 e
  exact ⟨0x7e0#32, by rw [readForm_1A m]; unfold readMajor1A; rw [f21, f16, f11, f0]; rfl, mask_6_5_5_5_6_5 e (by decide : _ = 0#6 ++ 0#5 ++ 0#5 ++ 0#5 ++ 63#6 ++ 0#5) BitVec.and_zero BitVec.and_zero BitVec.and_zero BitVec.and_zero BitVec.zero_and BitVec.and_zero⟩

theorem txwait (sa : BitVec 5) (sb : BitVec 5) : Statement (.txwait sa sb) := by
  intro w h hw
  have e := (Option.some.inj h).symm
  obtain ⟨m, -, f16, f11, -, f0⟩ := fields_6_5_5_5_6_5 e
  exact ⟨0x3e007e0#32, by rw [readForm_1A m]; unfold readMajor1A; rw [f16, f11, f0]; rfl, mask_6_5_5_5_6_5 e (by decide : _ = 0#6 ++ 31#5 ++ 0#5 ++ 0#5 ++ 63#6 ++ 0#5) BitVec.and_zero BitVec.zero_and BitVec.and_zero BitVec.and_zero BitVec.zero_and BitVec.and_zero⟩

theorem rft : Statement (.rft) := by
  intro w h hw
  have e := (Option.some.inj h).symm
  obtain ⟨m, -, -, -, -, f0⟩ := fields_6_5_5_5_6_5 e
  exact ⟨0x3ffffe0#32, by rw [readForm_1B m]; unfold readMajor1B; rw [f0]; rfl, mask_6_5_5_5_6_5 e (by decide : _ = 0#6 ++ 31#5 ++ 31#5 ++ 31#5 ++ 63#6 ++ 0#5) BitVec.and_zero BitVec.zero_and BitVec.zero_and BitVec.zero_and BitVec.zero_and BitVec.and_zero⟩

theorem scall (sd : BitVec 5) (sa : BitVec 5) (sb : BitVec 5) : Statement (.scall sd sa sb) := by
  intro w h hw
  have e := (Option.some.inj h).symm
  obtain ⟨m, f21, f16, f11, -, f0⟩ := fields_6_5_5_5_6_5 e
  exact ⟨0x7e0#32, by rw [readForm_1B m]; unfold readMajor1B; rw [f21, f16, f11, f0]; rfl, mask_6_5_5_5_6_5 e (by decide : _ = 0#6 ++ 0#5 ++ 0#5 ++ 0#5 ++ 63#6 ++ 0#5) BitVec.and_zero BitVec.and_zero BitVec.and_zero BitVec.and_zero BitVec.zero_and BitVec.and_zero⟩

theorem wfe (sd : BitVec 5) (sa : BitVec 5) : Statement (.wfe sd sa) := by
  intro w h hw
  have e := (Option.some.inj h).symm
  obtain ⟨m, f21, f16, -, -, f0⟩ := fields_6_5_5_5_6_5 e
  exact ⟨0xffe0#32, by rw [readForm_1B m]; unfold readMajor1B; rw [f21, f16, f0]; rfl, mask_6_5_5_5_6_5 e (by decide : _ = 0#6 ++ 0#5 ++ 0#5 ++ 31#5 ++ 63#6 ++ 0#5) BitVec.and_zero BitVec.and_zero BitVec.and_zero BitVec.zero_and BitVec.zero_and BitVec.and_zero⟩

theorem sev (sa : BitVec 5) : Statement (.sev sa) := by
  intro w h hw
  have e := (Option.some.inj h).symm
  obtain ⟨m, -, f16, -, -, f0⟩ := fields_6_5_5_5_6_5 e
  exact ⟨0x3e0ffe0#32, by rw [readForm_1B m]; unfold readMajor1B; rw [f16, f0]; rfl, mask_6_5_5_5_6_5 e (by decide : _ = 0#6 ++ 31#5 ++ 0#5 ++ 31#5 ++ 63#6 ++ 0#5) BitVec.and_zero BitVec.zero_and BitVec.and_zero BitVec.zero_and BitVec.zero_and BitVec.and_zero⟩

theorem rdcnt (sd : BitVec 5) (n : BitVec 6) : Statement (.rdcnt sd n) := by
  intro w h hw
  have e := (Option.some.inj h).symm
  obtain ⟨m, f21, -, -, f5, f0⟩ := fields_6_5_5_5_6_5 e
  exact ⟨0x1ff800#32, by rw [readForm_1B m]; unfold readMajor1B; rw [f21, f5, f0]; rfl, mask_6_5_5_5_6_5 e (by decide : _ = 0#6 ++ 0#5 ++ 31#5 ++ 31#5 ++ 0#6 ++ 0#5) BitVec.and_zero BitVec.and_zero BitVec.zero_and BitVec.zero_and BitVec.and_zero BitVec.and_zero⟩

theorem pinvCtx (sa : BitVec 5) : Statement (.pinvCtx sa) := by
  intro w h hw
  have e := (Option.some.inj h).symm
  obtain ⟨m, -, f16, -, -, f5, f0⟩ := fields_6_5_5_5_4_2_5 e
  exact ⟨0x3e0ff80#32, by rw [readForm_1B m]; unfold readMajor1B; rw [f16, f5, f0]; rfl, mask_6_5_5_5_4_2_5 e (by decide : _ = 0#6 ++ 31#5 ++ 0#5 ++ 31#5 ++ 15#4 ++ 0#2 ++ 0#5) BitVec.and_zero BitVec.zero_and BitVec.and_zero BitVec.zero_and BitVec.zero_and BitVec.and_zero BitVec.and_zero⟩

theorem pinvRange (sa : BitVec 5) (sb : BitVec 5) : Statement (.pinvRange sa sb) := by
  intro w h hw
  have e := (Option.some.inj h).symm
  obtain ⟨m, -, f16, f11, -, f5, f0⟩ := fields_6_5_5_5_4_2_5 e
  exact ⟨0x3e00780#32, by rw [readForm_1B m]; unfold readMajor1B; rw [f16, f11, f5, f0]; rfl, mask_6_5_5_5_4_2_5 e (by decide : _ = 0#6 ++ 31#5 ++ 0#5 ++ 0#5 ++ 15#4 ++ 0#2 ++ 0#5) BitVec.and_zero BitVec.zero_and BitVec.and_zero BitVec.and_zero BitVec.zero_and BitVec.and_zero BitVec.and_zero⟩

theorem pinvAll : Statement (.pinvAll) := by
  intro w h hw
  have e := (Option.some.inj h).symm
  obtain ⟨m, -, -, -, -, f5, f0⟩ := fields_6_5_5_5_4_2_5 e
  exact ⟨0x3ffff80#32, by rw [readForm_1B m]; unfold readMajor1B; rw [f5, f0]; rfl, mask_6_5_5_5_4_2_5 e (by decide : _ = 0#6 ++ 31#5 ++ 31#5 ++ 31#5 ++ 15#4 ++ 0#2 ++ 0#5) BitVec.and_zero BitVec.zero_and BitVec.zero_and BitVec.zero_and BitVec.zero_and BitVec.and_zero BitVec.and_zero⟩

theorem rminvCtx (sa : BitVec 5) : Statement (.rminvCtx sa) := by
  intro w h hw
  have e := (Option.some.inj h).symm
  obtain ⟨m, -, f16, -, -, f5, f0⟩ := fields_6_5_5_5_4_2_5 e
  exact ⟨0x3e0ff80#32, by rw [readForm_1B m]; unfold readMajor1B; rw [f16, f5, f0]; rfl, mask_6_5_5_5_4_2_5 e (by decide : _ = 0#6 ++ 31#5 ++ 0#5 ++ 31#5 ++ 15#4 ++ 0#2 ++ 0#5) BitVec.and_zero BitVec.zero_and BitVec.and_zero BitVec.zero_and BitVec.zero_and BitVec.and_zero BitVec.and_zero⟩

theorem rminvRange (sa : BitVec 5) (sb : BitVec 5) : Statement (.rminvRange sa sb) := by
  intro w h hw
  have e := (Option.some.inj h).symm
  obtain ⟨m, -, f16, f11, -, f5, f0⟩ := fields_6_5_5_5_4_2_5 e
  exact ⟨0x3e00780#32, by rw [readForm_1B m]; unfold readMajor1B; rw [f16, f11, f5, f0]; rfl, mask_6_5_5_5_4_2_5 e (by decide : _ = 0#6 ++ 31#5 ++ 0#5 ++ 0#5 ++ 15#4 ++ 0#2 ++ 0#5) BitVec.and_zero BitVec.zero_and BitVec.and_zero BitVec.and_zero BitVec.zero_and BitVec.and_zero BitVec.and_zero⟩

theorem rminvAll : Statement (.rminvAll) := by
  intro w h hw
  have e := (Option.some.inj h).symm
  obtain ⟨m, -, -, -, -, f5, f0⟩ := fields_6_5_5_5_4_2_5 e
  exact ⟨0x3ffff80#32, by rw [readForm_1B m]; unfold readMajor1B; rw [f5, f0]; rfl, mask_6_5_5_5_4_2_5 e (by decide : _ = 0#6 ++ 31#5 ++ 31#5 ++ 31#5 ++ 15#4 ++ 0#2 ++ 0#5) BitVec.and_zero BitVec.zero_and BitVec.zero_and BitVec.zero_and BitVec.zero_and BitVec.and_zero BitVec.and_zero⟩

theorem ctxsv (sd : BitVec 5) (sa : BitVec 5) : Statement (.ctxsv sd sa) := by
  intro w h hw
  have e := (Option.some.inj h).symm
  obtain ⟨m, f21, f16, -, -, f0⟩ := fields_6_5_5_5_6_5 e
  exact ⟨0xffe0#32, by rw [readForm_1B m]; unfold readMajor1B; rw [f21, f16, f0]; rfl, mask_6_5_5_5_6_5 e (by decide : _ = 0#6 ++ 0#5 ++ 0#5 ++ 31#5 ++ 63#6 ++ 0#5) BitVec.and_zero BitVec.and_zero BitVec.and_zero BitVec.zero_and BitVec.zero_and BitVec.and_zero⟩

theorem ctxld (sa : BitVec 5) : Statement (.ctxld sa) := by
  intro w h hw
  have e := (Option.some.inj h).symm
  obtain ⟨m, -, f16, -, -, f0⟩ := fields_6_5_5_5_6_5 e
  exact ⟨0x3e0ffe0#32, by rw [readForm_1B m]; unfold readMajor1B; rw [f16, f0]; rfl, mask_6_5_5_5_6_5 e (by decide : _ = 0#6 ++ 31#5 ++ 0#5 ++ 31#5 ++ 63#6 ++ 0#5) BitVec.and_zero BitVec.zero_and BitVec.and_zero BitVec.zero_and BitVec.zero_and BitVec.and_zero⟩

theorem bsclaim (sa : BitVec 5) (n : BitVec 5) : Statement (.bsclaim sa n) := by
  intro w h hw
  have e := (Option.some.inj h).symm
  obtain ⟨m, f21, -, f10, -, f0⟩ := fields_6_5_6_5_5_5 e
  exact ⟨0x1f83e0#32, by rw [readForm_1C m]; unfold readMajor1C; rw [f21, f10, f0]; rfl, mask_6_5_6_5_5_5 e (by decide : _ = 0#6 ++ 0#5 ++ 63#6 ++ 0#5 ++ 31#5 ++ 0#5) BitVec.and_zero BitVec.and_zero BitVec.zero_and BitVec.and_zero BitVec.zero_and BitVec.and_zero⟩

theorem bsrel : Statement (.bsrel) := by
  intro w h hw
  have e := (Option.some.inj h).symm
  obtain ⟨m, f21, -, -, -, -⟩ := fields_6_5_6_5_5_5 e
  exact ⟨0x1fffff#32, by rw [readForm_1C m]; unfold readMajor1C; rw [f21]; rfl, mask_6_5_6_5_5_5 e (by decide : _ = 0#6 ++ 0#5 ++ 63#6 ++ 31#5 ++ 31#5 ++ 31#5) BitVec.and_zero BitVec.and_zero BitVec.zero_and BitVec.zero_and BitVec.zero_and BitVec.zero_and⟩

theorem bsin (tag : BitVec 6) (sa : BitVec 5) (sb : BitVec 5) (lz : BitVec 3) : Statement (.bsin tag sa sb lz) := by
  intro w h hw
  have e := (Option.some.inj h).symm
  obtain ⟨m, f21, f15, f10, f5, -, f0⟩ := fields_6_5_6_5_5_2_3 e
  exact ⟨0x18#32, by rw [readForm_1C m]; unfold readMajor1C; rw [f21, f15, f10, f5, f0]; rfl, mask_6_5_6_5_5_2_3 e (by decide : _ = 0#6 ++ 0#5 ++ 0#6 ++ 0#5 ++ 0#5 ++ 3#2 ++ 0#3) BitVec.and_zero BitVec.and_zero BitVec.and_zero BitVec.and_zero BitVec.and_zero BitVec.zero_and BitVec.and_zero⟩

theorem bsout (tag : BitVec 6) (sa : BitVec 5) (sb : BitVec 5) (sx : BitVec 1) (lz : BitVec 3) : Statement (.bsout tag sa sb sx lz) := by
  intro w h hw
  have e := (Option.some.inj h).symm
  obtain ⟨m, f21, f15, f10, f5, -, f3, f0⟩ := fields_6_5_6_5_5_1_1_3 e
  exact ⟨0x10#32, by rw [readForm_1C m]; unfold readMajor1C; rw [f21, f15, f10, f5, f3, f0]; rfl, mask_6_5_6_5_5_1_1_3 e (by decide : _ = 0#6 ++ 0#5 ++ 0#6 ++ 0#5 ++ 0#5 ++ 1#1 ++ 0#1 ++ 0#3) BitVec.and_zero BitVec.and_zero BitVec.and_zero BitVec.and_zero BitVec.and_zero BitVec.zero_and BitVec.and_zero BitVec.and_zero⟩

theorem bslog (sa : BitVec 5) (op : BitVec 5) : Statement (.bslog sa op) := by
  intro w h hw
  have e := (Option.some.inj h).symm
  obtain ⟨m, f21, -, f10, -, f0⟩ := fields_6_5_6_5_5_5 e
  exact ⟨0x1f83e0#32, by rw [readForm_1C m]; unfold readMajor1C; rw [f21, f10, f0]; rfl, mask_6_5_6_5_5_5 e (by decide : _ = 0#6 ++ 0#5 ++ 63#6 ++ 0#5 ++ 31#5 ++ 0#5) BitVec.and_zero BitVec.and_zero BitVec.zero_and BitVec.and_zero BitVec.zero_and BitVec.and_zero⟩

theorem bsadd (sa : BitVec 5) (sb : BitVec 5) (s : BitVec 1) (sat : BitVec 1) (k : BitVec 1) : Statement (.bsadd sa sb s sat k) := by
  intro w h hw
  have e := (Option.some.inj h).symm
  obtain ⟨m, f21, -, f10, f5, -, f2, f1, f0⟩ := fields_6_5_6_5_5_2_1_1_1 e
  exact ⟨0x1f8018#32, by rw [readForm_1C m]; unfold readMajor1C; rw [f21, f10, f5, f2, f1, f0]; rfl, mask_6_5_6_5_5_2_1_1_1 e (by decide : _ = 0#6 ++ 0#5 ++ 63#6 ++ 0#5 ++ 0#5 ++ 3#2 ++ 0#1 ++ 0#1 ++ 0#1) BitVec.and_zero BitVec.and_zero BitVec.zero_and BitVec.and_zero BitVec.and_zero BitVec.zero_and BitVec.and_zero BitVec.and_zero BitVec.and_zero⟩

theorem bssub (sa : BitVec 5) (sb : BitVec 5) (s : BitVec 1) (sat : BitVec 1) (k : BitVec 1) : Statement (.bssub sa sb s sat k) := by
  intro w h hw
  have e := (Option.some.inj h).symm
  obtain ⟨m, f21, -, f10, f5, -, f2, f1, f0⟩ := fields_6_5_6_5_5_2_1_1_1 e
  exact ⟨0x1f8018#32, by rw [readForm_1C m]; unfold readMajor1C; rw [f21, f10, f5, f2, f1, f0]; rfl, mask_6_5_6_5_5_2_1_1_1 e (by decide : _ = 0#6 ++ 0#5 ++ 63#6 ++ 0#5 ++ 0#5 ++ 3#2 ++ 0#1 ++ 0#1 ++ 0#1) BitVec.and_zero BitVec.and_zero BitVec.zero_and BitVec.and_zero BitVec.and_zero BitVec.zero_and BitVec.and_zero BitVec.and_zero BitVec.and_zero⟩

theorem bscmp (sa : BitVec 5) (sb : BitVec 5) (k : BitVec 1) (s : BitVec 1) (cond : BitVec 3) : Statement (.bscmp sa sb k s cond) := by
  intro w h hw
  have e := (Option.some.inj h).symm
  obtain ⟨m, f21, -, f10, f5, f4, f3, f0⟩ := fields_6_5_6_5_5_1_1_3 e
  exact ⟨0x1f8000#32, by rw [readForm_1C m]; unfold readMajor1C; rw [f21, f10, f5, f4, f3, f0]; rfl, mask_6_5_6_5_5_1_1_3 e (by decide : _ = 0#6 ++ 0#5 ++ 63#6 ++ 0#5 ++ 0#5 ++ 0#1 ++ 0#1 ++ 0#3) BitVec.and_zero BitVec.and_zero BitVec.zero_and BitVec.and_zero BitVec.and_zero BitVec.and_zero BitVec.and_zero BitVec.and_zero⟩

theorem bssel (sa : BitVec 5) : Statement (.bssel sa) := by
  intro w h hw
  have e := (Option.some.inj h).symm
  obtain ⟨m, f21, -, f10, -, -⟩ := fields_6_5_6_5_5_5 e
  exact ⟨0x1f83ff#32, by rw [readForm_1C m]; unfold readMajor1C; rw [f21, f10]; rfl, mask_6_5_6_5_5_5 e (by decide : _ = 0#6 ++ 0#5 ++ 63#6 ++ 0#5 ++ 31#5 ++ 31#5) BitVec.and_zero BitVec.and_zero BitVec.zero_and BitVec.and_zero BitVec.zero_and BitVec.zero_and⟩

theorem bsinc (sa : BitVec 5) : Statement (.bsinc sa) := by
  intro w h hw
  have e := (Option.some.inj h).symm
  obtain ⟨m, f21, -, f10, -, -⟩ := fields_6_5_6_5_5_5 e
  exact ⟨0x1f83ff#32, by rw [readForm_1C m]; unfold readMajor1C; rw [f21, f10]; rfl, mask_6_5_6_5_5_5 e (by decide : _ = 0#6 ++ 0#5 ++ 63#6 ++ 0#5 ++ 31#5 ++ 31#5) BitVec.and_zero BitVec.and_zero BitVec.zero_and BitVec.and_zero BitVec.zero_and BitVec.zero_and⟩

theorem bsmin (sa : BitVec 5) (sb : BitVec 5) (s : BitVec 1) (k : BitVec 1) : Statement (.bsmin sa sb s k) := by
  intro w h hw
  have e := (Option.some.inj h).symm
  obtain ⟨m, f21, -, f10, f5, -, f2, -, f0⟩ := fields_6_5_6_5_5_2_1_1_1 e
  exact ⟨0x1f801a#32, by rw [readForm_1C m]; unfold readMajor1C; rw [f21, f10, f5, f2, f0]; rfl, mask_6_5_6_5_5_2_1_1_1 e (by decide : _ = 0#6 ++ 0#5 ++ 63#6 ++ 0#5 ++ 0#5 ++ 3#2 ++ 0#1 ++ 1#1 ++ 0#1) BitVec.and_zero BitVec.and_zero BitVec.zero_and BitVec.and_zero BitVec.and_zero BitVec.zero_and BitVec.and_zero BitVec.zero_and BitVec.and_zero⟩

theorem bspop (sa : BitVec 5) : Statement (.bspop sa) := by
  intro w h hw
  have e := (Option.some.inj h).symm
  obtain ⟨m, f21, -, f10, -, -⟩ := fields_6_5_6_5_5_5 e
  exact ⟨0x1f83ff#32, by rw [readForm_1C m]; unfold readMajor1C; rw [f21, f10]; rfl, mask_6_5_6_5_5_5 e (by decide : _ = 0#6 ++ 0#5 ++ 63#6 ++ 0#5 ++ 31#5 ++ 31#5) BitVec.and_zero BitVec.and_zero BitVec.zero_and BitVec.and_zero BitVec.zero_and BitVec.zero_and⟩

theorem bsshf (sa : BitVec 5) (rot : BitVec 1) (dn : BitVec 1) : Statement (.bsshf sa rot dn) := by
  intro w h hw
  have e := (Option.some.inj h).symm
  obtain ⟨m, f21, -, f10, -, -, f1, f0⟩ := fields_6_5_6_5_5_3_1_1 e
  exact ⟨0x1f83fc#32, by rw [readForm_1C m]; unfold readMajor1C; rw [f21, f10, f1, f0]; rfl, mask_6_5_6_5_5_3_1_1 e (by decide : _ = 0#6 ++ 0#5 ++ 63#6 ++ 0#5 ++ 31#5 ++ 7#3 ++ 0#1 ++ 0#1) BitVec.and_zero BitVec.and_zero BitVec.zero_and BitVec.and_zero BitVec.zero_and BitVec.zero_and BitVec.and_zero BitVec.and_zero⟩

theorem bswait : Statement (.bswait) := by
  intro w h hw
  have e := (Option.some.inj h).symm
  obtain ⟨m, f21, -, -, -, -⟩ := fields_6_5_6_5_5_5 e
  exact ⟨0x1fffff#32, by rw [readForm_1C m]; unfold readMajor1C; rw [f21]; rfl, mask_6_5_6_5_5_5 e (by decide : _ = 0#6 ++ 0#5 ++ 63#6 ++ 31#5 ++ 31#5 ++ 31#5) BitVec.and_zero BitVec.and_zero BitVec.zero_and BitVec.zero_and BitVec.zero_and BitVec.zero_and⟩

theorem fork (tag : BitVec 6) (sa : BitVec 5) (sb : BitVec 5) (p : BitVec 3) : Statement (.fork tag sa sb p) := by
  intro w h hw
  have e := (Option.some.inj h).symm
  obtain ⟨m, f21, f15, f10, f5, -, f0⟩ := fields_6_5_6_5_5_2_3 e
  exact ⟨0x18#32, by rw [readForm_1D m]; unfold readMajor1D; rw [f21, f15, f10, f5, f0]; rfl, mask_6_5_6_5_5_2_3 e (by decide : _ = 0#6 ++ 0#5 ++ 0#6 ++ 0#5 ++ 0#5 ++ 3#2 ++ 0#3) BitVec.and_zero BitVec.and_zero BitVec.and_zero BitVec.and_zero BitVec.and_zero BitVec.zero_and BitVec.and_zero⟩

theorem join (tag : BitVec 6) (sa : BitVec 5) : Statement (.join tag sa) := by
  intro w h hw
  have e := (Option.some.inj h).symm
  obtain ⟨m, f21, f15, f10, -, -⟩ := fields_6_5_6_5_5_5 e
  exact ⟨0x3ff#32, by rw [readForm_1D m]; unfold readMajor1D; rw [f21, f15, f10]; rfl, mask_6_5_6_5_5_5 e (by decide : _ = 0#6 ++ 0#5 ++ 0#6 ++ 0#5 ++ 31#5 ++ 31#5) BitVec.and_zero BitVec.and_zero BitVec.and_zero BitVec.and_zero BitVec.zero_and BitVec.zero_and⟩

theorem mbput (tag : BitVec 6) (sa : BitVec 5) : Statement (.mbput tag sa) := by
  intro w h hw
  have e := (Option.some.inj h).symm
  obtain ⟨m, f21, f15, f10, -, -⟩ := fields_6_5_6_5_5_5 e
  exact ⟨0x3ff#32, by rw [readForm_1D m]; unfold readMajor1D; rw [f21, f15, f10]; rfl, mask_6_5_6_5_5_5 e (by decide : _ = 0#6 ++ 0#5 ++ 0#6 ++ 0#5 ++ 31#5 ++ 31#5) BitVec.and_zero BitVec.and_zero BitVec.and_zero BitVec.and_zero BitVec.zero_and BitVec.zero_and⟩

theorem mbget (tag : BitVec 6) (sa : BitVec 5) : Statement (.mbget tag sa) := by
  intro w h hw
  have e := (Option.some.inj h).symm
  obtain ⟨m, f21, f15, f10, -, -⟩ := fields_6_5_6_5_5_5 e
  exact ⟨0x3ff#32, by rw [readForm_1D m]; unfold readMajor1D; rw [f21, f15, f10]; rfl, mask_6_5_6_5_5_5 e (by decide : _ = 0#6 ++ 0#5 ++ 0#6 ++ 0#5 ++ 31#5 ++ 31#5) BitVec.and_zero BitVec.and_zero BitVec.and_zero BitVec.and_zero BitVec.zero_and BitVec.zero_and⟩

theorem pbind (sa : BitVec 5) (u : BitVec 4) : Statement (.pbind sa u) := by
  intro w h hw
  have e := (Option.some.inj h).symm
  obtain ⟨m, f21, -, f10, -, -, f0⟩ := fields_6_5_6_5_5_1_4 e
  exact ⟨0x1f83f0#32, by rw [readForm_1D m]; unfold readMajor1D; rw [f21, f10, f0]; rfl, mask_6_5_6_5_5_1_4 e (by decide : _ = 0#6 ++ 0#5 ++ 63#6 ++ 0#5 ++ 31#5 ++ 1#1 ++ 0#4) BitVec.and_zero BitVec.and_zero BitVec.zero_and BitVec.and_zero BitVec.zero_and BitVec.zero_and BitVec.and_zero⟩

theorem pstrm (sa : BitVec 5) (sb : BitVec 5) (u : BitVec 4) : Statement (.pstrm sa sb u) := by
  intro w h hw
  have e := (Option.some.inj h).symm
  obtain ⟨m, f21, -, f10, f5, -, f0⟩ := fields_6_5_6_5_5_1_4 e
  exact ⟨0x1f8010#32, by rw [readForm_1D m]; unfold readMajor1D; rw [f21, f10, f5, f0]; rfl, mask_6_5_6_5_5_1_4 e (by decide : _ = 0#6 ++ 0#5 ++ 63#6 ++ 0#5 ++ 0#5 ++ 1#1 ++ 0#4) BitVec.and_zero BitVec.and_zero BitVec.zero_and BitVec.and_zero BitVec.and_zero BitVec.zero_and BitVec.and_zero⟩

theorem prun (sa : BitVec 5) (u : BitVec 4) : Statement (.prun sa u) := by
  intro w h hw
  have e := (Option.some.inj h).symm
  obtain ⟨m, f21, -, f10, -, -, f0⟩ := fields_6_5_6_5_5_1_4 e
  exact ⟨0x1f83f0#32, by rw [readForm_1D m]; unfold readMajor1D; rw [f21, f10, f0]; rfl, mask_6_5_6_5_5_1_4 e (by decide : _ = 0#6 ++ 0#5 ++ 63#6 ++ 0#5 ++ 31#5 ++ 1#1 ++ 0#4) BitVec.and_zero BitVec.and_zero BitVec.zero_and BitVec.and_zero BitVec.zero_and BitVec.zero_and BitVec.and_zero⟩

theorem pchain (sa : BitVec 5) (u : BitVec 4) : Statement (.pchain sa u) := by
  intro w h hw
  have e := (Option.some.inj h).symm
  obtain ⟨m, f21, -, f10, -, -, f0⟩ := fields_6_5_6_5_5_1_4 e
  exact ⟨0x1f83f0#32, by rw [readForm_1D m]; unfold readMajor1D; rw [f21, f10, f0]; rfl, mask_6_5_6_5_5_1_4 e (by decide : _ = 0#6 ++ 0#5 ++ 63#6 ++ 0#5 ++ 31#5 ++ 1#1 ++ 0#4) BitVec.and_zero BitVec.and_zero BitVec.zero_and BitVec.and_zero BitVec.zero_and BitVec.zero_and BitVec.and_zero⟩

theorem prcpy (sa : BitVec 5) (sb : BitVec 5) (b : BitVec 1) : Statement (.prcpy sa sb b) := by
  intro w h hw
  have e := (Option.some.inj h).symm
  obtain ⟨m, f21, -, f10, f5, -, f0⟩ := fields_6_5_6_5_5_4_1 e
  exact ⟨0x1f801e#32, by rw [readForm_1D m]; unfold readMajor1D; rw [f21, f10, f5, f0]; rfl, mask_6_5_6_5_5_4_1 e (by decide : _ = 0#6 ++ 0#5 ++ 63#6 ++ 0#5 ++ 0#5 ++ 15#4 ++ 0#1) BitVec.and_zero BitVec.and_zero BitVec.zero_and BitVec.and_zero BitVec.and_zero BitVec.zero_and BitVec.and_zero⟩

theorem przero (sa : BitVec 5) : Statement (.przero sa) := by
  intro w h hw
  have e := (Option.some.inj h).symm
  obtain ⟨m, f21, -, f10, -, -⟩ := fields_6_5_6_5_5_5 e
  exact ⟨0x1f83ff#32, by rw [readForm_1D m]; unfold readMajor1D; rw [f21, f10]; rfl, mask_6_5_6_5_5_5 e (by decide : _ = 0#6 ++ 0#5 ++ 63#6 ++ 0#5 ++ 31#5 ++ 31#5) BitVec.and_zero BitVec.and_zero BitVec.zero_and BitVec.and_zero BitVec.zero_and BitVec.zero_and⟩

theorem pflush (u : BitVec 4) : Statement (.pflush u) := by
  intro w h hw
  have e := (Option.some.inj h).symm
  obtain ⟨m, f21, -, -, -, -, f0⟩ := fields_6_5_6_5_5_1_4 e
  exact ⟨0x1ffff0#32, by rw [readForm_1D m]; unfold readMajor1D; rw [f21, f0]; rfl, mask_6_5_6_5_5_1_4 e (by decide : _ = 0#6 ++ 0#5 ++ 63#6 ++ 31#5 ++ 31#5 ++ 1#1 ++ 0#4) BitVec.and_zero BitVec.and_zero BitVec.zero_and BitVec.zero_and BitVec.zero_and BitVec.zero_and BitVec.and_zero⟩

theorem xbkt (tag : BitVec 6) (sa : BitVec 5) : Statement (.xbkt tag sa) := by
  intro w h hw
  have e := (Option.some.inj h).symm
  obtain ⟨m, f21, f15, f10, -, -⟩ := fields_6_5_6_5_5_5 e
  exact ⟨0x3ff#32, by rw [readForm_1E m]; unfold readMajor1E; rw [f21, f15, f10]; rfl, mask_6_5_6_5_5_5 e (by decide : _ = 0#6 ++ 0#5 ++ 0#6 ++ 0#5 ++ 31#5 ++ 31#5) BitVec.and_zero BitVec.and_zero BitVec.and_zero BitVec.and_zero BitVec.zero_and BitVec.zero_and⟩

theorem xa2a (tag : BitVec 6) (sa : BitVec 5) : Statement (.xa2a tag sa) := by
  intro w h hw
  have e := (Option.some.inj h).symm
  obtain ⟨m, f21, f15, f10, -, -⟩ := fields_6_5_6_5_5_5 e
  exact ⟨0x3ff#32, by rw [readForm_1E m]; unfold readMajor1E; rw [f21, f15, f10]; rfl, mask_6_5_6_5_5_5 e (by decide : _ = 0#6 ++ 0#5 ++ 0#6 ++ 0#5 ++ 31#5 ++ 31#5) BitVec.and_zero BitVec.and_zero BitVec.and_zero BitVec.and_zero BitVec.zero_and BitVec.zero_and⟩

theorem xput (tag : BitVec 6) (sa : BitVec 5) : Statement (.xput tag sa) := by
  intro w h hw
  have e := (Option.some.inj h).symm
  obtain ⟨m, f21, f15, f10, -, -⟩ := fields_6_5_6_5_5_5 e
  exact ⟨0x3ff#32, by rw [readForm_1E m]; unfold readMajor1E; rw [f21, f15, f10]; rfl, mask_6_5_6_5_5_5 e (by decide : _ = 0#6 ++ 0#5 ++ 0#6 ++ 0#5 ++ 31#5 ++ 31#5) BitVec.and_zero BitVec.and_zero BitVec.and_zero BitVec.and_zero BitVec.zero_and BitVec.zero_and⟩

theorem xget (tag : BitVec 6) (sa : BitVec 5) : Statement (.xget tag sa) := by
  intro w h hw
  have e := (Option.some.inj h).symm
  obtain ⟨m, f21, f15, f10, -, -⟩ := fields_6_5_6_5_5_5 e
  exact ⟨0x3ff#32, by rw [readForm_1E m]; unfold readMajor1E; rw [f21, f15, f10]; rfl, mask_6_5_6_5_5_5 e (by decide : _ = 0#6 ++ 0#5 ++ 0#6 ++ 0#5 ++ 31#5 ++ 31#5) BitVec.and_zero BitVec.and_zero BitVec.and_zero BitVec.and_zero BitVec.zero_and BitVec.zero_and⟩

theorem xamo (tag : BitVec 6) (sa : BitVec 5) : Statement (.xamo tag sa) := by
  intro w h hw
  have e := (Option.some.inj h).symm
  obtain ⟨m, f21, f15, f10, -, -⟩ := fields_6_5_6_5_5_5 e
  exact ⟨0x3ff#32, by rw [readForm_1E m]; unfold readMajor1E; rw [f21, f15, f10]; rfl, mask_6_5_6_5_5_5 e (by decide : _ = 0#6 ++ 0#5 ++ 0#6 ++ 0#5 ++ 31#5 ++ 31#5) BitVec.and_zero BitVec.and_zero BitVec.and_zero BitVec.and_zero BitVec.zero_and BitVec.zero_and⟩

theorem xsig (tag : BitVec 6) (sa : BitVec 5) (sb : BitVec 5) : Statement (.xsig tag sa sb) := by
  intro w h hw
  have e := (Option.some.inj h).symm
  obtain ⟨m, f21, f15, f10, f5, -⟩ := fields_6_5_6_5_5_5 e
  exact ⟨0x1f#32, by rw [readForm_1E m]; unfold readMajor1E; rw [f21, f15, f10, f5]; rfl, mask_6_5_6_5_5_5 e (by decide : _ = 0#6 ++ 0#5 ++ 0#6 ++ 0#5 ++ 0#5 ++ 31#5) BitVec.and_zero BitVec.and_zero BitVec.and_zero BitVec.and_zero BitVec.and_zero BitVec.zero_and⟩

theorem xwait (tag : BitVec 6) (sa : BitVec 5) : Statement (.xwait tag sa) := by
  intro w h hw
  have e := (Option.some.inj h).symm
  obtain ⟨m, f21, f15, f10, -, -⟩ := fields_6_5_6_5_5_5 e
  exact ⟨0x3ff#32, by rw [readForm_1E m]; unfold readMajor1E; rw [f21, f15, f10]; rfl, mask_6_5_6_5_5_5 e (by decide : _ = 0#6 ++ 0#5 ++ 0#6 ++ 0#5 ++ 31#5 ++ 31#5) BitVec.and_zero BitVec.and_zero BitVec.and_zero BitVec.and_zero BitVec.zero_and BitVec.zero_and⟩

theorem gbag (tag : BitVec 6) (sa : BitVec 5) : Statement (.gbag tag sa) := by
  intro w h hw
  have e := (Option.some.inj h).symm
  obtain ⟨m, f21, f15, f10, -, -⟩ := fields_6_5_6_5_5_5 e
  exact ⟨0x3ff#32, by rw [readForm_1F m]; unfold readMajor1F; rw [f21, f15, f10]; rfl, mask_6_5_6_5_5_5 e (by decide : _ = 0#6 ++ 0#5 ++ 0#6 ++ 0#5 ++ 31#5 ++ 31#5) BitVec.and_zero BitVec.and_zero BitVec.and_zero BitVec.and_zero BitVec.zero_and BitVec.zero_and⟩

theorem grow (tag : BitVec 6) (sa : BitVec 5) : Statement (.grow tag sa) := by
  intro w h hw
  have e := (Option.some.inj h).symm
  obtain ⟨m, f21, f15, f10, -, -⟩ := fields_6_5_6_5_5_5 e
  exact ⟨0x3ff#32, by rw [readForm_1F m]; unfold readMajor1F; rw [f21, f15, f10]; rfl, mask_6_5_6_5_5_5 e (by decide : _ = 0#6 ++ 0#5 ++ 0#6 ++ 0#5 ++ 31#5 ++ 31#5) BitVec.and_zero BitVec.and_zero BitVec.and_zero BitVec.and_zero BitVec.zero_and BitVec.zero_and⟩

theorem supd (tag : BitVec 6) (sa : BitVec 5) : Statement (.supd tag sa) := by
  intro w h hw
  have e := (Option.some.inj h).symm
  obtain ⟨m, f21, f15, f10, -, -⟩ := fields_6_5_6_5_5_5 e
  exact ⟨0x3ff#32, by rw [readForm_1F m]; unfold readMajor1F; rw [f21, f15, f10]; rfl, mask_6_5_6_5_5_5 e (by decide : _ = 0#6 ++ 0#5 ++ 0#6 ++ 0#5 ++ 31#5 ++ 31#5) BitVec.and_zero BitVec.and_zero BitVec.and_zero BitVec.and_zero BitVec.zero_and BitVec.zero_and⟩

theorem scommit (tag : BitVec 6) (sa : BitVec 5) (sb : BitVec 5) : Statement (.scommit tag sa sb) := by
  intro w h hw
  have e := (Option.some.inj h).symm
  obtain ⟨m, f21, f15, f10, f5, -⟩ := fields_6_5_6_5_5_5 e
  exact ⟨0x1f#32, by rw [readForm_1F m]; unfold readMajor1F; rw [f21, f15, f10, f5]; rfl, mask_6_5_6_5_5_5 e (by decide : _ = 0#6 ++ 0#5 ++ 0#6 ++ 0#5 ++ 0#5 ++ 31#5) BitVec.and_zero BitVec.and_zero BitVec.and_zero BitVec.and_zero BitVec.and_zero BitVec.zero_and⟩

theorem skq (tag : BitVec 6) (sa : BitVec 5) : Statement (.skq tag sa) := by
  intro w h hw
  have e := (Option.some.inj h).symm
  obtain ⟨m, f21, f15, f10, -, -⟩ := fields_6_5_6_5_5_5 e
  exact ⟨0x3ff#32, by rw [readForm_1F m]; unfold readMajor1F; rw [f21, f15, f10]; rfl, mask_6_5_6_5_5_5 e (by decide : _ = 0#6 ++ 0#5 ++ 0#6 ++ 0#5 ++ 31#5 ++ 31#5) BitVec.and_zero BitVec.and_zero BitVec.and_zero BitVec.and_zero BitVec.zero_and BitVec.zero_and⟩

theorem vadd (tok : BitVec 4) (vd : BitVec 5) (va : BitVec 5) (vb : BitVec 5) (la : BitVec 1) (lb : BitVec 1) : Statement (.vadd tok vd va vb la lb) := by
  intro w h hw
  have e := (Option.some.inj h).symm
  obtain ⟨m, f22, f17, f12, f7, f2, f1, f0⟩ := fields_6_4_5_5_5_5_1_1 e
  exact ⟨0#32, by rw [readForm_20 m]; unfold readMajor20; rw [f22, f17, f12, f7, f2, f1, f0]; rfl, BitVec.and_zero⟩

theorem vsub (tok : BitVec 4) (vd : BitVec 5) (va : BitVec 5) (vb : BitVec 5) (la : BitVec 1) (lb : BitVec 1) : Statement (.vsub tok vd va vb la lb) := by
  intro w h hw
  have e := (Option.some.inj h).symm
  obtain ⟨m, f22, f17, f12, f7, f2, f1, f0⟩ := fields_6_4_5_5_5_5_1_1 e
  exact ⟨0#32, by rw [readForm_20 m]; unfold readMajor20; rw [f22, f17, f12, f7, f2, f1, f0]; rfl, BitVec.and_zero⟩

theorem vmul (tok : BitVec 4) (vd : BitVec 5) (va : BitVec 5) (vb : BitVec 5) (la : BitVec 1) (lb : BitVec 1) : Statement (.vmul tok vd va vb la lb) := by
  intro w h hw
  have e := (Option.some.inj h).symm
  obtain ⟨m, f22, f17, f12, f7, f2, f1, f0⟩ := fields_6_4_5_5_5_5_1_1 e
  exact ⟨0#32, by rw [readForm_20 m]; unfold readMajor20; rw [f22, f17, f12, f7, f2, f1, f0]; rfl, BitVec.and_zero⟩

theorem vfma (tok : BitVec 4) (vd : BitVec 5) (va : BitVec 5) (vb : BitVec 5) (la : BitVec 1) (lb : BitVec 1) : Statement (.vfma tok vd va vb la lb) := by
  intro w h hw
  have e := (Option.some.inj h).symm
  obtain ⟨m, f22, f17, f12, f7, f2, f1, f0⟩ := fields_6_4_5_5_5_5_1_1 e
  exact ⟨0#32, by rw [readForm_20 m]; unfold readMajor20; rw [f22, f17, f12, f7, f2, f1, f0]; rfl, BitVec.and_zero⟩

theorem vfms (tok : BitVec 4) (vd : BitVec 5) (va : BitVec 5) (vb : BitVec 5) (la : BitVec 1) (lb : BitVec 1) : Statement (.vfms tok vd va vb la lb) := by
  intro w h hw
  have e := (Option.some.inj h).symm
  obtain ⟨m, f22, f17, f12, f7, f2, f1, f0⟩ := fields_6_4_5_5_5_5_1_1 e
  exact ⟨0#32, by rw [readForm_20 m]; unfold readMajor20; rw [f22, f17, f12, f7, f2, f1, f0]; rfl, BitVec.and_zero⟩

theorem vdiv (tok : BitVec 4) (vd : BitVec 5) (va : BitVec 5) (vb : BitVec 5) (la : BitVec 1) (lb : BitVec 1) : Statement (.vdiv tok vd va vb la lb) := by
  intro w h hw
  have e := (Option.some.inj h).symm
  obtain ⟨m, f22, f17, f12, f7, f2, f1, f0⟩ := fields_6_4_5_5_5_5_1_1 e
  exact ⟨0#32, by rw [readForm_20 m]; unfold readMajor20; rw [f22, f17, f12, f7, f2, f1, f0]; rfl, BitVec.and_zero⟩

theorem vsqrt (tok : BitVec 4) (vd : BitVec 5) (va : BitVec 5) (la : BitVec 1) : Statement (.vsqrt tok vd va la) := by
  intro w h hw
  have e := (Option.some.inj h).symm
  obtain ⟨m, f22, f17, f12, f7, -, f1, -⟩ := fields_6_4_5_5_5_5_1_1 e
  exact ⟨0x7d#32, by rw [readForm_20 m]; unfold readMajor20; rw [f22, f17, f12, f7, f1]; rfl, mask_6_4_5_5_5_5_1_1 e (by decide : _ = 0#6 ++ 0#4 ++ 0#5 ++ 0#5 ++ 0#5 ++ 31#5 ++ 0#1 ++ 1#1) BitVec.and_zero BitVec.and_zero BitVec.and_zero BitVec.and_zero BitVec.and_zero BitVec.zero_and BitVec.and_zero BitVec.zero_and⟩

theorem vmin (tok : BitVec 4) (vd : BitVec 5) (va : BitVec 5) (vb : BitVec 5) (la : BitVec 1) (lb : BitVec 1) : Statement (.vmin tok vd va vb la lb) := by
  intro w h hw
  have e := (Option.some.inj h).symm
  obtain ⟨m, f22, f17, f12, f7, f2, f1, f0⟩ := fields_6_4_5_5_5_5_1_1 e
  exact ⟨0#32, by rw [readForm_20 m]; unfold readMajor20; rw [f22, f17, f12, f7, f2, f1, f0]; rfl, BitVec.and_zero⟩

theorem vmax (tok : BitVec 4) (vd : BitVec 5) (va : BitVec 5) (vb : BitVec 5) (la : BitVec 1) (lb : BitVec 1) : Statement (.vmax tok vd va vb la lb) := by
  intro w h hw
  have e := (Option.some.inj h).symm
  obtain ⟨m, f22, f17, f12, f7, f2, f1, f0⟩ := fields_6_4_5_5_5_5_1_1 e
  exact ⟨0#32, by rw [readForm_20 m]; unfold readMajor20; rw [f22, f17, f12, f7, f2, f1, f0]; rfl, BitVec.and_zero⟩

theorem vabs (tok : BitVec 4) (vd : BitVec 5) (va : BitVec 5) (la : BitVec 1) : Statement (.vabs tok vd va la) := by
  intro w h hw
  have e := (Option.some.inj h).symm
  obtain ⟨m, f22, f17, f12, f7, -, f1, -⟩ := fields_6_4_5_5_5_5_1_1 e
  exact ⟨0x7d#32, by rw [readForm_20 m]; unfold readMajor20; rw [f22, f17, f12, f7, f1]; rfl, mask_6_4_5_5_5_5_1_1 e (by decide : _ = 0#6 ++ 0#4 ++ 0#5 ++ 0#5 ++ 0#5 ++ 31#5 ++ 0#1 ++ 1#1) BitVec.and_zero BitVec.and_zero BitVec.and_zero BitVec.and_zero BitVec.and_zero BitVec.zero_and BitVec.and_zero BitVec.zero_and⟩

theorem vneg (tok : BitVec 4) (vd : BitVec 5) (va : BitVec 5) (la : BitVec 1) : Statement (.vneg tok vd va la) := by
  intro w h hw
  have e := (Option.some.inj h).symm
  obtain ⟨m, f22, f17, f12, f7, -, f1, -⟩ := fields_6_4_5_5_5_5_1_1 e
  exact ⟨0x7d#32, by rw [readForm_20 m]; unfold readMajor20; rw [f22, f17, f12, f7, f1]; rfl, mask_6_4_5_5_5_5_1_1 e (by decide : _ = 0#6 ++ 0#4 ++ 0#5 ++ 0#5 ++ 0#5 ++ 31#5 ++ 0#1 ++ 1#1) BitVec.and_zero BitVec.and_zero BitVec.and_zero BitVec.and_zero BitVec.and_zero BitVec.zero_and BitVec.and_zero BitVec.zero_and⟩

theorem vfmaw (tok : BitVec 4) (vd : BitVec 5) (va : BitVec 5) (vb : BitVec 5) (la : BitVec 1) (lb : BitVec 1) : Statement (.vfmaw tok vd va vb la lb) := by
  intro w h hw
  have e := (Option.some.inj h).symm
  obtain ⟨m, f22, f17, f12, f7, f2, f1, f0⟩ := fields_6_4_5_5_5_5_1_1 e
  exact ⟨0#32, by rw [readForm_21 m]; unfold readMajor21; rw [f22, f17, f12, f7, f2, f1, f0]; rfl, BitVec.and_zero⟩

theorem vmulw (tok : BitVec 4) (vd : BitVec 5) (va : BitVec 5) (vb : BitVec 5) (la : BitVec 1) (lb : BitVec 1) : Statement (.vmulw tok vd va vb la lb) := by
  intro w h hw
  have e := (Option.some.inj h).symm
  obtain ⟨m, f22, f17, f12, f7, f2, f1, f0⟩ := fields_6_4_5_5_5_5_1_1 e
  exact ⟨0#32, by rw [readForm_21 m]; unfold readMajor21; rw [f22, f17, f12, f7, f2, f1, f0]; rfl, BitVec.and_zero⟩

theorem vaddw (tok : BitVec 4) (vd : BitVec 5) (va : BitVec 5) (vb : BitVec 5) (la : BitVec 1) (lb : BitVec 1) : Statement (.vaddw tok vd va vb la lb) := by
  intro w h hw
  have e := (Option.some.inj h).symm
  obtain ⟨m, f22, f17, f12, f7, f2, f1, f0⟩ := fields_6_4_5_5_5_5_1_1 e
  exact ⟨0#32, by rw [readForm_21 m]; unfold readMajor21; rw [f22, f17, f12, f7, f2, f1, f0]; rfl, BitVec.and_zero⟩

theorem vadds (tok : BitVec 4) (vd : BitVec 5) (va : BitVec 5) (vb : BitVec 5) (la : BitVec 1) (lb : BitVec 1) : Statement (.vadds tok vd va vb la lb) := by
  intro w h hw
  have e := (Option.some.inj h).symm
  obtain ⟨m, f22, f17, f12, f7, f2, f1, f0⟩ := fields_6_4_5_5_5_5_1_1 e
  exact ⟨0#32, by rw [readForm_22 m]; unfold readMajor22; rw [f22, f17, f12, f7, f2, f1, f0]; rfl, BitVec.and_zero⟩

theorem vsubs (tok : BitVec 4) (vd : BitVec 5) (va : BitVec 5) (vb : BitVec 5) (la : BitVec 1) (lb : BitVec 1) : Statement (.vsubs tok vd va vb la lb) := by
  intro w h hw
  have e := (Option.some.inj h).symm
  obtain ⟨m, f22, f17, f12, f7, f2, f1, f0⟩ := fields_6_4_5_5_5_5_1_1 e
  exact ⟨0#32, by rw [readForm_22 m]; unfold readMajor22; rw [f22, f17, f12, f7, f2, f1, f0]; rfl, BitVec.and_zero⟩

theorem vmulh (tok : BitVec 4) (vd : BitVec 5) (va : BitVec 5) (vb : BitVec 5) (la : BitVec 1) (lb : BitVec 1) : Statement (.vmulh tok vd va vb la lb) := by
  intro w h hw
  have e := (Option.some.inj h).symm
  obtain ⟨m, f22, f17, f12, f7, f2, f1, f0⟩ := fields_6_4_5_5_5_5_1_1 e
  exact ⟨0#32, by rw [readForm_22 m]; unfold readMajor22; rw [f22, f17, f12, f7, f2, f1, f0]; rfl, BitVec.and_zero⟩

theorem vdot4 (tok : BitVec 4) (vd : BitVec 5) (va : BitVec 5) (vb : BitVec 5) (la : BitVec 1) (lb : BitVec 1) : Statement (.vdot4 tok vd va vb la lb) := by
  intro w h hw
  have e := (Option.some.inj h).symm
  obtain ⟨m, f22, f17, f12, f7, f2, f1, f0⟩ := fields_6_4_5_5_5_5_1_1 e
  exact ⟨0#32, by rw [readForm_22 m]; unfold readMajor22; rw [f22, f17, f12, f7, f2, f1, f0]; rfl, BitVec.and_zero⟩

theorem vand (tok : BitVec 4) (vd : BitVec 5) (va : BitVec 5) (vb : BitVec 5) (la : BitVec 1) (lb : BitVec 1) : Statement (.vand tok vd va vb la lb) := by
  intro w h hw
  have e := (Option.some.inj h).symm
  obtain ⟨m, f22, f17, f12, f7, f2, f1, f0⟩ := fields_6_4_5_5_5_5_1_1 e
  exact ⟨0#32, by rw [readForm_23 m]; unfold readMajor23; rw [f22, f17, f12, f7, f2, f1, f0]; rfl, BitVec.and_zero⟩

theorem vor (tok : BitVec 4) (vd : BitVec 5) (va : BitVec 5) (vb : BitVec 5) (la : BitVec 1) (lb : BitVec 1) : Statement (.vor tok vd va vb la lb) := by
  intro w h hw
  have e := (Option.some.inj h).symm
  obtain ⟨m, f22, f17, f12, f7, f2, f1, f0⟩ := fields_6_4_5_5_5_5_1_1 e
  exact ⟨0#32, by rw [readForm_23 m]; unfold readMajor23; rw [f22, f17, f12, f7, f2, f1, f0]; rfl, BitVec.and_zero⟩

theorem vxor (tok : BitVec 4) (vd : BitVec 5) (va : BitVec 5) (vb : BitVec 5) (la : BitVec 1) (lb : BitVec 1) : Statement (.vxor tok vd va vb la lb) := by
  intro w h hw
  have e := (Option.some.inj h).symm
  obtain ⟨m, f22, f17, f12, f7, f2, f1, f0⟩ := fields_6_4_5_5_5_5_1_1 e
  exact ⟨0#32, by rw [readForm_23 m]; unfold readMajor23; rw [f22, f17, f12, f7, f2, f1, f0]; rfl, BitVec.and_zero⟩

theorem vnot (tok : BitVec 4) (vd : BitVec 5) (va : BitVec 5) (la : BitVec 1) : Statement (.vnot tok vd va la) := by
  intro w h hw
  have e := (Option.some.inj h).symm
  obtain ⟨m, f22, f17, f12, f7, -, f1, -⟩ := fields_6_4_5_5_5_5_1_1 e
  exact ⟨0x7d#32, by rw [readForm_23 m]; unfold readMajor23; rw [f22, f17, f12, f7, f1]; rfl, mask_6_4_5_5_5_5_1_1 e (by decide : _ = 0#6 ++ 0#4 ++ 0#5 ++ 0#5 ++ 0#5 ++ 31#5 ++ 0#1 ++ 1#1) BitVec.and_zero BitVec.and_zero BitVec.and_zero BitVec.and_zero BitVec.and_zero BitVec.zero_and BitVec.and_zero BitVec.zero_and⟩

theorem vsll (tok : BitVec 4) (vd : BitVec 5) (va : BitVec 5) (vb : BitVec 5) (la : BitVec 1) (lb : BitVec 1) : Statement (.vsll tok vd va vb la lb) := by
  intro w h hw
  have e := (Option.some.inj h).symm
  obtain ⟨m, f22, f17, f12, f7, f2, f1, f0⟩ := fields_6_4_5_5_5_5_1_1 e
  exact ⟨0#32, by rw [readForm_23 m]; unfold readMajor23; rw [f22, f17, f12, f7, f2, f1, f0]; rfl, BitVec.and_zero⟩

theorem vsrl (tok : BitVec 4) (vd : BitVec 5) (va : BitVec 5) (vb : BitVec 5) (la : BitVec 1) (lb : BitVec 1) : Statement (.vsrl tok vd va vb la lb) := by
  intro w h hw
  have e := (Option.some.inj h).symm
  obtain ⟨m, f22, f17, f12, f7, f2, f1, f0⟩ := fields_6_4_5_5_5_5_1_1 e
  exact ⟨0#32, by rw [readForm_23 m]; unfold readMajor23; rw [f22, f17, f12, f7, f2, f1, f0]; rfl, BitVec.and_zero⟩

theorem vsra (tok : BitVec 4) (vd : BitVec 5) (va : BitVec 5) (vb : BitVec 5) (la : BitVec 1) (lb : BitVec 1) : Statement (.vsra tok vd va vb la lb) := by
  intro w h hw
  have e := (Option.some.inj h).symm
  obtain ⟨m, f22, f17, f12, f7, f2, f1, f0⟩ := fields_6_4_5_5_5_5_1_1 e
  exact ⟨0#32, by rw [readForm_23 m]; unfold readMajor23; rw [f22, f17, f12, f7, f2, f1, f0]; rfl, BitVec.and_zero⟩

theorem vpopc (tok : BitVec 4) (vd : BitVec 5) (va : BitVec 5) (la : BitVec 1) : Statement (.vpopc tok vd va la) := by
  intro w h hw
  have e := (Option.some.inj h).symm
  obtain ⟨m, f22, f17, f12, f7, -, f1, -⟩ := fields_6_4_5_5_5_5_1_1 e
  exact ⟨0x7d#32, by rw [readForm_23 m]; unfold readMajor23; rw [f22, f17, f12, f7, f1]; rfl, mask_6_4_5_5_5_5_1_1 e (by decide : _ = 0#6 ++ 0#4 ++ 0#5 ++ 0#5 ++ 0#5 ++ 31#5 ++ 0#1 ++ 1#1) BitVec.and_zero BitVec.and_zero BitVec.and_zero BitVec.and_zero BitVec.and_zero BitVec.zero_and BitVec.and_zero BitVec.zero_and⟩

theorem vpeq (tok : BitVec 4) (va : BitVec 5) (vb : BitVec 5) (la : BitVec 1) (lb : BitVec 1) : Statement (.vpeq tok va vb la lb) := by
  intro w h hw
  have e := (Option.some.inj h).symm
  obtain ⟨m, f22, f17, -, f7, f2, f1, f0⟩ := fields_6_4_5_5_5_5_1_1 e
  exact ⟨0x1f000#32, by rw [readForm_24 m]; unfold readMajor24; rw [f22, f17, f7, f2, f1, f0]; rfl, mask_6_4_5_5_5_5_1_1 e (by decide : _ = 0#6 ++ 0#4 ++ 0#5 ++ 31#5 ++ 0#5 ++ 0#5 ++ 0#1 ++ 0#1) BitVec.and_zero BitVec.and_zero BitVec.and_zero BitVec.zero_and BitVec.and_zero BitVec.and_zero BitVec.and_zero BitVec.and_zero⟩

theorem vpne (tok : BitVec 4) (va : BitVec 5) (vb : BitVec 5) (la : BitVec 1) (lb : BitVec 1) : Statement (.vpne tok va vb la lb) := by
  intro w h hw
  have e := (Option.some.inj h).symm
  obtain ⟨m, f22, f17, -, f7, f2, f1, f0⟩ := fields_6_4_5_5_5_5_1_1 e
  exact ⟨0x1f000#32, by rw [readForm_24 m]; unfold readMajor24; rw [f22, f17, f7, f2, f1, f0]; rfl, mask_6_4_5_5_5_5_1_1 e (by decide : _ = 0#6 ++ 0#4 ++ 0#5 ++ 31#5 ++ 0#5 ++ 0#5 ++ 0#1 ++ 0#1) BitVec.and_zero BitVec.and_zero BitVec.and_zero BitVec.zero_and BitVec.and_zero BitVec.and_zero BitVec.and_zero BitVec.and_zero⟩

theorem vplt (tok : BitVec 4) (va : BitVec 5) (vb : BitVec 5) (la : BitVec 1) (lb : BitVec 1) : Statement (.vplt tok va vb la lb) := by
  intro w h hw
  have e := (Option.some.inj h).symm
  obtain ⟨m, f22, f17, -, f7, f2, f1, f0⟩ := fields_6_4_5_5_5_5_1_1 e
  exact ⟨0x1f000#32, by rw [readForm_24 m]; unfold readMajor24; rw [f22, f17, f7, f2, f1, f0]; rfl, mask_6_4_5_5_5_5_1_1 e (by decide : _ = 0#6 ++ 0#4 ++ 0#5 ++ 31#5 ++ 0#5 ++ 0#5 ++ 0#1 ++ 0#1) BitVec.and_zero BitVec.and_zero BitVec.and_zero BitVec.zero_and BitVec.and_zero BitVec.and_zero BitVec.and_zero BitVec.and_zero⟩

theorem vple (tok : BitVec 4) (va : BitVec 5) (vb : BitVec 5) (la : BitVec 1) (lb : BitVec 1) : Statement (.vple tok va vb la lb) := by
  intro w h hw
  have e := (Option.some.inj h).symm
  obtain ⟨m, f22, f17, -, f7, f2, f1, f0⟩ := fields_6_4_5_5_5_5_1_1 e
  exact ⟨0x1f000#32, by rw [readForm_24 m]; unfold readMajor24; rw [f22, f17, f7, f2, f1, f0]; rfl, mask_6_4_5_5_5_5_1_1 e (by decide : _ = 0#6 ++ 0#4 ++ 0#5 ++ 31#5 ++ 0#5 ++ 0#5 ++ 0#1 ++ 0#1) BitVec.and_zero BitVec.and_zero BitVec.and_zero BitVec.zero_and BitVec.and_zero BitVec.and_zero BitVec.and_zero BitVec.and_zero⟩

theorem vpnan (tok : BitVec 4) (va : BitVec 5) (la : BitVec 1) : Statement (.vpnan tok va la) := by
  intro w h hw
  have e := (Option.some.inj h).symm
  obtain ⟨m, f22, f17, -, f7, -, f1, -⟩ := fields_6_4_5_5_5_5_1_1 e
  exact ⟨0x1f07d#32, by rw [readForm_24 m]; unfold readMajor24; rw [f22, f17, f7, f1]; rfl, mask_6_4_5_5_5_5_1_1 e (by decide : _ = 0#6 ++ 0#4 ++ 0#5 ++ 31#5 ++ 0#5 ++ 31#5 ++ 0#1 ++ 1#1) BitVec.and_zero BitVec.and_zero BitVec.and_zero BitVec.zero_and BitVec.and_zero BitVec.zero_and BitVec.and_zero BitVec.zero_and⟩

theorem vpfin (tok : BitVec 4) (va : BitVec 5) (la : BitVec 1) : Statement (.vpfin tok va la) := by
  intro w h hw
  have e := (Option.some.inj h).symm
  obtain ⟨m, f22, f17, -, f7, -, f1, -⟩ := fields_6_4_5_5_5_5_1_1 e
  exact ⟨0x1f07d#32, by rw [readForm_24 m]; unfold readMajor24; rw [f22, f17, f7, f1]; rfl, mask_6_4_5_5_5_5_1_1 e (by decide : _ = 0#6 ++ 0#4 ++ 0#5 ++ 31#5 ++ 0#5 ++ 31#5 ++ 0#1 ++ 1#1) BitVec.and_zero BitVec.and_zero BitVec.and_zero BitVec.zero_and BitVec.and_zero BitVec.zero_and BitVec.and_zero BitVec.zero_and⟩

theorem vpld (tok : BitVec 4) (va : BitVec 5) (la : BitVec 1) : Statement (.vpld tok va la) := by
  intro w h hw
  have e := (Option.some.inj h).symm
  obtain ⟨m, f22, f17, -, f7, -, f1, -⟩ := fields_6_4_5_5_5_5_1_1 e
  exact ⟨0x1f07d#32, by rw [readForm_24 m]; unfold readMajor24; rw [f22, f17, f7, f1]; rfl, mask_6_4_5_5_5_5_1_1 e (by decide : _ = 0#6 ++ 0#4 ++ 0#5 ++ 31#5 ++ 0#5 ++ 31#5 ++ 0#1 ++ 1#1) BitVec.and_zero BitVec.and_zero BitVec.and_zero BitVec.zero_and BitVec.and_zero BitVec.zero_and BitVec.and_zero BitVec.zero_and⟩

theorem vpst (tok : BitVec 4) (vd : BitVec 5) : Statement (.vpst tok vd) := by
  intro w h hw
  have e := (Option.some.inj h).symm
  obtain ⟨m, f22, f17, f12, -, -, -, -⟩ := fields_6_4_5_5_5_5_1_1 e
  exact ⟨0xfff#32, by rw [readForm_24 m]; unfold readMajor24; rw [f22, f17, f12]; rfl, mask_6_4_5_5_5_5_1_1 e (by decide : _ = 0#6 ++ 0#4 ++ 0#5 ++ 0#5 ++ 31#5 ++ 31#5 ++ 1#1 ++ 1#1) BitVec.and_zero BitVec.and_zero BitVec.and_zero BitVec.and_zero BitVec.zero_and BitVec.zero_and BitVec.zero_and BitVec.zero_and⟩

theorem vcvt (tok : BitVec 4) (vd : BitVec 5) (va : BitVec 5) (la : BitVec 1) : Statement (.vcvt tok vd va la) := by
  intro w h hw
  have e := (Option.some.inj h).symm
  obtain ⟨m, f22, f17, f12, f7, -, f1, -⟩ := fields_6_4_5_5_5_5_1_1 e
  exact ⟨0x7d#32, by rw [readForm_25 m]; unfold readMajor25; rw [f22, f17, f12, f7, f1]; rfl, mask_6_4_5_5_5_5_1_1 e (by decide : _ = 0#6 ++ 0#4 ++ 0#5 ++ 0#5 ++ 0#5 ++ 31#5 ++ 0#1 ++ 1#1) BitVec.and_zero BitVec.and_zero BitVec.and_zero BitVec.and_zero BitVec.and_zero BitVec.zero_and BitVec.and_zero BitVec.zero_and⟩

theorem vcvtsr (tok : BitVec 4) (vd : BitVec 5) (va : BitVec 5) (k : BitVec 3) (la : BitVec 1) : Statement (.vcvtsr tok vd va k la) := by
  intro w h hw
  have e := (Option.some.inj h).symm
  obtain ⟨m, f22, f17, f12, f7, -, f2, f1, -⟩ := fields_6_4_5_5_5_2_3_1_1 e
  exact ⟨0x61#32, by rw [readForm_25 m]; unfold readMajor25; rw [f22, f17, f12, f7, f2, f1]; rfl, mask_6_4_5_5_5_2_3_1_1 e (by decide : _ = 0#6 ++ 0#4 ++ 0#5 ++ 0#5 ++ 0#5 ++ 3#2 ++ 0#3 ++ 0#1 ++ 1#1) BitVec.and_zero BitVec.and_zero BitVec.and_zero BitVec.and_zero BitVec.and_zero BitVec.zero_and BitVec.and_zero BitVec.and_zero BitVec.zero_and⟩

theorem vqblk (tok : BitVec 4) (vd : BitVec 5) (va : BitVec 5) (la : BitVec 1) : Statement (.vqblk tok vd va la) := by
  intro w h hw
  have e := (Option.some.inj h).symm
  obtain ⟨m, f22, f17, f12, f7, -, f1, -⟩ := fields_6_4_5_5_5_5_1_1 e
  exact ⟨0x7d#32, by rw [readForm_25 m]; unfold readMajor25; rw [f22, f17, f12, f7, f1]; rfl, mask_6_4_5_5_5_5_1_1 e (by decide : _ = 0#6 ++ 0#4 ++ 0#5 ++ 0#5 ++ 0#5 ++ 31#5 ++ 0#1 ++ 1#1) BitVec.and_zero BitVec.and_zero BitVec.and_zero BitVec.and_zero BitVec.and_zero BitVec.zero_and BitVec.and_zero BitVec.zero_and⟩

theorem vdqblk (tok : BitVec 4) (vd : BitVec 5) (va : BitVec 5) (la : BitVec 1) : Statement (.vdqblk tok vd va la) := by
  intro w h hw
  have e := (Option.some.inj h).symm
  obtain ⟨m, f22, f17, f12, f7, -, f1, -⟩ := fields_6_4_5_5_5_5_1_1 e
  exact ⟨0x7d#32, by rw [readForm_25 m]; unfold readMajor25; rw [f22, f17, f12, f7, f1]; rfl, mask_6_4_5_5_5_5_1_1 e (by decide : _ = 0#6 ++ 0#4 ++ 0#5 ++ 0#5 ++ 0#5 ++ 31#5 ++ 0#1 ++ 1#1) BitVec.and_zero BitVec.and_zero BitVec.and_zero BitVec.and_zero BitVec.and_zero BitVec.zero_and BitVec.and_zero BitVec.zero_and⟩

theorem vwid (tok : BitVec 4) (vd : BitVec 5) (va : BitVec 5) (la : BitVec 1) : Statement (.vwid tok vd va la) := by
  intro w h hw
  have e := (Option.some.inj h).symm
  obtain ⟨m, f22, f17, f12, f7, -, f1, -⟩ := fields_6_4_5_5_5_5_1_1 e
  exact ⟨0x7d#32, by rw [readForm_25 m]; unfold readMajor25; rw [f22, f17, f12, f7, f1]; rfl, mask_6_4_5_5_5_5_1_1 e (by decide : _ = 0#6 ++ 0#4 ++ 0#5 ++ 0#5 ++ 0#5 ++ 31#5 ++ 0#1 ++ 1#1) BitVec.and_zero BitVec.and_zero BitVec.and_zero BitVec.and_zero BitVec.and_zero BitVec.zero_and BitVec.and_zero BitVec.zero_and⟩

theorem vnarr (tok : BitVec 4) (vd : BitVec 5) (va : BitVec 5) (la : BitVec 1) : Statement (.vnarr tok vd va la) := by
  intro w h hw
  have e := (Option.some.inj h).symm
  obtain ⟨m, f22, f17, f12, f7, -, f1, -⟩ := fields_6_4_5_5_5_5_1_1 e
  exact ⟨0x7d#32, by rw [readForm_25 m]; unfold readMajor25; rw [f22, f17, f12, f7, f1]; rfl, mask_6_4_5_5_5_5_1_1 e (by decide : _ = 0#6 ++ 0#4 ++ 0#5 ++ 0#5 ++ 0#5 ++ 31#5 ++ 0#1 ++ 1#1) BitVec.and_zero BitVec.and_zero BitVec.and_zero BitVec.and_zero BitVec.and_zero BitVec.zero_and BitVec.and_zero BitVec.zero_and⟩

theorem vrcp (tok : BitVec 4) (vd : BitVec 5) (va : BitVec 5) (la : BitVec 1) : Statement (.vrcp tok vd va la) := by
  intro w h hw
  have e := (Option.some.inj h).symm
  obtain ⟨m, f22, f17, f12, f7, -, f1, -⟩ := fields_6_4_5_5_5_5_1_1 e
  exact ⟨0x7d#32, by rw [readForm_26 m]; unfold readMajor26; rw [f22, f17, f12, f7, f1]; rfl, mask_6_4_5_5_5_5_1_1 e (by decide : _ = 0#6 ++ 0#4 ++ 0#5 ++ 0#5 ++ 0#5 ++ 31#5 ++ 0#1 ++ 1#1) BitVec.and_zero BitVec.and_zero BitVec.and_zero BitVec.and_zero BitVec.and_zero BitVec.zero_and BitVec.and_zero BitVec.zero_and⟩

theorem vrsqrt (tok : BitVec 4) (vd : BitVec 5) (va : BitVec 5) (la : BitVec 1) : Statement (.vrsqrt tok vd va la) := by
  intro w h hw
  have e := (Option.some.inj h).symm
  obtain ⟨m, f22, f17, f12, f7, -, f1, -⟩ := fields_6_4_5_5_5_5_1_1 e
  exact ⟨0x7d#32, by rw [readForm_26 m]; unfold readMajor26; rw [f22, f17, f12, f7, f1]; rfl, mask_6_4_5_5_5_5_1_1 e (by decide : _ = 0#6 ++ 0#4 ++ 0#5 ++ 0#5 ++ 0#5 ++ 31#5 ++ 0#1 ++ 1#1) BitVec.and_zero BitVec.and_zero BitVec.and_zero BitVec.and_zero BitVec.and_zero BitVec.zero_and BitVec.and_zero BitVec.zero_and⟩

theorem vexp (tok : BitVec 4) (vd : BitVec 5) (va : BitVec 5) (la : BitVec 1) : Statement (.vexp tok vd va la) := by
  intro w h hw
  have e := (Option.some.inj h).symm
  obtain ⟨m, f22, f17, f12, f7, -, f1, -⟩ := fields_6_4_5_5_5_5_1_1 e
  exact ⟨0x7d#32, by rw [readForm_26 m]; unfold readMajor26; rw [f22, f17, f12, f7, f1]; rfl, mask_6_4_5_5_5_5_1_1 e (by decide : _ = 0#6 ++ 0#4 ++ 0#5 ++ 0#5 ++ 0#5 ++ 31#5 ++ 0#1 ++ 1#1) BitVec.and_zero BitVec.and_zero BitVec.and_zero BitVec.and_zero BitVec.and_zero BitVec.zero_and BitVec.and_zero BitVec.zero_and⟩

theorem vlog (tok : BitVec 4) (vd : BitVec 5) (va : BitVec 5) (la : BitVec 1) : Statement (.vlog tok vd va la) := by
  intro w h hw
  have e := (Option.some.inj h).symm
  obtain ⟨m, f22, f17, f12, f7, -, f1, -⟩ := fields_6_4_5_5_5_5_1_1 e
  exact ⟨0x7d#32, by rw [readForm_26 m]; unfold readMajor26; rw [f22, f17, f12, f7, f1]; rfl, mask_6_4_5_5_5_5_1_1 e (by decide : _ = 0#6 ++ 0#4 ++ 0#5 ++ 0#5 ++ 0#5 ++ 31#5 ++ 0#1 ++ 1#1) BitVec.and_zero BitVec.and_zero BitVec.and_zero BitVec.and_zero BitVec.and_zero BitVec.zero_and BitVec.and_zero BitVec.zero_and⟩

theorem vtanh (tok : BitVec 4) (vd : BitVec 5) (va : BitVec 5) (la : BitVec 1) : Statement (.vtanh tok vd va la) := by
  intro w h hw
  have e := (Option.some.inj h).symm
  obtain ⟨m, f22, f17, f12, f7, -, f1, -⟩ := fields_6_4_5_5_5_5_1_1 e
  exact ⟨0x7d#32, by rw [readForm_26 m]; unfold readMajor26; rw [f22, f17, f12, f7, f1]; rfl, mask_6_4_5_5_5_5_1_1 e (by decide : _ = 0#6 ++ 0#4 ++ 0#5 ++ 0#5 ++ 0#5 ++ 31#5 ++ 0#1 ++ 1#1) BitVec.and_zero BitVec.and_zero BitVec.and_zero BitVec.and_zero BitVec.and_zero BitVec.zero_and BitVec.and_zero BitVec.zero_and⟩

theorem vsigm (tok : BitVec 4) (vd : BitVec 5) (va : BitVec 5) (la : BitVec 1) : Statement (.vsigm tok vd va la) := by
  intro w h hw
  have e := (Option.some.inj h).symm
  obtain ⟨m, f22, f17, f12, f7, -, f1, -⟩ := fields_6_4_5_5_5_5_1_1 e
  exact ⟨0x7d#32, by rw [readForm_26 m]; unfold readMajor26; rw [f22, f17, f12, f7, f1]; rfl, mask_6_4_5_5_5_5_1_1 e (by decide : _ = 0#6 ++ 0#4 ++ 0#5 ++ 0#5 ++ 0#5 ++ 31#5 ++ 0#1 ++ 1#1) BitVec.and_zero BitVec.and_zero BitVec.and_zero BitVec.and_zero BitVec.and_zero BitVec.zero_and BitVec.and_zero BitVec.zero_and⟩

theorem vperm (tok : BitVec 4) (vd : BitVec 5) (va : BitVec 5) (vb : BitVec 5) (la : BitVec 1) (lb : BitVec 1) : Statement (.vperm tok vd va vb la lb) := by
  intro w h hw
  have e := (Option.some.inj h).symm
  obtain ⟨m, f22, f17, f12, f7, f2, f1, f0⟩ := fields_6_4_5_5_5_5_1_1 e
  exact ⟨0#32, by rw [readForm_27 m]; unfold readMajor27; rw [f22, f17, f12, f7, f2, f1, f0]; rfl, BitVec.and_zero⟩

theorem vcomp (tok : BitVec 4) (vd : BitVec 5) (va : BitVec 5) (m : BitVec 1) (k : BitVec 3) (la : BitVec 1) : Statement (.vcomp tok vd va m k la) := by
  intro w h hw
  have e := (Option.some.inj h).symm
  obtain ⟨m, f22, f17, f12, f7, -, f5, f2, f1, -⟩ := fields_6_4_5_5_5_1_1_3_1_1 e
  exact ⟨0x41#32, by rw [readForm_27 m]; unfold readMajor27; rw [f22, f17, f12, f7, f5, f2, f1]; rfl, mask_6_4_5_5_5_1_1_3_1_1 e (by decide : _ = 0#6 ++ 0#4 ++ 0#5 ++ 0#5 ++ 0#5 ++ 1#1 ++ 0#1 ++ 0#3 ++ 0#1 ++ 1#1) BitVec.and_zero BitVec.and_zero BitVec.and_zero BitVec.and_zero BitVec.and_zero BitVec.zero_and BitVec.and_zero BitVec.and_zero BitVec.and_zero BitVec.zero_and⟩

theorem vexpd (tok : BitVec 4) (vd : BitVec 5) (va : BitVec 5) (la : BitVec 1) : Statement (.vexpd tok vd va la) := by
  intro w h hw
  have e := (Option.some.inj h).symm
  obtain ⟨m, f22, f17, f12, f7, -, f1, -⟩ := fields_6_4_5_5_5_5_1_1 e
  exact ⟨0x7d#32, by rw [readForm_27 m]; unfold readMajor27; rw [f22, f17, f12, f7, f1]; rfl, mask_6_4_5_5_5_5_1_1 e (by decide : _ = 0#6 ++ 0#4 ++ 0#5 ++ 0#5 ++ 0#5 ++ 31#5 ++ 0#1 ++ 1#1) BitVec.and_zero BitVec.and_zero BitVec.and_zero BitVec.and_zero BitVec.and_zero BitVec.zero_and BitVec.and_zero BitVec.zero_and⟩

theorem vpart (tok : BitVec 4) (vd : BitVec 5) (va : BitVec 5) (k : BitVec 3) (la : BitVec 1) : Statement (.vpart tok vd va k la) := by
  intro w h hw
  have e := (Option.some.inj h).symm
  obtain ⟨m, f22, f17, f12, f7, -, f2, f1, -⟩ := fields_6_4_5_5_5_2_3_1_1 e
  exact ⟨0x61#32, by rw [readForm_27 m]; unfold readMajor27; rw [f22, f17, f12, f7, f2, f1]; rfl, mask_6_4_5_5_5_2_3_1_1 e (by decide : _ = 0#6 ++ 0#4 ++ 0#5 ++ 0#5 ++ 0#5 ++ 3#2 ++ 0#3 ++ 0#1 ++ 1#1) BitVec.and_zero BitVec.and_zero BitVec.and_zero BitVec.and_zero BitVec.and_zero BitVec.zero_and BitVec.and_zero BitVec.and_zero BitVec.zero_and⟩

theorem vslide (tok : BitVec 4) (vd : BitVec 5) (va : BitVec 5) (k : BitVec 3) (la : BitVec 1) : Statement (.vslide tok vd va k la) := by
  intro w h hw
  have e := (Option.some.inj h).symm
  obtain ⟨m, f22, f17, f12, f7, -, f2, f1, -⟩ := fields_6_4_5_5_5_2_3_1_1 e
  exact ⟨0x61#32, by rw [readForm_27 m]; unfold readMajor27; rw [f22, f17, f12, f7, f2, f1]; rfl, mask_6_4_5_5_5_2_3_1_1 e (by decide : _ = 0#6 ++ 0#4 ++ 0#5 ++ 0#5 ++ 0#5 ++ 3#2 ++ 0#3 ++ 0#1 ++ 1#1) BitVec.and_zero BitVec.and_zero BitVec.and_zero BitVec.and_zero BitVec.and_zero BitVec.zero_and BitVec.and_zero BitVec.and_zero BitVec.zero_and⟩

theorem vzip (tok : BitVec 4) (vd : BitVec 5) (va : BitVec 5) (vb : BitVec 5) (la : BitVec 1) (lb : BitVec 1) : Statement (.vzip tok vd va vb la lb) := by
  intro w h hw
  have e := (Option.some.inj h).symm
  obtain ⟨m, f22, f17, f12, f7, f2, f1, f0⟩ := fields_6_4_5_5_5_5_1_1 e
  exact ⟨0#32, by rw [readForm_27 m]; unfold readMajor27; rw [f22, f17, f12, f7, f2, f1, f0]; rfl, BitVec.and_zero⟩

theorem vunzip (tok : BitVec 4) (vd : BitVec 5) (va : BitVec 5) (la : BitVec 1) : Statement (.vunzip tok vd va la) := by
  intro w h hw
  have e := (Option.some.inj h).symm
  obtain ⟨m, f22, f17, f12, f7, -, f1, -⟩ := fields_6_4_5_5_5_5_1_1 e
  exact ⟨0x7d#32, by rw [readForm_27 m]; unfold readMajor27; rw [f22, f17, f12, f7, f1]; rfl, mask_6_4_5_5_5_5_1_1 e (by decide : _ = 0#6 ++ 0#4 ++ 0#5 ++ 0#5 ++ 0#5 ++ 31#5 ++ 0#1 ++ 1#1) BitVec.and_zero BitVec.and_zero BitVec.and_zero BitVec.and_zero BitVec.and_zero BitVec.zero_and BitVec.and_zero BitVec.zero_and⟩

theorem vbcast (tok : BitVec 4) (vd : BitVec 5) (va : BitVec 5) (k : BitVec 3) (la : BitVec 1) : Statement (.vbcast tok vd va k la) := by
  intro w h hw
  have e := (Option.some.inj h).symm
  obtain ⟨m, f22, f17, f12, f7, -, f2, f1, -⟩ := fields_6_4_5_5_5_2_3_1_1 e
  exact ⟨0x61#32, by rw [readForm_27 m]; unfold readMajor27; rw [f22, f17, f12, f7, f2, f1]; rfl, mask_6_4_5_5_5_2_3_1_1 e (by decide : _ = 0#6 ++ 0#4 ++ 0#5 ++ 0#5 ++ 0#5 ++ 3#2 ++ 0#3 ++ 0#1 ++ 1#1) BitVec.and_zero BitVec.and_zero BitVec.and_zero BitVec.and_zero BitVec.and_zero BitVec.zero_and BitVec.and_zero BitVec.and_zero BitVec.zero_and⟩

theorem vredsum (tok : BitVec 4) (vd : BitVec 5) (va : BitVec 5) (k : BitVec 3) (la : BitVec 1) : Statement (.vredsum tok vd va k la) := by
  intro w h hw
  have e := (Option.some.inj h).symm
  obtain ⟨m, f22, f17, f12, f7, -, f2, f1, -⟩ := fields_6_4_5_5_5_2_3_1_1 e
  exact ⟨0x61#32, by rw [readForm_28 m]; unfold readMajor28; rw [f22, f17, f12, f7, f2, f1]; rfl, mask_6_4_5_5_5_2_3_1_1 e (by decide : _ = 0#6 ++ 0#4 ++ 0#5 ++ 0#5 ++ 0#5 ++ 3#2 ++ 0#3 ++ 0#1 ++ 1#1) BitVec.and_zero BitVec.and_zero BitVec.and_zero BitVec.and_zero BitVec.and_zero BitVec.zero_and BitVec.and_zero BitVec.and_zero BitVec.zero_and⟩

theorem vredmax (tok : BitVec 4) (vd : BitVec 5) (va : BitVec 5) (k : BitVec 3) (la : BitVec 1) : Statement (.vredmax tok vd va k la) := by
  intro w h hw
  have e := (Option.some.inj h).symm
  obtain ⟨m, f22, f17, f12, f7, -, f2, f1, -⟩ := fields_6_4_5_5_5_2_3_1_1 e
  exact ⟨0x61#32, by rw [readForm_28 m]; unfold readMajor28; rw [f22, f17, f12, f7, f2, f1]; rfl, mask_6_4_5_5_5_2_3_1_1 e (by decide : _ = 0#6 ++ 0#4 ++ 0#5 ++ 0#5 ++ 0#5 ++ 3#2 ++ 0#3 ++ 0#1 ++ 1#1) BitVec.and_zero BitVec.and_zero BitVec.and_zero BitVec.and_zero BitVec.and_zero BitVec.zero_and BitVec.and_zero BitVec.and_zero BitVec.zero_and⟩

theorem vredmin (tok : BitVec 4) (vd : BitVec 5) (va : BitVec 5) (k : BitVec 3) (la : BitVec 1) : Statement (.vredmin tok vd va k la) := by
  intro w h hw
  have e := (Option.some.inj h).symm
  obtain ⟨m, f22, f17, f12, f7, -, f2, f1, -⟩ := fields_6_4_5_5_5_2_3_1_1 e
  exact ⟨0x61#32, by rw [readForm_28 m]; unfold readMajor28; rw [f22, f17, f12, f7, f2, f1]; rfl, mask_6_4_5_5_5_2_3_1_1 e (by decide : _ = 0#6 ++ 0#4 ++ 0#5 ++ 0#5 ++ 0#5 ++ 3#2 ++ 0#3 ++ 0#1 ++ 1#1) BitVec.and_zero BitVec.and_zero BitVec.and_zero BitVec.and_zero BitVec.and_zero BitVec.zero_and BitVec.and_zero BitVec.and_zero BitVec.zero_and⟩

theorem vscan (tok : BitVec 4) (vd : BitVec 5) (va : BitVec 5) (la : BitVec 1) : Statement (.vscan tok vd va la) := by
  intro w h hw
  have e := (Option.some.inj h).symm
  obtain ⟨m, f22, f17, f12, f7, -, f1, -⟩ := fields_6_4_5_5_5_5_1_1 e
  exact ⟨0x7d#32, by rw [readForm_28 m]; unfold readMajor28; rw [f22, f17, f12, f7, f1]; rfl, mask_6_4_5_5_5_5_1_1 e (by decide : _ = 0#6 ++ 0#4 ++ 0#5 ++ 0#5 ++ 0#5 ++ 31#5 ++ 0#1 ++ 1#1) BitVec.and_zero BitVec.and_zero BitVec.and_zero BitVec.and_zero BitVec.and_zero BitVec.zero_and BitVec.and_zero BitVec.zero_and⟩

theorem vsegsum (tok : BitVec 4) (vd : BitVec 5) (va : BitVec 5) (vb : BitVec 5) (la : BitVec 1) (lb : BitVec 1) : Statement (.vsegsum tok vd va vb la lb) := by
  intro w h hw
  have e := (Option.some.inj h).symm
  obtain ⟨m, f22, f17, f12, f7, f2, f1, f0⟩ := fields_6_4_5_5_5_5_1_1 e
  exact ⟨0#32, by rw [readForm_28 m]; unfold readMajor28; rw [f22, f17, f12, f7, f2, f1, f0]; rfl, BitVec.and_zero⟩

theorem vmov (tok : BitVec 4) (vd : BitVec 5) (va : BitVec 5) (la : BitVec 1) : Statement (.vmov tok vd va la) := by
  intro w h hw
  have e := (Option.some.inj h).symm
  obtain ⟨m, f22, f17, f12, f7, -, f1, -⟩ := fields_6_4_5_5_5_5_1_1 e
  exact ⟨0x7d#32, by rw [readForm_29 m]; unfold readMajor29; rw [f22, f17, f12, f7, f1]; rfl, mask_6_4_5_5_5_5_1_1 e (by decide : _ = 0#6 ++ 0#4 ++ 0#5 ++ 0#5 ++ 0#5 ++ 31#5 ++ 0#1 ++ 1#1) BitVec.and_zero BitVec.and_zero BitVec.and_zero BitVec.and_zero BitVec.and_zero BitVec.zero_and BitVec.and_zero BitVec.zero_and⟩

theorem vsplat (tok : BitVec 4) (vd : BitVec 5) (k : BitVec 3) : Statement (.vsplat tok vd k) := by
  intro w h hw
  have e := (Option.some.inj h).symm
  obtain ⟨m, f22, f17, f12, -, -, f2, -, -⟩ := fields_6_4_5_5_5_2_3_1_1 e
  exact ⟨0xfe3#32, by rw [readForm_29 m]; unfold readMajor29; rw [f22, f17, f12, f2]; rfl, mask_6_4_5_5_5_2_3_1_1 e (by decide : _ = 0#6 ++ 0#4 ++ 0#5 ++ 0#5 ++ 31#5 ++ 3#2 ++ 0#3 ++ 1#1 ++ 1#1) BitVec.and_zero BitVec.and_zero BitVec.and_zero BitVec.and_zero BitVec.zero_and BitVec.zero_and BitVec.and_zero BitVec.zero_and BitVec.zero_and⟩

theorem vtype (tok : BitVec 4) (t0 : BitVec 4) (t1 : BitVec 4) (sat : BitVec 1) (rm : BitVec 3) : Statement (.vtype tok t0 t1 sat rm) := by
  intro w h hw
  have e := (Option.some.inj h).symm
  obtain ⟨m, f22, f17, -, f12, -, f7, -, f5, f2, -⟩ := fields_6_4_5_1_4_1_4_1_1_3_2 e
  exact ⟨0x10843#32, by rw [readForm_29 m]; unfold readMajor29; rw [f22, f17, f12, f7, f5, f2]; rfl, mask_6_4_5_1_4_1_4_1_1_3_2 e (by decide : _ = 0#6 ++ 0#4 ++ 0#5 ++ 1#1 ++ 0#4 ++ 1#1 ++ 0#4 ++ 1#1 ++ 0#1 ++ 0#3 ++ 3#2) BitVec.and_zero BitVec.and_zero BitVec.and_zero BitVec.zero_and BitVec.and_zero BitVec.zero_and BitVec.and_zero BitVec.zero_and BitVec.and_zero BitVec.and_zero BitVec.zero_and⟩

theorem vwin (tok : BitVec 4) (base : BitVec 10) : Statement (.vwin tok base) := by
  intro w h hw
  have e := (Option.some.inj h).symm
  obtain ⟨m, f22, f17, f7, -, -, -⟩ := fields_6_4_5_10_5_1_1 e
  exact ⟨0x7f#32, by rw [readForm_29 m]; unfold readMajor29; rw [f22, f17, f7]; rfl, mask_6_4_5_10_5_1_1 e (by decide : _ = 0#6 ++ 0#4 ++ 0#5 ++ 0#10 ++ 31#5 ++ 1#1 ++ 1#1) BitVec.and_zero BitVec.and_zero BitVec.and_zero BitVec.and_zero BitVec.zero_and BitVec.zero_and BitVec.zero_and⟩

theorem vidx (tok : BitVec 4) (vd : BitVec 5) : Statement (.vidx tok vd) := by
  intro w h hw
  have e := (Option.some.inj h).symm
  obtain ⟨m, f22, f17, f12, -, -, -, -⟩ := fields_6_4_5_5_5_5_1_1 e
  exact ⟨0xfff#32, by rw [readForm_29 m]; unfold readMajor29; rw [f22, f17, f12]; rfl, mask_6_4_5_5_5_5_1_1 e (by decide : _ = 0#6 ++ 0#4 ++ 0#5 ++ 0#5 ++ 31#5 ++ 31#5 ++ 1#1 ++ 1#1) BitVec.and_zero BitVec.and_zero BitVec.and_zero BitVec.and_zero BitVec.zero_and BitVec.zero_and BitVec.zero_and BitVec.zero_and⟩

theorem vaccrd (tok : BitVec 4) (vd : BitVec 5) (acc : BitVec 4) (snap : BitVec 1) (k : BitVec 3) : Statement (.vaccrd tok vd acc snap k) := by
  intro w h hw
  have e := (Option.some.inj h).symm
  obtain ⟨m, f22, f17, f12, -, f7, f6, -, f2, -, -⟩ := fields_6_4_5_5_1_4_1_1_3_1_1 e
  exact ⟨0x823#32, by rw [readForm_29 m]; unfold readMajor29; rw [f22, f17, f12, f7, f6, f2]; rfl, mask_6_4_5_5_1_4_1_1_3_1_1 e (by decide : _ = 0#6 ++ 0#4 ++ 0#5 ++ 0#5 ++ 1#1 ++ 0#4 ++ 0#1 ++ 1#1 ++ 0#3 ++ 1#1 ++ 1#1) BitVec.and_zero BitVec.and_zero BitVec.and_zero BitVec.and_zero BitVec.zero_and BitVec.and_zero BitVec.and_zero BitVec.zero_and BitVec.and_zero BitVec.zero_and BitVec.zero_and⟩

theorem vaccwr (tok : BitVec 4) (acc : BitVec 4) (va : BitVec 5) (k : BitVec 3) (la : BitVec 1) : Statement (.vaccwr tok acc va k la) := by
  intro w h hw
  have e := (Option.some.inj h).symm
  obtain ⟨m, f22, f17, -, f12, f7, -, f2, f1, -⟩ := fields_6_4_5_1_4_5_2_3_1_1 e
  exact ⟨0x10061#32, by rw [readForm_29 m]; unfold readMajor29; rw [f22, f17, f12, f7, f2, f1]; rfl, mask_6_4_5_1_4_5_2_3_1_1 e (by decide : _ = 0#6 ++ 0#4 ++ 0#5 ++ 1#1 ++ 0#4 ++ 0#5 ++ 3#2 ++ 0#3 ++ 0#1 ++ 1#1) BitVec.and_zero BitVec.and_zero BitVec.and_zero BitVec.zero_and BitVec.and_zero BitVec.and_zero BitVec.zero_and BitVec.and_zero BitVec.and_zero BitVec.zero_and⟩

theorem vtos (tok : BitVec 4) (j : BitVec 3) (va : BitVec 5) (k : BitVec 3) (la : BitVec 1) : Statement (.vtos tok j va k la) := by
  intro w h hw
  have e := (Option.some.inj h).symm
  obtain ⟨m, f22, f17, -, f12, f7, -, f2, f1, -⟩ := fields_6_4_5_2_3_5_2_3_1_1 e
  exact ⟨0x18061#32, by rw [readForm_29 m]; unfold readMajor29; rw [f22, f17, f12, f7, f2, f1]; rfl, mask_6_4_5_2_3_5_2_3_1_1 e (by decide : _ = 0#6 ++ 0#4 ++ 0#5 ++ 3#2 ++ 0#3 ++ 0#5 ++ 3#2 ++ 0#3 ++ 0#1 ++ 1#1) BitVec.and_zero BitVec.and_zero BitVec.and_zero BitVec.zero_and BitVec.and_zero BitVec.and_zero BitVec.zero_and BitVec.and_zero BitVec.and_zero BitVec.zero_and⟩

theorem vdead (tok : BitVec 4) (vd : BitVec 5) (nm1 : BitVec 5) : Statement (.vdead tok vd nm1) := by
  intro w h hw
  have e := (Option.some.inj h).symm
  obtain ⟨m, f22, f17, f12, f7, -, -, -⟩ := fields_6_4_5_5_5_5_1_1 e
  exact ⟨0x7f#32, by rw [readForm_29 m]; unfold readMajor29; rw [f22, f17, f12, f7]; rfl, mask_6_4_5_5_5_5_1_1 e (by decide : _ = 0#6 ++ 0#4 ++ 0#5 ++ 0#5 ++ 0#5 ++ 31#5 ++ 1#1 ++ 1#1) BitVec.and_zero BitVec.and_zero BitVec.and_zero BitVec.and_zero BitVec.and_zero BitVec.zero_and BitVec.zero_and BitVec.zero_and⟩

theorem vld (tok : BitVec 4) (vd : BitVec 5) (as : BitVec 3) (oc : BitVec 4) (inc : BitVec 3) : Statement (.vld tok vd as oc inc) := by
  intro w h hw
  have e := (Option.some.inj h).symm
  obtain ⟨m, f22, f19, f14, f11, f7, f4, -, -⟩ := fields_6_4_3_5_3_4_3_1_3 e
  exact ⟨0xf#32, by rw [readForm_2C m]; unfold readMajor2C; rw [f22, f19, f14, f11, f7, f4]; rfl, mask_6_4_3_5_3_4_3_1_3 e (by decide : _ = 0#6 ++ 0#4 ++ 0#3 ++ 0#5 ++ 0#3 ++ 0#4 ++ 0#3 ++ 1#1 ++ 7#3) BitVec.and_zero BitVec.and_zero BitVec.and_zero BitVec.and_zero BitVec.and_zero BitVec.and_zero BitVec.and_zero BitVec.zero_and BitVec.zero_and⟩

theorem vlds (tok : BitVec 4) (vd : BitVec 5) (as : BitVec 3) (oc : BitVec 4) (inc : BitVec 3) : Statement (.vlds tok vd as oc inc) := by
  intro w h hw
  have e := (Option.some.inj h).symm
  obtain ⟨m, f22, f19, f14, f11, f7, f4, -, -⟩ := fields_6_4_3_5_3_4_3_1_3 e
  exact ⟨0xf#32, by rw [readForm_2C m]; unfold readMajor2C; rw [f22, f19, f14, f11, f7, f4]; rfl, mask_6_4_3_5_3_4_3_1_3 e (by decide : _ = 0#6 ++ 0#4 ++ 0#3 ++ 0#5 ++ 0#3 ++ 0#4 ++ 0#3 ++ 1#1 ++ 7#3) BitVec.and_zero BitVec.and_zero BitVec.and_zero BitVec.and_zero BitVec.and_zero BitVec.and_zero BitVec.and_zero BitVec.zero_and BitVec.zero_and⟩

theorem vldq (tok : BitVec 4) (vd : BitVec 5) (as : BitVec 3) (oc : BitVec 4) (inc : BitVec 3) : Statement (.vldq tok vd as oc inc) := by
  intro w h hw
  have e := (Option.some.inj h).symm
  obtain ⟨m, f22, f19, f14, f11, f7, f4, -, -⟩ := fields_6_4_3_5_3_4_3_1_3 e
  exact ⟨0xf#32, by rw [readForm_2C m]; unfold readMajor2C; rw [f22, f19, f14, f11, f7, f4]; rfl, mask_6_4_3_5_3_4_3_1_3 e (by decide : _ = 0#6 ++ 0#4 ++ 0#3 ++ 0#5 ++ 0#3 ++ 0#4 ++ 0#3 ++ 1#1 ++ 7#3) BitVec.and_zero BitVec.and_zero BitVec.and_zero BitVec.and_zero BitVec.and_zero BitVec.and_zero BitVec.and_zero BitVec.zero_and BitVec.zero_and⟩

theorem vst (tok : BitVec 4) (vd : BitVec 5) (as : BitVec 3) (oc : BitVec 4) (inc : BitVec 3) (lu : BitVec 1) : Statement (.vst tok vd as oc inc lu) := by
  intro w h hw
  have e := (Option.some.inj h).symm
  obtain ⟨m, f22, f19, f14, f11, f7, f4, f3, -⟩ := fields_6_4_3_5_3_4_3_1_3 e
  exact ⟨0x7#32, by rw [readForm_2D m]; unfold readMajor2D; rw [f22, f19, f14, f11, f7, f4, f3]; rfl, mask_6_4_3_5_3_4_3_1_3 e (by decide : _ = 0#6 ++ 0#4 ++ 0#3 ++ 0#5 ++ 0#3 ++ 0#4 ++ 0#3 ++ 0#1 ++ 7#3) BitVec.and_zero BitVec.and_zero BitVec.and_zero BitVec.and_zero BitVec.and_zero BitVec.and_zero BitVec.and_zero BitVec.and_zero BitVec.zero_and⟩

theorem vsts (tok : BitVec 4) (vd : BitVec 5) (as : BitVec 3) (oc : BitVec 4) (inc : BitVec 3) (lu : BitVec 1) : Statement (.vsts tok vd as oc inc lu) := by
  intro w h hw
  have e := (Option.some.inj h).symm
  obtain ⟨m, f22, f19, f14, f11, f7, f4, f3, -⟩ := fields_6_4_3_5_3_4_3_1_3 e
  exact ⟨0x7#32, by rw [readForm_2D m]; unfold readMajor2D; rw [f22, f19, f14, f11, f7, f4, f3]; rfl, mask_6_4_3_5_3_4_3_1_3 e (by decide : _ = 0#6 ++ 0#4 ++ 0#3 ++ 0#5 ++ 0#3 ++ 0#4 ++ 0#3 ++ 0#1 ++ 7#3) BitVec.and_zero BitVec.and_zero BitVec.and_zero BitVec.and_zero BitVec.and_zero BitVec.and_zero BitVec.and_zero BitVec.and_zero BitVec.zero_and⟩

theorem vstq (tok : BitVec 4) (vd : BitVec 5) (as : BitVec 3) (oc : BitVec 4) (inc : BitVec 3) (lu : BitVec 1) : Statement (.vstq tok vd as oc inc lu) := by
  intro w h hw
  have e := (Option.some.inj h).symm
  obtain ⟨m, f22, f19, f14, f11, f7, f4, f3, -⟩ := fields_6_4_3_5_3_4_3_1_3 e
  exact ⟨0x7#32, by rw [readForm_2D m]; unfold readMajor2D; rw [f22, f19, f14, f11, f7, f4, f3]; rfl, mask_6_4_3_5_3_4_3_1_3 e (by decide : _ = 0#6 ++ 0#4 ++ 0#3 ++ 0#5 ++ 0#3 ++ 0#4 ++ 0#3 ++ 0#1 ++ 7#3) BitVec.and_zero BitVec.and_zero BitVec.and_zero BitVec.and_zero BitVec.and_zero BitVec.and_zero BitVec.and_zero BitVec.and_zero BitVec.zero_and⟩

theorem vgth (tok : BitVec 4) (vd : BitVec 5) (va : BitVec 5) (k : BitVec 3) (la : BitVec 1) : Statement (.vgth tok vd va k la) := by
  intro w h hw
  have e := (Option.some.inj h).symm
  obtain ⟨m, f22, f17, f12, f7, -, f2, f1, -⟩ := fields_6_4_5_5_5_2_3_1_1 e
  exact ⟨0x61#32, by rw [readForm_2E m]; unfold readMajor2E; rw [f22, f17, f12, f7, f2, f1]; rfl, mask_6_4_5_5_5_2_3_1_1 e (by decide : _ = 0#6 ++ 0#4 ++ 0#5 ++ 0#5 ++ 0#5 ++ 3#2 ++ 0#3 ++ 0#1 ++ 1#1) BitVec.and_zero BitVec.and_zero BitVec.and_zero BitVec.and_zero BitVec.and_zero BitVec.zero_and BitVec.and_zero BitVec.and_zero BitVec.zero_and⟩

theorem vsct (tok : BitVec 4) (vd : BitVec 5) (va : BitVec 5) (k : BitVec 3) (la : BitVec 1) : Statement (.vsct tok vd va k la) := by
  intro w h hw
  have e := (Option.some.inj h).symm
  obtain ⟨m, f22, f17, f12, f7, -, f2, f1, -⟩ := fields_6_4_5_5_5_2_3_1_1 e
  exact ⟨0x61#32, by rw [readForm_2E m]; unfold readMajor2E; rw [f22, f17, f12, f7, f2, f1]; rfl, mask_6_4_5_5_5_2_3_1_1 e (by decide : _ = 0#6 ++ 0#4 ++ 0#5 ++ 0#5 ++ 0#5 ++ 3#2 ++ 0#3 ++ 0#1 ++ 1#1) BitVec.and_zero BitVec.and_zero BitVec.and_zero BitVec.and_zero BitVec.and_zero BitVec.zero_and BitVec.and_zero BitVec.and_zero BitVec.zero_and⟩

theorem vsctadd (tok : BitVec 4) (vd : BitVec 5) (va : BitVec 5) (k : BitVec 3) (la : BitVec 1) : Statement (.vsctadd tok vd va k la) := by
  intro w h hw
  have e := (Option.some.inj h).symm
  obtain ⟨m, f22, f17, f12, f7, -, f2, f1, -⟩ := fields_6_4_5_5_5_2_3_1_1 e
  exact ⟨0x61#32, by rw [readForm_2E m]; unfold readMajor2E; rw [f22, f17, f12, f7, f2, f1]; rfl, mask_6_4_5_5_5_2_3_1_1 e (by decide : _ = 0#6 ++ 0#4 ++ 0#5 ++ 0#5 ++ 0#5 ++ 3#2 ++ 0#3 ++ 0#1 ++ 1#1) BitVec.and_zero BitVec.and_zero BitVec.and_zero BitVec.and_zero BitVec.and_zero BitVec.zero_and BitVec.and_zero BitVec.and_zero BitVec.zero_and⟩

theorem vaadd (tok : BitVec 4) (vd : BitVec 5) (va : BitVec 5) (k : BitVec 3) (la : BitVec 1) : Statement (.vaadd tok vd va k la) := by
  intro w h hw
  have e := (Option.some.inj h).symm
  obtain ⟨m, f22, f17, f12, f7, -, f2, f1, -⟩ := fields_6_4_5_5_5_2_3_1_1 e
  exact ⟨0x61#32, by rw [readForm_2F m]; unfold readMajor2F; rw [f22, f17, f12, f7, f2, f1]; rfl, mask_6_4_5_5_5_2_3_1_1 e (by decide : _ = 0#6 ++ 0#4 ++ 0#5 ++ 0#5 ++ 0#5 ++ 3#2 ++ 0#3 ++ 0#1 ++ 1#1) BitVec.and_zero BitVec.and_zero BitVec.and_zero BitVec.and_zero BitVec.and_zero BitVec.zero_and BitVec.and_zero BitVec.and_zero BitVec.zero_and⟩

theorem vamax (tok : BitVec 4) (vd : BitVec 5) (va : BitVec 5) (k : BitVec 3) (la : BitVec 1) : Statement (.vamax tok vd va k la) := by
  intro w h hw
  have e := (Option.some.inj h).symm
  obtain ⟨m, f22, f17, f12, f7, -, f2, f1, -⟩ := fields_6_4_5_5_5_2_3_1_1 e
  exact ⟨0x61#32, by rw [readForm_2F m]; unfold readMajor2F; rw [f22, f17, f12, f7, f2, f1]; rfl, mask_6_4_5_5_5_2_3_1_1 e (by decide : _ = 0#6 ++ 0#4 ++ 0#5 ++ 0#5 ++ 0#5 ++ 3#2 ++ 0#3 ++ 0#1 ++ 1#1) BitVec.and_zero BitVec.and_zero BitVec.and_zero BitVec.and_zero BitVec.and_zero BitVec.zero_and BitVec.and_zero BitVec.and_zero BitVec.zero_and⟩

theorem mwld (tok : BitVec 4) (da : BitVec 4) (db : BitVec 4) : Statement (.mwld tok da db) := by
  intro w h hw
  have e := (Option.some.inj h).symm
  obtain ⟨m, f22, f17, -, f9, f5, -⟩ := fields_6_4_5_4_4_4_5 e
  exact ⟨0x1e01f#32, by rw [readForm_30 m]; unfold readMajor30; rw [f22, f17, f9, f5]; rfl, mask_6_4_5_4_4_4_5 e (by decide : _ = 0#6 ++ 0#4 ++ 0#5 ++ 15#4 ++ 0#4 ++ 0#4 ++ 31#5) BitVec.and_zero BitVec.and_zero BitVec.and_zero BitVec.zero_and BitVec.and_zero BitVec.and_zero BitVec.zero_and⟩

theorem mwsp (tok : BitVec 4) (da : BitVec 4) (db : BitVec 4) : Statement (.mwsp tok da db) := by
  intro w h hw
  have e := (Option.some.inj h).symm
  obtain ⟨m, f22, f17, -, f9, f5, -⟩ := fields_6_4_5_4_4_4_5 e
  exact ⟨0x1e01f#32, by rw [readForm_30 m]; unfold readMajor30; rw [f22, f17, f9, f5]; rfl, mask_6_4_5_4_4_4_5 e (by decide : _ = 0#6 ++ 0#4 ++ 0#5 ++ 15#4 ++ 0#4 ++ 0#4 ++ 31#5) BitVec.and_zero BitVec.and_zero BitVec.and_zero BitVec.zero_and BitVec.and_zero BitVec.and_zero BitVec.zero_and⟩

theorem mmf (tok : BitVec 4) (acc : BitVec 4) (da : BitVec 4) (db : BitVec 4) (z : BitVec 1) : Statement (.mmf tok acc da db z) := by
  intro w h hw
  have e := (Option.some.inj h).symm
  obtain ⟨m, f22, f17, f13, f9, f5, -, f0⟩ := fields_6_4_5_4_4_4_4_1 e
  exact ⟨0x1e#32, by rw [readForm_31 m]; unfold readMajor31; rw [f22, f17, f13, f9, f5, f0]; rfl, mask_6_4_5_4_4_4_4_1 e (by decide : _ = 0#6 ++ 0#4 ++ 0#5 ++ 0#4 ++ 0#4 ++ 0#4 ++ 15#4 ++ 0#1) BitVec.and_zero BitVec.and_zero BitVec.and_zero BitVec.and_zero BitVec.and_zero BitVec.and_zero BitVec.zero_and BitVec.and_zero⟩

theorem mmfg (tok : BitVec 4) (acc : BitVec 4) (da : BitVec 4) (db : BitVec 4) (z : BitVec 1) : Statement (.mmfg tok acc da db z) := by
  intro w h hw
  have e := (Option.some.inj h).symm
  obtain ⟨m, f22, f17, f13, f9, f5, -, f0⟩ := fields_6_4_5_4_4_4_4_1 e
  exact ⟨0x1e#32, by rw [readForm_31 m]; unfold readMajor31; rw [f22, f17, f13, f9, f5, f0]; rfl, mask_6_4_5_4_4_4_4_1 e (by decide : _ = 0#6 ++ 0#4 ++ 0#5 ++ 0#4 ++ 0#4 ++ 0#4 ++ 15#4 ++ 0#1) BitVec.and_zero BitVec.and_zero BitVec.and_zero BitVec.and_zero BitVec.and_zero BitVec.and_zero BitVec.zero_and BitVec.and_zero⟩

theorem mmb (tok : BitVec 4) (acc : BitVec 4) (da : BitVec 4) (db : BitVec 4) (z : BitVec 1) (ks : BitVec 2) : Statement (.mmb tok acc da db z ks) := by
  intro w h hw
  have e := (Option.some.inj h).symm
  obtain ⟨m, f22, f17, f13, f9, f5, -, f2, f0⟩ := fields_6_4_5_4_4_4_2_1_2 e
  exact ⟨0x18#32, by rw [readForm_32 m]; unfold readMajor32; rw [f22, f17, f13, f9, f5, f2, f0]; rfl, mask_6_4_5_4_4_4_2_1_2 e (by decide : _ = 0#6 ++ 0#4 ++ 0#5 ++ 0#4 ++ 0#4 ++ 0#4 ++ 3#2 ++ 0#1 ++ 0#2) BitVec.and_zero BitVec.and_zero BitVec.and_zero BitVec.and_zero BitVec.and_zero BitVec.and_zero BitVec.zero_and BitVec.and_zero BitVec.and_zero⟩

theorem mmw (tok : BitVec 4) (acc : BitVec 4) (da : BitVec 4) (db : BitVec 4) (z : BitVec 1) (ks : BitVec 2) : Statement (.mmw tok acc da db z ks) := by
  intro w h hw
  have e := (Option.some.inj h).symm
  obtain ⟨m, f22, f17, f13, f9, f5, -, f2, f0⟩ := fields_6_4_5_4_4_4_2_1_2 e
  exact ⟨0x18#32, by rw [readForm_32 m]; unfold readMajor32; rw [f22, f17, f13, f9, f5, f2, f0]; rfl, mask_6_4_5_4_4_4_2_1_2 e (by decide : _ = 0#6 ++ 0#4 ++ 0#5 ++ 0#4 ++ 0#4 ++ 0#4 ++ 3#2 ++ 0#1 ++ 0#2) BitVec.and_zero BitVec.and_zero BitVec.and_zero BitVec.and_zero BitVec.and_zero BitVec.and_zero BitVec.zero_and BitVec.and_zero BitVec.and_zero⟩

theorem mmfs (tok : BitVec 4) (acc : BitVec 4) (da : BitVec 4) (db : BitVec 4) (z : BitVec 1) : Statement (.mmfs tok acc da db z) := by
  intro w h hw
  have e := (Option.some.inj h).symm
  obtain ⟨m, f22, f17, f13, f9, f5, -, f0⟩ := fields_6_4_5_4_4_4_4_1 e
  exact ⟨0x1e#32, by rw [readForm_33 m]; unfold readMajor33; rw [f22, f17, f13, f9, f5, f0]; rfl, mask_6_4_5_4_4_4_4_1 e (by decide : _ = 0#6 ++ 0#4 ++ 0#5 ++ 0#4 ++ 0#4 ++ 0#4 ++ 15#4 ++ 0#1) BitVec.and_zero BitVec.and_zero BitVec.and_zero BitVec.and_zero BitVec.and_zero BitVec.and_zero BitVec.zero_and BitVec.and_zero⟩

theorem mmbs (tok : BitVec 4) (acc : BitVec 4) (da : BitVec 4) (db : BitVec 4) (z : BitVec 1) (ks : BitVec 2) : Statement (.mmbs tok acc da db z ks) := by
  intro w h hw
  have e := (Option.some.inj h).symm
  obtain ⟨m, f22, f17, f13, f9, f5, -, f2, f0⟩ := fields_6_4_5_4_4_4_2_1_2 e
  exact ⟨0x18#32, by rw [readForm_33 m]; unfold readMajor33; rw [f22, f17, f13, f9, f5, f2, f0]; rfl, mask_6_4_5_4_4_4_2_1_2 e (by decide : _ = 0#6 ++ 0#4 ++ 0#5 ++ 0#4 ++ 0#4 ++ 0#4 ++ 3#2 ++ 0#1 ++ 0#2) BitVec.and_zero BitVec.and_zero BitVec.and_zero BitVec.and_zero BitVec.and_zero BitVec.and_zero BitVec.zero_and BitVec.and_zero BitVec.and_zero⟩

theorem macz (tok : BitVec 4) (acc : BitVec 4) : Statement (.macz tok acc) := by
  intro w h hw
  have e := (Option.some.inj h).symm
  obtain ⟨m, f22, f17, f13, -, -, -⟩ := fields_6_4_5_4_4_4_5 e
  exact ⟨0x1fff#32, by rw [readForm_34 m]; unfold readMajor34; rw [f22, f17, f13]; rfl, mask_6_4_5_4_4_4_5 e (by decide : _ = 0#6 ++ 0#4 ++ 0#5 ++ 0#4 ++ 15#4 ++ 15#4 ++ 31#5) BitVec.and_zero BitVec.and_zero BitVec.and_zero BitVec.and_zero BitVec.zero_and BitVec.zero_and BitVec.zero_and⟩

theorem macst (tok : BitVec 4) (acc : BitVec 4) (da : BitVec 4) (sat : BitVec 1) (rm : BitVec 3) : Statement (.macst tok acc da sat rm) := by
  intro w h hw
  have e := (Option.some.inj h).symm
  obtain ⟨m, f22, f17, f13, f9, -, -, f3, f0⟩ := fields_6_4_5_4_4_4_1_1_3 e
  exact ⟨0x1f0#32, by rw [readForm_34 m]; unfold readMajor34; rw [f22, f17, f13, f9, f3, f0]; rfl, mask_6_4_5_4_4_4_1_1_3 e (by decide : _ = 0#6 ++ 0#4 ++ 0#5 ++ 0#4 ++ 0#4 ++ 15#4 ++ 1#1 ++ 0#1 ++ 0#3) BitVec.and_zero BitVec.and_zero BitVec.and_zero BitVec.and_zero BitVec.and_zero BitVec.zero_and BitVec.zero_and BitVec.and_zero BitVec.and_zero⟩

theorem macld (tok : BitVec 4) (acc : BitVec 4) (da : BitVec 4) : Statement (.macld tok acc da) := by
  intro w h hw
  have e := (Option.some.inj h).symm
  obtain ⟨m, f22, f17, f13, f9, -, -⟩ := fields_6_4_5_4_4_4_5 e
  exact ⟨0x1ff#32, by rw [readForm_34 m]; unfold readMajor34; rw [f22, f17, f13, f9]; rfl, mask_6_4_5_4_4_4_5 e (by decide : _ = 0#6 ++ 0#4 ++ 0#5 ++ 0#4 ++ 0#4 ++ 15#4 ++ 31#5) BitVec.and_zero BitVec.and_zero BitVec.and_zero BitVec.and_zero BitVec.and_zero BitVec.zero_and BitVec.zero_and⟩

theorem mdset (tok : BitVec 4) (da : BitVec 4) (word : BitVec 2) (n : BitVec 2) : Statement (.mdset tok da word n) := by
  intro w h hw
  have e := (Option.some.inj h).symm
  obtain ⟨m, f22, f17, -, f9, -, -, f2, f0⟩ := fields_6_4_5_4_4_4_1_2_2 e
  exact ⟨0x1e1f0#32, by rw [readForm_35 m]; unfold readMajor35; rw [f22, f17, f9, f2, f0]; rfl, mask_6_4_5_4_4_4_1_2_2 e (by decide : _ = 0#6 ++ 0#4 ++ 0#5 ++ 15#4 ++ 0#4 ++ 15#4 ++ 1#1 ++ 0#2 ++ 0#2) BitVec.and_zero BitVec.and_zero BitVec.and_zero BitVec.zero_and BitVec.and_zero BitVec.zero_and BitVec.zero_and BitVec.and_zero BitVec.and_zero⟩

theorem mdld (tok : BitVec 4) (da : BitVec 4) (cm1 : BitVec 4) (n : BitVec 2) : Statement (.mdld tok da cm1 n) := by
  intro w h hw
  have e := (Option.some.inj h).symm
  obtain ⟨m, f22, f17, -, f9, f5, -, f0⟩ := fields_6_4_5_4_4_4_3_2 e
  exact ⟨0x1e01c#32, by rw [readForm_35 m]; unfold readMajor35; rw [f22, f17, f9, f5, f0]; rfl, mask_6_4_5_4_4_4_3_2 e (by decide : _ = 0#6 ++ 0#4 ++ 0#5 ++ 15#4 ++ 0#4 ++ 0#4 ++ 7#3 ++ 0#2) BitVec.and_zero BitVec.and_zero BitVec.and_zero BitVec.zero_and BitVec.and_zero BitVec.and_zero BitVec.zero_and BitVec.and_zero⟩

theorem mrpg (tok : BitVec 4) (n : BitVec 2) : Statement (.mrpg tok n) := by
  intro w h hw
  have e := (Option.some.inj h).symm
  obtain ⟨m, f22, f17, -, -, -, -, f0⟩ := fields_6_4_5_4_4_4_3_2 e
  exact ⟨0x1fffc#32, by rw [readForm_35 m]; unfold readMajor35; rw [f22, f17, f0]; rfl, mask_6_4_5_4_4_4_3_2 e (by decide : _ = 0#6 ++ 0#4 ++ 0#5 ++ 15#4 ++ 15#4 ++ 15#4 ++ 7#3 ++ 0#2) BitVec.and_zero BitVec.and_zero BitVec.and_zero BitVec.zero_and BitVec.zero_and BitVec.zero_and BitVec.zero_and BitVec.and_zero⟩

theorem fcpy (tok : BitVec 4) (tag : BitVec 6) (fd : BitVec 4) (oc : BitVec 4) : Statement (.fcpy tok tag fd oc) := by
  intro w h hw
  have e := (Option.some.inj h).symm
  obtain ⟨m, f22, f18, f12, f8, f4, -⟩ := fields_6_4_4_6_4_4_4 e
  exact ⟨0xf#32, by rw [readForm_38 m]; unfold readMajor38; rw [f22, f18, f12, f8, f4]; rfl, mask_6_4_4_6_4_4_4 e (by decide : _ = 0#6 ++ 0#4 ++ 0#4 ++ 0#6 ++ 0#4 ++ 0#4 ++ 15#4) BitVec.and_zero BitVec.and_zero BitVec.and_zero BitVec.and_zero BitVec.and_zero BitVec.and_zero BitVec.zero_and⟩

theorem fcpyz (tok : BitVec 4) (tag : BitVec 6) (fd : BitVec 4) (oc : BitVec 4) : Statement (.fcpyz tok tag fd oc) := by
  intro w h hw
  have e := (Option.some.inj h).symm
  obtain ⟨m, f22, f18, f12, f8, f4, -⟩ := fields_6_4_4_6_4_4_4 e
  exact ⟨0xf#32, by rw [readForm_38 m]; unfold readMajor38; rw [f22, f18, f12, f8, f4]; rfl, mask_6_4_4_6_4_4_4 e (by decide : _ = 0#6 ++ 0#4 ++ 0#4 ++ 0#6 ++ 0#4 ++ 0#4 ++ 15#4) BitVec.and_zero BitVec.and_zero BitVec.and_zero BitVec.and_zero BitVec.and_zero BitVec.and_zero BitVec.zero_and⟩

theorem fcpym (tok : BitVec 4) (tag : BitVec 6) (fd : BitVec 4) (oc : BitVec 4) : Statement (.fcpym tok tag fd oc) := by
  intro w h hw
  have e := (Option.some.inj h).symm
  obtain ⟨m, f22, f18, f12, f8, f4, -⟩ := fields_6_4_4_6_4_4_4 e
  exact ⟨0xf#32, by rw [readForm_38 m]; unfold readMajor38; rw [f22, f18, f12, f8, f4]; rfl, mask_6_4_4_6_4_4_4 e (by decide : _ = 0#6 ++ 0#4 ++ 0#4 ++ 0#6 ++ 0#4 ++ 0#4 ++ 15#4) BitVec.and_zero BitVec.and_zero BitVec.and_zero BitVec.and_zero BitVec.and_zero BitVec.and_zero BitVec.zero_and⟩

theorem fprf (tok : BitVec 4) (fd : BitVec 4) (oc : BitVec 4) : Statement (.fprf tok fd oc) := by
  intro w h hw
  have e := (Option.some.inj h).symm
  obtain ⟨m, f22, f18, -, f8, f4, -⟩ := fields_6_4_4_6_4_4_4 e
  exact ⟨0x3f00f#32, by rw [readForm_38 m]; unfold readMajor38; rw [f22, f18, f8, f4]; rfl, mask_6_4_4_6_4_4_4 e (by decide : _ = 0#6 ++ 0#4 ++ 0#4 ++ 63#6 ++ 0#4 ++ 0#4 ++ 15#4) BitVec.and_zero BitVec.and_zero BitVec.and_zero BitVec.zero_and BitVec.and_zero BitVec.and_zero BitVec.zero_and⟩

theorem fwait (tok : BitVec 4) (tag : BitVec 6) (sw : BitVec 1) (n : BitVec 2) : Statement (.fwait tok tag sw n) := by
  intro w h hw
  have e := (Option.some.inj h).symm
  obtain ⟨m, f22, f18, f12, -, -, -, f2, f0⟩ := fields_6_4_4_6_4_4_1_1_2 e
  exact ⟨0xff8#32, by rw [readForm_39 m]; unfold readMajor39; rw [f22, f18, f12, f2, f0]; rfl, mask_6_4_4_6_4_4_1_1_2 e (by decide : _ = 0#6 ++ 0#4 ++ 0#4 ++ 0#6 ++ 15#4 ++ 15#4 ++ 1#1 ++ 0#1 ++ 0#2) BitVec.and_zero BitVec.and_zero BitVec.and_zero BitVec.and_zero BitVec.zero_and BitVec.zero_and BitVec.zero_and BitVec.and_zero BitVec.and_zero⟩

theorem fwaitr (tok : BitVec 4) (tag : BitVec 6) : Statement (.fwaitr tok tag) := by
  intro w h hw
  have e := (Option.some.inj h).symm
  obtain ⟨m, f22, f18, f12, -, -, -⟩ := fields_6_4_4_6_4_4_4 e
  exact ⟨0xfff#32, by rw [readForm_39 m]; unfold readMajor39; rw [f22, f18, f12]; rfl, mask_6_4_4_6_4_4_4 e (by decide : _ = 0#6 ++ 0#4 ++ 0#4 ++ 0#6 ++ 15#4 ++ 15#4 ++ 15#4) BitVec.and_zero BitVec.and_zero BitVec.and_zero BitVec.and_zero BitVec.zero_and BitVec.zero_and BitVec.zero_and⟩

theorem fcan (tok : BitVec 4) (tag : BitVec 6) : Statement (.fcan tok tag) := by
  intro w h hw
  have e := (Option.some.inj h).symm
  obtain ⟨m, f22, f18, f12, -, -, -⟩ := fields_6_4_4_6_4_4_4 e
  exact ⟨0xfff#32, by rw [readForm_39 m]; unfold readMajor39; rw [f22, f18, f12]; rfl, mask_6_4_4_6_4_4_4 e (by decide : _ = 0#6 ++ 0#4 ++ 0#4 ++ 0#6 ++ 15#4 ++ 15#4 ++ 15#4) BitVec.and_zero BitVec.and_zero BitVec.and_zero BitVec.and_zero BitVec.zero_and BitVec.zero_and BitVec.zero_and⟩

theorem fres (tok : BitVec 4) (tag : BitVec 6) : Statement (.fres tok tag) := by
  intro w h hw
  have e := (Option.some.inj h).symm
  obtain ⟨m, f22, f18, f12, -, -, -⟩ := fields_6_4_4_6_4_4_4 e
  exact ⟨0xfff#32, by rw [readForm_39 m]; unfold readMajor39; rw [f22, f18, f12]; rfl, mask_6_4_4_6_4_4_4 e (by decide : _ = 0#6 ++ 0#4 ++ 0#4 ++ 0#6 ++ 15#4 ++ 15#4 ++ 15#4) BitVec.and_zero BitVec.and_zero BitVec.and_zero BitVec.and_zero BitVec.zero_and BitVec.zero_and BitVec.zero_and⟩

theorem fwm (tok : BitVec 4) (tag : BitVec 6) (n : BitVec 2) : Statement (.fwm tok tag n) := by
  intro w h hw
  have e := (Option.some.inj h).symm
  obtain ⟨m, f22, f18, f12, -, -, -, f0⟩ := fields_6_4_4_6_4_4_2_2 e
  exact ⟨0xffc#32, by rw [readForm_39 m]; unfold readMajor39; rw [f22, f18, f12, f0]; rfl, mask_6_4_4_6_4_4_2_2 e (by decide : _ = 0#6 ++ 0#4 ++ 0#4 ++ 0#6 ++ 15#4 ++ 15#4 ++ 3#2 ++ 0#2) BitVec.and_zero BitVec.and_zero BitVec.and_zero BitVec.and_zero BitVec.zero_and BitVec.zero_and BitVec.zero_and BitVec.and_zero⟩

theorem fdld (tok : BitVec 4) (cm1 : BitVec 4) (fd : BitVec 4) (n : BitVec 2) : Statement (.fdld tok cm1 fd n) := by
  intro w h hw
  have e := (Option.some.inj h).symm
  obtain ⟨m, f22, f18, -, f12, f8, -, -, f0⟩ := fields_6_4_4_2_4_4_4_2_2 e
  exact ⟨0x300fc#32, by rw [readForm_39 m]; unfold readMajor39; rw [f22, f18, f12, f8, f0]; rfl, mask_6_4_4_2_4_4_4_2_2 e (by decide : _ = 0#6 ++ 0#4 ++ 0#4 ++ 3#2 ++ 0#4 ++ 0#4 ++ 15#4 ++ 3#2 ++ 0#2) BitVec.and_zero BitVec.and_zero BitVec.and_zero BitVec.zero_and BitVec.and_zero BitVec.and_zero BitVec.zero_and BitVec.zero_and BitVec.and_zero⟩

theorem fdset (tok : BitVec 4) (word : BitVec 3) (fd : BitVec 4) (n : BitVec 2) : Statement (.fdset tok word fd n) := by
  intro w h hw
  have e := (Option.some.inj h).symm
  obtain ⟨m, f22, f18, -, f12, f8, -, -, f0⟩ := fields_6_4_4_3_3_4_4_2_2 e
  exact ⟨0x380fc#32, by rw [readForm_39 m]; unfold readMajor39; rw [f22, f18, f12, f8, f0]; rfl, mask_6_4_4_3_3_4_4_2_2 e (by decide : _ = 0#6 ++ 0#4 ++ 0#4 ++ 7#3 ++ 0#3 ++ 0#4 ++ 15#4 ++ 3#2 ++ 0#2) BitVec.and_zero BitVec.and_zero BitVec.and_zero BitVec.zero_and BitVec.and_zero BitVec.and_zero BitVec.zero_and BitVec.zero_and BitVec.and_zero⟩

theorem rclaim (tok : BitVec 4) (fd : BitVec 4) (oc : BitVec 4) (q : BitVec 2) (h : BitVec 2) : Statement (.rclaim tok fd oc q h) := by
  intro w h hw
  have e := (Option.some.inj h).symm
  obtain ⟨m, f22, f18, -, f8, f4, f2, f0⟩ := fields_6_4_4_6_4_4_2_2 e
  exact ⟨0x3f000#32, by rw [readForm_3A m]; unfold readMajor3A; rw [f22, f18, f8, f4, f2, f0]; rfl, mask_6_4_4_6_4_4_2_2 e (by decide : _ = 0#6 ++ 0#4 ++ 0#4 ++ 63#6 ++ 0#4 ++ 0#4 ++ 0#2 ++ 0#2) BitVec.and_zero BitVec.and_zero BitVec.and_zero BitVec.zero_and BitVec.and_zero BitVec.and_zero BitVec.and_zero BitVec.and_zero⟩

theorem rpub (tok : BitVec 4) (oc : BitVec 4) (q : BitVec 2) (h : BitVec 2) : Statement (.rpub tok oc q h) := by
  intro w h hw
  have e := (Option.some.inj h).symm
  obtain ⟨m, f22, f18, -, -, f4, f2, f0⟩ := fields_6_4_4_6_4_4_2_2 e
  exact ⟨0x3ff00#32, by rw [readForm_3A m]; unfold readMajor3A; rw [f22, f18, f4, f2, f0]; rfl, mask_6_4_4_6_4_4_2_2 e (by decide : _ = 0#6 ++ 0#4 ++ 0#4 ++ 63#6 ++ 15#4 ++ 0#4 ++ 0#2 ++ 0#2) BitVec.and_zero BitVec.and_zero BitVec.and_zero BitVec.zero_and BitVec.zero_and BitVec.and_zero BitVec.and_zero BitVec.and_zero⟩

theorem rwfill (tok : BitVec 4) (fd : BitVec 4) (oc : BitVec 4) (q : BitVec 2) (h : BitVec 2) : Statement (.rwfill tok fd oc q h) := by
  intro w h hw
  have e := (Option.some.inj h).symm
  obtain ⟨m, f22, f18, -, f8, f4, f2, f0⟩ := fields_6_4_4_6_4_4_2_2 e
  exact ⟨0x3f000#32, by rw [readForm_3A m]; unfold readMajor3A; rw [f22, f18, f8, f4, f2, f0]; rfl, mask_6_4_4_6_4_4_2_2 e (by decide : _ = 0#6 ++ 0#4 ++ 0#4 ++ 63#6 ++ 0#4 ++ 0#4 ++ 0#2 ++ 0#2) BitVec.and_zero BitVec.and_zero BitVec.and_zero BitVec.zero_and BitVec.and_zero BitVec.and_zero BitVec.and_zero BitVec.and_zero⟩

theorem rwfree (tok : BitVec 4) (oc : BitVec 4) (q : BitVec 2) (h : BitVec 2) : Statement (.rwfree tok oc q h) := by
  intro w h hw
  have e := (Option.some.inj h).symm
  obtain ⟨m, f22, f18, -, -, f4, f2, f0⟩ := fields_6_4_4_6_4_4_2_2 e
  exact ⟨0x3ff00#32, by rw [readForm_3A m]; unfold readMajor3A; rw [f22, f18, f4, f2, f0]; rfl, mask_6_4_4_6_4_4_2_2 e (by decide : _ = 0#6 ++ 0#4 ++ 0#4 ++ 63#6 ++ 15#4 ++ 0#4 ++ 0#2 ++ 0#2) BitVec.and_zero BitVec.and_zero BitVec.and_zero BitVec.zero_and BitVec.zero_and BitVec.and_zero BitVec.and_zero BitVec.and_zero⟩

theorem rrel (tok : BitVec 4) (oc : BitVec 4) (q : BitVec 2) (h : BitVec 2) : Statement (.rrel tok oc q h) := by
  intro w h hw
  have e := (Option.some.inj h).symm
  obtain ⟨m, f22, f18, -, -, f4, f2, f0⟩ := fields_6_4_4_6_4_4_2_2 e
  exact ⟨0x3ff00#32, by rw [readForm_3A m]; unfold readMajor3A; rw [f22, f18, f4, f2, f0]; rfl, mask_6_4_4_6_4_4_2_2 e (by decide : _ = 0#6 ++ 0#4 ++ 0#4 ++ 63#6 ++ 15#4 ++ 0#4 ++ 0#2 ++ 0#2) BitVec.and_zero BitVec.and_zero BitVec.and_zero BitVec.zero_and BitVec.zero_and BitVec.and_zero BitVec.and_zero BitVec.and_zero⟩

theorem ftxe (tok : BitVec 4) (fd : BitVec 4) (oc : BitVec 4) (h : BitVec 2) : Statement (.ftxe tok fd oc h) := by
  intro w h hw
  have e := (Option.some.inj h).symm
  obtain ⟨m, f22, f18, -, f8, f4, -, f0⟩ := fields_6_4_4_6_4_4_2_2 e
  exact ⟨0x3f00c#32, by rw [readForm_3B m]; unfold readMajor3B; rw [f22, f18, f8, f4, f0]; rfl, mask_6_4_4_6_4_4_2_2 e (by decide : _ = 0#6 ++ 0#4 ++ 0#4 ++ 63#6 ++ 0#4 ++ 0#4 ++ 3#2 ++ 0#2) BitVec.and_zero BitVec.and_zero BitVec.and_zero BitVec.zero_and BitVec.and_zero BitVec.and_zero BitVec.zero_and BitVec.and_zero⟩

theorem ftxk (tok : BitVec 4) (oc : BitVec 4) (h : BitVec 2) : Statement (.ftxk tok oc h) := by
  intro w h hw
  have e := (Option.some.inj h).symm
  obtain ⟨m, f22, f18, -, -, f4, -, f0⟩ := fields_6_4_4_6_4_4_2_2 e
  exact ⟨0x3ff0c#32, by rw [readForm_3B m]; unfold readMajor3B; rw [f22, f18, f4, f0]; rfl, mask_6_4_4_6_4_4_2_2 e (by decide : _ = 0#6 ++ 0#4 ++ 0#4 ++ 63#6 ++ 15#4 ++ 0#4 ++ 3#2 ++ 0#2) BitVec.and_zero BitVec.and_zero BitVec.and_zero BitVec.zero_and BitVec.zero_and BitVec.and_zero BitVec.zero_and BitVec.and_zero⟩

theorem pauseExpiry (who : Agent) : Statement (.pauseExpiry who) := fun _ h => nomatch h
theorem wfeTimeout (core : Nat) : Statement (.wfeTimeout core) := fun _ h => nomatch h
theorem waySwitchEnd (slot : Nat) : Statement (.waySwitchEnd slot) := fun _ h => nomatch h
theorem commandStart (slot : Nat) : Statement (.commandStart slot) := fun _ h => nomatch h
theorem transferStep (t : TagRef) : Statement (.transferStep t) := fun _ h => nomatch h
theorem waitEnd (who : Agent) : Statement (.waitEnd who) := fun _ h => nomatch h
theorem tokenRelief (core : Nat) : Statement (.tokenRelief core) := fun _ h => nomatch h
theorem ringRelief (slot : Nat) : Statement (.ringRelief slot) := fun _ h => nomatch h
theorem watchdogTimeout (core : Nat) : Statement (.watchdogTimeout core) := fun _ h => nomatch h
theorem trapDelivery (core : Nat) : Statement (.trapDelivery core) := fun _ h => nomatch h
theorem chunkIssue (t : TagRef) : Statement (.chunkIssue t) := fun _ h => nomatch h
theorem chunkLanding (t : TagRef) : Statement (.chunkLanding t) := fun _ h => nomatch h
theorem bagPublish (t : TagRef) : Statement (.bagPublish t) := fun _ h => nomatch h
theorem optimiserCommit (t : TagRef) : Statement (.optimiserCommit t) := fun _ h => nomatch h
theorem buddyAcknowledgement (t : TagRef) : Statement (.buddyAcknowledgement t) := fun _ h => nomatch h
theorem crossingCompletion (t : TagRef) : Statement (.crossingCompletion t) := fun _ h => nomatch h
theorem tmoExpiry (t : TagRef) : Statement (.tmoExpiry t) := fun _ h => nomatch h
theorem xputArrival (p : Packet) : Statement (.xputArrival p) := fun _ h => nomatch h
theorem xgetArrival (p : Packet) : Statement (.xgetArrival p) := fun _ h => nomatch h
theorem xamoArrival (p : Packet) : Statement (.xamoArrival p) := fun _ h => nomatch h
theorem xsigArrival (p : Packet) : Statement (.xsigArrival p) := fun _ h => nomatch h
theorem xa2aArrival (p : Packet) : Statement (.xa2aArrival p) := fun _ h => nomatch h
theorem dispatchDecision : Statement (.dispatchDecision) := fun _ h => nomatch h
theorem levelRaise (slot : Nat) (q : Nat) : Statement (.levelRaise slot q) := fun _ h => nomatch h
theorem completion (n : Nat) : Statement (.completion n) := fun _ h => nomatch h
theorem putArrival (n : Nat) : Statement (.putArrival n) := fun _ h => nomatch h
theorem acknowledgement (n : Nat) : Statement (.acknowledgement n) := fun _ h => nomatch h
theorem negativeAcknowledgement (n : Nat) : Statement (.negativeAcknowledgement n) := fun _ h => nomatch h
theorem backoffExpiry (n : Nat) : Statement (.backoffExpiry n) := fun _ h => nomatch h
theorem quantumExpiry (slot : Nat) : Statement (.quantumExpiry slot) := fun _ h => nomatch h
theorem quantumReturn (slot : Nat) : Statement (.quantumReturn slot) := fun _ h => nomatch h
theorem groupRestore (slot : Nat) : Statement (.groupRestore slot) := fun _ h => nomatch h
theorem preemptionComplete (slot : Nat) : Statement (.preemptionComplete slot) := fun _ h => nomatch h
theorem alloc (slot : Nat) (id : Nat) : Statement (.alloc slot id) := fun _ h => nomatch h
theorem ready (w : Ctxcmd) : Statement (.ready w) := fun _ h => nomatch h
theorem suspend (w : Ctxcmd) : Statement (.suspend w) := fun _ h => nomatch h
theorem resume (w : Ctxcmd) : Statement (.resume w) := fun _ h => nomatch h
theorem teardown (w : Ctxcmd) : Statement (.teardown w) := fun _ h => nomatch h
theorem release (w : Ctxcmd) : Statement (.release w) := fun _ h => nomatch h
theorem ctxcmdNoOperation (w : Ctxcmd) (code : Nat) : Statement (.ctxcmdNoOperation w code) := fun _ h => nomatch h
theorem qctlHalt (slot : Nat) (q : Nat) : Statement (.qctlHalt slot q) := fun _ h => nomatch h
theorem qctlResume (slot : Nat) (q : Nat) : Statement (.qctlResume slot q) := fun _ h => nomatch h
theorem flush (slot : Nat) (q : Nat) : Statement (.flush slot q) := fun _ h => nomatch h
theorem qctlReset (slot : Nat) (q : Nat) : Statement (.qctlReset slot q) := fun _ h => nomatch h
theorem put (slot : Nat) (port : Nat) (value : Nat) : Statement (.put slot port value) := fun _ h => nomatch h
theorem twgo (slot : Nat) (value : Nat) : Statement (.twgo slot value) := fun _ h => nomatch h
theorem dxctlGo (slot : Nat) (value : Nat) : Statement (.dxctlGo slot value) := fun _ h => nomatch h
theorem chead (slot : Nat) (value : Nat) : Statement (.chead slot value) := fun _ h => nomatch h
theorem hostSemaphoreAccess (slot : Nat) (n : Nat) (op : Nat) (value : Nat) : Statement (.hostSemaphoreAccess slot n op value) := fun _ h => nomatch h
theorem registerWrite (slot : Nat) (reg : Nat) (value : Nat) : Statement (.registerWrite slot reg value) := fun _ h => nomatch h
theorem payloadFlit (f : Flit) : Statement (.payloadFlit f) := fun _ h => nomatch h
theorem acknowledgementFlit (f : Flit) : Statement (.acknowledgementFlit f) := fun _ h => nomatch h
theorem negativeAcknowledgementFlit (f : Flit) : Statement (.negativeAcknowledgementFlit f) := fun _ h => nomatch h
theorem trainingFlit (f : Flit) : Statement (.trainingFlit f) := fun _ h => nomatch h
theorem laneFailure (lane : Nat) : Statement (.laneFailure lane) := fun _ h => nomatch h
theorem portFailure (port : Nat) : Statement (.portFailure port) := fun _ h => nomatch h
theorem mctpControl (m : Message) : Statement (.mctpControl m) := fun _ h => nomatch h
theorem mainon (m : Message) : Statement (.mainon m) := fun _ h => nomatch h
theorem bootEnd : Statement (.bootEnd) := fun _ h => nomatch h
theorem mainoff (m : Message) : Statement (.mainoff m) := fun _ h => nomatch h
theorem bootst (m : Message) : Statement (.bootst m) := fun _ h => nomatch h
theorem getcert (m : Message) : Statement (.getcert m) := fun _ h => nomatch h
theorem kekset (m : Message) : Statement (.kekset m) := fun _ h => nomatch h
theorem keyload (m : Message) : Statement (.keyload m) := fun _ h => nomatch h
theorem keyclr (m : Message) : Statement (.keyclr m) := fun _ h => nomatch h
theorem hbmsplit (m : Message) : Statement (.hbmsplit m) := fun _ h => nomatch h
theorem status (m : Message) : Statement (.status m) := fun _ h => nomatch h
theorem resetMsg (m : Message) : Statement (.resetMsg m) := fun _ h => nomatch h
theorem throttle (m : Message) : Statement (.throttle m) := fun _ h => nomatch h
theorem logread (m : Message) : Statement (.logread m) := fun _ h => nomatch h
theorem fwstage (m : Message) : Statement (.fwstage m) := fun _ h => nomatch h
theorem fwact (m : Message) : Statement (.fwact m) := fun _ h => nomatch h
theorem attest (m : Message) : Statement (.attest m) := fun _ h => nomatch h
theorem setid (m : Message) : Statement (.setid m) := fun _ h => nomatch h
theorem dbgMsg (m : Message) : Statement (.dbgMsg m) := fun _ h => nomatch h
theorem memrd (m : Message) : Statement (.memrd m) := fun _ h => nomatch h
theorem memwr (m : Message) : Statement (.memwr m) := fun _ h => nomatch h
theorem powerOnReset : Statement (.powerOnReset) := fun _ h => nomatch h
theorem powerThrottle (level : Nat) : Statement (.powerThrottle level) := fun _ h => nomatch h
theorem thermalShutdown : Statement (.thermalShutdown) := fun _ h => nomatch h
theorem errorDetected (r : ErrorReport) : Statement (.errorDetected r) := fun _ h => nomatch h
theorem targetedSelfTest (n : Nat) (pass : Bool) : Statement (.targetedSelfTest n pass) := fun _ h => nomatch h
theorem embeddingCommandEnd (t : TagRef) : Statement (.embeddingCommandEnd t) := fun _ h => nomatch h
theorem repairEnd (n : Nat) : Statement (.repairEnd n) := fun _ h => nomatch h
theorem firmwareVerified : Statement (.firmwareVerified) := fun _ h => nomatch h
theorem idleFlit (f : Flit) : Statement (.idleFlit f) := fun _ h => nomatch h
theorem mirrorArrival (p : Packet) : Statement (.mirrorArrival p) := fun _ h => nomatch h
theorem xa2aPosting (p : Packet) : Statement (.xa2aPosting p) := fun _ h => nomatch h
end Sys2Proof.Laws.Reads
end

