-- ==== Sys2Proof/Laws/Vector.lean ====
section
/-! SUPPORT. Vector orders: elements of registers, operands, the merge of results, the non-finite test, and what a lane-wise order gives. -/

namespace Sys2Proof.Machine

/-- Element j of a value's elements. -/
theorem elems_get (w n v j : Nat) (h : j < n) : (elems w n v)[j]? = some (laneOf w v j) := by
  induction n generalizing v j with
  | zero => omega
  | succ n ih =>
    cases j with
    | zero => simp [elems, laneOf]
    | succ j =>
      simp only [elems, List.getElem?_cons_succ, ih (v / 2 ^ w) j (by omega), laneOf]
      rw [Nat.div_div_eq_div_mul, ← Nat.pow_add, show w + w * j = w * (j + 1) by rw [Nat.mul_succ]; omega]
/-- As many elements as are asked for. -/
theorem elems_length (w n v : Nat) : (elems w n v).length = n := by
  induction n generalizing v with
  | zero => rfl
  | succ n ih => simp [elems, ih]

/-- Element j of a merge: the new one where there is one. -/
theorem merge_lane (w : Nat) (res : List (Option Nat)) (v j : Nat) (hj : j < res.length)
    (hr : ∀ c, some c ∈ res → c < 2 ^ w) : laneOf w (mergeElems w res v) j = match res[j]? with
      | some (some c) => c
      | _ => laneOf w v j := by
  induction res generalizing v j with
  | nil => simp at hj
  | cons c r ih =>
    have hp : 0 < 2 ^ w := Nat.two_pow_pos w
    have hc : c.getD (v % 2 ^ w) < 2 ^ w := by
      cases c with
      | none => exact Nat.mod_lt _ hp
      | some c => exact hr c (by simp)
    cases j with
    | zero =>
      simp only [mergeElems, laneOf, Nat.mul_zero, Nat.pow_zero, Nat.div_one, Nat.add_mul_mod_self_left, Nat.mod_eq_of_lt hc, List.getElem?_cons_zero]
      cases c <;> simp
    | succ j =>
      have e : laneOf w (mergeElems w (c :: r) v) (j + 1) = laneOf w (mergeElems w r (v / 2 ^ w)) j := by
        simp only [laneOf, mergeElems, show w * (j + 1) = w + w * j by rw [Nat.mul_succ]; omega, Nat.pow_add, ← Nat.div_div_eq_div_mul]
        rw [Nat.add_mul_div_left _ _ hp, Nat.div_eq_of_lt hc, Nat.zero_add]
      rw [e, ih _ _ (by simpa using hj) (fun c h => hr c (by simp [h]))]
      simp only [List.getElem?_cons_succ]
      have : laneOf w (v / 2 ^ w) j = laneOf w v (j + 1) := by
        simp only [laneOf]; rw [Nat.div_div_eq_div_mul, ← Nat.pow_add, show w + w * j = w * (j + 1) by rw [Nat.mul_succ]; omega]
      rw [this]

/-- A merge of elements that fit stays below the register's size. -/
theorem merge_lt (w : Nat) (res : List (Option Nat)) (v : Nat) (hr : ∀ c, some c ∈ res → c < 2 ^ w) (k : Nat) (hv : v < 2 ^ (w * (res.length + k))) :
    mergeElems w res v < 2 ^ (w * (res.length + k)) := by
  induction res generalizing v with
  | nil => simpa [mergeElems] using hv
  | cons c r ih =>
    have hp : 0 < 2 ^ w := Nat.two_pow_pos w
    have hc : c.getD (v % 2 ^ w) < 2 ^ w := by
      cases c with
      | none => exact Nat.mod_lt _ hp
      | some c => exact hr c (by simp)
    have e : w * ((c :: r).length + k) = w + w * (r.length + k) := by simp [Nat.mul_add]; omega
    rw [e, Nat.pow_add] at hv ⊢
    have := ih (v / 2 ^ w) (fun c h => hr c (by simp [h])) (Nat.div_lt_of_lt_mul hv)
    simp only [mergeElems]
    calc _ < 2 ^ w + 2 ^ w * mergeElems w r (v / 2 ^ w) := by omega
      _ = 2 ^ w * (mergeElems w r (v / 2 ^ w) + 1) := by rw [Nat.mul_add]; omega
      _ ≤ _ := Nat.mul_le_mul_left _ this

/-- Where the non-finite test does not trap, it sets NF or nothing. -/
theorem testFinite_ok {s t : State} {bad : List (Option Bool)} {fmt : Word} (h : s.testFinite bad fmt = .ok t) : t = s.flag (if bad.any Option.isSome then fNF else 0) := by
  unfold State.testFinite at h; split at h
  · cases h
  · simpa using h.symm

/-- A live register reads as its value and changes nothing. -/
theorem readGroup_one {s : State} {n v : Nat} {b : Bool} (h : s.named n 1 v) : s.readGroup n [b] = .ok (v, s) := by
  obtain ⟨r, u, h1, h2, h3, h4⟩ := h
  simp only [State.named] at h3
  subst h3
  simp [State.readGroup, State.readV, h1, h2, h4, bind, Except.bind, pure, Except.pure]
/-- The va operand of one live register. -/
theorem readA_one {s : State} {n v : Nat} {b : Bool} {la} (h : s.named n 1 v) : s.readA n [b] la = .ok (s.patterned 1 v, s.lastUse n 1 la) := by
  simp [State.readA, readGroup_one h, bind, Except.bind, pure, Except.pure]
/-- Another operand of one live register. -/
theorem readB_one {s : State} {n v : Nat} {b : Bool} {la} (h : s.named n 1 v) : s.readB n [b] la = .ok (v, s.lastUse n 1 la) := by
  simp [State.readB, readGroup_one h, bind, Except.bind, pure, Except.pure]
/-- A last-use mark changes only the marks of the step. -/
theorem lastUse_cases (s : State) (n g : Nat) (la) : ∃ m, s.lastUse n g la = { s with iss := { s.iss with marks := m } } := by
  unfold State.lastUse; split
  · exact ⟨s.iss.marks, rfl⟩
  · exact ⟨_, rfl⟩
/-- What a name stands for does not depend on the marks. -/
theorem named_marks {s : State} {m : List Nat} {n g v : Nat} : State.named { s with iss := { s.iss with marks := m } } n g v ↔ s.named n g v := by
  induction g generalizing n v with
  | zero => simp [State.named]
  | succ g ih => simp only [State.named, ih]; rfl

/-- A free value fits its width and advances the counter. -/
theorem freeBits_cases (s : State) (w : Nat) : ∃ v : Nat, v < 2 ^ w ∧ s.freeBits w = (v, { s with tick := s.tick + 1 }) := by
  unfold State.freeBits; exact ⟨_, Nat.mod_lt _ (Nat.two_pow_pos _), rfl⟩

/-- What the merge of one register does (13_vector R267): that register is live and holds the new elements, and where there is none its old ones. -/
theorem mergeV_spec (s : State) (p w : Nat) (res : List (Option Nat)) (hd : w ∣ 4096) (hl : res.length = 4096 / w)
    (hr : ∀ c, some c ∈ res → c < 2 ^ w) :
    ∃ (x : BitVec 4096) (n : Nat) (put : VPut), s.mergeV p w res = { s with
        cores := s.cores.set s.myCoreNo { s.myCore with vreg := s.myCore.vreg.set p x, live := s.myCore.live.set p true },
        iss := { s.iss with wrote := put :: s.iss.wrote }, tick := n } ∧
      ∀ j < 4096 / w, match (res[j]?).join with
        | some c => laneOf w x.toNat j = c
        | none => s.myCore.live.get false p = true → laneOf w x.toNat j = laneOf w (s.myCore.vreg.get 0 p).toNat j := by
  have hk : w * (4096 / w) = 4096 := Nat.mul_div_cancel' hd
  have lt : ∀ v < 2 ^ 4096, mergeElems w res v < 2 ^ 4096 := by
    intro v hv
    have := merge_lt w res v hr 0 (by rw [hl]; simpa [hk] using hv)
    rw [hl] at this; simpa [hk] using this
  have main : ∀ v < 2 ^ 4096, ∀ j < 4096 / w, laneOf w (BitVec.ofNat 4096 (mergeElems w res v)).toNat j = match res[j]? with
      | some (some c) => c
      | _ => laneOf w v j := by
    intro v hv j hj
    rw [BitVec.toNat_ofNat, Nat.mod_eq_of_lt (lt v hv), merge_lane w res v j (by omega) hr]
  unfold State.mergeV
  split
  · rename_i hall
    refine ⟨.ofNat 4096 (mergeElems w res 0), s.tick, _, rfl, ?_⟩
    intro j hj
    have h0 := main 0 (Nat.two_pow_pos _) j hj
    have : ∃ c, res[j]? = some (some c) := by
      rw [Bool.and_eq_true, List.all_eq_true] at hall
      have hj' : j < res.length := by omega
      have := hall.1 (res[j]) (List.getElem_mem hj')
      obtain ⟨c, hc⟩ := Option.isSome_iff_exists.1 this
      exact ⟨c, by rw [List.getElem?_eq_getElem hj', hc]⟩
    obtain ⟨c, hc⟩ := this
    rw [hc] at h0 ⊢
    exact h0
  · unfold State.priorV
    by_cases hlive : s.myCore.live.get false p = true
    · rw [if_pos hlive]
      refine ⟨.ofNat 4096 (mergeElems w res (s.myCore.vreg.get 0 p).toNat), s.tick, _, rfl, ?_⟩
      intro j hj
      have h0 := main _ (s.myCore.vreg.get 0 p).isLt j hj
      rcases hc : res[j]? with _ | (_ | c)
      · simp only [hc] at h0; exact fun _ => h0
      · simp only [hc] at h0; exact fun _ => h0
      · simp only [hc] at h0; exact h0
    · rw [if_neg hlive]
      obtain ⟨v, hv4, hv⟩ := freeBits_cases s 4096
      rw [hv]
      refine ⟨.ofNat 4096 (mergeElems w res v), s.tick + 1, _, rfl, ?_⟩
      intro j hj
      have h0 := main v hv4 j hj
      rcases hc : res[j]? with _ | (_ | c)
      · exact fun h => absurd h hlive
      · exact fun h => absurd h hlive
      · simp only [hc] at h0; exact h0



/-- What the merge of a group of registers does. -/
theorem mergeGroup_spec (w : Nat) (hd : w ∣ 4096) (hw : 0 < w) (g : Nat) : ∀ (s : State) (n : Nat) (res : List (Option Nat)), res.length = g * (4096 / w) →
    (∀ c, some c ∈ res → c < 2 ^ w) → (∀ i j, i < g → j < g → s.destination n i = s.destination n j → i = j) → ∀ t, t = s.mergeGroup n w (4096 / w) g res →
    t = { s with cores := t.cores, iss := { s.iss with wrote := t.iss.wrote }, tick := t.tick } ∧
    (∀ c, c ≠ s.myCoreNo → t.core c = s.core c) ∧ t.myCore = { s.myCore with vreg := t.myCore.vreg, live := t.myCore.live } ∧
    (∀ p, (∀ k < g, p ≠ s.destination n k) → t.myCore.vreg.get 0 p = s.myCore.vreg.get 0 p ∧ t.myCore.live.get false p = s.myCore.live.get false p) ∧
    ∀ j < g * (4096 / w), t.myCore.live.get false (s.destination n (j / (4096 / w))) = true ∧ match (res[j]?).join with
      | some c => laneOf w (t.myCore.vreg.get 0 (s.destination n (j / (4096 / w)))).toNat (j % (4096 / w)) = c
      | none => s.myCore.live.get false (s.destination n (j / (4096 / w))) = true →
        laneOf w (t.myCore.vreg.get 0 (s.destination n (j / (4096 / w)))).toNat (j % (4096 / w)) = laneOf w (s.myCore.vreg.get 0 (s.destination n (j / (4096 / w)))).toNat (j % (4096 / w)) := by
  have hL : 0 < 4096 / w := Nat.div_pos (Nat.le_of_dvd (by omega) hd) hw
  induction g with
  | zero => intro s n res _ _ _ t ht; subst ht; exact ⟨rfl, fun _ _ => rfl, rfl, fun _ _ => ⟨rfl, rfl⟩, fun j hj => by omega⟩
  | succ g ih =>
    intro s n res hl hr inj t ht
    obtain ⟨x, m, put, h1, h2⟩ := mergeV_spec s (s.destination n 0) w (res.take (4096 / w)) hd (by rw [List.length_take, hl, Nat.succ_mul]; omega)
      (fun c h => hr c (List.mem_of_mem_take h))
    have e : s.iss.old.phys (s.iss.here.toNat % 2048) n = s.destination n 0 := rfl
    rw [State.mergeGroup, e, h1] at ht
    have hs : ∀ v, v = ({ s with
        cores := s.cores.set s.myCoreNo { s.myCore with vreg := s.myCore.vreg.set (s.destination n 0) x, live := s.myCore.live.set (s.destination n 0) true },
        iss := { s.iss with wrote := put :: s.iss.wrote }, tick := m } : State) → v.myCoreNo = s.myCoreNo ∧ (∀ a b, v.destination a b = s.destination a b) ∧
        v.core s.myCoreNo = { s.myCore with vreg := s.myCore.vreg.set (s.destination n 0) x, live := s.myCore.live.set (s.destination n 0) true } ∧
        (∀ c, c ≠ s.myCoreNo → v.core c = s.core c) := by
      intro v hv; subst hv
      exact ⟨rfl, fun _ _ => rfl, Map.get_set_self _ _ _ _, fun c hc => Map.get_set_ne _ _ _ (Ne.symm hc)⟩
    generalize hv : ({ s with
        cores := s.cores.set s.myCoreNo { s.myCore with vreg := s.myCore.vreg.set (s.destination n 0) x, live := s.myCore.live.set (s.destination n 0) true },
        iss := { s.iss with wrote := put :: s.iss.wrote }, tick := m } : State) = v at ht
    obtain ⟨n1, n2, n3, n4⟩ := hs v hv.symm
    have n5 : v.myCore = v.core s.myCoreNo := by rw [← n1]; rfl
    have sh : ∀ k, s.destination (n + 1) k = s.destination n (k + 1) := by intro k; simp only [State.destination]; rw [Nat.add_assoc, Nat.add_comm 1 k]
    obtain ⟨i1, i2, i3, i4, i5⟩ := ih v (n + 1) (res.drop (4096 / w)) (by rw [List.length_drop, hl, Nat.succ_mul]; omega)
      (fun c h => hr c (List.mem_of_mem_drop h)) (fun i j hi hj h => by
        rw [n2, n2, sh, sh] at h; have := inj (i + 1) (j + 1) (by omega) (by omega) h; omega) t ht
    have n6 : t.myCoreNo = s.myCoreNo := by rw [i1, ← hv]; rfl
    refine ⟨?_, ?_, ?_, ?_, ?_⟩
    · rw [i1, ← hv]
    · intro c hc; rw [i2 c (by rw [n1]; exact hc), n4 c hc]
    · rw [i3, n5, n3]
    · intro p hp
      obtain ⟨a, b⟩ := i4 p (fun k hk => by rw [n2, sh]; exact hp (k + 1) (by omega))
      have := hp 0 (by omega)
      rw [a, b, n5, n3]
      exact ⟨Map.get_set_ne _ _ _ (Ne.symm this), Map.get_set_ne _ _ _ (Ne.symm this)⟩
    · intro j hj
      by_cases hj0 : j < 4096 / w
      · simp only [Nat.div_eq_of_lt hj0, Nat.mod_eq_of_lt hj0]
        obtain ⟨a, b⟩ := i4 (s.destination n 0) (fun k hk => by
          rw [n2, sh]; intro h; have := inj 0 (k + 1) (by omega) (by omega) h; omega)
        rw [a, b, n5, n3]; simp only [Map.get_set_self]
        refine ⟨trivial, ?_⟩
        have := h2 j hj0
        rw [List.getElem?_take, if_pos hj0] at this
        exact this
      · have e1 : j / (4096 / w) = (j - 4096 / w) / (4096 / w) + 1 := by
          conv => lhs; rw [show j = (j - 4096 / w) + 4096 / w by omega]
          rw [Nat.add_div_right _ hL]
        have e2 : j % (4096 / w) = (j - 4096 / w) % (4096 / w) := by
          conv => lhs; rw [show j = (j - 4096 / w) + 4096 / w by omega]
          rw [Nat.add_mod_right]
        have := i5 (j - 4096 / w) (by have := Nat.add_one_mul g (4096 / w); omega)
        rw [List.getElem?_drop, show 4096 / w + (j - 4096 / w) = j by omega] at this
        simp only [n2, sh, ← e1, ← e2, n5, n3] at this
        have hne : s.destination n 0 ≠ s.destination n (j / (4096 / w)) := by
          intro h
          have hlt : j / (4096 / w) < g + 1 := by rw [Nat.div_lt_iff_lt_mul hL]; exact hj
          have h9 : 0 = j / (4096 / w) := inj 0 (j / (4096 / w)) (Nat.succ_pos g) hlt h
          rw [e1] at h9; exact absurd h9 (Nat.succ_ne_zero _).symm
        simp only [Map.get_set_ne _ _ _ hne] at this
        exact this

/-- What the result of an order does to the vector registers and the ring. -/
theorem result_gives (s : State) (vd g w : Nat) (res : List (Option Nat)) (hw : 0 < w) (hd : w ∣ 4096) (hl : res.length = g * (4096 / w))
    (hr : ∀ c, some c ∈ res → c < 2 ^ w) (inj : ∀ i j, i < g → j < g → s.destination vd i = s.destination vd j → i = j) (t : State) (ht : t = s.result vd g w res) :
    s.onlyVector t { s.cur with ring := some (s.destination vd 0) :: s.cur.ring.take 3 } ((List.range g).map (s.destination vd)) ∧
    s.elementsWritten t vd w g (fun j => (res[j]?).join) := by
  obtain ⟨i1, i2, i3, i4, i5⟩ := mergeGroup_spec w hd hw g s vd res hl hr inj _ rfl
  have e : s.iss.old.phys (s.iss.here.toNat % 2048) vd = s.destination vd 0 := rfl
  unfold State.result at ht
  rw [e] at ht
  generalize s.mergeGroup vd w (4096 / w) g res = u at *
  have c1 : u.cur = s.cur := by rw [i1]; rfl
  have c2 : u.iss.who = s.iss.who := by rw [i1]
  have c3 : u.seqs = s.seqs := by rw [i1]
  have c4 : t.myCore = u.myCore := by rw [ht]; rfl
  refine ⟨⟨?_, ?_, ?_, ?_, ?_, ?_⟩, ?_⟩
  · rw [ht, State.enterRing, State.setCur, State.setSeq, i1]
  · intro a ha
    have : t.seq a = u.seq a := by rw [ht]; exact Map.get_set_ne _ _ _ (by rw [c2]; exact Ne.symm ha)
    rw [this]; unfold State.seq; rw [c3]
  · intro c hc; rw [← i2 c hc, ht]; rfl
  · rw [ht, State.enterRing, State.cur_setCur, c1]
  · rw [c4]; exact i3
  · intro p hp; rw [c4]; exact i4 p (fun k hk h => hp (by rw [h]; exact List.mem_map_of_mem (by simpa using hk)))
  · intro j hj; rw [c4]; exact i5 j hj

/-- A flag of joined elements is a flag of one of them. -/
theorem foldl_flags (res : List (Option Elem)) (g : BitVec 8) (b : Nat) :
    (res.foldl (fun g e => match e with | some x => g ||| x.2 | none => g) g).getLsbD b = true ↔
      g.getLsbD b = true ∨ ∃ e : Elem, some e ∈ res ∧ e.2.getLsbD b = true := by
  induction res generalizing g with
  | nil => simp
  | cons c r ih =>
    rw [List.foldl_cons, ih]
    cases c with
    | none => simp
    | some x => simp [BitVec.getLsbD_or, or_assoc]

/-- A flag after setting flags. -/
theorem flag_flags (s : State) (f : BitVec 8) (b : Nat) : (s.flag f).cur.fflags.getLsbD b = true ↔ s.cur.fflags.getLsbD b = true ∨ f.getLsbD b = true := by
  unfold State.flag; split
  · rename_i h; subst h; simp
  · show (s.flagged f).cur.fflags.getLsbD b = true ↔ _; simp [BitVec.getLsbD_or]

/-- Setting flags changes the record of the issuing sequencer and the raised flags of the step only. -/
theorem flag_only (s : State) (f : BitVec 8) : ∃ x, (s.flag f).cur = { s.cur with fflags := x } ∧
    s.flag f = { s with seqs := (s.flag f).seqs, iss := { s.iss with raised := (s.flag f).iss.raised } } ∧
    (∀ a, a ≠ s.iss.who → (s.flag f).seq a = s.seq a) := by
  rcases s.flag_eq f with e | e
  · rw [e]; exact ⟨s.cur.fflags, rfl, rfl, fun _ _ => rfl⟩
  · rw [e, State.cur_flagged]; exact ⟨_, rfl, rfl, fun a h => Map.get_set_ne _ _ _ (Ne.symm h)⟩

/-- Setting flags twice changes no more. -/
theorem flag2 (s : State) (a b : BitVec 8) : (s.flag a).flag b =
    { s with seqs := ((s.flag a).flag b).seqs, iss := { s.iss with raised := ((s.flag a).flag b).iss.raised } } := by
  unfold State.flag; split <;> split <;> rfl

/-- A lane that the non-finite trap takes. -/
def BadAt (nanOnly : Bool) (l : List (Option Bool)) (j : Nat) : Prop := ∃ b, l[j]? = some (some b) ∧ (nanOnly = true → b = true)

/-- The first lane that the non-finite trap takes. -/
theorem firstBad_some (nanOnly : Bool) (l : List (Option Bool)) (j : Nat) :
    firstBad nanOnly l = some j ↔ BadAt nanOnly l j ∧ ∀ k < j, ¬BadAt nanOnly l k := by
  induction l generalizing j with
  | nil => simp [firstBad, BadAt]
  | cons c r ih =>
    have up : ∀ j, BadAt nanOnly (c :: r) (j + 1) ↔ BadAt nanOnly r j := by intro j; simp [BadAt]
    by_cases h0 : BadAt nanOnly (c :: r) 0
    · have : firstBad nanOnly (c :: r) = some 0 := by
        obtain ⟨b, h1, h2⟩ := h0
        simp at h1; subst h1
        cases b <;> simp_all [firstBad]
      rw [this]
      constructor
      · intro h; cases h; exact ⟨h0, fun k hk => by omega⟩
      · rintro ⟨-, h⟩
        cases j with
        | zero => rfl
        | succ j => exact absurd h0 (h 0 (by omega))
    · have : firstBad nanOnly (c :: r) = (firstBad nanOnly r).map (· + 1) := by
        rcases c with _ | (_ | _)
        · rfl
        · simp only [firstBad]; rw [if_pos]; simp [BadAt] at h0; simpa using h0
        · exact absurd ⟨true, by simp, by simp⟩ h0
      rw [this]
      cases j with
      | zero => simp [h0]
      | succ j =>
        rw [up]
        rw [show (Option.map (· + 1) (firstBad nanOnly r) = some (j + 1)) ↔ firstBad nanOnly r = some j by cases firstBad nanOnly r <;> simp, ih]
        constructor
        · rintro ⟨a, b⟩; refine ⟨a, fun k hk => ?_⟩
          cases k with
          | zero => exact h0
          | succ k => rw [up]; exact b k (by omega)
        · rintro ⟨a, b⟩; exact ⟨a, fun k hk => by rw [← up]; exact b (k + 1) (by omega)⟩

/-- No lane that the trap takes. -/
theorem firstBad_none (nanOnly : Bool) (l : List (Option Bool)) : (∀ j, ¬BadAt nanOnly l j) → firstBad nanOnly l = none := by
  intro h
  rcases e : firstBad nanOnly l with _ | j
  · rfl
  · exact absurd ((firstBad_some _ _ _).1 e).1 (h j)

/-- An order that ends in finishV gives the elements it is handed, or takes the non-finite trap. -/
theorem finishV_gives (s s0 : State) (m : List Nat) (vd td g : Nat) (fmt : Word) (res : List (Option Elem)) (o : Instr) (hw : 0 < typeWidth td) (hd : typeWidth td ∣ 4096)
    (hl : res.length = g * (4096 / typeWidth td)) (hr : ∀ e : Elem, some e ∈ res → e.1 < 2 ^ typeWidth td)
    (inj : ∀ i j, i < g → j < g → s0.destination vd i = s0.destination vd j → i = j)
    (hs : s = { s0 with iss := { s0.iss with marks := m } }) (hx : exec o s0 = .next (settle s0 (s.finishV vd g td fmt res))) (f : Nat → Option Elem)
    (hf : ∀ j < g * (4096 / typeWidth td), f j = (res[j]?).join) :
    s0.givesElements o vd td g true fmt f := by
  let bad : List (Option Bool) := res.map fun (e : Option Elem) => e.bind fun x => nonFinite (tyOf td) x.1
  have hb : ∀ j : Nat, bad[j]? = (res[j]?).map fun (e : Option Elem) => e.bind fun x => nonFinite (tyOf td) x.1 := by intro j; simp [bad]
  have inres : ∀ (j : Nat) (e : Elem), f j = some e → j < g * (4096 / typeWidth td) → res[j]? = some (some e) := by
    intro j e h hj; rw [hf j hj] at h
    rcases hc : res[j]? with _ | (_ | c) <;> simp_all
  have nf : s.nfOn = s0.nfOn ∧ s.nfNaNOnly = s0.nfNaNOnly := by subst hs; exact ⟨rfl, rfl⟩
  have badAt : ∀ j < g * (4096 / typeWidth td), BadAt s.nfNaNOnly bad j ↔ ∃ (e : Elem) (b : Bool), f j = some e ∧ nonFinite (tyOf td) e.1 = some b ∧ (s0.nfNaNOnly = true → b = true) := by
    intro j hj
    unfold BadAt
    rw [hb, hf j hj, nf.2]
    rcases hc : res[j]? with _ | (_ | e) <;> simp
  have small : ∀ j, BadAt s.nfNaNOnly bad j → j < g * (4096 / typeWidth td) := by
    rintro j ⟨b, h, -⟩
    have := (List.getElem?_eq_some_iff.1 h).1
    simpa [bad, hl] using this
  unfold State.givesElements
  refine ⟨?_, ?_⟩
  · intro h
    have noTrap : (s.nfOn && (firstBad s.nfNaNOnly bad).isSome) = false := by
      rcases h with h | h | h
      · rw [nf.1, h]; rfl
      · cases h
      · rw [firstBad_none]; simp
        intro j hj; exact h j (small j hj) ((badAt j (small j hj)).1 hj)
    let u := (s.flag (if bad.any Option.isSome then fNF else 0)).flag (flagsOf res)
    have he : s.finishV vd g td fmt res = .ok (u.result vd g (typeWidth td) (res.map fun e => e.map (·.1))) := by
      simp only [State.finishV, State.testFinite]
      simp only [bad] at noTrap
      rw [noTrap]; rfl
    rw [he] at hx
    obtain ⟨x1, f1, f2, f3⟩ := flag_only s (if bad.any Option.isSome then fNF else 0)
    obtain ⟨x2, f4, f5, f6⟩ := flag_only (s.flag (if bad.any Option.isSome then fNF else 0)) (flagsOf res)
    have uiss : u.iss = { s.iss with raised := u.iss.raised } := congrArg State.iss (flag2 s _ _)
    have ucur : u.cur = { s.cur with fflags := x2 } := by rw [show u.cur = _ from f4, f1]
    have uall : u = { s with seqs := u.seqs, iss := { s.iss with raised := u.iss.raised } } := by
      exact flag2 _ _ _
    have useq : ∀ a, a ≠ s.iss.who → u.seq a = s.seq a := by
      intro a ha; rw [← f3 a ha]; exact f6 a (by rw [State.who_flag]; exact ha)
    have udest : ∀ k, u.destination vd k = s0.destination vd k := by intro k; unfold State.destination; rw [uiss, hs]
    have ud : u.destination vd = s0.destination vd := funext udest
    obtain ⟨⟨h1, h2, h3, h4, h5, h6⟩, h7⟩ := result_gives u vd g (typeWidth td) (res.map fun e => e.map (·.1)) hw hd (by simpa using hl) (by
      intro c hc; simp only [List.mem_map] at hc; obtain ⟨e, h1, h2⟩ := hc
      cases e with
      | none => simp at h2
      | some e => simp at h2; subst h2; exact hr e h1) (by simpa only [udest] using inj) _ rfl
    have uno : u.myCoreNo = s0.myCoreNo := by rw [uall, hs]; rfl
    have ucore : u.myCore = s0.myCore := by rw [uall, hs]; rfl
    refine ⟨_, u.cur.fflags, hx, ⟨?_, ?_, ?_, ?_, ?_, ?_⟩, ?_, ?_⟩
    · generalize u.result vd g (typeWidth td) (res.map fun e => e.map (·.1)) = t at *
      rw [h1, uall, hs]
    · intro a ha; rw [h2 a (by rw [uiss, hs]; exact ha), useq a (by rw [hs]; exact ha), hs]; rfl
    · intro c hc; rw [h3 c (by rw [uno]; exact hc), uall, hs]; rfl
    · rw [h4, udest, ucur, hs]; rfl
    · rw [h5, ucore]
    · intro p hp; rw [← ucore]; exact h6 p (by rw [ud]; exact hp)
    · intro j hj
      have := h7 j hj
      rw [ud, ucore] at this
      have e : (fun (j : Nat) => ((res.map fun (e : Option Elem) => e.map (·.1))[j]?).join) j = (fun j => (f j).map (·.1)) j := by
        simp only [List.getElem?_map, hf j hj]
        rcases hc : res[j]? with _ | (_ | e) <;> rfl
      refine ⟨this.1, ?_⟩
      have h9 := this.2
      rw [e] at h9
      exact h9
    · intro b
      have e1 : (flagsOf res).getLsbD b = true ↔ ∃ j < g * (4096 / typeWidth td), ∃ e : Elem, f j = some e ∧ e.2.getLsbD b = true := by
        refine Iff.trans (foldl_flags res 0 b) ?_
        have z : (0 : BitVec 8).getLsbD b = false := by simp
        rw [z]
        simp only [Bool.false_eq_true, false_or]
        constructor
        · rintro ⟨e, h1, h2⟩
          obtain ⟨j, hj, h3⟩ := List.getElem_of_mem h1
          refine ⟨j, by omega, e, ?_, h2⟩
          rw [hf j (by omega), List.getElem?_eq_getElem hj, h3]; rfl
        · rintro ⟨j, hj, e, h1, h2⟩
          exact ⟨e, List.mem_of_getElem? (inres j e h1 hj), h2⟩
      have e2 : (if bad.any Option.isSome then fNF else 0).getLsbD b = true ↔ fNF.getLsbD b = true ∧ True ∧ ∃ j < g * (4096 / typeWidth td), ∃ e : Elem, f j = some e ∧ (nonFinite (tyOf td) e.1).isSome = true := by
        have : bad.any Option.isSome = true ↔ ∃ j < g * (4096 / typeWidth td), ∃ e : Elem, f j = some e ∧ (nonFinite (tyOf td) e.1).isSome = true := by
          rw [List.any_eq_true]
          constructor
          · rintro ⟨x, h1, h2⟩
            simp only [bad, List.mem_map] at h1
            obtain ⟨e, h1, rfl⟩ := h1
            cases e with
            | none => simp at h2
            | some e =>
              obtain ⟨j, hj, h3⟩ := List.getElem_of_mem h1
              refine ⟨j, by omega, e, ?_, by simpa using h2⟩
              rw [hf j (by omega), List.getElem?_eq_getElem hj, h3]; rfl
          · rintro ⟨j, hj, e, h1, h2⟩
            exact ⟨nonFinite (tyOf td) e.1, List.mem_map.2 ⟨some e, List.mem_of_getElem? (inres j e h1 hj), rfl⟩, h2⟩
        split
        · rename_i h; exact ⟨fun h1 => ⟨h1, trivial, this.1 h⟩, fun h1 => h1.1⟩
        · rename_i h; exact ⟨fun h1 => by simp at h1, fun h1 => absurd (this.2 h1.2.2) h⟩
      show ((s.flag _).flag _).cur.fflags.getLsbD b = true ↔ _
      rw [flag_flags, flag_flags, e1, e2, hs]
      simp only [eq_self, true_and, or_assoc]
      exact or_congr Iff.rfl or_comm
  · intro j hj _ hon ⟨e, b, h1, h2, h3⟩ hfirst
    have hfb : firstBad s.nfNaNOnly bad = some j := by
      rw [firstBad_some]
      exact ⟨(badAt j hj).2 ⟨e, b, h1, h2, h3⟩, fun k hk hh => hfirst k hk ((badAt k (by omega)).1 hh)⟩
    rw [hx]
    simp only [bad] at hfb
    simp only [State.finishV, State.testFinite, hfb, nf.1, hon]; rfl

/-- Lane j of the mask is bit j of the top predicate entry. -/
theorem mask_get (s : State) (n j : Nat) (h : j < n) : (s.mask n)[j]? = some (s.topNat.testBit j) := by
  simp only [State.mask, List.getElem?_map, elems_get 1 n s.topNat j h, Option.map_some, laneOf, Nat.testBit, Nat.one_mul, Nat.pow_one, Nat.shiftRight_eq_div_pow]
  congr 1
  rcases Nat.mod_two_eq_zero_or_one (s.topNat / 2 ^ j) with e | e <;> simp [e]
/-- The mask has as many lanes as are asked for. -/
theorem mask_length (s : State) (n : Nat) : (s.mask n).length = n := by simp [State.mask, elems_length]

/-- Lane j of a lane-wise map. -/
theorem mapLanes_get (f : Nat → Nat → Nat → Nat → Elem) : ∀ (n i : Nat) (m : List Bool) (d a b : List Nat), m.length = n → d.length = n → a.length = n → b.length = n →
    (mapLanes f i m d a b).length = n ∧ ∀ j, j < n → (mapLanes f i m d a b)[j]? = some (if m.getD j false then some (f (i + j) (d.getD j 0) (a.getD j 0) (b.getD j 0)) else none) := by
  intro n
  induction n with
  | zero => intro i m d a b hm hd ha hb; obtain rfl := List.length_eq_zero_iff.1 hm; simp [mapLanes]
  | succ n ih =>
    intro i m d a b hm hd ha hb
    rcases m with _ | ⟨m0, m⟩; · simp at hm
    rcases d with _ | ⟨d0, d⟩; · simp at hd
    rcases a with _ | ⟨a0, a⟩; · simp at ha
    rcases b with _ | ⟨b0, b⟩; · simp at hb
    obtain ⟨h1, h2⟩ := ih (i + 1) m d a b (by simpa using hm) (by simpa using hd) (by simpa using ha) (by simpa using hb)
    refine ⟨by simp [mapLanes, h1], ?_⟩
    intro j hj
    cases j with
    | zero => simp [mapLanes]
    | succ j =>
      simp only [mapLanes, List.getElem?_cons_succ, h2 j (by omega), List.getD_cons_succ]
      rw [show i + 1 + j = i + (j + 1) by omega]

/-- The elements of a lane-wise order as mapLanes gives them. -/
theorem mapLanes_join (s : State) (f : Nat → Nat → Nat → Nat → Elem) (n wd wa wb D A B j : Nat) (hj : j < n) :
    ((mapLanes f 0 (s.mask n) (elems wd n D) (elems wa n A) (elems wb n B))[j]?).join =
      if s.topNat.testBit j = true then some (f j (laneOf wd D j) (laneOf wa A j) (laneOf wb B j)) else none := by
  rw [(mapLanes_get f n 0 (s.mask n) _ _ _ (mask_length s n) (elems_length ..) (elems_length ..) (elems_length ..)).2 j hj]
  simp only [List.getD_eq_getElem?_getD, mask_get s n j hj, elems_get _ n _ j hj, Option.getD_some, Nat.zero_add]
  split <;> rfl

/-- A result of a lane-wise order comes from a lane. -/
theorem mapLanes_mem (s : State) (f : Nat → Nat → Nat → Nat → Elem) (n wd wa wb D A B : Nat) (e : Elem)
    (h : some e ∈ mapLanes f 0 (s.mask n) (elems wd n D) (elems wa n A) (elems wb n B)) : ∃ j < n, e = f j (laneOf wd D j) (laneOf wa A j) (laneOf wb B j) := by
  have sp := mapLanes_get f n 0 (s.mask n) _ _ _ (mask_length s n) (elems_length wd n D) (elems_length wa n A) (elems_length wb n B)
  obtain ⟨j, hj, h3⟩ := List.getElem_of_mem h
  rw [sp.1] at hj
  have := mapLanes_join s f n wd wa wb D A B j hj
  rw [List.getElem?_eq_getElem (by omega), h3] at this
  refine ⟨j, hj, ?_⟩
  simp only [Option.join_some] at this
  split at this
  · exact Option.some.inj this
  · cases this

/-- The width of a type that is not reserved divides a register. -/
theorem width_ok {t : Nat} (h : t ≤ 12) : 0 < typeWidth t ∧ typeWidth t ∣ 4096 ∧ lanesOf t = 4096 / typeWidth t := by
  have : t = 0 ∨ t = 1 ∨ t = 2 ∨ t = 3 ∨ t = 4 ∨ t = 5 ∨ t = 6 ∨ t = 7 ∨ t = 8 ∨ t = 9 ∨ t = 10 ∨ t = 11 ∨ t = 12 := by omega
  rcases this with h | h | h | h | h | h | h | h | h | h | h | h | h <;> subst h <;> decide

/-- A lane-wise order. -/
theorem laneOrder_gives {ok : Nat → Bool} {rounds acc : Bool} {f : Ty → Rounding → Nat → Nat → Nat → Elem} {vd va vb : BitVec 5} {la lb : BitVec 1} {s : State} {o : Instr}
    {A B D : Nat} (ex : exec o s = laneOrder ok rounds acc f vd va vb la lb s) (ht : s.t0 ≤ 12) (hok : s.badType ok rounds = false) (hA : s.named va.toNat 1 A) (hB : s.named vb.toNat 1 B)
    (hD : if acc = true then s.named vd.toNat 1 D else D = 0)
    (lt : ∀ j, (f (tyOf s.t0) (s.vround j) (laneOf (typeWidth s.t0) D j) (laneOf (typeWidth s.t0) (s.patterned 1 A) j) (laneOf (typeWidth s.t0) B j)).1 < 2 ^ typeWidth s.t0)
    (g : Nat → Option Elem) (hg : ∀ j < 4096 / typeWidth s.t0, g j = if s.topNat.testBit j = true then
      some (f (tyOf s.t0) (s.vround j) (laneOf (typeWidth s.t0) D j) (laneOf (typeWidth s.t0) (s.patterned 1 A) j) (laneOf (typeWidth s.t0) B j)) else none) :
    s.givesElements o vd.toNat s.t0 1 true (fmtOf s.t0 s.t0 s.t0) g := by
  obtain ⟨hw, hd, hn⟩ := width_ok ht
  obtain ⟨m1, e1⟩ := lastUse_cases s va.toNat 1 la
  let s1 : State := { s with iss := { s.iss with marks := m1 } }
  obtain ⟨m2, e2⟩ := lastUse_cases s1 vb.toNat 1 lb
  have e2' : s1.lastUse vb.toNat 1 lb = ({ s with iss := { s.iss with marks := m2 } } : State) := e2
  let s2 : State := { s with iss := { s.iss with marks := m2 } }
  have hB' : s1.named vb.toNat 1 B := named_marks.2 hB
  have body : exec o s = .next (settle s (s2.finishV vd.toNat 1 s.t0 (fmtOf s.t0 s.t0 s.t0)
      (mapLanes (fun j => f (tyOf s.t0) (s.vround j)) 0 (s.mask (lanesOf s.t0)) (elems (typeWidth s.t0) (lanesOf s.t0) D) (elems (typeWidth s.t0) (lanesOf s.t0) (s.patterned 1 A))
        (elems (typeWidth s.t0) (lanesOf s.t0) B)))) := by
    rw [ex, laneOrder, issueAlways, hok]
    simp only [bind, Except.bind, readA_one hA, e1]
    rw [show (({ s with iss := { s.iss with marks := m1 } } : State).readB vb.toNat [(s.mask (lanesOf s.t0)).any id] lb) = .ok (B, s2) from by rw [readB_one hB', e2']]
    cases acc with
    | true =>
      have hD : s.named vd.toNat 1 D := by simpa using hD
      have hD' : s2.named vd.toNat 1 D := named_marks.2 hD
      simp only [if_true]
      rw [readB_one hD']
      have : s2.lastUse vd.toNat 1 0 = s2 := by simp [State.lastUse]
      rw [this]; rfl
    | false =>
      have hD : D = 0 := by simpa using hD
      subst hD; rfl
  refine finishV_gives s2 s m2 vd.toNat s.t0 1 _ _ o hw hd ?_ ?_ (fun i j hi hj _ => by omega) rfl body g ?_
  · rw [(mapLanes_get _ (lanesOf s.t0) 0 _ _ _ _ (mask_length ..) (elems_length ..) (elems_length ..) (elems_length ..)).1, hn, Nat.one_mul]
  · intro e he
    obtain ⟨j, -, rfl⟩ := mapLanes_mem s _ _ _ _ _ _ _ _ e he
    exact lt j
  · intro j hj
    rw [mapLanes_join s _ _ _ _ _ _ _ _ j (by rw [hn]; omega)]
    exact hg j (by omega)

/-- The codes of a floating-point type fit its width. -/
theorem fp_fits {t : Nat} {f : Fp} (ht : t ≤ 5) (h : tyOf t = .fp f) : 2 * f.signBit = 2 ^ typeWidth t ∧ f.maxCode < f.signBit ∧ f.infCode < f.signBit ∧ f.nan < f.signBit := by
  have : t = 0 ∨ t = 1 ∨ t = 2 ∨ t = 3 ∨ t = 4 ∨ t = 5 := by omega
  rcases this with e | e | e | e | e | e <;> subst e <;> (simp only [tyOf] at h; injection h with h; subst h; decide)

/-- A rounded element fits its width. -/
theorem roundTo_lt {t : Nat} {f : Fp} (ht : t ≤ 5) (h : tyOf t = .fp f) (r : Rounding) (x : Exact) : (roundTo f r x).1 < 2 ^ typeWidth t := by
  obtain ⟨h1, h2, h3, h4⟩ := fp_fits ht h
  rw [← h1]
  have ov : ∀ neg, (overflow f r neg).1 < 2 * f.signBit := by
    intro neg; simp only [overflow]; cases neg <;> (split <;> (try split) <;> simp <;> omega)
  have rm : ∀ neg m, (roundMag f r neg m).1 < 2 * f.signBit := by
    intro neg m; simp only [roundMag]; split
    · exact ov neg
    · cases neg <;> simp <;> omega
  cases x with
  | mag neg m => exact rm neg m
  | num x =>
    cases x with
    | nan s => simp only [roundTo]; omega
    | inf neg => simp only [roundTo]; cases neg <;> (repeat' split) <;> simp <;> omega
    | fin neg m e =>
      simp only [roundTo]; split
      · cases neg <;> simp <;> omega
      · exact rm _ _

/-- A wrapped integer fits its width. -/
theorem wrap_lt (i : IntFmt) (x : Int) : i.wrap x < 2 ^ i.w := by
  have hp : (0 : Int) < ((2 ^ i.w : Nat) : Int) := by exact_mod_cast Nat.two_pow_pos i.w
  have h1 := Int.emod_lt_of_pos x hp
  have h2 := Int.emod_nonneg x (Int.ne_of_gt hp)
  unfold IntFmt.wrap; omega
/-- An integer type has the width of its code. -/
theorem int_w {t : Nat} {i : IntFmt} (ht : t ≤ 12) (h : tyOf t = .int i) : i.w = typeWidth t ∧ 6 ≤ t := by
  have : t = 0 ∨ t = 1 ∨ t = 2 ∨ t = 3 ∨ t = 4 ∨ t = 5 ∨ t = 6 ∨ t = 7 ∨ t = 8 ∨ t = 9 ∨ t = 10 ∨ t = 11 ∨ t = 12 := by omega
  rcases this with e | e | e | e | e | e | e | e | e | e | e | e | e <;> subst e <;> simp only [tyOf, reduceCtorEq] at h <;> (injection h with h; subst h; decide)
theorem laneOf_lt (w v j : Nat) : laneOf w v j < 2 ^ w := Nat.mod_lt _ (Nat.two_pow_pos w)

/-- What a lane-wise order of one operand gives. -/
theorem laneOrder1_gives {ok : Nat → Bool} {rounds : Bool} {f : Ty → Rounding → Nat → Elem} {vd va : BitVec 5} {la : BitVec 1} {s : State} {o : Instr}
    {A : Nat} (ex : exec o s = laneOrder1 ok rounds f vd va la s) (ht : s.t0 ≤ 12) (hok : s.badType ok rounds = false) (hA : s.named va.toNat 1 A)
    (lt : ∀ j, (f (tyOf s.t0) (s.vround j) (laneOf (typeWidth s.t0) (s.patterned 1 A) j)).1 < 2 ^ typeWidth s.t0)
    (g : Nat → Option Elem) (hg : ∀ j < 4096 / typeWidth s.t0, g j = if s.topNat.testBit j = true then
      some (f (tyOf s.t0) (s.vround j) (laneOf (typeWidth s.t0) (s.patterned 1 A) j)) else none) :
    s.givesElements o vd.toNat s.t0 1 true (fmtOf s.t0 0xF s.t0) g := by
  obtain ⟨hw, hd, hn⟩ := width_ok ht
  obtain ⟨m1, e1⟩ := lastUse_cases s va.toNat 1 la
  let s1 : State := { s with iss := { s.iss with marks := m1 } }
  have body : exec o s = .next (settle s (s1.finishV vd.toNat 1 s.t0 (fmtOf s.t0 0xF s.t0)
      (mapLanes (fun j _ x _ => f (tyOf s.t0) (s.vround j) x) 0 (s.mask (lanesOf s.t0)) (elems (typeWidth s.t0) (lanesOf s.t0) (s.patterned 1 A)) (elems (typeWidth s.t0) (lanesOf s.t0) (s.patterned 1 A))
        (elems (typeWidth s.t0) (lanesOf s.t0) (s.patterned 1 A))))) := by
    rw [ex, laneOrder1, issueAlways, hok]
    simp only [bind, Except.bind, readA_one hA, e1]
    rfl
  refine finishV_gives s1 s m1 vd.toNat s.t0 1 _ _ o hw hd ?_ ?_ (fun i j hi hj _ => by omega) rfl body g ?_
  · rw [(mapLanes_get _ (lanesOf s.t0) 0 _ _ _ _ (mask_length ..) (elems_length ..) (elems_length ..) (elems_length ..)).1, hn, Nat.one_mul]
  · intro e he
    obtain ⟨j, -, rfl⟩ := mapLanes_mem s _ _ _ _ _ _ _ _ e he
    exact lt j
  · intro j hj
    rw [mapLanes_join s _ _ _ _ _ _ _ _ j (by rw [hn]; omega)]
    exact hg j (by omega)

end Sys2Proof.Machine
end

