-- ==== Sys2Proof/Tests/Slice0.lean ====
section
/-! SUPPORT. Tests: words of the spec's encodings, terms that WellFormed refuses, decided values of the spec's tables, and for each statement states
that meet its hypotheses. -/

namespace Sys2Proof.Tests

open Sys2Proof Sys2Proof.Machine

set_option maxRecDepth 100000
set_option Elab.async false

/-! ### States to test on -/

/-- A sequencer at step 0 with its record, its core (0) and its context (slot 0), on a module that is up. -/
def rig (a : Agent) (q : Seq) (k : Core) (x : Ctx) : State :=
  { iss := { who := a, old := q, oldV := k.vreg, oldLive := k.live, oldMd := k.md, oldAcc := k.acc }, seqs := [(a, q)], cores := [(0, k)],
    ctxs := [(0, x)], mgmt := { main := .ready, keys := [(0, { owner := 0, val := .module 0 })] } }

/-- A context that runs, with 256 KiB of vault 0, four chip semaphores and two queues. -/
def ctx1 : Ctx := { st := .running, id := 1, grantv := 1, vseg := [(0, 0x40000)], sempart := 0x40000, qmap := 2, grantw := 0x1000C }

/-- A core bound to it in group 0, with a kernel that declares four accumulators and twelve ways. -/
def core1 : Core := { slot := some 0, group := some 0, kern := some { accs := 4, ways := 12, vregs := 64 } }

/-- C of that core. -/
def onC (q : Seq) : State := rig (.seq 0 0) q core1 ctx1

/-- C with s1 holding a value and s2 holding 5. -/
def s1 (v : Word) : State := onC { sreg := [(1, v), (2, 5)] }

/-- Page tables for addresses of 1 GiB and up: 1 GiB of device memory at 1 GiB, of host memory at 2 GiB, of pier 0 at 3 GiB. -/
def pages : List Host.Cell :=
  [(0, 1), (2, 2), (0x20008, 0x3F), (0x20009, 2), (0x2000B, 1), (0x2000D, 0x40), (0x20010, 0x3F), (0x20011, 0x0A), (0x20018, 0x7F), (0x20019, 0x06),
   (0x2001B, 1)]

/-- The same with those pages. -/
def paged (v : Word) : State := { s1 v with mem := pages }

/-- An engine of the core. -/
def onE (e : Nat) (q : Seq) : State := rig (.seq 0 e) q core1 ctx1

/-- An engine of vectors with v0 and v1 live, under a type. -/
def onV (t0 t1 : Nat) (q : Seq) : State :=
  rig (.seq 0 3) { q with vtype := .ofNat 64 (t0 + 16 * t1) } { core1 with vreg := [(0, 7), (1, 9)], live := [(0, true), (1, true)] } ctx1

/-- The engine M with a descriptor in md0 and one in md1. -/
def onM (a b : BitVec 256) : State := rig (.seq 0 2) {} { core1 with md := [(0, a), (1, b)] } ctx1

/-- A stream of pier 0. -/
def onP (q : Seq) : State := { rig (.pier 0 0) q core1 ctx1 with streams := [((0, 0), { used := true })], mem := pages }

/-- Whether a computation answers. -/
def answers {ε α : Type} : Except ε α → Bool
  | .ok _ => true
  | .error _ => false

/-- A handler of four steps at an address, verified. -/
def handler1 : Verified :=
  { image := { base := 0x40000000, entry := 2, codeOff := 0x100, codeCount := 4 }, size := 0x200, tables := [], dataOff := 0, dataLen := 0, relocs := [],
    relocated := false }

/-- A state whose context has that handler, in the dispatcher's cache. -/
def handled (s : State) : State :=
  { s with disp := { s.disp with images := [(1, handler1)] }, ctxs := [(0, { ctx1 with handler := 0x40000000 })] }

/-- A state with C in trap mode. -/
def trapped (b : Bank) : State := rig (.seq 0 0) { sreg := [(1, 0x40000000)] } { core1 with bank := some b } ctx1

/-- Memory with some values written, each a key, its bytes and the value. -/
def withWords (s : State) (l : List (Nat × Nat × Nat)) : State := l.foldl (fun t e => t.pokeNat none e.1 e.2.1 e.2.2) s

/-- A tag of core 0. -/
def tg (n : Nat) : TagRef := { owner := .core 0, tag := n }

/-- A copy of 64 bytes inside vault 0. -/
def copy64 : Nat := 0x1000001000 + 0x1000002000 * 2 ^ 64 + 64 * 2 ^ 128

/-- That copy under way, with what it has read. -/
def running (k : List Chunk) (rpos : Nat) : Copy :=
  { kind := .plain, desc := .ofNat 512 copy64, oc := 0, slot := 0, who := .seq 0 1, step := 0, wslot := 0, order := 0, rpos := rpos, chunks := k,
    recv := [{ vault := none, pos := 0 }] }

/-- Its tag. -/
def copying (k : List Chunk) (rpos : Nat) : Tag := { addr := 0x1000002000, st := .landing, rd := false, rep := false, op := some (.copy (running k rpos)) }

/-- A load of a table memory under way. -/
def loading : TableLoad := { step := 0, wslot := 0, first := 0, count := 1, src := [], order := 0 }

/-- The state with a tload of its core whose bytes are still to be read. -/
def tabling (s : State) : State := { s with cores := [(0, { s.core 0 with tloads := [(3, loading)] })] }

/-- The state while a pinv of its pages waits in core 1. -/
def pinning (s : State) : State :=
  { s with seqs := s.seqs ++ [(.seq 1 0, { run := .blocked, wait := some { kind := 10, obj := 0xFB, cond := .chunksGone 0 0 (2 ^ 57) 0, since := 0, sinceWall := 0 } })] }

/-- The state with the copy of 64 bytes under way on tag 5, started before any access. -/
def boxed (s : State) : State := { s with tags := [(tg 5, copying [] 0)], nextOp := 1 }

/-- The same, the copy cancelled. -/
def poisoned (s : State) : State := { s with tags := [(tg 5, { copying [] 0 with st := .cancelled, rd := true })], nextOp := 1 }

/-- Whether what an access meets is a stall, and whether a poisoned byte. -/
def isStall : Meets → Bool
  | .stall _ => true
  | _ => false

def isPoison : Meets → Bool
  | .poison _ => true
  | _ => false

/-- C in a group with tiles, an open tile or not, and a commit buffer. -/
def tiled (k : Core) (r : Group) : State :=
  { rig (.seq 0 0) { sreg := [(1, 0x1000000000), (2, 1)] } { core1 with rank := k.rank, opened := k.opened, cbuf := k.cbuf } ctx1 with groups := [(0, r)] }

/-- Where an address lies. -/
def locOf (s : State) (a : Nat) (k : Acc) : Loc := match locate s s.mySlot a k false with
  | .ok l => l
  | .error _ => default

/-! ### WellFormed refuses each kind of ill-formed term -/

theorem test_overLimit : ∀ i ∈ [Instr.lpat 4 0, .tok 0 15, .loopp 0 1 1 0 0, .twany 0 31 4, .twall 0 27 2048, .tffr 0 31 4, .fadd 1 2 3 4 0, .fsub 1 2 3 4 0,
    .fmul 1 2 3 4 0, .fdiv 1 2 3 4 0, .fsqrt 1 2 4 0, .fma 1 2 3 4 0, .fcvt 1 2 0 4 0, .fcvt 1 2 3 0 0, .mfcr 1 2, .mtcr 1 0x114, .mtcrs 1 0x307, .mtcrc 1 0x240,
    .tload 1 2 0, .tstart 1 6, .tstop 0, .tbase 1 2 7, .tset 1 1 3, .tget 1 9 1, .twidle 6, .rdcnt 1 5, .bsclaim 1 13, .bsclaim 1 0, .bsin 1 2 3 7, .bsout 1 2 3 0 7,
    .bslog 1 5, .bscmp 1 2 1 0 6], WellFormed i = false := by decide +kernel

theorem test_overLimit_vector : ∀ i ∈ [Instr.vadd 0 28 1 2 0 0, .vsub 0 28 1 2 0 0, .vmul 0 28 1 2 0 0, .vfma 0 28 1 2 0 0, .vfms 0 28 1 2 0 0, .vdiv 0 28 1 2 0 0,
    .vsqrt 0 28 1 0, .vmin 0 28 1 2 0 0, .vmax 0 28 1 2 0 0, .vabs 0 28 1 0, .vneg 0 28 1 0, .vfmaw 0 28 1 2 0 0, .vmulw 0 28 1 2 0 0, .vaddw 0 28 1 2 0 0,
    .vadds 0 28 1 2 0 0, .vsubs 0 28 1 2 0 0, .vmulh 0 28 1 2 0 0, .vdot4 0 28 1 2 0 0, .vand 0 28 1 2 0 0, .vor 0 28 1 2 0 0, .vxor 0 28 1 2 0 0, .vnot 0 28 1 0,
    .vsll 0 28 1 2 0 0, .vsrl 0 28 1 2 0 0, .vsra 0 28 1 2 0 0, .vpopc 0 28 1 0, .vpst 0 28, .vcvt 0 28 1 0, .vcvtsr 0 28 1 0 0, .vqblk 0 28 1 0, .vdqblk 0 28 1 0,
    .vwid 0 28 1 0, .vnarr 0 28 1 0, .vrcp 0 28 1 0, .vrsqrt 0 28 1 0, .vexp 0 28 1 0, .vlog 0 28 1 0, .vtanh 0 28 1 0, .vsigm 0 28 1 0, .vperm 0 28 1 2 0 0,
    .vcomp 0 28 1 0 0 0, .vexpd 0 28 1 0, .vpart 0 28 1 0 0, .vslide 0 28 1 0 0, .vzip 0 28 1 2 0 0, .vunzip 0 28 1 0, .vbcast 0 28 1 0 0, .vredsum 0 28 1 0 0,
    .vredmax 0 28 1 0 0, .vredmin 0 28 1 0 0, .vscan 0 28 1 0, .vsegsum 0 28 1 2 0 0, .vmov 0 28 1 0, .vsplat 0 28 0, .vtype 0 13 0 0 0, .vtype 0 0 13 0 0,
    .vtype 0 0 0 0 5, .vwin 0 2, .vwin 0 744, .vidx 0 28, .vaccrd 0 28 0 0 0, .vdead 0 27 1, .vld 0 28 0 0 0, .vlds 0 28 0 0 0, .vldq 0 28 0 0 0, .vgth 0 28 1 0 0,
    .vsct 0 28 1 0 0, .vsctadd 0 28 1 0 0, .vaadd 0 28 1 0 0, .vamax 0 28 1 0 0, .macst 0 0 0 0 4, .mdld 0 9 7 0, .fdld 0 7 9 0, .rclaim 0 0 0 1 1, .rpub 0 0 1 1,
    .rwfill 0 0 0 1 1, .rwfree 0 0 1 1, .rrel 0 0 1 1], WellFormed i = false := by decide +kernel

theorem test_reservedField : ∀ i ∈ [Instr.bsadd 1 2 0 0 0, .bssub 1 2 0 0 0, .bscmp 1 2 0 0 0, .bsmin 1 2 0 0], WellFormed i = false := by decide +kernel

theorem test_otherForm : ∀ i ∈ [Instr.ldu 1 2 0 3 0, .sll 1 2 0, .srl 1 2 0, .sra 1 2 0, .qstealRank 1 0], WellFormed i = false := by decide +kernel

theorem test_eventOk : ∀ i ∈ [Instr.pauseExpiry (.seq 128 0), .waitEnd (.pier 8 0), .pauseExpiry (.copy 4), .wfeTimeout 128, .waySwitchEnd 16, .tokenRelief 128,
    .trapDelivery 132, .chunkIssue ⟨.copy 4, 0⟩, .levelRaise 0 16, .ready ⟨16, 0⟩, .put 0 32 0, .laneFailure 9, .portFailure 8], WellFormed i = false := by decide +kernel

theorem test_wellFormed : ∀ i ∈ [Instr.tok 15 14, .twall 0 31 3, .fcvt 1 2 1 3 1, .mfcr 1 0x306, .tset 1 0x67 4, .twidle 7, .bsclaim 1 12, .bsadd 1 0 0 0 0, .bsadd 1 2 0 0 1,
    .ldu 1 2 0 2 0, .sllImm 1 2 0, .qsteal 1, .vtype 0 12 12 1 4, .vwin 0 740, .vdead 0 27 0, .mdld 0 8 7 0, .trapDelivery 131, .put 15 31 0], WellFormed i = true := by
  decide +kernel

/-! ### The spec's own words (12_scalar, 05_kernel, 06_queue), bit by bit -/

theorem test_spec_scalar : [0x20642825, 0x28640182, 0x286428E6, 0x30642820, 0x30640446, 0x34062802, 0x3C603000, 0x3C0421A1].map (decodeTableWord 32) =
    [.min 3 4 5 1, .sraImm 3 4 12, .bext 3 4 5 7, .fadd 3 4 5 0 1, .fcvt 3 4 2 1 0, .plt 6 5 0, .mfcr 3 0x180, .mtcr 4 0x10D].map some := rfl

theorem test_spec_memory : [0x40A23406, 0x44E207FF, 0x486926A0, 0x48021944, 0x4C000C40, 0x4CA601C1, 0x4C062942, 0x4E000003].map (decodeTableWord 32) =
    [.ld 5 2 3 2 6, .st 7 2 0 3 0x1FF, .aadd 3 9 4 3 1 1, .amin 0 2 3 0 2 1 0, .fence 3 2, .lda 5 6 0 3 2, .stl 0 6 5 2 2, .syncw 0x8000].map some := rfl

theorem test_spec_control : [0x5027FFFD, 0x52200004, 0x58010001, 0x64642820, 0x64C74004, 0x6C640002, 0x6C040003, 0x6C600004, 0x0C023001, 0x0C084003].map (decodeTableWord 32) =
    [.bzne 7 0xFFFD, .bpf 4, .jr 1, .qputNb 3 4 5, .qdone 6 7 8, .wfe 3 4, .sev 4, .rdcnt 3 0, .semadd 0 3 1, .twall 0 4 3].map some := rfl

/-! ### One word of every order, written from the encoding tables (03_encoding and the rule of each form) -/

theorem test_decode_00 : [0x02400000, 0x00022004, 0x02440000, 0x02460004, 0x02480004, 0x024A0009, 0x024C0004].map (decodeTableWord 32) =
    [.nop 9, .lpat 2 4, .halt 9, .brk 9 4, .trap 9 4, .tok 9 9, .pause 9 4].map some := rfl

theorem test_decode_01 : [0x06408146, 0x0640C140, 0x0642D1C0, 0x0644D180, 0x06460004, 0x06480004].map (decodeTableWord 32) =
    [.loop 9 1 5 6, .loopR 9 1 5, .loopp 9 1 2 1 7, .loopr 9 1 5 6, .sj 9 4, .sjp 9 4].map some := rfl

theorem test_decode_02 : [0x0A400000, 0x0A420000].map (decodeTableWord 32) =
    [.pelse 9, .ptrue 9].map some := rfl

theorem test_decode_03 : [0x0E404005, 0x0E424005, 0x0E444005, 0x0E464005, 0x0E484005, 0x0E4A4005].map (decodeTableWord 32) =
    [.semset 9 4 5, .semadd 9 4 5, .semwait 9 4 5, .twany 9 4 5, .twall 9 4 5, .tffr 9 4 5].map some := rfl

theorem test_decode_08 : [0x20642800, 0x20642801, 0x20642802, 0x20642803, 0x20642804, 0x20642825, 0x20642826, 0x20642827, 0x20642808].map (decodeTableWord 32) =
    [.add 3 4 5, .sub 3 4 5, .and 3 4 5, .or 3 4 5, .xor 3 4 5, .min 3 4 5 1, .max 3 4 5 1, .slt 3 4 5 1, .sel 3 4 5].map some := rfl

theorem test_decode_09 : [0x24640005, 0x24642005, 0x24644005, 0x24646005, 0x24648005, 0x2464A005].map (decodeTableWord 32) =
    [.addi 3 4 5, .andi 3 4 5, .ori 3 4 5, .xori 3 4 5, .slti 3 4 5, .sltiU 3 4 5].map some := rfl

theorem test_decode_0A : [0x28642800, 0x286400A0, 0x28642801, 0x286400A1, 0x28642802, 0x286400A2, 0x28640023, 0x28640024, 0x28640025, 0x286428C6, 0x286428C7].map (decodeTableWord 32) =
    [.sll 3 4 5, .sllImm 3 4 5, .srl 3 4 5, .srlImm 3 4 5, .sra 3 4 5, .sraImm 3 4 5, .clz 3 4 1, .ctz 3 4 1, .popc 3 4 1, .bext 3 4 5 6, .bins 3 4 5 6].map some := rfl

theorem test_decode_0B : [0x2C642800, 0x2C642821, 0x2C642822, 0x2C642823].map (decodeTableWord 32) =
    [.mul 3 4 5, .mulh 3 4 5 1, .div 3 4 5 1, .rem 3 4 5 1].map some := rfl

theorem test_decode_0C : [0x306428A0, 0x306428A1, 0x306428A2, 0x306428A3, 0x306400A4, 0x306428A5, 0x306402A6].map (decodeTableWord 32) =
    [.fadd 3 4 5 2 1, .fsub 3 4 5 2 1, .fmul 3 4 5 2 1, .fdiv 3 4 5 2 1, .fsqrt 3 4 2 1, .fma 3 4 5 2 1, .fcvt 3 4 1 2 1].map some := rfl

theorem test_decode_0D : [0x34032000, 0x34032001, 0x34032022, 0x34032023, 0x34032024, 0x34032025, 0x34032026].map (decodeTableWord 32) =
    [.peq 3 4, .pne 3 4, .plt 3 4 1, .pge 3 4 1, .pfeq 3 4 1, .pflt 3 4 1, .pfle 3 4 1].map some := rfl

theorem test_decode_0E : [0x38600004, 0x38602004].map (decodeTableWord 32) =
    [.lis 3 4, .lsh 3 4].map some := rfl

theorem test_decode_0F : [0x3C603000, 0x3C0321A1, 0x3C030462, 0x3C0320E3].map (decodeTableWord 32) =
    [.mfcr 3 384, .mtcr 3 269, .mtcrs 3 35, .mtcrc 3 263].map some := rfl

theorem test_decode_10 : [0x40645407, 0x40645C07].map (decodeTableWord 32) =
    [.ld 3 4 5 2 7, .ldu 3 4 5 2 7].map some := rfl

theorem test_decode_11 : [0x44645407].map (decodeTableWord 32) =
    [.st 3 4 5 2 7].map some := rfl

theorem test_decode_12 : [0x48642DA0, 0x48642DA1, 0x48642DA2, 0x48642DA3, 0x48642DE4, 0x48642DE5, 0x48642DA6, 0x48642DA7].map (decodeTableWord 32) =
    [.aadd 3 4 5 2 3 1, .aand 3 4 5 2 3 1, .aor 3 4 5 2 3 1, .axor 3 4 5 2 3 1, .amin 3 4 5 2 3 1 1, .amax 3 4 5 2 3 1 1, .aswp 3 4 5 2 3 1, .acas 3 4 5 2 3 1].map some := rfl

theorem test_decode_13 : [0x4C000C20, 0x4C642961, 0x4C642962, 0x4C000C03].map (decodeTableWord 32) =
    [.fence 3 1, .lda 3 4 5 2 3, .stl 3 4 5 2 3, .syncw 3].map some := rfl

theorem test_decode_14 : [0x50030004, 0x50230004, 0x50430004, 0x50630004, 0x50830004, 0x50A30004, 0x52000003, 0x52200003].map (decodeTableWord 32) =
    [.bzeq 3 4, .bzne 3 4, .bzlt 3 4, .bzge 3 4, .bzgt 3 4, .bzle 3 4, .bpt 3, .bpf 3].map some := rfl

theorem test_decode_15 : [0x54600004].map (decodeTableWord 32) =
    [.jal 3 4].map some := rfl

theorem test_decode_16 : [0x58640000, 0x58030001].map (decodeTableWord 32) =
    [.jalr 3 4, .jr 3].map some := rfl

theorem test_decode_18 : [0x606400A0, 0x60030081, 0x600000E2, 0x606400A3, 0x60030A64, 0x60602065, 0x600000E6].map (decodeTableWord 32) =
    [.tload 3 4 5, .tstart 3 4, .tstop 7, .tbase 3 4 5, .tset 3 10 3, .tget 3 32 3, .twidle 7].map some := rfl

theorem test_decode_19 : [0x64642800, 0x64642820, 0x64600001, 0x64600002, 0x64640002, 0x64600003, 0x64642804].map (decodeTableWord 32) =
    [.qput 3 4 5, .qputNb 3 4 5, .qtake 3, .qsteal 3, .qstealRank 3 4, .qcommit 3, .qdone 3 4 5].map some := rfl

theorem test_decode_1A : [0x68600000, 0x68030001, 0x68640002, 0x68032003, 0x68032004, 0x68642805, 0x68032006].map (decodeTableWord 32) =
    [.barr 3, .barw 3, .fstop 3 4, .txinit 3 4, .txexp 3 4, .txarr 3 4 5, .txwait 3 4].map some := rfl

theorem test_decode_1B : [0x6C000000, 0x6C642801, 0x6C640002, 0x6C030003, 0x6C600084, 0x6C030005, 0x6C032025, 0x6C000045, 0x6C030006, 0x6C032026, 0x6C000046, 0x6C640007, 0x6C030008].map (decodeTableWord 32) =
    [.rft, .scall 3 4 5, .wfe 3 4, .sev 3, .rdcnt 3 4, .pinvCtx 3, .pinvRange 3 4, .pinvAll, .rminvCtx 3, .rminvRange 3 4, .rminvAll, .ctxsv 3 4, .ctxld 3].map some := rfl

theorem test_decode_1C : [0x70000C06, 0x70200000, 0x704190A6, 0x706190AA, 0x70800C03, 0x70A00C87, 0x70C00C87, 0x70E00C9D, 0x71000C00, 0x71200C00, 0x71400C85, 0x71600C00, 0x71800C03, 0x71A00000].map (decodeTableWord 32) =
    [.bsclaim 3 6, .bsrel, .bsin 3 4 5 6, .bsout 3 4 5 1 2, .bslog 3 3, .bsadd 3 4 1 1 1, .bssub 3 4 1 1 1, .bscmp 3 4 1 1 5, .bssel 3, .bsinc 3, .bsmin 3 4 1 1, .bspop 3, .bsshf 3 1 1, .bswait].map some := rfl

theorem test_decode_1D : [0x740190A6, 0x74219000, 0x74419000, 0x74619000, 0x74800C04, 0x74A00C85, 0x74C00C04, 0x74E00C04, 0x75000C81, 0x75200C00, 0x75400003].map (decodeTableWord 32) =
    [.fork 3 4 5 6, .join 3 4, .mbput 3 4, .mbget 3 4, .pbind 3 4, .pstrm 3 4 5, .prun 3 4, .pchain 3 4, .prcpy 3 4 1, .przero 3, .pflush 3].map some := rfl

theorem test_decode_1E : [0x78019000, 0x78219000, 0x78419000, 0x78619000, 0x78819000, 0x78A190A0, 0x78C19000].map (decodeTableWord 32) =
    [.xbkt 3 4, .xa2a 3 4, .xput 3 4, .xget 3 4, .xamo 3 4, .xsig 3 4 5, .xwait 3 4].map some := rfl

theorem test_decode_1F : [0x7C019000, 0x7C219000, 0x7C419000, 0x7C6190A0, 0x7C819000].map (decodeTableWord 32) =
    [.gbag 3 4, .grow 3 4, .supd 3 4, .scommit 3 4 5, .skq 3 4].map some := rfl

theorem test_decode_20 : [0x8240429B, 0x8242429B, 0x8244429B, 0x8246429B, 0x8248429B, 0x824A429B, 0x824C4282, 0x824E429B, 0x8250429B, 0x82524282, 0x82544282].map (decodeTableWord 32) =
    [.vadd 9 4 5 6 1 1, .vsub 9 4 5 6 1 1, .vmul 9 4 5 6 1 1, .vfma 9 4 5 6 1 1, .vfms 9 4 5 6 1 1, .vdiv 9 4 5 6 1 1, .vsqrt 9 4 5 1, .vmin 9 4 5 6 1 1, .vmax 9 4 5 6 1 1, .vabs 9 4 5 1, .vneg 9 4 5 1].map some := rfl

theorem test_decode_21 : [0x8640429B, 0x8642429B, 0x8644429B].map (decodeTableWord 32) =
    [.vfmaw 9 4 5 6 1 1, .vmulw 9 4 5 6 1 1, .vaddw 9 4 5 6 1 1].map some := rfl

theorem test_decode_22 : [0x8A40429B, 0x8A42429B, 0x8A44429B, 0x8A46429B].map (decodeTableWord 32) =
    [.vadds 9 4 5 6 1 1, .vsubs 9 4 5 6 1 1, .vmulh 9 4 5 6 1 1, .vdot4 9 4 5 6 1 1].map some := rfl

theorem test_decode_23 : [0x8E40429B, 0x8E42429B, 0x8E44429B, 0x8E464282, 0x8E48429B, 0x8E4A429B, 0x8E4C429B, 0x8E4E4282].map (decodeTableWord 32) =
    [.vand 9 4 5 6 1 1, .vor 9 4 5 6 1 1, .vxor 9 4 5 6 1 1, .vnot 9 4 5 1, .vsll 9 4 5 6 1 1, .vsrl 9 4 5 6 1 1, .vsra 9 4 5 6 1 1, .vpopc 9 4 5 1].map some := rfl

theorem test_decode_24 : [0x92400217, 0x92420217, 0x92440217, 0x92460217, 0x92480202, 0x924A0202, 0x924C0202, 0x924E4000].map (decodeTableWord 32) =
    [.vpeq 9 4 5 1 1, .vpne 9 4 5 1 1, .vplt 9 4 5 1 1, .vple 9 4 5 1 1, .vpnan 9 4 1, .vpfin 9 4 1, .vpld 9 4 1, .vpst 9 4].map some := rfl

theorem test_decode_25 : [0x96404282, 0x9642429A, 0x96444282, 0x96464282, 0x96484282, 0x964A4282].map (decodeTableWord 32) =
    [.vcvt 9 4 5 1, .vcvtsr 9 4 5 6 1, .vqblk 9 4 5 1, .vdqblk 9 4 5 1, .vwid 9 4 5 1, .vnarr 9 4 5 1].map some := rfl

theorem test_decode_26 : [0x9A404282, 0x9A424282, 0x9A444282, 0x9A464282, 0x9A484282, 0x9A4A4282].map (decodeTableWord 32) =
    [.vrcp 9 4 5 1, .vrsqrt 9 4 5 1, .vexp 9 4 5 1, .vlog 9 4 5 1, .vtanh 9 4 5 1, .vsigm 9 4 5 1].map some := rfl

theorem test_decode_27 : [0x9E40429B, 0x9E4242BE, 0x9E444282, 0x9E46429A, 0x9E48429A, 0x9E4A429B, 0x9E4C4282, 0x9E4E429A].map (decodeTableWord 32) =
    [.vperm 9 4 5 6 1 1, .vcomp 9 4 5 1 7 1, .vexpd 9 4 5 1, .vpart 9 4 5 6 1, .vslide 9 4 5 6 1, .vzip 9 4 5 6 1 1, .vunzip 9 4 5 1, .vbcast 9 4 5 6 1].map some := rfl

theorem test_decode_28 : [0xA240429A, 0xA242429A, 0xA244429A, 0xA2464282, 0xA248429B].map (decodeTableWord 32) =
    [.vredsum 9 4 5 6 1, .vredmax 9 4 5 6 1, .vredmin 9 4 5 6 1, .vscan 9 4 5 1, .vsegsum 9 4 5 6 1 1].map some := rfl

theorem test_decode_29 : [0xA6404282, 0xA6424014, 0xA6442330, 0xA6461400, 0xA6484000, 0xA64A42DC, 0xA64C429A, 0xA64E429A, 0xA6504280].map (decodeTableWord 32) =
    [.vmov 9 4 5 1, .vsplat 9 4 5, .vtype 9 2 6 1 4, .vwin 9 40, .vidx 9 4, .vaccrd 9 4 5 1 7, .vaccwr 9 4 5 6 1, .vtos 9 4 5 6 1, .vdead 9 4 5].map some := rfl

theorem test_decode_2C : [0xB2412B70, 0xB2492B70, 0xB2512B70].map (decodeTableWord 32) =
    [.vld 9 4 5 6 7, .vlds 9 4 5 6 7, .vldq 9 4 5 6 7].map some := rfl

theorem test_decode_2D : [0xB6412B78, 0xB6492B78, 0xB6512B78].map (decodeTableWord 32) =
    [.vst 9 4 5 6 7 1, .vsts 9 4 5 6 7 1, .vstq 9 4 5 6 7 1].map some := rfl

theorem test_decode_2E : [0xBA40429A, 0xBA42429A, 0xBA44429A].map (decodeTableWord 32) =
    [.vgth 9 4 5 6 1, .vsct 9 4 5 6 1, .vsctadd 9 4 5 6 1].map some := rfl

theorem test_decode_2F : [0xBE40429A, 0xBE42429A].map (decodeTableWord 32) =
    [.vaadd 9 4 5 6 1, .vamax 9 4 5 6 1].map some := rfl

theorem test_decode_30 : [0xC24008A0, 0xC24208A0].map (decodeTableWord 32) =
    [.mwld 9 4 5, .mwsp 9 4 5].map some := rfl

theorem test_decode_31 : [0xC6408AC1, 0xC6428AC1].map (decodeTableWord 32) =
    [.mmf 9 4 5 6 1, .mmfg 9 4 5 6 1].map some := rfl

theorem test_decode_32 : [0xCA408AC5, 0xCA428AC5].map (decodeTableWord 32) =
    [.mmb 9 4 5 6 1 1, .mmw 9 4 5 6 1 1].map some := rfl

theorem test_decode_33 : [0xCE408AC1, 0xCE428AC5].map (decodeTableWord 32) =
    [.mmfs 9 4 5 6 1, .mmbs 9 4 5 6 1 1].map some := rfl

theorem test_decode_34 : [0xD2408000, 0xD2428A0A, 0xD2448A00].map (decodeTableWord 32) =
    [.macz 9 4, .macst 9 4 5 1 2, .macld 9 4 5].map some := rfl

theorem test_decode_35 : [0xD6400806, 0xD64208A2, 0xD6440001].map (decodeTableWord 32) =
    [.mdset 9 4 1 2, .mdld 9 4 5 2, .mrpg 9 1].map some := rfl

theorem test_decode_38 : [0xE2404560, 0xE2444560, 0xE2484560, 0xE24C0450].map (decodeTableWord 32) =
    [.fcpy 9 4 5 6, .fcpyz 9 4 5 6, .fcpym 9 4 5 6, .fprf 9 4 5].map some := rfl

theorem test_decode_39 : [0xE6404006, 0xE6444000, 0xE6484000, 0xE64C4000, 0xE6504001, 0xE6544502, 0xE6584502].map (decodeTableWord 32) =
    [.fwait 9 4 1 2, .fwaitr 9 4, .fcan 9 4, .fres 9 4, .fwm 9 4 1, .fdld 9 4 5 2, .fdset 9 4 5 2].map some := rfl

theorem test_decode_3A : [0xEA400456, 0xEA440046, 0xEA480456, 0xEA4C0046, 0xEA500046].map (decodeTableWord 32) =
    [.rclaim 9 4 5 1 2, .rpub 9 4 1 2, .rwfill 9 4 5 1 2, .rwfree 9 4 1 2, .rrel 9 4 1 2].map some := rfl

theorem test_decode_3B : [0xEE400452, 0xEE440042].map (decodeTableWord 32) =
    [.ftxe 9 4 5 2, .ftxk 9 4 2].map some := rfl

/-! ### Decided values of the spec's tables (12_scalar R239, R241; 02_numbers) -/

/-- What a register of a sequencer holds after an order of C with s1, s2 and s3 as given. -/
def after (o : Instr) (a b d : Word) (n : Nat) : Option Word :=
  match exec o (onC { sreg := [(1, a), (2, b), (3, d)] }) with
  | .next t => some ((t.seq (.seq 0 0)).sreg.get 0 n)
  | _ => none

theorem test_div : [after (.div 3 1 2 0) (-7) 2 0 3, after (.rem 3 1 2 0) (-7) 2 0 3, after (.div 3 1 2 1) (-7) 2 0 3, after (.rem 3 1 2 1) (-7) 2 0 3,
    after (.div 3 1 2 0) 0x8000000000000000 (-1) 0 3, after (.mulh 3 1 2 0) (-1) (-1) 0 3, after (.mulh 3 1 2 1) (-1) (-1) 0 3] =
    [some (-3), some (-1), some 0x7FFFFFFFFFFFFFFC, some 1, some 0x8000000000000000, some 0, some 0xFFFFFFFFFFFFFFFE] := by decide +kernel

theorem test_rem_zero : (match exec (.rem 3 1 2 1) (handled (onC { sreg := [(1, 5)] })) with
    | .next t => ((t.core 0).trec.cause, (t.core 0).trec.ret, (t.seq (.seq 0 0)).pc)
    | _ => (0, 0, 0)) = (15, 0, 0x40000110) := by decide +kernel

theorem test_shift : [after (.sra 3 1 2) 0x8000000000000000 63 0 3, after (.sll 3 1 2) 1 65 0 3, after (.clz 3 1 0) 0 0 0 3, after (.clz 3 1 1) 0 0 0 3,
    after (.ctz 3 1 0) 8 0 0 3, after (.popc 3 1 1) 0xFFFFFFFFFFFFFFFF 0 0 3, after (.bext 3 1 2 7) 0xFF00 8 0 3, after (.bins 3 1 2 7) 0xFF 60 0 3] =
    [some (-1), some 2, some 64, some 32, some 3, some 32, some 0xFF, some 0xF000000000000000] := by decide +kernel

theorem test_sel_own : after (.sel 3 1 2) 7 9 1 3 = some 7 := by decide +kernel
theorem test_s0 : after (.add 0 1 2) 7 9 0 0 = some 0 := by decide +kernel
theorem test_fadd : after (.fadd 3 1 2 0 1) 0x3FF0000000000000 0x3CA0000000000000 0 3 = some 0x3FF0000000000000 := by decide +kernel
theorem test_fcvt_nan : after (.fcvt 3 1 2 0 1) 0x7FF8000000000000 0 0 3 = some 0 := by decide +kernel

/-! ### Witnesses: states and operands that meet the hypotheses of the statements -/

/-- A write of an agent held with a class. -/
def held (a : Agent) (oc : Nat) : HeldWrite :=
  { who := a, slot := 0, addr := 0x1000000000, bytes := [1], step := 0, wslot := 0, classes := .ofNat 16 (2 ^ oc), order := 0 }

/-- The state with that write of its own sequencer held. -/
def holding (s : State) (oc : Nat) : State := { s with heldw := [held s.iss.who oc] }

/-- No write of the sequencer that carries a class of a mask is held. -/
abbrev Quiet (s : State) (mask : BitVec 16) : Prop := ∀ h ∈ s.heldw, h.owned = true → h.who = s.iss.who → h.classes &&& mask = 0

/-- One that does is held. -/
abbrev Held (s : State) (mask : BitVec 16) : Prop := ∃ h ∈ s.heldw, h.owned = true ∧ h.who = s.iss.who ∧ h.classes &&& mask ≠ 0

/-- The state whose sequencer has waited for what has come about. -/
def waited (s : State) (c : Cond) : State := s.setCur { s.cur with wait := some { kind := 5, obj := 0, cond := c, since := 0, sinceWall := 0, met := true } }

theorem witness_ArithmeticForms : (s1 7).acts = true ∧ (0x20640020#32).extractLsb' 26 6 = 8 ∧ (0x20640020#32).extractLsb' 0 5 = 0 ∧ (0x20640020#32).extractLsb' 5 6 ≠ 0 ∧
    (0x20640045#32).extractLsb' 26 6 = 8 ∧ (0x20640045#32).extractLsb' 0 5 = 5 ∧ (0x20640045#32).extractLsb' 6 5 ≠ 0 := by decide +kernel

theorem witness_ShiftForms : (s1 (BitVec.allOnes 64)).acts = true := by decide +kernel

theorem witness_MultiplyDivideForms : (s1 7).acts = true ∧ (s1 7).src 2 ≠ 0 ∧ (s1 7).src 4 = 0 ∧ (0x2C640020#32).extractLsb' 26 6 = 0x0B ∧
    (0x2C640020#32).extractLsb' 0 5 = 0 ∧ (0x2C640020#32).extractLsb' 5 6 ≠ 0 ∧ (0x2C640042#32).extractLsb' 26 6 = 0x0B ∧ (0x2C640042#32).extractLsb' 0 5 = 2 ∧
    (0x2C640042#32).extractLsb' 6 5 ≠ 0 := by decide +kernel

/-- Stacks of a depth whose top entry is true or false. -/
def deep (n : Nat) (b : Bool) : Seq := { stack := List.replicate n (if b then BitVec.allOnes 1024 else 0) }

theorem witness_FloatForms : (onC (deep 7 true)).acts = true ∧ (onC (deep 7 true)).cur.stack.length < 8 ∧ (onC (deep 7 false)).acts = false ∧
    8 ≤ (onC (deep 8 true)).cur.stack.length := by decide +kernel

theorem witness_ControlRegisterForms : (s1 7).acts = true ∧ ([0x020, 0x023].all fun n => decide (0x020 ≤ n ∧ n ≤ 0x023)) = true ∧
    ([0x040, 0x048].all fun n => decide (0x040 ≤ n ∧ n ≤ 0x048)) = true ∧
    ([0x180, 0x188, 0x301, 0x306].all fun n => decide ((0x180 ≤ n ∧ n ≤ 0x188) ∨ (0x301 ≤ n ∧ n ≤ 0x306))) = true := by decide +kernel

/-- A load of `n` bytes at an address translates and meets no landing box. -/
def opens (s : State) (a n : Nat) : Bool := s.acts && a % n == 0 && answers (locate s s.mySlot a .read false) && s.meetsRead a n == .clear

theorem witness_LoadForms : (s1 0x1000000000).mayReach 0x1000000000 8 ∧ (paged 0x40000000).mayReach 0x40000000 8 ∧ (tabling (paged 0x40000000)).tablesRead (.seq 0 0) = false ∧
    (pinning (paged 0x40000000)).tablesRead (.seq 0 0) = true ∧ (pinning (paged 0x40000000)).retiringSpan 0 0x40000000 8 = true ∧
    isStall ((boxed (s1 0x1000002000)).meetsRead 0x1000002000 8) = true ∧ isPoison ((poisoned (s1 0x1000002000)).meetsRead 0x1000002000 8) = true ∧
    (boxed (s1 0x1000002000)).mayReach 0x1000002000 8 ∧ (poisoned (s1 0x1000002000)).mayReach 0x1000002000 8 ∧ ((onC { sreg := [(2, 0x10000)] }).src 2).truncate 16 = 0#16 ∧
    ([0x1000000000, 0x100003FFF8].all fun v => opens (s1 (.ofNat 64 v)) v 8 && regionOf v == .vault) = true ∧
    ([0x40000000, 0x7FFFFFF8].all fun v => opens (paged (.ofNat 64 v)) v 8 && regionOf v == .translated) = true ∧
    regionOf semWindow = .sem ∧ (semWindow - semWindow) / 4 < (s1 0).myCtx.semCount ∧ (semWindow + 12 - semWindow) / 4 < (s1 0).myCtx.semCount ∧
    regionOf 0x40000001 = .translated ∧ 0x40000001 % 2 ≠ 0 ∧ regionOf 0x1FFFFFFFFFEFFFF = .translated ∧ Quiet (s1 0) 0xFFFF ∧
    Quiet (holding (s1 0) 3) 0xFFF7 ∧ Held (holding (s1 0) 3) 0xFFFF ∧ Held (holding (s1 0) 3) 8 := by
  unfold State.mayReach; decide +kernel

theorem witness_StoreForms : (s1 0x1000000008).mayReach 0x1000000008 8 ∧ (paged 0x40000000).mayReach 0x40000000 8 ∧ (boxed (s1 0x1000002000)).mayReach 0x1000002000 8 ∧
    (s1 0x1000000008).meetsWrite 0 [(locOf (s1 0) 0x1000000008 .write, 0x1000000008, 8)] 0x1000000008 8 = .clear ∧
    isStall ((boxed (s1 0x1000002000)).meetsWrite 0 [(locOf (s1 0) 0x1000002000 .write, 0x1000002000, 8)] 0x1000002000 8) = true ∧
    isPoison ((poisoned (s1 0x1000002000)).meetsWrite 0 [(locOf (s1 0) 0x1000002000 .write, 0x1000002000, 8)] 0x1000002000 8) = true ∧
    (paged 0x40000000).meetsWrite 0 [(locOf (paged 0) 0x40000000 .write, 0x40000000, 8)] 0x40000000 8 = .clear ∧
    (s1 0x1000000008).memOk ∧ (paged 0x40000000).memOk ∧ (paged 0x40000000).acts = true ∧
    answers (locate (paged 0x40000000) (paged 0x40000000).mySlot 0x40000000 (paged 0x40000000).iss.who.writeAcc false) = true ∧
    (paged 0x40000000).meets 0 0x40000000 8 none = .clear ∧
    answers (locate (s1 0x1000000008) 0 0x1000000008 (s1 0x1000000008).iss.who.writeAcc false) = true ∧ regionOf 0x40000004 = .translated ∧ 0x40000004 % 8 ≠ 0 ∧
    (s1 0x1000000000).meets 0 0x1000000000 8 none = .clear ∧ isStall ((holding (s1 0x1000000000) 15).meets 0 0x1000000000 8 none) = true ∧
    (holding (s1 0x1000000000) 15).memOk ∧ Quiet (s1 0x1000000000) 0xFFFF ∧ Quiet (holding (s1 0x1000000000) 15) 0x7FFF ∧ Held (holding (s1 0x1000000000) 15) 0xFFFF := by
  unfold State.memOk State.mayReach; decide +kernel

/-- Whether an access lies in host memory. -/
def hostLoc (s : State) (a : Nat) : Bool := match locate s s.mySlot a .atomic false with
  | .ok l => l.home == 2
  | .error _ => false

theorem witness_AtomicForms : (paged 0x40000000).mayReach 0x40000000 8 ∧ (paged 0).mayReach 0x80000000 4 ∧ (paged 0).tablesRead (.seq 0 0) = true ∧
    (paged 0x40000000).lineStall 0 ((paged 0x40000000).reached 0x40000000 8) ((paged 0x40000000).linesAsked [(locOf (paged 0) 0x40000000 .atomic, 0x40000000, 8)]) = none ∧
    regionOf 0xC0000000 = .translated ∧ (locOf (paged 0) 0xC0000000 .read).tbl = true ∧
    (tiled { opened := true } {}).tileOpen = true ∧ (tiled { opened := true } {}).myCore.cbuf.length < 64 ∧
    (paged 0x40000000).acts = true ∧ (paged 0x40000000).memOk ∧
    answers (locate (paged 0x40000000) 0 0x40000000 .atomic false) = true ∧ hostLoc (paged 0x40000000) 0x40000000 = false ∧
    (paged 0x40000000).meetsRead 0x40000000 8 = .clear ∧ hostLoc (paged 0) 0x80000000 = true ∧ (paged 0).link.feat.getLsbD 1 = false ∧
    regionOf 0x40000002 = .translated ∧ 0x40000002 % 4 ≠ 0 ∧ (paged 0).tileOpen = false ∧ regionOf (semWindow + 12) = .sem ∧ 3 < (paged 0).myCtx.semCount ∧
    (∀ h ∈ (paged 0).heldw, h.owned = true → h.who = (paged 0).iss.who → h.classes = 0) ∧
    (paged 0).semSum 0 3 5 = some 5 ∧ (paged 0).semSum 0 3 (-1) = none := by unfold State.memOk State.mayReach; decide +kernel

/-- A stream that tag 5 of core 0 stands for. -/
def forked : Tag := { st := .landing, rep := false, op := some (.fork { pier := 0, k := 0, order := 0 }) }

theorem witness_FenceForms : (s1 0).tablesRead (.seq 0 0) = true ∧ (tabling (s1 0)).tablesRead (.seq 0 0) = false ∧
    Quiet (s1 0) 0xFFFF ∧ Held (holding (s1 0) 15) 0x8000 ∧
    (s1 0).iss.who = .seq 0 0 ∧ (s1 0).pOpOpen (.core 0) = false ∧ ({ s1 0 with tags := [(tg 5, forked)] } : State).pOpOpen (.core 0) = true ∧
    (onP {}).iss.who = .pier 0 0 ∧ (onP {}).acts = true := by decide +kernel

theorem witness_BranchForms : (s1 8).iss.xfer = none ∧ (s1 8).acts = true ∧ (onC (deep 1 false)).acts = false ∧ ((s1 8).src 1).toNat % 8 = 0 ∧
    ((s1 7).src 1).toNat % 8 ≠ 0 ∧ (onE 1 {}).iss.who.isScalar = false ∧ (onE 1 {}).iss.xfer = none ∧ (onE 1 (deep 1 false)).acts = false := by decide +kernel

theorem witness_CommonForms : (s1 0).acts = true ∧ (s1 0).iss.slot = 0 ∧ ({ s1 0 with iss := { (s1 0).iss with slot := 1 } } : State).iss.slot ≠ 0 ∧
    (onE 5 {}).iss.xfer = none ∧ (∀ c < 128, (onE 5 {}).iss.who ≠ .seq c 0) ∧ ((s1 0).core 0).opened = false ∧
    ((rig (.seq 0 0) {} { core1 with opened := true } ctx1).core 0).opened = true ∧
    (({ s1 0 with seqs := [(.seq 0 1, { run := .held })] } : State).seq (.seq 0 1)).run ≠ .stopped ∧
    ({ s1 0 with tags := [(tg 5, forked)] } : State).openForks 0 ≠ [] ∧ (s1 0).openForks 0 = [] ∧ Quiet (onP {}) 0xFFFF ∧ Held (holding (onP {}) 15) 0xFFFF ∧ (∀ c q, (onP {}).iss.who ≠ .seq c q) ∧
    ({ s1 0 with iss := { (s1 0).iss with xfer := some (.jump 0) } } : State).iss.transferred = true ∧ (∀ e, 1 ≤ e → e ≤ 5 → ((s1 0).seq (.seq 0 e)).run = .stopped) := by
  and_intros <;> first
    | decide +kernel
    | exact fun _ _ h => Agent.noConfusion h
    | exact fun e h k => match e, h, k with
      | 1, _, _ => by decide +kernel
      | 2, _, _ => by decide +kernel
      | 3, _, _ => by decide +kernel
      | 4, _, _ => by decide +kernel
      | 5, _, _ => by decide +kernel

/-- C with loop registers set and in frames. -/
def looped (n : Nat) : State := onC { frames := (List.range n).map fun i => { reg := i, first := 8, last := 64 }, lc := [(1, 0x1000000000)] }

theorem witness_LoopForms : (∃ f ∈ (onC { frames := [{ reg := 1, first := 8, last := 64, rotating := true }] }).cur.frames, f.rotating = true) ∧
    ((onC { lc := [(1, 0x1000000001)] }).lcSrc 1).toNat % 4 ≠ 0 ∧
    (looped 4).cur.frames.length = 4 ∧ (looped 3).cur.frames.length < 4 ∧ (∀ f ∈ (looped 3).cur.frames, f.reg ≠ 3) ∧
    (∃ f ∈ (looped 1).cur.frames, f.reg = 0) ∧ (∃ f ∈ (looped 1).cur.frames.head?, (f.last.toNat : Int) < 72) ∧ (∀ f ∈ (looped 3).cur.frames, f.rotating = false) ∧
    ((looped 0).lcSrc 1).toNat % 8 = 0 ∧ answers ((looped 0).loadNat 0x1000000000 8) = true ∧ answers ((looped 0).loadNat 0x1000000008 8) = true ∧
    (onE 3 {}).iss.who.isScalar = false := by decide +kernel

theorem witness_PredicateForms : (onC (deep 7 true)).cur.stack.length < 8 ∧ 8 ≤ (onC (deep 8 true)).cur.stack.length ∧ (onC (deep 1 false)).cur.stack = [0] ∧
    (onC {}).cur.stack = [] ∧ (0x08000001#32).extractLsb' 26 6 = 2 ∧ (0x08000001#32).extractLsb' 17 5 = 0 ∧ (0x08000001#32).extractLsb' 0 17 ≠ 0 ∧
    (0x08021000#32).extractLsb' 17 5 = 1 ∧ (0x08021000#32).extractLsb' 0 17 ≠ 0 := by decide +kernel

/-- A core whose semaphore 3 holds a value. -/
def sem3 (v : BitVec 32) : State := rig (.seq 0 0) {} { core1 with sem := [(3, v)] } ctx1

theorem witness_SemaphoreTagForms : (sem3 0).tablesRead (.seq 0 0) = true ∧ (tabling (sem3 0)).tablesRead (.seq 0 0) = false ∧
    ((s1 0).setCur { (s1 0).cur with wait := some { kind := 6, obj := 5, cond := .tagFresh [tg 5], since := 0, sinceWall := 0, met := true, tag := some (tg 5) } }).latchedTag
      (.tagFresh [tg 5]) = some (tg 5) ∧ (s1 0).latchedTag (.tagFresh [tg 5]) = none ∧
    (sem3 0).acts = true ∧ (((sem3 1).myCore.sem.get 0 3).toNat : Int) + (-1#12 : BitVec 12).toInt = 0 ∧
    (((sem3 0).myCore.sem.get 0 3).toNat : Int) + (-1#12 : BitVec 12).toInt < 0 ∧ (2 ^ 32 : Int) ≤ (((sem3 0xFFFFFFFF).myCore.sem.get 0 3).toNat : Int) + (1#12 : BitVec 12).toInt ∧
    (5#12).toNat ≤ ((sem3 5).myCore.sem.get 0 3).toNat ∧ ((sem3 4).myCore.sem.get 0 3).toNat < (5#12).toNat ∧
    ((s1 0).tag (tg 5)).complete = true ∧ (({ s1 0 with tags := [(tg 5, forked)] } : State).tag (tg 5)).complete = false ∧
    (({ s1 0 with tags := [(tg 5, { st := .landed, rep := false })] } : State).tag (tg 5)).complete = true ∧
    (({ s1 0 with tags := [(tg 5, { st := .landed, rep := false })] } : State).tag (tg 5)).rep = false ∧ ((s1 0).tag (tg 5)).rep = true ∧
    Quiet (sem3 0) 0xFFFF ∧ Held (holding (sem3 0) 15) 0xFFFF ∧ (waited (sem3 4) (.semAtLeast 0 3 5)).latched (.semAtLeast 0 3 5) = true ∧
    (sem3 4).latched (.semAtLeast 0 3 5) = false ∧ (waited (s1 0) (.tagAny [tg 5])).latched (.tagAny [tg 5]) = true ∧ (s1 0).latched (.tagAny [tg 5]) = false ∧
    (waited (s1 0) (.tagAll [tg 5])).latched (.tagAll [tg 5]) = true ∧ (s1 0).latched (.tagAll [tg 5]) = false := by decide +kernel

theorem witness_FalsePredicateNoEffect : encode (.st 1 2 0 3 0) = some 0x44220600 ∧ ((0x44220600#32).extractLsb' 26 6).toNat = 0x11 ∧
    (onC (deep 1 false)).acts = false := by decide +kernel

theorem witness_TableForms : (s1 0).retiringSpan 0 0x1000000000 18 = false ∧ (paged 0).retiringSpan 0 0x40000000 18 = false ∧
    (s1 0x1000000000).acts = true ∧ ((s1 0).seq (.seq 0 3)).run = .stopped ∧ (s1 0).myCore.tloads.has 3 = false ∧
    (rig (.seq 0 0) {} { core1 with tloads := [(3, loading)] } ctx1).myCore.tloads.has 3 = true ∧
    answers (locateAll (paged 0x40000000) 0 .exec false (spanPieces 0x40000000 18)) = true ∧ (paged 0x40000000).meetsRead 0x40000000 18 = .clear ∧
    isStall (({ paged 0x40000000 with heldw := [{ held (.seq 0 0) 15 with addr := 0x40000000 }] } : State).meetsRead 0x40000000 18) = true ∧
    (Cond.engineIdle 0 7).holds (s1 0) = true ∧ (Cond.engineIdle 0 3).holds { s1 0 with heldw := [held (.seq 0 3) 15] } = false ∧
    (Cond.engineIdle 0 2).holds { s1 0 with heldw := [held (.seq 0 3) 15] } = true ∧
    (s1 0).parked.has (.seq 0 3) = false ∧ ({ s1 0 with parked := [(.seq 0 3, {})] } : State).parked.has (.seq 0 3) = true ∧
    (({ s1 0 with seqs := [(.seq 0 3, { run := .running })] } : State).seq (.seq 0 3)).run ≠ .stopped ∧
    ((onC { sreg := [(1, 2047)] }).src 1).toNat ≤ 2047 ∧ 2047 < ((onC { sreg := [(1, 2048)] }).src 1).toNat ∧ (740 : Nat) % 4 = 0 ∧
    ((onC { sreg := [(1, 740)] }).src 1).toNat ≤ 740 ∧ 740 < ((onC { sreg := [(1, 744)] }).src 1).toNat ∧ ((onC { sreg := [(1, 0xFFFF)] }).src 1).toNat < 2 ^ 16 := by
  decide +kernel

/-- C with a put that has been answered. -/
def answered (n : Nat) : State :=
  rig (.seq 0 0) { sreg := [(1, 0x1000000000), (2, 1)], resume := some { here := 0, slot := 0, phase := .put, a := 3 } } { core1 with answers := [(n, true)] } ctx1

theorem witness_PutForms : (answered 3).tablesRead (.seq 0 0) = true ∧ (tabling (answered 3)).tablesRead (.seq 0 0) = false ∧
    (let s := rig (.seq 0 0) { sreg := [(1, 0x1000000000), (2, 1)] } { core1 with win := List.replicate 8 { num := 0, slot := 0, q := 0, card := [], blocking := false, st := .sent } } ctx1;
      s.resumed .put = none ∧ 8 ≤ s.myCore.win.length) ∧
    (s1 0x1000000000).acts = true ∧ (s1 0x1000000000).tileOpen = false ∧ (s1 0x1000000000).myCtx.queueCount ≤ ((s1 0).src 2).toNat ∧
    (s1 0x1000000000).resumed .put = none ∧ (answered 3).myCtx.queueCount = 2 ∧ ((answered 3).src 2).toNat < 2 ∧ ((answered 3).src 1).toNat % 128 = 0 ∧
    ((s1 1).src 1).toNat % 128 ≠ 0 ∧ (answered 3).myCore.win.length < 8 ∧ answers ((answered 3).loadBytes 0x1000000000 128) = true ∧
    8 ≤ (rig (.seq 0 0) {} { core1 with win := List.replicate 8 { num := 0, slot := 0, q := 0, card := [], blocking := false, st := .sent } } ctx1).myCore.win.length ∧
    (answered 3).resumed .put = some { here := 0, slot := 0, phase := .put, a := 3 } ∧ (answered 3).myCore.answers.find? (fun e => e.1 == 3) = some (3, true) ∧
    (answered 4).myCore.answers.find? (fun e => e.1 == 3) = none ∧
    Quiet (answered 3) 0xFFFF ∧ Held (holding (answered 3) 15) 0xFFFF := by decide +kernel

theorem witness_TileForms : (waited (s1 0) (.queueCount 0 1 5)).latched (.queueCount 0 1 5) = true ∧ (tiled { opened := true } {}).myCore.tloads = [] ∧ (tabling (tiled {} {})).myCore.tloads ≠ [] ∧
    (tiled { opened := true, cbuf := [.put 1 []] } {}).myCore.cbuf = [.put 1 []] ∧
    8 ≤ ({ core1 with win := List.replicate 8 { num := 0, slot := 0, q := 0, card := [], blocking := false, st := .sent } } : Core).win.length ∧
    (tiled {} {}).acts = true ∧ (tiled {} {}).myCore.bank = none ∧ (tiled {} {}).myCore.group = some 0 ∧
    (tiled { opened := true } {}).myCore.opened = true ∧ (((tiled {} { deques := [(0, [⟨0, 1⟩])], size := 2 }).group 0).take 0).isSome = true ∧
    ((tiled {} {}).group 0).untaken = 0 ∧ (((tiled {} {}).group 0).take 0).isNone = true ∧ 0 < ((tiled {} { untaken := 1, size := 2 }).group 0).untaken ∧
    256 ≤ (((tiled {} { deques := [(0, List.replicate 256 ⟨0, 1⟩)] }).group 0).deques.get [] 0).length ∧ ((tiled {} { size := 2 }).group 0).size = 2 ∧
    (trapped {}).myCore.bank.isSome = true ∧ (rig (.seq 0 0) {} {} ctx1).myCore.group = none ∧ (tiled {} {}).myCtx.queueCount = 2 ∧
    ((s1 0).myCtx.queue 1).st = .idle ∧ ((((({ ctx1 with queues := [(1, { st := .active })] } : Ctx).queue 1).done.toNat + 2 ^ 32 - 1) % 2 ^ 32) ≥ 2 ^ 31) ∧
    (tiled { opened := true } {}).tileOpen = true ∧ answers ((tiled { opened := true } {}).loadBytes 0x1000000000 128) = true ∧
    64 ≤ (tiled { opened := true, cbuf := List.replicate 64 (.semAdd 0 1) } {}).myCore.cbuf.length ∧ (tiled { opened := true } {}).myCore.cbuf = [] ∧
    (tiled {} {}).heldw = [] ∧ (tiled {} {}).resumed .commit = none ∧ (∃ h ∈ [held (.seq 0 0) 15], h.owned = true ∧ (tiled {} {}).coreOf h.who = some 0) ∧
    (tiled {} {}).semSum 0 0 1 = some 1 ∧ Quiet (tiled { opened := true } {}) 0xFFFF := by decide +kernel

theorem witness_TileForms_commit : ∃ t n, State.commits [.semAdd 0 1, .put 1 [], .xsig 5 0x200000000 1, .supd 6 [] []] (tiled { opened := true } {}) t 0 n :=
  ⟨_, _, by decide +kernel, by decide +kernel, by decide +kernel, rfl, rfl⟩

/-- A state with one word of a transaction barrier in vault 0. -/
def barred (w : Nat) : State := withWords (s1 0x1000000000) [(Config.vaultBase, 8, w)]

theorem witness_BarrierForms : (tiled {} { size := 2 }).tablesRead (.seq 0 0) = true ∧ (tabling (barred 0)).tablesRead (.seq 0 0) = false ∧ ¬((s1 2).myCoreNo ∈ (s1 2).myCtx.fstopArr) ∧
    (s1 2).myCtx.fstopArr.length + 1 < 2 ∧ (Cond.fullStopReady (s1 2).myCoreNo (s1 2).fullStopPoint).holds (tabling (s1 2)) = false ∧
    (tiled {} { size := 2 }).myCore.group = some 0 ∧ (tiled {} { size := 2 }).heldw = [] ∧ (1 ∈ List.range ((tiled {} { size := 2 }).group 0).size) ∧
    ((tiled {} { size := 2, arrived := [1] }).group 0).arrived = [1] ∧ Held (holding (tiled {} { size := 2 }) 15) 0xFFFF ∧ Held (holding (barred 0) 15) 0xFFFF ∧ Quiet (barred 0) 0xFFFF ∧
    ((((tiled {} { phase := 1 }).group 0).phase.toNat + 2 ^ 32 - 0) % 2 ^ 32 = 1) ∧ ((((tiled {} {}).group 0).phase.toNat + 2 ^ 32 - 0) % 2 ^ 32 = 0) ∧
    (onC { resume := some { here := 0, slot := 0, phase := .fullStop, a := 1 } }).resumed .fullStop = some { here := 0, slot := 0, phase := .fullStop, a := 1 } ∧
    (s1 1).myCtx.fstopPhase.toNat ≠ 1 ∧ (s1 1).resumed .fullStop = none ∧ (Cond.fullStopReady (s1 1).myCoreNo (s1 1).fullStopPoint).holds (s1 1) = true ∧
    (s1 1).myCtx.fstopArr = [] ∧ 128 < ((s1 129).src 1).toNat ∧ 1 ≤ ((s1 128).src 1).toNat ∧ ((s1 128).src 1).toNat ≤ 128 ∧
    (barred 0).acts = true ∧ (barred 0).memOk ∧ regionOf 0x1000000000 = .vault ∧ answers (locate (barred 0) 0 0x1000000000 .atomic false) = true ∧
    (barred 0).meetsRead 0x1000000000 8 = .clear ∧ ({ barred 0 with heldw := [{ held (.seq 0 0) 15 with addr := 0x1000000100 }] } : State).meetsRead 0x1000000000 8 = .clear ∧ (1 : Nat) < 2 ^ 18 ∧ 1 % 2 ^ 10 ≠ 0 ∧ (2 ^ 18 - 1) % 2 ^ 10 ≠ 0 ∧
    ((TxWord.ofNat 0).update 0 5 0).isSome = true ∧ ((TxWord.ofNat 0).update 1 0 0).isNone = true := by unfold State.memOk; decide +kernel

/-- C of a core in trap mode, with s1 at an image of a kernel without accumulators in vault 0. -/
def imaged : State := rig (.seq 0 0) { sreg := [(1, 0x1000000000)] } { slot := some 0, bank := some {} } ctx1

theorem witness_TrapEntry : (rig (.seq 0 0) {} { core1 with committing := true } ctx1).iss.who = .seq 0 0 ∧ ((rig (.seq 0 0) {} { core1 with committing := true } ctx1).core 0).committing = true ∧
    (let i : Issue := { who := .seq 0 0, stands := true, rest := [(1, .nop 0)] }; let s : State := { s1 7 with parked := [(.seq 0 0, i)] };
      s.parked.find? (fun e => decide (e.1 = .seq 0 0)) = some (.seq 0 0, i) ∧ i.rest.head?.map (·.1) = some 1 ∧ (s.seq (.seq 0 0)).resume = none) ∧
    ((rig (.seq 0 0) {} core1 { ctx1 with preempting := some .tornDown }).ctx 0).preempting = some .tornDown ∧
    (handled (s1 7)).iss.who = .seq 0 0 ∧ ((handled (s1 7)).core 0).bank = none ∧ (mkTrap .breakpoint).cause ≠ .uncorrectable ∧
    (mkTrap .breakpoint).async = false ∧
    (((handled (s1 7)).endWait (.seq 0 0)).abandon (.seq 0 0)).verify ((handled (s1 7)).slotOf (.seq 0 0)) ((handled (s1 7)).ctx ((handled (s1 7)).slotOf (.seq 0 0))).handler true =
      some (handler1, ((handled (s1 7)).endWait (.seq 0 0)).abandon (.seq 0 0)) ∧ (handled (s1 7)).parked = [] ∧ ((handled (s1 7)).core 0).committing = false ∧
    ((trapped {}).core 0).bank.isSome = true ∧ (((s1 7).endWait (.seq 0 0)).abandon (.seq 0 0)).verify ((s1 7).slotOf (.seq 0 0)) ((s1 7).ctx ((s1 7).slotOf (.seq 0 0))).handler true = none ∧
    (handled (onE 5 {})).iss.who = .seq 0 5 := by decide +kernel

theorem witness_SystemCall : (handled (s1 7)).acts = true ∧ (handled (s1 7)).iss.who = .seq 0 0 ∧ (handled (s1 7)).iss.xfer = none ∧ ((trapped {}).core 0).bank = some {} ∧
    ((endStep (handled (s1 7))).core 0).bank = none ∧
    ((endStep (handled (s1 7))).abandon (.seq 0 0)).verify ((endStep (handled (s1 7))).slotOf (.seq 0 0))
      ((endStep (handled (s1 7))).ctx ((endStep (handled (s1 7))).slotOf (.seq 0 0))).handler true = some (handler1, (endStep (handled (s1 7))).abandon (.seq 0 0)) ∧
    (∃ h ∈ (holding (trapped {}) 15).heldw, h.owned = true ∧ h.who = .seq 0 0 ∧ h.classes ≠ 0) ∧ (∀ h ∈ (trapped {}).heldw, h.owned = true → h.who = .seq 0 0 → h.classes = 0) ∧
    (handled (s1 7)).iss.transferred = false ∧ ({ trapped {} with iss := { (trapped {}).iss with xfer := some (.jump 0) } } : State).iss.transferred = true ∧
    ((trapped { loaded := some ([0], []) }).core 0).bank = some { loaded := some ([0], []) } ∧ ((trapped {}).core 0).tloads = [] ∧
    (trapped { kept := some { kind := 5, obj := 0, cond := .semAtLeast 0 3 5, since := 0, sinceWall := 0 } }).acts = true ∧
    (trapped { pendingSd := some 3 }).acts = true ∧ ((trapped { pendingSd := some 3 }).core 0).bank = some { pendingSd := some 3 } ∧ (s1 0).iss.xfer = none := by
  decide +kernel

/-- C with an event in the latch of its core, or with none. -/
def evented (e : BitVec 4) (w : Nat) : State := { rig (.seq 0 0) { sreg := [(1, 100)] } { core1 with evt := e } ctx1 with wall := w }

theorem witness_EventForms : (evented 1 0).acts = true ∧ (evented 1 0).myCore.evt ≠ 0 ∧ (evented 0 0).myCore.evt = 0 ∧ (evented 0 0).cur.wait = none ∧
    ((evented 0 0).src 1).toNat ≠ 0 ∧ (evented 0 0).wall - (evented 0 0).wall < ((evented 0 0).src 1).toNat ∧
    (∃ w, (waited (evented 0 100) (.event 0 100)).cur.wait = some w ∧ w.cond = .event (evented 0 100).myCoreNo ((evented 0 100).src 1).toNat ∧
      w.slot = (evented 0 100).iss.slot ∧ ((evented 0 100).src 1).toNat ≤ (evented 0 100).wall - w.sinceWall) ∧
    (let u : State := { evented 0 0 with iss := { (evented 0 0).iss with slot := 1, words := { w0 := 0x6C000002, w1 := 0x6C000002, attr := 0 } } };
      u.iss.slot = 1 ∧ u.iss.words.w0.extractLsb' 26 6 = 0x1B ∧ u.iss.words.w0.extractLsb' 0 5 = 2) ∧ (evented 0 0).iss.slot ≠ 1 ∧
    ((evented 0 0).src 1).toNat < 128 ∧ ((s1 127).core 0).slot = some (s1 127).mySlot ∧ (s1 128).src 1 = 128 ∧ ((s1 127).core 127).slot ≠ some (s1 127).mySlot := by
  and_intros <;> first | decide +kernel | exact ⟨_, rfl, by decide +kernel⟩

/-- C, and a copy with a chunk translated through a page. -/
def chunked : State :=
  let k : Chunk := { pos := 0, bytes := [1], order := 1, units := [(0x4000, 0, false)] }
  let c : Copy := { kind := .plain, desc := 0, oc := 0, slot := 0, who := .seq 0 1, step := 0, wslot := 0, order := 0, recv := [], chunks := [k] }
  { s1 1 with nextOp := 2, tags := [(tg 5, { forked with op := some (.copy c) })] }

/-- An entry of context 1 as a translation or walk cache holds it: of level 0, or of level 1 page 1. -/
def walkEntry (level e : Nat) : WalkEntry := { id := 1, level := level, no := level, e := e }

/-- C, with a next-table entry and the leaf of the second GiB cached. -/
def walked : State := { s1 1 with caches := { walks := [walkEntry 0 1, walkEntry 1 7] } }

/-- C with a withdrawal whose chunks have gone. -/
def withdrawn : State :=
  waited (onC { sreg := [(1, 1)], resume := some { here := 0, slot := 0, phase := .retire } }) (.chunksGone 0 0 0 0)

theorem witness_WithdrawalForms : (s1 1).tablesRead (.seq 0 0) = true ∧ (tabling (s1 1)).tablesRead (.seq 0 0) = false ∧ (s1 1).tableVia 0 0 0 (2 ^ 57) = false ∧
    (s1 1).acts = true ∧ (s1 1).myCtx.id = 1 ∧ ((s1 1).src 1).toNat = (s1 1).myCtx.id ∧ ((s1 0).src 1).toNat = 0 ∧ ((s1 2).src 1).toNat ≠ 0 ∧
    ((s1 2).src 1).toNat ≠ (s1 2).myCtx.id ∧ (s1 1).resumed .retire = none ∧ Quiet (s1 1) 0xFFFF ∧ Held (holding (s1 1) 15) 0xFFFF ∧ ((s1 1).src 2).toNat ≠ 0 ∧
    ((s1 1).src 3).toNat = 0 ∧ (s1 1).chunkVia 0 0 (fun _ => true) = false ∧
    chunked.chunkVia 0 2 (fun _ => true) = true ∧
    (∀ w ∈ walked.caches.walks, w.id = 1 → w.level = 1 → w.no ≠ 2) ∧ (walked.dropWalks 1 0x40000000 0x40000001 false).caches.walks = [walkEntry 0 1] ∧
    (walked.dropWalks 1 0 0x40000000 false).caches = walked.caches ∧ (walked.dropWalks 1 0 0 true).caches.walks = [walkEntry 1 7] ∧
    (∃ r w, withdrawn.resumed .retire = some r ∧ withdrawn.cur.wait = some w ∧ w.cond.holds withdrawn = true) := by
  and_intros <;> first | decide +kernel | exact ⟨_, _, rfl, rfl, by decide +kernel⟩

theorem witness_ContextImageForms : imaged.tablesRead (.seq 0 0) = true ∧ (tabling imaged).tablesRead (.seq 0 0) = false ∧ core1.saveRegs = [] ∧
    ({ core1 with live := [(3, true)] } : Core).saveRegs = [3] ∧ (core1.kern.map (·.vregs)).getD 0 ≤ 768 ∧
    (s1 0).acts = true ∧ (s1 0).myCore.bank = none ∧ imaged.myCore.bank = some {} ∧ (imaged.src 1).toNat % 65536 = 0 ∧
    ((trapped {}).src 1).toNat % 65536 = 0 ∧ imaged.meetsRead 0x1000000000 0x46000 = .clear ∧ Quiet imaged 0xFFFF ∧
    answers (imaged.loadBytes 0x1000000000 0x18) = true ∧ answers (imaged.loadBytes 0x1000000000 (mainSize imaged.myCore)) = true ∧
    ((withWords imaged [(Config.vaultBase, 8, 0x101)]).peekNat none Config.vaultBase 8) = 0x101 ∧ imaged.myCtx.id = 1 ∧ (imaged.myCore.kern.map (·.base)).getD 0 = 0 := by
  decide +kernel

/-- C of a context with a claim of one way of slice 0. -/
def claimed (m : Claim) (q : Seq) : State := rig (.seq 0 0) { q with sreg := [(1, 1), (2, 0)] } core1 { ctx1 with claim := some m }

/-- A claim of one way of slice 0 in compute mode. -/
def claim1 : Claim := { slices := 1, ways := 1, ready := true }

theorem witness_ClaimForms : (claimed { claim1 with no := 1 } { resume := some { here := 0, slot := 0, phase := .release } }).resumed .release =
      some { here := 0, slot := 0, phase := .release } ∧ (0 : Nat) ≠ ({ claim1 with no := 1 } : Claim).no ∧ claim1.queue = [] ∧ (claimed claim1 {}).tags = [] ∧
    (s1 1).acts = true ∧ (s1 1).myCtx.claim = none ∧ (s1 1).resumed .claim = none ∧ 0 < ((s1 1).src 1).toNat ∧
    (s1 1).myCtx.grantw.toNat.testBit 16 = true ∧ 12 ≤ (s1 1).myCtx.grantw.toNat % 16 ∧ 12 ≤ ((s1 1).myCore.kern.map (·.ways)).getD 0 ∧
    (s1 2).myCtx.grantw.toNat.testBit 17 = false ∧ ¬ ((s1 (2 ^ 32)).src 1).toNat < 2 ^ 32 ∧ (claimed claim1 {}).myCtx.claim = some claim1 ∧ claim1.ready = true ∧
    (claimed claim1 { resume := some { here := 0, slot := 0, phase := .claim } }).resumed .claim = some { here := 0, slot := 0, phase := .claim } ∧
    (claimed claim1 { resume := some { here := 0, slot := 0, phase := .release } }).resumed .release = some { here := 0, slot := 0, phase := .release } ∧
    (Cond.claimDrained 0 0).holds (claimed claim1 {}) = true ∧ (claimed claim1 {}).resumed .release = none ∧
    (∃ b, ClaimEntry.cmd b ∈ [ClaimEntry.cmd { fn := 9, imm := 0, opw := 0, konst := 0, core := 0 }]) ∧ (Cond.claimIdle 0 0).holds (claimed claim1 {}) = true ∧
    (Cond.claimIdle 0 0).holds (claimed { claim1 with queue := [.cmd { fn := 9, imm := 0, opw := 0, konst := 0, core := 0 }] } {}) = false := by
  and_intros <;> first | decide +kernel | exact ⟨_, .head _⟩

/-- A command that increments a field of one bit. -/
def inc1 : BitCmd := { fn := 9, imm := 0, opw := 0, konst := 0, core := 0 }

theorem witness_BitCommandForms : claim1.spilled = false ∧ (claimed claim1 {}).myCtx.st = .running ∧ (claimed claim1 {}).myCtx.preempting = none ∧ inc1.fn = 9 ∧
    [4, 5, 6, 7, 8, 10, 11, 12].all (fun n => ({ inc1 with fn := n } : BitCmd).fn == n) = true ∧
    (claimed claim1 {}).acts = true ∧ bits ((claimed claim1 {}).src 2).toNat 31 30 = 0 ∧ bits ((claimed claim1 {}).src 2).toNat 47 41 = 0 ∧
    bits ((claimed claim1 {}).src 2).toNat 63 51 = 0 ∧ bits ((claimed claim1 {}).src 2).toNat 50 48 = 0 ∧ (claimed claim1 {}).myCtx.claim = some claim1 ∧
    claim1.releasing = false ∧ claim1.queue.length < 4 ∧ (claimed { claim1 with queue := List.replicate 4 (.cmd inc1) } {}).myCtx.claim.isSome = true ∧
    4 ≤ (List.replicate 4 (ClaimEntry.cmd inc1)).length ∧ (s1 0).claimOf 0 = none ∧ bits (0x40000000 : Nat) 31 30 ≠ 0 ∧ 255 + 1 ≤ 256 ∧
    ((claimed { claim1 with queue := [.cmd inc1] } {}).ctx 0).claim = some { claim1 with queue := [.cmd inc1] } := by decide +kernel

/-- C with a claim, s1 the address and s2 a transfer word of one element of eight bits in plane 0. -/
def moving (m : Claim) : State := rig (.seq 0 0) { sreg := [(1, 0x1000000000), (2, 0x700)] } core1 { ctx1 with claim := some m }

/-- A transfer of one element of eight bits of which one plane goes, at a segment and a plane. -/
def transfer1 (out : Bool) (buf : Map Nat Nat) (plane seg : Nat) : Transfer :=
  { out := out, addr := 0x1000000000, z := 8, sx := false, field := 0, width := 1, first := 0, count := 1, len := 1, slot := 0, core := 0, step := 0, wslot := 0,
    order := 0, seg := seg, plane := plane, buf := buf }

/-- That transfer out of the claim under way on tag 5. -/
def sending (buf : Map Nat Nat) (plane seg : Nat) : State :=
  { moving { claim1 with pending := [tg 5] } with tags := [(tg 5, { st := .landing, op := some (.transfer (transfer1 true buf plane seg)) })] }

theorem witness_TransferForms : (moving claim1).tablesRead (.seq 0 0) = true ∧ 255 % max (8 / 8) 1 = 0 ∧ 1 % max (16 / 8) 1 ≠ 0 ∧ leavesRegion (0x1000000000 : Nat) (0x1000000000 : Nat) false = false ∧
    leavesRegion (0x1FFFFFFFFFFFFFF : Nat) (0x200000000000000 : Nat) false = true ∧ (1 * 1 % 8 ≠ 0) ∧ claim1.lanes < 0x3FFFFF + 1 ∧
    (({ moving claim1 with tags := [(tg 5, forked)] } : State).tag (tg 5)).complete = false ∧ (moving { claim1 with releasing := true }).claimOf 0 = none ∧
    (let s := sending [(0, 1)] 0 0; (s.tag (tg 5)).st = .landing ∧ (s.ctx 0).claim = some { claim1 with pending := [tg 5] } ∧ s.copiesRun 0 (tg 5) = true ∧
      (transfer1 true [(0, 1)] 0 0).available ≤ 0 ∧ (transfer1 true [(0, 1)] 0 0).seg ≠ (transfer1 true [(0, 1)] 0 0).segments ∧
      ((transfer1 true [(0, 1)] 0 0).segment 0).1 < ((transfer1 true [(0, 1)] 0 0).segment 0).2) ∧
    (let y := transfer1 true [(0, 1)] 0 1; min (128 - (y.addr + y.landed) % 128) (y.available - y.landed) ≠ 0 ∧ y.width ≤ y.z ∧ y.landed < y.available ∧
      (moving claim1).landingWaits 0 0 y.addr 1 = false ∧ answers ((moving claim1).landBytes 0 0 y.addr [1] false) = true ∧ y.landed + 1 = y.len ∧
      ([1] : List Byte).length = min (128 - (y.addr + y.landed) % 128) (y.available - y.landed) ∧
      (List.range 8).all (fun b => (1 : Byte).getLsbD b == if b % y.z < y.width then (y.buf.get 0 (b % y.z)).testBit (b / y.z) else y.sx && (y.buf.get 0 (y.width - 1)).testBit (b / y.z)) = true) ∧
    (let y := transfer1 false [(0, 1)] 0 0; y.out = false ∧ y.buf ≠ [] ∧ y.plane + 1 = y.width ∧ y.seg + 1 = y.segments) ∧
    (moving claim1).acts = true ∧ bits ((moving claim1).src 2).toNat 15 14 = 0 ∧ bits ((moving claim1).src 2).toNat 39 39 = 0 ∧
    bits ((moving claim1).src 2).toNat 63 63 = 0 ∧ bits ((moving claim1).src 2).toNat 7 0 + (bits ((moving claim1).src 2).toNat 13 8 + 1) ≤ 256 ∧
    bits ((moving claim1).src 2).toNat 13 8 + 1 ≤ 2 ^ 3 ∧ (moving claim1).myCtx.claim = some claim1 ∧
    bits ((moving claim1).src 2).toNat 38 16 + (bits ((moving claim1).src 2).toNat 62 40 + 1) ≤ claim1.lanes ∧ claim1.queue.length < 4 ∧
    leavesRegion (0x1000000000 : Nat) (0x1000000000 + 1 - 1 : Nat) true = false ∧ ((moving claim1).tag (tg 5)).complete = true ∧
    (Cond.copyReady (tg 5) (.ofNat 512 (0x1000000000 * 2 ^ 64 + 2 ^ 128))).holds (moving claim1) = true ∧ bits (0x4000 : Nat) 15 14 ≠ 0 ∧ (s1 0).myCtx.claim = none ∧
    (moving { claim1 with pending := [tg 5] }).copiesRun 0 (tg 5) = true ∧ tg 5 ∈ [tg 5] := by decide +kernel

theorem witness_PierStreamForms : (s1 8).tablesRead (.seq 0 0) = true ∧ (tabling (s1 8)).tablesRead (.seq 0 0) = false ∧
    (let f : Fork := { pier := 0, k := 0, order := 0, ended := true }; (({ s1 8 with tags := [(tg 5, { forked with op := some (.fork f) })] } : State).tag (tg 5)).op = some (.fork f) ∧
      f.ended = true ∧ f.up = none) ∧
    (s1 8).acts = true ∧ ((s1 7).src 1).toNat % 8 ≠ 0 ∧ ((s1 8).src 1).toNat % 8 = 0 ∧ ((s1 8).tag (tg 5)).complete = true ∧
    ((s1 8).stream 0 0).used = false ∧ (∀ j < 15, (({ s1 8 with streams := (List.range 15).map fun j => ((0, j), { used := true }) } : State).stream 0 j).used = true) ∧
    (∀ j < 16, (({ s1 8 with streams := (List.range 16).map fun j => ((0, j), { used := true }) } : State).stream 0 j).used = true) ∧
    (({ s1 8 with tags := [(tg 5, { forked with st := .landed })] } : State).tag (tg 5)).complete = true ∧
    (({ s1 8 with tags := [(tg 5, forked)] } : State).tag (tg 5)).complete = false ∧ (s1 8).heldw = [] ∧ ((s1 8).stream 0 0).down = none ∧ ((s1 8).tag (tg 5)).op = none ∧
    (onP {}).acts = true ∧ (onP {}).iss.who = .pier 0 0 ∧ ((onP {}).stream 0 0).up = none ∧
    Quiet (s1 8) 0xFFFF ∧ Held (holding (s1 8) 15) 0xFFFF ∧ (waited (s1 8) (.tagAll [tg 5])).latched (.tagAll [tg 5]) = true ∧ (s1 8).latched (.tagAll [tg 5]) = false ∧
    Quiet (onP {}) 0xFFFF := by decide +kernel

/-- A stream of pier 0 that holds unit 0, bound to a block of FP32 rows of one element. -/
def pooling (q : Seq) : State :=
  { onP q with units := [((0, 0), { block := .ofNat 512 (2 ^ 64 * 2 ^ 16), holder := some 0 }), ((0, 1), { holder := some 1 })] }

/-- A unit with its streams bound, of a table of one row. -/
def unit1 : PoolUnit :=
  { block := .ofNat 512 (0x40000000 + 4 * 2 ^ 64 + 2 ^ 80 + 2 ^ 160), streams := [(0, (0x1000000000, 2)), (1, (0x1000000000, 2)), (3, (0x1000000000, 2))], holder := some 0 }

theorem witness_PoolingForms : answers ((pooling {}).walkOf 0 0xC0000000).2 = true ∧ answers ((pooling {}).walkOf 0 0x40000000).2 = true ∧ answers ((pooling {}).rowPa 0x40000000) = false ∧
    regionOf 0x40000000 = .translated ∧ 8 ≤ (pooling (deep 8 true)).cur.stack.length ∧
    answers ((pooling {}).loadNat 0x1000000000 4) = true ∧ unit1.streams.get (0, 2) 0 = (0x1000000000, 2) ∧ unit1.bypassed 3 = false ∧
    answers ((pooling {}).bagSpan unit1 0) = true ∧ answers ((pooling {}).poolRows unit1 []) = true ∧ answers ((pooling {}).bagTerms 0 [unit1]) = true ∧ unit1.field 2 63 32 = 1 ∧
    answers ((pooling {}).loadBytes 0x40000000 4) = true ∧ (Num.fin false 1 0).isNaN = false ∧ (Num.nan false).isNaN = true ∧ (fp32.num 0x7FC00000).isNaN = true ∧
    (fp32.num 0x3F800000).isNaN = false ∧ answers ((pooling {}).storeBytes 0x1000000000 [0, 0, 0, 0] (classBit 15) .write) = true ∧
    (pooling {}).acts = true ∧ (pooling {}).iss.who = .pier 0 0 ∧ ((pooling {}).unit 0 0).holder = some 0 ∧ ((pooling {}).unit 0 2).holder = none ∧
    ((pooling {}).unit 0 1).holder = some 1 ∧ blockOk (.ofNat 512 (2 ^ 64 * 2 ^ 16)) = true ∧ blockOk 0 = false ∧
    answers ((pooling { sreg := [(1, 0x40000000)] }).loadBytes 0x40000000 64) = true ∧ (11 : Nat) < 16 ∧ 11 % 4 = 3 ∧ (8 % 4 = 0 ∧ 2 ≤ 8 / 4) ∧
    answers ((pooling {}).chainUnits 0 1) = true ∧ ((pooling {}).resumed .pool) = none ∧ Quiet (pooling {}) 0xFFFF ∧
    answers ((pooling {}).rowPa 0xC0000000) = true ∧ 0xC0000000 % 2048 = 0 ∧ 0xC0000800 % 2048 = 0 ∧ (0xC0000008 : Nat) % 2048 ≠ 0 ∧ answers ((pooling {}).rowPa 0xC0000008) = true ∧
    answers ((pooling {}).loadBytes 0xC0000800 2048) = true ∧ answers ((pooling {}).storeNow 0xC0000000 (List.replicate 2048 0)) = true ∧
    regionOf 0x1000000000 ≠ .translated ∧ (pooling {}).cur.stack.length < 8 := by decide +kernel

/-- A context in a job, with one table of four rows of two FP32 elements. -/
def ctx2 : Ctx :=
  { ctx1 with xjob := 0x10000, tdir := 1, dir := [(0, leBytes 8 (0xC0000000 + 2 ^ 63) ++ leBytes 4 4 ++ leBytes 2 8 ++ leBytes 2 2 ++ leBytes 48 0x4000)] }

/-- C with a command block of words at the start of vault 0 in a job that is enabled. -/
def blocked (q : Seq) (l : List (Nat × Nat)) : State :=
  withWords (rig (.seq 0 0) { q with sreg := [(1, 0x1000000000)] } core1 ctx2) (l.map fun e => (Config.vaultBase + 8 * e.1, 8, e.2))

/-- The bytes of that block. -/
def blockOf (s : State) : List Byte := match s.loadBytes 0x1000000000 64 with
  | .ok r => r.1
  | .error _ => []

/-- A crossing block that passes its checks. -/
def crosses (fn : Nat) (l : List (Nat × Nat)) : Bool :=
  let s := blocked {} l
  let b := blockOf s
  answers (s.loadBytes 0x1000000000 64) && crossReservedZero fn b && (crossVault fn).all (fun i => s.inSegment s.mySlot (blkWord b i)) && s.crossLimits fn b &&
    s.myCtx.xjob.toNat.testBit 16

theorem witness_CrossingForms : (blocked {} []).acts = true ∧ crosses 0 [(0, 0x10000), (1, 0x1000000000), (3, 0x1000000000), (4, 0x1000000000), (5, 0x1000000000)] = true ∧
    crosses 1 [(0, 0x400010000), (1, 0x1000000000), (3, 0x1000000000), (5, 0x1000000000)] = true ∧
    crosses 2 [(3, 0xFFFFFFFF)] = true ∧ crosses 2 [] = true ∧ crosses 3 [(1, 0x1000000000), (3, 64)] = true ∧ crosses 4 [] = true ∧
    (Cond.copyReady (tg 5) (.ofNat 512 (0x1000000000 * 2 ^ 64 + 64 * 2 ^ 128))).holds (blocked {} []) = true ∧ ((blocked {} []).tag (tg 5)).complete = true ∧
    (({ blocked {} [] with tags := [(tg 5, forked)] } : State).tag (tg 5)).complete = false ∧ bits (0x3FFFFF : Nat) 31 22 = 0 ∧ (s1 0).myCtx.xjob.toNat.testBit 16 = false ∧
    (tiled { opened := true } {}).tileOpen = true ∧ crossReservedZero 2 (blockOf (blocked {} [(4, 1)])) = false ∧ 0x1000000020 % 64 ≠ 0 ∧
    (waited (s1 0) (.tagAll [tg 5])).latched (.tagAll [tg 5]) = true ∧ (s1 0).latched (.tagAll [tg 5]) = false := by decide +kernel

/-- What a ring needs at offset 0x40 of vault 0: two slots of 128 bytes at 0x1000. -/
def ring1 : List (Nat × Nat) := [(8, 0x1000001000), (9, 0x100)]

theorem witness_EmbeddingForms :
    (let s := blocked {} ([(1, 0x1000000000), (2, 0x1000000000), (4, 0x1000000040)] ++ ring1);
      answers (s.loadBytes 0x1000000000 64) = true ∧ blkReservedZero 0 (blockOf s) = true ∧ s.myCtx.tableOk 0 = true ∧ pfOk (blkE (blockOf s)) = true ∧
      regionOf (blkWord (blockOf s) 4) = .vault ∧ answers (s.checkRead 0x1000000040 64) = true ∧ s.ringFits s.mySlot 0x1000000040 8 = true ∧ (s.tag (tg 5)).complete = true) ∧
    (let s := blocked {} [(1, 0x1000000000), (3, 0x1000001000)];
      blkReservedZero 2 (blockOf s) = true ∧ answers (s.loadBytes 0x1000001000 64) = true ∧ optValid s.myCtx 0 (List.replicate 64 0) = true ∧ s.tileOpen = false) ∧
    (let s := blocked {} [(1, 0x1000000000)];
      blkReservedZero 4 (blockOf s) = true ∧ blkReservedZero 1 (blockOf s) = true ∧ tblSkv (s.myCtx.table 0) = true ∧ blkMode (blockOf s) = 0 ∧ blkN (blockOf s) = 0) ∧
    (let s := blocked {} [(0, 2 ^ 32), (1, 0x1000000000), (4, 0x1000001000)];
      blkReservedZero 1 (blockOf s) = true ∧ blkN (blockOf s) * tblRowB (s.myCtx.table 0) = 8 ∧ leavesRegion (0x1000001000 : Nat) (0x1000001007 : Nat) true = false ∧
      answers (s.boxInSegment s.mySlot (destShape (.ofNat 512 (0x1000001000 * 2 ^ 64 + 8 * 2 ^ 128)))) = true ∧
      (Cond.copyReady (tg 5) (.ofNat 512 (0x1000001000 * 2 ^ 64 + 8 * 2 ^ 128))).holds s = true) ∧
    blkReservedZero 1 (blockOf (blocked {} [(2, 1)])) = false ∧ (blocked {} []).myCtx.tableOk 1 = false ∧ 1024 ≤ ((s1 1024).src 1).toNat := by decide +kernel

/-- Two live registers of the vector engine in one value. -/
theorem named_group (t0 t1 : Nat) (q : Seq) (h : (onV t0 t1 q).vname 0 = some 0) (k : (onV t0 t1 q).vname 1 = some 1) :
    (onV t0 t1 q).named 0 1 7 ∧ (onV t0 t1 q).named 1 1 9 ∧ (onV t0 t1 q).named 0 2 (7 + 2 ^ 4096 * 9) := by
  have a : (onV t0 t1 q).iss.oldLive.get false 0 = true := rfl
  have b : (onV t0 t1 q).iss.oldLive.get false 1 = true := rfl
  have x : ((onV t0 t1 q).iss.oldV.get 0 0).toNat = 7 := rfl
  have y : ((onV t0 t1 q).iss.oldV.get 0 1).toNat = 9 := rfl
  have z : ∀ n, (onV t0 t1 q).named n 0 0 := fun n => by unfold State.named; rfl
  have one : (onV t0 t1 q).named 1 1 9 := by
    unfold State.named; exact ⟨1, 0, k, b, z 2, by rw [y, Nat.mul_zero]⟩
  refine ⟨?_, one, ?_⟩
  · unfold State.named; exact ⟨0, 0, h, a, z 1, by rw [x, Nat.mul_zero]⟩
  · unfold State.named; exact ⟨0, 9, h, a, one, by rw [x]⟩

theorem witness_VectorArithmeticForms : (onV 0 0 {}).vname 0 = some 0 ∧ (onV 0 0 {}).vname 1 = some 1 ∧ tyOf (onV 0 0 {}).t0 = .fp fp32 ∧ (onV 0 0 {}).iss.old.rm = 0 ∧
    tyOf (onV 11 0 {}).t0 = .int ⟨4, false⟩ ∧ (onV 8 0 {}).t0 = 8 ∧ (onV 10 0 {}).t0 = 10 ∧ (onV 5 0 {}).t0 ≤ 5 ∧ (onV 2 0 {}).t0 ≤ 2 ∧ (onV 0 0 {}).topNat.testBit 63 = true := by
  decide +kernel

theorem witness_VectorWideBitForms : exactIn 1 0 = true ∧ exactIn 8 6 = true ∧ typeWidth 0 = 2 * typeWidth 1 ∧ typeWidth 6 = 4 * typeWidth 8 ∧ 26 + 2 ≤ 28 ∧ (onV 12 0 {}).t0 = 12 ∧
    (onV 13 0 {}).t0 = 13 ∧ (onV 0 0 { vtype := 0 }).iss.old.rm = 0 ∧ 5 ≤ ({ onV 0 0 {} with iss := { old := { vtype := 0x500 } } } : State).iss.old.rm ∧
    ({ onV 1 0 {} with iss := { (onV 1 0 {}).iss with deadchk := true } } : State).iss.deadchk = true ∧ (onV 1 0 {}).iss.oldLive.get false 2 = false ∧
    (onV 1 0 {}).vname 2 = some 2 ∧ (onV 1 0 {}).vname 28 = none ∧ (onV 1 0 {}).topNat.testBit 0 = true := by and_intros <;> decide +kernel

/-- Whether a type is a float type. -/
def floatTy (t : Nat) : Bool := match tyOf t with
  | .fp _ => true
  | .int _ => false

theorem witness_VectorCompareForms : (onV 0 0 (deep 7 true)).cur.stack.length < 8 ∧ 8 ≤ (onV 0 0 (deep 8 true)).cur.stack.length ∧ (onV 11 0 {}).t0 = 11 ∧
    (onV 0 0 {}).badPattern = false ∧ floatTy 5 = true ∧ (onV 12 0 {}).t0 = 12 := by and_intros <;> decide +kernel

theorem witness_VectorConvertForms : (onV 0 11 {}).t0 = 0 ∧ (onV 0 11 {}).t1 = 11 ∧ (onV 0 11 {}).iss.old.rm = 0 ∧ exactIn 8 6 = true ∧ typeWidth 0 = 4 * typeWidth 3 ∧
    24 + 4 ≤ 28 ∧ floatTy 3 = true ∧ (onV 12 0 {}).t0 = 12 ∧ (onV 0 12 {}).t1 = 12 ∧ (onV 0 12 {}).nfOn = false := by and_intros <;> decide +kernel

theorem witness_VectorMoveForms : (onV 12 0 {}).t0 = 12 ∧ (onV 0 0 {}).acts = true ∧ (onV 0 0 (deep 1 false)).acts = false ∧ (onV 0 0 {}).myCore.kern.isSome = true ∧
    3 < ((onV 0 0 {}).myCore.kern.map (·.accs)).getD 0 ∧ ((onV 0 0 {}).myCore.kern.map (·.accs)).getD 0 ≤ 4 ∧
    (onV 0 0 {}).accumulating = none ∧ ({ onV 0 0 {} with parked := [(.seq 0 2, { oldMd := [(0, .ofNat 256 (2 ^ 96))], rest := [(0, .mmf 0 0 0 0 0)] })] } : State).accumulating = some (0, 1) := by and_intros <;> decide +kernel

theorem witness_VectorReduceForms : (onV 11 0 {}).t0 ≤ 11 ∧ (onV 5 0 {}).t0 ≤ 5 ∧ (onV 5 0 {}).iss.old.rm < 5 := by and_intros <;> decide +kernel

/-- A vector engine whose stream 1 begins in vault 0, at a stride of one element. -/
def onAS (t0 t1 : Nat) (b : Word) (q : Seq) : State := onV t0 t1 { q with asb := [(1, b)], str := [(9, .ofNat 64 (max (typeWidth t0 / 8) 1))] }

theorem witness_VectorLoadStoreForms : (∀ p ∈ flatPieces 32 0x1000000000 ((onAS 0 0 0x1000000000 {}).mask 128), (onAS 0 0 0x1000000000 {}).mayReach p.addr p.n) ∧
    (onAS 0 0 0x1000000000 {}).iss.who.isPier = false ∧ (onAS 0 0 0x1000000000 {}).memOk ∧ (onAS 0 0 0x1000000000 {}).topNat.testBit 0 = true ∧
    (((onAS 0 0 0x1000000000 {}).iss.old.asb.get 0 1).toNat % 4 = 0) ∧
    ((flatPieces 32 0x1000000000 ((onAS 0 0 0x1000000000 {}).mask 128)).all fun p => answers (regionOk p.addr p.n) &&
      answers (locateAll (onAS 0 0 0x1000000000 {}) 0 .read false (spanPieces p.addr p.n)) && (onAS 0 0 0x1000000000 {}).meetsRead p.addr p.n == .clear && (onAS 0 0 0x1000000000 {}).meets 0 p.addr p.n none == .clear) = true ∧
    (onAS 12 0 0x1000000000 {}).t0 = 12 ∧ ((List.range 512).all fun j => !(onAS 12 0 0 (deep 1 false)).topNat.testBit j) = true ∧ (onAS 13 0 0 {}).t0 = 13 ∧
    ((flatPieces 32 0x1000000002 ((onAS 0 0 0x1000000002 {}).mask 128)).all fun p => answers (regionOk p.addr p.n)) = true ∧ 0x1000000002 % 4 ≠ 0 := by
  unfold State.memOk State.mayReach; decide +kernel

theorem witness_GatherScatterForms : ((List.range 128).all fun j => (onAS 0 6 0 {}).tablesRead (.seq 0 3) && !(onAS 0 6 0 {}).retiringSpan 0 (0x1000000000 + 4 * j) 4 &&
      (onAS 0 6 0 {}).lineStall 0 none ((onAS 0 6 0 {}).linesAsked [(locOf (onAS 0 6 0 {}) (0x1000000000 + 4 * j) .atomic, 0x1000000000 + 4 * j, 4)]) == none) = true ∧
    (onAS 0 6 0x1000000000 {}).t1 = 6 ∧ (onAS 8 11 0x1000000000 {}).t0 ≤ 11 ∧ 8 ≤ typeWidth 8 ∧ (onAS 0 6 0x1000000000 {}).badPattern = false ∧
    (onAS 0 6 0x1000000000 {}).memOk ∧
    (((onAS 0 6 0x1000000000 {}).gatherAddrs 1 ((onAS 0 6 0x1000000000 {}).mask 128) 7).all fun p => answers (accessOk p.2 4) &&
      (onAS 0 6 0x1000000000 {}).meetsRead p.2 4 == .clear) = true ∧ (onAS 0 6 0x1000000000 {}).gatherSnap = [] ∧ (onAS 0 5 0 {}).t1 ≤ 5 ∧
    ((List.range 128).all fun j => answers (accessOk (0x1000000000 + 4 * j) 4) &&
      answers (locateAll (onAS 0 6 0 {}) 0 .atomic false (spanPieces (0x1000000000 + 4 * j) 4))) = true := by unfold State.memOk; decide +kernel

/-- A descriptor of rows: base, rows, columns and its word 2. -/
def matWord (base rows cols w2 : Nat) : BitVec 256 := .ofNat 256 (base + (64 + rows * 2 ^ 32 + cols * 2 ^ 48) * 2 ^ 64 + w2 * 2 ^ 128)

theorem witness_MatrixStreamForms : (let s : State := { onM 0 0 with iss := { (onM 0 0).iss with nft := 1 } }; s.nfOn = true ∧ s.nfNaNOnly = false) ∧ nonFinite (.fp fp32) 0x7F800000 = some false ∧
    nonFinite (.fp fp32) 0x7FC00000 = some true ∧ nonFinite (.fp fp32) 0 = none ∧
    (onM (matWord 0x1000000000 1 4 0x10) 0).acts = true ∧ (onM 0 0).resumed .rows = none ∧ (onM 0 0).nfOn = false ∧
    (rig (.seq 0 2) { resume := some { here := 0, slot := 0, phase := .rows, a := 3 } } core1 ctx1).resumed .rows = some { here := 0, slot := 0, phase := .rows, a := 3 } ∧
    (onM 0 0).myCore.kern.isSome = true ∧ roleCode (matWord 0x1000000000 1 4 0x10) .dense = 0 ∧ roleCode (matWord 0x1000000000 1 4 0x230) .dense = 0 ∧
    roleCode (matWord 0x1000000000 1 4 1) .scales = 0 ∧ floatClass (onM 0 0).myCore.wfmt = floatClass 1 ∧
    answers ((matOf (matWord 0x1000000000 1 4 0x10)).aligned false) = true ∧
    answers ((onM (matWord 0x1000000000 1 4 0x10) 0).rowCodes (matOf (matWord 0x1000000000 1 4 0x10)) none true 0 0 64) = true ∧
    roleCode (matWord 0x1000000000 1 4 0x10) .gathered = 0 ∧ roleCode (matWord 0x1000000000 1 4 0x63) .index = 0 ∧ roleCode (matWord 0x1000000000 0 4 0x10) .sparse = 0 ∧
    roleCode (matWord 0x1000000000 0 4 2) .bitmap = 0 ∧ roleCode (matWord 0x1000000000 0 4 0x10) .gradient = 0 ∧ roleCode 1 .dense ≠ 0 ∧
    floatClass 1 = true ∧ (matOf (matWord 0x1000000000 1 4 0x10)).rows = 1 := by and_intros <;> decide +kernel

/-- The engine M at the last row of an order. -/
def onLast (a b : BitVec 256) (r : Nat) : State := rig (.seq 0 2) {} { core1 with md := [(0, a), (1, b)], mrowp := .ofNat 64 (r + 2 ^ 31) } ctx1

theorem witness_MatrixLoadStoreForms : (nonFinite (tyOf 1) 0x7F80 = some false ∨ nonFinite (tyOf 1) 0x7C00 = some false) ∧ (onM 0 0).tablesRead (.seq 0 2) = true ∧
    (onM 0 0).acts = true ∧ roleCode (matWord 0x1000000000 64 64 0x10) .dense = 0 ∧ roleCode (matWord 0x1000000000 64 64 0x10) .sparse = 0 ∧
    roleCode (matWord 0x1000000000 64 64 2) .bitmap = 0 ∧ roleCode (matWord 0x1000000000 64 64 0x60) .load = 0 ∧ roleCode (matWord 0x1000000000 64 64 0x60) .store = 0 ∧
    answers ((matOf (matWord 0x1000000000 64 64 0x60)).aligned false) = true ∧ (onM 0 0).memOk ∧
    answers ((onM (matWord 0x1000000000 64 64 0x60) 0).rowCodes (matOf (matWord 0x1000000000 64 64 0x60)) none true 63 0 64) = true ∧
    ((onM 0 0).heldw.any fun h => h.owned && h.who == (onM 0 0).iss.who && h.classes != 0) = false ∧
    ((holding (onM 0 0) 15).heldw.any fun h => h.owned && h.who == (onM 0 0).iss.who && h.classes != 0) = true ∧ ((onLast 0 0 63).myCore.mrowp.getLsbD 31) = true ∧ bits (onLast 0 0 63).myCore.mrowp.toNat 15 0 = 63 ∧
    ((onM 0 0).myCore.kern.map (·.accs)).getD 0 = 4 ∧ (0x1000000001 : Nat) % 32 ≠ 0 ∧ answers ((onM 0 0).loadBytes 0x1000000000 512) = true := by
  unfold State.memOk; decide +kernel

/-- LF with a descriptor in fd0. -/
def onLF (d : Nat) : State := rig (.seq 0 1) { fd := [(0, .ofNat 512 d)], lc := [(1, 0x1000000000)] } core1 ctx1

theorem witness_FerryForms : (let x : Transfer := { transfer1 true [] 0 0 with slot := 0 }; let s : State := { onLF 0 with tags := [(tg 5, { st := .landing, op := some (.transfer x) })] };
      (s.tag (tg 5)).op = some (.transfer x) ∧ (s.ctx 0).claim = none) ∧
    ((({ onLF 0 with tags := [(tg 5, { copying [] 0 with st := .frozen })] } : State).tag (tg 5)).st = .frozen) ∧
    (onLF copy64).acts = true ∧ answers ((onLF copy64).checkCopy .plain (.ofNat 512 copy64) 0) = true ∧
    answers ((onLF copy64).checkCopy .zero (.ofNat 512 copy64) 0) = true ∧ (Cond.copyReady (tg 5) (.ofNat 512 copy64)).holds (onLF copy64) = true ∧
    answers ((onLF 0).checkCopy .plain 0 0) = true ∧ descField (.ofNat 512 copy64) 2 31 0 = 64 ∧ descField 0 2 31 0 = 0 ∧
    (Cond.copyReady (tg 5) (.ofNat 512 copy64)).holds { onLF copy64 with tags := [(tg 5, copying [] 0)] } = false ∧
    answers ((onLF 0).checkCopy .multicast (.ofNat 512 (copy64 + 0x1000000000 * 2 ^ 384 + 2 ^ 480)) 0) = true ∧ answers ((onLF 0).txUpdate 0 0x1000000000 0 1 0) = true ∧
    descReservedZero (.ofNat 512 (2 ^ 63)) = false ∧ (copying [] 0).complete = false ∧ (copying [] 0).st ≠ .frozen ∧
    ((running [{ pos := 0, bytes := List.replicate 64 1 }] 64).nextChunk { vault := none, pos := 0 }).isSome = true ∧ (running [] 64).nextChunk { vault := none, pos := 0 } = none ∧ ({ st := .landed } : Tag).lost = false ∧ (onLF 0).lcSrc 1 = 0x1000000000 ∧
    answers ((onLF 0).loadBytes 0x1000000000 1024) = true ∧ ({ onLF 0 with tags := [(tg 5, copying [] 0)] } : State).copiesRun 0 (tg 5) = true ∧
    (destShape (.ofNat 512 copy64)).count = 64 ∧
    answers ((onLF copy64).chunkTarget (running [] 0) [{ vault := none, pos := 0 }]) = true ∧
    (((running [] 0).sources 0 64).all fun a => !(onLF copy64).retiringSpan 0 a 1) = true ∧
    ((List.range 64).all fun i => !(onLF copy64).landingWaits 0 0 ((destShape (.ofNat 512 copy64)).dst i) 1) = true ∧
    (((running [{ pos := 0, bytes := List.replicate 64 1 }] 64).runsLeft { vault := none, pos := 0 } { pos := 0, bytes := List.replicate 64 1 }).all fun e =>
      (onLF 0).landingBehind 0 0 e.1 e.2.length == false) = true ∧
    (onLF 0).creditStalls (tg 5) (running [{ pos := 0, bytes := List.replicate 64 1 }] 64) { pos := 0, bytes := List.replicate 64 1 } = false ∧
    (waited (onLF 0) (.tagAll [tg 5])).latched (.tagAll [tg 5]) = true ∧ (waited (onLF 0) (.tagRead (tg 5))).latched (.tagRead (tg 5)) = true ∧
    (onLF 0).latched (.tagRead (tg 5)) = false := by and_intros <;> decide +kernel

/-- LF with loop register 2 at a ring of two slots of 128 bytes, CLAIM, TAIL, TAKE and HEAD as given, and a number in loop register 1. -/
def ringed (c t k h n : Nat) (slots : Nat := 0x1000001000) : State :=
  withWords (rig (.seq 0 1) { lc := [(1, .ofNat 64 n), (2, 0x1000000040)] } core1 ctx1)
    [(Config.vaultBase + 0x40, 8, slots), (Config.vaultBase + 0x48, 4, 0x100), (Config.vaultBase + 0x50, 4, c), (Config.vaultBase + 0x54, 4, t), (Config.vaultBase + 0x58, 4, k),
     (Config.vaultBase + 0x5C, 4, h)]

/-- A core whose engine LF has waited 1,024 clocks to send a token into queue 2. -/
def stuck (pool : Nat) : State :=
  { seqs := [(.seq 0 1, { run := .blocked, heldTok := [(2, 1)], wait := some { kind := 4, obj := 2, cond := .sends, since := 0, sinceWall := 0 } })],
    cores := [(0, { slot := some 0, pool := pool, stuckAt := some 0, tokQ := [(2, { count := 15, depth := 15 })] })], clk := 1024 }

/-- LF has waited 1,024 clocks for room in a full ring. -/
def full : State :=
  { ringed 2 2 0 0 0 with
    clk := 1024, ringWait := [(0, 0)],
    seqs := [(.seq 0 1, { run := .blocked, wait := some { kind := 7, obj := 2, cond := .ringRoom (Config.vaultBase + 0x40), since := 0, sinceWall := 0 } })] }

theorem witness_RingForms : (ringed 1 0 0 0 0).acts = true ∧ answers ((ringed 1 0 0 0 0).ringHeader 2) = true ∧ (ringed 1 0 0 0 0).headerOk (Config.vaultBase + 0x40) = true ∧
    (ringed 2 2 0 0 0).headerOk (Config.vaultBase + 0x40) = true ∧ (ringed 0 1 0 0 0).headerOk (Config.vaultBase + 0x40) = false ∧
    (∀ h ∈ (ringed 1 0 0 0 0).heldw, h.owned = true → (ringed 1 0 0 0 0).coreOf h.who ≠ some (ringed 1 0 0 0 0).myCoreNo) ∧
    (∃ h ∈ [held (.seq 0 1) 15], h.owned = true ∧ (ringed 1 0 0 0 0).coreOf h.who = some (ringed 1 0 0 0 0).myCoreNo) ∧ (ringed 1 0 0 0 0).copyInto (some (.seq 0 1)) 0x1000001000 0x1000001080 = false ∧
    ((ringed 1 0 0 0 1).lcSrc 1).toNat % 2 ^ 32 = 1 ∧ answers ((ringed 1 0 0 0 0).txUpdate 0 0x1000000000 0 1 0) = true ∧
    answers ((ringed 1 0 0 0 0).txUpdate 0 0x1000000000 0 0 1) = true ∧
    ((stuck 8).core 0).stuckAt = some 0 ∧ (stuck 8).tokenStuck 0 = true ∧ 0 + 1024 ≤ (stuck 8).clk ∧ 8 ≤ ((stuck 8).core 0).pool ∧ ((stuck 7).core 0).pool < 8 ∧
    ((stuck 8).seq (.seq 0 1)).heldTok = [(2, 1)] ∧ full.ringWait.find? (fun e => e.1 == 0) = some (0, 0) ∧ full.ringStuck 0 = true ∧
    full.reliefRing 0 = some (Config.vaultBase + 0x40) ∧ full.tokenStuck 0 = false ∧
    full.copyInto none (full.reserveKey (Config.vaultBase + 0x40) - Config.vaultBase + vaultWindow)
      (full.reserveKey (Config.vaultBase + 0x40) - Config.vaultBase + vaultWindow + 256) = false ∧ full.poolSpace 0 256 = some 0 := by and_intros <;> decide +kernel

/-- A context with two queues, the first as given, and an engine of the dispatcher that has offered it. -/
def queued (u : Queue) (offered : List (Nat × Nat)) : State :=
  { ctxs := [(0, { ctx1 with queues := [(0, u), (1, { kind := 1, st := .active, rdy := offered.contains (0, 1), count := 1, lsize := 4 })] })], disp := { offered := offered },
    mgmt := { main := .ready, keys := [(0, { owner := 0, val := .module 0 })] } }

/-- A queue of compute cards with one that is ready. -/
def ready1 : Queue := { st := .active, rdy := true, count := 1, lsize := 4 }

/-- A put of core 0 to queue 0, with an answer or none. -/
def flying (a : Option Nat) : State :=
  { queued ready1 [] with disp := { flights := [{ sender := some 0, slot := 0, num := 1, q := 0, card := List.replicate 128 0, answer := a }] },
                          cores := [(0, core1)] }

/-- The decision's state once levels have been raised. -/
def decided (s : State) : State := (allQueues.foldl (fun (t : State) p => t.raiseLevel p) s).refreshOffers.resumeForming

theorem witness_DispatcherEvents : ((queued {} []).ctx 0).queueCount ≤ 2 ∧ (0 : Nat) < 16 ∧ (({ mgmt := { main := .ready } } : State).ctx 0).st = .free ∧
    (decided (queued ready1 [(0, 0)])).disp.offered = [(0, 0)] ∧ (decided (queued ready1 [(0, 0)])).disp.forming = none ∧
    ((((decided (queued ready1 [(0, 0)])).ctx 0).queue 0).kind = 0) ∧ (decided (queued {} [(0, 1)])).disp.offered = [(0, 1)] ∧
    ((((decided (queued {} [(0, 1)])).ctx 0).queue 1).kind = 1) ∧ ((decided (queued {} [(0, 1)])).cseq 0).busy = false ∧ (decided (queued {} [])).disp.offered = [] ∧
    ({ queued ready1 [] with disp := { finishing := [{ slot := 0, q := 0, card := List.replicate 128 0, status := 0 }] } } : State).launchPerformed
      { slot := 0, q := 0, card := List.replicate 128 0, status := 0 } = true ∧
    ((queued ready1 []).ctx 0).st = .running ∧ (flying none).disp.flights.length = 1 ∧ ((flying none).ctx 0).queueCount = 2 ∧ ((flying none).core 0).slot = some 0 ∧
    (((flying none).ctx 0).queue 0).count < 2 ^ 4 ∧ (((queued { ready1 with count := 16 } []).ctx 0).queue 0).count = 2 ^ 4 ∧
    (((queued { st := .halted } []).ctx 0).queue 0).st = .halted ∧ (((queued { st := .drained } []).ctx 0).queue 0).st = .drained ∧ (queued {} []).mgmt.main = .ready := by
  and_intros <;> decide +kernel

/-- A module whose link is trained with every feature and whose context 0 is as given. -/
def hosted (x : Ctx) : State :=
  { ctxs := [(0, x)], mgmt := { main := .ready, keys := [(0, { owner := 0, val := .module 0 })] }, link := { up := true, feat := 0x1F } }

theorem witness_HostWindowEvents : ((hosted { st := .suspended, dxlen := 256 }).ctx 0).dxlen.toNat / 128 = 2 ∧ (hosted {}).link.spare = true ∧
    (hosted ctx1).mgmt.main = .ready ∧ ((hosted ctx1).ctx 0).st ≠ .free ∧ ((hosted {}).ctx 0).st = .free ∧
    ((hosted ctx1).ctx 0).queueCount = 2 ∧ ((hosted ctx1).ctx 0).kept = [] ∧ ((hosted ctx1).ctx 0).hwin.length < 8 ∧
    8 ≤ ((hosted { ctx1 with hwin := List.replicate 8 { num := 0, slot := 0, q := 0, card := [], blocking := false, st := .sent } }).ctx 0).hwin.length ∧
    (hosted ctx1).link.feat.getLsbD 3 = true ∧ (State.reset).link.feat.getLsbD 3 = false ∧ ((hosted { st := .suspended, twlen := 0 }).ctx 0).twlen.toNat % 128 = 0 ∧
    (tableWrites 0 (spanPieces 0 0) ((hosted { st := .suspended }).peeks none Config.hostBase 0) (hosted { st := .suspended })).1 = true ∧
    (hosted ctx1).mgmt.keys.find? (fun e => e.1 == 0) = some (0, { owner := 0, val := .module 0 }) ∧ ((hosted { st := .faulted, dxlen := 128 }).ctx 0).dxlen ≠ 0 ∧
    ((hosted { st := .faulted, dxlen := 128 }).ctx 0).dxpa.toNat + 128 ≤ (hosted { st := .faulted }).mgmt.hbmSplit * 2 ^ 30 ∧ 3 < ((hosted ctx1).ctx 0).semCount ∧
    ((hosted { st := .allocated }).ctx 0).cwaiting = [] := by and_intros <;> decide +kernel

/-- A context with the handler of the tests, in a state. -/
def handlerCtx (x : Ctx) : State := { hosted { x with id := 1, handler := 0x40000000, troot := 0 } with mem := pages, disp := { images := [(1, handler1)] } }

theorem witness_ContextCommands : (⟨0, 7⟩ : Ctxcmd).slot < 16 ∧ (hosted { st := .ready }).disp.finishing = [] ∧ ((hosted { st := .ready }).ctx 0).claim = none ∧
    (∃ f ∈ [({ slot := 0, q := 0, card := [], status := 0 } : Finishing)], f.slot = 0) ∧ ((hosted { ctx1 with preempting := some .tornDown }).ctx 0).preempting = some .tornDown ∧
    ((hosted { done := false }).ctx 0).done = false ∧ ((hosted {}).ctx 0).st = .free ∧ (hosted {}).link.feat.getLsbD 2 = true ∧
    ((hosted ctx1).ctx 0).id = 1 ∧ (hosted { st := .allocated }).grantsFit 0 { st := .allocated, cmd := 2 } = true ∧
    (hosted { st := .allocated }).grantsFit 0 { st := .allocated, cmd := 2, granth := 0x1800000 } = false ∧
    ((hosted { st := .allocated }).verify 0 0 true).isNone = true ∧ ((handlerCtx { st := .allocated }).verify 0 0x40000000 true).isSome = true ∧
    ((handlerCtx { st := .allocated }).readDirectory 0).isSome = true ∧ ((handlerCtx { st := .allocated, tdir := 1 }).readDirectory 0).isNone = true ∧
    ((hosted { st := .ready }).ctx 0).st = .ready ∧ ((hosted ctx1).ctx 0).st = .running ∧ ((hosted { st := .suspended, qs := true }).ctx 0).qs = true ∧
    ((hosted { st := .tornDown }).ctx 0).st = .tornDown ∧ ((hosted { ctx1 with preempting := some .suspended }).ctx 0).preempting.isSome = true := by
  and_intros <;> decide +kernel

/-- A context whose slice of 1 µs has ended, and another with a card that waits for cores, or none. -/
def sliced (x y : Ctx) : State := { ctxs := [(0, x), (1, y)], wall := 1000 }

/-- An operation of core 0 to a device. -/
def crossing (fn dev : Nat) : Crossing := { fn := fn, block := leBytes 8 dev ++ List.replicate 56 0, addr := .ofNat 64 dev, slot := 0, core := 0, step := 0, wslot := 0, order := 0, issued := 0 }

theorem witness_PreemptionEvents : (sliced { st := .running, preempting := some .tornDown } {}).canSave 0 = true ∧ (sliced { st := .running, preempting := some .tornDown } {}).tags = [] ∧
    (({ sliced {} {} with tags := [(tg 5, ({ forked with op := some (.crossing (crossing 3 2)) }))] } : State).tag (tg 5)).st = .landing ∧ (crossing 3 2).slot = 0 ∧
    ((sliced { st := .running, quantum := 1 } {}).ctx 0).sliceStart + 1 * 1000 ≤ (sliced {} {}).wall ∧
    (sliced { st := .running, quantum := 1 } {}).waitingCards 0 = [] ∧
    (sliced { st := .running, quantum := 1 } { st := .ready, qmap := 1, queues := [(0, ready1)] }).waitingCards 0 = [0] ∧
    ((sliced { st := .suspended, qs := true, sliceWaiters := [1] } {}).ctx 0).qs = true ∧ (1 ∉ (sliced { st := .suspended, qs := true, sliceWaiters := [1] } {}).waitingCards 0) ∧
    (sliced { st := .running, preempting := some .suspended } {}).canSave 0 = true ∧ ((sliced {} {}).ctx 0).preempting = none ∧
    ((sliced { st := .ready } {}).refillWays 0).isSome = true ∧
    ((sliced { st := .ready, claim := some { slices := 1, ways := 1, spilled := true } } {}).refillWays 0).isNone = true := by
  and_intros <;> decide +kernel

/-- C of core 0 waiting for its semaphore 3 since time 0, with a watchdog limit of 1 µs. -/
def dogged (v : BitVec 32) (w : Nat) : State :=
  { seqs := [(.seq 0 0, { run := .blocked, wait := some { kind := 5, obj := 3, cond := .semAtLeast 0 3 5, since := 0, sinceWall := 0 } })],
    cores := [(0, { core1 with sem := [(3, v)], wdog := 1 })], ctxs := [(0, ctx1)], wall := w, mgmt := { main := .ready } }

theorem witness_WaitEvents : (({ clk := 5, seqs := [(.seq 0 0, { idleUntil := 5 })] } : State).seq (.seq 0 0)).idleUntil ≠ 0 ∧ (dogged 5 0).mayIssue (.seq 0 0) = true ∧
    ((dogged 5 0).seq (.seq 0 0)).heldTok = [] ∧ (Cond.semAtLeast 0 3 5).holds (dogged 5 0) = true ∧ (Cond.semAtLeast 0 3 5).holds (dogged 4 0) = false ∧
    (State.reset.mayIssue (.seq 0 0)) = false ∧ ((stuck 8).seq (.seq 0 1)).heldTok ≠ [] ∧ (dogged 4 1000).mayIssue (.seq 0 sqC) = true ∧
    ((dogged 4 1000).core 0).wdog.toNat * 1000 ≤ (dogged 4 1000).wall - 0 ∧ ((dogged 4 999).wall - 0 < ((dogged 4 999).core 0).wdog.toNat * 1000) ∧
    (let s : State := { dogged 5 0 with atraps := [{ who := .seq 0 0, trap := mkTrap .abortedLanding 1, step := 0, slot := 0 }] };
      s.inUse (.seq 0 0) = true ∧ (s.ctx (s.slotOf (.seq 0 0))).st = .running ∧ (s.seq (.seq 0 0)).run ≠ .held ∧ (s.waitingTrap (.seq 0 0)).isSome = true) ∧
    (let w : Wait := { kind := 10, obj := 0xF7, cond := .event 0 100, since := 0, sinceWall := 0 };
      let s : State := { wall := 100, mgmt := { main := .ready }, cores := [(0, core1)], ctxs := [(0, ctx1)], seqs := [(.seq 0 0, { run := .blocked, wait := some w })] };
      s.mayIssue (.seq 0 sqC) = true ∧ (s.seq (.seq 0 sqC)).run = .blocked ∧ (s.seq (.seq 0 sqC)).wait = some w ∧ 100 ≤ s.wall - w.sinceWall) ∧
    (waited (dogged 4 0) (.semAtLeast 0 3 5)).latched (.semAtLeast 0 3 5) = true := by and_intros <;> decide +kernel

/-- This module is device 1, and its context 0 is in job 0. -/
def joined (x : Ctx) : State := { hosted { x with xjob := 0x10000 } with mgmt := { main := .ready, devid := 1, devidSet := true }, cores := [(0, core1)] }

/-- A packet of device 2. -/
def from2 (fn addr : Nat) : Packet := { dev := 2, fn := fn, addr := addr, bytes := [1, 2, 3, 4], len := 4 }

/-- A delivery from module 2 to slot 0. -/
def inbound2 : Inbound := { dev := 2, seq := 0, get := false, slot := 0, addr := 0x1000000000, len := 4, pos := 0, order := 0 }

theorem witness_CrossingEvents : (from2 2 0).stop = false ∧ ({ from2 2 0 with stop := true } : Packet).stop = true ∧ (∃ n ∈ [1], ((2, n) : Nat × Nat) ∉ (joined ctx1).link.performed) ∧
    ¬(∃ n ∈ (from2 2 0).before, (2, n) ∉ (joined ctx1).link.performed) ∧ ({ joined ctx1 with link := { inbound := [inbound2] } } : State).inboundOf false (from2 2 0x1000000000) = some inbound2 ∧
    ({ joined ctx1 with link := { inbound := [{ inbound2 with get := true }] } } : State).inboundOf true (from2 3 0x1000000000) = some { inbound2 with get := true } ∧
    ({ forked with op := some (.crossing (crossing 5 2)) } : Tag).op = some (.crossing (crossing 5 2)) ∧ (crossing 5 2).fn ∈ [2, 3, 4, 5] ∧ (crossing 5 2).order < 1 ∧
    (crossing 5 2).status = none ∧
    ({ crossing 4 1 with status := some 3 } : Crossing).status = some 3 ∧ answers ((joined ctx1).writeFor 0 0 0x1000000030 (leBytes 8 0)) = true ∧
    ({ crossing 1 2 with peers := [2] } : Crossing).status ≠ some 5 ∧ (joined ctx1).hasPosted { crossing 1 2 with peers := [2] } 2 = false ∧
    ({ joined ctx1 with link := { postings := [(0, 2, 2)] } } : State).hasPosted { crossing 1 2 with peers := [2] } 2 = true ∧
    (match (joined ctx1).readOpen 0 0 [] none 0 1 with
      | .error (some _) => true
      | _ => false) = true ∧
    (joined ctx1).jobContext 0 = some 0 ∧ (joined ctx1).jobContext 1 = none ∧ State.reset.mgmt.devidSet = false ∧ (from2 2 0).dev ≠ (joined ctx1).mgmt.devid ∧
    (joined ctx1).inboundOf false (from2 2 0x1000000000) = none ∧ (joined ctx1).slotsFree { owner := .core 255, tag := 64 } 0 [inbound2.box.shape] = true ∧ (joined ctx1).landingWaits 0 0 0x1000000000 4 = false ∧
    ((joined ctx1).landParts 0 0 (some false) (spanPieces 0x1000000000 4) [1, 2, 3, 4]).2.2 = none ∧ ((joined ctx1).landParts 0 0 (some false) (spanPieces 0 1) [1]).2.2.isSome = true ∧
    answers ((joined ctx1).readOpen 0 0 [] none 0x1000000000 4) = true ∧ (0x1000000001 : Nat) % 4 ≠ 0 ∧ answers (locateAll (joined ctx1) 0 .atomic false (spanPieces 0x1000000000 4)) = true ∧
    answers (locateAll (joined ctx1) 0 .atomic false (spanPieces 0 4)) = false ∧ (joined ctx1).meets 0 0x1000000000 4 none = .clear ∧ 3 < ((joined ctx1).ctx 0).semCount ∧
    (joined ctx1).semSum 0 3 1 = some 1 ∧ (joined ctx1).semSum 0 3 (-1) = none ∧
    (crossing 2 1).dev = (joined ctx1).mgmt.devid ∧ (crossing 2 2).dev ≠ (joined ctx1).mgmt.devid ∧ (crossing 3 2).len = (crossing 3 2).moved ∧ (crossing 2 1).timeout = 0 ∧
    (∃ e ∈ [(tg 5, ({ forked with op := some (.crossing { crossing 1 0 with peers := [2] }) } : Tag))],
      ({ joined ctx1 with tags := [e] } : State).collective (from2 1 0) = some (tg 5, { crossing 1 0 with peers := [2] })) ∧
    (0, 2, 0) ∉ (joined ctx1).link.postings ∧ ({ crossing 1 0 with peers := [2], out := [(0, (0, 0))], came := [(0, (4, 4))] } : Crossing).came.get (0, 4) 0 = (4, 4) := by
  and_intros <;> first | decide +kernel | exact ⟨_, .head _, by decide +kernel⟩

/-- A command of core 0 on table 0. -/
def command (fn : Nat) (b : List Byte) : Embedding := { fn := fn, block := b, opt := List.replicate 64 0, slot := 0, core := 0, step := 0, wslot := 0, order := 0 }

/-- The module with that command under way on tag 5. -/
def commanded (fn : Nat) (l : List (Nat × Nat)) : State :=
  { blocked {} l with tags := [(tg 5, { forked with op := some (.embedding (command fn (blockOf (blocked {} l)))) })], mem := (blocked {} l).mem }

theorem witness_EmbeddingEvents : (commanded 0 []).runningCommand (tg 5) = some (command 0 (List.replicate 64 0)) ∧ State.reset.runningCommand (tg 5) = none ∧
    blkN (List.replicate 64 0) = 0 ∧ answers ((commanded 2 []).allIndices (tg 5) (command 2 (List.replicate 64 0)) []) = true ∧
    answers ((commanded 2 [(2, 0x1000000000)]).readFor 0 0 [] (some (tg 5)) 0x1000000000 0) = true ∧
    answers ((commanded 4 []).cmdWrite (command 4 []) 0x1000001000 [1, 2]) = true ∧ (commanded 3 []).supdBefore 0 0 0 = false ∧ tblStep ((commanded 3 []).ctx 0 |>.table 0) = 0 ∧
    (command 3 []).value = 0 ∧ (1 : Nat) ≠ tblStep ((commanded 3 []).ctx 0 |>.table 0) ∧ ((joined ctx2).ctx 0).tableOk 0 = true ∧ (3 : Nat) < tblRows (((joined ctx2).ctx 0).table 0) ∧
    (tblFmt (((joined ctx2).ctx 0).table 0)).bytes = 8 ∧
    (({ joined ctx2 with mem := pages, mgmt := { main := .ready, devid := 1, devidSet := true, keys := [(0, { owner := 0, val := .module 0 })] } } : State).rowPieces 0
      (((joined ctx2).ctx 0).table 0) 3 |> answers) = true := by and_intros <;> decide +kernel

theorem witness_LinkEvents : ({} : Flit).good = true ∧ (List.replicate 238 (0 : Byte)).length ≤ 238 ∧ ((hosted {}).link.flit 1 0 0 []).length = 256 ∧
    (hosted {}).mgmt.main = .ready ∧ (hosted {}).link.up = true ∧ State.reset.link.up = false ∧ ({ good := false } : Flit).good = false ∧
    ({ seqNo := 0 } : Flit).seqNo = (hosted {}).link.rxSeq ∧ ({ seqNo := 1 } : Flit).seqNo ≠ (hosted {}).link.rxSeq ∧ max 2 (leNat [2, 3] % 256) ≤ min 3 (leNat [2, 3] / 256) ∧
    ¬ max 2 (leNat [4, 4] % 256) ≤ min 3 (leNat [4, 4] / 256) ∧ (8 : Nat) < 9 ∧ (hosted {}).link.txBuf.length < 128 ∧
    128 ≤ ({ txBuf := List.replicate 128 (0, []) } : Link).txBuf.length ∧ (hosted {}).link.spare = true ∧ (hosted {}).link.ports.getLsbD 7 = true := by and_intros <;> decide +kernel

/-- A module that boots, with M1 set or not. -/
def booting (m : List Byte) : State := { mgmt := { main := .boot, m1 := m } }

theorem witness_BootEvents : (booting [1]).mgmt.waiting = [] ∧
    State.reset.mgmt.main ≠ .boot ∧ (booting []).mgmt.m1 = [] ∧ (booting [1]).mgmt.m1 ≠ [] ∧ (fwOk ((booting []).mgmt.bank true) 0 = false) ∧
    (fwOk ((booting []).mgmt.bank false) 0 = false) ∧ (hosted {}).mgmt.main = .ready ∧
    ({ clk := 7, mgmt := { throttleAt := some (false, 7) } } : State).mgmt.throttleAt = some (false, 7) := by and_intros <;> decide +kernel

/-- A module with an error under test or repair. -/
def broken (cls kind stage : Nat) : State := { mgmt := { main := .ready, cases := [{ rep := { unitClass := cls, kind := kind }, since := 0, stage := stage }] } }

theorem witness_ErrorEvents : (let s : State := { broken 6 2 0 with mgmt := { (broken 6 2 0).mgmt with unrepaired := [(6, 0, 0)] } }; (6, 0, 0) ∈ s.mgmt.unrepaired ∧ s.mgmt.main = .ready) ∧
    (∀ k ∈ (broken 3 1 0).mgmt.cases, k.stage ≠ 0 ∨ k.rep.unitClass ≠ 6) ∧ (broken 6 2 0).mgmt.cases[0]? = some { rep := { unitClass := 6, kind := 2 }, since := 0 } ∧
    ({ rep := { unitClass := 7, kind := 3 }, since := 0, done := true } : ErrorCase).done = true ∧ (∀ k ∈ (broken 6 2 0).mgmt.cases, k.done = false) ∧
    (({ broken 3 1 0 with cores := [(0, { core1 with committing := true })] } : State).core 0).committing = true ∧
    State.reset.mgmt.main ≠ .ready ∧ (broken 3 1 0).mgmt.main = .ready ∧ (broken 3 1 0).mgmt.cases[0]? = some { rep := { unitClass := 3, kind := 1 }, since := 0 } ∧
    (broken 6 2 0).mgmt.cases[1]? = none ∧ (broken 3 3 1).disp.spares = 8 ∧ ({ broken 3 3 1 with disp := { spares := 0 } } : State).disp.spares = 0 ∧
    (broken 7 3 1).link.spare = true ∧ ({ broken 7 3 1 with link := { spare := false } } : State).link.spare = false ∧ sameLocus { unitClass := 6 } { unitClass := 6 } = true ∧
    ({ unitClass := 3, kind := 1 } : ErrorReport).exists = true ∧ ({ unitClass := 3, unitIndex := 200 } : ErrorReport).exists = false ∧
    ((broken 3 3 1).core 0).slot = none ∧ (({ broken 3 3 1 with cores := [(0, core1)] } : State).core 0).slot ≠ none ∧
    (let u (x : Ctx) (k : Core) : State := { ctxs := [(0, x)], cores := [(0, { k with slot := some 0, group := some 0 })] };
      ((u { preempting := some .suspended } {}).ctx 0).preempting.isSome = true ∧ ((u {} {}).core 0).group = some 0 ∧ ((u {} {}).core 0).slot = some 0 ∧
      ((u {} {}).ctx 0).preempting = none ∧ ((u {} {}).core 0).committing = false ∧ ((u {} { opened := true, nidem := true }).core 0).nidem = true ∧
      ((u {} { bank := some {} }).core 0).bank.isSome = true ∧ ((u {} { opened := true }).core 0).nidem = false ∧ ((u {} {}).core 0).bank = none) ∧
    ((broken 7 3 1).link.pierSpares.get 0 0) < 2 ∧ 2 ≤ ({ broken 7 3 1 with link := { pierSpares := [(0, 2)] } } : State).link.pierSpares.get 0 0 := by
  and_intros <;> decide +kernel

theorem witness_ManagementForms : (booting []).mgmt.waiting = [] ∧ (booting []).attestWaits 0x16 (List.replicate 32 0) = true ∧ (booting [1]).attestWaits 0x16 (List.replicate 32 0) = false ∧
    (let s : State := { booting [] with mgmt := { (booting []).mgmt with waiting := [(0x16, List.replicate 32 0)] } }; s.mgmt.waiting = [(0x16, List.replicate 32 0)]) ∧
    (7 < 8 ∧ 8 < 0x10) ∧ (0x1A < 0x1B ∧ 0x1B ≠ 0x100) ∧
    (hosted {}).mgmt.main = .ready ∧ State.reset.mgmt.main = .off ∧ (booting []).mgmt.main = .boot ∧ ((hosted {}).ctx 15).st = .free ∧
    fieldAt (leBytes 4 4095) 0 4 = 4095 ∧ leNat (leBytes 4 0x3FFFFF) < 2 ^ 22 ∧ leNat (leBytes 2 384) ≤ 384 ∧ fieldAt ([0, 4] : List Byte) 0 1 = 0 ∧ leNat ([4] : List Byte) ≤ 4 ∧
    1200 ≤ leNat (leBytes 2 1200) ∧ leNat (leBytes 2 2000) ≤ 2000 ∧ (leBytes 4 0 ++ List.replicate 1016 (0 : Byte)).length = 1020 ∧
    0x200 + 2 ^ 26 < leNat (leBytes 4 0x4000200) + 1 ∧ ({ hosted ctx1 with mgmt := { main := .ready, dbg := true } } : State).mgmt.dbg = true ∧
    ((hosted ctx1).readAt 0 0x1000000000 512).isSome = true ∧ ((hosted ctx1).readAt 0 0 1).isNone = true ∧
    answers (locateAll (hosted ctx1) 0 .write false (spanPieces 0x1000000000 512)) = true ∧ answers (locateAll (hosted ctx1) 0 .write false (spanPieces 0 1)) = false := by
  and_intros <;> decide +kernel

theorem witness_RoundTrip : WellFormed (.min 3 4 5 1) = true ∧ encode (.min 3 4 5 1) = some 0x20642825 ∧ acceptsMajor .c 8 = true ∧ acceptsFn .c 0x20642825 = true ∧
    missingQueue .c (tokOf 0x20642825) = false ∧ acceptsMajor .pier 8 = true ∧ acceptsFn .pier 0x20642825 = true ∧ pierCrLimit .pier 0x20642825 = false ∧ tokOf 0x20642825 = 0 ∧
    WellFormed (.mbput 0 3) = true ∧ acceptsFn .pier 0x74400C00 = true ∧ (0x74400C00#32).extractLsb' 15 6 = 0 := by and_intros <;> decide +kernel

/-- A module that runs the step of two words at the start of device memory's page on C of core 0, of no kernel. -/
def stepping (w0 w1 : Nat) : State :=
  { agenda := [.run (.seq 0 0)], mem := pages, mgmt := { main := .ready, keys := [(0, { owner := 0, val := .module 0 })] }, ctxs := [(0, ctx1)],
    cores := [(0, { slot := some 0 })], seqs := [(.seq 0 0, { run := .running, pc := 0x40000000 })] } |> fun s => withWords s [(0x40000000, 4, w0), (0x40000004, 4, w1)]

/-- What C would run there. -/
def fetched (s : State) : Option StepWords := match s.fetch (.seq 0 0) with
  | .ok w => some w
  | .error _ => none

theorem witness_StepRunsDecoded : (stepping 0 0).retiringSpan ((stepping 0 0).slotOf (.seq 0 0)) 0x40000000 8 = false ∧ (Instr.min 3 4 5 1).reaches = false ∧ (Instr.min 3 4 5 1).takesTiles = false ∧
    (Agent.seq 0 0).exists = true ∧ (stepping 0 0).mayIssue (.seq 0 0) = true ∧ ((stepping 0 0).seq (.seq 0 0)).run = .running ∧
    (stepping 0 0).waitingTrap (.seq 0 0) = none ∧ ((stepping 0 0).seq (.seq 0 0)).heldTok = [] ∧ ((stepping 0 0).seq (.seq 0 0)).idleUntil ≤ (stepping 0 0).clk ∧
    (stepping 0 0).parked = [] ∧ fetched (stepping 0x20642825 0x24640001) = some { w0 := 0x20642825, w1 := 0x24640001, attr := 0 } ∧
    ((stepping 0 0).seq (.seq 0 0)).pc.toNat % 8 = 0 ∧ ((stepping 0 0).core 0).bank = none ∧ ((stepping 0 0).core 0).kern = none ∧
    ((((stepping 0 0).dropGather (.seq 0 0)).startTokens (.seq 0 0) { w0 := 0x20642825, w1 := 0x24640001, attr := 0 }).1 = true) ∧
    predCheck (.min 3 4 5 1) (.addi 3 4 1) true 0 0 = none ∧ answers (State.firstLoads (stepping 0 0)) = true ∧
    accOf (.min 3 4 5 1) = none ∧ accOf (.macz 0 3) = some 3 ∧ (onM 0 0).accsOf (.seq 0 2) = 4 ∧
    (let s := State.passTime { stepping 0x20642825 0x24640001 with agenda := [] } 1 0;
      s.mayIssue (.seq 0 0) = true ∧ (s.seq (.seq 0 0)).run = .running ∧ fetched s = some { w0 := 0x20642825, w1 := 0x24640001, attr := 0 }) := by and_intros <;> decide +kernel

theorem test_decode_step : decodeWord .c 0x20642825 = .ok (.min 3 4 5 1) ∧ decodeWord .c 0x24640001 = .ok (.addi 3 4 1) ∧ decodeWord .c 0xFFFFFFFF = .error .erased :=
  ⟨rfl, rfl, rfl⟩

theorem witness_MemoryFormKept : (stepping 0x20642825 0x24640001).memOk ∧ State.reset.memOk := by unfold State.memOk; decide +kernel

theorem witness_NoStoreFrame : (match exec (.add 3 1 2) (s1 7) with
    | .next t => decide (t.iss.out ≠ .trapped)
    | _ => false) = true := by decide +kernel

end Sys2Proof.Tests
end

/-! PROOFS. The predicate orders of major 0x02 (05_kernel R131), with what a reserved bit set in a word does at decode (03_encoding R82). -/

namespace Sys2Proof

/-! ### Words of format K -/

/-- Two fields side by side, as a number. -/
theorem toNat_append_eq_add {m n : Nat} (x : BitVec m) (y : BitVec n) : (x ++ y).toNat = x.toNat * 2 ^ n + y.toNat := by
  rw [BitVec.toNat_append, ← Nat.shiftLeft_add_eq_or_of_lt y.isLt, Nat.shiftLeft_eq]

/-- A word of format K is the number that its fields add up to (03_encoding R70). -/
theorem wordK_eq_ofNat {m : BitVec 6} {tok : BitVec 4} {fn a : BitVec 5} {imm : BitVec 12} {v : Nat}
    (h : v = m.toNat * 2 ^ 26 + tok.toNat * 2 ^ 22 + fn.toNat * 2 ^ 17 + a.toNat * 2 ^ 12 + imm.toNat) :
    m ++ tok ++ fn ++ a ++ imm = BitVec.ofNat 32 v := by
  apply BitVec.eq_of_toNat_eq
  simp only [h, toNat_append_eq_add, BitVec.toNat_ofNat]
  omega

theorem encode_pelse (tok : BitVec 4) : encode (.pelse tok) = some (.ofNat 32 (0x08000000 + tok.toNat * 2 ^ 22)) := by
  show some (0x02#6 ++ tok ++ 0#5 ++ 0#5 ++ 0#12) = _
  rw [wordK_eq_ofNat]
  simp only [BitVec.reduceToNat]
  omega

theorem encode_ptrue (tok : BitVec 4) : encode (.ptrue tok) = some (.ofNat 32 (0x08020000 + tok.toNat * 2 ^ 22)) := by
  show some (0x02#6 ++ tok ++ 1#5 ++ 0#5 ++ 0#12) = _
  rw [wordK_eq_ofNat]
  simp only [BitVec.reduceToNat]
  omega

/-! ### Reserved bits at decode -/

/-- A field that is not 0 meets a mask that covers it. -/
theorem and_ne_zero_of_field {w r : BitVec 32} {lo len : Nat} (hr : r.extractLsb' lo len = BitVec.allOnes len) (hw : w.extractLsb' lo len ≠ 0) :
    w &&& r ≠ 0 := by
  intro h
  have e : (w &&& r).extractLsb' lo len = w.extractLsb' lo len := by rw [BitVec.extractLsb'_and, hr, BitVec.and_allOnes]
  exact hw (by rw [← e, h]; exact BitVec.extractLsb'_zero)

/-- A word that its sequencer accepts, of an assigned function, with a bit set that its form reserves: sub-cause 4 (R82). -/
theorem decodeWord_of_reserved_bit {k : SeqKind} {w : BitVec 32} {f : Form} (he : w ≠ 0xFFFFFFFF#32) (hm : reservedMajor (fld w 26 6).toNat = false)
    (ha : acceptsMajor k (fld w 26 6).toNat = true) (hf : acceptsFn k w = true) (hr : readForm w = some f) (hb : w &&& f.reserved ≠ 0#32) :
    decodeWord k w = .error .reservedField := by
  simp [-BitVec.extractLsb'_toNat, decodeWord, he, hm, ha, hf, hr, hb]

/-- C accepts every function of a major other than 0x00 and 0x1D (R74). -/
theorem acceptsFn_c_of_major {w : BitVec 32} (h0 : (fld w 26 6).toNat ≠ 0x00) (hq : (fld w 26 6).toNat ≠ 0x1D) : acceptsFn .c w = true := by
  simp [-BitVec.extractLsb'_toNat, acceptsFn, h0, hq]

/-- Both words of major 0x02 reserve their low 17 bits, a and imm12. -/
theorem readMajor02_reserved {w : BitVec 32} (h : fld w 17 5 = 0 ∨ fld w 17 5 = 1) : ∃ i, readMajor02 w = some ⟨some i, 0x1ffff#32⟩ := by
  rcases h with h | h <;> simp [readMajor02, h]

theorem decodeWord_c_major02_reserved {w : BitVec 32} (hmaj : fld w 26 6 = 2) (hfn : fld w 17 5 = 0 ∨ fld w 17 5 = 1) (hlow : w.extractLsb' 0 17 ≠ 0) :
    decodeWord .c w = .error .reservedField := by
  have hn : (fld w 26 6).toNat = 2 := by rw [hmaj]; rfl
  obtain ⟨i, hi⟩ := readMajor02_reserved hfn
  refine decodeWord_of_reserved_bit ?_ (by rw [hn]; rfl) (by rw [hn]; rfl) (acceptsFn_c_of_major (by omega) (by omega))
    ((Laws.Reads.readForm_02 hmaj).trans hi) (and_ne_zero_of_field (r := 0x1ffff#32) (by decide) hlow)
  rintro rfl
  exact absurd hmaj (by decide)

end Sys2Proof

namespace Sys2Proof.Machine

/-! ### ptrue and pelse on the stack -/

theorem execPtrue_of_room {s : State} (h : s.cur.stack.length < 8) :
    execPtrue s = .next ((s.setCur { s.cur with stack := BitVec.allOnes 1024 :: s.cur.stack }).ended .done) :=
  issueAlways_ok (if_neg (Nat.not_le_of_lt h))

theorem execPtrue_of_full {s : State} (h : 8 ≤ s.cur.stack.length) : execPtrue s = .next (s.takeTrap (mkTrap .predOverflow)) :=
  issueAlways_trap (if_pos h)

theorem execPelse_of_cons {s : State} {top : BitVec 1024} {rest : List (BitVec 1024)} (h : s.cur.stack = top :: rest) :
    execPelse s = .next ((s.setCur { s.cur with stack := (rest.headD (BitVec.allOnes 1024) &&& ~~~top) :: rest }).ended .done) :=
  issueAlways_ok (by simp only [h, topOf])

theorem execPelse_of_empty {s : State} (h : s.cur.stack = []) : execPelse s = .next (s.takeTrap (mkTrap .predUnderflow)) :=
  issueAlways_trap (by simp only [h, raise])

/-- Settles O13: neither order looks at what the top entry holds, only at the stack's depth; a bit set in a or imm12 meets the 17 bits that
both forms reserve. -/
theorem predicateForms : Obligations.PredicateForms := by
  intro s tok
  simp only [exec_ptrue, exec_pelse]
  exact ⟨execPtrue_of_room, execPtrue_of_full, fun _ _ => execPelse_of_cons, execPelse_of_empty, encode_pelse tok, encode_ptrue tok,
    fun _ => decodeWord_c_major02_reserved⟩

end Sys2Proof.Machine

/-! PROOFS. Integer orders of C and the piers, majors 0x08 to 0x0B and 0x0E (12_scalar R236-R241): their words, the values that they give as
integers and bit by bit, and the orders. -/

namespace Sys2Proof

/-! ### Words of format S -/

/-- A word of format S is the number that its fields add up to (03_encoding R70). -/
theorem wordS_eq_ofNat (m : BitVec 6) (d a b : BitVec 5) (mod : BitVec 6) (fn : BitVec 5) :
    m ++ d ++ a ++ b ++ mod ++ fn =
      BitVec.ofNat 32 (m.toNat * 2 ^ 26 + d.toNat * 2 ^ 21 + a.toNat * 2 ^ 16 + b.toNat * 2 ^ 11 + mod.toNat * 2 ^ 5 + fn.toNat) := by
  apply BitVec.eq_of_toNat_eq
  simp only [toNat_append_eq_add, BitVec.toNat_ofNat]
  omega

/-- A word of format S whose mod holds one bit, .u, in its lowest place. -/
theorem wordS_lowBit_eq_ofNat (m : BitVec 6) (d a b : BitVec 5) (u : BitVec 1) (fn : BitVec 5) :
    m ++ d ++ a ++ b ++ 0#5 ++ u ++ fn =
      BitVec.ofNat 32 (m.toNat * 2 ^ 26 + d.toNat * 2 ^ 21 + a.toNat * 2 ^ 16 + b.toNat * 2 ^ 11 + u.toNat * 2 ^ 5 + fn.toNat) := by
  apply BitVec.eq_of_toNat_eq
  simp only [toNat_append_eq_add, BitVec.toNat_ofNat]
  omega

/-- An assigned major all of whose functions C accepts, and that no erased word has (03_encoding R73, R74, R82). -/
def openToC (m : BitVec 6) : Bool :=
  !reservedMajor m.toNat && acceptsMajor .c m.toNat && m != 0x00 && m != 0x1D && m != 0x3F

/-- In such a major a reserved bit that is set is sub-cause 4 (R82). -/
theorem decodeWord_c_of_reserved_bit {w : BitVec 32} {f : Form} (ho : openToC (fld w 26 6) = true) (hr : readForm w = some f)
    (hb : w &&& f.reserved ≠ 0#32) : decodeWord .c w = .error .reservedField := by
  simp only [openToC, Bool.and_eq_true, Bool.not_eq_true', bne_iff_ne] at ho
  obtain ⟨⟨⟨⟨hres, hacc⟩, h0⟩, hq⟩, hones⟩ := ho
  refine decodeWord_of_reserved_bit ?_ hres hacc (acceptsFn_c_of_major (mt ?_ h0) (mt ?_ hq)) hr hb
  · rintro rfl
    exact hones (by decide)
  all_goals exact fun h => BitVec.eq_of_toNat_eq h

/-- A word all of whose mod is reserved, or all but .u, and not 0 there. -/
theorem decodeWord_c_of_mod {w : BitVec 32} (ho : openToC (fld w 26 6) = true)
    (h : (∃ i, readForm w = some ⟨some i, 0x7e0#32⟩) ∧ w.extractLsb' 5 6 ≠ 0 ∨ (∃ i, readForm w = some ⟨some i, 0x7c0#32⟩) ∧ w.extractLsb' 6 5 ≠ 0) :
    decodeWord .c w = .error .reservedField := by
  rcases h with ⟨⟨i, hi⟩, hw⟩ | ⟨⟨i, hi⟩, hw⟩
  · exact decodeWord_c_of_reserved_bit ho hi (and_ne_zero_of_field (r := 0x7e0#32) (by decide) hw)
  · exact decodeWord_c_of_reserved_bit ho hi (and_ne_zero_of_field (r := 0x7c0#32) (by decide) hw)

/-- The functions of major 0x08 without .u reserve all of mod. -/
theorem readMajor08_reserves_mod {w : BitVec 32} (h : fld w 0 5 ∈ [(0 : BitVec 5), 1, 2, 3, 4, 8]) :
    ∃ i, readMajor08 w = some ⟨some i, 0x7e0#32⟩ := by
  simp only [List.mem_cons, List.not_mem_nil, or_false] at h
  rcases h with h | h | h | h | h | h <;> simp [readMajor08, h]

/-- min, max and slt reserve mod but for .u. -/
theorem readMajor08_reserves_high {w : BitVec 32} (h : fld w 0 5 ∈ [(5 : BitVec 5), 6, 7]) : ∃ i, readMajor08 w = some ⟨some i, 0x7c0#32⟩ := by
  simp only [List.mem_cons, List.not_mem_nil, or_false] at h
  rcases h with h | h | h <;> simp [readMajor08, h]

/-- mul reserves all of mod. -/
theorem readMajor0B_reserves_mod {w : BitVec 32} (h : fld w 0 5 = 0) : ∃ i, readMajor0B w = some ⟨some i, 0x7e0#32⟩ := by
  simp [readMajor0B, h]

/-- mulh, div and rem reserve mod but for .u. -/
theorem readMajor0B_reserves_high {w : BitVec 32} (h : fld w 0 5 ∈ [(1 : BitVec 5), 2, 3]) : ∃ i, readMajor0B w = some ⟨some i, 0x7c0#32⟩ := by
  simp only [List.mem_cons, List.not_mem_nil, or_false] at h
  rcases h with h | h | h <;> simp [readMajor0B, h]

theorem decodeWord_c_major08_reserved {w : BitVec 32} (hmaj : fld w 26 6 = 0x08)
    (h : (fld w 0 5 ∈ [(0 : BitVec 5), 1, 2, 3, 4, 8] ∧ fld w 5 6 ≠ 0) ∨ (fld w 0 5 ∈ [(5 : BitVec 5), 6, 7] ∧ fld w 6 5 ≠ 0)) :
    decodeWord .c w = .error .reservedField := by
  refine decodeWord_c_of_mod (by rw [hmaj]; decide) ?_
  rw [Laws.Reads.readForm_08 hmaj]
  exact h.imp (And.imp_left readMajor08_reserves_mod) (And.imp_left readMajor08_reserves_high)

theorem decodeWord_c_major0B_reserved {w : BitVec 32} (hmaj : fld w 26 6 = 0x0B)
    (h : (fld w 0 5 = 0 ∧ fld w 5 6 ≠ 0) ∨ (fld w 0 5 ∈ [(1 : BitVec 5), 2, 3] ∧ fld w 6 5 ≠ 0)) :
    decodeWord .c w = .error .reservedField := by
  refine decodeWord_c_of_mod (by rw [hmaj]; decide) ?_
  rw [Laws.Reads.readForm_0B hmaj]
  exact h.imp (And.imp_left readMajor0B_reserves_mod) (And.imp_left readMajor0B_reserves_high)

end Sys2Proof

namespace Sys2Proof.Machine

/-! ### Orders that write one register -/

/-- The order writes the value that its function has. -/
theorem setReg_eq {s : State} (h : s.acts = true) (d : BitVec 5) {f : State → Word} {v : Word} (e : f s = v) :
    setReg d f s = .next ((s.wr d v).ended .done) := e ▸ setReg_ok h d f

/-- The order writes a value that has the properties of its function's. -/
theorem setReg_writes {s : State} (h : s.acts = true) (d : BitVec 5) {f : State → Word} {P : Word → Prop} (hP : P (f s)) :
    ∃ v, P v ∧ setReg d f s = .next ((s.wr d v).ended .done) := ⟨_, hP, setReg_ok h d f⟩

/-! ### Sums, comparisons and constants as integers (R236-R238) -/

theorem ofNat_toNat_add_toNat (a b : Word) : BitVec.ofNat 64 (a.toNat + b.toNat) = a + b := by
  simp only [BitVec.ofNat_add, BitVec.ofNat_toNat, BitVec.setWidth_eq]

theorem ofInt_toNat_sub_toNat (a b : Word) : BitVec.ofInt 64 ((a.toNat : Int) - b.toNat) = a - b := by
  rw [Int.sub_eq_add_neg, BitVec.ofInt_add, BitVec.ofInt_neg, BitVec.ofInt_natCast, BitVec.ofInt_natCast]
  simp [BitVec.sub_eq_add_neg]

theorem lessThan_signed (a b : Word) : lessThan 0#1 a b = decide (a.toInt < b.toInt) := BitVec.slt_eq_decide

theorem lessThan_unsigned (a b : Word) : lessThan 1#1 a b = decide (a.toNat < b.toNat) := BitVec.ult_eq_decide

/-- A word chosen by a comparison is the integer chosen. -/
theorem choose_signed (a b x y : Word) :
    (if lessThan 0#1 a b = true then x else y) = .ofInt 64 (if a.toInt < b.toInt then x.toInt else y.toInt) := by
  by_cases h : a.toInt < b.toInt <;> simp [lessThan_signed, h]

theorem choose_unsigned (a b x y : Word) :
    (if lessThan 1#1 a b = true then x else y) = .ofNat 64 (if a.toNat < b.toNat then x.toNat else y.toNat) := by
  by_cases h : a.toNat < b.toNat <;> simp [lessThan_unsigned, h]

theorem boolWord_lessThan_signed (a b : Word) : boolWord (lessThan 0#1 a b) = if a.toInt < b.toInt then 1 else 0 := by
  simp [boolWord, lessThan_signed]

theorem boolWord_lessThan_unsigned (a b : Word) : boolWord (lessThan 1#1 a b) = if a.toNat < b.toNat then 1 else 0 := by
  simp [boolWord, lessThan_unsigned]

theorem add_signExtend_eq_ofInt (a : Word) (imm : BitVec 13) : a + imm.signExtend 64 = .ofInt 64 (a.toInt + imm.toInt) := by
  rw [BitVec.ofInt_add, BitVec.ofInt_toInt]; rfl

theorem boolWord_lessThan_signExtend (a : Word) (imm : BitVec 13) :
    boolWord (lessThan 0#1 a (imm.signExtend 64)) = if a.toInt < imm.toInt then 1 else 0 := by
  rw [boolWord_lessThan_signed, BitVec.toInt_signExtend_of_le (by decide)]

/-- The bits that lsh moves in are those that its shift leaves free. -/
theorem shiftLeft_or_imm_eq_ofNat (a : Word) (imm : BitVec 13) : (a <<< 13) ||| imm.zeroExtend 64 = .ofNat 64 (a.toNat * 2 ^ 13 + imm.toNat) := by
  rw [← Nat.shiftLeft_eq, Nat.shiftLeft_add_eq_or_of_lt imm.isLt, BitVec.ofNat_or]
  congr 1
  exact BitVec.eq_of_toNat_eq (by simp)

/-! ### Products and quotients (R239) -/

/-- Either reading of a word names the word. -/
theorem ofInt_intOf (u : BitVec 1) (w : Word) : BitVec.ofInt 64 (intOf u w) = w := by
  unfold intOf
  split
  · rw [BitVec.ofInt_natCast, BitVec.ofNat_toNat, BitVec.setWidth_eq]
  · exact BitVec.ofInt_toInt

/-- The low half of a product is the same for both readings. -/
theorem mul_eq_ofInt (u : BitVec 1) (a b : Word) : a * b = .ofInt 64 (intOf u a * intOf u b) := by
  rw [BitVec.ofInt_mul, ofInt_intOf, ofInt_intOf]

/-- Division truncated toward zero divides the magnitudes and takes the sign apart. -/
theorem tdiv_eq_signed_natAbs (a b : Int) :
    a.tdiv b = if (a < 0) ≠ (b < 0) then -((a.natAbs / b.natAbs : Nat) : Int) else (a.natAbs / b.natAbs : Nat) := by
  match a, b with
  | .ofNat m, .ofNat n => exact (if_neg (by simp [Int.not_ofNat_neg])).symm
  | .ofNat m, .negSucc n => exact (if_pos (by simp [Int.negSucc_lt_zero])).symm
  | .negSucc m, .ofNat n => exact (if_pos (by simp [Int.negSucc_lt_zero])).symm
  | .negSucc m, .negSucc n => exact (if_neg (by simp [Int.negSucc_lt_zero])).symm

section
variable {s : State} {sd sa sb : BitVec 5} {u : BitVec 1} {f : Int → Int → Int}

theorem divide_of_ne_zero (h : s.acts = true) (hb : s.src sb ≠ 0) :
    divide f sd sa sb u s = .next ((s.wr sd (.ofInt 64 (f (intOf u (s.src sa)) (intOf u (s.src sb))))).ended .done) :=
  issue_ok h (if_neg hb)

theorem divide_of_zero (h : s.acts = true) (hb : s.src sb = 0) : divide f sd sa sb u s = .next (s.takeTrap (mkTrap .divideByZero)) :=
  issue_trap h (if_pos hb)

end

/-! ### Shifts (R241) -/

theorem toNat_shl (a : Word) (n : Nat) : (a <<< n).toNat = a.toNat * 2 ^ n % 2 ^ 64 := by
  rw [BitVec.toNat_shiftLeft, Nat.shiftLeft_eq]

theorem toNat_shr (a : Word) (n : Nat) : (a >>> n).toNat = a.toNat / 2 ^ n := by
  rw [BitVec.toNat_ushiftRight, Nat.shiftRight_eq_div_pow]

theorem toInt_sshr (a : Word) (n : Nat) : (a.sshiftRight n).toInt = a.toInt / 2 ^ n := by
  rw [BitVec.toInt_sshiftRight, Int.shiftRight_eq_div_pow, Int.natCast_pow]; rfl

/-! ### Counts of bits (R241) -/

theorem leadingZeros_of_bit {x n : Nat} (h : bit x n = true) : leadingZeros x (n + 1) = 0 := if_pos h

theorem leadingZeros_of_not_bit {x n : Nat} (h : ¬bit x n = true) : leadingZeros x (n + 1) = leadingZeros x n + 1 := if_neg h

theorem trailingZeros_of_bit {x i n : Nat} (h : bit x i = true) : trailingZeros x i (n + 1) = 0 := if_pos h

theorem trailingZeros_of_not_bit {x i n : Nat} (h : ¬bit x i = true) : trailingZeros x i (n + 1) = trailingZeros x (i + 1) n + 1 := if_neg h

theorem leadingZeros_le (x n : Nat) : leadingZeros x n ≤ n := by
  induction n with
  | zero => exact Nat.le_refl 0
  | succ n ih =>
    by_cases hb : bit x n = true
    · simp [leadingZeros_of_bit hb]
    · simpa [leadingZeros_of_not_bit hb] using ih

/-- The bits that clz counts, the highest ones of the `n`, are 0. -/
theorem bit_of_leadingZeros_le {x n j : Nat} (h : n - leadingZeros x n ≤ j) (hj : j < n) : bit x j = false := by
  induction n with
  | zero => omega
  | succ n ih =>
    by_cases hb : bit x n = true
    · rw [leadingZeros_of_bit hb] at h
      omega
    · rw [leadingZeros_of_not_bit hb] at h
      obtain rfl | hlt := Nat.eq_or_lt_of_le (Nat.le_of_lt_succ hj)
      · exact eq_false_of_ne_true hb
      · exact ih (by omega) hlt

/-- The bit below them is 1, where there is one. -/
theorem bit_below_leadingZeros {x n : Nat} (h : leadingZeros x n < n) : bit x (n - leadingZeros x n - 1) = true := by
  induction n with
  | zero => omega
  | succ n ih =>
    by_cases hb : bit x n = true
    · simpa [leadingZeros_of_bit hb] using hb
    · rw [leadingZeros_of_not_bit hb] at h ⊢
      rw [Nat.add_sub_add_right]
      exact ih (by omega)

theorem trailingZeros_le (x i n : Nat) : trailingZeros x i n ≤ n := by
  induction n generalizing i with
  | zero => exact Nat.le_refl 0
  | succ n ih =>
    by_cases hb : bit x i = true
    · simp [trailingZeros_of_bit hb]
    · simpa [trailingZeros_of_not_bit hb] using ih (i + 1)

/-- The bits that ctz counts, from `i` up, are 0. -/
theorem bit_of_lt_trailingZeros {x i n j : Nat} (h : j < trailingZeros x i n) : bit x (i + j) = false := by
  induction n generalizing i j with
  | zero => exact absurd h (Nat.not_lt_zero j)
  | succ n ih =>
    by_cases hb : bit x i = true
    · simp [trailingZeros_of_bit hb] at h
    · cases j with
      | zero => exact eq_false_of_ne_true hb
      | succ j =>
        rw [Nat.add_comm j, ← Nat.add_assoc]
        exact ih (by simpa [trailingZeros_of_not_bit hb] using h)

/-- The bit above them is 1, where there is one. -/
theorem bit_at_trailingZeros {x i n : Nat} (h : trailingZeros x i n < n) : bit x (i + trailingZeros x i n) = true := by
  induction n generalizing i with
  | zero => omega
  | succ n ih =>
    by_cases hb : bit x i = true
    · simpa [trailingZeros_of_bit hb] using hb
    · rw [trailingZeros_of_not_bit hb] at h ⊢
      rw [Nat.add_comm _ 1, ← Nat.add_assoc]
      exact ih (by omega)

theorem onesIn_eq_countP (x n : Nat) : onesIn x n = (List.range n).countP (bit x) := by
  induction n with
  | zero => rfl
  | succ n ih => rw [List.range_succ, List.countP_append, ← ih, List.countP_singleton, onesIn, Nat.add_comm]

/-! ### Bit fields (R241) -/

theorem fieldMask_toNat (wm1 : BitVec 6) : (fieldMask wm1).toNat = 2 ^ (wm1.toNat + 1) - 1 := by
  have h : 2 ^ (wm1.toNat + 1) ≤ 2 ^ 64 := Nat.pow_le_pow_right (by decide) wm1.isLt
  rw [fieldMask, BitVec.toNat_ofNat, Nat.mod_eq_of_lt (by omega)]

theorem fieldMask_getLsbD (wm1 : BitVec 6) (j : Nat) : (fieldMask wm1).getLsbD j = decide (j < wm1.toNat + 1) := by
  rw [BitVec.getLsbD, fieldMask_toNat, Nat.testBit_two_pow_sub_one]

/-- A field taken out of a word; what would lie past bit 63 is 0. -/
theorem toNat_extract_field (a : Word) (wm1 : BitVec 6) (p : Nat) :
    ((a >>> p) &&& fieldMask wm1).toNat = a.toNat / 2 ^ p % 2 ^ (wm1.toNat + 1) := by
  rw [BitVec.toNat_and, fieldMask_toNat, Nat.and_two_pow_sub_one_eq_mod, toNat_shr]

/-- A field put into a word bit by bit: inside the field the bits of the one, outside it those of the other. -/
theorem getLsbD_insert_field (a d : Word) (wm1 : BitVec 6) {p j : Nat} (hj : j < 64) :
    ((d &&& ~~~(fieldMask wm1 <<< p)) ||| ((a <<< p) &&& (fieldMask wm1 <<< p))).getLsbD j =
      if p ≤ j ∧ j < p + wm1.toNat + 1 then a.getLsbD (j - p) else d.getLsbD j := by
  have hm : (fieldMask wm1 <<< p).getLsbD j = decide (p ≤ j ∧ j < p + wm1.toNat + 1) := by
    rw [BitVec.getLsbD_shiftLeft, fieldMask_getLsbD, Bool.eq_iff_iff]
    simp only [hj, decide_true, Bool.true_and, Bool.and_eq_true, Bool.not_eq_true', decide_eq_true_eq, decide_eq_false_iff_not]
    omega
  simp only [BitVec.getLsbD_or, BitVec.getLsbD_and, BitVec.getLsbD_not, hm, hj, BitVec.getLsbD_shiftLeft]
  by_cases h : p ≤ j ∧ j < p + wm1.toNat + 1
  · rw [decide_eq_true h, if_pos h]
    simp [Nat.not_lt.2 h.1]
  · rw [decide_eq_false h, if_neg h]
    simp

/-! ### The orders -/

/-- Settles O1: each order writes one value, which is the integer one by the lemmas above; a word's value is the sum of its fields, and a bit set
in what the form leaves of mod meets the mask that it reserves. -/
theorem arithmeticForms : Obligations.ArithmeticForms := by
  intro s sd sa sb imm h
  simp only [exec_add, exec_sub, exec_and, exec_or, exec_xor, exec_min, exec_max, exec_slt, exec_sel, exec_addi, exec_andi, exec_ori, exec_xori,
    exec_slti, exec_sltiU, exec_lis, exec_lsh]
  refine ⟨?add, ?sub, ?and, ?or, ?xor, ?min, ?minU, ?max, ?maxU, ?slt, ?sltU, ?sel, ?addi, ?andi, ?ori, ?xori, ?slti, ?sltiU, ?lis, ?lsh,
    ⟨?addWord, ?subWord, ?andWord, ?orWord, ?xorWord, fun u => ⟨?minWord, ?maxWord, ?sltWord⟩, ?selWord⟩, fun _ => decodeWord_c_major08_reserved⟩
  case and | or | xor | andi | ori | xori | lis => exact setReg_ok h sd _
  case add => exact setReg_eq h sd (ofNat_toNat_add_toNat _ _).symm
  case sub => exact setReg_eq h sd (ofInt_toNat_sub_toNat _ _).symm
  case min | max => exact setReg_eq h sd (choose_signed _ _ _ _)
  case minU | maxU => exact setReg_eq h sd (choose_unsigned _ _ _ _)
  case slt => exact setReg_eq h sd (boolWord_lessThan_signed _ _)
  case sltU | sltiU => exact setReg_eq h sd (boolWord_lessThan_unsigned _ _)
  case sel => exact setReg_eq h sd (ite_not _ _ _)
  case addi => exact setReg_eq h sd (add_signExtend_eq_ofInt _ _)
  case slti => exact setReg_eq h sd (boolWord_lessThan_signExtend _ _)
  case lsh => exact setReg_eq h sd (shiftLeft_or_imm_eq_ofNat _ _)
  case addWord | subWord | andWord | orWord | xorWord | selWord => exact congrArg some (wordS_eq_ofNat _ sd sa sb 0 _)
  case minWord | maxWord | sltWord => exact congrArg some (wordS_lowBit_eq_ofNat _ sd sa sb u _)

/-- Settles O2: the counts by induction on the bits looked at, the fields bit by bit through their mask. -/
theorem shiftForms : Obligations.ShiftForms := by
  intro s sd sa sb n wm1 h
  simp only [exec_sll, exec_sllImm, exec_srl, exec_srlImm, exec_sra, exec_sraImm, exec_clz, exec_ctz, exec_popc, exec_bext, exec_bins]
  refine ⟨?sll, ?sllImm, ?srl, ?srlImm, ?sra, ?sraImm, fun u => ⟨?clz, ?ctz, ?popc⟩, ?bext, ?bins⟩
  case sll | sllImm => exact setReg_writes h sd (toNat_shl _ _)
  case srl | srlImm => exact setReg_writes h sd (toNat_shr _ _)
  case sra | sraImm => exact setReg_writes h sd (toInt_sshr _ _)
  case clz => exact setReg_writes h sd ⟨_, leadingZeros_le _ _, rfl, fun _ => bit_of_leadingZeros_le, bit_below_leadingZeros⟩
  case ctz =>
    refine setReg_writes h sd ⟨_, trailingZeros_le _ _ _, rfl, fun j hj => ?_, fun hk => ?_⟩
    · exact Nat.zero_add j ▸ bit_of_lt_trailingZeros hj
    · exact Nat.zero_add (trailingZeros _ 0 _) ▸ bit_at_trailingZeros hk
  case popc => exact setReg_writes h sd (congrArg _ (onesIn_eq_countP _ _))
  case bext => exact setReg_writes h sd (toNat_extract_field _ wm1 _)
  case bins => exact setReg_writes h sd fun j hj => getLsbD_insert_field _ _ wm1 hj

/-- Settles O3: the low half of a product does not depend on the reading; a quotient truncated toward zero is that of the magnitudes with its sign,
and the remainder is what it leaves. -/
theorem multiplyDivideForms : Obligations.MultiplyDivideForms := by
  intro s sd sa sb u h
  simp only [exec_mul, exec_mulh, exec_div, exec_rem]
  refine ⟨?mul, ?mulh, fun hb => ⟨?div, ?rem⟩, fun hb => ⟨?divTrap, ?remTrap⟩, ⟨?mulWord, ?mulhWord, ?divWord, ?remWord⟩,
    fun _ => decodeWord_c_major0B_reserved⟩
  case mul => exact setReg_eq h sd (mul_eq_ofInt u _ _)
  case mulh => exact setReg_ok h sd _
  case div => exact (divide_of_ne_zero h hb).trans (by rw [tdiv_eq_signed_natAbs]; rfl)
  case rem => exact (divide_of_ne_zero h hb).trans (by rw [Int.tmod_def, tdiv_eq_signed_natAbs]; rfl)
  case divTrap | remTrap => exact divide_of_zero h hb
  case mulWord => exact congrArg some (wordS_eq_ofNat _ sd sa sb 0 _)
  case mulhWord | divWord | remWord => exact congrArg some (wordS_lowBit_eq_ofNat _ sd sa sb u _)

end Sys2Proof.Machine
